-- ==== Sys2Proof/Word.lean ====
section
/-! DEFINITION. Words, bytes and the one association-list type the state uses (00_scope.md R2, R3). -/

namespace Sys2Proof

/-- A byte (R3). -/
abbrev Byte := BitVec 8
/-- A 32-bit word (R3). -/
abbrev Word := BitVec 32
/-- A 64-bit doubleword (R3). -/
abbrev DWord := BitVec 64

/-- A finite map by number, held as a list of (key, value) pairs with strictly rising keys. Plain data. -/
abbrev Map (α : Type) := List (Nat × α)

/-- An exact dyadic rational m * 2^e: the exact values of chapter 4 before their single rounding. -/
structure Dy where
  m : Int
  e : Int
  deriving DecidableEq, Repr, Inhabited

end Sys2Proof
end

