-- ==== Sys2Proof/Syntax.lean ====
section
/-! DEFINITION. The syntax of the KX9: one constructor of Instr per row of spec/opcode_table.json (172 instruction words of
03_instruction_words.md and the reference chapters, 31 Drify commands, 4 memory-endpoint operations and the device's own
steps). A field holds exactly what the encoding or the command's body gives; a field the encoding confines to w0-w31 is five
bits wide (R66). -/

namespace Sys2Proof

/-- Operands of an A-form word that reads a and b (R73): the last-read marks and the three register fields. -/
structure A3 where
  lb : Bool
  la : Bool
  b : BitVec 7
  a : BitVec 7
  d : BitVec 7
  deriving DecidableEq, Repr, Inhabited

/-- Operands of an A- or I-form word that reads a only: the mark and the two register fields. -/
structure A2 where
  la : Bool
  a : BitVec 7
  d : BitVec 7
  deriving DecidableEq, Repr, Inhabited

/-- Operands of CMP and FCMP (Tables 6.15 and 7.5): combining mode, condition, predicate, marks and sources. -/
structure CmpOps where
  f : BitVec 2
  cond : BitVec 4
  k : BitVec 3
  lb : Bool
  la : Bool
  b : BitVec 7
  a : BitVec 7
  deriving DecidableEq, Repr, Inhabited

/-- Operands of an M-form word (R73, R77). -/
structure MemOps where
  hint : BitVec 2
  lx : Bool
  sz : BitVec 3
  x : BitVec 7
  base : BitVec 5
  d : BitVec 7
  deriving DecidableEq, Repr, Inhabited

/-- The 80 bytes of a task record, field by field with its reserved fields (Table 11.4). -/
structure TaskRec where
  entry : BitVec 32
  affinity : BitVec 16
  fclass : BitVec 8
  prio : BitVec 8
  join : BitVec 32
  weight : BitVec 16
  depth : BitVec 8
  zero : BitVec 8
  args : Vector (BitVec 64) 8
  deriving DecidableEq, Repr

/-- Delivery mode of a packet delivery context (R416). -/
inductive Delivery where
  | rud | rod | uud
  deriving DecidableEq, Repr, Inhabited

/-- The header of a Drify command as the endpoint sees it (R423): the context named, the TSS association it came on (a number
that stands for the association), the sequence number the answer carries, and the mode and number of the packet delivery context. -/
structure Hdr where
  ctx : BitVec 8
  assoc : Nat
  seq : BitVec 32
  mode : Delivery
  pdc : Nat
  deriving DecidableEq, Repr, Inhabited

/-- Body of OPEN (Table 18.8). -/
structure OpenBody where
  keyslot : BitVec 8
  keyop : BitVec 8
  slotQuota : Nat
  ctlQuota : Nat
  save : BitVec 64
  savesz : BitVec 64
  ptroot : BitVec 64
  joinwin : BitVec 64
  faultq : BitVec 64
  rpt : BitVec 64
  rptn : BitVec 32
  linkto : BitVec 32
  mask : BitVec 576
  job : BitVec 24
  wkey : BitVec 384
  deriving DecidableEq, Repr, Inhabited

/-- Body of SETQUOTA (Table 18.8). -/
structure QuotaBody where
  slotQuota : Nat
  ctlQuota : Nat
  save : BitVec 64
  savesz : BitVec 64
  mask : BitVec 576
  deriving DecidableEq, Repr, Inhabited

/-- What a memory-endpoint operation carries (R417): job id, memory key and the virtual address; and the link and the packet delivery
context it comes on. -/
structure PeerHdr where
  link : Nat
  pdc : Nat
  job : BitVec 24
  mkey : BitVec 64
  va : BitVec 64
  deriving DecidableEq, Repr, Inhabited

/-- An operating point or PWRREQ target (R428, Table 19.3). -/
structure OpPoint where
  vmv : Nat
  lfreq : Nat
  ratio : Nat
  deriving DecidableEq, Repr, Inhabited

/-- What the span firmware sets directly (Table 25.1): an operating-point target, CSLR or DDTR. -/
inductive ClusterSetting where
  | target (p : OpPoint)
  | cslr (v : BitVec 32)
  | ddtr (v : BitVec 32)
  deriving DecidableEq, Repr, Inhabited

/-- Where placement puts the groups of a team (R37, R43): for each group in GID order its slot and the physical lane (0-127)
of each logical lane. Placement may choose any permutation, so the choice is data of the move. -/
abbrev Placing := List (Nat × List Nat)

/-- The instructions, commands and events of spec/opcode_table.json, in its order. -/
inductive Instr where
  -- integer (06)
  | add (f : BitVec 2) (o : A3)
  | sub (f : BitVec 2) (o : A3)
  | mul (f : BitVec 2) (o : A3)
  | mad (o : A3)
  | min (f : BitVec 2) (o : A3)
  | max (f : BitVec 2) (o : A3)
  | land (o : A3)
  | lor (o : A3)
  | lxor (o : A3)
  | landn (o : A3)
  | shl (o : A3)
  | shr (o : A3)
  | sar (o : A3)
  | rot (o : A3)
  | popc (o : A2)
  | clz (o : A2)
  | brev (o : A2)
  | ffs (o : A2)
  | bfeN (o : A3)
  | bfeS (o : A3)
  | bfi (o : A3)
  | cmp (o : CmpOps)
  | sel (f : BitVec 2) (o : A3)
  | addi (imm : BitVec 10) (o : A2)
  | andi (imm : BitVec 8) (o : A2)
  | ori (imm : BitVec 8) (o : A2)
  | xori (imm : BitVec 8) (o : A2)
  | andni (imm : BitVec 8) (o : A2)
  | shli (n : BitVec 5) (o : A2)
  | shri (n : BitVec 5) (o : A2)
  | sari (n : BitVec 5) (o : A2)
  | roti (n : BitVec 5) (o : A2)
  | movw (imm : BitVec 18) (d : BitVec 7)
  | movh (imm : BitVec 18) (d : BitVec 7)
  | movx (imm : BitVec 18) (d : BitVec 7)
  | lea (f : BitVec 2) (o : A3)
  | cvti (f : BitVec 2) (o : A2)
  | idot4 (f : BitVec 2) (o : A3)
  | idot4s (f : BitVec 2) (o : A3)
  | idot8 (f : BitVec 2) (o : A3)
  | idot8s (f : BitVec 2) (o : A3)
  -- branches (06)
  | br (off : BitVec 18)
  | brc (off : BitVec 18) (sense : Bool) (k : BitVec 3)
  | brloop (off : BitVec 18) (w : BitVec 5)
  | call (off : BitVec 18)
  -- lane operations (06)
  | lshf (f : BitVec 2) (o : A3)
  | lred (f : BitVec 2) (o : A3)
  | lscan (f : BitVec 2) (o : A3)
  | vote (f : BitVec 2) (k : BitVec 3) (d : BitVec 7)
  -- floating point (07)
  | fadd (o : A3)
  | fsub (o : A3)
  | fmul (o : A3)
  | ffma (o : A3)
  | ffms (o : A3)
  | fnma (o : A3)
  | fmin (o : A3)
  | fmax (o : A3)
  | fcmp (o : CmpOps)
  | frnd (f : BitVec 2) (o : A2)
  | fspec (fn : BitVec 3) (o : A2)
  | cvtf (f : BitVec 2) (code : BitVec 7) (o : A2)
  | fdot (f : BitVec 2) (o : A3)
  | pack (f : BitVec 2) (o : A3)
  | unpack (f : BitVec 2) (o : A3)
  | fscale (f : BitVec 2) (o : A3)
  -- matrix (07)
  | mloop (m z : Bool) (cnt : BitVec 5) (tB tA : BitVec 4) (acc : BitVec 6)
  | mzero (acc : BitVec 6)
  | mload (acc : BitVec 6) (t : BitVec 4)
  | mstore (t : BitVec 4) (acc : BitVec 6)
  | mread (d : BitVec 7) (acc : BitVec 6) (e : BitVec 5)
  | mwrite (acc : BitVec 6) (e : BitVec 5) (d : BitVec 7)
  | mwait (all : Bool) (acc : BitVec 6)
  | tset (t : BitVec 4) (fld : BitVec 4) (s : BitVec 5)
  | tget (d : BitVec 5) (t : BitVec 4) (fld : BitVec 4)
  | tclr (t : BitVec 4)
  -- projection and draw (09)
  | mprojC (acc : BitVec 6) (tA tB menu : BitVec 4)
  | mprojS (acc : BitVec 6) (tA tB menu : BitVec 4)
  | drawcfg (s : BitVec 5)
  | draw (d : BitVec 5) (acc : BitVec 6) (e : BitVec 5)
  | deliver (m : BitVec 5) (t : BitVec 5)
  | drawseed (s : BitVec 5)
  -- memory (08)
  | ld (o : MemOps)
  | st (o : MemOps)
  | lds (o : MemOps)
  | sts (o : MemOps)
  | atom (op : BitVec 4) (scope : BitVec 2) (e : BitVec 5) (x d : BitVec 7)
  | atoms (op : BitVec 4) (e : BitVec 5) (x d : BitVec 7)
  | ldvM (n : BitVec 4) (e : BitVec 5) (x d : BitVec 7)
  | stvM (n : BitVec 4) (e : BitVec 5) (x d : BitVec 7)
  | phaseP (scope : BitVec 2)
  | phaseR (scope : BitVec 2)
  | phase (scope : BitVec 2)
  | waitm (d : Option (BitVec 5)) (e t : BitVec 5)
  | smap (o g l : BitVec 5)
  | sunmap (o : BitVec 5)
  | sflush (o : BitVec 5)
  | prefetch (l2 : Bool) (e : BitVec 5) (x : BitVec 7)
  | fenceS
  -- engines (08)
  | tcopy (t : BitVec 4) (g b : BitVec 5)
  | tstore (t : BitVec 4) (g b : BitVec 5)
  | tstoreA (t : BitVec 4) (g b : BitVec 5)
  | tmcast (t : BitVec 4) (r b : BitVec 5)
  | gather (t : BitVec 4) (g b : BitVec 5)
  | own (t : BitVec 4) (engine : Bool)
  | engineSub (r s : BitVec 5)
  | subend (r : BitVec 5)
  | slotdone (r : BitVec 5) (x : BitVec 7)
  | kvmove (k p b : BitVec 5)
  -- barriers and joins (15)
  | barSync (b : BitVec 4) (n : BitVec 6)
  | barArrive (b : BitVec 4) (n : BitVec 6)
  | barWait (b : BitVec 4)
  | tbarInit (r a : BitVec 5)
  | tbarExpect (s a : BitVec 5)
  | tbarArrive (d : Option (BitVec 5)) (a : BitVec 5)
  | tbarWait (d : Option (BitVec 5)) (p a : BitVec 5)
  | tbarAck (s a : BitVec 5)
  | joinArm (d : Option (BitVec 5)) (p j : BitVec 5)
  | joinArrive (i : BitVec 5) (c : BitVec 7) (j : BitVec 5)
  | joinWait (j : BitVec 5)
  | joinRead (d : BitVec 5) (sel : BitVec 2) (j : BitVec 5)
  | joinCancel (j : BitVec 5)
  | killoff
  | killon
  -- tasks and graphs (11)
  | enq (k : BitVec 3) (q r : BitVec 5)
  | spawn (k : BitVec 3) (r : BitVec 5)
  | launch (k : BitVec 3) (q r : BitVec 5)
  | gpset (g : BitVec 5) (n : BitVec 4) (s : BitVec 5)
  | gpget (d g : BitVec 5) (n : BitVec 4)
  | greplay (k : BitVec 3) (g : BitVec 5)
  -- overlays (13) and flow (06)
  | ovload (d : BitVec 5) (idx : BitVec 7)
  | ovcall (t : BitVec 5) (entry : BitVec 7)
  | ovjump (t : BitVec 5) (entry : BitVec 7)
  | ret
  | ovpin (t : BitVec 5)
  | ovunpin (t : BitVec 5)
  | ovdrop (t : BitVec 5)
  | ovquery (d t : BitVec 5)
  | exit
  | trap (code : BitVec 7)
  | rth
  | nret
  | yield
  | nop
  -- system (06, 10, 14, 17, 19)
  | srd (d : BitVec 7) (sel : BitVec 7)
  | swr (sel : BitVec 7) (s : BitVec 5)
  | reclaimTake (d c l : BitVec 5)
  | reclaimGive (d c l : BitVec 5)
  | resume (kill : Bool) (d h : BitVec 5)
  | tlbinv (a c : BitVec 5)
  | pgquery (d a : BitVec 5) (c : Option (BitVec 5))
  | pwrreq (d : Option (BitVec 5)) (t : BitVec 5)
  | ctxopQuery (d s : BitVec 5)
  | ctxopSwout (d s : BitVec 5)
  | ctxopSwin (d s : BitVec 5)
  | halt
  -- 16-bit forms (03)
  | dict (i : BitVec 10)
  | movH (b d : BitVec 5)
  | addH (b d : BitVec 5)
  | subH (b d : BitVec 5)
  | mulH (b d : BitVec 5)
  | andH (b d : BitVec 5)
  | orH (b d : BitVec 5)
  | xorH (b d : BitVec 5)
  | shlH (b d : BitVec 5)
  | shrH (b d : BitVec 5)
  | sarH (b d : BitVec 5)
  | minH (b d : BitVec 5)
  | maxH (b d : BitVec 5)
  | faddH (b d : BitVec 5)
  | fsubH (b d : BitVec 5)
  | fmulH (b d : BitVec 5)
  | fmaxH (b d : BitVec 5)
  -- Drify commands (18)
  | openCtx (h : Hdr) (b : OpenBody)
  | featans (h : Hdr) (f0 f1 f2 f3 : BitVec 32)
  | setquota (h : Hdr) (b : QuotaBody)
  | close (h : Hdr)
  | swout (h : Hdr)
  | swin (h : Hdr)
  | mappg (h : Hdr) (va entry : BitVec 64) (level : Nat) (zeroFill : Bool)
  | rmtset (h : Hdr) (index : BitVec 32) (entry : BitVec 512)
  | loadk (h : Hdr) (addr : BitVec 64) (size : Nat)
  | readyk (h : Hdr) (kid : Nat)
  | unloadk (h : Hdr) (kid : Nat)
  | launchk (h : Hdr) (qid : Nat) (teams : Nat) (rec : TaskRec)
  | killt (h : Hdr) (handle : BitVec 64) (grid : Bool)
  | resumeg (h : Hdr) (handle : BitVec 64) (kill : Bool)
  | startcg (h : Hdr) (core : Nat) (kid : Nat) (rec : TaskRec)
  | createq (h : Hdr) (qid : Nat) (ovf ovfsz : BitVec 64) (mask : BitVec 576)
  | start (h : Hdr) (qid : Nat)
  | pause (h : Hdr) (qid : Nat)
  | drain (h : Hdr) (qid : Nat)
  | discard (h : Hdr) (qid : Nat)
  | setmask (h : Hdr) (qid : Nat) (mask : BitVec 576)
  | queryq (h : Hdr) (qid seg slot : Nat)
  | drifyEnq (h : Hdr) (qid : Nat) (teams : Nat) (rec : TaskRec)
  | recordg (h : Hdr) (gid count core : Nat) (addr : BitVec 64)
  | freeg (h : Hdr) (gid : Nat)
  | replay (h : Hdr) (gid : Nat) (mask : BitVec 16) (gp : Vector (BitVec 64) 16)
  | portquery (h : Hdr) (link : Nat)
  | portup (h : Hdr) (link : Nat)
  | portdrain (h : Hdr) (link : Nat)
  | setport (h : Hdr) (link : Nat) (ipv4 : BitVec 32) (ipv6 : BitVec 128)
  | attest (h : Hdr) (nonce : BitVec 384)
  -- peers and links (18)
  | peerWrite (p : PeerHdr) (data : List (BitVec 8))
  | peerRead (p : PeerHdr) (len : Nat)
  | peerFetchAdd (p : PeerHdr) (v : BitVec 64)
  | peerCompareSwap (p : PeerHdr) (cmp new : BitVec 64)
  | remoteAck (id : Nat) (v : BitVec 128)
  | linkTimeout (id : Nat)
  | trained (link lanes : Nat)
  | trainFail (link : Nat)
  | laneLoss (link lanes : Nat)
  | laneRegain (link : Nat)
  | drained (link : Nat)
  | signalLoss (link : Nat)
  -- boot, clocks and current (19, 25)
  | moduleReset
  | bootStep (ok : Bool)
  | capChange (cluster cap : Nat)
  | opChangeStart (cluster : Nat)
  | supplyRampDone (cluster : Nat)
  | relockDone (cluster : Nat)
  | droopAlarm (cluster : Nat)
  | droopStretchEnd (cluster : Nat)
  | droopWindowEnd (cluster : Nat)
  | releaseWave (cluster : Nat)
  -- queues, graphs, kernels, teams (11, 12)
  | dispatch (qid seg slot core : Nat) (place : Placing)
  | taskPromotion (qid seg slot : Nat)
  | overflowRefill (qid seg : Nat)
  | graphTask (gid : Nat)
  | graphArm (gid : Nat)
  | graphWait (gid : Nat)
  | graphWrite (gid : Nat)
  | graphEnd (gid : Nat)
  | kernelRelease (kid core : Nat)
  | teamRetire (team : Nat)
  -- groups (14, 15)
  | groupKill (g : Nat)
  | killDeadline (g : Nat)
  | noticeDelivery (g : Nat)
  | groupExpand (g : Nat)
  | groupFold (g : Nat)
  | registerFill (g name : Nat)
  | scratchFill (team line : Nat)
  -- overlays (13)
  | overlayLoadDone (core ctx ov : Nat) (transit : Bool)
  | overlayLoadFail (core ctx ov : Nat) (transit : Bool)
  | overlayEvicted (core ctx ov : Nat) (transit : Bool)
  | transitSwap (core : Nat)
  -- memory, sequencer, engines (05, 07, 08, 16)
  | loadReturn (g n : Nat)
  | publishComplete (g : Nat)
  | stashFillDone (team sector : Nat)
  | waitmWake (g code : Nat)
  | waitmTimeout (g : Nat)
  | sequencerComplete (core : Nat)
  | engineAccept (core op : Nat)
  | sectorLand (core op : Nat)
  | lineComplete (core op line : Nat)
  | engineComplete (core op : Nat)
  | tmcastDelivery (core op : Nat)
  | ackReceive (n : Nat)
  | faultRetry (core op : Nat)
  | fillStart (team ring : Nat)
  | fillDone (core op : Nat)
  | drainStart (team ring slot : Nat)
  | drainDone (core op : Nat)
  | delivery (team row : Nat)
  | deliveryRetry (team row : Nat)
  | faultQueueRetry (ctx : Nat)
  -- context switch and close (10)
  | switchOutStep (ctx : Nat)
  | switchOutDone (ctx : Nat)
  | restorePlace (ctx core : Nat) (place : Placing)
  | closeDone (ctx : Nat)
  -- what is no instruction, no command, no packet (03, 18) and the trusted firmware (25)
  | illegalInstruction (word : BitVec 32)
  | overlayImageFault (off : BitVec 64)
  | badCommand (h : Hdr) (op : BitVec 16)
  | unsupportedOptionPacket (link : Nat)
  | tssAssociation (assoc report : Nat)
  | keystoneReadyToSign
  | spanFirmwareClusterSetting (cluster : Nat) (v : ClusterSetting)
  deriving DecidableEq, Repr, Inhabited

/-- A move of the machine: threads of a group issue (those of `mask` that stand at the PC of its lowest ready lane, R50), an
event of the table takes place, a command that has waited takes effect (R411, R425), a core's sequencer makes one scratch access (R216), or an uncorrectable error appears in sectors of memory (R407, R409) or in a line of a scratchpad (R217). -/
inductive Turn where
  | issue (group : Nat) (mask : BitVec 32)
  | event (i : Instr)
  | command (n : Nat)
  | sequencerAccess (core : Nat)
  | memoryError (sectors : List Nat)
  | scratchError (team line : Nat)
  deriving DecidableEq, Repr, Inhabited

end Sys2Proof
end

