-- ==== Sys2Proof/Config.lean ====
section
/-! DEFINITION. What the manual leaves to the device: free values (constants without a body, so that no proof can see one) and
the fixed figures of one module (01_ciulo_kx9.md Table 1.1). -/

namespace Sys2Proof.Config

/-- Free value: the move the machine makes when the agenda fixes none (R42, R51, R292: order among agents is open). -/
opaque nextTurn : Nat → Turn
/-- Free value: a choice among allowed alternatives; the arguments are the move's tick and a number within the move
(R143 Read, R403, R138 lost update). -/
opaque choice : Nat → Nat → Nat
/-- Free value: a byte of unspecified data (R217, R246, R394, R277); tick and address. -/
opaque freeByte : Nat → Nat → Byte
/-- Free value: the nanoseconds that pass at a move (R5); tick. -/
opaque nsElapsed : Nat → Nat
/-- Free value: the lane cycles that pass in a cluster at a move (R5, R437); tick and cluster. -/
opaque lcElapsed : Nat → Nat → Nat
/-- Free value: the FSPEC result within its bound, a fixed function of function, source word and FTZ (R119). -/
opaque fspecPick : BitVec 3 → Word → Bool → Nat
/-- Free value: the relative error, in units of 2^-32, of a draw weight (R120); numerator of the exponent's fraction. -/
opaque drawError : Word → Word → Word → Int
/-- Free value: the HBM4E stack (0 or 1 of its die) that homes a line (R14, R24: the hash is not stated). -/
opaque lineStack : Nat → Nat
/-- Free value: physical frame of a 64 KiB page the loader maps, where it is free (R305); tick and page number. -/
opaque loaderFrame : Nat → Nat → Nat
/-- Free value: the memory key that OPEN returns (R417); tick. -/
opaque memKey : Nat → DWord
/-- Free value: the context 0 figures the span firmware chooses (R456): 0 slot quota, 1 control slot quota, 2 save area,
3 its size, 4 page-table root, 5 join window, 6 fault queue, 7 remote page table, 8 its entries, 9 link timeout, 10 job id,
11 memory key, 12 the memory behind the join window. -/
opaque context0 : Nat → Nat
/-- Free value: the module serial number (R453). -/
opaque deviceId : BitVec 128
/-- Free value: a measurement that boot writes (R451): 0 MKEY, 1 MSPAN; number of resets. -/
opaque measured : Nat → Nat → BitVec 384
/-- Free value: the device identity key (R450), which signs reports. -/
opaque identityKey : Nat
/-- Free value: numbers that the keystone block draws for a report (R452): 0 the ephemeral TSS key, 1 the signature's; report. -/
opaque reportDraw : Nat → Nat → Nat
/-- Free value: the identity key's certificate chain (R452). -/
opaque certChain : List Byte
/-- Free value: the HBM4E stacks (0 to 7) and LPDDR-6 channel groups (8 to 11) whose training fails at boot step 4 (R451); number of resets. -/
opaque failedMemory : Nat → List Nat
/-- Free value: RESETS, the count of module resets since manufacture, before the reset the model starts from (R453). -/
opaque resetsBefore : Nat

/-- Compute cores (Table 1.1). -/
def computeCores : Nat := 576
/-- Control cores (Table 1.1). -/
def controlCores : Nat := 144
/-- Register rows per physical lane (Table 1.1: 2,048 registers of 32 bits per lane). -/
def rowsPerLane : Nat := 2048
/-- Scratchpad bytes of a core (Table 1.1). -/
def scratchBytes : Nat := 786432
/-- Accumulator tiles of a core (Table 1.1). -/
def accTiles : Nat := 64
/-- The feature offer FEAT0 (R271). -/
def featOffer0 : Word := 0x7F#32

end Sys2Proof.Config
end

