-- ==== Sys2Proof/Machine/State.lean ====
section
/-! DEFINITION. The state of the module as plain data, the reasons a step can stop, and the state after reset. Each field names
the rule that gives the machine that piece of state. -/

namespace Sys2Proof.Machine

/-- Reasons the machine stops. The manual names no event that stops the whole module, so the one fault is the model's. -/
inductive Fault where
  /-- Raised by an instruction whose issuing group or thread is not there (`cur` names no group). No run reaches it: `step`
  issues only for a live thread of a group it has found. Safe. -/
  | noIssuer
  deriving DecidableEq, Repr

/-- Reasons for giving no next state. -/
inductive Refusal where
  /-- Raised by exec's arm of an instruction that has no meaning yet. Safe. -/
  | notModelled (mnemonic : String)
  deriving DecidableEq, Repr

/-! ### The ordering machine (05) -/

/-- Scopes of effect (R133). -/
inductive Scope where
  | core | clus | die | dev | sys
  deriving DecidableEq, Repr, Inhabited

/-- Where an agent sits: its core (0-575 compute, 576-719 control, 1000 and up for skidders and endpoints), cluster and die. -/
structure Agent where
  core : Nat
  clus : Nat
  die : Nat
  deriving DecidableEq, Repr, Inhabited

/-- A publish event: a write of M with its moment, publisher and scope (R132, R138, R141). `reach` holds, for .core .die .dev
.sys, the moment at which p(w) first reached that scope, so p(w) is the widest scope reached;
`olds` holds the newest value of each byte before it, so that the initial value of a byte is known; `atomic` is an atomic's scope. -/
structure Pub where
  id : Nat
  who : Agent
  group : Option Nat
  reach : Vector (Option Nat) 4
  atomic : Option Scope
  key : Nat
  cells : List Host.Cell
  olds : List Host.Cell
  deriving DecidableEq, Repr

/-- Page kinds (Table 17.3). -/
inductive PageKind where
  | hbm | lpddr | trimmed | remote
  deriving DecidableEq, Repr, Inhabited

/-- Where a remote page lies (Table 18.4): the links that carry its traffic, its delivery mode, the peer's job id, address, process id and
security association, the peer address of the page's first byte, and the memory key. -/
structure Peer where
  ports : BitVec 8
  rod : Bool
  job : Nat
  dest : BitVec 128
  pid : Nat
  sa : Nat
  base : DWord
  mkey : DWord
  deriving DecidableEq, Repr, Inhabited

/-- A translation an access keeps (R403): physical address (for a remote page the index and offset in it), key id, kind, and for a remote
page its entry of the remote page table. -/
structure Trans where
  pa : Nat
  key : Nat
  kind : PageKind
  peer : Option Peer
  deriving DecidableEq, Repr, Inhabited

/-- An entry of P_g: one single-copy atomic unit of a pending store (R136 Store, R134). `stale`: a TLBINV covered its page, so it
is translated again at its publish (R403). -/
structure Pend where
  va : DWord
  tr : Trans
  bytes : List Byte
  stale : Bool
  deriving DecidableEq, Repr

/-- A completed invalidation of the TLBs: its moment, the context (none: every context) and the address (none: every page).
What the TLBs of R401 may hold is what R403 bounds: any present, well-formed leaf a page has held since the newest of these that
covers it. -/
structure Inval where
  moment : Nat
  ctx : Option Nat
  va : Option Nat
  deriving DecidableEq, Repr

/-- Who reads memory other than a load of a group: an operation of a core's engine or skidder, an overlay load, the delivery unit at a
slot, a stash fill, an instruction that reads a descriptor at issue, or none who could wait for a peer. -/
inductive Reading where
  | engine (core op : Nat)
  | overlay (core ctx ov : Nat) (transit : Bool)
  | delivery (team row : Nat)
  | stash (team sector : Nat)
  | issue (g : Nat)
  | device
  deriving DecidableEq, Repr

/-- Whose remote access it is: a load of a group, a published entry of a group (with the handle its record of SOURCE 5 names), an atomic of a group's lane, a write of an engine
operation or of the delivery unit, or the read of an aligned 8 B unit (R420, Table 18.5). -/
inductive RemoteKind where
  | load (g load : Nat)
  | entry (g : Nat) (handle : DWord)
  | atomic (g tag lane : Nat)
  | engine (core op : Nat)
  | deliver (team row : Nat)
  | read (by' : Reading) (unit : Nat)
  deriving DecidableEq, Repr

/-- A remote access that a peer has not answered (R419 to R422): context, whose it is, virtual address, the peer and the address there, the
link that carries it (none while it waits for one), what it carries (the bytes a write or a fetch-add sends; for a load, the bytes that
the group's own pending entries supply), and the moment it was sent. -/
structure RemoteOp where
  id : Nat
  ctx : Nat
  kind : RemoteKind
  va : DWord
  peer : Peer
  addr : DWord
  link : Option Nat
  cells : List Host.Cell
  since : Nat
  deriving DecidableEq, Repr

/-- What a peer has answered to the read of a unit, none where the read failed (R420, R422). -/
structure PeerAnswer where
  by' : Reading
  unit : Nat
  val : Option (List Byte)
  deriving DecidableEq, Repr

/-! ### Threads and groups (02, 14) -/

/-- A WAITM under way (R237): the sector waited on, the moment it began, the lane cycle of its timeout, the register of its code,
the instruction after it, and the code of the first cause once one has come (R143). -/
structure Monitor where
  sector : Nat
  began : Nat
  deadline : Nat
  dest : Option (BitVec 5)
  next : BitVec 32
  code : Option Nat
  deriving DecidableEq, Repr

/-- What waits in WAITING(unit) (Table 14.12): an access of GSTAT, MWAIT of one tile or of all, an issue that found the sequencer
queue or the copy-engine queue full, SUB for a stream context of a skidder, DRAWSEED. -/
inductive UnitWait where
  | gstat
  | tile (acc : Nat)
  | tiles
  | sequencer
  | engine
  | stream (skidder : Nat)
  | draws
  deriving DecidableEq, Repr

/-- What waits in WAITING(overlay): a thread for the overlay of its own PC; OVCALL or OVJUMP in its middle, with the entry, the
address after it, the token register while the residency has not been made, and the tick of its issue, for each issue pushes its own
return point (R331); RET with its return offset and the depth of the entry that it read (R332); OVPIN with its register and the
address after it (R333). -/
inductive OvWait where
  | own
  | enter (call : Bool) (entry : Nat) (next : BitVec 32) (token : Option (BitVec 5)) (issued : Nat)
  | ret (off : BitVec 16) (depth : Nat)
  | pin (token : BitVec 5) (next : BitVec 32)
  deriving DecidableEq, Repr

/-- A thread's wait with its reason (R455) and what the instruction needs when it issues again. -/
inductive Wait where
  /-- Waits for phase `phase` of a team barrier to open; whether the issue's own arrival is counted in it (R362). -/
  | bar (b : BitVec 4) (phase : BitVec 16) (counted : Bool)
  /-- Waits at a transaction barrier (R366). -/
  | tbar (off : Nat) (phase : BitVec 4)
  /-- Waits at a join (R376). -/
  | join (index : Nat)
  | monitor (m : Monitor)
  /-- Waits until these lines of the team are present (R157, R230). -/
  | presence (lines : List Nat)
  | overlay (ov : BitVec 16) (what : OvWait)
  | convergence
  /-- Waits until these lines of the team are present and thread-owned (R153). -/
  | owner (lines : List Nat)
  /-- OWN waits until no engine operation of the team uses these lines (R251); its reason is owner. -/
  | inUse (lines : List Nat)
  | unit (u : UnitWait)
  /-- Waits for a Publish that stopped at a MIGRATING page (R403); an atomic under way is named by its tag. -/
  | page (atomic : Option Nat)
  /-- An LDV.M or ATOM in its middle, by its tag, waits for a peer (R232, R235, R420); its group is RUNNING. -/
  | peer (tag : Nat)
  deriving DecidableEq, Repr

/-- A thread (R32 to R34, R45, R49): PC with its overlay and, once it has fetched or entered there, the copy of the overlay that the
PC lies in (R313: whether it is the transit copy), registers by rotated name, predicates, XFER, NPC (with its overlay and the
wait NRET returns to, R328, R357), and the hidden PC, overlay and wait of handler mode (R350). -/
structure Thread where
  live : Bool
  ov : BitVec 16
  copy : Option Bool
  pc : BitVec 32
  v : Map Word
  k : BitVec 8
  xfer : Word
  npc : BitVec 32
  npcOv : BitVec 16
  inNotice : Bool
  npcWait : Option Wait
  savedPc : BitVec 32
  savedOv : BitVec 16
  savedWait : Option Wait
  wait : Option Wait
  deriving DecidableEq, Repr

/-- A thread that is not there, with the values of dispatch: k0 to k7, XFER and NPC are 0 (R291). -/
def Thread.empty : Thread :=
  { live := false, ov := 0, copy := none, pc := 0, v := [], k := 0, xfer := 0, npc := 0, npcOv := 0, npcWait := none,
    inNotice := false, savedPc := 0, savedOv := 0, savedWait := none, wait := none }

/-- States of a group that are not derived (Table 14.1); RUNNING and WAITING are `active`, told apart by the threads' waits. -/
inductive GState where
  | placed
  | active
  | parked (inHandler : Bool)
  | handler
  | killed
  | exited
  deriving DecidableEq, Repr, Inhabited

/-- A return-stack entry (Table 13.4). -/
structure RetEntry where
  mask : BitVec 32
  ov : BitVec 16
  off : BitVec 16
  deriving DecidableEq, Repr

/-- A global load or other register result in flight (R228, R48). `names` are rotated vector names of lane `lane`, or uniform
register numbers when `lane` is none; `val` is absent while a peer has not answered; `held` is the tag of the LDV.M that waits for a word. -/
structure Load where
  id : Nat
  lane : Option Nat
  names : List Nat
  sz : BitVec 3
  val : Option (BitVec 128)
  bad : Bool
  addr : DWord
  held : Option Nat
  deriving DecidableEq, Repr

/-- The atomic step of one lane (R147, R232): its address and operands, the translation of its issue, the remote entries it has to wait
for, whether it has been sent to a peer, the old value once it is there, and the cause and ACCESS of what it failed on. -/
structure AtomStep where
  lane : Nat
  va : DWord
  tr : Trans
  x : Nat
  y : Nat
  before : List Nat
  sent : Bool
  old : Option Nat
  bad : Option (Nat × Nat)
  deriving DecidableEq, Repr

/-- An ATOM in its middle: its tag and the steps of its lanes in ascending order. -/
structure Atom where
  tag : Nat
  steps : List AtomStep
  deriving DecidableEq, Repr

/-- A register whose load met an uncorrectable error and that no instruction has read yet (R228). -/
structure BadReg where
  lane : Option Nat
  name : Nat
  addr : DWord
  deriving DecidableEq, Repr

/-- A Publish whose instruction has not completed (R138, R236): remote operations not acknowledged, the scope, whether a refresh
ends it, and whether it stopped at an entry of a MIGRATING page (R403). -/
structure Publishing where
  scope : Scope
  refresh : Option Scope
  remote : List Nat
  stopped : Bool
  last : Bool
  deriving DecidableEq, Repr

/-- The level a fold gives a group: lane level, physical lanes, resident limit (R340, R341), and whether the residency level changes
(R345). -/
structure FoldPlan where
  level : Nat
  lanes : Vector Nat 32
  resident : Nat
  changes : Bool
  deriving DecidableEq, Repr

/-- A RECLAIM that waits for its victims to fold (R339). -/
structure Reclaiming where
  core : Nat
  dest : BitVec 5
  result : DWord
  deriving DecidableEq, Repr

/-- A group (Table 2.1 and the chapters named in INVENTORY.md). `hosts` are the threads that were live when it was placed: their rows stay
until it retires (R43, R34). `bases` holds, for an LDV.M that waits for a peer, its tag and the address A
of each of its lanes, which one execution forms once (R235). -/
structure Group where
  ctx : Nat
  kernel : Nat
  team : Option Nat
  core : Nat
  slot : Nat
  serial : BitVec 16
  age : Nat
  gid : Nat
  role : Nat
  roleIdx : Nat
  width : Nat
  hosts : BitVec 32
  budget : Nat
  join : Word
  weight : BitVec 16
  depth : Nat
  graph : Option Nat
  st : GState
  threads : Vector Thread 32
  w : Vector DWord 32
  q : Vector DWord 8
  gstat : DWord
  fpen : Word
  rwin : Word
  ntvec : DWord
  ncause : Word
  hcause : DWord
  hpc : DWord
  haddr : DWord
  stack : List RetEntry
  homeLanes : Vector Nat 32
  lanes : Vector Nat 32
  level : Nat
  resident : Nat
  foldCount : BitVec 16
  spilled : List Nat
  lastRead : Map Nat
  wantFill : List Nat
  foldPlan : Option FoldPlan
  reclaiming : Option Reclaiming
  pend : List Pend
  rho : Vector Nat 4
  seen : Map Nat
  loads : List Load
  bases : List (Nat × Nat × DWord)
  atoms : List Atom
  badRegs : List BadReg
  publishing : Option Publishing
  heldPublish : Option Publishing
  dcfg : DWord
  drawKey : DWord
  drawCtr : BitVec 128
  hiddenW : Vector DWord 4
  joinArrived : Bool
  detached : Bool
  killDue : Option Nat
  notices : Map DWord
  deriving DecidableEq, Repr

/-! ### Teams (02, 05, 07, 09, 15, 16) -/

/-- Flags of a 256 B scratch line (R124, Table 16.1): written, engine-owned, absent, spilled to the save area (R342). -/
structure Line where
  written : Bool
  engine : Bool
  absent : Bool
  spilled : Bool
  deriving DecidableEq, Repr, Inhabited

/-- A team barrier (R360): expected count, arrivals, phase, and the phase of each group's last arrival. -/
structure TeamBar where
  n : Nat
  m : Nat
  phase : BitVec 16
  last : Vector (Option (BitVec 16)) 32
  deriving DecidableEq, Repr

/-- A tile descriptor (Table 7.16). -/
structure Desc where
  base : BitVec 20
  fmt : BitVec 4
  rows : BitVec 6
  cols : BitVec 16
  stride : BitVec 32
  inc : BitVec 20
  scale : BitVec 20
  maskq : BitVec 3
  layout : BitVec 8
  deriving DecidableEq, Repr, Inhabited

/-- A row of a stream record (R261): the maximum M, Z and the 64 histogram buckets, as exact weights. -/
structure StreamRow where
  m : Word
  z : Dy
  hist : List Dy
  deriving DecidableEq, Repr

/-- A stream record (R261): its header and its rows. -/
structure Stream where
  sKind : Bool
  nrows : Nat
  dcfg : DWord
  rows : List StreamRow
  deriving DecidableEq, Repr

/-- An accumulator tile (R41, R217): words by 32 * row + column, error bit with the line that raised it, rows rewritten. -/
structure AccTile where
  words : Map Word
  err : Bool
  errOff : Nat
  rowsDone : BitVec 32
  stream : Option Stream
  deriving DecidableEq, Repr

def AccTile.zero : AccTile := { words := [], err := false, errOff := 0, rowsDone := 0, stream := none }

/-- A commit register (Table 9.6): a PENDING token keeps the table and the issuing group of its DELIVER, the ring and the count of
its entry once that is published, and the cause and the address with which its delivery is stalled (R268). -/
inductive Commit where
  | empty
  | held (token : Word)
  | pending (token : Word) (table by' : DWord) (entry : Option (Nat × Nat)) (stalled : Option (Nat × Nat))
  deriving DecidableEq, Repr, Inhabited

/-- A stream descriptor as SUB read it (Table 16.10). -/
structure StreamDesc where
  kind : BitVec 2
  raw : Bool
  fmt : BitVec 4
  layout : BitVec 8
  rows : Nat
  cols : Nat
  stride : Nat
  count : Nat
  origin : DWord
  step : DWord
  deriving DecidableEq, Repr

/-- A subscription (R252, R253): ring header offset, geometry, stream, next tile, skidder, slot words as the skidder last wrote
them, and whether it has ended. -/
structure Sub where
  ring : Nat
  base : Nat
  slotsz : Nat
  nslot : Nat
  bar : Nat
  sd : StreamDesc
  next : Nat
  skid : Nat
  words : List Word
  ended : Bool
  deriving DecidableEq, Repr

/-- A stash window (R238). -/
structure Window where
  off : Nat
  va : Nat
  len : Nat
  deriving DecidableEq, Repr

/-- A dirty stash byte (R128, R129): the group that wrote it last and its translation at the write (R403). -/
structure Dirty where
  gid : Nat
  tr : Trans
  stale : Bool
  deriving DecidableEq, Repr

/-- A team (Table 2.1 and the chapters named in INVENTORY.md). `physical` counts the scratch bytes of the core that it holds (R342,
R346); `stashErrs` are sectors whose fill met an uncorrectable error, with the group that touched them (R407); `reloading` lists the overlays that a restored team has still to reload (R280). -/
structure Team where
  ctx : Nat
  kernel : Nat
  core : Nat
  qid : Nat
  qborn : Nat
  grid : Nat
  index : DWord
  nteam : DWord
  ngrp : Nat
  scratchSize : Nat
  physical : Nat
  accCount : Nat
  scratch : List Host.Cell
  lines : Map Line
  touched : Map Nat
  badLines : List Nat
  bars : Vector TeamBar 16
  tiles : Vector Desc 16
  acc : Map AccTile
  cr : Vector Commit 32
  dtable : DWord
  dtableBy : DWord
  pins : List Nat
  subs : List Sub
  windows : List Window
  stashFull : List Nat
  stashDirty : Map Dirty
  stashFills : List (Nat × Nat)
  stashErrs : List (Nat × Nat)
  unacked : List (Nat × Nat)
  reloading : List Nat
  ended : Bool
  killed : Bool
  deriving DecidableEq, Repr

/-! ### Cores (13, 07, 08) -/

/-- States of a residency (Table 13.1): IDLE, REFERENCED and PINNED are derived from references and pins. -/
inductive ResState where
  | loading | resident | evicting
  deriving DecidableEq, Repr, Inhabited

/-- A residency (R313, R320): its key, region, slot handle, slots it holds, generation, copy of the image, load moment, whether its load stalls, and the
handle of the group for which it loads, which a fault record of the load names (Table 17.6). -/
structure Residency where
  ctx : Nat
  ov : Nat
  transit : Bool
  st : ResState
  handle : Nat
  slots : List Nat
  gen : BitVec 16
  code : List Byte
  moment : Nat
  stalled : Option Nat
  by' : DWord
  deriving DecidableEq, Repr

/-- Sequencer operations (R215) with what they copied at issue. -/
inductive SeqKind where
  | mloop (acc : Nat) (da db : Desc) (n : Nat) (z : Bool) (rm cm : Word)
  | mzero (acc : Nat)
  | mload (acc : Nat) (t : Desc)
  | mstore (acc : Nat) (t : Desc) (frm : BitVec 2)
  | mproj (sKind : Bool) (acc : Nat) (da db : Desc) (n : Nat) (dcfg : DWord)
  | draw (dest : BitVec 5) (acc span table : Nat) (mask : Word) (key : DWord)
  deriving DecidableEq, Repr

/-- An operation of the sequencer as it goes (R216): the count that stood at its issue (R123), how many of its scratch accesses it has made, the bytes that those of the step under
way read, the rows of the two operands and the first line that an uncorrectable error reached (R217), and the flags raised. -/
structure SeqOp where
  issued : Nat
  group : Nat
  team : Nat
  kind : SeqKind
  done : Nat
  seen : List (List Byte)
  badA : BitVec 32
  badB : BitVec 32
  bad : Option Nat
  flags : BitVec 6
  deriving DecidableEq, Repr

/-- Engine, skidder and received-multicast operations. -/
inductive EngKind where
  | tcopy | tstore | tstoreA | tmcast | gather | kvmove | recv | fill | drain
  deriving DecidableEq, Repr, Inhabited

/-- An operation of a core's copy engine, or of a skidder for a ring slot (R243, R392): its operands as copied at issue, whether
it is accepted and when, the lines its acceptance flipped, how many of its sectors have landed, the bytes read so far, its error,
stall and cancel marks, whether its global writes are made, and the remote writes not acknowledged. `ring` and `slot` name a ring
slot; for a received multicast they name the sender's operation and core; for KVMOVE the first entry and the entry size. -/
structure EngOp where
  id : Nat
  kind : EngKind
  group : Option Nat
  team : Nat
  desc : Desc
  raw : Bool
  gaddr : DWord
  bar : Nat
  list : List Nat
  lines : List Nat
  accepted : Bool
  moment : Nat
  flipped : List Nat
  done : Nat
  buf : List Host.Cell
  version : Word
  retries : Nat
  receivers : List Nat
  ring : Nat
  slot : Nat
  err : Bool
  stalled : Option Nat
  stopped : Bool
  abandoned : Bool
  published : Bool
  remote : List Nat
  deriving DecidableEq, Repr

/-- The hold of a core (R339). -/
structure Hold where
  victim : Nat
  lanes : List Nat
  deriving DecidableEq, Repr

structure Core where
  res : List Residency
  slotGen : Map (BitVec 16)
  transitQ : List (Nat × Nat × Nat)
  dicts : List (Nat × Nat)
  serials : Map (BitVec 16)
  hold : Option Hold
  seq : List SeqOp
  eng : List EngOp
  deriving DecidableEq, Repr

def Core.empty : Core :=
  { res := [], slotGen := [], transitQ := [], dicts := [], serials := [], hold := none, seq := [], eng := [] }

/-! ### Clusters (19) -/

inductive ChangePhase where
  | rampUp | relock | rampDown
  deriving DecidableEq, Repr, Inhabited

/-- A change of the operating point: its goal, whether the cap lowers it (R432), its phase and the TSTAMP at which that began. -/
structure Change where
  goal : OpPoint
  capped : Bool
  phase : ChangePhase
  since : Nat
  deriving DecidableEq, Repr

/-- The droop response (R436): idle, the stretch with the lane cycle of its alarm, or the halved-issue window with its first one. -/
inductive Droop where
  | idle
  | stretch (since : Nat)
  | window (since : Nat)
  deriving DecidableEq, Repr, Inhabited

/-- A cluster. `cycle` counts its lane cycles since reset; CYCLE is that count modulo 2^64 (R437). -/
structure Cluster where
  cycle : Nat
  cslr : Word
  ddtr : Word
  point : OpPoint
  target : OpPoint
  mailbox : Option OpPoint
  cap : Option Nat
  capMoved : Bool
  change : Option Change
  throttled : Bool
  droop : Droop
  waveQ : List Nat
  lastWave : Option Nat
  deriving DecidableEq, Repr

/-- A cluster after reset: 675 mV, 850 MHz, EQUAL (R428), CSLR 0x080F (R435), DDTR 25 (R436). -/
def Cluster.initial : Cluster :=
  { cycle := 0, cslr := 0x0000080F#32, ddtr := 25#32, point := ⟨675, 850, 1⟩, target := ⟨675, 850, 1⟩, mailbox := none,
    cap := none, capMoved := false, change := none, throttled := false, droop := .idle, waveQ := [], lastWave := none }

/-! ### Contexts, kernels, queues, graphs, links (10 to 12, 18) -/

inductive CtxState where
  | closed | opening | opened | running | switchedOut | closing
  deriving DecidableEq, Repr, Inhabited

/-- A switch in progress (R279, R280): the step of a switch-out that has begun, or a restore. -/
inductive Switch where
  | none
  | out (step : Nat)
  | restoring
  deriving DecidableEq, Repr, Inhabited

/-- A fault record (Table 17.6) without SEQ, which the post assigns. -/
structure FaultRec where
  source : Nat
  cause : Nat
  access : Nat
  vaddr : DWord
  group : DWord
  hcause : DWord
  hpc : DWord
  detail : DWord
  deriving DecidableEq, Repr

structure SavedTeam where
  uid : Nat
  team : Team
  groups : Map Group
  deriving DecidableEq, Repr

structure Context where
  st : CtxState
  keyslot : Nat
  feat : Vector Word 4
  mask : BitVec 576
  slotQuota : Nat
  ctlQuota : Nat
  save : Nat
  savesz : Nat
  ptroot : Nat
  joinwin : Nat
  faultq : Nat
  rpt : Nat
  rptn : Nat
  linkto : Nat
  job : BitVec 24
  memkey : DWord
  assoc : Nat
  heldRecs : List FaultRec
  switch : Switch
  saved : List SavedTeam
  deriving DecidableEq, Repr

inductive KState where
  | loaded | ready | running | drained
  deriving DecidableEq, Repr, Inhabited

/-- An overlay of a loaded kernel: global address and size of its image, entry count, slots (Table 3.13, R94), and the first word
of its entry table, at which handlers begin (R91). -/
structure Overlay where
  va : DWord
  size : Nat
  entries : Nat
  slots : Nat
  entry0 : Nat
  deriving DecidableEq, Repr

structure Role where
  width : Nat
  count : Nat
  regs : Nat
  deriving DecidableEq, Repr

structure Kernel where
  ctx : Nat
  st : KState
  unload : Bool
  base : Nat
  overlays : List Overlay
  dict : List Word
  data : DWord
  groups : Nat
  roles : List Role
  workset : Nat
  handler : Option Nat
  scratch : Nat
  acc : Nat
  deriving DecidableEq, Repr

inductive QState where
  | created | active | paused | draining | destroyed
  deriving DecidableEq, Repr, Inhabited

/-- A task in a slot or in the overflow ring (Tables 11.3 and 11.4). -/
structure Task where
  record : TaskRec
  grid : Nat
  eprio : Nat
  age0 : Nat
  next : Nat
  nteam : Nat
  deriving DecidableEq, Repr

/-- A segment of a queue (R288, R289): its slots, its spilled tasks with their entries of the overflow ring, its dispatch count. -/
structure Segment where
  slots : Map Task
  spill : List (Nat × Task)
  disp : Nat
  deriving DecidableEq, Repr

def Segment.empty : Segment := { slots := [], spill := [], disp := 0 }

/-- A queue (R285); `born` tells the queues that one QID has named in turn apart. -/
structure Queue where
  ctx : Nat
  born : Nat
  st : QState
  discarding : Bool
  mask : BitVec 576
  ovf : Nat
  ovfsz : Nat
  segs : Map Segment
  deriving DecidableEq, Repr

structure Graph where
  ctx : Nat
  count : Nat
  addr : DWord
  cg : Nat
  gp : Vector DWord 16
  latched : Vector DWord 16
  replaying : Bool
  error : Bool
  pos : Nat
  cmds : List (List Byte)
  armed : List (Nat × BitVec 8)
  deriving DecidableEq, Repr

inductive LinkState where
  | down | training | up | degraded | draining
  deriving DecidableEq, Repr, Inhabited

/-- A link (R413 to R416): its state, good lanes, error counter, failed attempts at training, addresses, and the packet delivery contexts
that peers have opened on it. -/
structure Link where
  st : LinkState
  lanes : Nat
  errors : Nat
  attempts : Nat
  ipv4 : BitVec 32
  ipv6 : BitVec 128
  pdcs : List Nat
  deriving DecidableEq, Repr

def Link.initial : Link := { st := .down, lanes := 0, errors := 0, attempts := 0, ipv4 := 0, ipv6 := 0, pdcs := [] }

/-- What the module sends: a Drify answer (R423, R427), a response of the memory endpoint (R418), the answer to ATTEST (R452), or which
check of LOADK failed first (R305). -/
inductive Answer where
  | drify (op : Nat) (dst : Hdr) (status : Nat) (body : List DWord)
  | endpoint (link : Nat) (ok : Bool) (data : List Byte)
  | report (dst : Hdr) (bytes : List Byte)
  | check (dst : Hdr) (n : Nat)
  deriving DecidableEq, Repr

/-- An acknowledgement on its way to a sender team's barrier (R365). -/
structure Ack where
  team : Nat
  off : Nat
  deriving DecidableEq, Repr

/-- The trusted firmware's progress (R451 to R453): boot step, the measurement registers, and the memory that failed training. -/
structure Firmware where
  step : Nat
  stopped : Bool
  spanOk : Bool
  mkey : BitVec 384
  mspan : BitVec 384
  failed : List Nat
  canSign : Bool
  resets : Nat
  reports : Nat
  liveReports : List Nat
  assocs : List Nat
  keySlots : Map Nat
  keySerial : Nat
  deriving DecidableEq, Repr

/-- The issue being executed: issuing group, lanes of the issue, their PC, the word (zero-extended for H and D forms), the
address after it. -/
structure Issue where
  group : Nat
  mask : BitVec 32
  ov : BitVec 16
  pc : BitVec 32
  next : BitVec 32
  word : Word
  deriving DecidableEq, Repr

/-- The state of the module. `tick`, `agenda`, `cur` and the fresh-number counters are the model's own (INVENTORY.md); `pendingCmds` are
Drify commands that have arrived and have not yet taken effect (R411, R425). -/
structure State where
  tick : Nat
  agenda : List Turn
  cur : Issue
  fresh : Nat
  mem : List Host.Cell
  events : List Pub
  badSectors : List Nat
  invals : List Inval
  tstamp : Nat
  groups : Map Group
  teams : Map Team
  cores : Map Core
  clusters : Map Cluster
  contexts : Map Context
  kernels : Map Kernel
  queues : Map Queue
  graphs : Map Graph
  links : Map Link
  skidders : Map Nat
  remotes : List RemoteOp
  fetched : List PeerAnswer
  acks : List Ack
  answers : List Answer
  pendingCmds : List Instr
  fw : Firmware
  deriving DecidableEq, Repr

/-- No issue in progress. -/
def Issue.none : Issue := { group := 0, mask := 0, ov := 0, pc := 0, next := 0, word := 0 }

/-- The module right after reset (R413, R428, R435, R436, R451, R190): every link DOWN, every cluster at its reset point, counters
at 0, no context open, boot not begun, and no memory byte listed. A map lists only what differs from an absent entry. -/
def State.reset : State :=
  { tick := 0, agenda := [], cur := Issue.none, fresh := 1, mem := [], events := [], badSectors := [], invals := [], tstamp := 0,
    groups := [], teams := [], cores := [], clusters := [], contexts := [], kernels := [], queues := [], graphs := [],
    links := [], skidders := [], remotes := [], fetched := [], acks := [], answers := [], pendingCmds := [],
    fw := { step := 0, stopped := false, spanOk := false, mkey := 0, mspan := 0, failed := [], canSign := false, resets := 1, reports := 0, liveReports := [],
            assocs := [], keySlots := [], keySerial := 0 } }

end Sys2Proof.Machine
end

