-- ==== Sys2Proof/Machine/Maps.lean ====
section
/-! DEFINITION. Reading and writing the state's finite maps and byte memories, free choices, and byte order (R2). -/

namespace Sys2Proof.Machine

/-- The value at a key. -/
def mget {α : Type} : Map α → Nat → Option α
  | [], _ => none
  | (k', v) :: r, k => if k' = k then some v else mget r k

/-- Set the value at a key, keys kept rising. -/
def mput {α : Type} : Map α → Nat → α → Map α
  | [], k, v => [(k, v)]
  | (k', v') :: r, k, v =>
    if k < k' then (k, v) :: (k', v') :: r
    else if k' = k then (k, v) :: r
    else (k', v') :: mput r k v

/-- Remove a key. -/
def mdel {α : Type} : Map α → Nat → Map α
  | [], _ => []
  | (k', v) :: r, k => if k' = k then mdel r k else (k', v) :: mdel r k

/-- The value at a key, or a default. -/
def mgetD {α : Type} (m : Map α) (k : Nat) (d : α) : α := (mget m k).getD d

/-- Set, or remove when the value is the default an absent key stands for. -/
def mputD {α : Type} [DecidableEq α] (m : Map α) (k : Nat) (v d : α) : Map α := if v = d then mdel m k else mput m k v

/-- What a byte of memory that nothing has written reads as. DESIGN CHOICE (log entry 4): 0x00. -/
def unlistedByte : Byte := 0

/-- A byte of a memory. -/
def rdByte (m : List Host.Cell) (a : Nat) : Byte := mgetD m a unlistedByte

/-- Write a byte; a byte equal to the unlisted one is not listed. -/
def wrByte (m : List Host.Cell) (a : Nat) (b : Byte) : List Host.Cell := mputD m a b unlistedByte

/-- `n` bytes from `a` upward. -/
def rdBytes (m : List Host.Cell) (a : Nat) : Nat → List Byte
  | 0 => []
  | n + 1 => rdByte m a :: rdBytes m (a + 1) n

/-- Write bytes from `a` upward. -/
def wrBytes (m : List Host.Cell) (a : Nat) : List Byte → List Host.Cell
  | [] => m
  | b :: r => wrBytes (wrByte m a b) (a + 1) r

/-- The number a run of bytes stands for, least significant first (R2). -/
def leNat : List Byte → Nat
  | [] => 0
  | b :: r => b.toNat + 256 * leNat r

/-- Keys strictly rising and no entry equal to the unlisted byte: the canonical form of a memory. -/
def Memory.wfFrom : Option Nat → List Host.Cell → Bool
  | _, [] => true
  | lo, (k, b) :: r => (match lo with | none => true | some l => decide (l < k)) && decide (b ≠ unlistedByte) && wfFrom (some k) r

def Memory.wf (m : List Host.Cell) : Bool := Memory.wfFrom none m

/-- One of the allowed alternatives: the only one, or a free choice of this move (`n` numbers the choices within the move). -/
def pick {α : Type} (tick n : Nat) : List α → Option α
  | [] => none
  | [a] => some a
  | l => l[Config.choice tick n % l.length]?

/-- The 32 logical lanes in ascending order. -/
def allLanes : List (Fin 32) := List.finRange 32

/-- The lanes of a mask in ascending order. -/
def lanesOf (m : BitVec 32) : List (Fin 32) := allLanes.filter fun i => m.getLsbD i

/-- The mask of a set of lanes. -/
def maskOf (l : List (Fin 32)) : BitVec 32 := l.foldl (fun m i => m ||| BitVec.twoPow 32 i.val) 0

/-- Lowest element of a mask. -/
def lowestLane (m : BitVec 32) : Option (Fin 32) := (lanesOf m).head?

/-- Sign- or zero-extension of the low `n` bits of a number, as integers (R9). -/
def sextN (x n : Nat) : Int := if x % 2 ^ n < 2 ^ (n - 1) then (x % 2 ^ n : Int) else (x % 2 ^ n : Int) - 2 ^ n

/-- `wrap(x, n)` of R9 as a number. -/
def wrapN (x : Int) (n : Nat) : Nat := (x % 2 ^ n).toNat

/-- `sat(x, lo, hi)` of R9. -/
def satI (x lo hi : Int) : Int := if x < lo then lo else if hi < x then hi else x

/-- Bits [hi:lo] of a doubleword as a number. -/
def slice (x : DWord) (lo n : Nat) : Nat := x.toNat / 2 ^ lo % 2 ^ n

/-- Ceiling of a division. -/
def ceilDiv (a b : Nat) : Nat := (a + b - 1) / b

end Sys2Proof.Machine
end

