-- ==== Sys2Proof/Machine/Global.lean ====
section
/-! DEFINITION. Global memory: agents and scopes (R133), publish events (R138, R139, R141), reads (R134, R143), translation
(R395 to R403), trimmed words (R410) and the fault queue (R404). -/

namespace Sys2Proof.Machine

/-! ### Agents and scopes -/

/-- Cluster of a core: compute core c lies in cluster c / 4, control core c in cluster c (R17; core numbers of Table 14.9). -/
def clusOf (core : Nat) : Nat := if core < Config.computeCores then core / 4 else core - Config.computeCores

/-- Die of a cluster: 36 clusters a die (Table 1.1). -/
def dieOfClus (cl : Nat) : Nat := cl / 36

def dieOf (core : Nat) : Nat := dieOfClus (clusOf core)

/-- The agent that the groups, the engine and the overlay loads of a core are (R133). -/
def agentOf (core : Nat) : Agent := { core := core, clus := clusOf core, die := dieOf core }

/-- An agent of a die that sits on no core: a skidder, the memory endpoint's home slice, the device's own writes (R133, R418). -/
def dieAgent (d : Nat) : Agent := { core := 2000 + d, clus := 2000 + d, die := d }

/-- Place of a scope in `reach` and `rho`: .clus counts as .die (R133). -/
def Scope.idx : Scope → Fin 4
  | .core => 0
  | .clus => 1
  | .die => 1
  | .dev => 2
  | .sys => 3

/-- s(a, b): the smallest scope that holds both agents, as a place in `reach` (R133; every agent here is of the module). -/
def between (a b : Agent) : Fin 4 := if a.core = b.core then 0 else if a.die = b.die then 1 else 2

/-- Whether a scope used from agent a reaches agent b, .clus included (Table 5.5). -/
def Scope.reaches (s : Scope) (a b : Agent) : Bool :=
  match s with
  | .core => a.core == b.core
  | .clus => a.clus == b.clus
  | .die => a.die == b.die
  | .dev => true
  | .sys => true

/-- The widest scope a write has reached, as the scope p(w) (.clus is never stored). -/
def Pub.scope (e : Pub) : Scope :=
  if (e.reach[3]).isSome then .sys else if (e.reach[2]).isSome then .dev else if (e.reach[1]).isSome then .die else .core

/-! ### Publish events -/

/-- The key a key slot holds now, as its serial number (R275, R276); a slot that nothing programmed has a key of its own. -/
def keySerial (s : State) (slot : Nat) : Nat := mgetD s.fw.keySlots slot (2 ^ 40 + slot)

/-- Set the places of `reach` up to a scope that are not yet set (R138 step 3). -/
def widenReach (r : Vector (Option Nat) 4) (sc : Scope) (now : Nat) : Vector (Option Nat) 4 :=
  Vector.ofFn fun i => if i ≤ sc.idx ∧ (r[i]).isNone then some now else r[i]

/-- The key of the newest write in a 32 B data unit, none before any write (R275). -/
def unitKey (s : State) (unit : Nat) : Option Nat :=
  (s.events.find? fun e => e.cells.any fun c => decide (c.1 / 32 = unit)).map (·.key)

/-- The bytes that a write under a key spoils: the rest of every data unit that it writes in part and that another key wrote last; they
hold unspecified values from then on (R275, R277). -/
def spoiled (s : State) (key : Nat) (cells : List Host.Cell) : List Host.Cell :=
  (((cells.map fun c => c.1 / 32).eraseDups).filter fun u => (unitKey s u).any (· != key)).flatMap fun u =>
    ((List.range 32).map (32 * u + ·)).filterMap fun a => if (mget cells a).isSome then none else some (a, Config.freeByte s.tick (2 ^ 100 + a))

/-- A publish event of one indivisible write: appended to the coherence order of each byte (R138 step 2, R155, R159). -/
def publish (s : State) (who : Agent) (grp : Option Nat) (atomic : Option Scope) (sc : Scope) (key : Nat) (data : List Host.Cell) : State :=
  let cells := data ++ spoiled s key data
  { s with
    mem := cells.foldl (fun m c => wrByte m c.1 c.2) s.mem
    events := { id := s.fresh, who := who, group := grp, reach := widenReach (Vector.replicate 4 none) sc s.fresh,
                atomic := atomic, key := key, cells := cells, olds := cells.map fun c => (c.1, rdByte s.mem c.1) } :: s.events
    fresh := s.fresh + 1 }

/-- An access that counts as an atomic on its bytes and writes nothing (a failed CAS, R232): seen only by WAITM. -/
def touchEvent (s : State) (who : Agent) (grp : Option Nat) (sc : Scope) (key : Nat) (addrs : List Nat) : State :=
  { s with
    events := { id := s.fresh, who := who, group := grp, reach := widenReach (Vector.replicate 4 none) sc s.fresh,
                atomic := some sc, key := key, cells := [], olds := addrs.map fun a => (a, rdByte s.mem a) } :: s.events
    fresh := s.fresh + 1 }

/-- Widening of every earlier write of group `g` whose p(w) is narrower (R138 step 3, R139). -/
def widen (s : State) (g : Nat) (sc : Scope) : State :=
  { s with
    events := s.events.map fun e => if e.group = some g then { e with reach := widenReach e.reach sc s.fresh } else e
    fresh := s.fresh + 1 }

/-! ### Reads -/

/-- Who reads: the agent, its group if any, its refresh points and what it has seen (R132), and the key it reads under. -/
structure Reader where
  who : Agent
  grp : Option Nat
  rho : Vector Nat 4
  seen : Map Nat
  key : Nat

/-- The visibility moment of a write for a reader, none while it is not visible (R141); a group's own writes always are. -/
def visAt (r : Reader) (e : Pub) : Option Nat :=
  if e.group.isSome && e.group == r.grp then some e.id else e.reach[between e.who r.who]

def writesByte (e : Pub) (pa : Nat) : Bool := (mget e.cells pa).isSome

/-- The events on a byte that the reader may see, newest first: those visible to it (R141), and the one it has read (log entry 117). -/
def visEvents (s : State) (r : Reader) (pa : Nat) : List Pub :=
  s.events.filter fun e => writesByte e pa && ((visAt r e).isSome || decide (mgetD r.seen pa 0 = e.id))

/-- The floor of a byte (R143 step 2), as a moment: the newest forced write or the newest seen. -/
def floorOf (s : State) (r : Reader) (pa : Nat) : Nat :=
  Nat.max (mgetD r.seen pa 0)
    (((visEvents s r pa).filter fun e => match visAt r e with
      | some m => decide (m ≤ r.rho[between e.who r.who])
      | none => false).foldl (fun m e => Nat.max m e.id) 0)

/-- The value of a byte before any event wrote it. -/
def initByte (s : State) (pa : Nat) : Byte :=
  match (s.events.filter (writesByte · pa)).getLast? with
  | some e => rdByte e.olds pa
  | none => rdByte s.mem pa

/-- The newest write of a byte among those a reader sees up to a moment; none is the initial value. -/
def newestAt (s : State) (r : Reader) (cut pa : Nat) : Option Pub := (visEvents s r pa).find? fun e => decide (e.id ≤ cut)

/-- The byte a write left, under the reader's key; unspecified under another key (R277). -/
def byteUnder (s : State) (r : Reader) (pa : Nat) : Option Pub → Byte
  | none => initByte s pa
  | some e => if e.key = r.key then mgetD e.cells pa 0 else Config.freeByte s.tick pa

/-- The moments at which a unit of bytes may be read (R134, R143 step 3): those of its visible writes, or none of them (0), that
are not older than any byte's floor. -/
def cuts (s : State) (r : Reader) (pas : List Nat) : List Nat :=
  ((0 :: (pas.flatMap fun pa => (visEvents s r pa).map (·.id))).eraseDups).filter fun c =>
    pas.all fun pa => decide (floorOf s r pa ≤ ((newestAt s r c pa).map (·.id)).getD 0)

/-- Read of one single-copy atomic unit: the values and the writes read (R143). Where several are allowed the choice is free. -/
def readUnit (s : State) (r : Reader) (salt : Nat) (pas : List Nat) : List (Byte × Nat) :=
  let c := (pick s.tick (2 ^ 80 + salt * 2 ^ 64 + pas.headD 0) (cuts s r pas)).getD s.fresh
  pas.map fun pa => let e := newestAt s r c pa; (byteUnder s r pa e, (e.map (·.id)).getD 0)

/-- The newest value of bytes in coherence order, as a physically addressed access of the device reads them (R404, R147). -/
def newestBytes (s : State) (key : Nat) (pas : List Nat) : List Byte :=
  pas.map fun pa => match s.events.find? (writesByte · pa) with
    | some e => if e.key = key then mgetD e.cells pa 0 else Config.freeByte s.tick pa
    | none => rdByte s.mem pa

/-- Physical addresses from `pa` upward. -/
def paRange (pa n : Nat) : List Nat := (List.range n).map (pa + ·)

/-- An uncorrectable data error stands in the sector of a byte (R407, R409). -/
def badByte (s : State) (pa : Nat) : Bool := s.badSectors.contains (pa / 32)

/-! ### Page tables -/

/-- HBM4E and LPDDR-6 ranges of the physical map (R14, Table 1.3). No device register decodes in the register window. -/
def inHbm (pa : Nat) : Bool := decide (pa < 0x8000000000)
def inLpddr (pa : Nat) : Bool := decide (0x20000000000 ≤ pa ∧ pa < 0x40000000000)
def inMemory (pa : Nat) : Bool := inHbm pa || inLpddr pa

/-- Home die of a physical address (Table 1.3). -/
def homeDie (pa : Nat) : Nat := if inHbm pa then pa / 0x2000000000 else (pa - 0x20000000000) / 0x8000000000

/-- The HBM4E stack, 0 to 7, or the LPDDR-6 channel group, 8 to 11, that backs a byte (Table 1.3). -/
def memoryUnit (pa : Nat) : Nat := if inHbm pa then 2 * homeDie pa + Config.lineStack (pa / 256) % 2 else 8 + homeDie pa

/-- A line of a range lies in memory that failed its training (R451). -/
def failedIn (failed : List Nat) (a n : Nat) : Bool :=
  !failed.isEmpty && (List.range ((a + n - 1) / 256 - a / 256 + 1)).any fun i => failed.contains (memoryUnit (256 * (a / 256 + i)))

/-! ### Memory that a context may not map -/

/-- Ranges of the same space overlap. -/
def overlaps (a n b m : Nat) : Bool := decide (a < b + m ∧ b < a + n)

/-- The areas of context 0 in physical memory, with their sizes: save area, page-table root, fault queue, remote page table, and the memory
behind the join window (R456). -/
def zeroAreas (f : Nat → Nat) : List (Nat × Nat) :=
  [(f 2 * 65536, f 3 * 65536), (f 4 * 4096, 4096), (f 6 * 64, 64 + 64 * 2 ^ 15), (f 7 * 64, 64 * f 8), (f 12 * 65536, 2 ^ 30)]

/-- Figures for context 0 that the span firmware may choose: areas in memory that has not failed, apart from one another (R456, R451). -/
def zeroOk (failed : List Nat) (f : Nat → Nat) : Bool :=
  (zeroAreas f).all (fun a => inMemory a.1 && inMemory (a.1 + a.2 - 1) && decide (inHbm a.1 = inHbm (a.1 + a.2 - 1)) && !failedIn failed a.1 a.2) &&
  decide ((zeroAreas f).Pairwise fun a b => overlaps a.1 a.2 b.1 b.2 = false) && decide (f 5 < 2 ^ 27) && decide (f 8 < 2 ^ 32)

/-- Figures for context 0 with its areas from an address on. -/
def zeroFrom (a i : Nat) : Nat :=
  match i with
  | 2 => a / 65536
  | 3 => 16
  | 4 => a / 4096 + 0x1000
  | 6 => a / 64 + 0x80000
  | 7 => a / 64 + 0x100000
  | 12 => a / 65536 + 0x4000
  | _ => 0

/-- The figures that the span firmware has chosen: the free ones where they may be chosen, else areas on the first die, or in the first
channel group, whose memory has not failed there. -/
def zeroFig (failed : List Nat) : Nat → Nat :=
  if zeroOk failed Config.context0 then Config.context0
  else zeroFrom ((([0, 1, 2, 3].map (0x2000000000 * ·) ++ [0, 1, 2, 3].map (0x20000000000 + 0x8000000000 * ·)).find? fun a =>
    zeroOk failed (zeroFrom a)).getD 0)

/-- The memory that the span firmware holds for context 0, once it is open (R456). -/
def zeroRanges (s : State) : List (Nat × Nat) := if (mget s.contexts 0).isSome then zeroAreas (zeroFig s.fw.failed) else []

/-- A range meets the save area of a context (R281). -/
def inSave (s : State) (a n : Nat) : Bool := s.contexts.any fun p => decide (p.2.savesz ≠ 0) && overlaps a n p.2.save p.2.savesz

/-- A range that is mapped for no group of a context: a save area (R281), memory that failed its training (R451), and for another context
what context 0 holds (R456). -/
def mapsNone (s : State) (ctx a n : Nat) : Bool :=
  inSave s a n || failedIn s.fw.failed a n || (decide (ctx ≠ 0) && (zeroRanges s).any fun p => overlaps a n p.1 p.2)

/-! ### Walks -/

/-- Index shift and number of index bits of a level (Table 17.4). -/
def levelBits : Nat → Nat × Nat
  | 0 => (16, 5)
  | 1 => (21, 8)
  | 2 => (29, 3)
  | 3 => (32, 7)
  | 4 => (39, 9)
  | _ => (48, 9)

/-- Size of a page whose leaf stands at a level (Table 17.4). -/
def pageSize (lvl : Nat) : Nat := 2 ^ (levelBits lvl).1

def vaIndex (va lvl : Nat) : Nat := va / 2 ^ (levelBits lvl).1 % 2 ^ (levelBits lvl).2

def tableSize (lvl : Nat) : Nat := 8 * 2 ^ (levelBits lvl).2

/-- What a walk finds (R399): no present leaf, a malformed entry, or a leaf with its level. -/
inductive Walk where
  | absent
  | malformed
  | leaf (e : DWord) (lvl : Nat)
  deriving DecidableEq, Repr, Inhabited

def leafKind (e : DWord) : Nat := slice e 5 2
def leafPa (e : DWord) : Nat := slice e 16 36 * 65536
def leafMig (e : DWord) : Bool := e.getLsbD 7
def leafKey (e : DWord) : Nat := slice e 8 8

/-- A leaf entry at a level is well formed (R397, R399). -/
def leafOk (e : DWord) (lvl : Nat) : Bool :=
  decide (slice e 52 12 = 0) && decide (lvl ≤ 3) &&
  match leafKind e with
  | 0 => decide (leafPa e % pageSize lvl = 0) && inHbm (leafPa e)
  | 1 => decide (leafPa e % pageSize lvl = 0) && inLpddr (leafPa e)
  | 2 => decide (lvl = 1) && decide (leafPa e % 0x100000 = 0) && inLpddr (leafPa e)
  | _ => decide (lvl ≤ 1)

/-- A pointer entry found at a level is well formed (R399). -/
def pointerOk (e : DWord) (lvl : Nat) : Bool :=
  decide (slice e 52 12 = 0) && decide (slice e 2 4 = 0) && decide (1 ≤ lvl) &&
  decide (slice e 6 46 * 64 % tableSize (lvl - 1) = 0) && inMemory (slice e 6 46 * 64)

/-- One entry of a walk, the table one level down being walked by `down` (R398, R399). -/
def walkEntry (e : DWord) (lvl : Nat) (down : Nat → Walk) : Walk :=
  if !e.getLsbD 0 then .absent
  else if e.getLsbD 1 then (if leafOk e lvl then .leaf e lvl else .malformed)
  else if pointerOk e lvl then down (slice e 6 46 * 64) else .malformed

/-- A walk from the table of a level downward (R398). -/
def walkFrom (rd : Nat → DWord) (va : Nat) : Nat → Nat → Walk
  | 0, base => walkEntry (rd (base + 8 * vaIndex va 0)) 0 fun _ => .malformed
  | l + 1, base => walkEntry (rd (base + 8 * vaIndex va (l + 1))) (l + 1) (walkFrom rd va l)

def u64 (n : Nat) : DWord := BitVec.ofNat 64 n
def u32 (n : Nat) : Word := BitVec.ofNat 32 n

/-- A page-table entry as an engine read of a moment finds it: only published values (R402). -/
def rdEntry (s : State) (who : Agent) (moment pa : Nat) : DWord :=
  let r : Reader := { who := who, grp := none, rho := Vector.replicate 4 moment, seen := [], key := 0 }
  u64 (leNat ((paRange pa 8).map fun a => match newestAt s r moment a with
    | some e => mgetD e.cells a 0
    | none => initByte s a))

/-- A walk of a context's table at a moment (R398). -/
def walkAt (s : State) (c : Context) (who : Agent) (va moment : Nat) : Walk :=
  if inMemory c.ptroot && decide (c.ptroot % 4096 = 0) then walkFrom (rdEntry s who moment) va 5 c.ptroot else .malformed

/-- Newest completed invalidation that covers the page of an address whose leaf stands at a level (R403, R412). -/
def lastInval (s : State) (ctx va lvl : Nat) : Nat :=
  ((s.invals.filter fun i => (i.ctx.isNone || i.ctx == some ctx) && (i.va.isNone || i.va.any (· / pageSize lvl == va / pageSize lvl))).map
    (·.moment)).foldl Nat.max 0

/-- Moments at which a leaf entry may have taken a value: the start, publish events and their widenings, and invalidations. -/
def leafMoments (s : State) : List Nat :=
  (0 :: ((s.events.flatMap fun e => e.id :: e.reach.toList.filterMap id) ++ s.invals.map (·.moment))).eraseDups

/-- The leaves an access may use (R403): what a walk finds now and every present, well-formed leaf that the page has held since
the newest invalidation that covers it. -/
def leafChoices (s : State) (ctx : Nat) (c : Context) (who : Agent) (va : Nat) : List Walk :=
  let past := (leafMoments s).filterMap fun m => match walkAt s c who va m with
    | .leaf e lvl => if lastInval s ctx va lvl ≤ m then some (.leaf e lvl) else none
    | _ => none
  (walkAt s c who va s.fresh :: past).eraseDups

/-- Permissions an access needs (R400). -/
structure Need where
  r : Bool
  w : Bool
  x : Bool
  atomic : Bool
  deriving DecidableEq, Repr

def Need.read : Need := { r := true, w := false, x := false, atomic := false }
def Need.write : Need := { r := false, w := true, x := false, atomic := false }
def Need.rmw : Need := { r := true, w := true, x := false, atomic := true }
/-- No permission: where a page is homed, not an access to it. -/
def Need.locate : Need := { r := false, w := false, x := false, atomic := false }
def Need.exec : Need := { r := false, w := false, x := true, atomic := false }

/-- ACCESS byte of a fault record (Table 17.6). -/
def Need.code (n : Need) (mig : Bool) : Nat :=
  (if n.r then 1 else 0) + (if n.w then 2 else 0) + (if n.x then 4 else 0) + (if n.atomic then 8 else 0) + (if mig then 16 else 0)

/-- Why a translation fails: the cause and the ACCESS byte. -/
structure XFault where
  cause : Nat
  access : Nat
  deriving DecidableEq, Repr

/-- A remote page table entry as 512 bits (Table 18.4): V set, at least one port, zero fields zero. -/
def rptEntryOk (e : Nat) : Bool :=
  decide (e % 2 = 1) && decide (e / 4 % 64 = 0) && decide (e / 2 ^ 8 % 256 ≠ 0) && decide (e / 2 ^ 16 % 2 ^ 16 = 0) &&
  decide (e / 2 ^ 56 % 256 = 0) && decide (e / 2 ^ 204 % 2 ^ 20 = 0) && decide (e / 2 ^ 224 % 2 ^ 32 ≤ 4095) &&
  decide (e / 2 ^ 384 = 0)

/-- The peer that an entry of the remote page table names (Table 18.4). -/
def peerOf (e : Nat) : Peer :=
  { ports := BitVec.ofNat 8 (e / 2 ^ 8), rod := decide (e / 2 % 2 = 1), job := e / 2 ^ 32 % 2 ^ 24, dest := BitVec.ofNat 128 (e / 2 ^ 64),
    pid := e / 2 ^ 192 % 2 ^ 12, sa := e / 2 ^ 224 % 2 ^ 32, base := BitVec.ofNat 64 (e / 2 ^ 256), mkey := BitVec.ofNat 64 (e / 2 ^ 320) }

/-- Entry of the remote page table of a context (R419), read by physical address. -/
def rptEntry (s : State) (c : Context) (who : Agent) (i : Nat) : Nat :=
  let r : Reader := { who := who, grp := none, rho := Vector.replicate 4 s.fresh, seen := [], key := 0 }
  leNat ((paRange (c.rpt + 64 * i) 64).map fun a => match newestAt s r s.fresh a with
    | some e => mgetD e.cells a 0
    | none => initByte s a)

/-- The translation a leaf gives an access, or its failure (R400, R406, R419). The address of a trimmed or remote page counts
bytes of the virtual page (log entry 9). -/
def leafTrans (s : State) (c : Context) (who : Agent) (va : Nat) (n : Need) : Walk → Except XFault Trans
  | .absent => .error { cause := 3, access := n.code false }
  | .malformed => .error { cause := 4, access := n.code false }
  | .leaf e lvl =>
    let off := va % pageSize lvl
    if n.x && !e.getLsbD 4 then .error { cause := 5, access := n.code false }
    else if (n.r && !e.getLsbD 2) || (n.w && !e.getLsbD 3) then .error { cause := 4, access := n.code false }
    else if leafKind e = 3 then
      if leafKey e ≠ 0 ∨ c.rptn ≤ slice e 16 36 ∨ inMemory (c.rpt + 64 * slice e 16 36) = false ∨
          ¬ rptEntryOk (rptEntry s c who (slice e 16 36)) then
        .error { cause := 4, access := n.code false }
      else if n.w && leafMig e then .error { cause := 3, access := n.code true }
      else .ok { pa := slice e 16 36 * 2 ^ 21 + off, key := 0, kind := .remote, peer := some (peerOf (rptEntry s c who (slice e 16 36))) }
    else if leafKey e ≠ c.keyslot then .error { cause := 4, access := n.code false }
    else if leafKind e = 2 then
      if n.atomic || n.x then .error { cause := 4, access := n.code false }
      else if n.w && leafMig e then .error { cause := 3, access := n.code true }
      else .ok { pa := 2 * leafPa e + off, key := leafKey e, kind := .trimmed, peer := none }
    else if n.w && leafMig e then .error { cause := 3, access := n.code true }
    else .ok { pa := leafPa e + off, key := leafKey e, kind := if leafKind e = 0 then .hbm else .lpddr, peer := none }

/-- The data unit of a leaf's page that an access meets is one that no group of the context may reach, whoever wrote the leaf: the leaf maps
nothing there (R281, R451, R456). DEDUCED (log entry 102): the access fails as one of a malformed leaf does. -/
def leafBarred (s : State) (ctx va : Nat) : Walk → Bool
  | .leaf e lvl =>
    let off := va % pageSize lvl
    decide (leafKind e ≠ 3) && mapsNone s ctx ((leafPa e + if leafKind e = 2 then off / 2 else off) / 32 * 32) 32
  | _ => false

/-- Translation of an access of an agent of a context (R122, R400, R403). -/
def translate (s : State) (ctx : Nat) (who : Agent) (salt : Nat) (va : DWord) (n : Need) : Except XFault Trans :=
  if 2 ^ 57 ≤ va.toNat then .error { cause := 4, access := n.code false }
  else match mget s.contexts ctx with
    | none => .error { cause := 4, access := n.code false }
    | some c =>
      match pick s.tick (salt * 2 ^ 64 + va.toNat) (leafChoices s ctx c who va.toNat) with
      | none => .error { cause := 3, access := n.code false }
      | some w => if leafBarred s ctx va.toNat w then .error { cause := 4, access := n.code false } else leafTrans s c who va.toNat n w

/-- The page of an address is a trimmed page, whatever access it permits (R410). -/
def trimmedAt (s : State) (ctx : Nat) (who : Agent) (salt : Nat) (va : DWord) : Bool :=
  match translate s ctx who salt va .locate with
  | .ok t => decide (t.kind = .trimmed)
  | .error _ => false

/-- The table entry a PGQUERY reports: the published table, TLBs bypassed (R412). -/
def walkNow (s : State) (ctx : Nat) (who : Agent) (va : Nat) : Walk :=
  match mget s.contexts ctx with
  | none => .absent
  | some c => walkAt s c who va s.fresh

/-! ### Bytes of a translated unit -/

/-- Physical byte that holds byte `a` of the space of a trimmed page: the upper half of each word (R410). -/
def trimByte (a : Nat) : Option Nat := if a % 4 < 2 then none else some (a / 4 * 2 + (a % 4 - 2))

/-- Physical addresses of the bytes of a unit; none for a byte that a trimmed page does not store. -/
def physBytes (t : Trans) (n : Nat) : List (Option Nat) :=
  match t.kind with
  | .trimmed => (List.range n).map fun i => trimByte (t.pa + i)
  | _ => (List.range n).map fun i => some (t.pa + i)

/-- The physical address that tells a unit's home: of a trimmed page, that of its first stored byte (R410). -/
def Trans.home (t : Trans) : Nat := ((physBytes t 8).filterMap id).headD t.pa

/-- BF16 rounding of a word, RNE, NaN to 0x7FC0, subnormals kept (R410). -/
def bf16Round (w : Nat) : Nat :=
  if w / 2 ^ 23 % 256 = 255 ∧ w % 2 ^ 23 ≠ 0 then 0x7FC0
  else
    let q := w / 65536
    let r := w % 65536
    if r > 32768 ∨ (r = 32768 ∧ q % 2 = 1) then q + 1 else q

/-- The bytes a store leaves in its unit: words of a trimmed page are rounded as they are stored (R410). -/
def storedBytes (t : Trans) (bs : List Byte) : List Byte :=
  match t.kind with
  | .trimmed =>
    let w := fun (i : Nat) => bf16Round (leNat ((bs.drop (4 * i)).take 4)) * 65536
    (List.range bs.length).map fun j => BitVec.ofNat 8 (w (j / 4) / 2 ^ (8 * (j % 4)))
  | _ => bs

/-- The cells a published unit writes. -/
def unitCells (t : Trans) (bs : List Byte) : List Host.Cell :=
  ((physBytes t bs.length).zip bs).filterMap fun p => p.1.map fun a => (a, p.2)

/-- Bytes of a number, least significant first (R2). -/
def leList (n : Nat) : Nat → List Byte
  | 0 => []
  | k + 1 => BitVec.ofNat 8 n :: leList (n / 256) k

/-! ### Remote accesses -/

def linkOf (s : State) (l : Nat) : Link := mgetD s.links l Link.initial

def Link.isUp (l : Link) : Bool := decide (l.st = .up ∨ l.st = .degraded)

/-- The link that carries the traffic to a peer: the lowest of its ports that is UP or DEGRADED (R419). -/
def linkFor (s : State) (p : Peer) : Option Nat := (List.range 8).find? fun l => p.ports.getLsbD l && (linkOf s l).isUp

/-- A remote access goes out, or waits for a link (R419, R420, R422). -/
def sendRemote (s : State) (ctx : Nat) (kind : RemoteKind) (va : DWord) (t : Trans) (cells : List Host.Cell) : State :=
  let p := t.peer.getD default
  { s with
    fresh := s.fresh + 1
    remotes := s.remotes ++ [{ id := s.fresh, ctx := ctx, kind := kind, va := va, peer := p, addr := p.base + u64 (t.pa % 2 ^ 21),
                               link := linkFor s p, cells := cells, since := s.tstamp }] }

/-- What keeps a read of the device from a value: a failed translation at an address, or a unit of a remote page that the peer has not
answered yet. -/
inductive Miss where
  | fault (f : XFault) (va : Nat)
  | far (unit : Nat) (t : Trans)
  deriving DecidableEq, Repr

/-- The answer to a reader's read of a unit: none while it is out, `some none` where it failed (R422). -/
def farUnit (s : State) (by' : Reading) (u : Nat) : Option (Option (List Byte)) :=
  (s.fetched.find? fun f => decide (f.by' = by') && decide (f.unit = u)).map (·.val)

/-- A reader asks a peer for a unit, once (R420). -/
def askPeer (s : State) (ctx : Nat) (by' : Reading) (u : Nat) (t : Trans) : State :=
  if s.remotes.any fun r => decide (r.kind = .read by' u) then s
  else sendRemote s ctx (.read by' u) (u64 (8 * u)) t []

/-- A reader has used the answers it waited for, or is gone. -/
def dropFetched (s : State) (by' : Reading) : State := { s with fetched := s.fetched.filter fun f => decide (f.by' ≠ by') }

/-! ### The fault queue -/

/-- 64 bytes of a fault record (Table 17.6). -/
def recordBytes (seq : Nat) (r : FaultRec) : List Byte :=
  leList seq 4 ++ leList r.source 1 ++ leList r.cause 1 ++ leList r.access 1 ++ leList 0 1 ++ leList r.vaddr.toNat 8 ++
  leList r.group.toNat 8 ++ leList r.hcause.toNat 8 ++ leList r.hpc.toNat 8 ++ leList r.detail.toNat 8 ++ leList 0 16

/-- A write of the device itself by physical address, a publish event at .dev (R404). -/
def devWrite (s : State) (key pa : Nat) (bs : List Byte) : State :=
  publish s (dieAgent (homeDie pa)) none none .dev key ((paRange pa bs.length).zip bs)

/-- Header of a fault queue: TAIL, HEAD, LOG2CAP word, and whether the other bytes are zero. -/
def queueHdr (s : State) (key pa : Nat) : Nat × Nat × Nat × Bool :=
  let b := newestBytes s key (paRange pa 64)
  (leNat (b.take 4), leNat ((b.drop 4).take 4), leNat ((b.drop 8).take 4), (b.drop 12).all (· == 0))

/-- Room for one record in a fault queue (R404). -/
def queueRoom (s : State) (key pa : Nat) : Bool :=
  let h := queueHdr s key pa
  inMemory pa && h.2.2.2 && decide (1 ≤ h.2.2.1 ∧ h.2.2.1 ≤ 15) && decide ((h.1 + 2 ^ 32 - h.2.1) % 2 ^ 32 < 2 ^ h.2.2.1)

/-- Post a record, or hold it while the queue has no room (R404). Held records keep their order. -/
def postRecord (s : State) (ctx : Nat) (r : FaultRec) : State :=
  match mget s.contexts ctx with
  | none => s
  | some c =>
    let key := keySerial s c.keyslot
    if c.heldRecs.isEmpty && queueRoom s key c.faultq then
      let h := queueHdr s key c.faultq
      let s := devWrite s key (c.faultq + 64 + 64 * (h.1 % 2 ^ h.2.2.1)) (recordBytes h.1 r)
      devWrite s key c.faultq (leList (h.1 + 1) 4)
    else { s with contexts := mput s.contexts ctx { c with heldRecs := c.heldRecs ++ [r] } }

end Sys2Proof.Machine
end

