-- ==== Sys2Proof/Machine/Store.lean ====
section
/-! DEFINITION. The instruction store: residencies, references, allocation, loads and the transit region (R313 to R326). -/

namespace Sys2Proof.Machine

def coreOf (s : State) (c : Nat) : Core := mgetD s.cores c Core.empty
def setCore (s : State) (c : Nat) (x : Core) : State := { s with cores := mput s.cores c x }
def clusterOf (s : State) (c : Nat) : Cluster := mgetD s.clusters c Cluster.initial
/-- Both clocks of a cluster stand still (R429 step 3). -/
def Cluster.relocking (c : Cluster) : Bool := c.change.any fun x => decide (x.phase = .relock)

/-- The clocks of a core's cluster stand still, and with them its matrix unit and its copy engine (R429). -/
def clocksStopped (s : State) (core : Nat) : Bool := (clusterOf s (clusOf core)).relocking

/-- The droop response in the lane cycle that a cluster is in (R436, Table 19.6): an alarm in lc t stretches t+1 to t+6, and the
window is t+7 to t+70. -/
def Cluster.droopNow (c : Cluster) : Droop :=
  match c.droop with
  | .stretch t => if c.cycle < t + 7 then .stretch t else if c.cycle < t + 71 then .window (t + 7) else .idle
  | .window t => if c.cycle < t + 64 then .window t else .idle
  | .idle => .idle

def setCluster (s : State) (c : Nat) (x : Cluster) : State := { s with clusters := mput s.clusters c x }
def setGroup (s : State) (g : Nat) (x : Group) : State := { s with groups := mput s.groups g x }
def setTeam (s : State) (t : Nat) (x : Team) : State := { s with teams := mput s.teams t x }
def setContext (s : State) (c : Nat) (x : Context) : State := { s with contexts := mput s.contexts c x }

/-- A core that runs control groups (R18). -/
def isControl (core : Nat) : Bool := decide (Config.computeCores ≤ core)

/-- The kernel of a context that an overlay id is bound to, with the overlay (R305). -/
def overlayOf (s : State) (ctx ov : Nat) : Option (Nat × Kernel × Overlay) :=
  s.kernels.findSome? fun p =>
    if p.2.ctx = ctx ∧ p.2.base ≤ ov then (p.2.overlays[ov - p.2.base]?).map fun o => (p.1, p.2, o) else none

/-- A residency of a key in the normal or the transit region. -/
def findRes (c : Core) (ctx ov : Nat) (transit : Bool) : Option Residency :=
  c.res.find? fun r => decide (r.ctx = ctx) && decide (r.ov = ov) && r.transit == transit

def Residency.live (r : Residency) : Bool := r.st != .evicting

/-- The residency that a call, a fetch or OVLOAD uses: the normal copy once complete, the transit copy until then (R313). -/
def lookupRes (c : Core) (ctx ov : Nat) : Option Residency :=
  let n := (findRes c ctx ov false).filter (·.live)
  let t := (findRes c ctx ov true).filter (·.live)
  match n, t with
  | some n, some t => if n.st = .resident then some n else some t
  | some n, none => some n
  | none, t => t

/-- The complete copy that a fetch reads. -/
def codeOf (c : Core) (ctx ov : Nat) : Option Residency := (lookupRes c ctx ov).filter fun r => decide (r.st = .resident)

/-- The copy that a thread's PC lies in (R313): the one it fetched from or entered, and where that is gone or none is known yet the
one that a fetch would use. -/
def copyOf (c : Core) (ctx : Nat) (t : Thread) : Option Bool :=
  match t.copy with
  | some b => if (findRes c ctx t.ov.toNat b).isSome then some b else (lookupRes c ctx t.ov.toNat).map (·.transit)
  | none => (lookupRes c ctx t.ov.toNat).map (·.transit)

/-- A thread's PC lies in a residency of its context. -/
def pcIn (c : Core) (r : Residency) (t : Thread) : Bool :=
  t.live && decide (t.ov.toNat = r.ov) && decide (copyOf c r.ctx t = some r.transit)

/-- A group has threads: it has neither exited nor been killed. -/
def GState.ended : GState → Bool
  | .killed => true
  | .exited => true
  | _ => false

/-- A return point of a group lies in an overlay (R317): a return-stack entry, a saved PC of handler mode, or an NPC. -/
def Group.returnsTo (g : Group) (ov : Nat) : Bool :=
  let inHandler := match g.st with
    | .handler => true
    | .parked h => h
    | _ => false
  (g.threads.toList.any fun t => t.live && ((inHandler && decide (t.savedOv.toNat = ov)) || (t.inNotice && decide (t.npcOv.toNat = ov)))) ||
  g.stack.any fun e => decide (e.ov.toNat = ov)

/-- A group references a residency (R317): by a PC in that copy, or, return points holding normal residencies only, by one of them. -/
def refersTo (c : Core) (r : Residency) (g : Group) : Bool :=
  decide (g.ctx = r.ctx) && !g.st.ended && (g.threads.toList.any (pcIn c r) || (!r.transit && g.returnsTo r.ov))

def groupsOn (s : State) (core : Nat) : List (Nat × Group) := s.groups.filter fun p => p.2.core == core

/-- References of a residency: groups, each counted once (R317). -/
def refCount (s : State) (core : Nat) (r : Residency) : Nat :=
  ((groupsOn s core).filter fun p => refersTo (coreOf s core) r p.2).length

/-- Pins of a key: the teams on the core that pin it, until they retire (R318). -/
def pinCount (s : State) (core ctx ov : Nat) : Nat :=
  (s.teams.filter fun p => decide (p.2.core = core) && decide (p.2.ctx = ctx) && p.2.pins.contains ov).length

def isIdle (s : State) (core : Nat) (r : Residency) : Bool :=
  decide (r.st = .resident) && !r.transit && decide (refCount s core r = 0) && decide (pinCount s core r.ctx r.ov = 0)

/-- State code of a residency (Table 13.1). -/
def resCode (s : State) (core : Nat) (r : Residency) : Nat :=
  match r.st with
  | .loading => 1
  | .evicting => 5
  | .resident => if !r.transit && decide (pinCount s core r.ctx r.ov ≠ 0) then 4 else if refCount s core r = 0 then 2 else 3

/-- Residency token (Table 13.3). -/
def tokenOf (r : Residency) : DWord :=
  u64 (2 ^ 63 + r.handle * 2 ^ 32 + r.gen.toNat * 2 ^ 16 + r.ov)

/-- The token with V = 0 that a failed allocation writes (R330, R333). -/
def nullToken (ov : Nat) : DWord := u64 ov

/-- The residency for which a token is current on a core (R321). -/
def currentRes (c : Core) (ctx : Nat) (tok : DWord) : Option Residency :=
  if !tok.getLsbD 63 then none
  else c.res.find? fun r => r.live && decide (r.ctx = ctx) && decide (r.ov = slice tok 0 16) &&
    decide (r.handle = slice tok 32 16) && decide (r.gen.toNat = slice tok 16 16)

/-- Slots of the normal region of a core (R18, R313). -/
def normalSlots (core : Nat) : Nat := if isControl core then 16 else 40

/-- Interpreters of a context's graphs on a control core: each holds one slot of the control slot quota (R298). -/
def interpretersOn (s : State) (core ctx : Nat) : Nat :=
  (s.groups.filter fun p => decide (p.2.core = core) && decide (p.2.ctx = ctx) && p.2.graph.isSome).length

/-- Slots that a context's overlays may hold on a core (R273, R298). -/
def slotQuotaOn (s : State) (core ctx : Nat) : Nat :=
  match mget s.contexts ctx with
  | some c => if isControl core then c.ctlQuota - interpretersOn s core ctx else c.slotQuota
  | none => 0

/-- Victims of an allocation, least recently called first, until `need` slots are gained; none when they cannot be (R322). -/
def takeVictims (need : Nat) : List Residency → Option (List Residency)
  | [] => if need = 0 then some [] else none
  | r :: l => if need = 0 then some [] else (takeVictims (need - r.slots.length) l).map (r :: ·)

/-- Replace the residency of a key. -/
def updRes (c : Core) (r : Residency) : Core :=
  { c with res := c.res.map fun x => if x.ctx = r.ctx ∧ x.ov = r.ov ∧ x.transit = r.transit then r else x }

def dropRes (c : Core) (ctx ov : Nat) (transit : Bool) : Core :=
  { c with res := c.res.filter fun x => !(decide (x.ctx = ctx) && decide (x.ov = ov) && x.transit == transit) }

/-- Move a residency to the top of the least-recently-called order, the head of the list (R319). -/
def touchRes (c : Core) (r : Residency) : Core := { c with res := r :: (dropRes c r.ctx r.ov r.transit).res }

/-- Move a residency to the bottom of that order. -/
def sinkRes (c : Core) (r : Residency) : Core := { c with res := (dropRes c r.ctx r.ov r.transit).res ++ [r] }

/-- Create a residency in LOADING on the given slots; the generation of its first slot advances (R320). It joins the order at the
bottom until its load completes (R319). -/
def startLoad (s : State) (core ctx ov : Nat) (transit : Bool) (slots : List Nat) (by' : DWord) : State :=
  let c := coreOf s core
  let gen := mgetD c.slotGen (slots.headD 0) 0 + 1
  let r : Residency := { ctx := ctx, ov := ov, transit := transit, st := .loading, handle := slots.headD 0, slots := slots, gen := gen, code := [],
                         moment := s.fresh, stalled := none, by' := by' }
  { setCore s core { c with slotGen := mput c.slotGen (slots.headD 0) gen, res := c.res ++ [r] } with fresh := s.fresh + 1 }

/-- Allocation of a normal residency of `n` slots (R322); none when it fails. -/
def allocate (s : State) (core ctx ov n : Nat) (by' : DWord) : Option State :=
  let c := coreOf s core
  let mine := c.res.filter fun r => decide (r.ctx = ctx) && !r.transit
  let used := (mine.map fun r => r.slots.length).sum
  let quota := slotQuotaOn s core ctx
  match takeVictims (used + n - quota) ((mine.filter (isIdle s core)).reverse) with
  | none => none
  | some victims =>
    let held := ((c.res.filter fun r => !(victims.any fun v => decide (v.ov = r.ov) && decide (v.ctx = r.ctx) && !r.transit)).map
      (·.slots)).flatten
    let slots := ((List.range (normalSlots core)).filter fun i => !held.contains i).take n
    if slots.length < n ∨ (findRes c ctx ov false).isSome then none
    else
      let c := victims.foldl (fun c v => updRes c { v with st := .evicting, slots := v.slots.filter fun i => !slots.contains i }) c
      some (startLoad (setCore s core c) core ctx ov false slots by')

/-- Group handle (Table 14.9). -/
def handleOf (g : Group) : DWord := u64 (g.ctx * 2 ^ 48 + g.serial.toNat * 2 ^ 32 + g.slot * 2 ^ 10 + g.core)

/-- What an event that needs an overlay finds or starts (R324, R325): the state after, and whether the overlay is resident. A
context's miss of an ABSENT overlay that normal slots cannot serve takes the transit region or its queue; a control core has
neither. While a copy is EVICTING the overlay is not ABSENT yet, and the group asks again. -/
def needOverlay (s : State) (core ctx ov g : Nat) : State × Bool :=
  let by' : DWord := match mget s.groups g with
    | some x => handleOf x
    | none => 0
  match lookupRes (coreOf s core) ctx ov with
  | some r => (s, decide (r.st = .resident))
  | none =>
    if ((findRes (coreOf s core) ctx ov false).or (findRes (coreOf s core) ctx ov true)).isSome then (s, false)
    else match overlayOf s ctx ov with
    | none => (s, false)
    | some (_, _, o) =>
      match allocate s core ctx ov o.slots by' with
      | some s' => (s', false)
      | none =>
        if isControl core then (s, false)
        else
          let c := coreOf s core
          if !(c.res.any (·.transit)) && c.transitQ.isEmpty then
            (startLoad s core ctx ov true ((List.range o.slots).map (40 + ·)) by', false)
          else if c.transitQ.any (fun q => decide (q.1 = ctx) && decide (q.2.1 = ov) && decide (q.2.2 = g)) then (s, false)
          else (setCore s core { c with transitQ := c.transitQ ++ [(ctx, ov, g)] }, false)

/-- A byte of an image as the load of an overlay reads it (R323): an engine read accepted at the load's start, or what a peer sent. -/
def imageByte (s : State) (core : Nat) (by' : Reading) (moment va : Nat) (t : Trans) : Except Miss Byte :=
  let bad : Except Miss Byte := .error (.fault { cause := 10, access := 4 } va)
  if t.kind = .remote then
    match farUnit s by' (va / 8) with
    | none => .error (.far (va / 8) { t with pa := t.pa - va % 8 })
    | some none => bad
    | some (some bs) => .ok (bs[va % 8]?.getD 0)
  else if badByte s t.pa then bad
  else
    let r : Reader := { who := agentOf core, grp := none, rho := Vector.replicate 4 moment, seen := [], key := keySerial s t.key }
    .ok ((readUnit s r 0 [t.pa]).headD (0, 0)).1

/-- The image of an overlay as its load reads it (R323): execute permission page by page, byte after byte. -/
def imageBytes (s : State) (core ctx : Nat) (by' : Reading) (va : Nat) (moment : Nat) : Nat → Except Miss (List Byte)
  | 0 => .ok []
  | n + 1 =>
    match translate s ctx (agentOf core) 0 (u64 va) .exec with
    | .error f => .error (.fault f va)
    | .ok t => match imageByte s core by' moment va t with
      | .error e => .error e
      | .ok b => match imageBytes s core ctx by' (va + 1) moment n with
        | .error e => .error e
        | .ok l => .ok (b :: l)

end Sys2Proof.Machine
end

