-- ==== Sys2Proof/Machine/Flags.lean ====
section
/-! DEFINITION. The status register GSTAT and its flags (R103 to R105, R191), and FPEN. -/

namespace Sys2Proof.Machine

/-- Flags in the order of FPEN: NV, DZ, OF, UF, NX, Q4 from bit 5 down (R105). -/
abbrev Flags := BitVec 6

def fNV : Flags := 0x20#6
def fDZ : Flags := 0x10#6
def fOF : Flags := 0x08#6
def fUF : Flags := 0x04#6
def fNX : Flags := 0x02#6
def fQ4 : Flags := 0x01#6
def fNone : Flags := 0#6

/-- Flags at their GSTAT places, bits [8:3] (Table 4.5). -/
def Flags.toGstat (f : Flags) : DWord := (f.zeroExtend 64) <<< 3

/-- UNDEF, GSTAT bit [9]. -/
def gUndef (b : Bool) : DWord := if b then 0x200#64 else 0#64

/-- OR flags and UNDEF into GSTAT (R104, R46). -/
def Group.orFlags (g : Group) (f : Flags) (undef : Bool) : Group := { g with gstat := g.gstat ||| Flags.toGstat f ||| gUndef undef }

/-- FRM, 0 RNE, 1 RTZ, 2 RDN, 3 RUP. -/
def Group.frm (g : Group) : BitVec 2 := g.gstat.extractLsb' 0 2
def Group.ftz (g : Group) : Bool := g.gstat.getLsbD 2
def Group.armF (g : Group) : Bool := g.gstat.getLsbD 16
def Group.armT (g : Group) : Bool := g.gstat.getLsbD 17
def Group.armO (g : Group) : Bool := g.gstat.getLsbD 18
/-- KOFF: inside a KILLOFF region (R191, R378). -/
def Group.koff (g : Group) : Bool := g.gstat.getLsbD 20

/-- The group runs its handler (R350). -/
def Group.handling (g : Group) : Bool := match g.st with
  | .handler => true
  | _ => false

/-- FPEN as it acts and reads: 0 in handler mode (R350). -/
def Group.fpenNow (g : Group) : Word := if g.handling then 0 else g.fpen

/-- The raised flags that FPEN enables (R105). -/
def Group.trapFlags (g : Group) (f : Flags) : Flags := f &&& (g.fpenNow.truncate 6)

/-- GSTAT.DEPTH := min(depth, 7) (R191). -/
def Group.setDepth (g : Group) : Group :=
  { g with gstat := (g.gstat &&& ~~~(0xE00000#64)) ||| (u64 (Nat.min g.stack.length 7) <<< 21) }

end Sys2Proof.Machine
end

