-- ==== Sys2Proof/Machine/Ops.lean ====
section
/-! DEFINITION. What every meaning shares: the issuing group, the ways an instruction ends, the program counters, taking a trap
and returning from one (R194, R195, R349 to R353), parks, waits and notices. -/

namespace Sys2Proof.Machine

abbrev Out := Host.Outcome State Fault Refusal

/-- A trap of one issue: cause, HADDR, and the ACCESS byte of a fault record. -/
structure TrapInfo where
  cause : Nat
  haddr : DWord
  access : Nat
  deriving DecidableEq, Repr

/-- How an instruction ends without completing: a synchronous trap of the lanes in `mask`, a wait of the issuing threads (they
issue the instruction again), a hold that leaves the group RUNNING, or the model's fault. Each carries the state to go on from. -/
inductive Stop where
  | trap (s : State) (t : TrapInfo) (mask : BitVec 32)
  | hold (s : State) (w : Wait)
  | stall (s : State)
  | fault (f : Fault)

abbrev R := Except Stop

/-! ### The issuing group and its threads -/

/-- The group that issues. -/
def issuer (s : State) : R Group :=
  match mget s.groups s.cur.group with
  | some g => .ok g
  | none => .error (.fault .noIssuer)

/-- The lanes of the issue. -/
def cohort (s : State) : List (Fin 32) := lanesOf s.cur.mask

/-- The live lanes of a group. -/
def Group.liveMask (g : Group) : BitVec 32 := maskOf (allLanes.filter fun i => g.threads[i].live)

/-- Change the threads of a mask. -/
def Group.onLanes (g : Group) (m : BitVec 32) (f : Fin 32 → Thread → Thread) : Group :=
  { g with threads := Vector.ofFn fun i => if m.getLsbD i then f i g.threads[i] else g.threads[i] }

def Group.isControl (g : Group) : Bool := g.team.isNone

/-- Handler mode or a control group: where privileged instructions run (R82). -/
def Group.privileged (g : Group) : Bool := g.handling || g.isControl

/-- The context of the issuing group. -/
def contextOf (s : State) (g : Group) : Option Context := mget s.contexts g.ctx

/-- A feature of FEAT0 is enabled for the group's context (R272). -/
def feature (s : State) (g : Group) (bit : Nat) : Bool :=
  match contextOf s g with
  | some c => c.feat[0].getLsbD bit
  | none => false

/-- The group a handle names, unless the handle is stale or malformed (R354, R355). -/
def groupOfHandle (s : State) (h : DWord) : Option (Nat × Group) :=
  s.groups.find? fun p => decide (handleOf p.2 = h)

/-- A context lets its groups issue (R279, R282, Table 10.1). -/
def ctxIssues (s : State) (ctx : Nat) : Bool :=
  match mget s.contexts ctx with
  | none => false
  | some c => decide (c.switch = .none ∨ c.switch = .out 1) && decide (c.st = .opened ∨ c.st = .running ∨ c.st = .closing)

/-- Issue of a context's groups has stopped for a switch (R279 step 2 and on, R280). -/
def switching (s : State) (ctx : Nat) : Bool :=
  match mget s.contexts ctx with
  | none => false
  | some c => decide (c.switch ≠ .none ∧ c.switch ≠ .out 1)

/-- The team of a group has the overlays that a restore reloads before it issues (R280, R318). -/
def teamLoaded (s : State) (g : Group) : Bool := (g.team.bind (mget s.teams)).all (·.reloading.isEmpty)

/-! ### Traps -/

def stopTrap (s : State) (cause : Nat) (haddr : DWord) : Stop := .trap s { cause := cause, haddr := haddr, access := 0 } s.cur.mask

/-- Trap(0x01) of the whole issue (R82 step 1): HADDR holds the word. -/
def illegal {α : Type} (s : State) : R α := .error (stopTrap s 1 (s.cur.word.zeroExtend 64))

/-- Trap(0x0C) of the whole issue (R82 step 2). -/
def denied {α : Type} (s : State) : R α := .error (stopTrap s 12 (s.cur.word.zeroExtend 64))

def need (s : State) (b : Bool) : R Unit := if b then .ok () else illegal s

/-- The issue waits and executes again. -/
def stallIf (s : State) (b : Bool) : R Unit := if b then .error (.stall s) else .ok ()

/-- A thread that has just been sent into an overlay: live, in no wait, and in no copy yet. -/
def Thread.arriving (t : Thread) : Bool := t.live && t.wait.isNone && t.copy.isNone

/-- Bind threads that have just been sent into overlays to copies of them (R350, R317, R332): a thread whose overlay is not resident
waits for it, and its load starts. -/
def enterOverlays (s : State) (gid : Nat) : State :=
  match mget s.groups gid with
  | none => s
  | some g =>
    let ovs := ((g.threads.toList.filter Thread.arriving).map fun t => t.ov.toNat).eraseDups
    ovs.foldl (fun s ov =>
      let r := needOverlay s g.core g.ctx ov gid
      match mget r.1.groups gid with
      | none => r.1
      | some g => setGroup r.1 gid (g.onLanes (-1) fun _ t =>
          if t.arriving && decide (t.ov.toNat = ov) then
            (if r.2 then { t with copy := (lookupRes (coreOf r.1 g.core) g.ctx ov).map (·.transit) }
             else { t with wait := some (.overlay t.ov .own) })
          else t)) s

/-- HPC of an issue (Table 6.29). DESIGN CHOICE (log entry 94): of a fetch at offset 65,536 the 16-bit field holds 0. -/
def hpcOf (i : Issue) : DWord := u64 (i.ov.toNat * 65536 + i.pc.toNat % 65536)

/-- HCAUSE (Table 6.33). -/
def hcauseOf (cause : Nat) (mask : BitVec 32) : DWord :=
  u64 (mask.toNat * 2 ^ 32 + ((lowestLane mask).map (·.val)).getD 0 * 256 + cause)

/-- Causes whose HADDR a SOURCE 6 record gives as VADDR (Table 17.6). -/
def addrCause (c : Nat) : Bool := [2, 3, 4, 5, 10].contains c

/-- Save the place of every live thread (R350 step 2). -/
def Group.savePlaces (g : Group) : Group :=
  g.onLanes g.liveMask fun _ t => { t with savedPc := t.pc, savedOv := t.ov, savedWait := t.wait }

/-- The fault record of a park (R349, R307, R352, R193). -/
def parkRecord (g : Group) (t : TrapInfo) (hcause hpc : DWord) : FaultRec :=
  if t.cause = 3 then
    { source := 0, cause := 3, access := t.access, vaddr := t.haddr, group := handleOf g, hcause := hcause, hpc := hpc, detail := 0 }
  else
    { source := 6, cause := t.cause, access := 0, vaddr := if addrCause t.cause then t.haddr else 0, group := handleOf g,
      hcause := hcause, hpc := hpc, detail := t.haddr }

/-- Overlay id and first entry of a kernel's handler overlay, if it has one (R307, R91). -/
def handlerOf (s : State) (kernel : Nat) : Option (Nat × Nat) :=
  match mget s.kernels kernel with
  | none => none
  | some k => match k.handler with
    | none => none
    | some i => (k.overlays[i]?).map fun o => (k.base + i, o.entry0)

/-- Taking a synchronous trap: the one operation of R194 and R349 to R352. HCAUSE, HPC and HADDR are written; a page fault, a
kernel without a handler, or a trap in handler mode parks the group with a fault record, and in handler mode the outer values
stay; otherwise the group enters its handler overlay at entry 0. -/
def takeTrap (s : State) (gid : Nat) (t : TrapInfo) (mask : BitVec 32) (at' : Issue) : State :=
  match mget s.groups gid with
  | none => s
  | some g =>
    let hcause := hcauseOf t.cause mask
    let hpc := hpcOf at'
    if g.handling then
      postRecord (setGroup s gid { g with st := .parked true }) g.ctx (parkRecord g t hcause hpc)
    else
      let g := { g with hcause := hcause, hpc := hpc, haddr := t.haddr }.savePlaces
      match (if t.cause = 3 then none else handlerOf s g.kernel) with
      | none => postRecord (setGroup s gid { g with st := .parked false }) g.ctx (parkRecord g t hcause hpc)
      | some (ov, e0) =>
        let g := { g with st := .handler, hiddenW := Vector.ofFn fun i => g.w[28 + i.val] }
        let g := g.onLanes g.liveMask fun _ th => { th with pc := BitVec.ofNat 32 e0, ov := BitVec.ofNat 16 ov, copy := none, wait := none }
        enterOverlays (setGroup s gid g) gid

/-- Threads named in HCAUSE go to HPC and the other live threads to where they were, in the wait they were in (R184, R355). -/
def Group.returnPlaces (g : Group) : Group :=
  g.onLanes g.liveMask fun i t =>
    if g.hcause.getLsbD (32 + i.val) then
      { t with pc := BitVec.ofNat 32 (slice g.hpc 0 16), ov := g.hpc.extractLsb' 16 16, copy := none, wait := none }
    else { t with pc := t.savedPc, ov := t.savedOv, copy := none, wait := t.savedWait }

/-- Leave handler mode: w28-w31 come back, and the threads return (R184, R350). -/
def Group.leaveHandler (g : Group) : Group :=
  { g with w := Vector.ofFn fun i => if h : 28 ≤ i.val then g.hiddenW[i.val - 28] else g.w[i] }.returnPlaces

/-- Restart of a parked group (R355): into HANDLER when it was parked there, else as RTH returns. -/
def resumeGroup (s : State) (gid : Nat) (g : Group) (inHandler : Bool) : State :=
  if inHandler then setGroup s gid { g with st := .handler }
  else enterOverlays (setGroup s gid { g.returnPlaces with st := .active }) gid

/-! ### Ends of an instruction -/

/-- The issuing threads wait where they stand (R455). -/
def holdCohort (s : State) (w : Wait) : State :=
  match mget s.groups s.cur.group with
  | none => s
  | some g => setGroup s s.cur.group (g.onLanes s.cur.mask fun _ t => { t with wait := some w })

/-- A wait that lasts until its own event comes; an instruction that waits for anything else issues again and waits anew. -/
def Wait.lasting : Wait → Bool
  | .bar .. => true
  | .tbar .. => true
  | .join _ => true
  | .monitor _ => true
  | .overlay .. => true
  | .peer _ => true
  | .page (some _) => true
  | _ => false

/-- A wait that its event ends, its threads going on without issuing the instruction again (R237, R331). -/
def Wait.endsItself : Wait → Bool
  | .monitor _ => true
  | .overlay .. => true
  | _ => false

/-- The issuing threads are out of a wait that has ended: the group is held, but RUNNING (R455). -/
def runCohort (s : State) : State :=
  match mget s.groups s.cur.group with
  | none => s
  | some g => setGroup s s.cur.group (g.onLanes s.cur.mask fun _ t => { t with wait := t.wait.filter Wait.lasting })

/-- The outcome of an instruction. -/
def finish : R State → Out
  | .ok s => .next s
  | .error (.trap s t m) => .next (takeTrap s s.cur.group t m s.cur)
  | .error (.hold s w) => .next (holdCohort s w)
  | .error (.stall s) => .next (runCohort s)
  | .error (.fault f) => .fault f

/-- The issuing threads go to the next instruction, out of any wait. -/
def Group.advance (g : Group) (i : Issue) : Group := g.onLanes i.mask fun _ t => { t with pc := i.next, wait := none }

/-- Write the issuing group back with its threads advanced. -/
def done (s : State) (g : Group) : State := setGroup s s.cur.group (g.advance s.cur)

/-- Advance the issuing group as it stands in the state. -/
def doneNow (s : State) : State :=
  match mget s.groups s.cur.group with
  | none => s
  | some g => done s g

/-! ### Notices (R356, R357) -/

/-- A notice falls due to a group: discarded if its arm bit is clear or NTVEC is 0, else pending, once per code, with the NTVEC of
this moment (R356, R357, R358). -/
def Group.noticeDue (g : Group) (code : Nat) : Group :=
  let arm := if code = 0x20 then g.armF else if code = 0x23 then g.armO else g.armT
  if arm && g.ntvec ≠ 0 && (mget g.notices code).isNone then { g with notices := mput g.notices code g.ntvec } else g

end Sys2Proof.Machine
end

