-- ==== Sys2Proof/WellFormed.lean ====
section
/-! DEFINITION. Which terms of Instr are instructions: the legality checks of R82 step 1 that the word alone decides (R66 to R68,
R75, R77, R80, R81 and the operand rules of each entry). A word whose term is not well formed is no instruction (R83). -/

namespace Sys2Proof

/-- A 7-bit register field names a uniform register (R66). -/
def isUni (r : BitVec 7) : Bool := decide (96 ≤ r.toNat)

/-- A last-read mark is allowed only on a vector register (R68). -/
def markOk (m : Bool) (r : BitVec 7) : Bool := !(m && isUni r)

/-- Marks, and every source uniform when the destination is (R67, majors with a uniform class). -/
def A3.wfBoth (o : A3) : Bool :=
  markOk o.la o.a && markOk o.lb o.b && (!isUni o.d || (isUni o.a && isUni o.b))

/-- Marks, and a vector destination (R67, majors without a uniform class). -/
def A3.wfVec (o : A3) : Bool := markOk o.la o.a && markOk o.lb o.b && !isUni o.d

def A2.wfBoth (o : A2) : Bool := markOk o.la o.a && (!isUni o.d || isUni o.a)

def A2.wfVec (o : A2) : Bool := markOk o.la o.a && !isUni o.d

def CmpOps.wf (maxCond : Nat) (o : CmpOps) : Bool :=
  markOk o.la o.a && markOk o.lb o.b && decide (o.cond.toNat ≤ maxCond) && o.f != 3

/-- Register rules of the M form (R77): size code, alignment of a vector d, uniform d with uniform x and no .b128. -/
def MemOps.wf (o : MemOps) : Bool :=
  o.sz != 7 && markOk o.lx o.x &&
  (if isUni o.d then isUni o.x && o.sz != 6
   else (o.sz != 5 || o.d.toNat % 2 == 0) && (o.sz != 6 || o.d.toNat % 4 == 0))

/-- Data registers that follow the index register of an atomic (R231): one, two for CAS, a pair for a vector ADD.b64. -/
def atomData (op : BitVec 4) (d : BitVec 7) : Nat :=
  if op = 9 then 2 else if op = 11 && !isUni d then 2 else 1

/-- The operand block of ATOM and ATOMS (R231). -/
def atomWf (op : BitVec 4) (x d : BitVec 7) : Bool :=
  decide (op.toNat ≤ 11) &&
  (!isUni d || isUni x) &&
  (isUni d || op != 11 || d.toNat % 2 == 0) &&
  (if isUni x then decide (x.toNat + atomData op d ≤ 127) else decide (x.toNat + atomData op d ≤ 95))

/-- The conversion codes of CVTF (Table 7.11). -/
def cvtfCodes : List Nat := [0, 1, 2, 3, 4, 8, 9, 10, 11, 12, 13, 14, 16, 17, 18, 19]

/-- Selectors of the special registers (Table 6.29). -/
def srdSelectors : List Nat :=
  [0x00, 0x01, 0x02, 0x03, 0x04, 0x05, 0x06, 0x07, 0x08, 0x09, 0x10, 0x11, 0x12, 0x13, 0x14, 0x15, 0x16, 0x17, 0x18, 0x20,
   0x21, 0x28, 0x29, 0x2A, 0x2B, 0x40, 0x41, 0x42, 0x48, 0x49]

/-- Selectors that may be written (Table 6.29, R188). -/
def swrSelectors : List Nat := [0x10, 0x11, 0x12, 0x13, 0x16, 0x40, 0x41, 0x42, 0x48, 0x49]

/-- Legality of a term of the syntax, from its fields alone. Commands and events are well formed as they stand. -/
def Instr.wf : Instr → Bool
  | .add f o | .sub f o | .mul f o => f != 3 && o.wfBoth
  | .min f o | .max f o => decide (f.toNat ≤ 1) && o.wfBoth
  | .mad o | .land o | .lor o | .lxor o | .landn o | .shl o | .shr o | .sar o | .rot o
  | .bfeN o | .bfeS o | .bfi o | .lea _ o => o.wfBoth
  | .popc o | .clz o | .brev o | .ffs o | .cvti _ o => o.wfBoth
  | .addi _ o | .andi _ o | .ori _ o | .xori _ o | .andni _ o
  | .shli _ o | .shri _ o | .sari _ o | .roti _ o => o.wfBoth
  | .movx _ d => isUni d
  | .cmp o => o.wf 9
  | .fcmp o => o.wf 7
  | .sel _ o | .idot4 _ o | .idot4s _ o | .idot8 _ o | .idot8s _ o | .lshf _ o => o.wfVec
  | .lred f o => o.wfVec && (f != 3 || decide (o.d.toNat ≤ 94))
  | .lscan f o => f != 3 && o.wfVec
  | .vote f _ d => if f = 3 then !isUni d else decide (d.toNat < 8)
  | .fadd o | .fsub o | .fmul o | .ffma o | .ffms o | .fnma o | .fmin o | .fmax o => o.wfVec
  | .frnd _ o | .fspec _ o => o.wfVec
  | .cvtf _ c o => cvtfCodes.contains c.toNat && o.wfVec
  | .fdot _ o | .pack _ o | .unpack _ o => o.wfVec
  | .fscale f o => decide (f.toNat ≤ 1) && o.wfVec
  | .mread d _ _ | .mwrite _ _ d => !isUni d
  | .mwait all acc => !all || acc == 0
  | .tset _ f _ | .tget _ _ f => decide (f.toNat ≤ 8)
  | .mprojC _ _ _ m | .mprojS _ _ _ m => decide (m.toNat ≤ 9)
  | .ld o | .st o => o.wf
  | .lds o | .sts o => o.wf && o.hint == 0
  | .atom op _ _ x d | .atoms op _ x d => atomWf op x d
  | .ldvM n _ _ d | .stvM n _ _ d => decide (d.toNat + n.toNat ≤ 95)
  | .barSync _ n | .barArrive _ n => decide (n.toNat ≤ 32)
  | .srd _ s => srdSelectors.contains s.toNat
  | .swr s _ => swrSelectors.contains s.toNat
  | .reclaimTake _ _ l | .reclaimGive _ _ l => l.toNat % 2 == 0
  | _ => true

/-- `i` is a well-formed term. -/
abbrev WellFormed (i : Instr) : Prop := i.wf = true

end Sys2Proof
end

