-- ==== Sys2Proof/Machine/Operands.lean ====
section
/-! DEFINITION. Operands: rotation (R49), renaming and marks (R45, R46), the scoreboard (R48), spilled names (R341), the register
budget (R44), registers that hold an uncorrectable error (R228), and the two frames in which instructions run (R67, R195). -/

namespace Sys2Proof.Machine

/-- Span S of the rotating window (R49). -/
def rwinSpan (rwin : Word) : Nat := 32 / 2 ^ (rwin.toNat / 32 % 4)

/-- The name an architectural index stands for (R49). -/
def rotName (rwin : Word) (idx : Nat) : Nat :=
  let s := rwinSpan rwin
  let b := 96 - s
  if idx < b then idx else b + (idx - b + s - rwin.toNat % 32) % s

/-- Index of a uniform register named by a 7-bit field of 96 or more (R66). -/
def uniIdx (f : BitVec 7) : Nat := (f.toNat - 96) % 32

def Group.rdW (g : Group) (i : Nat) : DWord := g.w[i % 32]!

/-- Write a uniform register; an error that stood in it is gone (R228). -/
def Group.wrW (g : Group) (i : Nat) (v : DWord) : Group :=
  { g with w := g.w.set! (i % 32) v, badRegs := g.badRegs.filter fun b => !(decide (b.lane = none) && decide (b.name = i % 32)) }

/-- The vector name a 7-bit field stands for, none for a uniform field. -/
def Group.vname (g : Group) (f : BitVec 7) : Option Nat := if isUni f then none else some (rotName g.rwin f.toNat)

/-- The value a thread reads, and whether the read sets UNDEF (R46, R67). -/
def Group.rdLane (g : Group) (lane : Fin 32) (f : BitVec 7) : Word × Bool :=
  match g.vname f with
  | none => ((g.rdW (uniIdx f)).truncate 32, false)
  | some n => match mget g.threads[lane].v n with
    | some x => (x, false)
    | none => (0, true)

/-! ### The scoreboard -/

/-- A vector name of the group is in flight, in whichever lane: the scoreboard tracks names per group (R48). -/
def Group.busyV (g : Group) (n : Nat) : Bool := g.loads.any fun l => l.lane.isSome && l.names.contains n

/-- A uniform register waits on a load or on a DRAW of the group (R48, R263). -/
def busyW (s : State) (g : Group) (i : Nat) : Bool :=
  (g.loads.any fun l => l.lane.isNone && l.names.contains i) || (coreOf s g.core).seq.any fun o => decide (o.group = s.cur.group) && match o.kind with
    | .draw d .. => decide (d.toNat = i)
    | _ => false

def Group.badV (g : Group) (lane : Fin 32) (n : Nat) : Option DWord :=
  (g.badRegs.find? fun b => decide (b.lane = some lane.val) && decide (b.name = n)).map (·.addr)

def Group.badW (g : Group) (i : Nat) : Option DWord :=
  (g.badRegs.find? fun b => decide (b.lane = none) && decide (b.name = i)).map (·.addr)

/-- The issue waits while an operand is in flight (R48): vector names, and uniform registers by number. -/
def scoreboard (s : State) (g : Group) (vs us : List Nat) : R Unit :=
  if vs.any g.busyV || us.any (busyW s g) then .error (.stall s) else .ok ()

/-- The trap of a reader of a uniform register whose load met an uncorrectable error (R228): the register is written 0. -/
def readyU (s : State) (g : Group) (us : List Nat) : R Unit :=
  match us.find? fun i => (g.badW i).isSome with
  | none => .ok ()
  | some i =>
    let g' := (g.wrW i 0).orFlags 0 true
    .error (.trap (setGroup s s.cur.group g') { cause := 10, haddr := (g.badW i).getD 0, access := 0 } s.cur.mask)

/-- A uniform instruction may read and write these uniform registers now. -/
def useW (s : State) (g : Group) (reads writes : List Nat) : R Unit := do
  scoreboard s g [] (reads ++ writes)
  readyU s g reads

/-- An issue that reads a spilled name waits and asks for its fill (R341). -/
def filled (s : State) (g : Group) (vs : List Nat) : R Unit :=
  match vs.filter fun n => g.spilled.contains n with
  | [] => .ok ()
  | ns => .error (.stall (setGroup s s.cur.group { g with wantFill := (g.wantFill ++ ns).eraseDups }))

/-! ### Rows -/

/-- Free rows, then write: a thread's registers after an instruction (R45, R46). -/
def Thread.update (t : Thread) (frees : List Nat) (writes : List (Nat × Word)) : Thread :=
  { t with v := writes.foldl (fun m p => mput m p.1 p.2) (frees.foldl mdel t.v) }

/-- The coldest resident name of a group (R341): least recent last read, then the higher index. -/
def Group.coldest (g : Group) (keep : List Nat) : Option Nat :=
  let names := ((g.threads.toList.flatMap fun t => t.v.map (·.1)).eraseDups).filter fun n => !g.spilled.contains n && !keep.contains n
  names.foldl (fun best n => match best with
    | none => some n
    | some b =>
      let rn := mgetD g.lastRead n 0
      let rb := mgetD g.lastRead b 0
      if rn < rb ∨ (rn = rb ∧ b < n) then some n else best) none

/-- Resident names a thread holds. -/
def Group.residentOf (g : Group) (t : Thread) : Nat := (t.v.filter fun p => !g.spilled.contains p.1).length

/-- Spill coldest names until every thread holds at most the resident limit (R341). -/
def Group.spillTo (g : Group) (keep : List Nat) : Nat → Group
  | 0 => g
  | n + 1 =>
    if g.threads.toList.all fun t => decide (g.residentOf t ≤ g.resident) then g
    else match g.coldest keep with
      | none => g
      | some c => { g with spilled := g.spilled ++ [c] }.spillTo keep n

/-- Bookkeeping of reads and writes: last-read moments, and names written that had been spilled become resident (R341). -/
def Group.touchNames (g : Group) (now : Nat) (reads writes : List Nat) : Group :=
  let lr := reads.foldl (fun m n => mput m n now) g.lastRead
  let lr := writes.foldl (fun m n => if (mget m n).isSome then m else mput m n now) lr
  let g := { g with lastRead := lr, spilled := g.spilled.filter (fun n => !writes.contains n), wantFill := g.wantFill.filter fun n => !reads.contains n }
  if g.resident < g.budget then g.spillTo writes 96 else g

/-! ### Lanes that trap -/

/-- The one trap an issue takes (R195): that of the lowest lane that raised any, naming every lane of that cause. -/
def chooseTrap : List (Fin 32 × Option TrapInfo) → Option (TrapInfo × BitVec 32)
  | [] => none
  | (_, none) :: l => chooseTrap l
  | (i, some t) :: l => some (t, maskOf (i :: (l.filter fun p => match p.2 with
      | some u => decide (u.cause = t.cause)
      | none => false).map (·.1)))

/-- End with the trap of the lanes, if any lane trapped; the state it leaves may depend on the cause taken. -/
def raiseBy (st : Nat → State) (l : List (Fin 32 × Option TrapInfo)) : R Unit :=
  match chooseTrap l with
  | none => .ok ()
  | some (t, m) => .error (.trap (st t.cause) t m)

/-- End with the trap of the lanes, if any lane trapped, with no state changed. -/
def raise (s : State) (l : List (Fin 32 × Option TrapInfo)) : R Unit := raiseBy (fun _ => s) l

/-- Errors that stood in rows of the lanes are gone: the rows were written or freed (R228). -/
def Group.cleanRows (g : Group) (lanes : List (Fin 32)) (names : List Nat) : Group :=
  { g with badRegs := g.badRegs.filter fun b => !(lanes.any fun l => names.any fun n => decide (b.lane = some l.val) && decide (b.name = n)) }

/-- The rows of loads that met an error are freed when a reader takes the trap of R228. -/
def Group.freeBad (g : Group) (lanes : List (Fin 32)) (names : List Nat) : Group :=
  let hit := fun (l : Fin 32) n => (g.badV l n).isSome
  (g.onLanes (maskOf lanes) fun l t => t.update (names.filter (hit l)) []).cleanRows lanes names

/-- The trap of a lane that reads a register which holds an uncorrectable error (R228). -/
def badRead (g : Group) (l : Fin 32) (names : List Nat) : Option TrapInfo :=
  (names.findSome? (g.badV l)).map fun a => { cause := 10, haddr := a, access := 0 }

/-- The state that a trap of the lanes leaves: rows that held an error are freed when that is the cause (R228). -/
def freeBadBy (s : State) (g : Group) (lanes : List (Fin 32)) (names : List Nat) (cause : Nat) : State :=
  if cause = 10 then setGroup s s.cur.group (g.freeBad lanes names) else s

/-! ### Vector instructions -/

/-- What one thread's instruction gives: a value for each destination and the flags raised. -/
structure LaneRes where
  vals : List Word
  flags : Flags
  deriving DecidableEq, Repr

/-- A result without flags. -/
def LaneRes.val (w : Word) : LaneRes := { vals := [w], flags := 0 }

/-- The cause 0x01 of R44, for a thread whose rows would pass the budget. -/
def overBudget (s : State) (g : Group) (t : Thread) (frees writes : List Nat) : Option TrapInfo :=
  let t' := t.update frees (writes.map fun n => (n, 0))
  if g.budget < t'.v.length ∧ t.v.length ≤ t'.v.length ∧ writes.any (fun n => (mget t.v n).isNone) then
    some { cause := 1, haddr := s.cur.word.zeroExtend 64, access := 0 }
  else none

/-- The operands of a vector instruction are ready: nothing in flight, nothing spilled (R48, R341), and no uniform
source that holds an error (R228). -/
def operandsReady (s : State) (g : Group) (reads : List (BitVec 7)) (dests : List (BitVec 7)) : R Unit := do
  let us := (reads.filter isUni).map uniIdx
  scoreboard s g ((reads ++ dests).filterMap g.vname) us
  filled s g (reads.filterMap g.vname)
  readyU s g us

/-- Values a thread reads and whether one of them sets UNDEF. -/
def Group.readAll (g : Group) (lane : Fin 32) (reads : List (BitVec 7)) : List Word × Bool :=
  (reads.map fun f => (g.rdLane lane f).1, reads.any fun f => (g.rdLane lane f).2)

/-- Names freed by last-read marks. -/
def Group.freesOf (g : Group) (reads : List (BitVec 7 × Bool)) : List Nat := (reads.filter (·.2)).filterMap fun r => g.vname r.1

/-- The group after a vector instruction that gave `res` in each lane: rows freed and written, flags, UNDEF, last reads. -/
def Group.vecCommit (g : Group) (now : Nat) (lanes : List (Fin 32)) (reads : List (BitVec 7 × Bool)) (dests : List (BitVec 7))
    (res : Fin 32 → LaneRes) : Group :=
  let names := dests.filterMap g.vname
  let g' := (g.onLanes (maskOf lanes) fun i t => t.update (g.freesOf reads) (names.zip (res i).vals)).cleanRows lanes (g.freesOf reads ++ names)
  (g'.orFlags (lanes.foldl (fun a i => a ||| (res i).flags) 0) (lanes.any fun i => (g.readAll i (reads.map (·.1))).2)).touchNames
    now ((reads.map (·.1)).filterMap g.vname) names

/-- The cause 0x07 of a lane that raised an enabled flag (R105). -/
def flagTrap (g : Group) (f : Flags) : Option TrapInfo :=
  if g.trapFlags f = 0 then none else some { cause := 7, haddr := f.zeroExtend 64, access := 0 }

/-- A vector instruction over the given lanes (R8, R67, R195): operands ready, then the traps of R228, R44 and R105, then the
results of every lane at once. A trap of cause 0x07 leaves the flags of the whole issue set. -/
def vecOn (s : State) (g : Group) (lanes : List (Fin 32)) (reads : List (BitVec 7 × Bool)) (dests : List (BitVec 7))
    (f : Fin 32 → List Word → LaneRes) : R Group := do
  let rs := reads.map (·.1)
  operandsReady s g rs dests
  let res := fun (i : Fin 32) => f i (g.readAll i rs).1
  let flags := lanes.foldl (fun a i => a ||| (res i).flags) 0
  raiseBy (fun c => if c = 7 then setGroup s s.cur.group (g.orFlags flags false) else freeBadBy s g lanes (rs.filterMap g.vname) c)
    (lanes.map fun i => (i, (badRead g i (rs.filterMap g.vname)).or
      ((overBudget s g g.threads[i] (g.freesOf reads) (dests.filterMap g.vname)).or (flagTrap g (res i).flags))))
  .ok (g.vecCommit s.tick lanes reads dests res)

/-- An ordinary vector instruction: its cohort is the issuing threads (R8). -/
def vecStep (s : State) (reads : List (BitVec 7 × Bool)) (dests : List (BitVec 7)) (f : List Word → LaneRes) : R State := do
  let g ← issuer s
  let g' ← vecOn s g (cohort s) reads dests (fun _ => f)
  .ok (done s g')

/-- A uniform instruction: once for the group, on 64-bit values (R67). -/
def uniStep (s : State) (reads : List (BitVec 7)) (d : BitVec 7) (f : List DWord → DWord) : R State := do
  let g ← issuer s
  useW s g (reads.map uniIdx) [uniIdx d]
  .ok (done s (g.wrW (uniIdx d) (f (reads.map fun r => g.rdW (uniIdx r)))))

end Sys2Proof.Machine
end

