-- ==== Sys2Proof/Machine/Integer.lean ====
section
/-! DEFINITION. Integer instructions (06_ref_integer_lane_control.md R152 to R172): functions on W-bit values, then one meaning per
instruction. -/

namespace Sys2Proof.Machine

/-! ### Values -/

def arg {α : Type} [Inhabited α] (l : List α) (i : Nat) : α := l.getD i default

/-- ADD (R152). -/
def addV' {W : Nat} (f : BitVec 2) (x y : BitVec W) : BitVec W :=
  match f with
  | 1 => BitVec.ofInt W (satI (x.toInt + y.toInt) (-(2 ^ (W - 1))) (2 ^ (W - 1) - 1))
  | 2 => BitVec.ofInt W (satI (x.toNat + y.toNat) 0 (2 ^ W - 1))
  | _ => x + y

/-- SUB (R152). -/
def subV {W : Nat} (f : BitVec 2) (x y : BitVec W) : BitVec W :=
  match f with
  | 1 => BitVec.ofInt W (satI (x.toInt - y.toInt) (-(2 ^ (W - 1))) (2 ^ (W - 1) - 1))
  | 2 => BitVec.ofInt W (satI ((x.toNat : Int) - y.toNat) 0 (2 ^ W - 1))
  | _ => x - y

/-- MUL (R153). -/
def mulV' {W : Nat} (f : BitVec 2) (x y : BitVec W) : BitVec W :=
  match f with
  | 1 => BitVec.ofInt W (x.toInt * y.toInt / 2 ^ W)
  | 2 => BitVec.ofNat W (x.toNat * y.toNat / 2 ^ W)
  | _ => x * y

/-- MAD (R155). -/
def madV {W : Nat} (x y d : BitVec W) : BitVec W := x * y + d

/-- MIN and MAX (R157). -/
def minV {W : Nat} (f : BitVec 2) (x y : BitVec W) : BitVec W :=
  if f = 0 then (if x.toInt ≤ y.toInt then x else y) else if x.toNat ≤ y.toNat then x else y

def maxV {W : Nat} (f : BitVec 2) (x y : BitVec W) : BitVec W :=
  if f = 0 then (if x.toInt ≤ y.toInt then y else x) else if x.toNat ≤ y.toNat then y else x

/-- Shifts: the amount is b mod W (R161). -/
def shlV {W : Nat} (x y : BitVec W) : BitVec W := x <<< (y.toNat % W)
def shrV {W : Nat} (x y : BitVec W) : BitVec W := x >>> (y.toNat % W)
def sarV {W : Nat} (x y : BitVec W) : BitVec W := x.sshiftRight (y.toNat % W)
def rotV {W : Nat} (x y : BitVec W) : BitVec W := x.rotateRight (y.toNat % W)

/-- Bit counts (Table 6.8). -/
def popcV {W : Nat} (x : BitVec W) : BitVec W := BitVec.ofNat W ((List.range W).filter fun i => x.getLsbD i).length
def clzV {W : Nat} (x : BitVec W) : BitVec W := BitVec.ofNat W (((List.range W).find? fun i => x.getLsbD (W - 1 - i)).getD W)
def brevV {W : Nat} (x : BitVec W) : BitVec W := x.reverse
def ffsV {W : Nat} (x : BitVec W) : BitVec W := BitVec.ofNat W (((List.range W).find? fun i => x.getLsbD i).getD W)

/-- Position and length of a bit field (R164). -/
def fieldPos {W : Nat} (b : BitVec W) : Nat := b.toNat % W
def fieldLen {W : Nat} (b : BitVec W) : Nat := min (min (b.toNat / 256 % (2 * W)) W) (W - fieldPos b)

/-- BFE and BFI (R164). -/
def bfeV {W : Nat} (signed : Bool) (x b : BitVec W) : BitVec W :=
  let len := fieldLen b
  if len = 0 then 0
  else
    let fld := x.toNat / 2 ^ fieldPos b % 2 ^ len
    if signed then BitVec.ofInt W (sextN fld len) else BitVec.ofNat W fld

def bfiV {W : Nat} (x b d : BitVec W) : BitVec W :=
  let mask := BitVec.ofNat W ((2 ^ fieldLen b - 1) * 2 ^ fieldPos b)
  (d &&& ~~~mask) ||| ((x <<< fieldPos b) &&& mask)

/-- CVTI (R165). -/
def cvtiV {W : Nat} (f : BitVec 2) (x : BitVec W) : BitVec W :=
  match f with
  | 0 => (x.truncate 8).signExtend W
  | 1 => (x.truncate 16).signExtend W
  | 2 => (x.truncate 8).zeroExtend W
  | 3 => (x.truncate 16).zeroExtend W

/-- LEA (R166). -/
def leaV {W : Nat} (f : BitVec 2) (x y : BitVec W) : BitVec W := x + (y <<< f.toNat)

/-- MOVH: bits [31:14] are written, the others keep their values (R168). -/
def movhV {W : Nat} (imm : BitVec 18) (d : BitVec W) : BitVec W :=
  (d &&& ~~~(BitVec.ofNat W (0x3FFFF * 0x4000))) ||| BitVec.ofNat W (imm.toNat * 0x4000)

/-- MOVX: bits [63:32] are written (R168). -/
def movxV (imm : BitVec 18) (d : DWord) : DWord := (d &&& 0xFFFFFFFF#64) ||| ((imm.signExtend 32).zeroExtend 64 <<< 32)

/-- CMP conditions (Table 3.6). -/
def cmpCond (c : BitVec 4) (x y : Word) : Bool :=
  match c.toNat with
  | 0 => x == y
  | 1 => x != y
  | 2 => decide (x.toInt < y.toInt)
  | 3 => decide (x.toInt ≤ y.toInt)
  | 4 => decide (y.toInt < x.toInt)
  | 5 => decide (y.toInt ≤ x.toInt)
  | 6 => decide (x.toNat < y.toNat)
  | 7 => decide (x.toNat ≤ y.toNat)
  | 8 => decide (y.toNat < x.toNat)
  | _ => decide (y.toNat ≤ x.toNat)

/-- A predicate set to, ANDed with or ORed with a condition (R171, R203). -/
def predMix (f : BitVec 2) (old c : Bool) : Bool := match f with
  | 1 => old && c
  | 2 => old || c
  | _ => c

def setBit8 (k : BitVec 8) (i : Nat) (b : Bool) : BitVec 8 := if b then k ||| BitVec.twoPow 8 i else k &&& ~~~(BitVec.twoPow 8 i)

/-! ### Frames of the A, I and W forms (R67) -/

/-- Two sources. -/
def alu3 (s : State) (o : A3) (fv : Word → Word → Word) (fu : DWord → DWord → DWord) : R State :=
  if isUni o.d then uniStep s [o.a, o.b] o.d fun l => fu (arg l 0) (arg l 1)
  else vecStep s [(o.a, o.la), (o.b, o.lb)] [o.d] fun l => .val (fv (arg l 0) (arg l 1))

/-- Two sources and the destination as a third. -/
def alu4 (s : State) (o : A3) (fv : Word → Word → Word → Word) (fu : DWord → DWord → DWord → DWord) : R State :=
  if isUni o.d then uniStep s [o.a, o.b, o.d] o.d fun l => fu (arg l 0) (arg l 1) (arg l 2)
  else vecStep s [(o.a, o.la), (o.b, o.lb), (o.d, false)] [o.d] fun l => .val (fv (arg l 0) (arg l 1) (arg l 2))

/-- One source. -/
def alu2 (s : State) (o : A2) (fv : Word → Word) (fu : DWord → DWord) : R State :=
  if isUni o.d then uniStep s [o.a] o.d fun l => fu (arg l 0)
  else vecStep s [(o.a, o.la)] [o.d] fun l => .val (fv (arg l 0))

/-- A vector instruction whose result and flags come from two sources and the destination. -/
def alu4F (s : State) (o : A3) (f : Word → Word → Word → Nat × Flags) : R State :=
  vecStep s [(o.a, o.la), (o.b, o.lb), (o.d, false)] [o.d] fun l =>
    let r := f (arg l 0) (arg l 1) (arg l 2); { vals := [u32 r.1], flags := r.2 }

/-- The H form: d = a = vD, b = vB, no marks (R70). -/
def hOps (b d : BitVec 5) : A3 := { lb := false, la := false, b := b.zeroExtend 7, a := d.zeroExtend 7, d := d.zeroExtend 7 }

/-! ### Meanings -/

def execAdd (f : BitVec 2) (o : A3) (s : State) : Out := finish (alu3 s o (addV' f) (addV' f))
def execSub (f : BitVec 2) (o : A3) (s : State) : Out := finish (alu3 s o (subV f) (subV f))
def execMul (f : BitVec 2) (o : A3) (s : State) : Out := finish (alu3 s o (mulV' f) (mulV' f))
def execMad (o : A3) (s : State) : Out := finish (alu4 s o madV madV)
def execMin (f : BitVec 2) (o : A3) (s : State) : Out := finish (alu3 s o (minV f) (minV f))
def execMax (f : BitVec 2) (o : A3) (s : State) : Out := finish (alu3 s o (maxV f) (maxV f))
def execLand (o : A3) (s : State) : Out := finish (alu3 s o (· &&& ·) (· &&& ·))
def execLor (o : A3) (s : State) : Out := finish (alu3 s o (· ||| ·) (· ||| ·))
def execLxor (o : A3) (s : State) : Out := finish (alu3 s o (· ^^^ ·) (· ^^^ ·))
def execLandn (o : A3) (s : State) : Out := finish (alu3 s o (fun x y => x &&& ~~~y) (fun x y => x &&& ~~~y))
def execShl (o : A3) (s : State) : Out := finish (alu3 s o shlV shlV)
def execShr (o : A3) (s : State) : Out := finish (alu3 s o shrV shrV)
def execSar (o : A3) (s : State) : Out := finish (alu3 s o sarV sarV)
def execRot (o : A3) (s : State) : Out := finish (alu3 s o rotV rotV)
def execPopc (o : A2) (s : State) : Out := finish (alu2 s o popcV popcV)
def execClz (o : A2) (s : State) : Out := finish (alu2 s o clzV clzV)
def execBrev (o : A2) (s : State) : Out := finish (alu2 s o brevV brevV)
def execFfs (o : A2) (s : State) : Out := finish (alu2 s o ffsV ffsV)
def execBfeN (o : A3) (s : State) : Out := finish (alu3 s o (bfeV false) (bfeV false))
def execBfeS (o : A3) (s : State) : Out := finish (alu3 s o (bfeV true) (bfeV true))
def execBfi (o : A3) (s : State) : Out := finish (alu4 s o bfiV bfiV)

/-- CMP (R171). -/
def cmpStep (s : State) (o : CmpOps) (f : Word → Word → Bool × Flags) : R State := do
  let g ← issuer s
  let reads := [(o.a, o.la), (o.b, o.lb)]
  let res := fun (i : Fin 32) => let l := (g.readAll i (reads.map (·.1))).1; f (arg l 0) (arg l 1)
  let g' ← vecOn s g (cohort s) reads [] fun i _ => { vals := [], flags := (res i).2 }
  .ok (done s (g'.onLanes s.cur.mask fun i t =>
    { t with k := setBit8 t.k o.k.toNat (predMix o.f (t.k.getLsbD o.k.toNat) (res i).1) }))

def execCmp (o : CmpOps) (s : State) : Out := finish (cmpStep s o fun x y => (cmpCond o.cond x y, 0))

/-- SEL (R172): both sources are read. -/
def selStep (s : State) (f : BitVec 2) (o : A3) : R State := do
  let g ← issuer s
  let g' ← vecOn s g (cohort s) [(o.a, o.la), (o.b, o.lb)] [o.d] fun i l =>
    .val (if g.threads[i].k.getLsbD f.toNat then arg l 0 else arg l 1)
  .ok (done s g')

def execSel (f : BitVec 2) (o : A3) (s : State) : Out := finish (selStep s f o)

/-- Immediate forms: src(b) replaced by the immediate (R167). -/
def execAddi (imm : BitVec 10) (o : A2) (s : State) : Out :=
  finish (alu2 s o (fun x => x + imm.signExtend 32) (fun x => x + imm.signExtend 64))
def execAndi (imm : BitVec 8) (o : A2) (s : State) : Out :=
  finish (alu2 s o (fun x => x &&& imm.zeroExtend 32) (fun x => x &&& imm.zeroExtend 64))
def execOri (imm : BitVec 8) (o : A2) (s : State) : Out :=
  finish (alu2 s o (fun x => x ||| imm.zeroExtend 32) (fun x => x ||| imm.zeroExtend 64))
def execXori (imm : BitVec 8) (o : A2) (s : State) : Out :=
  finish (alu2 s o (fun x => x ^^^ imm.zeroExtend 32) (fun x => x ^^^ imm.zeroExtend 64))
def execAndni (imm : BitVec 8) (o : A2) (s : State) : Out :=
  finish (alu2 s o (fun x => x &&& ~~~(imm.zeroExtend 32)) (fun x => x &&& ~~~(imm.zeroExtend 64)))
def execShli (n : BitVec 5) (o : A2) (s : State) : Out :=
  finish (alu2 s o (fun x => shlV x (n.zeroExtend 32)) (fun x => shlV x (n.zeroExtend 64)))
def execShri (n : BitVec 5) (o : A2) (s : State) : Out :=
  finish (alu2 s o (fun x => shrV x (n.zeroExtend 32)) (fun x => shrV x (n.zeroExtend 64)))
def execSari (n : BitVec 5) (o : A2) (s : State) : Out :=
  finish (alu2 s o (fun x => sarV x (n.zeroExtend 32)) (fun x => sarV x (n.zeroExtend 64)))
def execRoti (n : BitVec 5) (o : A2) (s : State) : Out :=
  finish (alu2 s o (fun x => rotV x (n.zeroExtend 32)) (fun x => rotV x (n.zeroExtend 64)))

/-- Wide immediates (R168). -/
def movStep (s : State) (d : BitVec 7) (readsD : Bool) (fv : Word → Word) (fu : DWord → DWord) : R State :=
  if isUni d then uniStep s (if readsD then [d] else []) d fun l => fu (arg l 0)
  else vecStep s (if readsD then [(d, false)] else []) [d] fun l => .val (fv (arg l 0))

def execMovw (imm : BitVec 18) (d : BitVec 7) (s : State) : Out :=
  finish (movStep s d false (fun _ => imm.signExtend 32) (fun _ => imm.signExtend 64))
def execMovh (imm : BitVec 18) (d : BitVec 7) (s : State) : Out := finish (movStep s d true (movhV imm) (movhV imm))
def execMovx (imm : BitVec 18) (d : BitVec 7) (s : State) : Out :=
  finish (if isUni d then uniStep s [d] d fun l => movxV imm (arg l 0) else illegal s)

def execLea (f : BitVec 2) (o : A3) (s : State) : Out := finish (alu3 s o (leaV f) (leaV f))
def execCvti (f : BitVec 2) (o : A2) (s : State) : Out := finish (alu2 s o (cvtiV f) (cvtiV f))

def execMovH (b d : BitVec 5) (s : State) : Out :=
  finish (if b = d then (do let g ← issuer s; .ok (done s g))
    else alu3 s { hOps b d with a := b.zeroExtend 7 } (· ||| ·) (· ||| ·))
def execAddH (b d : BitVec 5) (s : State) : Out := finish (alu3 s (hOps b d) (addV' 0) (addV' 0))
def execSubH (b d : BitVec 5) (s : State) : Out := finish (alu3 s (hOps b d) (subV 0) (subV 0))
def execMulH (b d : BitVec 5) (s : State) : Out := finish (alu3 s (hOps b d) (mulV' 0) (mulV' 0))
def execAndH (b d : BitVec 5) (s : State) : Out := finish (alu3 s (hOps b d) (· &&& ·) (· &&& ·))
def execOrH (b d : BitVec 5) (s : State) : Out := finish (alu3 s (hOps b d) (· ||| ·) (· ||| ·))
def execXorH (b d : BitVec 5) (s : State) : Out := finish (alu3 s (hOps b d) (· ^^^ ·) (· ^^^ ·))
def execShlH (b d : BitVec 5) (s : State) : Out := finish (alu3 s (hOps b d) shlV shlV)
def execShrH (b d : BitVec 5) (s : State) : Out := finish (alu3 s (hOps b d) shrV shrV)
def execSarH (b d : BitVec 5) (s : State) : Out := finish (alu3 s (hOps b d) sarV sarV)
def execMinH (b d : BitVec 5) (s : State) : Out := finish (alu3 s (hOps b d) (minV 0) (minV 0))
def execMaxH (b d : BitVec 5) (s : State) : Out := finish (alu3 s (hOps b d) (maxV 0) (maxV 0))

end Sys2Proof.Machine
end

