-- ==== Sys2Proof/Machine/Num.lean ====
section
/-! DEFINITION. Number formats and arithmetic (04_numbers.md): formats, the one rounding, conversions, the exact dot-product window
and the special functions. Everything here is a function of codes; results carry their flags. -/

namespace Sys2Proof.Machine

/-- What the top exponent of a format holds (Table 4.1): infinities and NaNs, one NaN pattern (E4M3), or numbers (E2M1). -/
inductive Top where
  | ieee | oneNan | numbers
  deriving DecidableEq, Repr

/-- A floating-point format (Table 4.1); `sat`: conversions into it round RNE and saturate (R109). -/
structure Fmt where
  eb : Nat
  mb : Nat
  bias : Int
  top : Top
  sat : Bool
  deriving DecidableEq, Repr

def f32 : Fmt := { eb := 8, mb := 23, bias := 127, top := .ieee, sat := false }
def f16 : Fmt := { eb := 5, mb := 10, bias := 15, top := .ieee, sat := false }
def bf16 : Fmt := { eb := 8, mb := 7, bias := 127, top := .ieee, sat := false }
def e4m3 : Fmt := { eb := 4, mb := 3, bias := 7, top := .oneNan, sat := true }
def e5m2 : Fmt := { eb := 5, mb := 2, bias := 15, top := .ieee, sat := true }
def e2m1 : Fmt := { eb := 2, mb := 1, bias := 1, top := .numbers, sat := true }

/-- The value of a code: a NaN (signaling or not), an infinity, or (-1)^neg * m * 2^e. -/
inductive FVal where
  | nan (sig : Bool)
  | inf (neg : Bool)
  | fin (neg : Bool) (m : Nat) (e : Int)
  deriving DecidableEq, Repr

/-- The value of a code of a format (R96). -/
def unpackF (f : Fmt) (c : Nat) : FVal :=
  let neg := decide (c / 2 ^ (f.eb + f.mb) % 2 = 1)
  let ex := c / 2 ^ f.mb % 2 ^ f.eb
  let fr := c % 2 ^ f.mb
  if f.top = .ieee ∧ ex = 2 ^ f.eb - 1 then (if fr = 0 then .inf neg else .nan (decide (fr < 2 ^ (f.mb - 1))))
  else if f.top = .oneNan ∧ ex = 2 ^ f.eb - 1 ∧ fr = 2 ^ f.mb - 1 then .nan false
  else if ex = 0 then .fin neg fr (1 - f.bias - f.mb)
  else .fin neg (2 ^ f.mb + fr) (ex - f.bias - f.mb)

/-- A subnormal source read under FTZ (R111). -/
def ftzSrc (f : Fmt) (ftz : Bool) : FVal → FVal
  | .fin neg m e => if ftz ∧ m < 2 ^ f.mb ∧ e = 1 - f.bias - f.mb then .fin neg 0 e else .fin neg m e
  | v => v

/-- fp(x) of R198. -/
def fp (ftz : Bool) (x : Word) : FVal := ftzSrc f32 ftz (unpackF f32 x.toNat)

/-- Codes of a format: sign bit, infinity, largest finite, canonical NaN (Table 4.2). -/
def signBit (f : Fmt) (neg : Bool) : Nat := if neg then 2 ^ (f.eb + f.mb) else 0
def infCode (f : Fmt) : Nat := (2 ^ f.eb - 1) * 2 ^ f.mb
def maxCode (f : Fmt) : Nat := match f.top with
  | .ieee => infCode f - 1
  | .oneNan => 2 ^ (f.eb + f.mb) - 2
  | .numbers => 2 ^ (f.eb + f.mb) - 1
def nanCode (f : Fmt) : Nat := match f.top with
  | .ieee => infCode f + 2 ^ (f.mb - 1)
  | .oneNan => 2 ^ (f.eb + f.mb) - 1
  | .numbers => 0

/-- Rounding modes 0 RNE, 1 RTZ, 2 RDN, 3 RUP: whether a magnitude of integer part `q` with a non-zero rest rounds up; `half`
compares twice the rest with the unit. -/
def roundUp (mode : BitVec 2) (neg : Bool) (q : Nat) (half : Ordering) : Bool :=
  match mode with
  | 0 => half == .gt || (half == .eq && q % 2 == 1)
  | 1 => false
  | 2 => neg
  | 3 => !neg

/-- m * 2^(-sh) as an integer, rounded, and whether it was inexact. -/
def shiftRound (mode : BitVec 2) (neg : Bool) (m : Nat) (sh : Int) : Nat × Bool :=
  if sh ≤ 0 then (m * 2 ^ (-sh).toNat, false)
  else if m = 0 then (0, false)
  else if (m.log2 : Int) + 2 < sh then ((if roundUp mode neg 0 .lt then 1 else 0), true)
  else
    let u := 2 ^ sh.toNat
    let q := m / u
    let r := m % u
    if r = 0 then (q, false) else ((if roundUp mode neg q (compare (2 * r) u) then q + 1 else q), true)

/-- Overflow result (Table 4.6, or saturation by R109). -/
def overflowCode (f : Fmt) (mode : BitVec 2) (neg : Bool) : Nat :=
  if f.sat then signBit f neg + maxCode f
  else signBit f neg + (match mode with
    | 0 => infCode f
    | 1 => maxCode f
    | 2 => if neg then infCode f else maxCode f
    | 3 => if neg then maxCode f else infCode f)

/-- Round(x, fmt, mode) of R9 for x = (-1)^neg * m * 2^e, m > 0: one rounding with overflow (R106), tininess after rounding (R112)
and the FTZ rule (R111). `lost`: a non-zero amount was discarded before. -/
def roundTo (f : Fmt) (mode : BitVec 2) (ftz lost neg : Bool) (m : Nat) (e : Int) : Nat × Flags :=
  let top : Int := m.log2 + e
  let emin : Int := 1 - f.bias
  let qmin : Int := emin - f.mb
  let nu := (shiftRound mode neg m (top - f.mb - e)).1
  let tiny := decide (top < emin) && !(decide (top = emin - 1) && decide (nu = 2 ^ (f.mb + 1)))
  let q := max (top - f.mb) qmin
  let r := shiftRound mode neg m (q - e)
  let code := (q - qmin).toNat * 2 ^ f.mb + r.1
  let inexact := r.2 || lost
  if maxCode f < code then (overflowCode f mode neg, fOF ||| fNX)
  else if ftz && tiny then (signBit f neg, fUF ||| fNX)
  else (signBit f neg + code, (if inexact then fNX else 0) ||| (if tiny && inexact then fUF else 0))

/-- A value into a format (R106, R109, R110). -/
def convTo (f : Fmt) (mode : BitVec 2) (ftz : Bool) : FVal → Nat × Flags
  | .nan sig => (nanCode f, if sig ∨ f.top = .numbers then fNV else 0)
  | .inf neg => (if f.top = .ieee then signBit f neg + infCode f else signBit f neg + maxCode f, 0)
  | .fin neg m e => if m = 0 then (signBit f neg, 0) else roundTo f (if f.sat then 0 else mode) ftz false neg m e

/-- The FP32 canonical NaN, with NV if invalid. -/
def qnan (nv : Bool) : Nat × Flags := (nanCode f32, if nv then fNV else 0)

def FVal.isNan : FVal → Bool
  | .nan _ => true
  | _ => false
def FVal.isSig : FVal → Bool
  | .nan s => s
  | _ => false
def FVal.flip (b : Bool) : FVal → FVal
  | .nan s => .nan s
  | .inf n => .inf (n != b)
  | .fin n m e => .fin (n != b) m e

/-- Signed mantissa. -/
def sgn (neg : Bool) (m : Nat) : Int := if neg then -(m : Int) else m

/-- Rounded sum of two finite values (R199: sign of an exact zero). -/
def sumFin (mode : BitVec 2) (ftz n1 : Bool) (m1 : Nat) (e1 : Int) (n2 : Bool) (m2 : Nat) (e2 : Int) : Nat × Flags :=
  let e := min (if m1 = 0 then e2 else e1) (if m2 = 0 then e1 else e2)
  let t := sgn n1 (if m1 = 0 then 0 else m1 * 2 ^ (e1 - e).toNat) + sgn n2 (if m2 = 0 then 0 else m2 * 2 ^ (e2 - e).toNat)
  if t = 0 then (signBit f32 (if n1 = n2 then n1 else decide (mode = 2)), 0)
  else roundTo f32 mode ftz false (decide (t < 0)) t.natAbs e

/-- FADD on values (R199, R107). -/
def addV (mode : BitVec 2) (ftz : Bool) (a b : FVal) : Nat × Flags :=
  match a, b with
  | .fin n1 m1 e1, .fin n2 m2 e2 => sumFin mode ftz n1 m1 e1 n2 m2 e2
  | .inf n1, .inf n2 => if n1 = n2 then (signBit f32 n1 + infCode f32, 0) else qnan true
  | .inf n, .fin .. => (signBit f32 n + infCode f32, 0)
  | .fin .., .inf n => (signBit f32 n + infCode f32, 0)
  | a, b => qnan (a.isSig || b.isSig)

/-- Exact product of two values; an invalid product is a signaling NaN (R107). -/
def mulX (a b : FVal) : FVal :=
  match a, b with
  | .fin n1 m1 e1, .fin n2 m2 e2 => .fin (n1 != n2) (m1 * m2) (e1 + e2)
  | .inf n1, .inf n2 => .inf (n1 != n2)
  | .inf n1, .fin n2 m _ => if m = 0 then .nan true else .inf (n1 != n2)
  | .fin n1 m _, .inf n2 => if m = 0 then .nan true else .inf (n1 != n2)
  | a, b => .nan (a.isSig || b.isSig)

/-- FMUL on values (R200). -/
def mulV (mode : BitVec 2) (ftz : Bool) (a b : FVal) : Nat × Flags := convTo f32 mode ftz (mulX a b)

/-- Fused multiply-add on values: (±a·b) ± d rounded once (R201). -/
def fmaV (mode : BitVec 2) (ftz negProd negAcc : Bool) (a b d : FVal) : Nat × Flags :=
  addV mode ftz ((mulX a b).flip negProd) (d.flip negAcc)

/-- Order of two finite or infinite values; a NaN gives none. -/
def cmpV (a b : FVal) : Option Ordering :=
  match a, b with
  | .fin n1 m1 e1, .fin n2 m2 e2 =>
    let e := min (if m1 = 0 then e2 else e1) (if m2 = 0 then e1 else e2)
    some (compare (sgn n1 (if m1 = 0 then 0 else m1 * 2 ^ (e1 - e).toNat)) (sgn n2 (if m2 = 0 then 0 else m2 * 2 ^ (e2 - e).toNat)))
  | .inf n1, .inf n2 => some (if n1 = n2 then .eq else if n1 then .lt else .gt)
  | .inf n, .fin .. => some (if n then .lt else .gt)
  | .fin .., .inf n => some (if n then .gt else .lt)
  | _, _ => none

def FVal.neg : FVal → Bool
  | .nan _ => false
  | .inf n => n
  | .fin n _ _ => n

/-- Code of a value that FP32 holds exactly. -/
def codeF32 (v : FVal) : Nat := (convTo f32 0 false v).1

/-- minimumNumber and maximumNumber (R108). -/
def minmaxV (isMax : Bool) (a b : FVal) : Nat × Flags :=
  let nv := if a.isSig || b.isSig then fNV else 0
  match a.isNan, b.isNan with
  | true, true => (nanCode f32, nv)
  | true, false => (codeF32 b, nv)
  | false, true => (codeF32 a, nv)
  | false, false =>
    let aLess := match cmpV a b with
      | some .lt => true
      | some .eq => a.neg
      | _ => false
    (codeF32 (if aLess != isMax then a else b), nv)

/-- FCMP (Table 7.6): the condition and its flag. -/
def fcmpV (cond : BitVec 4) (a b : FVal) : Bool × Flags :=
  match cmpV a b with
  | none => (decide (cond = 1 ∨ cond = 6), if a.isSig || b.isSig || decide (2 ≤ cond.toNat ∧ cond.toNat ≤ 5) then fNV else 0)
  | some o => (match cond.toNat with
    | 0 => o == .eq
    | 1 => o != .eq
    | 2 => o == .lt
    | 3 => o != .gt
    | 4 => o == .gt
    | 5 => o != .lt
    | 6 => false
    | _ => true, 0)

/-- FRND (R204). -/
def frndV (mode : BitVec 2) : FVal → Nat × Flags
  | .nan s => qnan s
  | .inf n => (signBit f32 n + infCode f32, 0)
  | .fin n m e => if 0 ≤ e then (codeF32 (.fin n m e), 0) else (codeF32 (.fin n (shiftRound mode n m (-e)).1 0), 0)

/-- Floating point to a 32-bit integer with range clamp (R110). -/
def toIntV (mode : BitVec 2) (lo hi : Int) : FVal → Nat × Flags
  | .nan _ => (0, fNV)
  | .inf n => (wrapN (if n then lo else hi) 32, fNV)
  | .fin n m e =>
    if (40 : Int) < m.log2 + e then (wrapN (if n then lo else hi) 32, fNV)
    else
      let r := shiftRound mode n m (-e)
      let v := sgn n r.1
      if v < lo then (wrapN lo 32, fNV) else if hi < v then (wrapN hi 32, fNV) else (wrapN v 32, if r.2 then fNX else 0)

/-- Integer to FP32 (R110). -/
def fromInt (mode : BitVec 2) (x : Int) : Nat × Flags := convTo f32 mode false (.fin (decide (x < 0)) x.natAbs 0)

/-- CVTF by code (Table 7.11). -/
def cvtf (mode : BitVec 2) (ftz : Bool) (code : Nat) (x : Word) : Nat × Flags :=
  let lo (n : Nat) : Nat := x.toNat % 2 ^ n
  let s32 := fp ftz x
  let s16 := ftzSrc f16 ftz (unpackF f16 (lo 16))
  let sb16 := ftzSrc bf16 ftz (unpackF bf16 (lo 16))
  match code with
  | 0x00 => convTo f16 mode ftz s32
  | 0x01 => convTo bf16 mode ftz s32
  | 0x02 => convTo e4m3 0 false s32
  | 0x03 => convTo e5m2 0 false s32
  | 0x04 => convTo e2m1 0 false s32
  | 0x08 => convTo f32 0 false s16
  | 0x09 => convTo f32 0 false sb16
  | 0x0A => convTo f32 0 false (unpackF e4m3 (lo 8))
  | 0x0B => convTo f32 0 false (unpackF e5m2 (lo 8))
  | 0x0C => convTo f32 0 false (unpackF e2m1 (lo 4))
  | 0x0D => convTo bf16 mode ftz s16
  | 0x0E => convTo f16 mode ftz sb16
  | 0x10 => toIntV mode (-2147483648) 2147483647 s32
  | 0x11 => toIntV mode 0 4294967295 s32
  | 0x12 => fromInt mode x.toInt
  | _ => fromInt mode x.toNat

/-- Packed formats by f field: .f16, .bf16, .e4m3, .e5m2 (Table 7.12). -/
def packFmt (f : BitVec 2) : Fmt := match f with
  | 0 => f16
  | 1 => bf16
  | 2 => e4m3
  | 3 => e5m2

/-- PACK (R208): the word and the flags of both conversions. -/
def packV (mode : BitVec 2) (ftz : Bool) (f : BitVec 2) (a b d : Word) : Nat × Flags :=
  let ca := convTo (packFmt f) mode (ftz && decide (f.toNat < 2)) (fp ftz a)
  let cb := convTo (packFmt f) mode (ftz && decide (f.toNat < 2)) (fp ftz b)
  (if f.toNat < 2 then cb.1 * 65536 + ca.1 else d.toNat % 65536 * 65536 + cb.1 * 256 + ca.1, ca.2 ||| cb.2)

/-- UNPACK (R209). -/
def unpackV (ftz : Bool) (f : BitVec 2) (a b : Word) : Nat × Flags :=
  match f with
  | 0 => convTo f32 0 false (ftzSrc f16 ftz (unpackF f16 (a.toNat / 2 ^ (16 * (b.toNat % 2)) % 65536)))
  | 1 => convTo f32 0 false (ftzSrc bf16 ftz (unpackF bf16 (a.toNat / 2 ^ (16 * (b.toNat % 2)) % 65536)))
  | 2 => convTo f32 0 false (unpackF e4m3 (a.toNat / 2 ^ (8 * (b.toNat % 4)) % 256))
  | 3 => convTo f32 0 false (unpackF e5m2 (a.toNat / 2 ^ (8 * (b.toNat % 4)) % 256))

/-- FSCALE (R206). -/
def fscaleV (mode : BitVec 2) (ftz : Bool) (f : BitVec 2) (a b : Word) : Nat × Flags :=
  let n : Int := if f = 0 then b.toInt else (b.toNat % 256 : Nat) - 127
  if f = 1 ∧ b.toNat % 256 = 255 then qnan true
  else match fp ftz a with
    | .fin s m e => convTo f32 mode ftz (.fin s m (e + n))
    | v => convTo f32 mode ftz v

/-! ### Exact dot-product sums -/

/-- Scale a term by 2^k (R117). -/
def scaleV (k : Int) : FVal → FVal
  | .fin n m e => .fin n m (e + k)
  | v => v

/-- The anchor E of a set of terms (R114 step 2); none when every term is zero. -/
def anchor : List FVal → Option Int
  | [] => none
  | .fin _ m e :: l => if m = 0 then anchor l else
      some (match anchor l with
        | none => (m.log2 : Int) + e
        | some a => max ((m.log2 : Int) + e) a)
  | _ :: l => anchor l

/-- A term truncated toward zero to a multiple of 2^lsb, and whether something was discarded (R114 step 4). -/
def truncTerm (lsb : Int) : FVal → Int × Bool
  | .fin n m e =>
    if lsb ≤ e then (sgn n (if m = 0 then 0 else m * 2 ^ (e - lsb).toNat), false)
    else if (m.log2 : Int) + 1 < lsb - e then (0, decide (m ≠ 0))
    else let u := 2 ^ (lsb - e).toNat; (sgn n (m / u), decide (m % u ≠ 0))
  | _ => (0, false)

/-- The window sum of R114 with the special values of R115: infinities of both signs set NV beside a quiet NaN, too. A zero sum after
a discard raises NX only (log entry 19). -/
def windowSum (ftz : Bool) (terms : List FVal) : Nat × Flags :=
  let pos := terms.any fun t => decide (t = .inf false)
  let neg := terms.any fun t => decide (t = .inf true)
  if (pos && neg) || terms.any FVal.isNan then qnan ((pos && neg) || terms.any FVal.isSig)
  else
    if pos || neg then (signBit f32 neg + infCode f32, 0)
    else match anchor terms with
      | none => (signBit f32 (terms.all FVal.neg && !terms.isEmpty), 0)
      | some a =>
        let ts := terms.map (truncTerm (a - 56))
        let sum := (ts.map (·.1)).sum
        let lost := ts.any (·.2)
        if sum = 0 then (0, if lost then fNX else 0)
        else roundTo f32 0 ftz lost (decide (sum < 0)) sum.natAbs (a - 56)

/-- FDOT formats: format, element width, count (R210). -/
def fdotFmt (f : BitVec 2) : Fmt × Nat × Nat := match f with
  | 0 => (bf16, 16, 2)
  | 1 => (e4m3, 8, 4)
  | 2 => (e5m2, 8, 4)
  | 3 => (e2m1, 4, 8)

/-- Element i of a word in fields of w bits. -/
def elemOf (x : Word) (w i : Nat) : Nat := x.toNat / 2 ^ (w * i) % 2 ^ w

/-- FDOT (R210). -/
def fdotV (ftz : Bool) (f : BitVec 2) (a b d : Word) : Nat × Flags :=
  let (fm, w, n) := fdotFmt f
  windowSum ftz (fp ftz d :: (List.range n).map fun i => mulX (unpackF fm (elemOf a w i)) (unpackF fm (elemOf b w i)))

/-- A 4- or 8-bit integer element; the reserved .s4 code reads 0 and raises Q4 (R102). -/
def intElem (w : Nat) (signed : Bool) (c : Nat) : Int × Flags :=
  if signed then (if w = 4 ∧ c = 8 then (0, fQ4) else (sextN c w, 0)) else (c, 0)

/-- IDOT4, IDOT8 and their saturating forms (R169, R118). -/
def idotV (n : Nat) (sat : Bool) (f : BitVec 2) (a b d : Word) : Nat × Flags :=
  let w := 32 / n
  let es := (List.range n).map fun i => (intElem w (f.getLsbD 0) (elemOf a w i), intElem w (f.getLsbD 1) (elemOf b w i))
  let sum := d.toInt + (es.map fun p => p.1.1 * p.2.1).sum
  (wrapN (if sat then satI sum (-2147483648) 2147483647 else sum) 32, es.foldl (fun a p => a ||| p.1.2 ||| p.2.2) 0)

/-! ### Special functions (R119) -/

/-- Fixed-point scale of the evaluations below: 2^-600, so fine that an enclosure of a result leaves no FP32 code at the edge of a bound
undecided (SIN of the least subnormal differs from its argument by 2^-450). -/
def sfS : Nat := 2 ^ 600

/-- ln 2, 2π as multiples of 2^-600, and 2π as one of 2^-760, truncated. -/
def ln2S : Nat :=
  2876225017259457803941422075936356235510355236981739542476444676843237809403636166587937224051855780383968483986161182568312219414999934030440139693377154550791842205675450932055002
def twoPiS : Nat :=
  26072175254305998270457586298651767412822903721283034119025385178698713854569912464245971894249736648520746658252008459940502276531683872291549502603252724803009373274703743273820695
def twoPiL : Nat :=
  38104526822946466646760684662368628422708043317320354000914801755492714718134578299518043410183150834850048350806064779246351839626138540225562335048193723380713797056263535887839677612208104588989359972137307419205246647830596861

/-- Sum of a series whose term i + 1 is the term i times x / den(i), in units of 2^-600. -/
def seriesS (x : Int) (den : Nat → Int) : Nat → Nat → Int → Int
  | 0, _, _ => 0
  | n + 1, i, t => t + seriesS x den n (i + 1) (t * x / sfS / den i)

/-- 2^y for y in [0, 1], in units of 2^-600. -/
def exp2S (y : Int) : Int := seriesS (y * ln2S / sfS) (fun i => i + 1) 120 0 sfS

/-- log2 of m, 1 ≤ m < 2, in units of 2^-600: 2 atanh((m - 1)/(m + 1)) / ln 2. -/
def log2S (m : Int) : Int :=
  let z := (m - sfS) * sfS / (m + sfS)
  let z2 := z * z / sfS
  let terms := (List.range 195).foldl (fun (a : Int × Int) (i : Nat) => (a.1 + a.2 / (2 * (i : Int) + 1), a.2 * z2 / sfS)) (0, z)
  2 * terms.1 * sfS / ln2S

/-- sin and cos of x in [-π, π], in units of 2^-600. -/
def sinS (x : Int) : Int := seriesS (-(x * x / sfS)) (fun i => (2 * i + 2) * (2 * i + 3)) 80 0 x
def cosS (x : Int) : Int := seriesS (-(x * x / sfS)) (fun i => (2 * i + 1) * (2 * i + 2)) 80 0 sfS

/-- An interval of reals: [lo, hi] times 2^e. -/
structure Ival where
  lo : Int
  hi : Int
  e : Int

/-- A value below 2^72 as a multiple of 2^-600, truncated. -/
def toS (n : Bool) (m : Nat) (e : Int) : Int :=
  if 0 ≤ e + 600 then sgn n (m * 2 ^ (e + 600).toNat) else if (m.log2 : Int) + 1 < -(e + 600) then 0 else sgn n (m / 2 ^ (-(e + 600)).toNat)

/-- A value below 2^72 as a multiple of 2^-600, rounded down. -/
def floorS (n : Bool) (m : Nat) (e : Int) : Int :=
  let x := toS n m e
  if n && !(decide (0 ≤ e + 600)) && decide (x * 2 ^ (-(e + 600)).toNat ≠ sgn n m) then x - 1 else x

/-- The integral part and the fraction (in 2^-600) of a value of magnitude below 2^10. -/
def splitS (n : Bool) (m : Nat) (e : Int) : Int × Int := let x := floorS n m e; (x / sfS, x % sfS)

/-- 2^x within a small relative error (far below the bound of R119), in the binade that it lies in. -/
def exp2I (n : Bool) (m : Nat) (e : Int) : Ival :=
  let (k, f) := splitS n m e
  let y := exp2S f
  { lo := max sfS (y - 2 ^ 20), hi := min (2 * sfS) (y + 2 ^ 20), e := k - 600 }

/-- Exact result of a special function of a finite non-zero value, as an interval (a point where it is dyadic). -/
def specIval (fn : BitVec 3) (n : Bool) (m : Nat) (e : Int) : Ival :=
  match fn with
  | 0 => -- RCP
    let q := 2 ^ 200 / m
    let ex := 2 ^ 200 % m = 0
    if n then { lo := -((if ex then q else q + 1 : Nat) : Int), hi := -(q : Int), e := -200 - e }
    else { lo := q, hi := if ex then q else q + 1, e := -200 - e }
  | 1 => -- RSQ of m * 2^e, e made even
    let m' := if e % 2 = 0 then m else 2 * m
    let e' := if e % 2 = 0 then e else e - 1
    let r := Nat.sqrt (2 ^ 400 / m')
    let ex := r * r * m' = 2 ^ 400
    { lo := r, hi := if ex then r else r + 1, e := -200 - e' / 2 }
  | 7 => -- SQRT
    let m' := if e % 2 = 0 then m else 2 * m
    let e' := if e % 2 = 0 then e else e - 1
    let r := Nat.sqrt (m' * 2 ^ 200)
    { lo := r, hi := if r * r = m' * 2 ^ 200 then r else r + 1, e := e' / 2 - 100 }
  | 2 => if (10 : Int) ≤ m.log2 + e then { lo := 1, hi := 2, e := -1000 } else exp2I n m e
  | 3 => -- LOG2: m = 2^L * (m / 2^L)
    let y := ((m.log2 : Int) + e) * sfS + log2S (m * sfS / 2 ^ m.log2 : Nat)
    { lo := y - 2 ^ 20, hi := y + 2 ^ 20, e := -600 }
  | 6 => -- TANH = (t - 1) / (t + 1), t = 2^(2x / ln 2); from 128 on it is below 1 by less than 2^-300
    if (7 : Int) ≤ m.log2 + e then
      (if n then { lo := 1 - 2 ^ 600, hi := 2 ^ 300 - 2 ^ 600, e := -600 } else { lo := 2 ^ 600 - 2 ^ 300, hi := 2 ^ 600 - 1, e := -600 })
    else
      let x := toS false m e * 2 * sfS / ln2S
      let t := exp2S (x % sfS) * 2 ^ (x / sfS).toNat
      let y := (t - sfS) * sfS / (t + sfS)
      if n then { lo := -y - 2 ^ 60, hi := -y + 2 ^ 60, e := -600 } else { lo := y - 2 ^ 60, hi := y + 2 ^ 60, e := -600 }
  | _ => -- SIN, COS: reduction of the exact argument, a multiple of 2^-760
    let r : Int := (m * 2 ^ (e + 760).toNat % twoPiL / 2 ^ 160 : Nat)
    let x := if 2 * r ≤ twoPiS then r else r - twoPiS
    let y := if fn = 4 then sinS (if n then -x else x) else cosS x
    { lo := y - 2 ^ 20, hi := y + 2 ^ 20, e := -600 }

/-- FP32 magnitudes in order: codes of positive values rise; a negative value of magnitude code c has place -c - 1, so that -0 comes
just below +0. -/
def ordOf (neg : Bool) (c : Nat) : Int := if neg then -(c : Int) - 1 else c
def ordCode (o : Int) : Nat := if o < 0 then 2 ^ 31 + (-o - 1).toNat else o.toNat

/-- Magnitude code of the FP32 value next to m * 2^e toward zero or away from it, infinity's code standing for 2^128. -/
def magCode (up : Bool) (m : Nat) (e : Int) : Nat :=
  if m = 0 then 0
  else
    let q := max ((m.log2 : Int) + e - 23) (-149)
    let r := shiftRound (if up then 3 else 1) false m (q - e)
    min ((q + 149).toNat * 2 ^ 23 + r.1) (infCode f32)

/-- Places of the first FP32 value at or above, and the last at or below, x * 2^e. -/
def ordCeil (x e : Int) : Int := if x ≤ 0 then ordOf true (magCode false x.natAbs e) else magCode true x.natAbs e
def ordFloor (x e : Int) : Int := if x < 0 then ordOf true (magCode true x.natAbs e) else magCode false x.natAbs e

/-- Absolute bound of SIN and COS (Table 4.10): 2^-22, and beyond π also |x| * 2^-40. -/
def sinBound (m : Nat) (e : Int) : Nat × Int :=
  if (2 : Int) ≤ m.log2 + e ∨ twoPiS < 2 * (toS false m e).toNat then
    (if e ≤ 18 then (m + 2 ^ (18 - e).toNat, e - 40) else (m * 2 ^ (e - 18).toNat + 1, -22))
  else (1, -22)

/-- Absolute bound of a special function around its exact result, in units of 2^e' given with e' (Table 4.10); an ulp is one of the
exact result, in its binade the smaller one where the interval does not tell. -/
def specBound (fn : BitVec 3) (m : Nat) (e : Int) (y : Ival) : Nat × Int :=
  let ulpE := max (((min y.lo.natAbs y.hi.natAbs).log2 : Int) + y.e - 23) (-149)
  match fn with
  | 2 => (2, ulpE)
  | 3 => (2, ulpE)
  | 4 => sinBound m e
  | 5 => sinBound m e
  | 6 => (1, -20)
  | _ => (1, ulpE)

/-- An interval widened by a bound. -/
def widenI (y : Ival) (b : Nat × Int) : Ival :=
  let e := min y.e b.2
  let up (x : Int) (xe : Int) : Int := x * 2 ^ (xe - e).toNat
  { lo := up y.lo y.e - up b.1 b.2, hi := up y.hi y.e + up b.1 b.2, e := e }

/-- A result chosen within the bound (R119: a fixed function of the source word and FTZ), with its flags. UF and the FTZ flush are
judged on the value chosen (log entry 64). EXP2 of an argument below 128 stays finite (Table 4.10). -/
def specPick (fn : BitVec 3) (ftz : Bool) (src : Word) (m : Nat) (e : Int) (y : Ival) : Nat × Flags :=
  let w := widenI y (specBound fn m e y)
  let lo := ordCeil w.lo w.e
  let hi := if fn = 2 then min (ordFloor w.hi w.e) ((infCode f32 : Nat) - 1) else ordFloor w.hi w.e
  let o := lo + (Config.fspecPick fn src ftz % ((hi - lo).toNat + 1) : Nat)
  let c := ordCode o
  let mag := c % 2 ^ 31
  let exact := decide (y.lo = y.hi) && (match unpackF f32 c with
    | .fin n cm ce =>
      let b := min ce y.e
      decide (sgn n cm * 2 ^ (ce - b).toNat = y.lo * 2 ^ (y.e - b).toNat)
    | _ => false)
  if mag = infCode f32 then (c, fOF ||| fNX)
  else if mag < 2 ^ 23 then
    (if ftz then (c / 2 ^ 31 * 2 ^ 31, fUF ||| fNX) else (c, if exact then 0 else fUF ||| fNX))
  else (c, if exact then 0 else fNX)

/-- An integral value of magnitude at most 2^8, if the value is one. -/
def intVal (n : Bool) (m : Nat) (e : Int) : Option Int :=
  if (8 : Int) < m.log2 + e then none
  else if 0 ≤ e then some (sgn n (m * 2 ^ e.toNat))
  else if m % 2 ^ (-e).toNat = 0 then some (sgn n (m / 2 ^ (-e).toNat)) else none

/-- A result that is a special case of FSPEC for an exact value, rounded as R112 gives. -/
def specExact (ftz : Bool) (v : FVal) : Nat × Flags := convTo f32 0 ftz v

/-- FSPEC of a finite non-zero value. -/
def specFin (fn : BitVec 3) (ftz : Bool) (src : Word) (n : Bool) (m : Nat) (e : Int) : Nat × Flags :=
  match fn with
  | 0 =>
    let y := specIval fn n m e
    if m = 2 ^ m.log2 ∧ (128 : Int) ≤ -(m.log2 + e) then (signBit f32 n + infCode f32, fOF ||| fNX)
    else if (128 : Int) < -(m.log2 + e) then (signBit f32 n + infCode f32, fOF ||| fNX)
    else specPick fn ftz src m e y
  | 1 =>
    if n then qnan true
    else if src = 0x40800000#32 then (0x3F000000, 0) -- the value R205 states for 4.0
    else specPick fn ftz src m e (specIval fn n m e)
  | 7 => if n then qnan true else specPick fn ftz src m e (specIval fn n m e)
  | 2 =>
    if !n ∧ (7 : Int) ≤ m.log2 + e then (infCode f32, fOF ||| fNX)
    else match (intVal n m e).filter fun k => decide (-149 ≤ k) with
      | some k => specExact ftz (.fin false 1 k)
      | none => specPick fn ftz src m e (specIval fn n m e)
  | 3 =>
    if n then qnan true
    else if m = 2 ^ m.log2 then
      let k : Int := m.log2 + e
      specExact ftz (.fin (decide (k < 0)) k.natAbs 0)
    else specPick fn ftz src m e (specIval fn n m e)
  | _ => specPick fn ftz src m e (specIval fn n m e)

/-- FSPEC (R119, R205): functions 0 RCP, 1 RSQ, 2 EXP2, 3 LOG2, 4 SIN, 5 COS, 6 TANH, 7 SQRT. -/
def fspec (fn : BitVec 3) (ftz : Bool) (src : Word) : Nat × Flags :=
  match fp ftz src with
  | .nan s => qnan s
  | .inf n => match fn with
    | 0 => (signBit f32 n, 0)
    | 1 => if n then qnan true else (0, 0)
    | 2 => (if n then 0 else infCode f32, 0)
    | 3 => if n then qnan true else (infCode f32, 0)
    | 4 => qnan true
    | 5 => qnan true
    | 6 => (signBit f32 n + codeF32 (.fin false 1 0), 0)
    | 7 => if n then qnan true else (infCode f32, 0)
  | .fin n m e =>
    if m = 0 then match fn with
      | 0 => (signBit f32 n + infCode f32, fDZ)
      | 1 => (signBit f32 n + infCode f32, fDZ)
      | 2 => (codeF32 (.fin false 1 0), 0)
      | 3 => (2 ^ 31 + infCode f32, fDZ)
      | 4 => (signBit f32 n, 0)
      | 5 => specPick fn ftz src 0 0 { lo := 1, hi := 1, e := 0 }
      | 6 => (signBit f32 n, 0)
      | 7 => (signBit f32 n, 0)
    else specFin fn ftz src n m e

end Sys2Proof.Machine
end

