-- ==== Sys2Proof/Machine/Float.lean ====
section
/-! DEFINITION. Floating-point, packed and integer dot-product instructions (07_ref_float_packed_matrix.md R197 to R210, 06 R169). -/

namespace Sys2Proof.Machine

/-- Two sources under FRM and FTZ (R197). -/
def fpu3 (s : State) (o : A3) (f : BitVec 2 → Bool → Word → Word → Nat × Flags) : R State := do
  let g ← issuer s
  vecStep s [(o.a, o.la), (o.b, o.lb)] [o.d] fun l =>
    let r := f g.frm g.ftz (arg l 0) (arg l 1); { vals := [u32 r.1], flags := r.2 }

/-- Two sources and the destination under FRM and FTZ. -/
def fpu4 (s : State) (o : A3) (f : BitVec 2 → Bool → Word → Word → Word → Nat × Flags) : R State := do
  let g ← issuer s
  alu4F s o (f g.frm g.ftz)

/-- One source under FTZ. -/
def fpu2 (s : State) (o : A2) (f : Bool → Word → Nat × Flags) : R State := do
  let g ← issuer s
  vecStep s [(o.a, o.la)] [o.d] fun l => let r := f g.ftz (arg l 0); { vals := [u32 r.1], flags := r.2 }

def faddW (m : BitVec 2) (z : Bool) (a b : Word) : Nat × Flags := addV m z (fp z a) (fp z b)
def fsubW (m : BitVec 2) (z : Bool) (a b : Word) : Nat × Flags := addV m z (fp z a) ((fp z b).flip true)
def fmulW (m : BitVec 2) (z : Bool) (a b : Word) : Nat × Flags := mulV m z (fp z a) (fp z b)

def execFadd (o : A3) (s : State) : Out := finish (fpu3 s o faddW)
def execFsub (o : A3) (s : State) : Out := finish (fpu3 s o fsubW)
def execFmul (o : A3) (s : State) : Out := finish (fpu3 s o fmulW)
def execFfma (o : A3) (s : State) : Out := finish (fpu4 s o fun m z a b d => fmaV m z false false (fp z a) (fp z b) (fp z d))
def execFfms (o : A3) (s : State) : Out := finish (fpu4 s o fun m z a b d => fmaV m z false true (fp z a) (fp z b) (fp z d))
def execFnma (o : A3) (s : State) : Out := finish (fpu4 s o fun m z a b d => fmaV m z true false (fp z a) (fp z b) (fp z d))
def execFmin (o : A3) (s : State) : Out := finish (fpu3 s o fun _ z a b => minmaxV false (fp z a) (fp z b))
def execFmax (o : A3) (s : State) : Out := finish (fpu3 s o fun _ z a b => minmaxV true (fp z a) (fp z b))

/-- FCMP (R203). -/
def fcmpStep (s : State) (o : CmpOps) : R State := do
  let g ← issuer s
  cmpStep s o fun a b => fcmpV o.cond (fp g.ftz a) (fp g.ftz b)

def execFcmp (o : CmpOps) (s : State) : Out := finish (fcmpStep s o)
def execFrnd (f : BitVec 2) (o : A2) (s : State) : Out := finish (fpu2 s o fun z a => frndV f (fp z a))
def execFspec (fn : BitVec 3) (o : A2) (s : State) : Out := finish (fpu2 s o fun z a => fspec fn z a)
def execCvtf (f : BitVec 2) (code : BitVec 7) (o : A2) (s : State) : Out := finish (fpu2 s o fun z a => cvtf f z code.toNat a)
def execFdot (f : BitVec 2) (o : A3) (s : State) : Out := finish (fpu4 s o fun _ z a b d => fdotV z f a b d)

/-- PACK reads d only for the 8-bit formats (R208). -/
def execPack (f : BitVec 2) (o : A3) (s : State) : Out :=
  finish (if f.toNat < 2 then fpu3 s o fun m z a b => packV m z f a b 0 else fpu4 s o fun m z a b d => packV m z f a b d)
def execUnpack (f : BitVec 2) (o : A3) (s : State) : Out := finish (fpu3 s o fun _ z a b => unpackV z f a b)
def execFscale (f : BitVec 2) (o : A3) (s : State) : Out := finish (fpu3 s o fun m z a b => fscaleV m z f a b)

def execIdot4 (f : BitVec 2) (o : A3) (s : State) : Out := finish (alu4F s o (idotV 4 false f))
def execIdot4s (f : BitVec 2) (o : A3) (s : State) : Out := finish (alu4F s o (idotV 4 true f))
def execIdot8 (f : BitVec 2) (o : A3) (s : State) : Out := finish (alu4F s o (idotV 8 false f))
def execIdot8s (f : BitVec 2) (o : A3) (s : State) : Out := finish (alu4F s o (idotV 8 true f))

def execFaddH (b d : BitVec 5) (s : State) : Out := finish (fpu3 s (hOps b d) faddW)
def execFsubH (b d : BitVec 5) (s : State) : Out := finish (fpu3 s (hOps b d) fsubW)
def execFmulH (b d : BitVec 5) (s : State) : Out := finish (fpu3 s (hOps b d) fmulW)
def execFmaxH (b d : BitVec 5) (s : State) : Out := finish (fpu3 s (hOps b d) fun _ z a b => minmaxV true (fp z a) (fp z b))

end Sys2Proof.Machine
end

