-- ==== Sys2Proof/Machine/Publish.lean ====
section
/-! DEFINITION. Publish and refresh of a group (R129, R138, R145, R403, R420), the stash bytes they touch (R128), and the reads of a
group (R143). -/

namespace Sys2Proof.Machine

/-! ### Reads of a group -/

/-- The group as a reader of global memory (R143). -/
def Group.reader (g : Group) (s : State) (gid : Nat) (key : Nat) : Reader :=
  { who := agentOf g.core, grp := some gid, rho := g.rho, seen := g.seen, key := keySerial s key }

/-- The newest pending byte of a group at a location (R143 step 1). -/
def pendByte (g : Group) (t : Trans) (i : Nat) : Option Byte :=
  g.pend.reverse.findSome? fun e =>
    if e.tr.kind = t.kind ∧ e.tr.pa ≤ t.pa + i ∧ t.pa + i < e.tr.pa + e.bytes.length then e.bytes[t.pa + i - e.tr.pa]? else none

/-- Record what was read as seen (R143 step 3). -/
def seenAdd (m : Map Nat) (l : List (Nat × Nat)) : Map Nat :=
  l.foldl (fun m p => if mgetD m p.1 0 < p.2 then mput m p.1 p.2 else m) m

/-- Bytes of one single-copy atomic unit as a group reads them, and what it then has seen (R143, R134). `own`: whether the group's
pending stores count. -/
def readGroup (s : State) (gid : Nat) (g : Group) (own : Bool) (salt : Nat) (t : Trans) (n : Nat) : List Byte × Map Nat :=
  let pas := physBytes t n
  let live := ((List.range n).zip pas).filter fun p => !(own && (pendByte g t p.1).isSome)
  let unit := live.filterMap (·.2)
  let got := unit.zip (readUnit s (g.reader s gid t.key) salt unit)
  let val (p : Nat × Option Nat) : Byte :=
    match (if own then pendByte g t p.1 else none) with
    | some b => b
    | none => match p.2 with
      | none => 0
      | some pa => ((got.find? (·.1 == pa)).map (·.2.1)).getD 0
  (((List.range n).zip pas).map val, seenAdd g.seen (got.map fun x => (x.1, x.2.2)))

/-! ### Stash bytes -/

/-- The stash window that holds a scratch offset (R238). -/
def windowAt (t : Team) (off : Nat) : Option Window := t.windows.find? fun w => decide (w.off ≤ off ∧ off < w.off + w.len)

/-- Global address of a stash byte. -/
def stashVa (t : Team) (off : Nat) : Nat := match windowAt t off with
  | some w => w.va + (off - w.off)
  | none => 0

/-- Insert by rising first component. -/
def insertBy {α : Type} (x : Nat × α) : List (Nat × α) → List (Nat × α)
  | [] => [x]
  | y :: l => if x.1 ≤ y.1 then x :: y :: l else y :: insertBy x l

def sortBy {α : Type} (l : List (Nat × α)) : List (Nat × α) := l.foldr insertBy []

/-- The dirty stash bytes of a group, as (global address, offset, mark), addresses rising (R129). -/
def dirtyOf (t : Team) (gid : Nat) : List (Nat × (Nat × Dirty)) :=
  sortBy ((t.stashDirty.filter fun p => decide (p.2.gid = gid)).map fun p => (stashVa t p.1, p))

/-- Sectors that hold a dirty byte (R128). -/
def sectorDirty (t : Team) (sec : Nat) : Bool := t.stashDirty.any fun p => decide (p.1 / 32 = sec)

/-- Every CLEAN sector becomes EMPTY (R128). -/
def Team.emptyClean (t : Team) : Team := { t with stashFull := t.stashFull.filter (sectorDirty t) }

/-- Discard a group's dirty bytes: their sectors refill at the next touch, other groups' bytes stay dirty (R129 Kill). -/
def Team.dropDirty (t : Team) (gid : Nat) : Team :=
  let secs := ((t.stashDirty.filter fun p => decide (p.2.gid = gid)).map (·.1 / 32)).eraseDups
  { t with stashDirty := t.stashDirty.filter (fun p => decide (p.2.gid ≠ gid)), stashFull := t.stashFull.filter fun x => !secs.contains x }

/-! ### Publish -/

/-- A fault record of SOURCE 5 (R403). -/
def discardRecord (handle : DWord) (cause : Nat) (va : DWord) : FaultRec :=
  { source := 5, cause := cause, access := 2, vaddr := va, group := handle, hcause := 0, hpc := 0, detail := 0 }

/-- What becomes of one pending entry or dirty byte (R403, R420): published with its event's moment and cells, discarded, sent to a
peer, kept (a remote entry below .sys), or the stop at a MIGRATING page. -/
inductive Fate where
  | published (s : State) (cells : List (Nat × Nat))
  | discarded (s : State)
  | sent (s : State) (id : Nat)
  | kept
  | stopped

/-- Publish one unit of a group at a scope (R138, R403, R420): a stale entry is translated again, and one of 1 or 2 bytes that a trimmed
page now holds is refused with cause 0x04 (R410). -/
def publishUnit (s : State) (gid : Nat) (g : Group) (sc : Scope) (e : Pend) : Fate :=
  if e.stale && decide (e.bytes.length < 4) && trimmedAt s g.ctx (agentOf g.core) 0 e.va then
    .discarded (postRecord s g.ctx (discardRecord (handleOf g) 4 e.va))
  else match (if e.stale then translate s g.ctx (agentOf g.core) 0 e.va .write else .ok e.tr) with
  | .error f =>
    if f.access / 16 % 2 = 1 then .stopped else .discarded (postRecord s g.ctx (discardRecord (handleOf g) f.cause e.va))
  | .ok t =>
    if t.kind = .remote then
      if sc = .sys then
        .sent (sendRemote s g.ctx (.entry gid (handleOf g)) e.va t ((List.range e.bytes.length).zip e.bytes)) s.fresh
      else .kept
    else
      let cells := unitCells t (storedBytes t e.bytes)
      .published (publish s (agentOf g.core) (some gid) none sc (keySerial s t.key) cells) (cells.map fun c => (c.1, s.fresh))

/-- What a run of publishes leaves: the state, entries left in the queue, remote operations sent, what is seen, and whether it
stopped at a MIGRATING page. -/
structure PubRun where
  s : State
  kept : List Pend
  sent : List Nat
  seen : List (Nat × Nat)
  stopped : Bool

/-- Publish a list of units in order (R138 step 2). -/
def publishList (gid : Nat) (g : Group) (sc : Scope) : List Pend → PubRun → PubRun
  | [], r => r
  | e :: l, r =>
    match publishUnit r.s gid g sc e with
    | .published s cells => publishList gid g sc l { r with s := s, seen := r.seen ++ cells }
    | .discarded s => publishList gid g sc l { r with s := s }
    | .sent s id => publishList gid g sc l { r with s := s, sent := r.sent ++ [id] }
    | .kept => publishList gid g sc l { r with kept := r.kept ++ [e] }
    | .stopped => { r with kept := r.kept ++ e :: l, stopped := true }

/-- A dirty byte as a unit to publish. -/
def dirtyUnit (team : Team) (va : Nat) (off : Nat) (d : Dirty) : Pend :=
  { va := u64 va, tr := d.tr, bytes := [rdByte team.scratch off], stale := d.stale }

/-- Publish dirty bytes of a group in order; those published, discarded or sent are dirty no longer (R129). -/
def publishDirty (s : State) (gid : Nat) (g : Group) (tid : Nat) (team : Team) (sc : Scope) (l : List (Nat × (Nat × Dirty))) : PubRun :=
  let units := l.map fun p => dirtyUnit team p.1 p.2.1 p.2.2
  let r := publishList gid g sc units { s := s, kept := [], sent := [], seen := [], stopped := false }
  let left := (l.filter fun p => r.kept.any fun e => decide (e.va = u64 p.1)).map (·.2.1)
  let gone := (l.map (·.2.1)).filter fun o => !left.contains o
  match mget r.s.teams tid with
  | none => r
  | some t => { r with s := setTeam r.s tid { t with stashDirty := t.stashDirty.filter fun p => !gone.contains p.1 } }

/-- Publish(g, s) of R138: dirty stash bytes, then P_g, then the widening of earlier writes, with seen_g set to what was published.
The list gives the remote operations that must be acknowledged, the flag a stop at a MIGRATING page (R403). -/
def publishGroup (s : State) (gid : Nat) (sc : Scope) : State × List Nat × Bool :=
  match mget s.groups gid with
  | none => (s, [], false)
  | some g =>
    let r1 : PubRun := match g.team.bind fun t => (mget s.teams t).map fun x => (t, x) with
      | none => { s := s, kept := [], sent := [], seen := [], stopped := false }
      | some (tid, team) => publishDirty s gid g tid team sc (dirtyOf team gid)
    let r2 : PubRun := if r1.stopped then { r1 with kept := g.pend }
      else publishList gid g sc g.pend { r1 with kept := [] }
    let s' := setGroup r2.s gid { g with pend := r2.kept, seen := seenAdd g.seen r2.seen }
    (if r2.stopped then s' else widen s' gid sc, r2.sent, r2.stopped)

/-! ### Refresh -/

/-- Refresh points up to a scope move to now (R145). -/
def Group.refresh (g : Group) (sc : Scope) (now : Nat) : Group :=
  { g with rho := Vector.ofFn fun i => if i ≤ sc.idx then now else g.rho[i] }

/-- The refresh of PHASE.R, PHASE, WAITM and JOIN.WAIT: refresh points, and CLEAN stash sectors of the team become EMPTY (R145, R128). -/
def refreshGroup (s : State) (gid : Nat) (sc : Scope) : State :=
  match mget s.groups gid with
  | none => s
  | some g =>
    let s := setGroup { s with fresh := s.fresh + 1 } gid (g.refresh sc s.fresh)
    match g.team with
    | none => s
    | some tid => match mget s.teams tid with
      | none => s
      | some t => setTeam s tid t.emptyClean

end Sys2Proof.Machine
end

