-- ==== Sys2Proof/Machine/Scratch.lean ====
section
/-! DEFINITION. The team's scratchpad: bounds, written bits, owner and presence (R124, R125, R153, R157), the stash (R128), and
transaction barriers as scratch objects (R363, R364). -/

namespace Sys2Proof.Machine

/-- The issuing group's team; a control group has none, and an instruction that names a team resource is illegal there (R19). -/
def issuerTeam (s : State) (g : Group) : R (Nat × Team) :=
  match g.team with
  | none => illegal s
  | some t => match mget s.teams t with
    | some x => .ok (t, x)
    | none => .error (.fault .noIssuer)

def Line.ready : Line := { written := false, engine := false, absent := false, spilled := false }
def Team.line (t : Team) (l : Nat) : Line := mgetD t.lines l Line.ready
def Team.setLine (t : Team) (l : Nat) (x : Line) : Team := { t with lines := mputD t.lines l x Line.ready }

/-- Bytes [off, off + n) lie in the scratchpad (R124). -/
def Team.inRange (t : Team) (off n : Nat) : Bool := decide (off + n ≤ t.scratchSize)

/-- Lines that a range touches. -/
def linesOf (off n : Nat) : List Nat := if n = 0 then [] else (List.range ((off + n - 1) / 256 - off / 256 + 1)).map (off / 256 + ·)

/-- Bytes as a read finds them: 0 in a line whose written bit is clear (R125; such a line lists no byte). -/
def Team.read (t : Team) (off n : Nat) : List Byte :=
  (List.range n).map fun i => if (t.line ((off + i) / 256)).written then rdByte t.scratch (off + i) else 0

/-- Note a touch of lines (R342). -/
def Team.touch (t : Team) (now : Nat) (ls : List Nat) : Team := { t with touched := ls.foldl (fun m l => mput m l now) t.touched }

/-- Write bytes and set the written bits (R125). -/
def Team.write (t : Team) (now off : Nat) (bs : List Byte) : Team :=
  let ls := linesOf off bs.length
  let t := { t with scratch := wrBytes t.scratch off bs }
  (ls.foldl (fun t l => t.setLine l { t.line l with written := true }) t).touch now ls

/-- Clear a line: its bytes and its written bit (R238, R240, R311). -/
def Team.clearLine (t : Team) (l : Nat) : Team :=
  { t with scratch := t.scratch.filter fun c => !decide (c.1 / 256 = l) }.setLine l { t.line l with written := false }

/-- A thread access waits while a line it touches is filling from the save area (R342). -/
def anySpilled (t : Team) (ls : List Nat) : Bool := ls.any fun l => (t.line l).spilled

/-- The wait of a thread load or store on its lines (R153, R157). -/
def lineWait (t : Team) (store : Bool) (ls : List Nat) : Option Wait :=
  if store then (if ls.any fun l => (t.line l).engine || (t.line l).absent then some (.owner ls) else none)
  else if ls.any fun l => (t.line l).absent then some (.presence ls) else none

/-- ATOMS waits for both (R233). -/
def atomsWait (t : Team) (ls : List Nat) : Option Wait :=
  if ls.any fun l => (t.line l).absent then some (.presence ls) else if ls.any fun l => (t.line l).engine then some (.owner ls) else none

/-- The sector of a stash byte must be filled before an access proceeds (Table 5.2). -/
def needsFill (t : Team) (off : Nat) : Bool := (windowAt t off).isSome && !t.stashFull.contains (off / 32)

/-- Traps of a thread's access of stash bytes at the global address: those of the fill that it needs, with an error that the fill has met,
and for a store those of the write (R128, R230, R403, R407, R410). -/
def stashTrap (s : State) (g : Group) (t : Team) (lane off : Nat) (store : Bool) : Option TrapInfo :=
  match windowAt t off with
  | none => none
  | some _ =>
    let va := u64 (stashVa t off)
    let chk (n : Need) : Option TrapInfo :=
      if trimmedAt s g.ctx (agentOf g.core) lane va then some { cause := 4, haddr := va, access := n.code false }
      else match translate s g.ctx (agentOf g.core) lane va n with
        | .error f => some { cause := f.cause, haddr := va, access := f.access }
        | .ok _ => none
    (if needsFill t off then
      (if t.stashErrs.contains (off / 32, s.cur.group) then some { cause := 10, haddr := va, access := 0 } else chk .read)
     else none).or (if store then chk .write else none)

/-- Start the fills that the offsets need, by the touching group. -/
def Team.startFills (t : Team) (gid : Nat) (offs : List Nat) : Team :=
  { t with stashFills := (offs.filter (needsFill t)).foldl (fun l o => if l.any (·.1 == o / 32) then l else l ++ [(o / 32, gid)]) t.stashFills }

/-- Mark the bytes a group wrote in a stash window dirty, with the translation of the write (R129, R403). -/
def Team.markDirty (t : Team) (gid : Nat) (tr : Nat → Option Trans) (off n : Nat) : Team :=
  { t with stashDirty := (List.range n).foldl (fun m i => match windowAt t (off + i), tr (off + i) with
      | some _, some x => mput m (off + i) { gid := gid, tr := x, stale := false }
      | _, _ => m) t.stashDirty }

/-- Translation of a stash byte's write. -/
def stashTr (s : State) (g : Group) (t : Team) (lane off : Nat) : Option Trans :=
  match translate s g.ctx (agentOf g.core) lane (u64 (stashVa t off)) .write with
  | .ok x => some x
  | .error _ => none

/-! ### Transaction barriers -/

/-- The fields of a transaction barrier (Table 15.3). -/
structure TBar where
  phase : BitVec 4
  arrivals : BitVec 20
  sectors : BitVec 32
  acks : BitVec 16
  reload : BitVec 20
  err : Bool
  deriving DecidableEq, Repr

def TBar.ofNat (n : Nat) : TBar :=
  { phase := BitVec.ofNat 4 n, arrivals := BitVec.ofNat 20 (n / 2 ^ 4), sectors := BitVec.ofNat 32 (n / 2 ^ 24),
    acks := BitVec.ofNat 16 (n / 2 ^ 56), reload := BitVec.ofNat 20 (n / 2 ^ 72), err := decide (n / 2 ^ 92 % 2 = 1) }

def TBar.toNat (b : TBar) : Nat :=
  b.phase.toNat + b.arrivals.toNat * 2 ^ 4 + b.sectors.toNat * 2 ^ 24 + b.acks.toNat * 2 ^ 56 + b.reload.toNat * 2 ^ 72 +
  (if b.err then 2 ^ 92 else 0)

def Team.tbar (t : Team) (off : Nat) : TBar := TBar.ofNat (leNat (t.read off 16))
def Team.setTbar (t : Team) (now off : Nat) (b : TBar) : Team := t.write now off (leList b.toNat 16)

/-- Complete(B): the check after every decrement (R364). -/
def TBar.complete (b : TBar) : TBar :=
  if b.arrivals = 0 ∧ b.sectors = 0 ∧ b.acks = 0 then { b with phase := b.phase + 1, arrivals := b.reload } else b

/-- Append groups to a cluster's queue of woken groups (R379). -/
def queueWave (s : State) (cl : Nat) (gs : List Nat) : State :=
  let c := clusterOf s cl
  setCluster s cl { c with waveQ := c.waveQ ++ gs.filter fun g => !c.waveQ.contains g }

/-- Groups of a core in order of placement age, oldest first (R54). -/
def byAge (l : List (Nat × Group)) : List Nat := (sortBy (l.map fun p => (p.2.age, p.1))).map (·.2)

/-- Change a team that is held in a save area. -/
def onSaved (s : State) (tid : Nat) (f : Team → Team) : State :=
  { s with contexts := s.contexts.map fun c => (c.1, { c.2 with saved := c.2.saved.map fun x =>
      if x.uid = tid then { x with team := f x.team } else x }) }

/-- One indivisible update of a transaction barrier that lies in range; groups that wait for a phase it opens join the release queue
(R363, R366, R379). -/
def updTbar (s : State) (tid off : Nat) (f : TBar → TBar) : State :=
  match mget s.teams tid with
  | none => onSaved s tid fun t => if t.inRange off 16 then t.setTbar s.tick off (f (t.tbar off)) else t
  | some t =>
    if !t.inRange off 16 then s
    else
      let b := f (t.tbar off)
      let s := setTeam s tid (t.setTbar s.tick off b)
      let woken := s.groups.filter fun p => decide (p.2.team = some tid) && p.2.threads.toList.any fun th => match th.wait with
        | some (.tbar o ph) => th.live && decide (o = off) && decide (ph ≠ b.phase)
        | _ => false
      queueWave s (clusOf t.core) (byAge woken)

/-- Sectors landed or read by an engine or skidder (R245), and the error flag. -/
def landSectors (s : State) (tid off : Nat) (n : Nat) : State :=
  updTbar s tid off fun b => (List.range n).foldl (fun b _ => { b with sectors := b.sectors - 1 }.complete) b

def setTbarErr (s : State) (tid off : Nat) : State := updTbar s tid off fun b => { b with err := true }

end Sys2Proof.Machine
end

