-- ==== Sys2Proof/Machine/Tile.lean ====
section
/-! DEFINITION. Tiles: formats (R212), the lines a descriptor views (R244), the canonical image (R211), the storage layouts
(R383 to R386), rings as ranges of scratch (R388), and the scratch accesses of a sequencer operation (R216). -/

namespace Sys2Proof.Machine

/-! ### Formats (Table 7.15) -/

/-- K elements per step line. -/
def ksOf (fmt : Nat) : Nat := if fmt = 3 ∨ fmt = 5 ∨ fmt = 10 ∨ fmt = 13 then 32 else if fmt = 6 ∨ fmt = 7 then 8 else 16

/-- Bits of an element. -/
def bitsOf (fmt : Nat) : Nat := 128 / ksOf fmt

def isScaled (fmt : Nat) : Bool := decide (8 ≤ fmt ∧ fmt ≤ 11)
def isIntFmt (fmt : Nat) : Bool := [4, 5, 12, 13].contains fmt
def isFloatFmt (fmt : Nat) : Bool := [1, 2, 3, 6, 7, 8, 9, 10, 11].contains fmt

/-- Two formats are compatible for one matrix step (R212). -/
def compatible (a b : Nat) : Bool :=
  decide (ksOf a = ksOf b) && ((isFloatFmt a && isFloatFmt b) || (isIntFmt a && isIntFmt b))

/-! ### What a descriptor views -/

def Desc.f (d : Desc) : Nat := d.fmt.toNat
def Desc.steps (d : Desc) : Nat := ceilDiv d.cols.toNat (ksOf d.f)
def Desc.blocks (d : Desc) : Nat := ceilDiv d.cols.toNat 32
def Desc.stepAt (d : Desc) (k : Nat) : Nat := d.base.toNat + k * d.inc.toNat
def Desc.scaleAt (d : Desc) (j : Nat) : Nat := d.scale.toNat + 32 * j

/-- The offsets and lengths of the parts of a tile's canonical image, in ascending order of step and block (R244). -/
def Desc.parts (d : Desc) : List (Nat × Nat) :=
  if d.f = 15 then [(d.base.toNat, 4096)]
  else (List.range d.steps).map (fun k => (d.stepAt k, 512)) ++
    (if isScaled d.f then (List.range d.blocks).map fun j => (d.scaleAt j, 32) else [])

/-- The 256 B lines viewed (Table 8.12). -/
def Desc.lines (d : Desc) : List Nat := (d.parts.flatMap fun p => linesOf p.1 p.2).eraseDups

/-- Sectors of the canonical image, as scratch offsets (R385). -/
def Desc.sectors (d : Desc) : List Nat := d.parts.flatMap fun p => (List.range (p.2 / 32)).map fun i => p.1 + 32 * i

/-- First part that is not whole inside the scratchpad, in ascending order of step, the step lines before the scale lines: the spec gives no
order among the lines that lie outside (DESIGN CHOICE, log entry 91). -/
def outside (t : Team) (parts : List (Nat × Nat)) : Option Nat := (parts.find? fun p => !t.inRange p.1 p.2).map (·.1)

/-- A line lies in a stash window. -/
def inWindow (t : Team) (l : Nat) : Bool := t.windows.any fun w => decide (w.off / 256 ≤ l ∧ l < (w.off + w.len) / 256)

/-- The checks of R244 with cause 0x01 on the tile an engine instruction names; they come before the operand checks (R227). -/
def tileLegal (t : Team) (d : Desc) : Bool :=
  d.f ≠ 0 && !(d.f ≠ 15 && d.inc == 0 && decide (1 < d.steps)) && (d.f = 15 || d.cols ≠ 0) && !(d.lines.any (inWindow t))

/-- The lines of a tile lie in the scratchpad (R244, R227 step 2). -/
def tileRange (s : State) (t : Team) (d : Desc) : R Unit :=
  match outside t d.parts with
  | some off => .error (stopTrap s 9 (u64 off))
  | none => .ok ()

/-! ### Storage layouts -/

def layArr (l : BitVec 8) : Nat := l.toNat % 4
def layVer (l : BitVec 8) : Bool := l.getLsbD 7

/-- The layout byte may be used with a format and geometry (R383). -/
def layoutOk (l : BitVec 8) (fmt rows cols : Nat) : Bool :=
  layArr l ≠ 3 && decide (l.toNat / 4 % 32 = 0) && !(layArr l = 1 && fmt = 15) &&
  !(fmt ≠ 15 && bitsOf fmt = 4 && ((layArr l = 0 && cols % 2 = 1) || (layArr l = 1 && rows % 2 = 1)))

/-- Where a byte of the canonical image comes from: a constant, a byte of global memory, or two nibbles of global bytes (address and
whether the high nibble), an absent nibble being 0. -/
inductive Src where
  | const (b : Byte)
  | byte (va : Nat)
  | nibs (lo hi : Option (Nat × Bool))
  deriving DecidableEq, Repr

def wrapVa (a : Nat) : Nat := a % 2 ^ 64

/-- Bytes of a row that hold elements, and the place E of its scale bytes (Table 16.4). -/
def rowBytes (d : Desc) : Nat := if d.f = 15 then 128 else ceilDiv (d.cols.toNat * bitsOf d.f) 8
def scalePlace (d : Desc) : Nat := ceilDiv (rowBytes d) 32 * 32

/-- Source of byte `j` of row `r` of step line `s` (R384, R385). `row` gives the address of a row under ROW; `o` is the origin. -/
def stepSrc (d : Desc) (o : Nat) (row : Nat → Nat) (s r j : Nat) : Src :=
  if layArr d.layout = 2 then .byte (wrapVa (o + 512 * s + 16 * r + j))
  else if d.rows.toNat ≤ r then .const 0
  else if layArr d.layout = 0 then (if 16 * s + j < rowBytes d then .byte (wrapVa (row r + 16 * s + j)) else .const 0)
  else
    let el (k : Nat) : Option (Nat × Bool) :=
      if k < d.cols.toNat then some (wrapVa (o + k * d.stride.toNat + r / 2), decide (r % 2 = 1)) else none
    match bitsOf d.f with
    | 4 => .nibs (el (32 * s + 2 * j)) (el (32 * s + 2 * j + 1))
    | 8 => if 16 * s + j < d.cols.toNat then .byte (wrapVa (o + (16 * s + j) * d.stride.toNat + r)) else .const 0
    | _ => if 8 * s + j / 2 < d.cols.toNat then .byte (wrapVa (o + (8 * s + j / 2) * d.stride.toNat + 2 * r + j % 2)) else .const 0

/-- Source of the scale byte of row `r`, block `b`. -/
def scaleSrc (d : Desc) (o : Nat) (row : Nat → Nat) (b r : Nat) : Src :=
  match layArr d.layout with
  | 2 => .byte (wrapVa (o + 512 * d.steps + 32 * b + r))
  | 0 => if d.rows.toNat ≤ r then .const 0x7F else .byte (wrapVa (row r + scalePlace d + b))
  | _ => if d.rows.toNat ≤ r then .const 0x7F else .byte (wrapVa (o + d.cols.toNat * d.stride.toNat + 32 * b + r))

/-- Source of byte `i` of the image of a W32 tile. -/
def w32Src (d : Desc) (o : Nat) (row : Nat → Nat) (i : Nat) : Src :=
  if layArr d.layout = 2 then .byte (wrapVa (o + i))
  else if d.rows.toNat ≤ i / 128 then .const 0 else .byte (wrapVa (row (i / 128) + i % 128))

/-- Sources of the 32 bytes of the `n`th sector of the canonical image, in the order of `Desc.sectors`. -/
def sectorSrc (d : Desc) (o : Nat) (row : Nat → Nat) (n : Nat) : List Src :=
  (List.range 32).map fun i =>
    if d.f = 15 then w32Src d o row (32 * n + i)
    else if n < 16 * d.steps then stepSrc d o row (n / 16) ((n % 16) * 2 + i / 16) (i % 16)
    else scaleSrc d o row (n - 16 * d.steps) i

/-- Global bytes a source reads. -/
def Src.vas : Src → List Nat
  | .const _ => []
  | .byte a => [a]
  | .nibs a b => (a.map (·.1)).toList ++ (b.map (·.1)).toList

/-- The byte a source gives, from a reading of global bytes. -/
def Src.val (rd : Nat → Byte) : Src → Byte
  | .const b => b
  | .byte a => rd a
  | .nibs a b =>
    let nib : Option (Nat × Bool) → Nat := fun x => match x with
      | none => 0
      | some (va, true) => (rd va).toNat / 16
      | some (va, false) => (rd va).toNat % 16
    BitVec.ofNat 8 (nib a + 16 * nib b)

/-- Row addresses of a tile that is no gather. -/
def plainRow (d : Desc) (o : Nat) (r : Nat) : Nat := o + r * d.stride.toNat

/-- The writes of one row when a canonical image is packed back (R386): `img` reads the image by scratch offset. -/
def packRow (d : Desc) (o : Nat) (img : Nat → Byte) (r : Nat) : List (Nat × Byte) :=
  let row := plainRow d o
  let st (k j : Nat) : Byte := img (d.stepAt k + 16 * r + j)
  if d.f = 15 then (List.range 128).map fun i => (wrapVa (row r + i), img (d.base.toNat + 128 * r + i))
  else
    let els := match layArr d.layout with
      | 0 => (List.range (rowBytes d)).map fun i => (wrapVa (row r + i), st (i / 16) (i % 16))
      | _ => match bitsOf d.f with
        | 4 =>
          if r % 2 = 1 then []
          else (List.range d.cols.toNat).map fun k =>
            let nib (x : Nat) : Nat := (img (d.stepAt (k / 32) + 16 * x + k % 32 / 2)).toNat / 16 ^ (k % 2) % 16
            (wrapVa (o + k * d.stride.toNat + r / 2), BitVec.ofNat 8 (nib r + 16 * nib (r + 1)))
        | 8 => (List.range d.cols.toNat).map fun k => (wrapVa (o + k * d.stride.toNat + r), st (k / 16) (k % 16))
        | _ => (List.range (2 * d.cols.toNat)).map fun i =>
            (wrapVa (o + i / 2 * d.stride.toNat + 2 * r + i % 2), st (i / 16) (i % 16))
    els ++ (if isScaled d.f then (List.range d.blocks).map fun b =>
      (match layArr d.layout with
        | 0 => wrapVa (row r + scalePlace d + b)
        | _ => wrapVa (o + d.cols.toNat * d.stride.toNat + 32 * b + r), img (d.scaleAt b + r)) else [])

/-- The global bytes that a packed image writes, addresses rising; of rows that overlap the higher remains (R386). -/
def packTile (d : Desc) (o : Nat) (img : Nat → Byte) : Map Byte :=
  let put := fun (m : Map Byte) (p : Nat × Byte) => mput m p.1 p.2
  if layArr d.layout = 2 then
    let secs := d.sectors
    ((List.range secs.length).zip secs).foldl (fun m p =>
      (List.range 32).foldl (fun m i => put m (wrapVa (o + 32 * p.1 + i), img (p.2 + i))) m) []
  else (List.range d.rows.toNat).foldl (fun m r => (packRow d o img r).foldl put m) []

/-! ### Rings (R388) -/

/-- The scratch ranges of a ring: header, slots, barrier. -/
def Sub.ranges (u : Sub) : List (Nat × Nat) := [(u.ring, 128), (u.base, u.slotsz * u.nslot), (u.bar, 16)]

/-- A line lies in a ring of the team. -/
def inRing (t : Team) (l : Nat) : Bool := t.subs.any fun u => u.ranges.any fun p => (linesOf p.1 p.2).contains l

/-- A line is viewed by a descriptor of the team with a non-zero FMT. -/
def isViewed (t : Team) (l : Nat) : Bool := t.tiles.toList.any fun d => d.f ≠ 0 && d.lines.contains l

/-! ### Scratch accesses of the sequencer -/

/-- One scratch access of a sequencer operation (R216): its range, whether it writes, and whether it is of the second operand. -/
structure Access where
  off : Nat
  len : Nat
  write : Bool
  ofB : Bool
  deriving DecidableEq, Repr

def Access.lines (a : Access) : List Nat := linesOf a.off a.len

/-- Accesses of one K-step of a loop: the two step lines, then the scale lines of the scaled operands (R216). -/
def stepWidth (da db : Desc) : Nat := 2 + (if isScaled da.f then 1 else 0) + (if isScaled db.f then 1 else 0)

/-- Access `i` of a loop of `n` steps (R216, R220). -/
def loopAccess (da db : Desc) (n i : Nat) : Option Access :=
  let k := i / stepWidth da db
  let scale (d : Desc) (b : Bool) : List Access :=
    if isScaled d.f then [{ off := d.scaleAt (k * ksOf d.f / 32), len := 32, write := false, ofB := b }] else []
  if k < n then
    ([{ off := da.stepAt k, len := 512, write := false, ofB := false }, { off := db.stepAt k, len := 512, write := false, ofB := true }] ++
      scale da false ++ scale db true)[i % stepWidth da db]?
  else none

/-- Row size of a tile transfer (Table 7.22); none for a format it does not take. -/
def transferRow (fmt : Nat) : Option Nat :=
  if fmt = 15 then some 128 else if fmt = 6 ∨ fmt = 7 then some 64 else if fmt = 1 ∨ fmt = 2 then some 32 else none

/-- Number of scratch accesses of an operation. -/
def SeqKind.accesses : SeqKind → Nat
  | .mloop _ da db n .. => n * stepWidth da db
  | .mproj _ _ da db n _ => n * stepWidth da db
  | .mload .. => 16
  | .mstore _ d _ => 32 * (transferRow d.f).getD 0 / 256
  | .draw .. => 1
  | .mzero _ => 0

/-- Scratch access `i` of an operation, in the order in which they take place (R216, R224, R263). -/
def SeqKind.access (k : SeqKind) (i : Nat) : Option Access :=
  let line (off : Nat) (w : Bool) : Option Access := if i < k.accesses then some { off := off, len := 256, write := w, ofB := false } else none
  match k with
  | .mloop _ da db n .. => loopAccess da db n i
  | .mproj _ _ da db n _ => loopAccess da db n i
  | .mload _ d => line (d.base.toNat + 256 * i) false
  | .mstore _ d _ => line (d.base.toNat + 256 * i) true
  | .draw _ _ _ table _ _ => line table false
  | .mzero _ => none

/-- Lines of the accesses that an operation has still to make, from access `i` on. -/
def SeqKind.linesFrom (k : SeqKind) (i : Nat) : List Nat :=
  (List.range (k.accesses - i)).flatMap fun j => ((k.access (i + j)).map Access.lines).getD []

/-- A sequencer operation of a group has still to access one of the lines of its team. -/
def SeqOp.pendsOn (o : SeqOp) (gid tid : Nat) (ls : List Nat) : Bool :=
  decide (o.group = gid) && decide (o.team = tid) && (o.kind.linesFrom o.done).any ls.contains

/-- A sequencer operation of the group has still to access one of the lines: a later access of the group is ordered after it (R123). -/
def seqPending (s : State) (core gid tid : Nat) (ls : List Nat) : Bool := (coreOf s core).seq.any fun o => o.pendsOn gid tid ls

/-- A sequencer operation of the group has scratch accesses left to make: they are the group's own (R123). -/
def seqLeft (s : State) (core gid : Nat) : Bool := (coreOf s core).seq.any fun o => decide (o.group = gid) && decide (o.done < o.kind.accesses)

/-- The operation writes scratch lines. -/
def SeqKind.writes : SeqKind → Bool
  | .mstore .. => true
  | _ => false

/-- A sequencer operation of the group has stash bytes left to write (R123, R236). -/
def stashLeft (s : State) (core gid : Nat) : Bool :=
  (coreOf s core).seq.any fun o => decide (o.group = gid) && o.kind.writes &&
    (mget s.teams o.team).any fun t => (o.kind.linesFrom o.done).any (inWindow t)

/-- A sequencer operation that an operation's group issued before it has still to access one of its lines: the flips of acceptance follow
that access (R123, R153). -/
def seqBefore (s : State) (core : Nat) (o : EngOp) : Bool :=
  o.group.any fun gid => (coreOf s core).seq.any fun q => decide (q.issued ≤ o.id) && q.pendsOn gid o.team o.lines

end Sys2Proof.Machine
end

