-- ==== Sys2Proof/Machine/Lines.lean ====
section
/-! DEFINITION. Engine and skidder operations as they hold lines and barriers: sector counts (R245), acceptance and return flips
(R153, R157, R381, R382), the end of an operation, and the cancelling of TSTORE.A (R161, Table 8.15). -/

namespace Sys2Proof.Machine

/-- The subscription that holds a ring of a team. -/
def subOf (t : Team) (ring : Nat) : Option Sub := t.subs.find? fun u => decide (u.ring = ring)

/-- Bytes of a row of a RAW image (R391). -/
def rawRow (d : Desc) : Nat := rowBytes d

/-- Scratch offsets of the sectors an operation reads or writes. -/
def EngOp.sectors (o : EngOp) : List Nat :=
  if o.raw then (List.range (ceilDiv (o.desc.rows.toNat * rawRow o.desc) 32)).map fun i => o.desc.base.toNat + 32 * i else o.desc.sectors

/-- A fill of a STORE stream reads and writes nothing (R392 step 2). -/
def isStoreFill (t : Team) (o : EngOp) : Bool :=
  decide (o.kind = .fill) && match subOf t o.ring with
    | some u => u.sd.kind == 2
    | none => false

/-- Sector count of an operation (Table 8.13, R392, R393). -/
def opTotal (t : Team) (o : EngOp) : Nat :=
  match o.kind with
  | .kvmove => o.list.length / 2 * (8 * o.slot)
  | .drain => 0
  | .fill => if isStoreFill t o then 1 else o.sectors.length
  | _ => o.sectors.length

/-- Decrements of its barrier that an operation has made: one for each sector landed but the last, which its completion makes. -/
def opMade (total : Nat) (o : EngOp) : Nat := if 0 < o.retries then total - 1 else min o.done (total - 1)

/-- Operations that write lines (Inbound acceptance of Table 16.2). -/
def EngKind.inbound : EngKind → Bool
  | .tcopy => true
  | .gather => true
  | .recv => true
  | .fill => true
  | _ => false

/-- Operations of the copy engine (the others are a skidder's, or a receiver's part of a multicast). -/
def EngKind.ofEngine : EngKind → Bool
  | .fill => false
  | .drain => false
  | .recv => false
  | _ => true

def findOp (s : State) (core id : Nat) : Option EngOp := (coreOf s core).eng.find? fun o => decide (o.id = id)

def putOp (s : State) (core : Nat) (o : EngOp) : State :=
  let c := coreOf s core
  setCore s core { c with eng := c.eng.map fun x => if x.id = o.id then o else x }

/-- An operation is gone, with the reads that it had asked peers for. -/
def dropOp (s : State) (core id : Nat) : State :=
  let c := coreOf s core
  let s := dropFetched (setCore s core { c with eng := c.eng.filter fun x => decide (x.id ≠ id) }) (.engine core id)
  { s with remotes := s.remotes.filter fun r => match r.kind with
      | .read by' _ => decide (by' ≠ .engine core id)
      | _ => true }

def pushOp (s : State) (core : Nat) (o : EngOp) : State :=
  let c := coreOf s core
  setCore s core { c with eng := c.eng ++ [o] }

/-- Operations of a core's copy engine (R243). -/
def engineLoad (s : State) (core : Nat) : Nat := ((coreOf s core).eng.filter (·.kind.ofEngine)).length

/-- An incomplete engine or skidder operation of the team uses one of the lines (R251). -/
def linesInUse (s : State) (core tid : Nat) (ls : List Nat) : Bool :=
  (coreOf s core).eng.any fun o => decide (o.team = tid) && o.lines.any ls.contains

/-- Accumulator tiles that a sequencer operation names. -/
def SeqKind.names : SeqKind → List Nat
  | .mloop a .. => [a]
  | .mzero a => [a]
  | .mload a .. => [a]
  | .mstore a .. => [a]
  | .mproj _ a .. => [a]
  | .draw _ a span .. => (List.range span).map (a + ·)

def SeqKind.isDraw : SeqKind → Bool
  | .draw .. => true
  | _ => false

/-- A group has an incomplete sequencer operation of a kind on its core. -/
def seqHas (s : State) (gid core : Nat) (f : SeqKind → Bool) : Bool :=
  (coreOf s core).seq.any fun o => decide (o.group = gid) && f o.kind

/-- None of an operation's lines is in use by another accepted operation of the team that flipped it (R382). -/
def linesFree (s : State) (core : Nat) (o : EngOp) : Bool :=
  (coreOf s core).eng.all fun x => decide (x.id = o.id) || !x.accepted || decide (x.team ≠ o.team) || !(o.lines.any x.flipped.contains)

/-- The flips of acceptance (R153, R157): the team, and the lines flipped from thread-owned. -/
def acceptLines (t : Team) (now : Nat) (inbound : Bool) (ls : List Nat) : Team × List Nat :=
  let flipped := ls.filter fun l => !(t.line l).engine
  (ls.foldl (fun t l => t.setLine l { t.line l with engine := true, absent := inbound || (t.line l).absent }) (t.touch now ls), flipped)

/-- Copies and fills of a tile with a version check it for a change, until one of its reads has failed (R159, R387): such a copy may repeat. -/
def EngOp.checks (o : EngOp) : Bool := (decide (o.kind = .tcopy) || decide (o.kind = .fill)) && layVer o.desc.layout && !o.published

/-- One of the operations has still to write a line, or may write it again (R381, R159). -/
def stillWritten (others : List EngOp) (l : Nat) : Bool :=
  others.any fun x => x.accepted && x.kind.inbound && x.lines.contains l &&
    ((x.checks && !x.stopped) || (x.sectors.drop x.done).any fun p => decide (p / 256 = l))

/-- The return flips (R153, R246, R381): the lines that the operation wrote become present, unless another operation on a line held by
OWN still writes it, and those flipped at acceptance thread-owned. -/
def returnLines (t : Team) (now : Nat) (others : List EngOp) (o : EngOp) : Team :=
  o.lines.foldl (fun t l => t.setLine l { t.line l with
    absent := (t.line l).absent && (!o.kind.inbound || stillWritten others l), engine := (t.line l).engine && !o.flipped.contains l }) (t.touch now o.lines)

/-- The other operations of a team on its core. -/
def otherOps (s : State) (core : Nat) (o : EngOp) : List EngOp :=
  (coreOf s core).eng.filter fun x => decide (x.team = o.team) && decide (x.id ≠ o.id)

/-- A line that an operation uses, or its barrier's, is filling from the save area (R342). -/
def opSpilled (t : Team) (o : EngOp) : Bool := anySpilled t (o.bar / 256 :: o.lines)

/-- The end of an operation (R245): its return flips, then the decrements it has not made, then it is gone. An abandoned one makes
neither (R311). -/
def endOp (s : State) (core : Nat) (o : EngOp) : State :=
  match mget s.teams o.team with
  | none => dropOp s core o.id
  | some t =>
    if o.abandoned then dropOp s core o.id
    else
      let total := opTotal t o
      let s := if o.accepted then setTeam s o.team (returnLines t s.tick (otherOps s core o) o) else s
      dropOp (landSectors s o.team o.bar (total - opMade total o)) core o.id

/-- Cancel every incomplete TSTORE.A of a group (R161, Table 8.15). -/
def cancelStores (s : State) (gid : Nat) (core : Nat) : State :=
  ((coreOf s core).eng.filter fun o => decide (o.kind = .tstoreA) && decide (o.group = some gid)).foldl
    (fun s o => endOp (setTbarErr s o.team o.bar) core o) s

end Sys2Proof.Machine
end

