-- ==== Sys2Proof/Machine/Queue.lean ====
section
/-! DEFINITION. Queues, segments and slots (R285 to R290, R293): where a task record goes, and how tasks are removed. -/

namespace Sys2Proof.Machine

/-- The segment of an affinity key in a queue (R288). -/
def segmentOf (k : BitVec 16) (qid : Nat) : Nat := (k.toNat + 61 * qid) % 1024

/-- Entries of a segment's share of the overflow ring (R289). -/
def spillCap (q : Queue) : Nat := q.ovfsz / 1024 / 128

def Queue.seg (q : Queue) (i : Nat) : Segment := mgetD q.segs i Segment.empty
def Queue.setSeg (q : Queue) (i : Nat) (x : Segment) : Queue := { q with segs := mputD q.segs i x Segment.empty }
def setQueue (s : State) (qid : Nat) (q : Queue) : State := { s with queues := mput s.queues qid q }

/-- Lowest free slot of a segment. -/
def Segment.free (x : Segment) : Option Nat := (List.range 256).find? fun i => (mget x.slots i).isNone

def recPrio (r : TaskRec) : Nat := r.prio.toNat % 8
def recLocal (r : TaskRec) : Bool := r.prio.getLsbD 3
def recOv (r : TaskRec) : Nat := r.entry.toNat / 65536
def recOff (r : TaskRec) : Nat := r.entry.toNat % 65536

/-- A segment holds no task. -/
def Segment.isEmpty (x : Segment) : Bool := x.slots.isEmpty && x.spill.isEmpty

/-- Empty event of Table 11.2: a DRAINING queue without tasks is DESTROYED; its QID is free for another CREATEQ (R285). -/
def settleQueues (s : State) : State :=
  { s with queues := s.queues.map fun p =>
      if decide (p.2.st = .draining) && p.2.segs.all fun x => x.2.isEmpty then (p.1, { p.2 with st := .destroyed, segs := [] }) else p }

/-- Remove every undispatched task that meets a test, the remaining teams of a partly dispatched slot among them (R306, R310, R374). -/
def removeTasks (s : State) (f : Nat → Queue → Task → Bool) : State :=
  settleQueues { s with queues := s.queues.map fun p => (p.1, { p.2 with segs := p.2.segs.map fun x => (x.1,
    { x.2 with slots := x.2.slots.filter (fun t => !f p.1 p.2 t.2), spill := x.2.spill.filter fun t => !f p.1 p.2 t.2 }) }) }

/-! ### Record checks -/

/-- 80 bytes as a task record (Table 11.4). -/
def recordOf (b : List Byte) : TaskRec :=
  let n (o k : Nat) : Nat := leNat ((b.drop o).take k)
  { entry := BitVec.ofNat 32 (n 0 4), affinity := BitVec.ofNat 16 (n 4 2), fclass := BitVec.ofNat 8 (n 6 1), prio := BitVec.ofNat 8 (n 7 1),
    join := BitVec.ofNat 32 (n 8 4), weight := BitVec.ofNat 16 (n 12 2), depth := BitVec.ofNat 8 (n 14 1), zero := BitVec.ofNat 8 (n 15 1),
    args := Vector.ofFn fun i => u64 (n (16 + 8 * i.val) 8) }

/-- The reserved fields and FCLASS of a record are legal (R290, R296). -/
def recordOk (r : TaskRec) : Bool :=
  decide (r.fclass.toNat % 64 ≤ 32) && decide (r.fclass.toNat / 64 = 0) && decide (r.prio.toNat / 16 = 0) && r.zero == 0

/-- ENTRY names an overlay of a READY or RUNNING kernel of the context, at an even offset below the image size (R296, R306). -/
def entryOk (s : State) (ctx : Nat) (r : TaskRec) : Bool :=
  match overlayOf s ctx (recOv r) with
  | none => false
  | some (_, k, o) => (decide (k.st = .ready) || decide (k.st = .running)) && !k.unload && decide (recOff r % 2 = 0) && decide (recOff r < o.size)

/-- Launch width of a group of a role (R36, R290). -/
def launchWidth (role : Role) (r : TaskRec) : Nat :=
  if role.width ≠ 0 then role.width else if r.fclass.toNat % 64 = 0 then 32 else r.fclass.toNat % 64

end Sys2Proof.Machine
end

