-- ==== Sys2Proof/Machine/JoinObj.lean ====
section
/-! DEFINITION. The join object (R367 to R369, Table 15.5), its accumulator (R373) and its fill rules (Table 15.8). -/

namespace Sys2Proof.Machine

/-- A join object (Table 15.5). -/
structure Join where
  state : Nat
  err : Bool
  epoch : Nat
  n : Nat
  m : Nat
  need : Nat
  mode : Nat
  w : Nat
  wa : Nat
  acc : Nat
  subst : Nat
  result : Nat
  log : Nat
  logcap : Nat
  deriving DecidableEq, Repr

def Join.fill (j : Join) : Nat := j.mode % 4
def Join.int64 (j : Join) : Bool := decide (j.mode / 4 % 2 = 1)
def Join.detach (j : Join) : Bool := decide (j.mode / 8 % 2 = 1)
def Join.armed (j : Join) : Bool := decide (j.state = 1)

def joinOf (b : List Byte) : Join :=
  let n (o k : Nat) : Nat := leNat ((b.drop o).take k)
  { state := n 0 4 % 8, err := decide (n 0 4 / 8 % 2 = 1), epoch := n 2 1, n := n 4 2, m := n 6 2, need := n 8 2, mode := n 10 1 % 16,
    w := n 0x10 4, wa := n 0x14 4, acc := n 0x18 8, subst := n 0x20 8, result := n 0x28 8, log := n 0x30 8, logcap := n 0x38 4 }

def joinBytes (j : Join) : List Byte :=
  leList (j.state + (if j.err then 8 else 0)) 2 ++ leList j.epoch 2 ++ leList j.n 2 ++ leList j.m 2 ++ leList j.need 2 ++ leList j.mode 1 ++
  leList 0 5 ++ leList j.w 4 ++ leList j.wa 4 ++ leList j.acc 8 ++ leList j.subst 8 ++ leList j.result 8 ++ leList j.log 8 ++
  leList j.logcap 4 ++ leList 0 4

/-- The object at a physical address, newest at its home slice (R369). -/
def readJoin (s : State) (t : Trans) : Join := joinOf (newestBytes s (keySerial s t.key) (paRange t.pa 64))

/-- Fields of a join object (Table 15.5), as offsets and sizes: its STATE word and those that an arm, a counted arrival, a release and a
reduction write (R372 to R375). DEDUCED (log entry 126): which fields a JOIN minor reads. -/
def stateField : List (Nat × Nat) := [(0, 4)]
def armFields : List (Nat × Nat) := [(0, 4), (4, 2), (6, 2), (8, 2), (10, 1), (0x14, 4), (0x18, 8), (0x28, 8)]
def countFields : List (Nat × Nat) := [(6, 2), (0x14, 4), (0x18, 8)]
def releaseFields : List (Nat × Nat) := [(0, 4), (0x28, 8)]
def reduceFields : List (Nat × Nat) := [(4, 2), (8, 2)]

/-- Physical bytes of fields of an object. -/
def fieldBytes (t : Trans) (fs : List (Nat × Nat)) : List Nat := fs.flatMap fun f => paRange (t.pa + f.1) f.2

/-- The newest writes of bytes are what a group has read or published last (R132). -/
def seeBytes (s : State) (grp : Option Nat) (pas : List Nat) : State :=
  match grp.bind fun i => (mget s.groups i).map fun g => (i, g) with
  | none => s
  | some (i, g) => setGroup s i { g with seen := seenAdd g.seen (pas.filterMap fun pa => (s.events.find? (writesByte · pa)).map fun e => (pa, e.id)) }

/-- One step's writes of a join object, a publish event at .dev (R369): the fields that the step writes, equal values among them, and
whatever else changes. -/
def writeJoin (s : State) (who : Agent) (grp : Option Nat) (t : Trans) (fs : List (Nat × Nat)) (j : Join) : State :=
  let old := newestBytes s (keySerial s t.key) (paRange t.pa 64)
  let cells := (((paRange t.pa 64).zip (joinBytes j)).zip old).filterMap fun p =>
    if p.1.2 = p.2 ∧ (fieldBytes t fs).contains p.1.1 = false then none else some p.1
  if cells.isEmpty then s else seeBytes (publish s who grp (some .dev) .dev (keySerial s t.key) cells) grp (cells.map (·.1))

/-- Address of the join of an index in a context's window (R367). -/
def joinVa (c : Context) (index : Nat) : DWord := u64 (c.joinwin + 64 * index)

/-- The translation of a context's join as the device finds it; none where it fails or is no memory of the module. -/
def joinTrans (s : State) (ctx : Nat) (who : Agent) (index : Nat) : Option Trans :=
  match mget s.contexts ctx with
  | none => none
  | some c => match translate s ctx who 0 (joinVa c index) .rmw with
    | .error _ => none
    | .ok t => if t.kind = .remote then none else some t

/-- Index and epoch of a join handle (R367). -/
def joinIndex (h : Word) : Nat := h.toNat % 2 ^ 24
def joinEpoch (h : Word) : Nat := h.toNat / 2 ^ 24

/-! ### Values -/

/-- Exact sum of two values (R373). -/
def sumX (a b : FVal) : FVal :=
  match a, b with
  | .fin n1 m1 e1, .fin n2 m2 e2 =>
    let e := min e1 e2
    let t := sgn n1 (m1 * 2 ^ (e1 - e).toNat) + sgn n2 (m2 * 2 ^ (e2 - e).toNat)
    if t = 0 then .fin (n1 && n2) 0 e else .fin (decide (t < 0)) t.natAbs e
  | .inf n1, .inf n2 => if n1 = n2 then .inf n1 else .nan true
  | .inf n, .fin .. => .inf n
  | .fin .., .inf n => .inf n
  | a, b => .nan (a.isSig || b.isSig)

/-- ACC after an FP32 contribution: one window sum, rounded RNE, no flag (R373). -/
def accF (acc : Nat) (x : FVal) : Nat := (windowSum false [unpackF f32 (acc % 2 ^ 32), x]).1

def intX (i : Int) : FVal := .fin (decide (i < 0)) i.natAbs 0

/-- a * w / wa rounded once to FP32, wa > 0: 128 extra bits and a sticky bit carry the exact quotient. -/
def divF (a : FVal) (w wa : Nat) : Nat :=
  match mulX a (intX w) with
  | .fin n m e =>
    let num := m * 2 ^ 128
    (convTo f32 0 false (.fin n (num / wa * 2 + (if num % wa = 0 then 0 else 1)) (e - 129))).1
  | v => (convTo f32 0 false v).1

/-- a / b to the nearest integer, ties to even, b > 0. -/
def divRne (a : Int) (b : Nat) : Int :=
  let q := a / b
  let r := a % b
  if 2 * r < b then q else if 2 * r = b then (if q % 2 = 0 then q else q + 1) else q + 1

def s64 (x : Nat) : Int := sextN x 64

/-- RESULT of a release, and whether ERR is set (Table 15.8). -/
def fillResult (j : Join) : Nat × Bool :=
  match j.fill with
  | 1 =>
    if j.wa = 0 then (if j.int64 then 0 else nanCode f32, true)
    else if j.int64 then (wrapN (divRne (s64 j.acc * j.w) j.wa) 64, false)
    else (divF (unpackF f32 (j.acc % 2 ^ 32)) j.w j.wa, false)
  | 2 =>
    let k : Int := (j.w : Int) - j.wa
    if j.int64 then (wrapN (s64 j.acc + k * s64 j.subst) 64, false)
    else ((addV 0 false (unpackF f32 (j.acc % 2 ^ 32)) (mulX (intX k) (unpackF f32 (j.subst % 2 ^ 32)))).1, false)
  | _ => (j.acc, false)

end Sys2Proof.Machine
end

