-- ==== Sys2Proof/Machine/End.lean ====
section
/-! DEFINITION. The end of groups and teams: waiting groups (R455), team barriers re-checked (R361), kills (R161, R377), the release,
cancel and reduction of a join (R374, R375, R312), exit (R182) and the fate of team state (R310, R311). -/

namespace Sys2Proof.Machine

/-! ### Waiting groups -/

def inWave (s : State) (gid core : Nat) : Bool := (clusterOf s (clusOf core)).waveQ.contains gid

/-- The join of an index of a context is ARMED at its home slice. -/
def joinArmedAt (s : State) (ctx core index : Nat) : Bool :=
  match joinTrans s ctx (agentOf core) index with
  | none => true
  | some t => (readJoin s t).armed

/-- A unit still holds a group that waits for it (Table 14.12). -/
def unitHolds (s : State) (gid core : Nat) : UnitWait → Bool
  | .gstat => seqHas s gid core fun _ => true
  | .tile a => seqHas s gid core fun k => k.names.contains a
  | .tiles => seqHas s gid core fun _ => true
  | .sequencer => decide (8 ≤ (coreOf s core).seq.length)
  | .engine => decide (32 ≤ engineLoad s core)
  | .stream k => decide (64 ≤ mgetD s.skidders k 0)
  | .draws => seqHas s gid core SeqKind.isDraw

/-- Every live thread of the group stands at one PC (R56). -/
def Group.together (g : Group) (t : Thread) : Bool := g.threads.toList.all fun u => !u.live || (u.pc == t.pc && u.ov == t.ov)

/-- A peer has still to answer an LDV.M or ATOM of the group. -/
def peerHolds (s : State) (g : Group) (tag : Nat) : Bool :=
  (g.loads.any fun l => decide (l.held = some tag) && l.val.isNone && !l.bad) ||
  g.atoms.any fun a => decide (a.tag = tag) && a.steps.any fun st =>
    (st.sent && st.old.isNone && st.bad.isNone) || s.remotes.any fun r => st.before.contains r.id

/-- A thread's wait still holds it (Table 14.12). A Publish that stopped at a MIGRATING page is tried again by the thread's next
issue, and holds it until that finds the page. -/
def waitHolds (s : State) (gid : Nat) (g : Group) (t : Thread) : Bool :=
  let team (f : Nat → Team → Bool) : Bool := match g.team with
    | none => false
    | some tid => (mget s.teams tid).any (f tid)
  match t.wait with
  | none => false
  | some (.bar b ph _) => inWave s gid g.core || team fun _ tm => tm.bars[b.toNat].phase == ph
  | some (.tbar off ph) => inWave s gid g.core || team fun _ tm => (tm.tbar off).phase == ph
  | some (.join i) => inWave s gid g.core || joinArmedAt s g.ctx g.core i
  | some (.monitor m) => m.code.isNone
  | some (.presence ls) => team fun _ tm => ls.any fun l => (tm.line l).absent
  | some (.overlay ..) => true
  | some .convergence => !g.together t
  | some (.owner ls) => team fun _ tm => ls.any fun l => (tm.line l).absent || (tm.line l).engine
  | some (.inUse ls) => team fun tid _ => linesInUse s g.core tid ls
  | some (.unit u) => unitHolds s gid g.core u
  | some (.page _) => true
  | some (.peer tag) => peerHolds s g tag

/-- An access of GSTAT or an MWAIT under way: no later instruction of the group issues before it completes (R189, R226). -/
def Wait.ofGroup : Wait → Bool
  | .unit .gstat => true
  | .unit (.tile _) => true
  | .unit .tiles => true
  | _ => false

/-- An instruction in its middle: it waits within a Publish, for a peer, or for the units before an access of GSTAT or an MWAIT. No later
instruction of the group issues before it goes on, for the group's accesses take their steps in issue order (R135, R228, R403, R189, R226). -/
def Wait.midway : Wait → Bool
  | .page _ => true
  | .peer _ => true
  | w => w.ofGroup

/-- A thread that a notice took from such an instruction has not come back to it: until its NRET, only threads inside the notice or the handler
issue (R357, R189). DESIGN CHOICE (log entry 120). -/
def Group.midwayLeft (g : Group) : Bool := g.threads.toList.any fun t => t.live && t.inNotice && t.npcWait.any Wait.midway

def Group.midway (g : Group) : Bool := g.threads.toList.any fun t => t.live && t.wait.any Wait.midway

/-- The group waits within a Publish that stopped at a MIGRATING page (R403). -/
def Group.pageHeld (g : Group) : Bool := g.threads.toList.any fun t => t.live && match t.wait with
  | some (.page _) => true
  | _ => false

/-- The group's instruction waits for a peer: no reason of Table 14.12, the group is RUNNING. -/
def Group.peerHeld (g : Group) : Bool := g.threads.toList.any fun t => t.live && match t.wait with
  | some (.peer _) => true
  | _ => false

/-- A thread stands in such a wait. -/
def Group.unitHeld (s : State) (gid : Nat) (g : Group) : Bool :=
  g.threads.toList.any fun t => t.live && t.wait.any Wait.ofGroup && waitHolds s gid g t

/-- WAITING (R455): every live thread is held by a wait, a wait of the whole group holds it, or a Publish stands at a MIGRATING page. -/
def Group.isWaiting (s : State) (gid : Nat) (g : Group) : Bool :=
  match g.publishing with
  | some p => p.stopped
  | none => g.liveMask ≠ 0 && !g.peerHeld && (g.unitHeld s gid || g.pageHeld || g.threads.toList.all fun t => !t.live || waitHolds s gid g t)

/-- A kill acts on the group at once, even inside a KILLOFF region (R377): it is PLACED, a group whose restored team still reloads its
overlays among them (Table 14.2), PARKED, or WAITING. -/
def killsAtOnce (s : State) (gid : Nat) (g : Group) : Bool :=
  match g.st with
  | .placed => true
  | .parked _ => true
  | _ => g.isWaiting s gid || !teamLoaded s g


/-! ### Team barriers -/

def teamGroups (s : State) (tid : Nat) : List (Nat × Group) := s.groups.filter fun p => decide (p.2.team = some tid)

/-- The target of a team barrier (R361). -/
def barTarget (s : State) (tid : Nat) (t : Team) (b : Fin 16) : Nat :=
  let x := t.bars[b]
  if 1 ≤ x.n then x.n
  else
    let gs := teamGroups s tid
    (gs.filter fun p => !p.2.st.ended).length +
    (gs.filter fun p => p.2.st.ended && decide (x.last[p.2.gid % 32]! = some x.phase)).length

/-- Open (Table 15.2): the groups that wait for the phase join the release queue (R379). -/
def openBar (s : State) (tid : Nat) (b : Fin 16) : State :=
  match mget s.teams tid with
  | none => s
  | some t =>
    let x := t.bars[b]
    let woken := (teamGroups s tid).filter fun p => p.2.threads.toList.any fun th => match th.wait with
      | some (.bar b' ph _) => th.live && decide (b'.toNat = b.val) && ph == x.phase
      | _ => false
    queueWave (setTeam s tid { t with bars := t.bars.set b { x with n := 0, m := 0, phase := x.phase + 1 } }) (clusOf t.core) (byAge woken)

/-- The check after an arrival, or after the end of a group (R361, R362). -/
def checkBar (s : State) (tid : Nat) (b : Fin 16) : State :=
  match mget s.teams tid with
  | none => s
  | some t => if 0 < t.bars[b].m ∧ t.bars[b].m = barTarget s tid t b then openBar s tid b else s

def recheckBars (s : State) (tid : Nat) : State := (List.finRange 16).foldl (fun s b => checkBar s tid b) s

/-! ### The end of a team -/

/-- The slot states of a ring (Table 16.8). -/
def slotState (w : Word) : Nat := w.toNat % 8

/-- At team end FILLING and FULL slots are dropped; DONE slots, and those that a drain of the ring is emptying, still drain (R311, R253). -/
def dropWord (draining : Bool) (w : Word) : Word := if slotState w = 3 ∨ (slotState w = 4 ∧ draining = true) then w else 0

/-- Free the stream contexts of ended subscriptions whose slots are all EMPTY (R253). -/
def settleSubs (s : State) (tid : Nat) : State :=
  match mget s.teams tid with
  | none => s
  | some t =>
    let free (u : Sub) : Bool := u.ended && u.words.all fun w => decide (slotState w = 0)
    let s := (t.subs.filter free).foldl (fun s u => { s with skidders := mputD s.skidders u.skid (mgetD s.skidders u.skid 0 - 1) 0 }) s
    setTeam s tid { t with subs := t.subs.filter fun u => !free u }

/-- Detail of a fault record of the delivery unit (Table 17.6). -/
def deliveryRecord (core slot : Nat) (cause access : Nat) (va by' : DWord) (token : Word) : FaultRec :=
  { source := 4, cause := cause, access := access, vaddr := va, group := by', hcause := 0, hpc := 0,
    detail := u64 (core + slot * 2 ^ 16 + token.toNat * 2 ^ 32) }

/-- A commit register at the normal end of its team (R266): the register, and the record posted for a token without a table, whose GROUP is
0, for no group has delivered (log entry 110). -/
def endCommit (t : Team) (i : Nat) : Commit → Commit × Option FaultRec
  | .held tok => if t.dtable = 0 then (.empty, some (deliveryRecord t.core i 4 0 0 t.dtableBy tok))
      else (.pending tok t.dtable t.dtableBy none none, none)
  | c => (c, none)

/-- What the end of a team does at once (Table 12.4). Its pins and its stash windows stay until it retires (R318, R129). -/
def endTeam (s : State) (tid : Nat) : State :=
  match mget s.teams tid with
  | none => s
  | some t =>
    let gs := teamGroups s tid
    if t.ended || !(gs.all fun p => p.2.st.ended) then s
    else
      let killed := gs.any fun p => decide (p.2.st = .killed)
      let c := coreOf s t.core
      let s := setCore s t.core { c with eng := c.eng.map fun o =>
        if o.team = tid ∧ o.kind.inbound = true then { o with abandoned := true } else o }
      let s := t.unacked.foldl (fun s p => { setTbarErr s p.1 p.2 with acks := s.acks ++ [{ team := p.1, off := p.2 }] }) s
      let crs := (List.finRange 32).map fun i => endCommit t i.val t.cr[i]
      let s := if killed then s else (crs.filterMap (·.2)).foldl (fun s r => postRecord s t.ctx r) s
      let t := { t with
        ended := true, killed := killed, unacked := []
        cr := Vector.ofFn fun i => if killed then .empty else (endCommit t i.val t.cr[i]).1
        subs := t.subs.map fun u => { u with
          ended := true
          words := ((List.range u.words.length).zip u.words).map fun p => dropWord (c.eng.any fun o =>
            decide (o.kind = .drain) && decide (o.team = tid) && decide (o.ring = u.ring) && decide (o.slot = p.1)) p.2 } }
      settleSubs (setTeam s tid t) tid

/-! ### Kill -/

/-- A group as a kill leaves it: KILLED, with nothing pending and no live thread (R161). -/
def Group.die (g : Group) : Group :=
  { g with
    st := .killed, pend := [], publishing := none, heldPublish := none, reclaiming := none, foldPlan := none, notices := []
    killDue := none, loads := [], bases := [], atoms := [], badRegs := [], wantFill := []
    threads := Vector.ofFn fun i => { g.threads[i] with live := false, wait := none } }

/-- Kill(g) (R161), the joins of the group apart: pending stores and dirty stash bytes are discarded, its TSTORE.A cancelled; it
leaves the release queue, and its team's barriers are re-checked. A control group is gone (R19). -/
def killCore (s : State) (gid : Nat) : State :=
  match mget s.groups gid with
  | none => s
  | some g =>
    if g.st.ended then s
    else
      let cl := clusterOf s (clusOf g.core)
      let s := setCluster (setGroup s gid g.die) (clusOf g.core) { cl with waveQ := cl.waveQ.filter fun x => decide (x ≠ gid) }
      match g.team with
      | none => { s with groups := mdel s.groups gid }
      | some tid =>
        let s := match mget s.teams tid with
          | none => s
          | some t => setTeam s tid (t.dropDirty gid)
        endTeam (recheckBars (cancelStores s gid g.core) tid) tid

/-! ### Joins -/

/-- A group is a straggler of a join at an epoch (R371). -/
def straggles (g : Group) (ctx index epoch : Nat) : Bool :=
  decide (g.ctx = ctx) && decide (joinIndex g.join = index) && decide (joinEpoch g.join = epoch) && index ≠ 0 && !g.joinArrived && !g.st.ended

/-- Between moves a group stands at an instruction boundary, but for a Publish, a RECLAIM or an access of a peer under way. -/
def Group.betweenInstrs (g : Group) : Bool := g.publishing.all (·.stopped) && g.reclaiming.isNone && !g.peerHeld

/-- A kill takes effect on the group now (R377), or at the boundary at which a switch has stopped its issue (R282). -/
def Group.killsNow (s : State) (gid : Nat) (g : Group) : Bool := killsAtOnce s gid g || (switching s g.ctx && g.betweenInstrs)

/-- The group with a kill pending since this lane cycle (R377). -/
def Group.killPending (s : State) (g : Group) : Group :=
  { g with killDue := g.killDue.or (some (clusterOf s (clusOf g.core)).cycle) }

/-- A kill that waits for a boundary (R377); where a switch has stopped issue, what the group has not published is discarded at once (R282). -/
def killLater (s : State) (gid : Nat) (g : Group) : State :=
  if switching s g.ctx then
    let s := setGroup s gid { g.killPending s with pend := [] }
    match g.team.bind fun t => (mget s.teams t).map fun x => (t, x) with
    | none => s
    | some (tid, t) => setTeam s tid (t.dropDirty gid)
  else setGroup s gid (g.killPending s)

/-- A kill falls due to a group whose own join needs no reduction (R374 step 3, R377). -/
def killDueCore (s : State) (gid : Nat) : State :=
  match mget s.groups gid with
  | none => s
  | some g => if g.killsNow s gid then killCore s gid else killLater s gid g

/-- DETACH of a saved group: what it has not published is discarded, and it runs on detached after its restore (R374 step 3, R282). -/
def detachSaved (s : State) (ctx : Nat) (f : Group → Bool) : State :=
  match mget s.contexts ctx with
  | none => s
  | some c =>
    setContext s ctx { c with saved := c.saved.map fun x =>
      { x with
        team := (x.groups.filter fun p => f p.2).foldl (fun t p => t.dropDirty p.1) x.team
        groups := x.groups.map fun p => if f p.2 then (p.1, { p.2 with pend := [], detached := true }) else p } }

/-- A saved group is killed where it is saved: its pending stores and dirty bytes are discarded at once, with a Publish that had stopped
(R282). -/
def killSaved (s : State) (ctx : Nat) (f : Group → Bool) : State :=
  match mget s.contexts ctx with
  | none => s
  | some c =>
    setContext s ctx { c with saved := c.saved.map fun x =>
      let dead := x.groups.filter fun p => f p.2 && !p.2.st.ended
      { x with
        team := dead.foldl (fun t p => t.dropDirty p.1) x.team
        groups := x.groups.map fun p => if dead.any (·.1 == p.1) then (p.1, p.2.die) else p } }

/-- DETACH (R374 step 3). -/
def detachGroup (s : State) (gid : Nat) (g : Group) : State :=
  let s := cancelStores (setGroup s gid { g with pend := [], detached := true }) gid g.core
  match g.team.bind fun t => (mget s.teams t).map fun x => (t, x) with
  | none => s
  | some (tid, t) => setTeam s tid (t.dropDirty gid)

/-- Steps 2 to 4 of R374: undispatched tasks, stragglers, waiters. -/
def settleJoin (s : State) (ctx index epoch : Nat) (detach : Bool) : State :=
  let s := removeTasks s fun _ q t => decide (q.ctx = ctx) && decide (joinIndex t.record.join = index) && decide (joinEpoch t.record.join = epoch)
  let late := s.groups.filter fun p => straggles p.2 ctx index epoch
  let s := if detach then detachSaved (late.foldl (fun s p => detachGroup s p.1 p.2) s) ctx fun g => straggles g ctx index epoch
    else killSaved (late.foldl (fun s p => killDueCore s p.1) s) ctx fun g => straggles g ctx index epoch
  let waiting := s.groups.filter fun p => decide (p.2.ctx = ctx) && p.2.threads.toList.any fun th => match th.wait with
    | some (.join i) => th.live && decide (i = index)
    | _ => false
  (byAge waiting).foldl (fun s gid => match mget s.groups gid with
    | none => s
    | some g => queueWave s (clusOf g.core) [gid]) s

/-- The release of a join (R374), the object's other fields as `j` has them. -/
def releaseJoin (s : State) (who : Agent) (grp : Option Nat) (ctx index : Nat) (t : Trans) (j : Join) : State :=
  let r := fillResult j
  settleJoin (writeJoin s who grp t releaseFields { j with state := 2, result := r.1, err := j.err || r.2 }) ctx index j.epoch j.detach

/-- The end of a participant that has not arrived (R312, R375): a counted barrier loses it. -/
def reduceJoin (s : State) (g : Group) : State :=
  let index := joinIndex g.join
  if index = 0 ∨ g.joinArrived ∨ g.isControl then s
  else match joinTrans s g.ctx (agentOf g.core) index with
    | none => s
    | some t =>
      let j := readJoin s t
      if j.armed ∧ j.epoch = joinEpoch g.join ∧ j.fill = 0 ∧ j.need = j.n ∧ 0 < j.n then
        let j := { j with n := j.n - 1, need := j.need - 1 }
        let s := writeJoin s (agentOf g.core) none t reduceFields j
        if j.need = j.m then releaseJoin s (agentOf g.core) none g.ctx index t j else s
      else s

/-- Kill(g) whole. -/
def killGroup (s : State) (gid : Nat) : State :=
  match mget s.groups gid with
  | none => s
  | some g => if g.st.ended then s else reduceJoin (killCore s gid) g

/-- A kill falls due (R377): at once where the group does not issue, else at its next kill point. -/
def killFalls (s : State) (gid : Nat) : State :=
  match mget s.groups gid with
  | none => s
  | some g =>
    if g.st.ended then s
    else if g.killsNow s gid then killGroup s gid
    else killLater s gid g

/-! ### Exit -/

/-- The group enters EXITED once the Publish of its last EXIT is complete (R136, R182); no fold is planned for it any more (Table 14.1). -/
def exitGroup (s : State) (gid : Nat) : State :=
  match mget s.groups gid with
  | none => s
  | some g =>
    let s := setGroup s gid { g with st := .exited, publishing := none, heldPublish := none, foldPlan := none, reclaiming := none, killDue := none,
                                      notices := [] }
    match g.team with
    | none => { s with groups := mdel s.groups gid }
    | some tid => endTeam (reduceJoin (recheckBars s tid) g) tid

/-! ### Completion of a Publish -/

/-- PUBLISH_COMPLETE (R138, R236, R403): a Publish that stopped at a MIGRATING page tries again, unless a switch has stopped its
group's context (R279); one whose remote entries are not all acknowledged goes on; else it ends, with the refresh of PHASE or the
exit of the group. -/
def publishComplete (s : State) (gid : Nat) : State :=
  match mget s.groups gid with
  | none => s
  | some g => match g.publishing with
    | none => s
    | some p =>
      if p.stopped && switching s g.ctx then s
      else if p.stopped then
        let r := publishGroup s gid p.scope
        match mget r.1.groups gid with
        | none => r.1
        | some g => setGroup r.1 gid { g with publishing := some { p with remote := p.remote ++ r.2.1, stopped := r.2.2 } }
      else if !p.remote.isEmpty then s
      else if p.last then exitGroup s gid
      else
        let s := setGroup s gid { g with publishing := none }
        match p.refresh with
        | none => s
        | some sc => refreshGroup s gid sc

def execPublishComplete (g : Nat) (s : State) : Out := .next (publishComplete s g)

/-! ### Kill points -/

/-- A kill has been pending for 65,536 lc of the group's cluster (R377). -/
def Group.killLate (s : State) (g : Group) : Bool :=
  g.killDue.any fun since => decide (since + 65536 ≤ (clusterOf s (clusOf g.core)).cycle)

/-- A pending kill takes effect at the next instruction boundary (R377): KOFF is 0, or it has waited long enough. -/
def Group.killPoint (s : State) (g : Group) : Bool := g.killDue.isSome && (!g.koff || g.killLate s)

/-- GROUP_KILL: a pending kill takes effect at a kill point, or where the group has come to wait (R377). -/
def groupKill (s : State) (gid : Nat) : State :=
  match mget s.groups gid with
  | none => s
  | some g => if g.killDue.isSome && g.betweenInstrs && (!g.koff || g.isWaiting s gid) then killGroup s gid else s

def execGroupKill (g : Nat) (s : State) : Out := .next (groupKill s g)

/-- KILL_DEADLINE: a kill pending for 65,536 lc takes effect at a boundary whatever KOFF holds (R377). -/
def killDeadline (s : State) (gid : Nat) : State :=
  match mget s.groups gid with
  | none => s
  | some g => if g.killLate s && g.betweenInstrs then killGroup s gid else s

def execKillDeadline (g : Nat) (s : State) : Out := .next (killDeadline s g)

/-! ### Retirement -/

/-- A core still works for a team: sequencer operations, engine and skidder operations (Table 12.4). -/
def teamBusy (s : State) (tid : Nat) (t : Team) : Bool :=
  (coreOf s t.core).seq.any (fun o => decide (o.team = tid)) || (coreOf s t.core).eng.any (fun o => decide (o.team = tid))

/-- The context has a team resident. -/
def hasTeam (s : State) (ctx : Nat) : Bool := s.teams.any fun p => decide (p.2.ctx = ctx)

/-- The kernel has a team resident or saved (R303). -/
def kernelHasTeam (s : State) (kid : Nat) : Bool :=
  (s.teams.any fun p => decide (p.2.kernel = kid)) || s.contexts.any fun c => c.2.saved.any fun x => decide (x.team.kernel = kid)

/-- Last retirement (Tables 10.2 and 12.2). -/
def settleKernel (s : State) (kid : Nat) : State :=
  match mget s.kernels kid with
  | none => s
  | some k =>
    if k.st = .running ∧ !kernelHasTeam s kid then
      { s with kernels := mput s.kernels kid { k with st := if k.unload then .drained else .ready } }
    else s

def settleContext (s : State) (ctx : Nat) : State :=
  match mget s.contexts ctx with
  | none => s
  | some c => if c.st = .running ∧ !hasTeam s ctx then setContext s ctx { c with st := .opened } else s

/-- What is left dirty in a team's stash windows at its retirement, written by operations that outlived their group: bytes of killed
groups are discarded, those of exited groups publish as at their last EXIT (R129, Table 12.4). -/
def lastDirty (s : State) (tid : Nat) : State :=
  (teamGroups s tid).foldl (fun s p => match mget s.teams tid with
    | none => s
    | some t => if p.2.st = .killed then setTeam s tid (t.dropDirty p.1) else (publishDirty s p.1 p.2 tid t .sys (dirtyOf t p.1)).s) s

/-- TEAM_RETIRE (R310, R311, R282): once the team has ended and nothing of Table 12.4 holds it, its resources are freed; the team of
a context whose switch has stopped issue keeps them until its restore. -/
def teamRetire (s : State) (tid : Nat) : State :=
  match mget s.teams tid with
  | none => s
  | some t =>
    if t.ended && !teamBusy s tid t && t.subs.isEmpty && t.cr.toList.all (· == .empty) && !switching s t.ctx then
      let s := lastDirty s tid
      if (mget s.teams tid).any fun t => !t.stashDirty.isEmpty then s
      else
        let s := { s with teams := mdel s.teams tid, groups := s.groups.filter fun p => decide (p.2.team ≠ some tid) }
        settleContext (settleKernel s t.kernel) t.ctx
    else s

def execTeamRetire (team : Nat) (s : State) : Out := .next (teamRetire s team)

end Sys2Proof.Machine
end

