-- ==== Sys2Proof/Machine/Memory.lean ====
section
/-! DEFINITION. Loads, stores, atomics and multi-register transfers (08_ref_memory_engines.md R227 to R235, R241, R242). -/

namespace Sys2Proof.Machine

/-! ### Addresses and checks -/

/-- log2 of the access size of an M-form code (R77). -/
def szLog (sz : BitVec 3) : Nat := match sz.toNat with
  | 0 => 0
  | 1 => 0
  | 2 => 1
  | 3 => 1
  | 4 => 2
  | 5 => 3
  | _ => 4

def szBytes (sz : BitVec 3) : Nat := 2 ^ szLog sz

/-- w[base] + (zext(x) ≪ sh) modulo 2^64 (R77, R231). -/
def addrOf (g : Group) (base : BitVec 5) (x : Word) (sh : Nat) : DWord := g.rdW base.toNat + (x.zeroExtend 64 <<< sh)

/-- The registers that a vector access of `n` words names: d, d + 1, ... (R77). -/
def destRegs (d : BitVec 7) (n : Nat) : List (BitVec 7) := (List.range n).map fun i => d + BitVec.ofNat 7 i

/-- Words of a loaded value, sign- or zero-extended (R229). -/
def loadWords (sz : BitVec 3) (v : Nat) : List Word :=
  match sz.toNat with
  | 0 => [BitVec.ofInt 32 (sextN v 8)]
  | 1 => [u32 (v % 256)]
  | 2 => [BitVec.ofInt 32 (sextN v 16)]
  | 3 => [u32 (v % 65536)]
  | 4 => [u32 v]
  | 5 => [u32 v, u32 (v / 2 ^ 32)]
  | _ => [u32 v, u32 (v / 2 ^ 32), u32 (v / 2 ^ 64), u32 (v / 2 ^ 96)]

/-- The value a uniform load writes (R77): extended to 64 bits as the size code states. -/
def loadUni (sz : BitVec 3) (v : Nat) : DWord :=
  match sz.toNat with
  | 0 => BitVec.ofInt 64 (sextN v 8)
  | 1 => u64 (v % 256)
  | 2 => BitVec.ofInt 64 (sextN v 16)
  | 3 => u64 (v % 65536)
  | 4 => u64 (v % 2 ^ 32)
  | _ => u64 v

/-- Number of vector registers of an access. -/
def szRegs (sz : BitVec 3) : Nat := match sz.toNat with
  | 5 => 2
  | 6 => 4
  | _ => 1

def misaligned (a : DWord) (n : Nat) : Option TrapInfo :=
  if a.toNat % n = 0 then none else some { cause := 2, haddr := a, access := 0 }

/-- A store of one or two bytes to a trimmed page is refused (R410), before a page that is MIGRATING is met (R227). -/
def smallStore (s : State) (g : Group) (lane : Nat) (a : DWord) (n : Nat) (nd : Need) : Option TrapInfo :=
  if nd.w && decide (n < 4) && trimmedAt s g.ctx (agentOf g.core) lane a then some { cause := 4, haddr := a, access := nd.code false } else none

/-- Checks 1, 3 and 4 of Table 8.1 for a global access. -/
def globalTrap (s : State) (g : Group) (lane : Nat) (a : DWord) (n : Nat) (nd : Need) : Option TrapInfo :=
  (misaligned a n).or ((smallStore s g lane a n nd).or (match translate s g.ctx (agentOf g.core) lane a nd with
    | .error f => some { cause := f.cause, haddr := a, access := f.access }
    | .ok _ => none))

/-- Checks 1 and 2 of Table 8.1 for a scratch access, then those of the stash. -/
def scratchTrap (s : State) (g : Group) (t : Team) (lane : Nat) (a : DWord) (n : Nat) (store : Bool) : Option TrapInfo :=
  (misaligned a n).or (if t.inRange a.toNat n then stashTrap s g t lane a.toNat store else some { cause := 9, haddr := a, access := 0 })

/-- The translation that the checks of an access found. -/
def transOf (s : State) (g : Group) (lane : Nat) (a : DWord) (nd : Need) : Trans :=
  match translate s g.ctx (agentOf g.core) lane a nd with
  | .ok t => t
  | .error _ => { pa := 0, key := 0, kind := .hbm, peer := none }

/-- The failed stash fills of the group are forgotten with the trap that reports one of them (R407): the access repeats its fill. -/
def dropFillErr (s : State) (g : Group) (cause : Nat) : State :=
  match g.team.bind fun tid => (mget s.teams tid).map fun t => (tid, t) with
  | none => s
  | some (tid, t) => if cause = 10 then setTeam s tid { t with stashErrs := t.stashErrs.filter fun p => decide (p.2 ≠ s.cur.group) } else s

/-- The trap of a uniform scratch access. -/
def scratchStop (s : State) (g : Group) (tr : TrapInfo) : Stop := .trap (dropFillErr s g tr.cause) tr s.cur.mask

/-- A vector memory instruction is ready in its lanes: operands, and the traps of each lane in the order of R82 and R227. -/
def memReady (s : State) (g : Group) (base : BitVec 5) (reads : List (BitVec 7 × Bool)) (dests : List (BitVec 7))
    (chk : Fin 32 → Option TrapInfo) : R Unit := do
  let rs := reads.map (·.1)
  scoreboard s g [] [base.toNat]
  readyU s g [base.toNat]
  operandsReady s g rs dests
  raiseBy (fun c => dropFillErr (freeBadBy s g (cohort s) (rs.filterMap g.vname) c) g c) ((cohort s).map fun i => (i, (badRead g i (rs.filterMap g.vname)).or
    ((overBudget s g g.threads[i] (g.freesOf reads) (dests.filterMap g.vname)).or (chk i))))

/-! ### LD -/

/-- A read of bytes that the group's own entries do not hold meets an uncorrectable error in the module's memory (R143, R407). -/
def metError (s : State) (g : Group) (t : Trans) (n : Nat) : Bool :=
  decide (t.kind ≠ .remote) && ((List.range n).zip (physBytes t n)).any fun p => (pendByte g t p.1).isNone && p.2.any (badByte s)

/-- Start a load of one lane, or of the group: the value by R143 at issue, or a request to the peer (R228, R420). `held` is the tag of
an LDV.M, whose word it is. -/
def startLoadOp (s : State) (gid : Nat) (lane : Option Nat) (names : List Nat) (sz : BitVec 3) (a : DWord) (held : Option Nat) : State :=
  match mget s.groups gid with
  | none => s
  | some g =>
    let n := szBytes sz
    let t := transOf s g (lane.getD 0) a .read
    let half := if n = 16 then 8 else n
    let own := (List.range n).all fun i => (pendByte g t i).isSome
    if t.kind = .remote ∧ !own then
      let far0 := (List.range n).filterMap fun i => (pendByte g t i).map fun b => (i, b)
      let ld : Load := { id := s.fresh, lane := lane, names := names, sz := sz, val := none, bad := false, addr := a, held := held }
      sendRemote { setGroup s gid { g with loads := g.loads ++ [ld] } with fresh := s.fresh + 1 } g.ctx (.load gid s.fresh) a t far0
    else
      let r := readGroup s gid g true (lane.getD 0) t half
      let r2 := if n = 16 then readGroup s gid { g with seen := r.2 } true (lane.getD 0) { t with pa := t.pa + 8 } 8 else ([], r.2)
      let bad := metError s g t n
      let ld : Load := { id := s.fresh, lane := lane, names := names, sz := sz, val := some (BitVec.ofNat 128 (leNat (r.1 ++ r2.1))),
                         bad := bad, addr := a, held := held }
      { setGroup s gid { g with loads := g.loads ++ [ld], seen := r2.2 } with fresh := s.fresh + 1 }

/-- LD (R229): the destination rows are taken at issue (R44), the values arrive with LOAD_RETURN. -/
def ldStep (s : State) (o : MemOps) : R State := do
  let g ← issuer s
  let gid := s.cur.group
  if isUni o.d then
    useW s g [o.base.toNat, uniIdx o.x] [uniIdx o.d]
    let a := addrOf g o.base ((g.rdW (uniIdx o.x)).truncate 32) (szLog o.sz)
    match globalTrap s g 0 a (szBytes o.sz) .read with
    | some t => .error (.trap s t s.cur.mask)
    | none => .ok (doneNow (startLoadOp s gid none [uniIdx o.d] o.sz a none))
  else
    let regs := destRegs o.d (szRegs o.sz)
    let addr (i : Fin 32) : DWord := addrOf g o.base (g.rdLane i o.x).1 (szLog o.sz)
    memReady s g o.base [(o.x, o.lx)] regs fun i => globalTrap s g i.val (addr i) (szBytes o.sz) .read
    let g' := g.vecCommit s.tick (cohort s) [(o.x, o.lx)] regs fun _ => { vals := regs.map fun _ => 0, flags := 0 }
    .ok (doneNow ((cohort s).foldl (fun s i => startLoadOp s gid (some i.val) (regs.filterMap g.vname) o.sz (addr i) none)
      (setGroup s gid g')))

def execLd (o : MemOps) (s : State) : Out := finish (ldStep s o)

/-- The registers of a load that met an error hold that error, and no older one (R228). -/
def Group.markBad (g : Group) (l : Load) : Group :=
  { g with badRegs := (g.badRegs.filter fun b => !(decide (b.lane = l.lane) && l.names.contains b.name)) ++
      l.names.map fun nm => { lane := l.lane, name := nm, addr := l.addr } }

/-- LOAD_RETURN (R228): the value of a load in flight reaches its destination, or its error stands in it; not while the clocks of the lanes
stand (R429). -/
def loadReturn (s : State) (gid n : Nat) : State :=
  match mget s.groups gid with
  | none => s
  | some g => match g.loads.find? fun l => decide (l.id = n) && l.held.isNone with
    | none => s
    | some l =>
      if clocksStopped s g.core then s
      else match l.val, l.bad with
      | none, false => s
      | v, bad =>
        let g := { g with loads := g.loads.filter fun x => decide (x.id ≠ n) }
        if bad then setGroup s gid (g.markBad l)
        else
          let v := (v.getD 0).toNat
          match l.lane with
          | none => setGroup s gid (g.wrW (l.names.headD 0) (loadUni l.sz v))
          | some i => setGroup s gid (g.onLanes (BitVec.twoPow 32 i) fun _ t =>
              t.update [] (l.names.zip (loadWords l.sz v)))

def execLoadReturn (g n : Nat) (s : State) : Out := .next (loadReturn s g n)

/-! ### ST -/

/-- Pending entries of one store (R136, R134): a 16-byte access is two units. -/
def storeUnits (t : Trans) (a : DWord) (bs : List Byte) : List Pend :=
  let unit (off : Nat) (b : List Byte) : Pend :=
    let t' := { t with pa := t.pa + off }
    { va := a + u64 off, tr := t', bytes := storedBytes t' b, stale := false }
  if bs.length = 16 then [unit 0 (bs.take 8), unit 8 (bs.drop 8)] else [unit 0 bs]

/-- The data of a store: the low bytes of a lane's registers, or of a uniform register. -/
def laneData (g : Group) (i : Fin 32) (regs : List (BitVec 7)) (n : Nat) : List Byte :=
  (regs.flatMap fun r => leList (g.rdLane i r).1.toNat 4).take n

/-- ST (R229): one entry per thread at the tail of P_g, lanes ascending. -/
def stStep (s : State) (o : MemOps) : R State := do
  let g ← issuer s
  let n := szBytes o.sz
  if isUni o.d then
    useW s g [o.base.toNat, uniIdx o.x, uniIdx o.d] []
    let a := addrOf g o.base ((g.rdW (uniIdx o.x)).truncate 32) (szLog o.sz)
    match globalTrap s g 0 a n .write with
    | some t => .error (.trap s t s.cur.mask)
    | none => .ok (done s { g with pend := g.pend ++ storeUnits (transOf s g 0 a .write) a (leList (g.rdW (uniIdx o.d)).toNat n) })
  else
    let regs := destRegs o.d (szRegs o.sz)
    let reads := (o.x, o.lx) :: regs.map fun r => (r, false)
    let addr (i : Fin 32) : DWord := addrOf g o.base (g.rdLane i o.x).1 (szLog o.sz)
    memReady s g o.base reads [] fun i => globalTrap s g i.val (addr i) n .write
    let g' := g.vecCommit s.tick (cohort s) reads [] fun _ => { vals := [], flags := 0 }
    let new := (cohort s).flatMap fun i => storeUnits (transOf s g i.val (addr i) .write) (addr i) (laneData g i regs n)
    .ok (done s { g' with pend := g.pend ++ new })

def execSt (o : MemOps) (s : State) : Out := finish (stStep s o)

/-! ### LDS, STS -/

/-- What holds a scratch access of some offsets: a line filling from the save area, an access of the same line that a sequencer
operation of the group has still to make, the lines' state, or a stash fill (R123, R230, R342). -/
def scratchHold (s : State) (tid : Nat) (t : Team) (gid : Nat) (w : List Nat → Option Wait) (offs : List (Nat × Nat)) : R Unit :=
  let ls := offs.flatMap fun p => linesOf p.1 p.2
  if anySpilled t ls || seqPending s t.core gid tid ls then .error (.stall s)
  else match w ls with
    | some x => .error (.hold s x)
    | none =>
      if offs.any fun p => needsFill t p.1 then .error (.stall (setTeam s tid (t.startFills gid (offs.map (·.1))))) else .ok ()

/-- A thread's read of a line that holds an uncorrectable error (R407). -/
def badLine (t : Team) (a : DWord) : Option TrapInfo :=
  if t.badLines.contains (a.toNat / 256) then some { cause := 10, haddr := a, access := 0 } else none

/-- LDS (R230). -/
def ldsStep (s : State) (o : MemOps) : R State := do
  let g ← issuer s
  let (tid, t) ← issuerTeam s g
  let n := szBytes o.sz
  if isUni o.d then
    useW s g [o.base.toNat, uniIdx o.x] [uniIdx o.d]
    let a := addrOf g o.base ((g.rdW (uniIdx o.x)).truncate 32) (szLog o.sz)
    match scratchTrap s g t 0 a n false with
    | some tr => .error (scratchStop s g tr)
    | none => do
      scratchHold s tid t s.cur.group (lineWait t false) [(a.toNat, n)]
      match badLine t a with
      | some tr => .error (.trap s tr s.cur.mask)
      | none =>
        let t' := t.touch s.tick (linesOf a.toNat n)
        .ok (done (setTeam s tid t') (g.wrW (uniIdx o.d) (loadUni o.sz (leNat (t.read a.toNat n)))))
  else
    let regs := destRegs o.d (szRegs o.sz)
    let addr (i : Fin 32) : DWord := addrOf g o.base (g.rdLane i o.x).1 (szLog o.sz)
    memReady s g o.base [(o.x, o.lx)] regs fun i => (scratchTrap s g t i.val (addr i) n false).or (badLine t (addr i))
    scratchHold s tid t s.cur.group (lineWait t false) ((cohort s).map fun i => ((addr i).toNat, n))
    let t' := t.touch s.tick ((cohort s).flatMap fun i => linesOf (addr i).toNat n)
    let g' := g.vecCommit s.tick (cohort s) [(o.x, o.lx)] regs fun i =>
      { vals := loadWords o.sz (leNat (t.read (addr i).toNat n)), flags := 0 }
    .ok (done (setTeam s tid t') g')

def execLds (o : MemOps) (s : State) : Out := finish (ldsStep s o)

/-- A thread's write of scratch bytes; inside a stash window they become dirty bytes of the group (R129). -/
def putScratch (s : State) (gid : Nat) (g : Group) (lane : Nat) (t : Team) (off : Nat) (bs : List Byte) : Team :=
  (t.write s.tick off bs).markDirty gid (stashTr s g t lane) off bs.length

/-- STS (R230, R127): lanes ascending. -/
def stsStep (s : State) (o : MemOps) : R State := do
  let g ← issuer s
  let (tid, t) ← issuerTeam s g
  let gid := s.cur.group
  let n := szBytes o.sz
  if isUni o.d then
    useW s g [o.base.toNat, uniIdx o.x, uniIdx o.d] []
    let a := addrOf g o.base ((g.rdW (uniIdx o.x)).truncate 32) (szLog o.sz)
    match scratchTrap s g t 0 a n true with
    | some tr => .error (scratchStop s g tr)
    | none => do
      scratchHold s tid t gid (lineWait t true) [(a.toNat, n)]
      .ok (done (setTeam s tid (putScratch s gid g 0 t a.toNat (leList (g.rdW (uniIdx o.d)).toNat n))) g)
  else
    let regs := destRegs o.d (szRegs o.sz)
    let reads := (o.x, o.lx) :: regs.map fun r => (r, false)
    let addr (i : Fin 32) : DWord := addrOf g o.base (g.rdLane i o.x).1 (szLog o.sz)
    memReady s g o.base reads [] fun i => scratchTrap s g t i.val (addr i) n true
    scratchHold s tid t gid (lineWait t true) ((cohort s).map fun i => ((addr i).toNat, n))
    let t' := (cohort s).foldl (fun t i => putScratch s gid g i.val t (addr i).toNat (laneData g i regs n)) t
    .ok (done (setTeam s tid t') (g.vecCommit s.tick (cohort s) reads [] fun _ => { vals := [], flags := 0 }))

def execSts (o : MemOps) (s : State) : Out := finish (stsStep s o)

/-- The bytes of a stash sector as its fill reads them, in units of 8 B (R128, R134; log entry 10), with what the group has seen; none
where a byte holds an uncorrectable error. -/
def fillRead (s : State) (gid : Nat) (g : Group) (tr : Trans) : Option (List Byte × Map Nat) :=
  if (physBytes tr 32).any fun p => p.any (badByte s) then none
  else some ((List.range 4).foldl (fun (x : List Byte × Map Nat) i =>
    let r := readGroup s gid { g with seen := x.2 } false i { tr with pa := tr.pa + 8 * i } 8
    (x.1 ++ r.1, r.2)) ([], g.seen))

/-- The bytes of a stash sector of a remote page: what the peer has answered, or the unit to ask it for (R420). -/
def farSector (s : State) (by' : Reading) (va : Nat) : List Nat → Except Nat (Option (List Byte))
  | [] => .ok (some [])
  | i :: l => match farUnit s by' (va / 8 + i) with
    | none => .error i
    | some none => .ok none
    | some (some bs) => match farSector s by' va l with
      | .error e => .error e
      | .ok r => .ok (r.map (bs ++ ·))

/-- A sector's fill ends: its bytes come in where no dirty byte stands, or its error stands for the access that touched it (R407). -/
def endStashFill (s : State) (tid sec gid : Nat) (t : Team) : Option (List Byte) → State
  | none => setTeam s tid { t with stashErrs := t.stashErrs ++ [(sec, gid)] }
  | some bs =>
    let t := ((List.range 32).zip bs).foldl (fun (t : Team) p =>
      if (mget t.stashDirty (sec * 32 + p.1)).isSome then t else t.write s.tick (sec * 32 + p.1) [p.2]) t
    setTeam s tid { t with stashFull := sec :: t.stashFull }

/-- STASH_FILL_DONE (Table 5.2, R128, R230): a sector fills by a read of the touching group; dirty bytes keep their values. A fill whose
translation fails is dropped, and the access takes the trap when it repeats. Nothing comes in while the scratchpad's clock stands (R429). -/
def stashFillDone (s : State) (tid sec : Nat) : State :=
  match mget s.teams tid with
  | none => s
  | some t => match t.stashFills.find? (·.1 == sec) with
    | none => s
    | some (_, gid) =>
      let t1 := { t with stashFills := t.stashFills.filter fun p => decide (p.1 ≠ sec) }
      if clocksStopped s t.core then s
      else match mget s.groups gid, windowAt t (sec * 32) with
      | some g, some _ =>
        match translate s g.ctx (agentOf g.core) 0 (u64 (stashVa t (sec * 32))) .read with
        | .error _ => setTeam s tid t1
        | .ok tr =>
          if tr.kind = .remote then
            match farSector s (.stash tid sec) (stashVa t (sec * 32)) (List.range 4) with
            | .error i => askPeer s g.ctx (.stash tid sec) (stashVa t (sec * 32) / 8 + i) { tr with pa := tr.pa + 8 * i }
            | .ok r => endStashFill (dropFetched s (.stash tid sec)) tid sec gid t1 r
          else match fillRead s gid g tr with
            | none => endStashFill s tid sec gid t1 none
            | some r => endStashFill (setGroup s gid { g with seen := r.2 }) tid sec gid t1 (some r.1)
      | _, _ => setTeam s tid t1

def execStashFillDone (team sector : Nat) (s : State) : Out := .next (stashFillDone s team sector)

/-! ### Atomics -/

/-- The combined value of Table 8.4, none where a failed CAS writes nothing. -/
def atomOp (op : BitVec 4) (m : Nat) (x y : Nat) : Option Nat :=
  let s32 (n : Nat) : Int := sextN n 32
  match op.toNat with
  | 0 => some ((m + x) % 2 ^ 32)
  | 1 => some (if s32 m ≤ s32 x then m else x)
  | 2 => some (if s32 m ≤ s32 x then x else m)
  | 3 => some (min m x)
  | 4 => some (max m x)
  | 5 => some (Nat.land m x)
  | 6 => some (Nat.lor m x)
  | 7 => some (Nat.xor m x)
  | 8 => some x
  | 9 => if m = x then some y else none
  | 10 => some (addV 0 false (fp false (u32 m)) (fp false (u32 x))).1
  | _ => some ((m + x) % 2 ^ 64)

/-- Access size of an atomic (R231). -/
def atomBytes (op : BitVec 4) : Nat := if op = 11 then 8 else 4

/-- Scope of an atomic's minor (R231). -/
def atomScope (sc : BitVec 2) : Scope := match sc with
  | 0 => .clus
  | 1 => .die
  | 2 => .dev
  | 3 => .sys

/-- The older value that an atomic may read when the newest write is an atomic whose scope, or its own, fails to contain the other
agent: one of the two updates is then lost (R138). -/
def lostValue (s : State) (who : Agent) (sc : Scope) (pas : List Nat) : Option Nat :=
  match s.events.find? fun e => pas.any (writesByte e) with
  | none => none
  | some e => match e.atomic with
    | none => none
    | some esc => if sc.reaches who e.who && esc.reaches e.who who then none
        else some (leNat (pas.map fun pa => mgetD e.olds pa (rdByte s.mem pa)))

/-- The write of each byte that an access reads: the newest in coherence order, or the one before it (R132). -/
def writesRead (s : State) (pas : List Nat) (older : Bool) : List (Nat × Nat) :=
  pas.map fun pa => (pa, ((((s.events.filter (writesByte · pa)).drop (if older then 1 else 0)).head?).map (·.id)).getD 0)

/-- One indivisible atomic at the home slice (R147 step 2): the state, the old value, and the writes it made, or read where it makes none
(R132). -/
def atomicAt (s : State) (who : Agent) (grp : Option Nat) (sc : Scope) (key salt : Nat) (pas : List Nat)
    (f : Nat → Option Nat) : State × Nat × List (Nat × Nat) :=
  let new := leNat (newestBytes s key pas)
  let opts : List (Nat × Option Nat × Bool) := match lostValue s who sc pas with
    | none => [(new, f new, false)]
    | some old => [(new, f new, false), (old, f old, true), (old, some new, true)]
  let c := (pick s.tick (2 ^ 81 + salt * 2 ^ 64 + pas.headD 0) opts).getD (new, f new, false)
  match c.2.1 with
  | none => (touchEvent s who grp sc key pas, c.1, writesRead s pas c.2.2)
  | some v => (publish s who grp (some sc) sc key (pas.zip (leList v pas.length)), c.1, pas.map fun pa => (pa, s.fresh))

/-- A pending entry lies in the sector of an address: by its translation, or, one that a TLBINV covered, by its address or by the translation
that its publish will use (R147, R403). -/
def inSector (s : State) (g : Group) (va : DWord) (t : Trans) (e : Pend) : Bool :=
  let at' (x : Trans) : Bool := decide (x.kind = t.kind) && decide (x.pa / 32 = t.pa / 32)
  if !e.stale then at' e.tr
  else decide (e.va.toNat / 32 = va.toNat / 32) || match translate s g.ctx (agentOf g.core) 0 e.va .locate with
    | .ok x => at' x
    | .error _ => false

/-- R147 step 1: the group's pending entries in the sector of an address publish at the atomic's scope, .clus counting as .die. The
entries sent to a peer, and whether the publish stopped at a MIGRATING page (R403). -/
def publishSector (s : State) (gid : Nat) (va : DWord) (t : Trans) (sc : Scope) : State × List Nat × Bool :=
  match mget s.groups gid with
  | none => (s, [], false)
  | some g =>
    let mine := inSector s g va t
    let r := publishList gid g (if sc = .clus then .die else sc) (g.pend.filter mine) { s := s, kept := [], sent := [], seen := [], stopped := false }
    (setGroup r.s gid { g with pend := (g.pend.filter fun e => !mine e || r.kept.contains e), seen := seenAdd g.seen r.seen }, r.sent, r.stopped)

/-- Operand block of an atomic (R231): index register, then its data registers. -/
def atomRegs (op : BitVec 4) (x d : BitVec 7) : List (BitVec 7) := destRegs x (1 + atomData op d)

/-- Data operands of an atomic from its block: s, or c and n; ADD.b64 in vector registers takes a pair. -/
def atomArgs (op : BitVec 4) (uni64 : Bool) (l : List Nat) : Nat × Nat :=
  if op = 11 then (if uni64 then arg l 1 else arg l 1 + 2 ^ 32 * arg l 2, 0)
  else (arg l 1 % 2 ^ 32, arg l 2 % 2 ^ 32)

/-- Trap of one lane of a global atomic (R227, R232, R407, R410). -/
def atomTrap (s : State) (g : Group) (op : BitVec 4) (sc : Scope) (lane : Nat) (a : DWord) : Option TrapInfo :=
  let t := transOf s g lane a .rmw
  (globalTrap s g lane a (atomBytes op) .rmw).or
    (if t.kind = .remote then (if op = 11 ∧ sc = .sys then none else some { cause := 4, haddr := a, access := Need.rmw.code false })
     else if (paRange t.pa (atomBytes op)).any (badByte s) then some { cause := 10, haddr := a, access := 0 } else none)

/-- The values of the atomic's operand block in a lane; a vector destination takes the low words of a uniform block (R67), of which
ADD.b64 takes the whole data register. -/
def atomVals (g : Group) (op : BitVec 4) (x d : BitVec 7) (i : Fin 32) : Nat × Nat :=
  if isUni x then
    (if op = 11 then (if isUni d then (g.rdW (uniIdx x + 1)).toNat
        else ((g.rdW (uniIdx x + 1)).toNat % 2 ^ 32 + 2 ^ 32 * ((g.rdW (uniIdx x + 2)).toNat % 2 ^ 32)), 0)
     else ((g.rdW (uniIdx x + 1)).toNat % 2 ^ 32, (g.rdW (uniIdx x + 2)).toNat % 2 ^ 32))
  else atomArgs op false ((atomRegs op x d).map fun r => (g.rdLane i r).1.toNat)

/-- The old value of a lane. -/
def laneOld (l : List (Fin 32 × Nat)) (i : Fin 32) : Nat := ((l.find? fun p => decide (p.1 = i)).map (·.2)).getD 0

/-- Old values to words: zero-extended for a uniform destination, one or two words for vector ones. -/
def oldWords (op : BitVec 4) (m : Nat) : List Word := if op = 11 then [u32 m, u32 (m / 2 ^ 32)] else [u32 m]

/-- What stops an ATOM in its middle: a peer that has not answered, a MIGRATING page, an error met by a lane. -/
inductive AtomStop where
  | peer | page | error
  deriving DecidableEq, Repr

/-- The step's page was MIGRATING when it was translated once more: it waits on (R403). -/
def AtomStep.migrating (st : AtomStep) : Bool := st.bad.any fun b => decide (b.2 / 16 % 2 = 1)

/-- The next step of a lane (R147, R232, R403, R420): the state, the step as it then stands, and what stops the ATOM there. -/
def atomNext (s : State) (gid tag : Nat) (op : BitVec 4) (sc : Scope) (st : AtomStep) : State × AtomStep × Option AtomStop :=
  if st.old.isSome then (s, st, none)
  else if st.migrating then (s, st, some .page)
  else if st.bad.isSome then (s, st, some .error)
  else if st.sent || (s.remotes.any fun r => st.before.contains r.id) then (s, st, some .peer)
  else
    let p := publishSector s gid st.va st.tr sc
    let st := { st with before := st.before ++ p.2.1 }
    if p.2.2 then (p.1, st, some .page)
    else if !p.2.1.isEmpty then (p.1, st, some .peer)
    else match mget p.1.groups gid with
      | none => (p.1, st, some .error)
      | some g =>
        if st.tr.kind = .remote then
          (sendRemote p.1 g.ctx (.atomic gid tag st.lane) st.va st.tr ((List.range 8).zip (leList st.x 8)), { st with sent := true }, some .peer)
        else
          let pas := paRange st.tr.pa (atomBytes op)
          if pas.any (badByte p.1) then (p.1, { st with bad := some (10, 0) }, some .error)
          else
            let r := atomicAt p.1 (agentOf g.core) (some gid) sc (keySerial p.1 st.tr.key) st.lane pas fun m => atomOp op m st.x st.y
            (match mget r.1.groups gid with
              | none => r.1
              | some g => setGroup r.1 gid { g with seen := seenAdd g.seen r.2.2 }, { st with old := some r.2.1 }, none)

/-- The steps of an ATOM in ascending order of lane, up to one that stops it (R232). -/
def atomRun (gid tag : Nat) (op : BitVec 4) (sc : Scope) : List AtomStep → State → State × List AtomStep × Option AtomStop
  | [], s => (s, [], none)
  | st :: l, s =>
    let r := atomNext s gid tag op sc st
    match r.2.2 with
    | some x => (r.1, r.2.1 :: l, some x)
    | none => let q := atomRun gid tag op sc l r.1; (q.1, r.2.1 :: q.2.1, q.2.2)

/-- A group's ATOM as it stands, or gone. -/
def Group.putAtom (g : Group) (tag : Nat) (steps : List AtomStep) : Group :=
  { g with atoms := g.atoms.filter (fun a => decide (a.tag ≠ tag)) ++ (if steps.isEmpty then [] else [{ tag := tag, steps := steps }]) }

/-- An ATOM goes on (R232): it waits where a step stops it, traps for the lanes that failed (R195), or hands its old values over. -/
def atomGo (s : State) (uni : Bool) (tag : Nat) (op : BitVec 4) (sc : Scope) (steps : List AtomStep) (commit : Group → (Nat → Nat) → Group) : R State :=
  let gid := s.cur.group
  let r := atomRun gid tag op sc steps s
  match mget r.1.groups gid with
  | none => .error (.fault .noIssuer)
  | some g =>
    let keep (l : List AtomStep) : State := setGroup r.1 gid (g.putAtom tag l)
    match r.2.2 with
    | some .peer => .error (.hold (keep r.2.1) (.peer tag))
    | some .page => .error (.hold (keep r.2.1) (.page (some tag)))
    | some .error =>
      match r.2.1.find? (·.bad.isSome) with
      | none => .error (.fault .noIssuer)
      | some st =>
        let c := (st.bad.getD (10, 0)).1
        let lanes := maskOf (allLanes.filter fun i => r.2.1.any fun x => decide (x.lane = i.val) && x.bad.any fun b => decide (b.1 = c))
        .error (.trap (keep []) { cause := c, haddr := st.va, access := (st.bad.getD (10, 0)).2 } (if uni then s.cur.mask else lanes))
    | none => .ok (done (keep []) (commit (g.putAtom tag []) fun lane => ((r.2.1.find? fun st => decide (st.lane = lane)).bind (·.old)).getD 0))

/-- A step that has stood before a MIGRATING page is translated once more; where the page is MIGRATING still, it waits on (R403). -/
def AtomStep.again (s : State) (g : Group) (op : BitVec 4) (sc : Scope) (st : AtomStep) : AtomStep :=
  if st.old.isSome || st.sent then st
  else match atomTrap s g op sc st.lane st.va with
    | some t => { st with bad := some (t.cause, t.access) }
    | none => { st with tr := transOf s g st.lane st.va .rmw, bad := none }

/-- The ATOM that the issuing threads stand in, if they go on with one. -/
def atomUnderWay (s : State) (g : Group) (op : BitVec 4) (sc : Scope) : Option Atom :=
  match (lowestLane s.cur.mask).bind fun l => g.threads[l].wait with
  | some (.peer tag) => g.atoms.find? fun a => decide (a.tag = tag)
  | some (.page (some tag)) => (g.atoms.find? fun a => decide (a.tag = tag)).map fun a => { a with steps := a.steps.map (AtomStep.again s g op sc) }
  | _ => none

/-- The first state of a lane's step. -/
def atomFirst (s : State) (g : Group) (lane : Nat) (a : DWord) (v : Nat × Nat) : AtomStep :=
  { lane := lane, va := a, tr := transOf s g lane a .rmw, x := v.1, y := v.2, before := [], sent := false, old := none, bad := none }

/-- ATOM (R231, R232). -/
def atomStep (s : State) (op : BitVec 4) (scope : BitVec 2) (e : BitVec 5) (x d : BitVec 7) : R State := do
  let g ← issuer s
  let sc := atomScope scope
  let sh := if op = 11 then 3 else 2
  if isUni d then
    let commit (g : Group) (old : Nat → Nat) : Group := g.wrW (uniIdx d) (u64 (old 0))
    match atomUnderWay s g op sc with
    | some a => atomGo s true a.tag op sc a.steps commit
    | none => do
      useW s g (e.toNat :: (atomRegs op x d).map uniIdx) [uniIdx d]
      let a := addrOf g e ((g.rdW (uniIdx x)).truncate 32) sh
      match atomTrap s g op sc 0 a with
      | some t => .error (.trap s t s.cur.mask)
      | none => atomGo { s with fresh := s.fresh + 1 } true s.fresh op sc [atomFirst s g 0 a (atomVals g op x d 0)] commit
  else
    let regs := destRegs d (if op = 11 then 2 else 1)
    let reads := (atomRegs op x d).map fun r => (r, false)
    let commit (g : Group) (old : Nat → Nat) : Group :=
      g.vecCommit s.tick (cohort s) reads regs fun i => { vals := oldWords op (old i.val), flags := 0 }
    match atomUnderWay s g op sc with
    | some a => atomGo s false a.tag op sc a.steps commit
    | none => do
      let addr (i : Fin 32) : DWord := addrOf g e (g.rdLane i x).1 sh
      memReady s g e reads regs fun i => atomTrap s g op sc i.val (addr i)
      atomGo { s with fresh := s.fresh + 1 } false s.fresh op sc ((cohort s).map fun i => atomFirst s g i.val (addr i) (atomVals g op x d i)) commit

def execAtom (op : BitVec 4) (scope : BitVec 2) (e : BitVec 5) (x d : BitVec 7) (s : State) : Out :=
  finish (atomStep s op scope e x d)

/-- One lane of ATOMS (R233): the team after, and the old value. -/
def atomsLane (s : State) (gid : Nat) (g : Group) (op : BitVec 4) (lane : Nat) (off : Nat) (v : Nat × Nat) (t : Team) : Team × Nat :=
  let m := leNat (t.read off (atomBytes op))
  match atomOp op m v.1 v.2 with
  | none => (t.touch s.tick (linesOf off (atomBytes op)), m)
  | some n => (putScratch s gid g lane t off (leList n (atomBytes op)), m)

def atomsLanes (s : State) (gid : Nat) (g : Group) (op : BitVec 4) (off : Fin 32 → Nat) (v : Fin 32 → Nat × Nat) :
    List (Fin 32) → Team → List (Fin 32 × Nat) → Team × List (Fin 32 × Nat)
  | [], t, l => (t, l)
  | i :: is, t, l =>
    let r := atomsLane s gid g op i.val (off i) (v i) t
    atomsLanes s gid g op off v is r.1 (l ++ [(i, r.2)])

/-- ATOMS (R233). A failed CAS makes no dirty byte, but the line must still be writable. -/
def atomsStep (s : State) (op : BitVec 4) (e : BitVec 5) (x d : BitVec 7) : R State := do
  let g ← issuer s
  let (tid, t) ← issuerTeam s g
  let gid := s.cur.group
  let n := atomBytes op
  let sh := if op = 11 then 3 else 2
  if isUni d then
    useW s g (e.toNat :: (atomRegs op x d).map uniIdx) [uniIdx d]
    let a := addrOf g e ((g.rdW (uniIdx x)).truncate 32) sh
    match scratchTrap s g t 0 a n true with
    | some tr => .error (scratchStop s g tr)
    | none => do
      scratchHold s tid t gid (atomsWait t) [(a.toNat, n)]
      match badLine t a with
      | some tr => .error (.trap s tr s.cur.mask)
      | none =>
        let r := atomsLane s gid g op 0 a.toNat (atomVals g op x d 0) t
        .ok (done (setTeam s tid r.1) (g.wrW (uniIdx d) (u64 r.2)))
  else
    let regs := destRegs d (if op = 11 then 2 else 1)
    let reads := (atomRegs op x d).map fun r => (r, false)
    let addr (i : Fin 32) : DWord := addrOf g e (g.rdLane i x).1 sh
    memReady s g e reads regs fun i => (scratchTrap s g t i.val (addr i) n true).or (badLine t (addr i))
    scratchHold s tid t gid (atomsWait t) ((cohort s).map fun i => ((addr i).toNat, n))
    let r := atomsLanes s gid g op (fun i => (addr i).toNat) (atomVals g op x d) (cohort s) t []
    .ok (done (setTeam s tid r.1) (g.vecCommit s.tick (cohort s) reads regs fun i =>
      { vals := oldWords op (laneOld r.2 i), flags := 0 }))

def execAtoms (op : BitVec 4) (e : BitVec 5) (x d : BitVec 7) (s : State) : Out := finish (atomsStep s op e x d)

/-! ### LDV.M, STV.M -/

/-- What stops a thread of a multi-register transfer at a word (R235). -/
def wordStop (s : State) (g : Group) (lane : Nat) (a : DWord) (load : Bool) : Option TrapInfo :=
  match translate s g.ctx (agentOf g.core) lane a (if load then .read else .write) with
  | .error f => some { cause := f.cause, haddr := a, access := f.access }
  | .ok t => if load && metError s g t 4 then some { cause := 10, haddr := a, access := 0 } else none

/-- What the next word of a lane comes to: it is transferred, it stops the thread, or a peer has to answer first. -/
inductive WordEnd where
  | moved (s : State)
  | stop (t : TrapInfo)
  | wait (s : State)

/-- A lane of LDV.M takes a word (R235). -/
def loadWord (s : State) (gid : Nat) (lane : Fin 32) (f : BitVec 7) (w : Word) : State :=
  match mget s.groups gid with
  | none => s
  | some g =>
    let nm := rotName g.rwin f.toNat
    setGroup s gid ((g.cleanRows [lane] [nm]).onLanes (BitVec.twoPow 32 lane.val) fun _ t => t.update [] [(nm, w)])

/-- The word of a remote page: the request is made, out, answered or failed (R235, R420, Table 18.5). -/
def farWord (s : State) (gid tag : Nat) (lane : Fin 32) (f : BitVec 7) (a : DWord) (g : Group) : WordEnd :=
  match g.loads.find? fun l => decide (l.held = some tag) && l.lane == some lane.val with
  | none => .wait (startLoadOp s gid (some lane.val) [] 4 a (some tag))
  | some l =>
    let s' := setGroup s gid { g with loads := g.loads.filter fun x => decide (x.id ≠ l.id) }
    if l.bad then .stop { cause := 10, haddr := a, access := 0 }
    else match l.val with
      | none => .wait s
      | some v => .moved (loadWord s' gid lane f (u32 v.toNat))

/-- Transfer one word of a lane: a load reads it now, or asks the peer; a store appends it to P_g, and its register may set UNDEF (R46). -/
def transferWord (s : State) (gid tag : Nat) (lane : Fin 32) (load : Bool) (f : BitVec 7) (a : DWord) : WordEnd :=
  match mget s.groups gid with
  | none => .moved s
  | some g => match wordStop s g lane.val a load with
    | some t => .stop t
    | none =>
      if load then
        let t := transOf s g lane.val a .read
        if t.kind = .remote ∧ !((List.range 4).all fun i => (pendByte g t i).isSome) then farWord s gid tag lane f a g
        else
          let r := readGroup s gid g true lane.val t 4
          .moved (loadWord (setGroup s gid { g with seen := r.2 }) gid lane f (u32 (leNat r.1)))
      else
        let t := transOf s g lane.val a .write
        let x := g.rdLane lane f
        .moved (setGroup s gid { g.orFlags 0 x.2 with pend := g.pend ++ storeUnits t a (leList x.1.toNat 4) })

/-- How far a lane came: its next word, what stopped it, and whether it waits for a peer. -/
structure LaneEnd where
  lane : Fin 32
  next : Nat
  stop : Option TrapInfo
  waits : Bool

/-- The words of one lane from XFER on (R235). -/
def transferLane (gid tag : Nat) (lane : Fin 32) (load : Bool) (d : BitVec 7) (a : DWord) (n : Nat) :
    Nat → Nat → State → State × LaneEnd
  | 0, j, s => (s, { lane := lane, next := j, stop := none, waits := false })
  | fuel + 1, j, s =>
    if n ≤ j then (s, { lane := lane, next := j, stop := none, waits := false })
    else match transferWord s gid tag lane load (d + BitVec.ofNat 7 j) (a + u64 (4 * j)) with
      | .stop t => (s, { lane := lane, next := j, stop := some t, waits := false })
      | .wait s => (s, { lane := lane, next := j, stop := none, waits := true })
      | .moved s => transferLane gid tag lane load d a n fuel (j + 1) s

/-- All lanes, ascending. -/
def transferAll (gid tag : Nat) (load : Bool) (d : BitVec 7) (addr : Fin 32 → DWord) (start : Fin 32 → Nat) (n : Nat) :
    List (Fin 32) → State → State × List LaneEnd
  | [], s => (s, [])
  | i :: is, s =>
    let r := transferLane gid tag i load d (addr i) n n (start i) s
    let q := transferAll gid tag load d addr start n is r.1
    (q.1, r.2 :: q.2)

/-- The registers that a lane has still to transfer: word `j` and up (R235). -/
def wordsLeft (g : Group) (regs : List (BitVec 7)) (i : Fin 32) : List (BitVec 7) := regs.drop g.threads[i].xfer.toNat

/-- LDV.M and STV.M are ready to issue (R227, R234, R235): a lane reads, or takes rows for (R44), only the registers of the words it has still
to transfer. -/
def multiReady (s : State) (g : Group) (load : Bool) (e : BitVec 5) (x : BitVec 7) (regs : List (BitVec 7)) (addr : Fin 32 → DWord) : R Unit := do
  let reads (i : Fin 32) : List Nat := ((if load then [x] else x :: wordsLeft g regs i).filterMap g.vname)
  scoreboard s g [] [e.toNat]
  readyU s g [e.toNat]
  operandsReady s g (if load then [x] else x :: regs) (if load then regs else [])
  raiseBy (fun c => if c = 10 then setGroup s s.cur.group ((cohort s).foldl (fun g i => g.freeBad [i] (reads i)) g) else s)
    ((cohort s).map fun i => (i, (badRead g i (reads i)).or
      ((overBudget s g g.threads[i] [] (if load then (wordsLeft g regs i).filterMap g.vname else [])).or (misaligned (addr i) 4))))

/-- The tag of the LDV.M that the issuing threads stand in. -/
def transferTag (s : State) (g : Group) : Option Nat :=
  match (lowestLane s.cur.mask).bind fun l => g.threads[l].wait with
  | some (.peer tag) => some tag
  | _ => none

/-- The address A of a lane: from X at the issue, once for the execution (R235); an execution that has waited for a peer keeps it, for the
words that have come may have overwritten X. -/
def transferAddr (g : Group) (tag : Option Nat) (e : BitVec 5) (x : BitVec 7) (i : Fin 32) : DWord :=
  match tag.bind fun n => g.bases.find? fun b => decide (b.1 = n) && decide (b.2.1 = i.val) with
  | some b => b.2.2
  | none => addrOf g e (g.rdLane i x).1 2

/-- The addresses of an LDV.M that waits, and without those of one that has ended. -/
def Group.putBases (g : Group) (tag : Nat) (lanes : List (Fin 32)) (addr : Fin 32 → DWord) : Group :=
  { g with bases := g.bases.filter (fun b => decide (b.1 ≠ tag)) ++ lanes.map fun i => (tag, i.val, addr i) }

/-- The lanes of a transfer keep their next words in XFER. -/
def Group.putXfer (g : Group) (m : BitVec 32) (l : List LaneEnd) : Group :=
  g.onLanes m fun i t => { t with xfer := u32 (((l.find? fun x => decide (x.lane = i)).map (·.next)).getD t.xfer.toNat) }

/-- LDV.M and STV.M (R234, R235): the words transferred before a stop stay transferred. An execution after a trap takes A from X as it then
stands (log entry 108). -/
def multiStep (s : State) (load : Bool) (n : BitVec 4) (e : BitVec 5) (x d : BitVec 7) : R State := do
  let g ← issuer s
  let gid := s.cur.group
  let cnt := n.toNat + 1
  let regs := destRegs d cnt
  let tag := transferTag s g
  let addr := transferAddr g tag e x
  if tag.isNone then multiReady s g load e x regs addr
  let reads := (if load then [x] else x :: regs).filterMap g.vname
  let s0 := { setGroup s gid ((g.orFlags 0 ((cohort s).any fun i => (g.rdLane i x).2)).touchNames s.tick reads
    (if load then regs.filterMap g.vname else [])) with fresh := s.fresh + 1 }
  let r := transferAll gid (tag.getD s.fresh) load d addr (fun i => g.threads[i].xfer.toNat) cnt (cohort s) s0
  match mget r.1.groups gid with
  | none => .error (.fault .noIssuer)
  | some g' =>
    let tg := tag.getD s.fresh
    if r.2.any (·.waits) then .error (.hold (setGroup r.1 gid ((g'.putBases tg (cohort s) addr).putXfer s.cur.mask r.2)) (.peer tg))
    else
      let g' := g'.putBases tg [] addr
      match chooseTrap (r.2.map fun x => (x.lane, x.stop)) with
      | none => .ok (done r.1 (g'.onLanes s.cur.mask fun _ t => { t with xfer := 0 }))
      | some (t, m) =>
        .error (.trap (setGroup r.1 gid ({ g' with loads := g'.loads.filter fun l => l.held.isNone || decide (l.held ≠ tag) }.putXfer s.cur.mask r.2)) t m)

def execLdvM (n : BitVec 4) (e : BitVec 5) (x d : BitVec 7) (s : State) : Out := finish (multiStep s true n e x d)
def execStvM (n : BitVec 4) (e : BitVec 5) (x d : BitVec 7) (s : State) : Out := finish (multiStep s false n e x d)

/-! ### PREFETCH, FENCE.S -/

/-- PREFETCH (R241): the index register is read; nothing else changes, and no translation traps. -/
def prefetchStep (s : State) (e : BitVec 5) (x : BitVec 7) : R State := do
  let g ← issuer s
  if isUni x then
    useW s g [e.toNat, uniIdx x] []
    .ok (done s g)
  else
    useW s g [e.toNat] []
    let g' ← vecOn s g (cohort s) [(x, false)] [] fun _ _ => { vals := [], flags := 0 }
    .ok (done s g')

def execPrefetch (_l2 : Bool) (e : BitVec 5) (x : BitVec 7) (s : State) : Out := finish (prefetchStep s e x)

/-- FENCE.S (R140): waits for the group's loads, for the acceptance of its engine instructions, and for the scratch accesses that its sequencer
operations have still to make, which count as the group's (R123). DEDUCED (log entry 119): R123's last sentence and Table 16.11 could be
read to leave those to MWAIT. -/
def fenceStep (s : State) : R State := do
  let g ← issuer s
  let c := coreOf s g.core
  if g.loads.isEmpty && !(c.eng.any fun o => decide (o.group = some s.cur.group) && !o.accepted) &&
      !seqLeft s g.core s.cur.group then .ok (done s g)
  else .error (.stall s)

def execFenceS (s : State) : Out := finish (fenceStep s)

end Sys2Proof.Machine
end

