-- ==== Sys2Proof/Machine/Order.lean ====
section
/-! DEFINITION. The ORDER minors that publish, refresh and wait (R236 to R240, R143 to R146 of chapter 5). -/

namespace Sys2Proof.Machine

/-- Scope of an ORDER minor (Table 8.9). -/
def orderScope (sc : BitVec 2) : Scope := match sc with
  | 0 => .core
  | 1 => .die
  | 2 => .dev
  | 3 => .sys

/-- The group has a Publish under way until PUBLISH_COMPLETE (R138, R236). -/
def startPublish (s : State) (gid : Nat) (sc : Scope) (ref : Option Scope) (last : Bool) : State :=
  let r := publishGroup s gid sc
  match mget r.1.groups gid with
  | none => r.1
  | some g => setGroup r.1 gid { g with publishing := some { scope := sc, refresh := ref, remote := r.2.1, stopped := r.2.2, last := last } }

/-- PHASE.P and PHASE: the Publish starts; no later instruction of the group issues until it completes. It waits for the stash writes that the
group's sequencer operations have still to make, which count as the group's (R236, R123). DEDUCED (log entry 119): R123's last sentence
could be read to leave them to MWAIT. -/
def phaseStep (s : State) (sc : Scope) (ref : Option Scope) : R State := do
  let g ← issuer s
  stallIf s (stashLeft s g.core s.cur.group)
  .ok (startPublish (doneNow s) s.cur.group sc ref false)

def execPhaseP (scope : BitVec 2) (s : State) : Out := finish (phaseStep s (orderScope scope) none)
def execPhase (scope : BitVec 2) (s : State) : Out := finish (phaseStep s (orderScope scope) (some (orderScope scope)))

/-- PHASE.R. -/
def execPhaseR (scope : BitVec 2) (s : State) : Out := finish do
  let _ ← issuer s
  .ok (doneNow (refreshGroup s s.cur.group (orderScope scope)))

/-! ### WAITM -/

/-- The sector WAITM watches, by physical address; a remote page has none here. -/
def watchSector (t : Trans) : Option Nat :=
  match t.kind with
  | .remote => none
  | .trimmed => some (t.pa / 4 * 2 / 32)
  | _ => some (t.pa / 32)

/-- The return of a WAITM: its code, the refresh at every scope, CLEAN sectors EMPTY (R145, R146). -/
def waitmReturn (s : State) (d : Option (BitVec 5)) (code : DWord) : State :=
  let s := refreshGroup s s.cur.group .sys
  match mget s.groups s.cur.group with
  | none => s
  | some g => done s (match d with
    | none => g
    | some r => g.wrW r.toNat code)

/-- The wait of the issuing threads, if they stand in a WAITM already. -/
def issueWait (s : State) (g : Group) : Option Wait := (lowestLane s.cur.mask).bind fun l => g.threads[l].wait

/-- WAITM (R237): a timeout of 0 returns at once; else the issuing threads wait for the first cause. -/
def waitmStep (s : State) (d : Option (BitVec 5)) (e t : BitVec 5) : R State := do
  let g ← issuer s
  useW s g [e.toNat, t.toNat] (d.map (·.toNat)).toList
  let a := g.rdW e.toNat
  match globalTrap s g 0 a 1 .read with
  | some tr => .error (.trap s tr s.cur.mask)
  | none =>
    if g.rdW t.toNat = 0 then .ok (waitmReturn s d 6)
    else
      .error (.hold { s with fresh := s.fresh + 1 } (.monitor
        { sector := (watchSector (transOf s g 0 a .read)).getD (2 ^ 60), began := s.fresh,
          deadline := (clusterOf s (clusOf g.core)).cycle + (g.rdW t.toNat).toNat, dest := d, next := s.cur.next, code := none }))

def execWaitm (d : Option (BitVec 5)) (e t : BitVec 5) (s : State) : Out := finish (waitmStep s d e t)

/-- A cause of Table 5.6 may end a wait: code 0 at any moment, code 2 on a sector of the module, code 1 once a publish event or
atomic on the sector became visible after the wait began (R143). -/
def waitmCause (s : State) (gid : Nat) (g : Group) (sector began code : Nat) : Bool :=
  match code with
  | 0 => true
  | 1 => s.events.any fun e =>
      (e.cells.map (·.1) ++ e.olds.map (·.1)).any (fun a => decide (a / 32 = sector)) &&
        (match visAt (g.reader s gid 0) e with
          | some m => decide (began ≤ m)
          | none => false)
  | 2 => decide (sector < 2 ^ 60)
  | _ => false

/-- A WAITM without a code takes that of a cause that has come now, or 1 if a write of its sector came before (R143: the first cause). -/
def Monitor.wake (s : State) (gid : Nat) (g : Group) (code : Nat) (m : Monitor) : Monitor :=
  { m with code := m.code.or (some (if waitmCause s gid g m.sector m.began 1 then 1 else code)) }

def Wait.onMonitor (f : Monitor → Monitor) : Wait → Wait
  | .monitor m => .monitor (f m)
  | w => w

/-- Change the WAITMs of a group: those its threads wait in, and those they left for the handler and come back to. -/
def Group.onMonitors (g : Group) (f : Monitor → Monitor) : Group :=
  g.onLanes (-1) fun _ t => { t with wait := t.wait.map (Wait.onMonitor f), savedWait := t.savedWait.map (Wait.onMonitor f) }

/-- A cause has come to every WAITM of a group. -/
def Group.wakeMonitors (g : Group) (s : State) (gid code : Nat) : Group := g.onMonitors (Monitor.wake s gid g code)

/-- The WAITMs of a group that a test picks take the code of a cause; they complete as the next move begins (R143, R237). -/
def wakeIf (s : State) (gid code : Nat) (ok : Group → Monitor → Bool) : State :=
  match mget s.groups gid with
  | none => s
  | some g => setGroup s gid (g.onMonitors fun m => if ok g m then m.wake s gid g code else m)

/-- WAITM_WAKE: codes 0, 1 and 2, while a switch has not stopped the group's context (R279). -/
def waitmWake (s : State) (gid code : Nat) : State :=
  wakeIf s gid code fun g m => waitmCause s gid g m.sector m.began code && !switching s g.ctx

def execWaitmWake (g code : Nat) (s : State) : Out := .next (waitmWake s g code)

/-- WAITM_TIMEOUT: code 6 once CYCLE has reached the deadline. -/
def waitmTimeout (s : State) (gid : Nat) : State :=
  wakeIf s gid 6 fun g m => decide (m.deadline ≤ (clusterOf s (clusOf g.core)).cycle) && !switching s g.ctx

def execWaitmTimeout (g : Nat) (s : State) : Out := .next (waitmTimeout s g)

/-- A WAITM that has its code ends for the threads that stand in it: every scope is refreshed, CLEAN stash sectors become EMPTY, the
code is written, and they go on at the next instruction (R237). -/
def endMonitor (s : State) (gid : Nat) (m : Monitor) (code : Nat) : State :=
  let s := refreshGroup s gid .sys
  match mget s.groups gid with
  | none => s
  | some g =>
    let g := match m.dest with
      | none => g
      | some r => g.wrW r.toNat (u64 code)
    setGroup s gid (g.onLanes (-1) fun _ t => if t.live && decide (t.wait = some (.monitor m)) then { t with pc := m.next, wait := none } else t)

/-- The WAITMs that threads of a group stand in, each once. -/
def Group.monitors (g : Group) : List Monitor :=
  (g.threads.toList.filterMap fun t => match t.wait with
    | some (.monitor m) => if t.live then some m else none
    | _ => none).eraseDups

/-- The WAITMs of a group at the start of a move: a timeout that has been reached is a cause, and those with a code end where the group is
RUNNING, WAITING or in HANDLER, its team's overlays reloaded (Table 14.2). -/
def settleMonitors (s : State) (gid : Nat) : State :=
  let s := waitmTimeout s gid
  match mget s.groups gid with
  | none => s
  | some g =>
    if (g.st = .active ∨ g.st = .handler) ∧ ctxIssues s g.ctx = true ∧ teamLoaded s g = true then
      g.monitors.foldl (fun s m => match m.code with
        | none => s
        | some c => endMonitor s gid m c) s
    else s

/-! ### SMAP, SUNMAP, SFLUSH -/

/-- Lines of a window. -/
def Window.lines (w : Window) : List Nat := linesOf w.off w.len

/-- A page of the window is a trimmed page (R410). -/
def trimmedIn (s : State) (g : Group) (va len : Nat) : Option Nat :=
  ((List.range (len / 256)).map fun i => va + 256 * i).find? fun a => trimmedAt s g.ctx (agentOf g.core) 0 (u64 a)

/-- Forget the stash state of a window's sectors. -/
def Team.dropWindow (t : Team) (w : Window) : Team :=
  let inW (off : Nat) : Bool := decide (w.off ≤ off ∧ off < w.off + w.len)
  { t with stashFull := t.stashFull.filter (fun x => !inW (x * 32)), stashDirty := t.stashDirty.filter (fun p => !inW p.1),
           stashFills := t.stashFills.filter (fun p => !inW (p.1 * 32)), stashErrs := t.stashErrs.filter fun p => !inW (p.1 * 32) }

/-- SMAP (R238, R410); it writes, and so touches, each line (R342). DESIGN CHOICE (log entry 123): of several operands at fault under cause 0x02,
HADDR holds wO, else wG, else wL. -/
def smapStep (s : State) (o gr l : BitVec 5) : R State := do
  let g ← issuer s
  need s (feature s g 6)
  let (tid, t) ← issuerTeam s g
  useW s g [o.toNat, gr.toNat, l.toNat] []
  let off := (g.rdW o.toNat).toNat
  let va := (g.rdW gr.toNat).toNat
  let len := (g.rdW l.toNat).toNat
  if off % 256 ≠ 0 ∨ va % 256 ≠ 0 ∨ len % 256 ≠ 0 ∨ len < 256 then
    .error (stopTrap s 2 (u64 (if off % 256 ≠ 0 then off else if va % 256 ≠ 0 then va else len)))
  else if !t.inRange off len then .error (stopTrap s 9 (u64 off))
  else do
    let w : Window := { off := off, va := va, len := len }
    need s (decide (t.windows.length < 8) && !(t.windows.any fun x => overlaps off len x.off x.len || overlaps va len x.va x.len) &&
      !(w.lines.any fun x => isViewed t x || inRing t x))
    match trimmedIn s g va len with
    | some a => .error (stopTrap s 4 (u64 a))
    | none => do
      scratchHold s tid t s.cur.group (lineWait t true) [(off, len)]
      let t := (w.lines.foldl Team.clearLine t).touch s.tick w.lines
      .ok (doneNow (setTeam s tid { t with windows := t.windows ++ [w] }))

def execSmap (o g l : BitVec 5) (s : State) : Out := finish (smapStep s o g l)

/-- The publish of SFLUSH (R239 step 1): the state, and whether it stopped at a MIGRATING page. -/
def flushWindow (s : State) (gid : Nat) (g : Group) (tid : Nat) (t : Team) (w : Window) : State × Bool :=
  let mine := (dirtyOf t gid).filter fun p => decide (w.off ≤ p.2.1 ∧ p.2.1 < w.off + w.len)
  let r := publishDirty s gid g tid t .dev mine
  match mget r.s.groups gid with
  | none => (r.s, r.stopped)
  | some g => (setGroup r.s gid { g with seen := seenAdd g.seen r.seen }, r.stopped)

/-- SFLUSH (R239), after the accesses to the window that the group's sequencer operations have still to make (R123). -/
def sflushStep (s : State) (o : BitVec 5) : R State := do
  let g ← issuer s
  need s (feature s g 6)
  let (tid, t) ← issuerTeam s g
  useW s g [o.toNat] []
  match t.windows.find? fun w => decide (u64 w.off = g.rdW o.toNat) with
  | none => illegal s
  | some w => do
    stallIf s (seqPending s t.core s.cur.group tid w.lines)
    let r := flushWindow s s.cur.group g tid t w
    if r.2 then .error (.hold r.1 (.page none))
    else match mget r.1.teams tid with
      | none => .error (.fault .noIssuer)
      | some t =>
        let t := { t with stashFull := t.stashFull.filter fun x => sectorDirty t x || !decide (w.off ≤ x * 32 ∧ x * 32 < w.off + w.len) }
        .ok (doneNow (setTeam r.1 tid t))

def execSflush (o : BitVec 5) (s : State) : Out := finish (sflushStep s o)

/-- SUNMAP (R240), after the accesses to the window that the group's sequencer operations have still to make (R123). Dirty bytes that a
Publish at .dev leaves pending (R420) go on as pending stores (R129). -/
def sunmapStep (s : State) (o : BitVec 5) : R State := do
  let g ← issuer s
  need s (feature s g 6)
  let (tid, t) ← issuerTeam s g
  useW s g [o.toNat] []
  match t.windows.find? fun w => decide (u64 w.off = g.rdW o.toNat) with
  | none => illegal s
  | some w => do
    need s (!(t.stashDirty.any fun p => decide (w.off ≤ p.1 ∧ p.1 < w.off + w.len) && decide (p.2.gid ≠ s.cur.group)))
    stallIf s (seqPending s t.core s.cur.group tid w.lines)
    let r := flushWindow s s.cur.group g tid t w
    if r.2 then .error (.hold r.1 (.page none))
    else match mget r.1.teams tid, mget r.1.groups s.cur.group with
      | some t, some g =>
        let left := (dirtyOf t s.cur.group).filter fun p => decide (w.off ≤ p.2.1 ∧ p.2.1 < w.off + w.len)
        let g := { g with pend := g.pend ++ left.map fun p => dirtyUnit t p.1 p.2.1 p.2.2 }
        let t := (w.lines.foldl Team.clearLine (t.dropWindow w)).touch s.tick w.lines
        .ok (done (setTeam r.1 tid { t with windows := t.windows.filter fun x => decide (x.off ≠ w.off) }) g)
      | _, _ => .error (.fault .noIssuer)

def execSunmap (o : BitVec 5) (s : State) : Out := finish (sunmapStep s o)

end Sys2Proof.Machine
end

