-- ==== Sys2Proof/Machine/Barrier.lean ====
section
/-! DEFINITION. Team barriers (R360 to R362), transaction barriers (R363 to R366), kill-deferred regions (R378) and release waves
(R379). -/

namespace Sys2Proof.Machine

/-! ### Team barriers -/

def barIdx (b : BitVec 4) : Fin 16 := ⟨b.toNat, b.isLt⟩

/-- A thread that a team barrier holds goes on once its phase has opened and its wave has left (R361, R379). -/
def barHeld (s : State) (g : Group) (t : Team) (b : BitVec 4) (ph : BitVec 16) : Bool :=
  inWave s s.cur.group g.core || t.bars[barIdx b].phase == ph

/-- The arrival of R362 and what follows it: BAR.SYNC waits for the phase it arrived in. -/
def barCount (s : State) (g : Group) (tid : Nat) (t : Team) (sync : Bool) (b : BitVec 4) (n : BitVec 6) : R State := do
  let x := t.bars[barIdx b]
  need s (x.m = 0 || decide (x.n = n.toNat))
  let x' := { x with n := if x.m = 0 then n.toNat else x.n, m := x.m + 1, last := x.last.set! (g.gid % 32) (some x.phase) }
  let s' := checkBar (setTeam s tid { t with bars := t.bars.set (barIdx b) x' }) tid (barIdx b)
  let opened := match mget s'.teams tid with
    | some t' => t'.bars[barIdx b].phase != x.phase
    | none => true
  if sync && !opened then .error (.hold s' (.bar b x.phase true)) else .ok (doneNow s')

/-- The arrival of a group that has arrived in the open phase already waits for the next one, whichever of its threads arrived (R362). -/
def barArrive (s : State) (g : Group) (tid : Nat) (t : Team) (sync : Bool) (b : BitVec 4) (n : BitVec 6) : R State :=
  let x := t.bars[barIdx b]
  if x.last[g.gid % 32]! = some x.phase then .error (.hold s (.bar b x.phase false)) else barCount s g tid t sync b n

/-- BAR.SYNC and BAR.ARRIVE (R362). -/
def barStep (s : State) (sync : Bool) (b : BitVec 4) (n : BitVec 6) : R State := do
  let g ← issuer s
  let (tid, t) ← issuerTeam s g
  match issueWait s g with
  | some (.bar _ ph true) => if barHeld s g t b ph then .error (.stall s) else .ok (done s g)
  | some (.bar _ ph false) => if barHeld s g t b ph then .error (.stall s) else barArrive s g tid t sync b n
  | _ => do
    need s (decide (n.toNat ≤ t.ngrp))
    barArrive s g tid t sync b n

def execBarSync (b : BitVec 4) (n : BitVec 6) (s : State) : Out := finish (barStep s true b n)
def execBarArrive (b : BitVec 4) (n : BitVec 6) (s : State) : Out := finish (barStep s false b n)

/-- BAR.WAIT (R362). -/
def barWaitStep (s : State) (b : BitVec 4) : R State := do
  let g ← issuer s
  let (_, t) ← issuerTeam s g
  match issueWait s g with
  | some (.bar _ ph _) => if barHeld s g t b ph then .error (.stall s) else .ok (done s g)
  | _ =>
    let x := t.bars[barIdx b]
    match x.last[g.gid % 32]! with
    | none => illegal s
    | some ph => if ph = x.phase then .error (.hold s (.bar b ph true)) else .ok (done s g)

def execBarWait (b : BitVec 4) (s : State) : Out := finish (barWaitStep s b)

/-! ### Transaction barriers -/

/-- The checks of R363 on an offset; the barrier's line must not be filling, nor have an access of the group's sequencer operations to come (R342, R123). -/
def tbarCheck (s : State) (tid : Nat) (t : Team) (a : DWord) : R Nat :=
  let off := a.toNat
  if off % 16 ≠ 0 then .error (stopTrap s 2 a)
  else if !t.inRange off 16 then .error (stopTrap s 9 a)
  else if (windowAt t off).isSome then illegal s
  else if anySpilled t [off / 256] || seqPending s t.core s.cur.group tid [off / 256] then .error (.stall s) else .ok off

/-- A TBAR minor: its registers ready, its offset checked. -/
def tbarReady (s : State) (a : BitVec 5) (reads writes : List Nat) : R (Group × Nat × Team × Nat) := do
  let g ← issuer s
  let (tid, t) ← issuerTeam s g
  useW s g (a.toNat :: reads) writes
  let off ← tbarCheck s tid t (g.rdW a.toNat)
  .ok (g, tid, t, off)

/-- TBAR.INIT (R365). -/
def tbarInitStep (s : State) (r a : BitVec 5) : R State := do
  let (g, tid, _, off) ← tbarReady s a [r.toNat] []
  let v := g.rdW r.toNat
  need s (decide (v.toNat < 2 ^ 20))
  let n := BitVec.ofNat 20 v.toNat
  .ok (doneNow (updTbar s tid off fun _ => { phase := 0, arrivals := n, sectors := 0, acks := 0, reload := n, err := false }))

def execTbarInit (r a : BitVec 5) (s : State) : Out := finish (tbarInitStep s r a)

/-- TBAR.EXPECT (R365). -/
def tbarExpectStep (s : State) (r a : BitVec 5) : R State := do
  let (g, tid, _, off) ← tbarReady s a [r.toNat] []
  let v := g.rdW r.toNat
  need s (decide (v.toNat < 2 ^ 32))
  .ok (doneNow (updTbar s tid off fun b => { b with sectors := b.sectors + v.truncate 32 }))

def execTbarExpect (r a : BitVec 5) (s : State) : Out := finish (tbarExpectStep s r a)

/-- TBAR.ARRIVE (R365). -/
def tbarArriveStep (s : State) (d : Option (BitVec 5)) (a : BitVec 5) : R State := do
  let (g, tid, t, off) ← tbarReady s a [] (d.map (·.toNat)).toList
  let b := t.tbar off
  need s (b.arrivals != 0)
  let g' := match d with
    | none => g
    | some r => g.wrW r.toNat (b.phase.zeroExtend 64)
  .ok (updTbar (done s g') tid off fun b => { b with arrivals := b.arrivals - 1 }.complete)

def execTbarArrive (d : Option (BitVec 5)) (a : BitVec 5) (s : State) : Out := finish (tbarArriveStep s d a)

/-- The result of TBAR.WAIT (R366). -/
def tbarResult (s : State) (g : Group) (d : Option (BitVec 5)) (b : TBar) : State :=
  done s (match d with
    | none => g
    | some r => g.wrW r.toNat (u64 ((if b.err then 1 else 0) + 16 * b.phase.toNat)))

/-- TBAR.WAIT (R366); its read of the barrier touches the line (R342). -/
def tbarWaitStep (s : State) (d : Option (BitVec 5)) (p a : BitVec 5) : R State := do
  let (g, tid, t, off) ← tbarReady s a [p.toNat] (d.map (·.toNat)).toList
  let b := t.tbar off
  let ph : BitVec 4 := (g.rdW p.toNat).truncate 4
  let s' := setTeam s tid (t.touch s.tick [off / 256])
  match issueWait s g with
  | some (.tbar _ _) =>
    if inWave s s.cur.group g.core || b.phase == ph then .error (.stall s) else .ok (tbarResult s' g d b)
  | _ => if b.phase = ph then .error (.hold s' (.tbar off ph)) else .ok (tbarResult s' g d b)

def execTbarWait (d : Option (BitVec 5)) (p a : BitVec 5) (s : State) : Out := finish (tbarWaitStep s d p a)

/-- Remove the first occurrence of a pair. -/
def dropFirst (x : Nat × Nat) : List (Nat × Nat) → List (Nat × Nat)
  | [] => []
  | y :: l => if y = x then l else y :: dropFirst x l

/-- TBAR.ACK (R365): one acknowledgement leaves for a team of the grid. -/
def tbarAckStep (s : State) (r a : BitVec 5) : R State := do
  let (g, tid, t, off) ← tbarReady s a [r.toNat] []
  let v := g.rdW r.toNat
  need s (decide (v.toNat < t.nteam.toNat))
  match s.teams.find? fun p => decide (p.2.grid = t.grid) && decide (p.2.index = v) with
  | none => .ok (done s g)
  | some (sid, _) =>
    let s := setTeam s tid { t with unacked := dropFirst (sid, off) t.unacked }
    .ok (done { s with acks := s.acks ++ [{ team := sid, off := off }] } g)

def execTbarAck (r a : BitVec 5) (s : State) : Out := finish (tbarAckStep s r a)

/-- ACK_RECEIVE (R365): the acknowledgement lowers ACKS at the sender; one for a retired team does nothing, and one for a line
that is spilled, or of a core whose clocks stand, waits (R342, R429). -/
def execAckReceive (n : Nat) (s : State) : Out :=
  .next (match s.acks[n]? with
    | none => s
    | some k =>
      if (mget s.teams k.team).any fun t => anySpilled t [k.off / 256] || clocksStopped s t.core then s
      else updTbar { s with acks := s.acks.eraseIdx n } k.team k.off fun b => { b with acks := b.acks - 1 }.complete)

/-! ### Kill-deferred regions -/

/-- Set or clear KOFF (R378); a BARRIER minor of 8 or more is gated by JOIN (Table 10.3). -/
def koffStep (s : State) (on : Bool) : R State := do
  let g ← issuer s
  need s (feature s g 3)
  .ok (done s { g with gstat := if on then g.gstat ||| 0x100000#64 else g.gstat &&& ~~~0x100000#64 })

def execKilloff (s : State) : Out := finish (koffStep s true)
def execKillon (s : State) : Out := finish (koffStep s false)

/-! ### Release waves -/

/-- WAVE and GAP of CSLR (Table 19.5). -/
def waveOf (cslr : Word) : Nat := cslr.toNat % 64 + 1
def gapOf (cslr : Word) : Nat := cslr.toNat / 256 % 256

/-- RELEASE_WAVE (R379): at most WAVE groups leave, GAP lc after the wave before, in a later lc even where GAP is 0 (R435), and none
while the clocks of the cluster stand (R429). -/
def releaseWave (s : State) (cl : Nat) : State :=
  let c := clusterOf s cl
  let ready := match c.lastWave with
    | none => true
    | some t => decide (t + max 1 (gapOf c.cslr) ≤ c.cycle)
  if ready && !c.relocking && !c.waveQ.isEmpty then
    setCluster s cl { c with waveQ := c.waveQ.drop (waveOf c.cslr), lastWave := some c.cycle }
  else s

def execReleaseWave (cluster : Nat) (s : State) : Out := .next (releaseWave s cluster)

end Sys2Proof.Machine
end

