-- ==== Sys2Proof/Machine/Join.lean ====
section
/-! DEFINITION. The JOIN minors (15_barrier_and_join.md R367, R372, R373, R376). -/

namespace Sys2Proof.Machine

/-- The address checks of R367 and the translation of a join's address (R400): its index and translation. -/
def joinFind (s : State) (ctx core : Nat) (a : DWord) : Except TrapInfo (Nat × Trans) :=
  let trap (cause : Nat) : Except TrapInfo (Nat × Trans) := .error { cause := cause, haddr := a, access := 0 }
  match mget s.contexts ctx with
  | none => trap 4
  | some c =>
    if a.toNat % 64 ≠ 0 then trap 2
    else if a.toNat < c.joinwin + 64 ∨ c.joinwin + 2 ^ 30 ≤ a.toNat then trap 4
    else match translate s ctx (agentOf core) 0 a .rmw with
      | .error f => .error { cause := f.cause, haddr := a, access := f.access }
      | .ok t =>
        if t.kind = .remote then trap 4
        else if (paRange t.pa 64).any (badByte s) then trap 10
        else .ok ((a.toNat - c.joinwin) / 64, t)

/-- The join of a JOIN minor, or its trap. -/
def joinAt (s : State) (g : Group) (a : DWord) : R (Nat × Trans) :=
  match joinFind s g.ctx g.core a with
  | .ok r => .ok r
  | .error t => .error (.trap s t s.cur.mask)

/-- A JOIN minor: gated by JOIN, its registers ready, its object found. -/
def joinReady (s : State) (j : BitVec 5) (reads writes : List Nat) : R (Group × Nat × Trans) := do
  let g ← issuer s
  need s (feature s g 3)
  useW s g (j.toNat :: reads) writes
  let r ← joinAt s g (g.rdW j.toNat)
  .ok (g, r.1, r.2)

/-- The join that an arm makes of the parameter word (R372). -/
def armed (j : Join) (p : DWord) : Join :=
  let n := slice p 0 16
  { j with epoch := (j.epoch + 1) % 256, state := 1, err := false, n := n, mode := slice p 32 4,
           need := ceilDiv (n * slice p 16 8) (slice p 24 8), m := 0, wa := 0, acc := 0, result := 0 }

/-- The parameter word of an arm is legal (R372). -/
def armOk (p : DWord) : Bool :=
  decide (p.toNat < 2 ^ 36) && slice p 0 16 ≠ 0 && slice p 16 8 ≠ 0 && decide (slice p 16 8 ≤ slice p 24 8)

/-- The handle that JOIN.ARM gives of an object as it finds it, 0 when the join is ARMED (R372). -/
def armHandle (j : Join) (index : Nat) (p : DWord) : Nat := if j.armed then 0 else (armed j p).epoch * 2 ^ 24 + index

/-- JOIN.ARM at the home slice (R372, R369). -/
def armJoin (s : State) (who : Agent) (grp : Option Nat) (t : Trans) (p : DWord) : State :=
  let j := readJoin s t
  let s := seeBytes s grp (fieldBytes t stateField)
  if j.armed then s else writeJoin s who grp t armFields (armed j p)

/-- JOIN.ARM (R372). -/
def joinArmStep (s : State) (d : Option (BitVec 5)) (p j : BitVec 5) : R State := do
  let g ← issuer s
  need s (feature s g 3)
  useW s g [j.toNat, p.toNat] (d.map (·.toNat)).toList
  need s (armOk (g.rdW p.toNat))
  let (index, t) ← joinAt s g (g.rdW j.toNat)
  let s' := done s (match d with
    | none => g
    | some h => g.wrW h.toNat (u64 (armHandle (readJoin s t) index (g.rdW p.toNat))))
  .ok (armJoin s' (agentOf g.core) (some s.cur.group) t (g.rdW p.toNat))

def execJoinArm (d : Option (BitVec 5)) (p j : BitVec 5) (s : State) : Out := finish (joinArmStep s d p j)

/-- The contribution of R373 from the issuing threads. -/
def contribF (g : Group) (lanes : List (Fin 32)) (c : BitVec 7) : FVal :=
  if isUni c then unpackF f32 (slice (g.rdW (uniIdx c)) 0 32)
  else (lanes.map fun l => unpackF f32 (g.rdLane l c).1.toNat).foldl sumX (.fin true 0 0)

def contribI (g : Group) (lanes : List (Fin 32)) (c : BitVec 7) : Int :=
  if isUni c then (g.rdW (uniIdx c)).toInt else (lanes.map fun l => (g.rdLane l c).1.toInt).sum

/-- The accumulator after a contribution. -/
def accAfter (j : Join) (g : Group) (lanes : List (Fin 32)) (c : BitVec 7) : Nat :=
  if j.int64 then wrapN (s64 j.acc + contribI g lanes c) 64 else accF j.acc (contribF g lanes c)

/-- The log entry of a counted arrival (R373): written at the home slice, or a fault record of SOURCE 7. -/
def logEntry (s : State) (g : Group) (j : Join) (v : DWord) : State :=
  if j.log = 0 ∨ j.logcap ≤ j.m then s
  else
    let va := u64 (j.log + 8 * j.m)
    let fail (cause : Nat) (access : Nat) : State := postRecord s g.ctx
      { source := 7, cause := cause, access := access, vaddr := va, group := handleOf g, hcause := 0, hpc := 0, detail := 0 }
    match translate s g.ctx (agentOf g.core) 0 va .write with
    | .error f => fail f.cause f.access
    | .ok t =>
      if t.kind = .trimmed ∨ t.kind = .remote then fail 4 2
      else
        let cells := unitCells t (leList v.toNat 8)
        seeBytes (publish s (agentOf g.core) (some s.cur.group) (some .dev) .dev (keySerial s t.key) cells) (some s.cur.group) (cells.map (·.1))

/-- A counted arrival at the home slice, once the Publish before it is complete (R373, R374). -/
def joinCount (s : State) (g : Group) (index : Nat) (t : Trans) (i : BitVec 5) (c : BitVec 7) : State :=
  let grp := some s.cur.group
  let jo := readJoin s t
  let j' := { jo with m := jo.m + 1, wa := (jo.wa + g.weight.toNat) % 2 ^ 32, acc := accAfter jo g (cohort s) c }
  let s := seeBytes (done s { g with joinArrived := true }) grp (paRange t.pa 64)
  let s := logEntry (writeJoin s (agentOf g.core) grp t countFields j') g jo (g.rdW i.toNat)
  if j'.m = j'.need then releaseJoin s (agentOf g.core) grp g.ctx index t j' else s

/-- The fields that decide whether an arrival is counted. -/
def countedBy : List (Nat × Nat) := [(0, 4), (6, 2), (8, 2)]

/-- JOIN.ARRIVE (R373). The Publish of a counted arrival waits for the stash writes of the group's sequencer operations (R236, R123; log
entry 119), and may stop at a MIGRATING page; the arrival then waits for it (R403). -/
def joinArriveStep (s : State) (i : BitVec 5) (c : BitVec 7) (j : BitVec 5) : R State := do
  let g ← issuer s
  need s (feature s g 3)
  let vs := (g.vname c).toList
  let us := if isUni c then [uniIdx c] else []
  scoreboard s g vs ([j.toNat, i.toNat] ++ us)
  filled s g vs
  readyU s g ([j.toNat, i.toNat] ++ us)
  raiseBy (freeBadBy s g (cohort s) vs) ((cohort s).map fun l => (l, badRead g l vs))
  let (index, t) ← joinAt s g (g.rdW j.toNat)
  need s (decide (joinIndex g.join = index))
  let g := (g.orFlags 0 ((cohort s).any fun l => (g.rdLane l c).2)).touchNames s.tick vs []
  let jo := readJoin s t
  if !jo.armed || decide (joinEpoch g.join ≠ jo.epoch) || g.joinArrived || g.detached || decide (jo.m = jo.need) then
    .ok (seeBytes (done s g) (some s.cur.group) (fieldBytes t countedBy))
  else do
    stallIf s (stashLeft s g.core s.cur.group)
    let r := publishGroup (setGroup s s.cur.group g) s.cur.group .dev
    if r.2.2 then .error (.hold r.1 (.page none))
    else
      match mget r.1.groups s.cur.group with
      | none => .error (.fault .noIssuer)
      | some g => .ok (joinCount r.1 g index t i c)

def execJoinArrive (i : BitVec 5) (c : BitVec 7) (j : BitVec 5) (s : State) : Out := finish (joinArriveStep s i c j)

/-- JOIN.WAIT (R376): on completion it refreshes at .dev. -/
def joinWaitStep (s : State) (j : BitVec 5) : R State := do
  let (g, index, t) ← joinReady s j [] []
  let held := (readJoin s t).armed
  let s' := seeBytes s (some s.cur.group) (fieldBytes t stateField)
  match issueWait s g with
  | some (.join _) =>
    if inWave s s.cur.group g.core || held then .error (.stall s') else .ok (doneNow (refreshGroup s' s.cur.group .dev))
  | _ => if held then .error (.hold s' (.join index)) else .ok (doneNow (refreshGroup s' s.cur.group .dev))

def execJoinWait (j : BitVec 5) (s : State) : Out := finish (joinWaitStep s j)

/-- The word JOIN.READ writes (R376). -/
def joinWord (j : Join) (sel : BitVec 2) : DWord :=
  match sel with
  | 0 => u64 (leNat ((joinBytes j).take 4) + j.m * 2 ^ 32 + j.need * 2 ^ 48)
  | 1 => u64 j.result
  | 2 => u64 (j.w + j.wa * 2 ^ 32)
  | 3 => u64 j.acc

/-- The fields that JOIN.READ reads. -/
def joinFields (sel : BitVec 2) : List (Nat × Nat) :=
  match sel with
  | 0 => [(0, 4), (6, 2), (8, 2)]
  | 1 => [(0x28, 8)]
  | 2 => [(0x10, 4), (0x14, 4)]
  | 3 => [(0x18, 8)]

/-- JOIN.READ (R376). -/
def joinReadStep (s : State) (d : BitVec 5) (sel : BitVec 2) (j : BitVec 5) : R State := do
  let (g, _, t) ← joinReady s j [] [d.toNat]
  .ok (seeBytes (done s (g.wrW d.toNat (joinWord (readJoin s t) sel))) (some s.cur.group) (fieldBytes t (joinFields sel)))

def execJoinRead (d : BitVec 5) (sel : BitVec 2) (j : BitVec 5) (s : State) : Out := finish (joinReadStep s d sel j)

/-- JOIN.CANCEL (R376). -/
def joinCancelStep (s : State) (j : BitVec 5) : R State := do
  let (g, index, t) ← joinReady s j [] []
  let jo := readJoin s t
  let s := seeBytes (done s g) (some s.cur.group) (fieldBytes t stateField)
  .ok (if jo.armed then
      settleJoin (writeJoin s (agentOf g.core) (some s.cur.group) t stateField { jo with state := 3, result := 0 }) g.ctx index jo.epoch jo.detach
    else s)

def execJoinCancel (j : BitVec 5) (s : State) : Out := finish (joinCancelStep s j)

end Sys2Proof.Machine
end

