-- ==== Sys2Proof/Machine/Lane.lean ====
section
/-! DEFINITION. Lane operations (R56, R57, R177 to R181). -/

namespace Sys2Proof.Machine

/-- Every live thread of the group has reached this instruction (R56). -/
def converged (g : Group) (i : Issue) : Bool :=
  allLanes.all fun l => !g.threads[l].live || (g.threads[l].ov == i.ov && g.threads[l].pc == i.pc)

/-- The issue with every live thread of the group as its cohort; until all have arrived, the wait of R56. -/
def converge (s : State) : R State := do
  let g ← issuer s
  if converged g s.cur then .ok { s with cur := { s.cur with mask := g.liveMask } } else .error (.hold s .convergence)

/-- val[0..31] of R177. -/
def laneVals (g : Group) (a : BitVec 7) (idv : Word) : List Word :=
  allLanes.map fun l => if g.threads[l].live then (g.rdLane l a).1 else idv

/-- The identity that b names (R177): its low 32 bits, or the value of the lowest live lane. -/
def laneIdv (g : Group) (b : BitVec 7) : Word :=
  match lowestLane g.liveMask with
  | some l => (g.rdLane l b).1
  | none => 0

/-- A lane operation that writes vector registers: `f` gives a lane's results from the lane values and its own b. -/
def laneStep (s : State) (o : A3) (dests : List (BitVec 7)) (idv : Group → Word)
    (f : List Word → Fin 32 → Word → List Word) : R State := do
  let s ← converge s
  let g ← issuer s
  let g' ← vecOn s g (cohort s) [(o.a, o.la), (o.b, o.lb)] dests fun i l =>
    { vals := f (laneVals g o.a (idv g)) i (arg l 1), flags := 0 }
  .ok (done s g')

/-- The lane LSHF takes its value from (R178). -/
def lshfSrc (f : BitVec 2) (i : Fin 32) (b : Word) : Nat :=
  match f with
  | 0 => b.toNat % 32
  | 1 => (i.val + 32 - b.toNat % 32) % 32
  | 2 => i.val ^^^ (b.toNat % 32)
  | 3 => 31 - i.val

def execLshf (f : BitVec 2) (o : A3) (s : State) : Out :=
  finish (laneStep s o [o.d] (fun g => if f = 3 then laneIdv g o.b else 0) fun vs i b => [arg vs (lshfSrc f i b)])

def sminW (x y : Word) : Word := if x.toInt ≤ y.toInt then x else y
def smaxW (x y : Word) : Word := if x.toInt ≤ y.toInt then y else x
def uminW (x y : Word) : Word := if x.toNat ≤ y.toNat then x else y

/-- LRED results (R179). -/
def lredV (f : BitVec 2) (vs : List Word) : List Word :=
  match f with
  | 0 => [vs.foldl (· + ·) 0]
  | 1 => [vs.tail.foldl sminW (arg vs 0)]
  | 2 => [vs.tail.foldl smaxW (arg vs 0)]
  | 3 => let m := vs.tail.foldl uminW (arg vs 0); [m, BitVec.ofNat 32 (vs.findIdx (· == m))]

def execLred (f : BitVec 2) (o : A3) (s : State) : Out :=
  finish (laneStep s o (if f = 3 then [o.d, o.d + 1] else [o.d]) (laneIdv · o.b) fun vs _ _ => lredV f vs)

/-- LSCAN results of a lane (R180). -/
def lscanV (f : BitVec 2) (vs : List Word) (i : Fin 32) : Word :=
  match f with
  | 0 => (vs.take (i.val + 1)).foldl (· + ·) 0
  | 1 => (vs.take i.val).foldl (· + ·) 0
  | _ => ((vs.take (i.val + 1)).tail).foldl smaxW (arg vs 0)

def execLscan (f : BitVec 2) (o : A3) (s : State) : Out :=
  finish (laneStep s o [o.d] (laneIdv · o.b) fun vs i _ => [lscanV f vs i])

/-- Votes: the predicate of each live lane, `dflt` for an exited lane (R181). -/
def voteVals (g : Group) (k : Nat) (dflt : Bool) : List Bool :=
  allLanes.map fun l => if g.threads[l].live then g.threads[l].k.getLsbD k else dflt

/-- The mask of a list of bits, lane 0 first. -/
def ballotOf (vs : List Bool) : DWord := u64 (vs.foldr (fun b n => (if b then 1 else 0) + 2 * n) 0)

/-- VOTE (R181, Table 6.25). -/
def voteStep (s : State) (f : BitVec 2) (k : BitVec 3) (d : BitVec 7) : R State := do
  let s ← converge s
  let g ← issuer s
  match f with
  | 0 => .ok (done s { g with q := g.q.set! (d.toNat % 8) (ballotOf (voteVals g k.toNat false)) })
  | 1 => .ok (done s (g.onLanes s.cur.mask fun _ t => { t with k := setBit8 t.k (d.toNat % 8) ((voteVals g k.toNat false).any id) }))
  | 2 => .ok (done s (g.onLanes s.cur.mask fun _ t => { t with k := setBit8 t.k (d.toNat % 8) ((voteVals g k.toNat true).all id) }))
  | 3 => do
    let g' ← vecOn s g (cohort s) [] [d] fun _ _ => .val (BitVec.ofNat 32 ((voteVals g k.toNat false).filter id).length)
    .ok (done s g')

def execVote (f : BitVec 2) (k : BitVec 3) (d : BitVec 7) (s : State) : Out := finish (voteStep s f k d)

end Sys2Proof.Machine
end

