-- ==== Sys2Proof/Machine/Flow.lean ====
section
/-! DEFINITION. Branches and flow control inside an overlay (06_ref_integer_lane_control.md R76, R173 to R187). -/

namespace Sys2Proof.Machine

/-! ### Branches -/

/-- Size of the image of an overlay of a context (R65, R76). -/
def imageSize (s : State) (ctx ov : Nat) : Nat :=
  match overlayOf s ctx ov with
  | some (_, _, o) => o.size
  | none => 0

/-- Target of a B-form branch as a byte offset in its overlay (R76). -/
def branchTarget (i : Issue) (off : BitVec 18) : Int := i.pc.toNat + 2 * off.toInt

/-- A taken branch's target lies inside the image, or the trap of R76 names the threads that take it. -/
def checkTarget (s : State) (g : Group) (t : Int) (taken : BitVec 32) : R (BitVec 32) :=
  if 0 ≤ t ∧ t < imageSize s g.ctx s.cur.ov.toNat then .ok (BitVec.ofInt 32 t)
  else .error (.trap s { cause := 6, haddr := BitVec.ofInt 64 t, access := 0 } taken)

/-- Threads of a mask continue at an offset of the overlay they are in. -/
def Group.goTo (g : Group) (m : BitVec 32) (pc : BitVec 32) : Group := g.onLanes m fun _ t => { t with pc := pc, wait := none }

/-- BR (R173). -/
def brStep (s : State) (off : BitVec 18) : R State := do
  let g ← issuer s
  let t ← checkTarget s g (branchTarget s.cur off) s.cur.mask
  .ok (setGroup s s.cur.group (g.goTo s.cur.mask t))

def execBr (off : BitVec 18) (s : State) : Out := finish (brStep s off)

/-- Threads of the issue whose predicate differs from `sense` (R174). -/
def takenMask (s : State) (g : Group) (sense : Bool) (k : BitVec 3) : BitVec 32 :=
  maskOf ((cohort s).filter fun l => g.threads[l].k.getLsbD k.toNat != sense)

/-- BRC (R174). -/
def brcStep (s : State) (off : BitVec 18) (sense : Bool) (k : BitVec 3) : R State := do
  let g ← issuer s
  let taken := takenMask s g sense k
  if taken = 0 then .ok (done s g)
  else
    let t ← checkTarget s g (branchTarget s.cur off) taken
    .ok (setGroup s s.cur.group ((g.advance s.cur).goTo taken t))

def execBrc (off : BitVec 18) (sense : Bool) (k : BitVec 3) (s : State) : Out := finish (brcStep s off sense k)

/-- RWIN after a taken BRLOOP: CNT goes up by 1 modulo S (R49, R175). -/
def rotated (rwin : Word) : Word := (rwin &&& ~~~0x1F#32) ||| u32 ((rwin.toNat % 32 + 1) % rwinSpan rwin)

/-- BRLOOP (R175): uniform, once per issue. -/
def brloopStep (s : State) (off : BitVec 18) (w : BitVec 5) : R State := do
  let g ← issuer s
  useW s g [w.toNat] [w.toNat]
  let v := g.rdW w.toNat - 1
  if v = 0 then .ok (done s (g.wrW w.toNat v))
  else
    let t ← checkTarget s g (branchTarget s.cur off) s.cur.mask
    .ok (setGroup s s.cur.group ({ g.wrW w.toNat v with rwin := rotated g.rwin }.goTo s.cur.mask t))

def execBrloop (off : BitVec 18) (w : BitVec 5) (s : State) : Out := finish (brloopStep s off w)

/-- Push the return point of an issue (R176, Table 13.4). -/
def Group.push (g : Group) (i : Issue) : Group :=
  { g with stack := { mask := i.mask, ov := i.ov, off := i.next.truncate 16 } :: g.stack }.setDepth

/-- The trap of a full return stack (R176). -/
def checkDepth (s : State) (g : Group) : R Unit := if 256 ≤ g.stack.length then .error (stopTrap s 11 256) else .ok ()

/-- CALL (R176). -/
def callStep (s : State) (off : BitVec 18) : R State := do
  let g ← issuer s
  checkDepth s g
  let t ← checkTarget s g (branchTarget s.cur off) s.cur.mask
  .ok (setGroup s s.cur.group ((g.push s.cur).goTo s.cur.mask t))

def execCall (off : BitVec 18) (s : State) : Out := finish (callStep s off)

/-! ### EXIT, TRAP, RTH, NRET, YIELD, NOP -/

/-- NCAUSE is 0 once no live thread stands inside the notice handler (R185; an exit of the last one too, log entry 21), and a Publish
that the notice met at a MIGRATING page goes on (R357). -/
def Group.leftNotice (g : Group) : Group :=
  if g.threads.toList.any fun t => t.live && t.inNotice then g
  else { g with ncause := 0, publishing := g.publishing.or g.heldPublish, heldPublish := none }

/-- EXIT (R182): in handler mode the group is killed; the last exit publishes at .sys. -/
def exitStep (s : State) : R State := do
  let g ← issuer s
  if g.handling then .ok (killGroup s s.cur.group)
  else
    let g' := (g.onLanes s.cur.mask fun _ t => { t with live := false, inNotice := false, wait := none }).leftNotice
    let s' := setGroup s s.cur.group g'
    .ok (if g'.liveMask = 0 then startPublish s' s.cur.group .sys none true else s')

def execExit (s : State) : Out := finish (exitStep s)

/-- TRAP (R183). -/
def execTrap (code : BitVec 7) (s : State) : Out := finish (.error (stopTrap s 8 (code.zeroExtend 64)))

/-- RTH (R184): outside handler mode, cause 0x0C. -/
def rthStep (s : State) : R State := do
  let g ← issuer s
  if g.handling then .ok (enterOverlays (setGroup s s.cur.group { g.leaveHandler with st := .active }) s.cur.group) else denied s

def execRth (s : State) : Out := finish (rthStep s)

/-- A thread back from a notice handler, at its NPC and in the wait it was in (R185, R357). -/
def Thread.fromNotice (t : Thread) : Thread :=
  { t with pc := t.npc, ov := t.npcOv, copy := none, wait := t.npcWait, npcWait := none, inNotice := false }

/-- NRET (R185). -/
def nretStep (s : State) : R State := do
  let g ← issuer s
  need s (g.ncause != 0)
  .ok (enterOverlays (setGroup s s.cur.group (g.onLanes s.cur.mask fun _ t => t.fromNotice).leftNotice) s.cur.group)

def execNret (s : State) : Out := finish (nretStep s)

/-- YIELD changes timing only (R186). -/
def execYield (s : State) : Out := finish do
  let g ← issuer s
  .ok (done s g)

/-- NOP (R187). -/
def execNop (s : State) : Out := finish do
  let g ← issuer s
  .ok (done s g)

end Sys2Proof.Machine
end

