-- ==== Sys2Proof/Machine/Overlay.lean ====
section
/-! DEFINITION. Overlay instructions and the events of the residency table (13_overlay.md R313 to R335). -/

namespace Sys2Proof.Machine

/-- The overlay id of a token, bound to a kernel of the context (R329). -/
def boundOv (s : State) (g : Group) (tok : DWord) : R Overlay :=
  match overlayOf s g.ctx (slice tok 0 16) with
  | some (_, _, o) => .ok o
  | none => .error (stopTrap s 6 0)

/-- The word of the entry table of a copy (R94, R331). -/
def entryWord (code : List Byte) (entry : Nat) : Nat := leNat ((code.drop (4 * entry)).take 4) % 65536

/-- The overlay-miss notice falls due before the target's first instruction (R328, R356). -/
def Group.missDue (g : Group) (miss : Bool) : Group := if miss then g.noticeDue 0x23 else g

/-- Threads of a group enter a copy of an overlay at an offset; the residency goes to the top of its order (R317, R319). -/
def enterOv (s : State) (gid : Nat) (g : Group) (m : BitVec 32) (r : Residency) (off : Nat) (miss : Bool) : State :=
  let g' := (g.onLanes m fun _ t =>
    { t with pc := BitVec.ofNat 32 off, ov := BitVec.ofNat 16 r.ov, copy := some r.transit, wait := none }).missDue miss
  setGroup (setCore s g.core (touchRes (coreOf s g.core) r)) gid g'

/-- The return stack after lanes have returned through its top entry (R332). -/
def Group.popFor (g : Group) (m : BitVec 32) : Group :=
  match g.stack with
  | [] => g
  | e :: l =>
    let left := e.mask &&& ~~~m &&& g.liveMask
    { g with stack := if left = 0 then l else { e with mask := left } :: l }.setDepth

/-- The return stack after lanes have returned through the entry that stood at a depth when their RET read it, where it still stands
(R332). -/
def Group.popAt (g : Group) (m : BitVec 32) (depth : Nat) (ov off : BitVec 16) : Group :=
  let i := g.stack.length - depth
  match g.stack[i]? with
  | none => g
  | some e =>
    let left := e.mask &&& ~~~m &&& g.liveMask
    if g.stack.length < depth ∨ e.ov ≠ ov ∨ e.off ≠ off then g
    else { g with stack := if left = 0 then g.stack.eraseIdx i else g.stack.set i { e with mask := left } }.setDepth

/-- The team's pin on a key (R318, R333). -/
def Team.pin (t : Team) (ov : Nat) : Team := { t with pins := if t.pins.contains ov then t.pins else t.pins ++ [ov] }

/-! ### Waits for an overlay -/

/-- The complete copy that ends a wait: OVPIN waits for the normal one (R333). -/
def resFor (c : Core) (ctx ov : Nat) (w : OvWait) : Option Residency :=
  match w with
  | .pin .. => (findRes c ctx ov false).filter fun r => decide (r.st = .resident)
  | _ => codeOf c ctx ov

/-- The threads of a group that wait as a given one does, at its place: those of one issue. -/
def Group.waitersLike (g : Group) (t : Thread) : BitVec 32 :=
  maskOf (allLanes.filter fun l => g.threads[l].live && decide (g.threads[l].wait = t.wait) && g.threads[l].pc == t.pc && g.threads[l].ov == t.ov)

/-- A wait for an overlay ends with a complete copy: a thread has its own overlay; OVCALL, OVJUMP and RET enter, with the notice of
a miss (R331, R332, R328); OVPIN pins (R333). -/
def goOn (s : State) (gid : Nat) (g : Group) (t : Thread) (w : OvWait) (r : Residency) : State :=
  let m := g.waitersLike t
  match w with
  | .own => setGroup s gid (g.onLanes m fun _ u => { u with copy := some r.transit, wait := none })
  | .enter call entry next token _ =>
    let g := match token with
      | some x => g.wrW x.toNat (tokenOf r)
      | none => g
    let g := if call then g.push { group := gid, mask := m, ov := t.ov, pc := t.pc, next := next, word := 0 } else g
    enterOv s gid g m r (entryWord r.code entry) true
  | .ret off depth => enterOv s gid (g.popAt m depth (BitVec.ofNat 16 r.ov) off) m r off.toNat true
  | .pin token next =>
    let s := match g.team.bind fun i => (mget s.teams i).map fun x => (i, x) with
      | some (tid, tm) => setTeam s tid (tm.pin r.ov)
      | none => s
    setGroup s gid ((g.wrW token.toNat (tokenOf r)).onLanes m fun _ u => { u with pc := next, wait := none })

/-- A group whose waits for an overlay can end: it is WAITING, RUNNING or in HANDLER, and no switch has stopped it (R279). -/
def Group.canGoOn (s : State) (g : Group) : Bool :=
  (match g.st with
    | .active => true
    | .handler => true
    | _ => false) && !switching s g.ctx

/-- Every wait of a group for an overlay that is now resident ends. -/
def settleOverlays (s : State) (gid : Nat) : State :=
  allLanes.foldl (fun s l => match mget s.groups gid with
    | none => s
    | some g => match g.threads[l].wait with
      | some (.overlay ov w) => match resFor (coreOf s g.core) g.ctx ov.toNat w with
        | some r => if g.threads[l].live && g.canGoOn s then goOn s gid g g.threads[l] w r else s
        | none => s
      | _ => s) s

/-- Tokens of OVCALL and OVJUMP whose residency has just been made (R331). -/
def giveTokens (s : State) (gid : Nat) (r : Residency) : State :=
  allLanes.foldl (fun s l => match mget s.groups gid with
    | none => s
    | some g => match g.threads[l].wait with
      | some (.overlay ov (.enter call entry next (some x) at')) =>
        if g.threads[l].live && decide (ov.toNat = r.ov) && decide (g.ctx = r.ctx) then
          setGroup s gid ((g.wrW x.toNat (tokenOf r)).onLanes (g.waitersLike g.threads[l]) fun _ u =>
            { u with wait := some (.overlay ov (.enter call entry next none at')) })
        else s
      | _ => s) s

/-- Tokens for every group of a core that waits for a key. -/
def giveAll (s : State) (core ctx ov : Nat) : State :=
  match lookupRes (coreOf s core) ctx ov with
  | none => s
  | some r => (groupsOn s core).foldl (fun s p => giveTokens s p.1 r) s

/-- Overlays that a group waits for and that have no residency (its OVPIN has made its own). -/
def Group.wanted (g : Group) : List Nat :=
  (g.threads.toList.filterMap fun t => match t.wait with
    | some (.overlay _ (.pin ..)) => none
    | some (.overlay ov _) => if t.live then some ov.toNat else none
    | _ => none).eraseDups

/-- An OVPIN whose normal copy is gone before it was pinned is executed again (R333, log entry 43). -/
def Group.pinLost (g : Group) (c : Core) (t : Thread) : Bool :=
  t.live && match t.wait with
    | some (.overlay ov (.pin ..)) => ((findRes c g.ctx ov.toNat false).filter (·.live)).isNone
    | _ => false

/-- The group with those OVPINs to issue again. -/
def Group.pinsAgain (g : Group) (c : Core) : Group :=
  g.onLanes (maskOf (allLanes.filter fun l => g.pinLost c g.threads[l])) fun _ t => { t with wait := none }

/-- A group's waits for an overlay as it would issue: those that are over end, and what is nowhere and not queued for is asked for
again (R324, R325). -/
def askOverlays (s : State) (gid : Nat) : State :=
  let s := settleOverlays s gid
  match mget s.groups gid with
  | none => s
  | some g => g.wanted.foldl (fun s ov =>
      if (coreOf s g.core).transitQ.contains (g.ctx, ov, gid) then s
      else giveAll (needOverlay s g.core g.ctx ov gid).1 g.core g.ctx ov) (setGroup s gid (g.pinsAgain (coreOf s g.core)))

/-! ### OVLOAD -/

/-- OVLOAD (R330): never waits, never uses transit. -/
def ovloadStep (s : State) (d : BitVec 5) (idx : BitVec 7) : R State := do
  let g ← issuer s
  useW s g [] [d.toNat]
  match mget s.kernels g.kernel with
  | none => .error (stopTrap s 6 0)
  | some k => match k.overlays[idx.toNat]? with
    | none => .error (stopTrap s 6 0)
    | some o =>
      let id := k.base + idx.toNat
      match lookupRes (coreOf s g.core) g.ctx id with
      | some r => .ok (done s (g.wrW d.toNat (tokenOf r)))
      | none => match (if (findRes (coreOf s g.core) g.ctx id true).isSome then none else allocate s g.core g.ctx id o.slots (handleOf g)) with
        | none => .ok (done s (g.wrW d.toNat (nullToken id)))
        | some s' => match findRes (coreOf s' g.core) g.ctx id false with
          | none => .ok (done s (g.wrW d.toNat (nullToken id)))
          | some r => .ok (done s' (g.wrW d.toNat (tokenOf r)))

def execOvload (d : BitVec 5) (idx : BitVec 7) (s : State) : Out := finish (ovloadStep s d idx)

/-! ### OVCALL, OVJUMP, RET -/

/-- OVCALL and OVJUMP (R331): the token is read and the table changed once; a copy that is not complete is waited for. -/
def oventerStep (s : State) (call : Bool) (t : BitVec 5) (entry : BitVec 7) : R State := do
  let g ← issuer s
  useW s g [t.toNat] [t.toNat]
  let tok := g.rdW t.toNat
  let o ← boundOv s g tok
  let id := slice tok 0 16
  if call then checkDepth s g
  if o.entries ≤ entry.toNat then .error (stopTrap s 6 (u64 (4 * entry.toNat)))
  else
    let enter (s : State) (g : Group) (r : Residency) : R State :=
      if r.st = .resident then
        .ok (enterOv s s.cur.group (if call then g.push s.cur else g) s.cur.mask r (entryWord r.code entry.toNat) false)
      else .error (.hold s (.overlay (BitVec.ofNat 16 id) (.enter call entry.toNat s.cur.next none s.tick)))
    match currentRes (coreOf s g.core) g.ctx tok with
    | some r => enter s g r
    | none =>
      let s' := (needOverlay s g.core g.ctx id s.cur.group).1
      match lookupRes (coreOf s' g.core) g.ctx id with
      | none => .error (.hold s' (.overlay (BitVec.ofNat 16 id) (.enter call entry.toNat s.cur.next (some t) s.tick)))
      | some r =>
        let g' := g.wrW t.toNat (tokenOf r)
        enter (setGroup s' s.cur.group g') g' r

def execOvcall (t : BitVec 5) (entry : BitVec 7) (s : State) : Out := finish (oventerStep s true t entry)
def execOvjump (t : BitVec 5) (entry : BitVec 7) (s : State) : Out := finish (oventerStep s false t entry)

/-- RET (R332). -/
def retStep (s : State) : R State := do
  let g ← issuer s
  match g.stack with
  | [] => .error (stopTrap s 11 0)
  | e :: _ =>
    let s' := (needOverlay s g.core g.ctx e.ov.toNat s.cur.group).1
    match codeOf (coreOf s' g.core) g.ctx e.ov.toNat with
    | none => .error (.hold s' (.overlay e.ov (.ret e.off g.stack.length)))
    | some r => .ok (enterOv s' s.cur.group (g.popFor s.cur.mask) s.cur.mask r e.off.toNat false)

def execRet (s : State) : Out := finish (retStep s)

/-! ### OVPIN, OVUNPIN, OVDROP, OVQUERY -/

/-- Pins that a team holds or waits to set (R318: at most 16 in all). -/
def pinsOf (s : State) (tid : Nat) (t : Team) : List Nat :=
  (t.pins ++ (teamGroups s tid).flatMap fun p => p.2.threads.toList.filterMap fun th => match th.wait with
    | some (.overlay ov (.pin ..)) => if th.live then some ov.toNat else none
    | _ => none).eraseDups

/-- OVPIN (R333): the team's pin is set and the token written once the normal copy is complete. -/
def ovpinStep (s : State) (t : BitVec 5) : R State := do
  let g ← issuer s
  let (tid, tm) ← issuerTeam s g
  useW s g [t.toNat] [t.toNat]
  let tok := g.rdW t.toNat
  let o ← boundOv s g tok
  let id := slice tok 0 16
  need s ((pinsOf s tid tm).contains id || decide ((pinsOf s tid tm).length < 16))
  let wait (s : State) : R State := .error (.hold s (.overlay (BitVec.ofNat 16 id) (.pin t s.cur.next)))
  match (findRes (coreOf s g.core) g.ctx id false).filter (·.live) with
  | some r => if r.st = .resident then .ok (done (setTeam s tid (tm.pin id)) (g.wrW t.toNat (tokenOf r))) else wait s
  | none => match allocate s g.core g.ctx id o.slots (handleOf g) with
    | none => .ok (done s (g.wrW t.toNat (nullToken id)))
    | some s' => wait s'

def execOvpin (t : BitVec 5) (s : State) : Out := finish (ovpinStep s t)

/-- OVUNPIN (R333). -/
def ovunpinStep (s : State) (t : BitVec 5) : R State := do
  let g ← issuer s
  let (tid, tm) ← issuerTeam s g
  useW s g [t.toNat] []
  let _ ← boundOv s g (g.rdW t.toNat)
  .ok (done (setTeam s tid { tm with pins := tm.pins.filter fun x => decide (x ≠ slice (g.rdW t.toNat) 0 16) }) g)

def execOvunpin (t : BitVec 5) (s : State) : Out := finish (ovunpinStep s t)

/-- The core after OVDROP of a key (R334). -/
def dropOv (s : State) (core ctx ov : Nat) : Core :=
  let c := coreOf s core
  match findRes c ctx ov false with
  | none => c
  | some r => if isIdle s core r then updRes c { r with st := .evicting } else if r.live then sinkRes c r else c

/-- OVDROP (R334). -/
def ovdropStep (s : State) (t : BitVec 5) : R State := do
  let g ← issuer s
  useW s g [t.toNat] []
  let _ ← boundOv s g (g.rdW t.toNat)
  .ok (done (setCore s g.core (dropOv s g.core g.ctx (slice (g.rdW t.toNat) 0 16))) g)

def execOvdrop (t : BitVec 5) (s : State) : Out := finish (ovdropStep s t)

/-- The state word of a key on a core (Table 13.6). -/
def ovWord (s : State) (core ctx : Nat) (tok : DWord) : DWord :=
  let c := coreOf s core
  let ov := slice tok 0 16
  let tr := findRes c ctx ov true
  let cur := if (currentRes c ctx tok).isSome then 8 else 0
  match (findRes c ctx ov false).or tr with
  | none => 0
  | some r => u64 (r.gen.toNat * 2 ^ 48 + r.handle * 2 ^ 32 + refCount s core r * 2 ^ 16 +
      (if r.transit then 0 else pinCount s core ctx ov) * 2 ^ 8 + (if tr.isSome then 16 else 0) + cur + resCode s core r)

/-- OVQUERY (R335). -/
def ovqueryStep (s : State) (d t : BitVec 5) : R State := do
  let g ← issuer s
  useW s g [t.toNat] [d.toNat]
  let _ ← boundOv s g (g.rdW t.toNat)
  .ok (done s (g.wrW d.toNat (ovWord s g.core g.ctx (g.rdW t.toNat))))

def execOvquery (d t : BitVec 5) (s : State) : Out := finish (ovqueryStep s d t)

/-! ### Loads -/

/-- The image of a residency as its load finds it now (R323). -/
def loadImage (s : State) (core : Nat) (r : Residency) : Except Miss (List Byte) :=
  match overlayOf s r.ctx r.ov with
  | none => .ok []
  | some (_, _, o) => imageBytes s core r.ctx (.overlay core r.ctx r.ov r.transit) o.va.toNat r.moment o.size

/-- Threads of a group that wait for an overlay, or stand placed before its first instruction; a PARKED group asks again when it is
resumed. -/
def Group.awaits (g : Group) (ov : Nat) : BitVec 32 :=
  let waits (t : Thread) : Bool := match t.wait with
    | some (.overlay x _) => decide (x.toNat = ov)
    | _ => false
  maskOf (allLanes.filter fun l => g.threads[l].live && match g.st with
    | .placed => decide (g.threads[l].ov.toNat = ov)
    | .active => waits g.threads[l]
    | .handler => waits g.threads[l]
    | _ => false)

/-- Those of them that wait on the load of one copy: OVPIN on the normal copy, and everything else on the copy that a call would use
(R313, R323). -/
def Group.awaitsCopy (g : Group) (c : Core) (r : Residency) : BitVec 32 :=
  let used := decide ((lookupRes c r.ctx r.ov).map (·.transit) = some r.transit)
  maskOf ((lanesOf (g.awaits r.ov)).filter fun l => match g.threads[l].wait with
    | some (.overlay _ (.pin ..)) => !r.transit
    | _ => used)

/-- A PLACED group starts in a copy of its entry overlay (Table 14.2). -/
def Group.startIn (g : Group) (r : Residency) : Group := { g.onLanes g.liveMask fun _ t => { t with copy := some r.transit } with st := .active }

/-- PLACED groups whose entry overlay is resident start (Table 14.2). -/
def startPlaced (s : State) (core : Nat) (r : Residency) : State :=
  { s with groups := s.groups.map fun p =>
      if p.2.core = core ∧ p.2.ctx = r.ctx ∧ p.2.st = .placed ∧ p.2.awaits r.ov ≠ 0 ∧ (ctxIssues s r.ctx && teamLoaded s p.2) = true then (p.1, p.2.startIn r) else p }

/-- A load that meets a page not present stalls, and posts one record for each access that stalls (R323, R405). -/
def stallLoad (s : State) (core : Nat) (r : Residency) (f : XFault) (va : Nat) : State :=
  if r.stalled = some va then s
  else postRecord (setCore s core (updRes (coreOf s core) { r with stalled := some va })) r.ctx
    { source := 3, cause := f.cause, access := f.access, vaddr := u64 va, group := r.by', hcause := 0, hpc := 0,
      detail := u64 (core + r.ov * 2 ^ 16) }

/-- The LOADING residency of a key. -/
def loadingRes (s : State) (core ctx ov : Nat) (transit : Bool) : Option Residency :=
  (findRes (coreOf s core) ctx ov transit).filter fun r => decide (r.st = .loading)

/-- OVERLAY_LOAD_DONE (R315): the residency is complete and goes to the top of the order; in the same step the groups that wait for
it enter it, or pin it. -/
def loadDone (s : State) (core ctx ov : Nat) (transit : Bool) : State :=
  match loadingRes s core ctx ov transit with
  | none => s
  | some r => match loadImage s core r with
    | .ok code =>
      let r' := { r with st := .resident, code := code, stalled := none }
      let s := startPlaced (setCore s core (touchRes (coreOf s core) r')) core r'
      dropFetched (((groupsOn s core).map (·.1)).foldl settleOverlays s) (.overlay core ctx ov transit)
    | .error (.far u t) => askPeer s ctx (.overlay core ctx ov transit) u t
    | .error (.fault f va) => if f.cause = 3 then stallLoad s core r f va else s

def execOverlayLoadDone (core ctx ov : Nat) (transit : Bool) (s : State) : Out := .next (loadDone s core ctx ov transit)

/-- Overlays that a group refers to (R317): those of its threads and its return points. -/
def Group.overlays (g : Group) : List Nat :=
  if g.st.ended then []
  else
    let inHandler := match g.st with
      | .handler => true
      | .parked h => h
      | _ => false
    ((g.threads.toList.filter (·.live)).flatMap fun t =>
      [t.ov.toNat] ++ (if inHandler then [t.savedOv.toNat] else []) ++ (if t.inNotice then [t.npcOv.toNat] else [])) ++
    g.stack.map fun e => e.ov.toNat

/-- A restored team of the group still reloads an overlay that the group refers to (R280). -/
def Group.reloads (s : State) (g : Group) (ov : Nat) : Bool :=
  (g.team.bind (mget s.teams)).any (·.reloading.contains ov) && g.overlays.contains ov

/-- An entry of the transit queue still waits: its group waits for an overlay that is nowhere, or its restored team reloads it (R324, R280). -/
def stillQueued (s : State) (core : Nat) (q : Nat × Nat × Nat) : Bool :=
  (mget s.groups q.2.2).any fun x => decide (x.core = core) && decide (x.ctx = q.1) && (x.awaits q.2.1 != 0 || x.reloads s q.2.1) &&
    (findRes (coreOf s core) q.1 q.2.1 false).isNone && (findRes (coreOf s core) q.1 q.2.1 true).isNone

/-- The transit queues without what waits no more, so that a group that asks anew stands behind those that came before it (R324, R325). -/
def settleTransit (s : State) : State :=
  { s with cores := s.cores.map fun p => (p.1, { p.2 with transitQ := p.2.transitQ.filter (stillQueued s p.1) }) }

/-- The first waiter of the transit queue that still waits has its load started (R324, R325). -/
def nextTransit (s : State) (core : Nat) : List (Nat × Nat × Nat) → State
  | [] => setCore s core { coreOf s core with transitQ := [] }
  | (ctx, ov, g) :: l =>
    match mget s.groups g, overlayOf s ctx ov with
    | some x, some (_, _, o) =>
      if stillQueued s core (ctx, ov, g) then
        giveAll (startLoad (setCore s core { coreOf s core with transitQ := l }) core ctx ov true ((List.range o.slots).map (40 + ·))
          (handleOf x)) core ctx ov
      else nextTransit s core l
    | _, _ => nextTransit s core l

/-- A residency is gone; a free transit region takes the next waiter. -/
def removeRes (s : State) (core : Nat) (r : Residency) : State :=
  let s := setCore s core (dropRes (coreOf s core) r.ctx r.ov r.transit)
  if r.transit then nextTransit s core (coreOf s core).transitQ else s

/-- The trap of a group whose lanes of `all` wait on a failed load, at the instruction that waits (R323). -/
def trapWaiter (s : State) (gid : Nat) (g : Group) (all : BitVec 32) (t : TrapInfo) : State :=
  match lowestLane all with
  | none => s
  | some l =>
    let th := g.threads[l]
    let m := maskOf ((lanesOf all).filter fun i => g.threads[i].pc == th.pc && g.threads[i].ov == th.ov)
    takeTrap s gid t m { s.cur with group := gid, mask := m, ov := th.ov, pc := th.pc, next := th.pc }

/-- The normal copy of an overlay that a restored team pins is loaded, where it is absent and there is room. -/
def reloadOv (by' : DWord) (t : Team) (s : State) (ov : Nat) : State :=
  match findRes (coreOf s t.core) t.ctx ov false, overlayOf s t.ctx ov with
  | none, some (_, _, o) => (allocate s t.core t.ctx ov o.slots by').getD s
  | _, _ => s

/-- The overlays that a restored team has to reload before it issues: its pins and what its groups refer to (R280, R318, Table 10.5). -/
def toReload (s : State) (tid : Nat) (t : Team) : List Nat := (t.pins ++ (teamGroups s tid).flatMap fun p => p.2.overlays).eraseDups

/-- The groups of a restored team ask for what they refer to, as for a miss: through normal slots, else through transit (R324). -/
def reloadRefs (tid : Nat) (t : Team) (s : State) : State :=
  (teamGroups s tid).foldl (fun s p => (p.2.overlays.eraseDups.filter t.reloading.contains).foldl (fun s ov =>
    (needOverlay s t.core t.ctx ov p.1).1) s) s

/-- An overlay of a restored team has been reloaded: the normal copy of one that it pins, any copy of another stands complete. One that no
kernel binds any more is not waited for. -/
def reloaded (s : State) (t : Team) (ov : Nat) : Bool :=
  let c := coreOf s t.core
  (overlayOf s t.ctx ov).isNone ||
    (if t.pins.contains ov then (findRes c t.ctx ov false).any fun r => decide (r.st = .resident) else (codeOf c t.ctx ov).isSome)

/-- A restored team's pins are established, and then the overlays that its groups refer to are reloaded, each of them before the team issues
(R280, R318, Table 10.5; log entry 43). -/
def reloadTeam (s : State) (tid : Nat) : State :=
  match mget s.teams tid with
  | none => s
  | some t =>
    let by' : DWord := ((teamGroups s tid).head?.map fun p => handleOf p.2).getD 0
    let pins := t.pins.filter t.reloading.contains
    let s := pins.foldl (reloadOv by' t) s
    let s := if pins.all fun ov => (findRes (coreOf s t.core) t.ctx ov false).isSome then reloadRefs tid t s else s
    setTeam s tid { t with reloading := t.reloading.filter fun ov => (toReload s tid t).contains ov && !reloaded s t ov }

/-- The restored teams of a core wait no more for an overlay whose load has failed: a thread that needs it meets the failure (R323). -/
def dropReload (s : State) (core ctx ov : Nat) : State :=
  { s with teams := s.teams.map fun p =>
      if p.2.core = core ∧ p.2.ctx = ctx then (p.1, { p.2 with reloading := p.2.reloading.filter fun x => decide (x ≠ ov) }) else p }

/-- HADDR of a failed load (R323, Table 6.32): the address that failed, or for cause 0x05 that of the image. -/
def failAddr (s : State) (r : Residency) (f : XFault) (va : Nat) : DWord :=
  match overlayOf s r.ctx r.ov with
  | some (_, _, o) => if f.cause = 5 then o.va else u64 va
  | none => u64 va

/-- OVERLAY_LOAD_FAIL (R323): the residency is ABSENT, and the groups that wait on the load trap. -/
def loadFail (s : State) (core ctx ov : Nat) (transit : Bool) : State :=
  match loadingRes s core ctx ov transit with
  | none => s
  | some r => match loadImage s core r with
    | .ok _ => s
    | .error (.far _ _) => s
    | .error (.fault f va) =>
      if f.cause = 3 then stallLoad s core r f va
      else
        let t : TrapInfo := { cause := f.cause, haddr := failAddr s r f va, access := f.access }
        let c := coreOf s core
        let s := dropReload (dropFetched (removeRes s core r) (.overlay core ctx ov transit)) core ctx ov
        (groupsOn s core).foldl (fun s p => if p.2.ctx = ctx ∧ p.2.awaitsCopy c r ≠ 0 ∧ switching s ctx = false
          then trapWaiter s p.1 p.2 (p.2.awaitsCopy c r) t else s) s

def execOverlayLoadFail (core ctx ov : Nat) (transit : Bool) (s : State) : Out := .next (loadFail s core ctx ov transit)

/-- OVERLAY_EVICTED (Table 13.2): the slots of an EVICTING residency are free. -/
def evicted (s : State) (core ctx ov : Nat) (transit : Bool) : State :=
  match findRes (coreOf s core) ctx ov transit with
  | none => s
  | some r => if r.st = .evicting then removeRes s core r else s

def execOverlayEvicted (core ctx ov : Nat) (transit : Bool) (s : State) : Out := .next (evicted s core ctx ov transit)

/-- A group holds the transit occupant while a thread whose PC lies in it is ready to issue (R324, R325): not in WAITING, at a
MIGRATING page too, nor PARKED, nor while a switch has stopped its context or its restored team reloads. -/
def holdsTransit (s : State) (gid : Nat) (g : Group) (c : Core) (r : Residency) : Bool :=
  decide (g.ctx = r.ctx) && g.canGoOn s && teamLoaded s g && g.publishing.all (fun p => !p.stopped) && !g.unitHeld s gid && !g.pageHeld &&
  g.threads.toList.any fun t => pcIn c r t && !waitHolds s gid g t

/-- TRANSIT_SWAP (R324): the occupant goes to EVICTING while a queued waiter still waits and no group holds it. -/
def transitSwap (s : State) (core : Nat) : State :=
  let c := coreOf s core
  match c.res.find? (·.transit) with
  | none => s
  | some r =>
    if r.st = .resident ∧ c.transitQ.any (stillQueued s core) = true ∧ ¬ (groupsOn s core).any (fun p => holdsTransit s p.1 p.2 c r) then
      setCore s core (updRes c { r with st := .evicting })
    else s

def execTransitSwap (core : Nat) (s : State) : Out := .next (transitSwap s core)

end Sys2Proof.Machine
end

