-- ==== Sys2Proof/Machine/Engine.lean ====
section
/-! DEFINITION. The copy engine (08_ref_memory_engines.md R243 to R251, R255, R256; R153, R155, R157, R159 of chapter 5): issue,
acceptance, sectors, lines, completion, multicast delivery and the retry of stalled operations. Skidder operations share the
reads and writes defined here. -/

namespace Sys2Proof.Machine

/-! ### Issue -/

/-- An operation as its instruction issues it. -/
def newOp (s : State) (tid : Nat) (kind : EngKind) (d : Desc) (gaddr : DWord) (bar : Nat) (list lines : List Nat) : EngOp :=
  { id := s.fresh, kind := kind, group := some s.cur.group, team := tid, desc := d, raw := false,
    gaddr := gaddr, bar := bar, list := list, lines := lines, accepted := false, moment := 0, flipped := [], done := 0, buf := [],
    version := 0, retries := 0, receivers := [], ring := 0, slot := 0, err := false, stalled := none, stopped := false,
    abandoned := false, published := false, remote := [] }

/-- Queue an operation and go on; while the engine holds 32, the issue waits (R243), after the checks of its entry (DESIGN CHOICE, log entry
122). -/
def queueOp (s : State) (g : Group) (o : EngOp) : R State :=
  if 32 ≤ engineLoad s g.core then .error (.hold s (.unit .engine)) else .ok (done { pushOp s g.core o with fresh := s.fresh + 1 } g)

/-- The layout byte of a descriptor may be used (R383). -/
def Desc.layOk (d : Desc) : Bool := layoutOk d.layout d.f d.rows.toNat d.cols.toNat

def barCheck (s : State) (t : Team) (bar : Nat) : R Unit :=
  if t.inRange bar 16 then .ok () else .error (stopTrap s 9 (u64 bar))

def tileOf (t : Team) (n : BitVec 4) : Desc := t.tiles[barIdx0 n]
where barIdx0 (n : BitVec 4) : Fin 16 := ⟨n.toNat, n.isLt⟩

/-- TCOPY, TSTORE and TSTORE.A (R247, R248). DESIGN CHOICE (log entry 123): of several misaligned operands, HADDR holds the global address before
the barrier. -/
def transferStep (s : State) (kind : EngKind) (tn : BitVec 4) (a b : BitVec 5) : R State := do
  let g ← issuer s
  let (tid, t) ← issuerTeam s g
  useW s g [a.toNat, b.toNat] []
  let d := tileOf t tn
  let ga := g.rdW a.toNat
  let bar := (g.rdW b.toNat).toNat
  need s (tileLegal t d && d.layOk && (kind != .tstoreA || layVer d.layout))
  if ga.toNat % 32 ≠ 0 then .error (stopTrap s 2 ga)
  else if bar % 16 ≠ 0 then .error (stopTrap s 2 (u64 bar))
  else do
    tileRange s t d
    barCheck s t bar
    queueOp s g (newOp s tid kind d ga bar [] d.lines)

def execTcopy (t : BitVec 4) (g b : BitVec 5) (s : State) : Out := finish (transferStep s .tcopy t g b)
def execTstore (t : BitVec 4) (g b : BitVec 5) (s : State) : Out := finish (transferStep s .tstore t g b)
def execTstoreA (t : BitVec 4) (g b : BitVec 5) (s : State) : Out := finish (transferStep s .tstoreA t g b)

/-- TMCAST (R249): the receivers are the next c teams of the grid. -/
def tmcastStep (s : State) (tn : BitVec 4) (r b : BitVec 5) : R State := do
  let g ← issuer s
  let (tid, t) ← issuerTeam s g
  useW s g [r.toNat, b.toNat] []
  let d := tileOf t tn
  let w := (g.rdW r.toNat).toNat
  let bar := (g.rdW b.toNat).toNat
  need s (tileLegal t d && d.layOk && decide (w < 16))
  if bar % 16 ≠ 0 then .error (stopTrap s 2 (u64 bar))
  else do
    tileRange s t d
    barCheck s t bar
    let rs := (List.range (w + 1)).map fun i => (t.index.toNat + i + 1) % t.nteam.toNat
    queueOp s g { newOp s tid .tmcast d 0 bar [] d.lines with receivers := rs }

def execTmcast (t : BitVec 4) (r b : BitVec 5) (s : State) : Out := finish (tmcastStep s t r b)

/-- A list in scratch that an engine instruction reads at issue, as one scratch access of the group: `n` units of `w` bytes, and the team
whose lines it has touched (R342). -/
def readList (s : State) (g : Group) (tid : Nat) (t : Team) (off n w : Nat) : R (List Nat × Team) := do
  let at' := (List.range n).map fun i => off + w * i
  match at'.findSome? fun a => scratchTrap s g t 0 (u64 a) w false with
  | some tr => .error (.trap s tr s.cur.mask)
  | none => do
    scratchHold s tid t s.cur.group (lineWait t false) (at'.map fun a => (a, w))
    match at'.find? fun a => t.badLines.contains (a / 256) with
    | some a => .error (stopTrap s 10 (u64 a))
    | none => .ok (at'.map fun a => leNat (t.read a w), t.touch s.tick (at'.flatMap fun a => linesOf a w))

/-- GATHER (R250). DESIGN CHOICE (log entry 123): of several misaligned operands, HADDR holds the global address, else the barrier, else the
list. -/
def gatherStep (s : State) (tn : BitVec 4) (a b : BitVec 5) : R State := do
  let g ← issuer s
  let (tid, t) ← issuerTeam s g
  useW s g [a.toNat, b.toNat] []
  let d := tileOf t tn
  let ga := g.rdW a.toNat
  let w := g.rdW b.toNat
  let bar := slice w 0 24
  let off := slice w 32 24
  need s (tileLegal t d && d.layOk && layArr d.layout = 0 && slice w 24 8 = 0 && slice w 56 8 = 0)
  if ga.toNat % 32 ≠ 0 then .error (stopTrap s 2 ga)
  else if bar % 16 ≠ 0 then .error (stopTrap s 2 (u64 bar))
  else if off % 4 ≠ 0 then .error (stopTrap s 2 (u64 off))
  else do
    tileRange s t d
    barCheck s t bar
    let (l, t) ← readList s g tid t off d.rows.toNat 4
    queueOp (setTeam s tid t) g (newOp s tid .gather d ga bar l d.lines)

def execGather (t : BitVec 4) (g b : BitVec 5) (s : State) : Out := finish (gatherStep s t g b)

/-- OWN (R251, R153): its flip follows the accesses that the group's sequencer operations have still to make (R123). -/
def ownStep (s : State) (tn : BitVec 4) (engine : Bool) : R State := do
  let g ← issuer s
  let (tid, t) ← issuerTeam s g
  let d := tileOf t tn
  need s (tileLegal t d)
  tileRange s t d
  if seqPending s t.core s.cur.group tid d.lines then .error (.stall s)
  else if !engine && linesInUse s g.core tid d.lines then .error (.hold s (.inUse d.lines))
  else
    .ok (done (setTeam s tid (d.lines.foldl (fun t l => t.setLine l { t.line l with engine := engine }) (t.touch s.tick d.lines))) g)

def execOwn (t : BitVec 4) (engine : Bool) (s : State) : Out := finish (ownStep s t engine)

/-- The pairs of a move list, from entry `i` on: each destination is at most its source, and destinations rise (R255). -/
def moveOk : Option Nat → List Nat → Bool
  | _, [] => true
  | last, src :: dst :: r => decide (dst ≤ src) && (match last with
      | none => true
      | some d => decide (d < dst)) && moveOk (some dst) r
  | _, _ => false

/-- KVMOVE (R255). DESIGN CHOICE (log entry 123): of several misaligned operands, HADDR holds the base, else the list, else the barrier. -/
def kvmoveStep (s : State) (k p b : BitVec 5) : R State := do
  let g ← issuer s
  need s (feature s g 5)
  let (tid, t) ← issuerTeam s g
  useW s g [k.toNat, p.toNat, b.toNat] []
  let base := g.rdW k.toNat
  let w := g.rdW p.toNat
  let bar := (g.rdW b.toNat).toNat
  let first := slice w 0 16
  let n := slice w 16 16
  let z := slice w 32 8
  let off := slice w 40 20
  need s (slice w 60 4 = 0 && z != 0 && decide (first ≤ n))
  if base.toNat % 256 ≠ 0 then .error (stopTrap s 2 base)
  else if off % 8 ≠ 0 then .error (stopTrap s 2 (u64 off))
  else if bar % 16 ≠ 0 then .error (stopTrap s 2 (u64 bar))
  else do
    barCheck s t bar
    let (l, t) ← readList s g tid t off (2 * n) 4
    need s (moveOk none l)
    queueOp (setTeam s tid t) g { newOp s tid .kvmove default base bar (l.drop (2 * first)) [] with ring := first, slot := z }

def execKvmove (k p b : BitVec 5) (s : State) : Out := finish (kvmoveStep s k p b)

/-! ### Acceptance -/

/-- An engine may take an operation's lines: none is in use or spilled, nor the barrier's, and none awaits an earlier access of the issuing
group's sequencer operations (R382, R342, R123). -/
def linesReady (s : State) (core : Nat) (t : Team) (o : EngOp) : Bool := linesFree s core o && !opSpilled t o && !seqBefore s core o

/-- ENGINE_ACCEPT (R243): the flips of R153 and R157; the multicast's ACKS. An operation that its team's end abandoned is gone (R311). -/
def engineAccept (s : State) (core id : Nat) : State :=
  match findOp s core id with
  | none => s
  | some o => match mget s.teams o.team with
    | none => s
    | some t =>
      if o.abandoned then dropOp s core id
      else if o.accepted || !o.kind.ofEngine || !linesReady s core t o || clocksStopped s core then s
      else
        let r := acceptLines t s.tick o.kind.inbound o.lines
        let s := putOp { setTeam s o.team r.1 with fresh := s.fresh + 1 } core { o with accepted := true, moment := s.fresh, flipped := r.2 }
        if o.kind = .tmcast then updTbar s o.team o.bar fun b => { b with acks := b.acks + BitVec.ofNat 16 o.receivers.length } else s

def execEngineAccept (core op : Nat) (s : State) : Out := .next (engineAccept s core op)

/-! ### Global reads of engines (R155) -/

/-- An engine's or a skidder's access: who reads, its agent, its refresh moment, and the memory it may reach (R394). -/
structure EngAcc where
  by' : Reading
  ctx : Nat
  who : Agent
  moment : Nat
  hbmDie : Option Nat

/-- Memory that a skidder serves: HBM4E of its die (R24, R394). A copy engine reaches every page. -/
def EngAcc.reaches (a : EngAcc) (t : Trans) : Bool :=
  match a.hbmDie with
  | none => true
  | some d => decide (t.kind = .hbm) && decide (homeDie t.pa = d)

/-- Eight bytes as an engine reads them: values, an uncorrectable error or a failed remote access, and the newest write read. -/
structure UnitRead where
  bytes : List Byte
  bad : Bool
  newest : Nat

/-- Read of the aligned unit of 8 B that has number `u` (R155, R134). The peer of a remote page answers it (R420), or it fails (R422). -/
def EngAcc.unit (a : EngAcc) (s : State) (u : Nat) : Except Miss UnitRead :=
  match translate s a.ctx a.who 0 (u64 (8 * u)) .read with
  | .error f => .error (.fault f (8 * u))
  | .ok t =>
    if !a.reaches t then .error (.fault { cause := 4, access := 1 } (8 * u))
    else if t.kind = .remote then
      match farUnit s a.by' u with
      | none => .error (.far u t)
      | some v => .ok { bytes := v.getD (leList 0 8), bad := v.isNone, newest := 0 }
    else
      let pas := (physBytes t 8).filterMap id
      let r : Reader := { who := a.who, grp := none, rho := Vector.replicate 4 a.moment, seen := [], key := keySerial s t.key }
      let got := pas.zip (readUnit s r 1 pas)
      let val (p : Option Nat) : Byte := match p with
        | none => 0
        | some pa => ((got.find? (·.1 == pa)).map (·.2.1)).getD 0
      .ok { bytes := (physBytes t 8).map val, bad := pas.any (badByte s), newest := (got.map (·.2.2)).foldl Nat.max 0 }

/-- Read a list of units, in order. -/
def EngAcc.units (a : EngAcc) (s : State) : List Nat → Except Miss (List (Nat × UnitRead))
  | [] => .ok []
  | u :: l => match a.unit s u with
    | .error e => .error e
    | .ok r => match a.units s l with
      | .error e => .error e
      | .ok rs => .ok ((u, r) :: rs)

/-- The bytes that sources give, whether an error met one of them, and the newest write read. -/
def EngAcc.read (a : EngAcc) (s : State) (srcs : List Src) : Except Miss UnitRead :=
  match a.units s ((srcs.flatMap Src.vas).map (· / 8)).eraseDups with
  | .error e => .error e
  | .ok us =>
    let rd (va : Nat) : Byte := ((us.find? (·.1 == va / 8)).bind fun p => p.2.bytes[va % 8]?).getD 0
    .ok { bytes := srcs.map (Src.val rd), bad := us.any (·.2.bad), newest := (us.map (·.2.newest)).foldl Nat.max 0 }

/-- The reader asks the peer for the unit it lacks. -/
def EngAcc.ask (a : EngAcc) (s : State) (u : Nat) (t : Trans) : State := askPeer s a.ctx a.by' u t

/-- The reader has used its answers. -/
def EngAcc.used (a : EngAcc) (s : State) : State := dropFetched s a.by'

/-! ### Global writes of engines (R155, R386) -/

/-- A write of one sector that is ready: physical cells with their key, or bytes for a peer. -/
inductive PreWrite where
  | local (key : Nat) (cells : List Host.Cell)
  | far (va : Nat) (t : Trans) (cells : List Host.Cell)

/-- Group rising addresses by their 32 B sector. -/
def sectorGroups : List (Nat × Byte) → List (List (Nat × Byte))
  | [] => []
  | c :: l => match sectorGroups l with
    | (d :: g) :: r => if d.1 / 32 = c.1 / 32 then (c :: d :: g) :: r else [c] :: (d :: g) :: r
    | r => [c] :: r

/-- Words of a sector's write that are whole (R410). -/
def wholeWords (l : List (Nat × Byte)) : Bool :=
  l.all fun c => (List.range 4).all fun i => (mget l (c.1 / 4 * 4 + i)).isSome

/-- Physical cells of a sector's bytes under the translation of its first byte. -/
def sectorCells (t : Trans) (va0 : Nat) (l : List (Nat × Byte)) : List Host.Cell :=
  match t.kind with
  | .trimmed => (l.map (·.1 / 4)).eraseDups.flatMap fun w =>
      let t' := { t with pa := t.pa + 4 * w - va0 }
      unitCells t' (storedBytes t' ((List.range 4).map fun i => (mget l (4 * w + i)).getD 0))
  | _ => l.map fun c => (t.pa + c.1 - va0, c.2)

/-- Translate one sector's write (R246, R406, R410). -/
def EngAcc.prep (a : EngAcc) (s : State) (l : List (Nat × Byte)) : Except (XFault × Nat) PreWrite :=
  let va0 := (l.map (·.1)).headD 0
  if !wholeWords l && trimmedAt s a.ctx a.who 0 (u64 va0) then .error ({ cause := 4, access := 2 }, va0)
  else match translate s a.ctx a.who 0 (u64 va0) .write with
  | .error f => .error (f, va0)
  | .ok t =>
    if !a.reaches t then .error ({ cause := 4, access := 2 }, va0)
    else if t.kind = .remote then .ok (.far va0 t (l.map fun c => (c.1 - va0, c.2)))
    else .ok (.local (keySerial s t.key) (sectorCells t va0 l))

/-- Sectors up to the first that fails, and that failure. -/
def EngAcc.prepAll (a : EngAcc) (s : State) : List (List (Nat × Byte)) → List PreWrite × Option (XFault × Nat)
  | [] => ([], none)
  | l :: r => match a.prep s l with
    | .error e => ([], some e)
    | .ok w => let x := a.prepAll s r; (w :: x.1, x.2)

/-- Make the writes of an operation: publish events in ascending order, and remote writes, whose numbers are kept (R155, R420). -/
def makeWrites (s : State) (a : EngAcc) (kind : RemoteKind) : List PreWrite → List Nat → State × List Nat
  | [], ids => (s, ids)
  | .local key cells :: r, ids => makeWrites (publish s a.who none none .dev key cells) a kind r ids
  | .far va t cells :: r, ids => makeWrites (sendRemote s a.ctx kind (u64 va) t cells) a kind r (ids ++ [s.fresh])

/-! ### An operation's tile in global memory -/

/-- Row addresses of an operation's tile (R250, R384). -/
def EngOp.row (o : EngOp) (r : Nat) : Nat :=
  if o.kind = .gather then o.gaddr.toNat + (o.list[r]?).getD 0 * o.desc.stride.toNat else plainRow o.desc o.gaddr.toNat r

/-- Sources of the bytes of the `n`th sector: a raw slot image holds only whole rows (R391). -/
def EngOp.srcs (o : EngOp) (n : Nat) : List Src :=
  if o.raw then
    let rb := rawRow o.desc
    ((List.range 32).map (32 * n + ·)).filterMap fun p =>
      if p < o.desc.rows.toNat * rb then some (.byte (wrapVa (o.row (p / rb) + p % rb))) else none
  else sectorSrc o.desc o.gaddr.toNat o.row n

/-- The global bytes an operation writes (R386, R391). -/
def EngOp.packed (o : EngOp) : Map Byte :=
  if o.raw then
    let rb := rawRow o.desc
    (List.range (o.desc.rows.toNat * rb)).foldl (fun m p =>
      mput m (wrapVa (o.row (p / rb) + p % rb)) (rdByte o.buf (o.desc.base.toNat + p))) []
  else packTile o.desc o.gaddr.toNat (rdByte o.buf)

/-- The skidder of the stack that homes an address, or the first of the issuing core's die (R252). -/
def skidderOf (t : Trans) (core : Nat) : Nat :=
  if t.kind = .hbm then 2 * homeDie t.pa + Config.lineStack (t.pa / 256) % 2 else 2 * dieOf core

/-- The skidder that serves a slot's tile: that of the stack that homes the tile's origin, whatever access its page permits (R24, R252);
where the origin's page is not present or lies in no HBM4E, the one that holds the stream context (log entry 104). -/
def servedBy (s : State) (ctx : Nat) (u : Sub) (origin : DWord) : Nat :=
  match translate s ctx (dieAgent (u.skid / 2)) 0 origin .locate with
  | .ok t => if t.kind = .hbm then skidderOf t 0 else u.skid
  | .error _ => u.skid

/-- The subscription and serving skidder of a slot's operation. -/
def slotServer (s : State) (o : EngOp) : Option Nat :=
  (mget s.teams o.team).bind fun t => if o.kind.ofEngine then none else (subOf t o.ring).map fun u => servedBy s t.ctx u o.gaddr

def opCtx (s : State) (o : EngOp) : Nat := ((mget s.teams o.team).map (·.ctx)).getD 0

/-- The access that an operation makes: of the copy engine, or of the skidder that serves the slot (R24, R155, R394). -/
def opAcc (s : State) (core : Nat) (o : EngOp) : EngAcc :=
  match slotServer s o with
  | some k => { by' := .engine core o.id, ctx := opCtx s o, who := dieAgent (k / 2), moment := o.moment, hbmDie := some (k / 2) }
  | none => { by' := .engine core o.id, ctx := opCtx s o, who := agentOf core, moment := o.moment, hbmDie := none }

/-- The version word of the tile at an origin stands at O - 32 (R387). -/
def versionVa (gaddr : DWord) : Nat := wrapVa (gaddr.toNat + 2 ^ 64 - 32)
def versionSrcs (gaddr : DWord) : List Src := (List.range 4).map fun i => .byte (wrapVa (versionVa gaddr + i))

/-! ### Faults of operations (R246, R394, R404) -/

/-- The record of a stalled access (Table 17.6). The number of a stream context is free. -/
def opRecord (s : State) (core : Nat) (o : EngOp) (f : XFault) (va : Nat) : FaultRec :=
  let skid := slotServer s o
  { source := if o.kind.ofEngine then 1 else 2, cause := f.cause, access := f.access, vaddr := u64 va,
    group := if o.kind.ofEngine then ((o.group.bind (mget s.groups)).map handleOf).getD 0 else 0, hcause := 0, hpc := 0,
    detail := if o.kind.ofEngine then u64 core else u64 (skid.getD 0 + Config.choice s.tick (2 ^ 91) % 64 * 2 ^ 8) }

/-- What the next access of an operation comes to: a stall on a page not present, or a next state. -/
inductive Try where
  | stall (f : XFault) (va : Nat)
  | go (s : State)

/-- Take a try: an access that stalls posts one record (R246, R405). -/
def takeTry (s : State) (core : Nat) (o : EngOp) : Try → State
  | .go s' => s'
  | .stall f va =>
    if o.stalled = some va then s
    else postRecord (putOp s core { o with stalled := some va }) (opCtx s o) (opRecord s core o f va)

/-! ### Sectors -/

/-- One more sector has landed or been read: the barrier loses one, unless it is the last, which the completion takes (R245). -/
def landed (s : State) (core : Nat) (o : EngOp) (total : Nat) : State :=
  let s := if o.retries = 0 ∧ o.done + 1 < total then landSectors s o.team o.bar 1 else s
  putOp s core { o with done := o.done + 1 }

def markErr (s : State) (o : EngOp) : State := setTbarErr s o.team o.bar

/-- A write of the engine or a skidder into the team's scratch; an abandoned operation writes nothing (R311). -/
def engWrite (s : State) (o : EngOp) (off : Nat) (bs : List Byte) : State :=
  match mget s.teams o.team with
  | none => s
  | some t => if o.abandoned then s else setTeam s o.team (t.write s.tick off bs)

/-- The version read that precedes the data of an attempt (R159). -/
def readVersion (s : State) (o : EngOp) (a : EngAcc) : Except Miss (State × EngOp) :=
  if o.checks && decide (o.done = 0) then
    match a.read s (versionSrcs o.gaddr) with
    | .error (.far u t) => .error (.far u t)
    | .error (.fault f va) => if f.cause = 3 then .error (.fault f va) else .ok (markErr s o, { o with published := true, err := true })
    | .ok r =>
      if r.bad then .ok (markErr s o, { o with published := true, err := true })
      else .ok (s, { o with version := u32 (leNat r.bytes), moment := Nat.max o.moment r.newest })
  else .ok (s, o)

/-- The next sector of TCOPY, GATHER or a fill (R247, R250, R385, R392), at the refresh moment that the attempt's version read has raised
(R159, R387). -/
def landRead (s : State) (core : Nat) (o : EngOp) (total : Nat) : Try :=
  match readVersion s o (opAcc s core o) with
  | .error (.far u t) => .go ((opAcc s core o).ask s u t)
  | .error (.fault f va) => .stall f va
  | .ok (s', o') =>
    let a := opAcc s core o'
    match a.read s (o.srcs o.done) with
    | .error (.far u t) => .go (a.ask s u t)
    | .error (.fault f va) =>
      let s := s'
      let o := o'
      if f.cause = 3 then .stall f va else .go (putOp (markErr s o) core { o with stopped := true, err := true })
    | .ok r =>
      let s := a.used s'
      let o := o'
      let off := (o.sectors[o.done]?).getD 0
      let bs := if r.bad then (List.range r.bytes.length).map fun i => Config.freeByte s.tick (2 ^ 62 + off + i) else r.bytes
      let o := { o with moment := if o.checks then Nat.max o.moment r.newest else o.moment, err := o.err || r.bad }
      .go (landed (engWrite (if r.bad then markErr s o else s) o off bs) core o total)

/-- The next sector that TSTORE, TSTORE.A or TMCAST reads from scratch (R248, R249). -/
def landScratch (s : State) (core : Nat) (o : EngOp) (t : Team) (total : Nat) : Try :=
  let off := (o.sectors[o.done]?).getD 0
  let bad := t.badLines.contains (off / 256)
  let bs := if bad then (List.range 32).map fun i => Config.freeByte s.tick (2 ^ 62 + off + i) else t.read off 32
  .go (landed (if bad then markErr s o else s) core { o with buf := wrBytes o.buf off bs, err := o.err || bad } total)

/-- The next sector of a received multicast (R249). -/
def landRecv (s : State) (core : Nat) (o : EngOp) (total : Nat) : Try :=
  let off := (o.sectors[o.done]?).getD 0
  .go (landed (engWrite s o off (rdBytes o.buf off 32)) core o total)

/-- Source and destination addresses of a moved entry's sector, none where nothing moves (R255). -/
def EngOp.moveAt (o : EngOp) (k : Nat) : Option (Nat × Nat) :=
  let m := k / (8 * o.slot)
  let at' (i : Nat) : Nat := wrapVa (o.gaddr.toNat + 256 * o.slot * (o.list[i]?).getD 0 + 32 * (k % (8 * o.slot)))
  if (o.list[2 * m]?).getD 0 = (o.list[2 * m + 1]?).getD 0 then none else some (at' (2 * m), at' (2 * m + 1))

/-- The stop of KVMOVE at the `m`th entry it moves, the writes before it published: a missing page posts its record, the entry stands in
SECTORS, and the phase does not complete (R256). -/
def stopMove (s : State) (core : Nat) (o : EngOp) (m : Nat) (f : XFault) (va : Nat) : State :=
  let s := if f.cause = 3 then postRecord s (opCtx s o) (opRecord s core o f va) else s
  dropOp (updTbar s o.team o.bar fun b => { b with sectors := BitVec.ofNat 32 (o.ring + m), err := true }) core o.id

/-- Publish the moved entries in ascending order until one fails (R255, R256): the state, remote writes, and the entry that failed. -/
def moveWrites (s : State) (core : Nat) (o : EngOp) (a : EngAcc) : List Nat → List Nat → State × List Nat × Option (Nat × XFault × Nat)
  | [], ids => (s, ids, none)
  | m :: l, ids =>
    let secs := ((List.range (8 * o.slot)).map (8 * o.slot * m + ·)).filterMap o.moveAt
    let w := a.prepAll s (secs.map fun p => (List.range 32).map fun i => (wrapVa (p.2 + i), rdByte o.buf (wrapVa (p.2 + i))))
    match w.2 with
    | some e => (s, ids, some (m, e.1, e.2))
    | none => let r := makeWrites s a (.engine core o.id) w.1 ids; moveWrites r.1 core o a l r.2

/-- A source read that fails stops KVMOVE at its entry, or at an earlier entry whose write fails (R256). -/
def failMove (s : State) (core : Nat) (o : EngOp) (f : XFault) (va : Nat) : State :=
  let m := o.done / (8 * o.slot)
  let r := moveWrites s core o (opAcc s core o) (List.range m) []
  match r.2.2 with
  | some (m', f', va') => stopMove r.1 core o m' f' va'
  | none => stopMove r.1 core o m f va

/-- The next sector of KVMOVE: its read, or the stop of R256. -/
def landMove (s : State) (core : Nat) (o : EngOp) (total : Nat) : Try :=
  match o.moveAt o.done with
  | none => .go (landed s core o total)
  | some (src, dst) =>
    match (opAcc s core o).read s ((List.range 32).map fun i => .byte (wrapVa (src + i))) with
    | .error (.far u t) => .go ((opAcc s core o).ask s u t)
    | .error (.fault f va) => .go (failMove s core o f va)
    | .ok r =>
      let s := (opAcc s core o).used s
      let bs := if r.bad then (List.range 32).map fun i => Config.freeByte s.tick (2 ^ 62 + dst + i) else r.bytes
      .go (landed (if r.bad then markErr s o else s) core
        { o with buf := ((List.range 32).zip bs).foldl (fun m p => mput m (wrapVa (dst + p.1)) p.2) o.buf, err := o.err || r.bad } total)

/-- The next sector of an operation (R245). -/
def landTry (s : State) (core : Nat) (o : EngOp) (t : Team) : Try :=
  let total := opTotal t o
  match o.kind with
  | .tcopy => landRead s core o total
  | .gather => landRead s core o total
  | .fill => if isStoreFill t o then .go s else landRead s core o total
  | .recv => landRecv s core o total
  | .kvmove => landMove s core o total
  | .drain => .go s
  | _ => landScratch s core o t total

/-- An accepted operation has sectors left and neither stalls nor has stopped. -/
def canLand (t : Team) (o : EngOp) : Bool :=
  o.accepted && o.stalled.isNone && !o.stopped && !isStoreFill t o && decide (o.kind ≠ .drain) && decide (o.done < opTotal t o)

/-- SECTOR_LAND (R245); a skidder's too needs the clock of the scratchpad (R429). -/
def sectorLand (s : State) (core id : Nat) : State :=
  match findOp s core id with
  | none => s
  | some o => match mget s.teams o.team with
    | none => s
    | some t =>
      if o.abandoned then dropOp s core id
      else if canLand t o && !clocksStopped s core then takeTry s core o (landTry s core o t)
      else s

def execSectorLand (core op : Nat) (s : State) : Out := .next (sectorLand s core op)

/-- Sectors of an operation that lie in a line have all landed. -/
def lineLanded (o : EngOp) (line : Nat) : Bool := ((o.sectors.drop o.done).all fun x => decide (x / 256 ≠ line)) && o.lines.contains line

/-- LINE_COMPLETE (R157, R381): a line to which no operation has a byte left to write becomes present; the lines of a copy that may repeat
wait for its end, and all for the clock of the scratchpad (R429). -/
def lineComplete (s : State) (core id line : Nat) : State :=
  match findOp s core id with
  | none => s
  | some o => match mget s.teams o.team with
    | none => s
    | some t =>
      if !clocksStopped s core && o.accepted && o.kind.inbound && !o.stopped && !o.abandoned && !o.checks && lineLanded o line && !stillWritten (otherOps s core o) line then
        setTeam s o.team (t.setLine line { t.line line with absent := false })
      else s

def execLineComplete (core op line : Nat) (s : State) : Out := .next (lineComplete s core op line)

/-! ### Completion -/

/-- What the second version read of an attempt decides (R159). -/
inductive VersionEnd where
  | ask (u : Nat) (t : Trans)
  | stall (f : XFault) (va : Nat)
  | again (o : EngOp)
  | finish (err : Bool)

def versionEnd (s : State) (core : Nat) (o : EngOp) : VersionEnd :=
  if !o.checks || o.stopped then .finish false
  else match (opAcc s core o).read s (versionSrcs o.gaddr) with
    | .error (.far u t) => .ask u t
    | .error (.fault f va) => if f.cause = 3 then .stall f va else .finish true
    | .ok r =>
      if r.bad then .finish true
      else if u32 (leNat r.bytes) = o.version then .finish false
      else if o.retries = 16 then .finish true
      else .again { o with retries := o.retries + 1, done := 0, moment := Nat.max o.moment r.newest }

/-- End of TCOPY, GATHER, a received multicast and TMCAST at the sender. -/
def endInbound (s : State) (core : Nat) (o : EngOp) : Try :=
  match versionEnd s core o with
  | .ask u t => .go ((opAcc s core o).ask s u t)
  | .stall f va => .stall f va
  | .again o => .go (putOp ((opAcc s core o).used s) core o)
  | .finish err => .go (endOp (if err then markErr s o else s) core o)

/-- TSTORE (R155, R248): events up to the first failure; the whole operation stalls while a page it reaches is not present. -/
def endStore (s : State) (core : Nat) (o : EngOp) : Try :=
  let a := opAcc s core o
  let w := a.prepAll s (sectorGroups o.packed)
  match w.2 with
  | some (f, va) =>
    if f.cause = 3 then .stall f va
    else
      let r := makeWrites s a (.engine core o.id) w.1 []
      let o := { o with published := true, remote := r.2, err := true }
      let s := putOp (markErr r.1 o) core o
      .go (if r.2.isEmpty then endOp s core o else s)
  | none =>
    let r := makeWrites s a (.engine core o.id) w.1 []
    let o := { o with published := true, remote := r.2 }
    let s := putOp r.1 core o
    .go (if r.2.isEmpty then endOp s core o else s)

/-- A prepared write of memory of the module: its key and cells. -/
def PreWrite.near : PreWrite → Option (Nat × List Host.Cell)
  | .local k c => some (k, c)
  | .far .. => none

/-- The header sector that goes with a version (R387). -/
def headerCells (gaddr : DWord) (v : Nat) : List (Nat × Byte) :=
  (List.range 32).zip (leList v 4 ++ leList 0 28) |>.map fun p => (wrapVa (versionVa gaddr + p.1), p.2)

/-- The version word that an all-or-nothing store reads holds an uncorrectable error (R159, R246). -/
def versionBad (s : State) (a : EngAcc) (gaddr : DWord) : Bool :=
  match translate s a.ctx a.who 0 (u64 (versionVa gaddr)) .write with
  | .ok t => decide (t.kind ≠ .remote) && (physBytes t 4).any fun p => p.any (badByte s)
  | .error _ => false

/-- The version that an all-or-nothing store writes: the newest at its home slice, plus 1 (R159); a peer's is free, and so is that which
follows a word with an error. -/
def nextVersion (s : State) (a : EngAcc) (gaddr : DWord) : Nat :=
  match translate s a.ctx a.who 0 (u64 (versionVa gaddr)) .write with
  | .ok t => if t.kind = .remote ∨ versionBad s a gaddr = true then leNat ((List.range 4).map fun i => Config.freeByte s.tick (2 ^ 63 + i))
      else (leNat ((physBytes t 4).map fun p => (newestBytes s (keySerial s t.key) p.toList).headD 0) + 1) % 2 ^ 32
  | .error _ => 0

/-- TSTORE.A, and a drain of a tile with a version: one event for all of the tile and its version that lies in the module, or none (R159,
R387); sectors on remote pages go to their peers (R420). An error in the version word it reads sets the barrier's ERR (R246). -/
def storeWhole (s : State) (core : Nat) (o : EngOp) : Except (XFault × Nat) (State × List Nat) :=
  let a := opAcc s core o
  let w := a.prepAll s (sectorGroups (headerCells o.gaddr (nextVersion s a o.gaddr)) ++ sectorGroups o.packed)
  match w.2 with
  | some e => .error e
  | none =>
    let s := if versionBad s a o.gaddr then markErr s o else s
    let near := w.1.filterMap PreWrite.near
    let s := match near with
      | [] => s
      | (key, _) :: _ => publish s a.who none none .dev key (near.flatMap (·.2))
    .ok (makeWrites s a (.engine core o.id) (w.1.filter (·.near.isNone)) [])

/-- TSTORE.A (R248). -/
def endStoreA (s : State) (core : Nat) (o : EngOp) : Try :=
  match storeWhole s core o with
  | .error (f, va) => if f.cause = 3 then .stall f va else .go (endOp (markErr s o) core { o with err := true })
  | .ok (s, ids) =>
    let o := { o with published := true, remote := ids }
    .go (if ids.isEmpty then endOp s core o else putOp s core o)

/-- KVMOVE at its end: its writes are made, up to an entry that fails (R255, R256). -/
def endMove (s : State) (core : Nat) (o : EngOp) : Try :=
  let r := moveWrites s core o (opAcc s core o) (List.range (o.done / (8 * o.slot))) []
  match r.2.2 with
  | some (m, f, va) => .go (stopMove r.1 core o m f va)
  | none =>
    let o := { o with published := true, remote := r.2.1 }
    .go (if r.2.1.isEmpty then endOp r.1 core o else putOp r.1 core o)

/-- No received part of a multicast is under way. -/
def noReceivers (s : State) (core id : Nat) : Bool :=
  s.cores.all fun c => c.2.eng.all fun x => !(decide (x.kind = .recv) && decide (x.ring = id) && decide (x.slot = core))

/-- The completion of an operation of the engine, or of a received multicast. -/
def completeTry (s : State) (core : Nat) (o : EngOp) : Try :=
  if o.published && !o.checks && (o.kind == .tstore || o.kind == .tstoreA || o.kind == .kvmove) then
    .go (if o.remote.isEmpty then endOp s core o else s)
  else match o.kind with
    | .tstore => endStore s core o
    | .tstoreA => endStoreA s core o
    | .kvmove => endMove s core o
    | .tmcast => if o.receivers.isEmpty ∧ noReceivers s core o.id = true then endInbound s core o else .go s
    | .fill => .go s
    | .drain => .go s
    | _ => endInbound s core o

/-- ENGINE_COMPLETE (R155): every sector has landed, or the operation has stopped; not while the clocks relock (R429). -/
def engineComplete (s : State) (core id : Nat) : State :=
  match findOp s core id with
  | none => s
  | some o => match mget s.teams o.team with
    | none => dropOp s core id
    | some t =>
      if o.abandoned then dropOp s core id
      else if o.accepted && o.stalled.isNone && o.kind != .fill && o.kind != .drain && !clocksStopped s core && (o.stopped || decide (opTotal t o ≤ o.done)) then
        takeTry s core o (completeTry s core o)
      else s

def execEngineComplete (core op : Nat) (s : State) : Out := .next (engineComplete s core op)

/-! ### Multicast delivery -/

/-- A team that a delivery reaches: resident on the sender's die, running, and no switch-out of its context past step 1 (R249, R282). -/
def canReceive (s : State) (die : Nat) (t : Team) : Bool :=
  decide (dieOf t.core = die) && !t.ended && match mget s.contexts t.ctx with
    | some c => decide (c.switch = .none ∨ c.switch = .out 1 ∨ c.switch = .restoring)
    | none => false

/-- TMCAST_DELIVERY (R249): the next receiver's copy begins, or the receiver is skipped: its acknowledgement counts as received and the
error flag is set. It needs the clocks of both cores (R429). An error in the sender's lines sets the flag of the sender's barrier alone (log
entry 107). -/
def tmcastDelivery (s : State) (core id : Nat) : State :=
  match findOp s core id with
  | none => s
  | some o => match mget s.teams o.team, o.receivers with
    | some t, i :: rest =>
      if o.kind = .tmcast ∧ o.accepted = true ∧ opTotal t o ≤ o.done ∧ clocksStopped s core = false then
        match s.teams.find? fun p => decide (p.2.grid = t.grid) && decide (p.2.index.toNat = i) && canReceive s (dieOf core) p.2 with
        | none =>
          let s := putOp s core { o with receivers := rest }
          updTbar s o.team o.bar fun b => { b with acks := b.acks - 1, err := true }.complete
        | some (rid, rt) =>
          let x : EngOp := { o with id := s.fresh, kind := .recv, group := none, team := rid, moment := s.fresh, flipped := [], done := 0,
                                    receivers := [], ring := o.id, slot := core, err := false }
          if !linesFree s rt.core x || opSpilled rt x || clocksStopped s rt.core then s
          else
            let r := acceptLines rt s.tick true x.lines
            let s := putOp s core { o with receivers := rest }
            let s := setTeam { s with fresh := s.fresh + 1 } rid { r.1 with unacked := rt.unacked ++ [(o.team, o.bar)] }
            pushOp s rt.core { x with flipped := r.2 }
      else s
    | _, _ => s

def execTmcastDelivery (core op : Nat) (s : State) : Out := .next (tmcastDelivery s core op)

end Sys2Proof.Machine
end

