-- ==== Sys2Proof/Machine/Task.lean ====
section
/-! DEFINITION. The TASK minors: ENQ, SPAWN, LAUNCH (R294 to R297), GPSET and GPGET (R301), GREPLAY (R302). -/

namespace Sys2Proof.Machine

/-! ### The overflow ring (R289) -/

/-- 80 bytes of a task record (Table 11.4). -/
def taskBytes (r : TaskRec) : List Byte :=
  leList r.entry.toNat 4 ++ leList r.affinity.toNat 2 ++ leList r.fclass.toNat 1 ++ leList r.prio.toNat 1 ++ leList r.join.toNat 4 ++
  leList r.weight.toNat 2 ++ leList r.depth.toNat 1 ++ leList 0 1 ++ r.args.toList.flatMap fun a => leList a.toNat 8

/-- A spilled entry of 128 B: the record and the hardware state of a READY slot (R289, Table 11.3). -/
def entryBytes (t : Task) : List Byte :=
  taskBytes t.record ++ leList 1 4 ++ leList t.eprio 4 ++ leList t.age0 8 ++ leList t.next 8 ++ leList t.nteam 8 ++ leList 0 16

/-- Address of an entry of a segment's share of the overflow ring. -/
def spillVa (q : Queue) (seg pos : Nat) : Nat := q.ovf + q.ovfsz / 1024 * seg + 128 * pos

/-- The access that a segment's slice makes to context memory: an agent of its die (R288). -/
def sliceAcc (s : State) (q : Queue) (seg : Nat) : EngAcc :=
  { by' := .device, ctx := q.ctx, who := dieAgent (seg / 256), moment := s.fresh, hbmDie := none }

/-- The writes of prepared sectors to the module's own memory. -/
def makeLocal (s : State) (who : Agent) (ws : List PreWrite) : State :=
  ws.foldl (fun s w => match w with
    | .local k c => publish s who none none .dev k c
    | .far .. => s) s

/-- A spilled task is written to its entry (R289), as far as its page is there, writable and local (log entry 115). -/
def writeSpill (s : State) (q : Queue) (seg pos : Nat) (t : Task) : State :=
  let a := sliceAcc s q seg
  makeLocal s a.who (a.prepAll s (sectorGroups (((List.range 128).map (spillVa q seg pos + ·)).zip (entryBytes t)))).1

/-- The task of an entry as it moves back into a slot: its record as context memory holds it, where it can be read (R289). -/
def readSpill (s : State) (q : Queue) (seg pos : Nat) (t : Task) : Task :=
  match (sliceAcc s q seg).read s ((List.range 80).map fun i => .byte (wrapVa (spillVa q seg pos + i))) with
  | .ok r => if r.bad then t else { t with record := recordOf r.bytes }
  | .error _ => t

/-- The ring's next free entry after the newest. -/
def Segment.nextEntry (x : Segment) (cap : Nat) : Nat :=
  let last := (x.spill.getLast?.map fun p => p.1 + 1).getD 0
  (((List.range cap).map fun i => (last + i) % cap).find? fun i => (mget x.spill i).isNone).getD 0

/-- A task goes to the overflow ring. -/
def spillTask (s : State) (qid seg : Nat) (q : Queue) (t : Task) : State :=
  let x := q.seg seg
  let pos := x.nextEntry (spillCap q)
  writeSpill (setQueue s qid (q.setSeg seg { x with spill := x.spill ++ [(pos, t)] })) q seg pos t

/-- A spilled entry waits for a slot that is free (R289). -/
def Segment.refillDue (x : Segment) : Bool := !x.spill.isEmpty && x.free.isSome

/-- The entry that spilled first moves into a free slot, if there is one (R289). -/
def refillSegment (s : State) (q : Queue) (seg : Nat) (x : Segment) : Segment :=
  match x.spill, x.free with
  | (pos, t) :: l, some i => { x with slots := mput x.slots i (readSpill s q seg pos t), spill := l }
  | _, _ => x

/-- The slot write of an enqueue (R296): a free slot for which no spilled entry waits, or the overflow share, whose first entry makes room
where a slot is free (R289, R62), or none when both are full or the queue takes no tasks. -/
def insertTask (s : State) (qid : Nat) (r : TaskRec) (teams : Nat) : Option State :=
  match mget s.queues qid with
  | none => none
  | some q =>
    if q.st = .draining ∨ q.st = .destroyed then none
    else
      let i := segmentOf r.affinity qid
      let x := q.seg i
      let x := if spillCap q ≤ x.spill.length then refillSegment s q i x else x
      let t : Task := { record := r, grid := s.fresh, eprio := recPrio r, age0 := x.disp, next := 0, nteam := teams }
      let s := { s with fresh := s.fresh + 1 }
      match x.free.filter fun _ => x.spill.isEmpty with
      | some j => some (setQueue s qid (q.setSeg i { x with slots := mput x.slots j t }))
      | none => if x.spill.length < spillCap q then some (spillTask s qid i (q.setSeg i x) t) else none

/-! ### Enqueue -/

/-- The result predicate of an enqueue, written in every issuing thread (R294). -/
def Group.setPred (g : Group) (m : BitVec 32) (k : BitVec 3) (b : Bool) : Group :=
  g.onLanes m fun _ t => { t with k := setBit8 t.k k.toNat b }

/-- Where an enqueue takes its record and what it writes over it (Table 11.6). -/
structure EnqArgs where
  off : Nat
  qid : Nat
  teams : Nat
  depth : BitVec 8
  join : Option Word
  /-- SPAWN at depth 31 (R296). -/
  full : Bool
  /-- SPAWN whose team's queue is DESTROYED and its QID free or named anew (R285, R296). -/
  lost : Bool

/-- The five units of 16 B of a record, each in one stash sector. -/
def recordUnits (off : Nat) : List Nat := (List.range 5).map fun i => off + 16 * i

/-- The checks of R296 on the record and its place, and the record. A line that is absent or engine-owned holds the read; a stash sector
fills first, and a fill that fails traps (R128). -/
def enqRecord (s : State) (g : Group) (tid : Nat) (t : Team) (off : Nat) : R TaskRec := do
  match (recordUnits off).findSome? fun o => stashTrap s g t 0 o false with
  | some tr => .error (scratchStop s g tr)
  | none => .ok ()
  scratchHold s tid t s.cur.group (atomsWait t) ((recordUnits off).map fun o => (o, 16))
  match (linesOf off 80).find? t.badLines.contains with
  | some l => .error (stopTrap s 10 (u64 (max off (256 * l))))
  | none => do
    let r := recordOf (t.read off 80)
    if !entryOk s g.ctx r then .error (stopTrap s 6 (u64 (recOff r))) else .ok r

/-- The effect of an enqueue once its operands are known (R296); its Publish waits for the group's stash writes (R236, log entry 119). -/
def enqueue (s : State) (k : BitVec 3) (g : Group) (tid : Nat) (t : Team) (a : EnqArgs) : R State := do
  if a.off % 16 ≠ 0 then .error (stopTrap s 2 (u64 a.off))
  else if !t.inRange a.off 80 then .error (stopTrap s 9 (u64 a.off))
  else if !a.lost && (mget s.queues a.qid).all fun q => decide (q.ctx ≠ g.ctx) then .error (stopTrap s 4 (u64 a.qid))
  else if a.full then .ok (done s (g.setPred s.cur.mask k false))
  else do
    let r ← enqRecord s g tid t a.off
    need s (decide (a.teams ≠ 0) && recordOk r)
    stallIf s (stashLeft s g.core s.cur.group)
    let p := publishGroup (setTeam s tid (t.touch s.tick (linesOf a.off 80))) s.cur.group .dev
    if p.2.2 then .error (.hold p.1 (.page none))
    else match mget p.1.groups s.cur.group with
      | none => .error (.fault .noIssuer)
      | some g =>
        match (if a.lost then none else insertTask p.1 a.qid { r with depth := a.depth, join := a.join.getD r.join } a.teams) with
        | none => .ok (done p.1 (g.setPred s.cur.mask k false))
        | some s' => .ok (done s' (g.setPred s.cur.mask k true))

/-- A queue handle names a queue by its low 12 bits; a handle with higher bits names none (R285). DESIGN CHOICE (log entry 95): where cause
0x04 has no address, HADDR holds this number. -/
def qidOf (h : DWord) : Nat := if h.toNat < 4096 then h.toNat else h.toNat + 4096

/-- ENQ and LAUNCH (R295). -/
def enqStep (s : State) (launch : Bool) (k : BitVec 3) (q r : BitVec 5) : R State := do
  let g ← issuer s
  let (tid, t) ← issuerTeam s g
  useW s g [q.toNat, r.toNat] []
  let w := g.rdW r.toNat
  need s (if launch then slice w 24 8 = 0 else slice w 24 40 = 0)
  enqueue s k g tid t { off := slice w 0 24, qid := qidOf (g.rdW q.toNat), teams := if launch then slice w 32 32 else 1, depth := 0,
                        join := none, full := false, lost := false }

def execEnq (k : BitVec 3) (q r : BitVec 5) (s : State) : Out := finish (enqStep s false k q r)
def execLaunch (k : BitVec 3) (q r : BitVec 5) (s : State) : Out := finish (enqStep s true k q r)

/-- SPAWN (R295). -/
def spawnStep (s : State) (k : BitVec 3) (r : BitVec 5) : R State := do
  let g ← issuer s
  let (tid, t) ← issuerTeam s g
  useW s g [r.toNat] []
  let w := g.rdW r.toNat
  need s (slice w 24 40 = 0)
  enqueue s k g tid t { off := slice w 0 24, qid := t.qid, teams := 1, depth := BitVec.ofNat 8 (g.depth + 1),
                        join := if g.join = 0 then none else some g.join, full := decide (31 ≤ g.depth)
                        lost := (mget s.queues t.qid).all fun q => decide (q.born ≠ t.qborn) }

def execSpawn (k : BitVec 3) (r : BitVec 5) (s : State) : Out := finish (spawnStep s k r)

/-! ### Graphs -/

def setGraph (s : State) (i : Nat) (x : Graph) : State := { s with graphs := mput s.graphs i x }

/-- The graph of the issuer's context that a handle names, or cause 0x04 (R298, R301). DESIGN CHOICE (log entry 95): HADDR then holds the
handle. -/
def graphAt (s : State) (g : Group) (h : DWord) : R (Nat × Graph) :=
  match (mget s.graphs h.toNat).filter fun x => decide (x.ctx = g.ctx) with
  | some x => .ok (h.toNat, x)
  | none => .error (stopTrap s 4 h)

def gpIdx (n : BitVec 4) : Fin 16 := ⟨n.toNat, n.isLt⟩

/-- GPSET (R301). -/
def gpsetStep (s : State) (w : BitVec 5) (n : BitVec 4) (r : BitVec 5) : R State := do
  let g ← issuer s
  useW s g [w.toNat, r.toNat] []
  let (i, x) ← graphAt s g (g.rdW w.toNat)
  .ok (done (setGraph s i { x with gp := x.gp.set (gpIdx n) (g.rdW r.toNat) }) g)

def execGpset (g : BitVec 5) (n : BitVec 4) (r : BitVec 5) (s : State) : Out := finish (gpsetStep s g n r)

/-- GPGET (R301). -/
def gpgetStep (s : State) (d w : BitVec 5) (n : BitVec 4) : R State := do
  let g ← issuer s
  useW s g [w.toNat] [d.toNat]
  let (_, x) ← graphAt s g (g.rdW w.toNat)
  .ok (done s (g.wrW d.toNat x.gp[gpIdx n]))

def execGpget (d g : BitVec 5) (n : BitVec 4) (s : State) : Out := finish (gpgetStep s d g n)

/-- A replay starts: the parameter registers are latched and ERROR cleared (R300 step 1). -/
def Graph.start (x : Graph) : Graph :=
  { x with latched := x.gp, replaying := true, error := false, pos := 0, armed := [] }

/-- GREPLAY (R302); its Publish waits for the group's stash writes (R236, log entry 119). -/
def greplayStep (s : State) (k : BitVec 3) (w : BitVec 5) : R State := do
  let g ← issuer s
  useW s g [w.toNat] []
  let (i, x) ← graphAt s g (g.rdW w.toNat)
  stallIf s (stashLeft s g.core s.cur.group)
  let p := publishGroup s s.cur.group .dev
  if p.2.2 then .error (.hold p.1 (.page none))
  else match mget p.1.groups s.cur.group with
    | none => .error (.fault .noIssuer)
    | some g =>
      .ok (done (if x.replaying then p.1 else setGraph p.1 i x.start) (g.setPred s.cur.mask k (!x.replaying)))

def execGreplay (k : BitVec 3) (g : BitVec 5) (s : State) : Out := finish (greplayStep s k g)

end Sys2Proof.Machine
end

