-- ==== Sys2Proof/Machine/Place.lean ====
section
/-! DEFINITION. Placement of teams on cores (R43, R326, R309), dispatch, aging and the overflow ring (R289 to R293), and the start of
control groups (R19, R298). -/

namespace Sys2Proof.Machine

/-! ### Room on a core -/

/-- Threads of the group that hold rows and that a lane map puts on a physical lane (R43). -/
def Group.onLane (g : Group) (lanes : Vector Nat 32) (lane : Nat) : Nat :=
  (allLanes.filter fun i => g.hosts.getLsbD i.val && decide (lanes[i] = lane)).length

/-- Rows that a group holds on a physical lane: its resident limit for each of those threads there (R43, R341), and from the TAKE on
those that its planned fold needs there. -/
def Group.rowsOn (g : Group) (lane : Nat) : Nat :=
  if g.isControl then 0
  else max (g.resident * g.onLane g.lanes lane) ((g.foldPlan.map fun p => p.resident * g.onLane p.lanes lane).getD 0)

/-- Free rows of a physical lane. -/
def freeRows (s : State) (core lane : Nat) : Nat :=
  Config.rowsPerLane - ((groupsOn s core).map fun p => p.2.rowsOn lane).sum

def heldLanes (s : State) (core : Nat) : List Nat := match (coreOf s core).hold with
  | some h => h.lanes
  | none => []

def teamsOn (s : State) (core : Nat) : List (Nat × Team) := s.teams.filter fun p => decide (p.2.core = core)

/-- Scratch bytes of a core that no team holds (R342). -/
def freeScratch (s : State) (core : Nat) : Nat := Config.scratchBytes - ((teamsOn s core).map fun p => p.2.physical).sum

def freeAcc (s : State) (core : Nat) : Nat := Config.accTiles - ((teamsOn s core).map fun p => p.2.accCount).sum

/-- Dictionary memories of a core whose kernel has a team there. -/
def dictUsed (s : State) (core kid : Nat) : Bool := (teamsOn s core).any fun p => decide (p.2.kernel = kid)

/-- The dictionaries of a core after a kernel's has its memory, most recently placed last; none when all four are in use (R43, R309). -/
def takeDict (s : State) (core kid : Nat) : Option (List (Nat × Nat)) :=
  let ds := (coreOf s core).dicts
  let rest := ds.filter fun d => decide (d.1 ≠ kid)
  if rest.length < ds.length ∨ ds.length < 4 then some (rest ++ [(kid, s.fresh)])
  else match rest.find? fun d => !dictUsed s core d.1 with
    | some d => some ((rest.filter fun x => decide (x.1 ≠ d.1)) ++ [(kid, s.fresh)])
    | none => none

/-- H of R326: slots a context holds on a core that cannot be taken, those of the kernel being placed apart. -/
def heldSlots (s : State) (core ctx : Nat) (k : Kernel) : Nat :=
  (((coreOf s core).res.filter fun r => decide (r.ctx = ctx) && !r.transit && !isIdle s core r &&
    !(decide (k.base ≤ r.ov) && decide (r.ov < k.base + k.overlays.length))).map fun r => r.slots.length).sum

/-- A team of a kernel fits a core, its groups' slots and rows apart (R43, R326). -/
def roomFor (s : State) (core ctx kid : Nat) (k : Kernel) (scratch acc : Nat) : Bool :=
  decide (scratch ≤ freeScratch s core) && decide (acc ≤ freeAcc s core) && (takeDict s core kid).isSome &&
  decide (k.workset + heldSlots s core ctx k ≤ slotQuotaOn s core ctx)

/-- One group as placement sees it: role, index in the role, width, live threads and budget. -/
structure Shape where
  role : Nat
  idx : Nat
  width : Nat
  hosts : BitVec 32
  budget : Nat
  deriving DecidableEq, Repr

/-- Logical lanes 0 to n - 1. -/
def firstLanes (n : Nat) : BitVec 32 := BitVec.ofNat 32 (2 ^ n - 1)

/-- The groups of a team in GID order (R40, R36). -/
def teamShape (k : Kernel) (r : TaskRec) : List Shape :=
  ((List.range k.roles.length).zip k.roles).flatMap fun p =>
    (List.range p.2.count).map fun i => { role := p.1, idx := i, width := launchWidth p.2 r, hosts := firstLanes (launchWidth p.2 r), budget := p.2.regs }

/-- The physical lanes of a list that host the live threads of a group. -/
def Shape.lanes (sh : Shape) (l : List Nat) : List Nat := (((List.range l.length).zip l).filter fun p => sh.hosts.getLsbD p.1).map (·.2)

/-- Rows that a placing takes on a lane. -/
def placedRows (l : List (Shape × (Nat × List Nat))) (lane : Nat) : Nat :=
  (l.map fun p => if (p.1.lanes p.2.2).contains lane then p.1.budget else 0).sum

/-- Groups of a list of first lanes that lie in a quarter. -/
def inQuarter (q : Nat) (lanes : List Nat) : Nat := (lanes.filter fun x => decide (x / 32 = q)).length

/-- The placing puts every group in one quarter, its live threads on distinct unheld lanes with room for their rows, and on a free slot (R37,
R43, R339). -/
def placingOk (s : State) (core : Nat) (shape : List Shape) (place : Placing) : Bool :=
  let gs := groupsOn s core
  let l := shape.zip place
  let slots := place.map (·.1)
  decide (place.length = shape.length) && decide (slots.eraseDups.length = slots.length) &&
  slots.all (fun x => decide (x < 128) && !(gs.any fun g => decide (g.2.slot = x))) &&
  l.all (fun p => decide (p.2.2.length = p.1.width) && decide ((p.1.lanes p.2.2).eraseDups.length = (p.1.lanes p.2.2).length) &&
    p.2.2.all (fun x => decide (x < 128) && decide (x / 32 = p.2.2.headD 0 / 32)) &&
    (p.1.lanes p.2.2).all fun x => !(heldLanes s core).contains x) &&
  ((List.range 128).all fun x => decide (placedRows l x ≤ freeRows s core x)) &&
  ((List.range 4).all fun q =>
    decide (inQuarter q (place.map fun p => p.2.headD 0) + inQuarter q (gs.map fun g => g.2.lanes[(0 : Fin 32)]) ≤ 32))

/-! ### A new group -/

/-- The physical lanes of the logical lanes; logical lanes that do not exist name the first. -/
def laneVec (l : List Nat) : Vector Nat 32 := Vector.ofFn fun i => (l[i.val]?).getD (l.headD 0)

/-- A group at dispatch (R291, R257): live threads at ENTRY, arguments in w0-w7, refresh points at the moment of dispatch. -/
def newGroup (s : State) (ctx kernel : Nat) (team : Option Nat) (core slot gid : Nat) (sh : Shape) (r : TaskRec) (lanes : Vector Nat 32) : Group :=
  { ctx := ctx, kernel := kernel, team := team, core := core, slot := slot, serial := mgetD (coreOf s core).serials slot 0 + 1,
    age := s.fresh, gid := gid, role := sh.role, roleIdx := sh.idx, width := sh.width, hosts := sh.hosts, budget := sh.budget,
    join := if team.isSome then r.join else 0, weight := if team.isSome then r.weight else 0, depth := r.depth.toNat, graph := none,
    st := .placed,
    threads := Vector.ofFn fun i =>
      if i.val < sh.width then { Thread.empty with live := true, ov := BitVec.ofNat 16 (recOv r), pc := BitVec.ofNat 32 (recOff r) } else Thread.empty
    w := Vector.ofFn fun i => if h : i.val < 8 then r.args[i.val] else 0
    q := Vector.replicate 8 0, gstat := 0, fpen := 0, rwin := 0, ntvec := 0, ncause := 0, hcause := 0, hpc := 0, haddr := 0, stack := [],
    homeLanes := lanes, lanes := lanes, level := 0, resident := sh.budget, foldCount := 0, spilled := [], lastRead := [], wantFill := [],
    foldPlan := none, reclaiming := none, pend := [], rho := Vector.replicate 4 s.fresh, seen := [], loads := [], bases := [], atoms := [], badRegs := [],
    publishing := none, heldPublish := none, dcfg := 0x3F80000000000004#64, drawKey := 0, drawCtr := 0, hiddenW := Vector.replicate 4 0, joinArrived := false,
    detached := false, killDue := none, notices := [] }

/-- A group enters the state on its slot, whose placement serial advances (R354). -/
def addGroup (s : State) (id : Nat) (g : Group) : State :=
  let c := coreOf s g.core
  setGroup (setCore s g.core { c with serials := mput c.serials g.slot g.serial }) id g

/-- A PLACED group starts if its entry overlay is resident, else the load it needs begins (Table 14.2, R317, R324). -/
def startGroup (s : State) (id : Nat) : State :=
  match mget s.groups id with
  | none => s
  | some g =>
    if g.st ≠ .placed then s
    else match lowestLane g.liveMask with
      | none => s
      | some l =>
        let ov := g.threads[l].ov.toNat
        let r := needOverlay s g.core g.ctx ov id
        if r.2 then
          match codeOf (coreOf r.1 g.core) g.ctx ov with
          | some x => setGroup (setCore r.1 g.core (touchRes (coreOf r.1 g.core) x)) id (g.startIn x)
          | none => r.1
        else r.1

/-! ### Placing a team -/

/-- A team at placement (R125, R213, R257, R311): nothing written, everything 0. -/
def newTeam (ctx kid core qid qborn grid : Nat) (index nteam ngrp : Nat) (k : Kernel) : Team :=
  { ctx := ctx, kernel := kid, core := core, qid := qid, qborn := qborn, grid := grid, index := u64 index, nteam := u64 nteam, ngrp := ngrp,
    scratchSize := ceilDiv k.scratch 256 * 256, physical := ceilDiv k.scratch 256 * 256, accCount := k.acc, scratch := [], lines := [], touched := [], badLines := [],
    bars := Vector.replicate 16 { n := 0, m := 0, phase := 0, last := Vector.replicate 32 none },
    tiles := Vector.replicate 16 { base := 0, fmt := 0, rows := 0, cols := 0, stride := 0, inc := 0, scale := 0, maskq := 0, layout := 0 },
    acc := [], cr := Vector.replicate 32 .empty, dtable := 0, dtableBy := 0, pins := [], subs := [], windows := [], stashFull := [],
    stashDirty := [], stashFills := [], stashErrs := [], unacked := [], reloading := [], ended := false, killed := false }

/-- Add the groups of a team, in GID order. DESIGN CHOICE (log entry 93): of groups placed at once, the one of the lower GID is older. -/
def addGroups (ctx kid tid core : Nat) (r : TaskRec) : List (Shape × (Nat × List Nat)) → Nat → State → State
  | [], _, s => s
  | p :: l, gid, s =>
    let g := newGroup s ctx kid (some tid) core p.2.1 gid p.1 r (laneVec p.2.2)
    addGroups ctx kid tid core r l (gid + 1) (addGroup { s with fresh := s.fresh + 1 } s.fresh g)

/-- First placement (Tables 10.2 and 12.2). -/
def markPlaced (s : State) (ctx kid : Nat) : State :=
  let s := match mget s.kernels kid with
    | some k => if k.st = .ready then { s with kernels := mput s.kernels kid { k with st := .running } } else s
    | none => s
  match mget s.contexts ctx with
  | some c => if c.st = .opened then setContext s ctx { c with st := .running } else s
  | none => s

/-- The kernel's dictionary takes its memory on a core. -/
def loadDict (s : State) (core kid : Nat) : State :=
  match takeDict s core kid with
  | some ds => setCore s core { coreOf s core with dicts := ds }
  | none => s

/-- The groups of a team start in GID order. -/
def startTeam (s : State) (tid : Nat) : State :=
  ((sortBy ((teamGroups s tid).map fun p => (p.2.gid, p.1))).map (·.2)).foldl startGroup s

/-- One team of a task is placed on a core (R291, R309). -/
def placeTeam (s : State) (ctx kid : Nat) (k : Kernel) (core qid qborn : Nat) (t : Task) (place : Placing) : State :=
  let shape := teamShape k t.record
  let tid := s.fresh
  let s := loadDict { s with fresh := s.fresh + 1 } core kid
  let s := setTeam s tid (newTeam ctx kid core qid qborn t.grid t.next t.nteam shape.length k)
  startTeam (markPlaced (addGroups ctx kid tid core t.record (shape.zip place) 0 s) ctx kid) tid

/-! ### DISPATCH -/

/-- A queue dispatches (Table 11.1): also while its context lets it (R279, R282). -/
def dispatching (s : State) (q : Queue) : Bool :=
  (decide (q.st = .active) || (decide (q.st = .draining) && !q.discarding)) &&
  match mget s.contexts q.ctx with
  | some c => (decide (c.st = .opened) || decide (c.st = .running)) && decide (c.switch = .none)
  | none => false

/-- A core may take a task of a segment (R287, R292). -/
def coreMay (s : State) (q : Queue) (seg core : Nat) (t : Task) : Bool :=
  decide (core < Config.computeCores) && q.mask.getLsbD core && (!recLocal t.record || decide (seg / 256 = dieOf core)) &&
  match mget s.contexts q.ctx with
  | some c => c.mask.getLsbD core
  | none => false

/-- The kernel of a task, READY or RUNNING without a pending unload. -/
def taskKernel (s : State) (q : Queue) (t : Task) : Option (Nat × Kernel) :=
  match overlayOf s q.ctx (recOv t.record) with
  | some (kid, k, _) => if (k.st = .ready ∨ k.st = .running) ∧ k.unload = false then some (kid, k) else none
  | none => none

/-- Some choice of `n` elements of a list, in its order, meets a test. -/
def anyChoice (f : List Nat → Bool) : Nat → List Nat → List Nat → Bool
  | 0, _, done => f done
  | _ + 1, [], _ => false
  | n + 1, x :: l, done => decide (n ≤ l.length) && (anyChoice f n l (done ++ [x]) || anyChoice f (n + 1) l done)

/-- The groups of a list fit a core beside those already given lanes and slots: some placing puts them there (R43). Which free slot a
group gets and the order of its lanes change nothing. -/
def someFit (s : State) (core : Nat) : List Shape → List (Shape × (Nat × List Nat)) → Bool
  | [], done => placingOk s core (done.map (·.1)) (done.map (·.2))
  | sh :: l, done =>
    let usable (x : Nat) : Bool := !(heldLanes s core).contains x && decide (sh.budget + placedRows done x ≤ freeRows s core x)
    let slot := (List.range 128).find? fun x => !((groupsOn s core).any fun g => decide (g.2.slot = x)) && !(done.any fun p => decide (p.2.1 = x))
    slot.any fun x => (List.range 4).any fun q =>
      anyChoice (fun c => someFit s core l (done ++ [(sh, (x, c))])) sh.width (((List.range 32).map (32 * q + ·)).filter usable) []

/-- A team of a task fits a core (R292, R43). -/
def taskFits (s : State) (q : Queue) (core : Nat) (t : Task) : Bool :=
  match taskKernel s q t with
  | none => false
  | some (kid, k) => roomFor s core q.ctx kid k (ceilDiv k.scratch 256 * 256) k.acc && someFit s core (teamShape k t.record) []

/-- Another slot of the segment comes first: higher EPRIO, or equal and lower AGE0 (R292). -/
def before (a b : Task) : Bool := decide (b.eprio < a.eprio) || (decide (a.eprio = b.eprio) && decide (a.age0 < b.age0))

/-- The segment after one dispatch from a slot (R291 steps 4 and 5). -/
def Segment.dispatched (x : Segment) (slot : Nat) (t : Task) : Segment :=
  { x with disp := x.disp + 1
           slots := if t.next + 1 = t.nteam then mdel x.slots slot else mput x.slots slot { t with next := t.next + 1 } }

/-- A promotion of R293 is due to a task. -/
def Task.due (t : Task) (disp : Nat) : Bool := decide (t.age0 + 65536 ≤ disp)

/-- DISPATCH (R291, R292). It follows the promotions and the refill that are due in its segment (R293, R289), so that no ready task is passed
over for ever (R62). -/
def dispatchTeam (s : State) (qid seg slot core : Nat) (place : Placing) : State :=
  match mget s.queues qid with
  | none => s
  | some q =>
    let x := q.seg seg
    match mget x.slots slot with
    | none => s
    | some t => match taskKernel s q t with
      | none => s
      | some (kid, k) =>
        if dispatching s q && coreMay s q seg core t && roomFor s core q.ctx kid k (ceilDiv k.scratch 256 * 256) k.acc &&
            placingOk s core (teamShape k t.record) place &&
            !x.refillDue && !(x.slots.any fun p => p.2.due x.disp) && !(x.spill.any fun p => p.2.due x.disp) &&
            !(x.slots.any fun p => decide (p.1 ≠ slot) && before p.2 t && coreMay s q seg core p.2 && taskFits s q core p.2) then
          settleQueues (placeTeam (setQueue s qid (q.setSeg seg (x.dispatched slot t))) q.ctx kid k core qid q.born t place)
        else s

def execDispatch (qid seg slot core : Nat) (place : Placing) (s : State) : Out := .next (dispatchTeam s qid seg slot core place)

/-! ### Aging and refill -/

/-- A task one priority level up, once 65,536 dispatches have passed (R293). -/
def Task.promote (t : Task) (disp : Nat) : Task :=
  if t.due disp then { t with eprio := min (t.eprio + 1) 7, age0 := t.age0 + 65536 } else t

/-- TASK_PROMOTION: a slot, or with numbers from 256 on a spilled entry (R293). -/
def taskPromotion (s : State) (qid seg slot : Nat) : State :=
  match mget s.queues qid with
  | none => s
  | some q =>
    let x := q.seg seg
    if slot < 256 then match mget x.slots slot with
      | none => s
      | some t => setQueue s qid (q.setSeg seg { x with slots := mput x.slots slot (t.promote x.disp) })
    else match x.spill[slot - 256]? with
      | none => s
      | some (pos, t) =>
        writeSpill (setQueue s qid (q.setSeg seg { x with spill := x.spill.set (slot - 256) (pos, t.promote x.disp) })) q seg pos (t.promote x.disp)

def execTaskPromotion (qid seg slot : Nat) (s : State) : Out := .next (taskPromotion s qid seg slot)

/-- OVERFLOW_REFILL (R289): the first spilled entry moves into a free slot. -/
def overflowRefill (s : State) (qid seg : Nat) : State :=
  match mget s.queues qid with
  | none => s
  | some q =>
    if (q.seg seg).refillDue then setQueue s qid (q.setSeg seg (refillSegment s q seg (q.seg seg))) else s

def execOverflowRefill (qid seg : Nat) (s : State) : Out := .next (overflowRefill s qid seg)

/-! ### Control groups -/

/-- The control core lies in a cluster that holds a compute core of the context's mask (R274). -/
def ctlCoreOk (c : Context) (n : Nat) : Bool :=
  decide (n < Config.controlCores) && (List.range 4).any fun i => c.mask.getLsbD (4 * n + i)

/-- A free group slot of a control core, which holds at most 16 control groups (R18); the device's choice among them is free. -/
def ctlSlot (s : State) (core : Nat) : Option Nat :=
  if 16 ≤ (groupsOn s core).length then none
  else pick s.tick (2 ^ 93) ((List.range 16).filter fun x => !((groupsOn s core).any fun g => decide (g.2.slot = x)))

/-- STARTCG's placement (R19): the state and the control group, or none where a condition fails. -/
def startControl (s : State) (ctx n kid : Nat) (r : TaskRec) : Option (State × Group) :=
  match mget s.contexts ctx, (mget s.kernels kid).filter fun k => decide (k.ctx = ctx) with
  | some c, some k =>
    let core := Config.computeCores + n
    match ctlSlot s core, if k.base ≤ recOv r then k.overlays[recOv r - k.base]? else none with
    | some slot, some o =>
      if ctlCoreOk c n && decide (o.slots ≤ slotQuotaOn s core ctx) && decide (recOff r % 2 = 0) && decide (recOff r < o.size) then
        let sh : Shape := { role := 0, idx := 0, width := 1, hosts := 1, budget := (k.roles.head?.map Role.regs).getD 16 }
        let g := newGroup s ctx kid none core slot 0 sh r (laneVec [0])
        some (startGroup (addGroup { s with fresh := s.fresh + 1 } s.fresh g) s.fresh, g)
      else none
    | _, _ => none
  | _, _ => none

end Sys2Proof.Machine
end

