-- ==== Sys2Proof/Machine/Graph.lean ====
section
/-! DEFINITION. Graphs: the interpreter and its commands (11_queue_and_graph.md R298 to R300). -/

namespace Sys2Proof.Machine

/-- Field of a command: `n` bytes at an offset (Table 11.8). -/
def cmdField (c : List Byte) (o n : Nat) : Nat := leNat ((c.drop o).take n)

/-- The interpreter runs: a replay is under way, its control group is not parked, and its context is not switched out. -/
def interpreter (s : State) (x : Graph) : Option Group :=
  if !x.replaying then none
  else (mget s.groups x.cg).filter fun g => decide (g.st = .active) && match mget s.contexts x.ctx with
    | some c => decide (c.switch = .none) && decide (c.st ≠ .switchedOut)
    | none => false

/-- The graph is IDLE again, with or without its ERROR bit (R300 step 7). -/
def Graph.stop (x : Graph) (err : Bool) : Graph := { x with replaying := false, error := x.error || err, armed := [], pos := 0 }

def Graph.next (x : Graph) : Graph := { x with pos := x.pos + 1 }

/-- The command at the interpreter's position, of a kind. -/
def graphCmd (s : State) (gid kind : Nat) : Option (Graph × Group × List Byte) :=
  match mget s.graphs gid with
  | none => none
  | some x => match interpreter s x, x.cmds[x.pos]? with
    | some g, some c => if cmdField c 0 1 = kind then some (x, g, c) else none
    | _, _ => none

/-- A fault on a command parks the interpreter (R300). -/
def parkInterpreter (s : State) (x : Graph) (t : TrapInfo) : State := takeTrap s x.cg t 1 { Issue.none with group := x.cg }

/-- Causes that a check of a TASK or ARM fails with; the others are faults of the command (R300). -/
def checkCause (c : Nat) : Bool := decide (c = 1 ∨ c = 2 ∨ c = 4 ∨ c = 6)

/-- ARGi of a TASK: the latched register that its PATCH byte names (R300 step 3). -/
def patchedArg (x : Graph) (c : List Byte) (r : TaskRec) (i : Fin 8) : DWord :=
  let p := cmdField c (8 + i.val) 1
  if 128 ≤ p then x.latched[p % 16]! else r.args[i]

/-- The JOIN field of a TASK: the epoch of the replay's arm of that index (R300 step 3). -/
def patchedJoin (x : Graph) (j : Word) : Word :=
  match x.armed.find? fun p => decide (p.1 = joinIndex j) with
  | some p => u32 (p.2.toNat * 2 ^ 24 + joinIndex j)
  | none => j

/-- GRAPH_TASK (R300 step 3); a queue that takes no task, DRAINING or DESTROYED, is tried again (log entries 36, 112). -/
def graphTask (s : State) (gid : Nat) : State :=
  match graphCmd s gid 1 with
  | none => s
  | some (x, _, c) =>
    let r := recordOf ((c.drop 16).take 80)
    let qid := cmdField c 2 2
    let teams := cmdField c 4 4
    if (mget s.queues qid).all (fun q => decide (q.ctx ≠ x.ctx)) || !entryOk s x.ctx r || decide (teams = 0) || !recordOk r then
      setGraph s gid (x.stop true)
    else
      let p := publishGroup s x.cg .dev
      if p.2.2 then p.1
      else match insertTask p.1 qid { r with depth := 0, join := patchedJoin x r.join, args := Vector.ofFn fun i => patchedArg x c r i } teams with
        | none => p.1
        | some s' => setGraph s' gid x.next

def execGraphTask (gid : Nat) (s : State) : Out := .next (graphTask s gid)

/-- The context of the graph has a feature. -/
def ctxFeature (s : State) (ctx bit : Nat) : Bool :=
  match mget s.contexts ctx with
  | some c => c.feat[(0 : Fin 4)].getLsbD bit
  | none => false

/-- GRAPH_ARM (R300 step 4). -/
def graphArm (s : State) (gid : Nat) : State :=
  match graphCmd s gid 2 with
  | none => s
  | some (x, g, c) =>
    let a := u64 (cmdField c 16 8)
    let p := u64 (cmdField c 24 8)
    if !ctxFeature s x.ctx 3 || !armOk p then setGraph s gid (x.stop true)
    else match joinFind s x.ctx g.core a with
      | .error t => if checkCause t.cause then setGraph s gid (x.stop true) else parkInterpreter s x t
      | .ok (i, t) =>
        let h := armHandle (readJoin s t) i p
        let s := armJoin s (agentOf g.core) (some x.cg) t p
        if h = 0 then setGraph s gid (x.stop true)
        else setGraph s gid { x.next with armed := (i, BitVec.ofNat 8 (h / 2 ^ 24)) :: x.armed }

def execGraphArm (gid : Nat) (s : State) : Out := .next (graphArm s gid)

/-- GRAPH_WAIT (R300 step 5): the wait ends when the join's STATE leaves ARMED. -/
def graphWait (s : State) (gid : Nat) : State :=
  match graphCmd s gid 3 with
  | none => s
  | some (x, g, c) => match joinFind s x.ctx g.core (u64 (cmdField c 16 8)) with
    | .error t => parkInterpreter s x t
    | .ok (_, t) =>
      let j := readJoin s t
      if j.armed then s
      else
        let s := refreshGroup (seeBytes s (some x.cg) (fieldBytes t stateField)) x.cg .dev
        setGraph s gid (if j.state = 3 then x.stop true else x.next)

def execGraphWait (gid : Nat) (s : State) : Out := .next (graphWait s gid)

/-- GRAPH_WRITE (R300 step 6): the store and its publish at .dev. -/
def graphWrite (s : State) (gid : Nat) : State :=
  match graphCmd s gid 4 with
  | none => s
  | some (x, g, c) =>
    let a := u64 (cmdField c 16 8)
    let b := cmdField c 1 1
    let v := if 128 ≤ b then x.latched[b % 16]! else u64 (cmdField c 24 8)
    if a.toNat % 8 ≠ 0 then parkInterpreter s x { cause := 2, haddr := a, access := 0 }
    else match translate s x.ctx (agentOf g.core) 0 a .write with
      | .error f => parkInterpreter s x { cause := f.cause, haddr := a, access := f.access }
      | .ok t =>
        let p := publishGroup (setGroup s x.cg { g with pend := g.pend ++ storeUnits t a (leList v.toNat 8) }) x.cg .dev
        if p.2.2 then s else setGraph p.1 gid x.next

def execGraphWrite (gid : Nat) (s : State) : Out := .next (graphWrite s gid)

/-- GRAPH_END (R300 step 7, R299): END, a KIND outside 0 to 4 with ERROR, or the end of the list. -/
def graphEnd (s : State) (gid : Nat) : State :=
  match mget s.graphs gid with
  | none => s
  | some x => match interpreter s x with
    | none => s
    | some _ => match x.cmds[x.pos]? with
      | none => setGraph s gid (x.stop false)
      | some c =>
        let k := cmdField c 0 1
        if k = 0 then setGraph s gid (x.stop false) else if 4 < k then setGraph s gid (x.stop true) else s

def execGraphEnd (gid : Nat) (s : State) : Out := .next (graphEnd s gid)

/-- The interpreter control group of a graph: no thread of it issues (R298). -/
def interpreterGroup (s : State) (ctx core slot gid : Nat) : Group :=
  let sh : Shape := { role := 0, idx := 0, width := 0, hosts := 0, budget := 16 }
  { newGroup s ctx 0 none core slot 0 sh (recordOf []) (laneVec [0]) with st := .active, kernel := 2 ^ 32, graph := some gid }

/-- RECORDG (R298): none where the control core has no room; every resident overlay of the context counts there, in use or idle (log entry 114). -/
def recordGraph (s : State) (ctx gid count n : Nat) (addr : DWord) (cmds : List (List Byte)) : Option State :=
  match mget s.contexts ctx with
  | none => none
  | some c =>
    let core := Config.computeCores + n
    let used := (((coreOf s core).res.filter fun r => decide (r.ctx = ctx) && !r.transit).map fun r => r.slots.length).sum
    match ctlSlot s core with
    | none => none
    | some slot =>
      if ctlCoreOk c n && decide (used + 1 ≤ slotQuotaOn s core ctx) then
        let g := interpreterGroup s ctx core slot gid
        let x : Graph := { ctx := ctx, count := count, addr := addr, cg := s.fresh, gp := Vector.replicate 16 0, latched := Vector.replicate 16 0,
                           replaying := false, error := false, pos := 0, cmds := cmds, armed := [] }
        some (setGraph (addGroup { s with fresh := s.fresh + 1 } s.fresh g) gid x)
      else none

/-- FREEG (R298): the graph and its interpreter are gone. -/
def freeGraph (s : State) (gid : Nat) (x : Graph) : State :=
  { s with graphs := mdel s.graphs gid, groups := mdel s.groups x.cg }

end Sys2Proof.Machine
end

