-- ==== Sys2Proof/Decode.lean ====
section
/-! DEFINITION. From bytes to an instruction (03_instruction_words.md R64 to R83), total on any bytes, and the encoder from the
same tables. Words are read as numbers whose bit 0 is the least significant bit of the first byte (R2). -/

namespace Sys2Proof

/-- The `n` bits of `w` from bit `lo` upward. -/
def bits (w lo n : Nat) : BitVec n := BitVec.ofNat n (w / 2 ^ lo)

/-- The same field as a number. -/
def fieldN (w lo n : Nat) : Nat := w / 2 ^ lo % 2 ^ n

/-- Bit `i` of `w`. -/
def bitAt (w i : Nat) : Bool := w / 2 ^ i % 2 == 1

/-- The A-form operands of a word (Table 3.4). -/
def rdA3 (w : Nat) : A3 := ⟨bitAt w 29, bitAt w 28, bits w 21 7, bits w 14 7, bits w 7 7⟩

/-- A form whose b field and Lb must be 0. -/
def rdA2 (w : Nat) : A2 := ⟨bitAt w 28, bits w 14 7, bits w 7 7⟩

/-- I-form operands: the mark stands in bit 21. -/
def rdI2 (w : Nat) : A2 := ⟨bitAt w 21, bits w 14 7, bits w 7 7⟩

def rdCmp (w : Nat) : CmpOps :=
  ⟨bits w 30 2, bits w 10 4, bits w 7 3, bitAt w 29, bitAt w 28, bits w 21 7, bits w 14 7⟩

def rdMem (w : Nat) : MemOps := ⟨bits w 30 2, bitAt w 29, bits w 26 3, bits w 19 7, bits w 14 5, bits w 7 7⟩

/-- `some i` when the must-be-zero condition holds (R82 step 1). -/
def only (c : Bool) (i : Instr) : Option Instr := if c then some i else none

/-- A 7-bit field that must name a uniform register: its number, for 96-127. -/
def uniField (w lo : Nat) : Option (BitVec 5) :=
  if 96 ≤ fieldN w lo 7 then some (BitVec.ofNat 5 (fieldN w lo 7 - 96)) else none

/-- A 7-bit field that is 0 for "none" or names a uniform register (`0 or wD`, R359, R237, R431). -/
def optUniField (w lo : Nat) : Option (Option (BitVec 5)) :=
  if fieldN w lo 7 = 0 then some none else (uniField w lo).map some

/-- The fields d, a and e of an O form, which must be 0 where an entry does not use them (R78). -/
def dZero (w : Nat) : Bool := fieldN w 7 7 == 0
def aZero (w : Nat) : Bool := fieldN w 14 7 == 0
def eZero (w : Nat) : Bool := fieldN w 21 5 == 0

/-- The e field, a w register. -/
def eReg (w : Nat) : BitVec 5 := bits w 21 5

/-- MAUX (Table 7.21). -/
def rdMaux (w : Nat) : Option Instr :=
  let acc : BitVec 6 := bits w 14 6
  let a20 := bitAt w 20
  match fieldN w 26 6 with
  | 0 => only (dZero w && eZero w && !a20) (.mzero acc)
  | 1 => only (fieldN w 11 3 == 0 && eZero w && !a20) (.mload acc (bits w 7 4))
  | 2 => only (fieldN w 11 3 == 0 && eZero w && !a20) (.mstore (bits w 7 4) acc)
  | 3 => only (!a20) (.mread (bits w 7 7) acc (eReg w))
  | 4 => only (!a20) (.mwrite acc (eReg w) (bits w 7 7))
  | 5 => only (dZero w && eZero w) (.mwait a20 acc)
  | _ => none

/-- TDESC (Table 7.17). -/
def rdTdesc (w : Nat) : Option Instr :=
  let t : BitVec 4 := bits w 14 4
  let ok := fieldN w 18 3 == 0 && !bitAt w 25
  match fieldN w 26 6 with
  | 0 => (uniField w 7).bind fun s => only ok (.tset t (bits w 21 4) s)
  | 1 => (uniField w 7).bind fun d => only ok (.tget d t (bits w 21 4))
  | 2 => only (ok && dZero w && eZero w) (.tclr t)
  | _ => none

/-- PROJ/DRAW (Table 9.2, R260, R263, R267). -/
def rdDraw (w : Nat) : Option Instr :=
  let menu : BitVec 4 := BitVec.ofNat 4 (fieldN w 18 3 + 8 * fieldN w 25 1)
  match fieldN w 26 6 with
  | 0 => only (!bitAt w 13) (.mprojC (bits w 7 6) (bits w 14 4) (bits w 21 4) menu)
  | 1 => only (!bitAt w 13) (.mprojS (bits w 7 6) (bits w 14 4) (bits w 21 4) menu)
  | 2 => only (dZero w && aZero w) (.drawcfg (eReg w))
  | 3 => (uniField w 7).bind fun d => only (!bitAt w 20) (.draw d (bits w 14 6) (eReg w))
  | 4 => (uniField w 7).bind fun m => only (aZero w) (.deliver m (eReg w))
  | 5 => only (dZero w && aZero w) (.drawseed (eReg w))
  | _ => none

/-- ORDER (Table 3.7, Tables 8.9 and 8.11, R238 to R242). -/
def rdOrder (w : Nat) : Option Instr :=
  let m := fieldN w 26 6
  let z := dZero w && aZero w && eZero w
  let sc : BitVec 2 := bits w 26 2
  if m < 4 then only z (.phaseP sc)
  else if m < 8 then only z (.phaseR sc)
  else if m < 12 then only z (.phase sc)
  else match m with
  | 16 => (uniField w 14).bind fun t => (optUniField w 7).bind fun d => some (.waitm d (eReg w) t)
  | 17 => (uniField w 14).bind fun g => (uniField w 7).bind fun l => some (.smap (eReg w) g l)
  | 18 => only (dZero w && aZero w) (.sunmap (eReg w))
  | 19 => only (dZero w && aZero w) (.sflush (eReg w))
  | 20 => only (fieldN w 8 6 == 0) (.prefetch (bitAt w 7) (eReg w) (bits w 14 7))
  | 21 => only z .fenceS
  | _ => none

/-- ENGINE (Tables 8.14 and 8.16, R251, R255). -/
def rdEngine (w : Nat) : Option Instr :=
  let t : BitVec 4 := bits w 14 4
  let tile := fieldN w 18 3 == 0
  match fieldN w 26 6 with
  | 0 => (uniField w 7).bind fun g => only tile (.tcopy t g (eReg w))
  | 1 => (uniField w 7).bind fun g => only tile (.tstore t g (eReg w))
  | 2 => (uniField w 7).bind fun g => only tile (.tstoreA t g (eReg w))
  | 3 => (uniField w 7).bind fun g => only tile (.tmcast t g (eReg w))
  | 4 => (uniField w 7).bind fun g => only tile (.gather t g (eReg w))
  | 5 => only (tile && eZero w && decide (fieldN w 7 7 ≤ 1)) (.own t (bitAt w 7))
  | 6 => (uniField w 7).bind fun s => only (aZero w) (.engineSub (eReg w) s)
  | 7 => only (dZero w && aZero w) (.subend (eReg w))
  | 8 => only (dZero w) (.slotdone (eReg w) (bits w 14 7))
  | 9 => (uniField w 7).bind fun k => (uniField w 14).bind fun p => some (.kvmove k p (eReg w))
  | _ => none

/-- BARRIER (Table 15.1). -/
def rdBarrier (w : Nat) : Option Instr :=
  let b : BitVec 4 := bits w 14 4
  let bOk := fieldN w 18 3 == 0
  let e := eReg w
  match fieldN w 26 6 with
  | 0 => only (!bitAt w 13 && bOk && eZero w) (.barSync b (bits w 7 6))
  | 1 => only (!bitAt w 13 && bOk && eZero w) (.barArrive b (bits w 7 6))
  | 2 => only (dZero w && bOk && eZero w) (.barWait b)
  | 3 => (uniField w 7).bind fun r => only (aZero w) (.tbarInit r e)
  | 4 => (uniField w 7).bind fun s => only (aZero w) (.tbarExpect s e)
  | 5 => (optUniField w 7).bind fun d => only (aZero w) (.tbarArrive d e)
  | 6 => (optUniField w 7).bind fun d => (uniField w 14).bind fun p => some (.tbarWait d p e)
  | 7 => (uniField w 7).bind fun s => only (aZero w) (.tbarAck s e)
  | 8 => (optUniField w 7).bind fun d => (uniField w 14).bind fun p => some (.joinArm d p e)
  | 9 => (uniField w 7).bind fun i => some (.joinArrive i (bits w 14 7) e)
  | 10 => only (dZero w && aZero w) (.joinWait e)
  | 11 => (uniField w 7).bind fun d => only (fieldN w 16 5 == 0) (.joinRead d (bits w 14 2) e)
  | 12 => only (dZero w && aZero w) (.joinCancel e)
  | 13 => only (dZero w && aZero w && eZero w) .killoff
  | 14 => only (dZero w && aZero w && eZero w) .killon
  | _ => none

/-- TASK (Tables 11.6 and 11.9, R294, R302). -/
def rdTask (w : Nat) : Option Instr :=
  let k : BitVec 3 := bits w 7 3
  let kOk := fieldN w 10 4 == 0
  match fieldN w 26 6 with
  | 0 => (uniField w 14).bind fun q => only kOk (.enq k q (eReg w))
  | 1 => only (kOk && aZero w) (.spawn k (eReg w))
  | 2 => (uniField w 14).bind fun q => only kOk (.launch k q (eReg w))
  | 3 => (uniField w 14).bind fun g => only (fieldN w 11 3 == 0) (.gpset g (bits w 7 4) (eReg w))
  | 4 => (uniField w 14).bind fun g => (uniField w 7).bind fun d => only (!bitAt w 25) (.gpget d g (bits w 21 4))
  | 5 => (uniField w 14).bind fun g => only (kOk && eZero w) (.greplay k g)
  | _ => none

/-- FLOW (Table 13.5, R182 to R187). -/
def rdFlow (w : Nat) : Option Instr :=
  let d0 := dZero w
  let a0 := aZero w
  let e0 := eZero w
  match fieldN w 26 6 with
  | 0 => (uniField w 7).bind fun d => only e0 (.ovload d (bits w 14 7))
  | 1 => only d0 (.ovcall (eReg w) (bits w 14 7))
  | 2 => only d0 (.ovjump (eReg w) (bits w 14 7))
  | 3 => only (d0 && a0 && e0) .ret
  | 4 => only (d0 && a0) (.ovpin (eReg w))
  | 5 => only (d0 && a0) (.ovunpin (eReg w))
  | 6 => only (d0 && a0) (.ovdrop (eReg w))
  | 7 => (uniField w 7).bind fun d => only a0 (.ovquery d (eReg w))
  | 8 => only (d0 && a0 && e0) .exit
  | 9 => only (d0 && e0) (.trap (bits w 14 7))
  | 10 => only (d0 && a0 && e0) .rth
  | 11 => only (d0 && a0 && e0) .nret
  | 12 => only (d0 && a0 && e0) .yield
  | 13 => only (d0 && a0 && e0) .nop
  | _ => none

/-- SYS (Tables 6.28, 10.8, 14.3, 14.10, 17.8, 19.2, R193, R412). -/
def rdSys (w : Nat) : Option Instr :=
  match fieldN w 26 6 with
  | 0 => only (eZero w) (.srd (bits w 7 7) (bits w 14 7))
  | 1 => only (dZero w) (.swr (bits w 14 7) (eReg w))
  | 2 => (uniField w 7).bind fun d => (uniField w 14).bind fun c => some (.reclaimTake d c (eReg w))
  | 3 => (uniField w 7).bind fun d => (uniField w 14).bind fun h => only (fieldN w 22 4 == 0) (.resume (bitAt w 21) d h)
  | 4 => (uniField w 14).bind fun c => only (dZero w) (.tlbinv (eReg w) c)
  | 5 => (uniField w 7).bind fun d => (optUniField w 14).bind fun c => some (.pgquery d (eReg w) c)
  | 6 => (uniField w 14).bind fun t => (optUniField w 7).bind fun d => only (eZero w) (.pwrreq d t)
  | 7 => (uniField w 7).bind fun d =>
      match fieldN w 14 7 with
      | 0 => some (.ctxopQuery d (eReg w))
      | 1 => some (.ctxopSwout d (eReg w))
      | 2 => some (.ctxopSwin d (eReg w))
      | _ => none
  | 8 => only (dZero w && aZero w && eZero w) .halt
  | _ => none

/-- The f field. -/
def fF (w : Nat) : BitVec 2 := bits w 30 2

/-- LOGICI and SHIFTI split their immediate (Table 3.6). -/
def rdLogici (w : Nat) : Option Instr :=
  match fieldN w 30 2 with
  | 0 => some (.andi (bits w 22 8) (rdI2 w))
  | 1 => some (.ori (bits w 22 8) (rdI2 w))
  | 2 => some (.xori (bits w 22 8) (rdI2 w))
  | _ => some (.andni (bits w 22 8) (rdI2 w))

def rdShifti (w : Nat) : Option Instr :=
  let z := fieldN w 27 3 == 0
  match fieldN w 30 2 with
  | 0 => only z (.shli (bits w 22 5) (rdI2 w))
  | 1 => only z (.shri (bits w 22 5) (rdI2 w))
  | 2 => only z (.sari (bits w 22 5) (rdI2 w))
  | _ => only z (.roti (bits w 22 5) (rdI2 w))

/-- The integer majors 0x00 to 0x17 (Tables 3.5 and 3.6). -/
def rdInt (w : Nat) : Option Instr :=
  let f := fieldN w 30 2
  let o := rdA3 w
  let b0 := fieldN w 21 7 == 0 && !bitAt w 29
  match fieldN w 1 6 with
  | 0x00 => some (.add (fF w) o)
  | 0x01 => some (.sub (fF w) o)
  | 0x02 => some (.mul (fF w) o)
  | 0x03 => only (f == 0) (.mad o)
  | 0x04 => some (.min (fF w) o)
  | 0x05 => some (.max (fF w) o)
  | 0x06 => match f with
    | 0 => some (.land o) | 1 => some (.lor o) | 2 => some (.lxor o) | _ => some (.landn o)
  | 0x07 => match f with
    | 0 => some (.shl o) | 1 => some (.shr o) | 2 => some (.sar o) | _ => some (.rot o)
  | 0x08 => match f with
    | 0 => only b0 (.popc (rdA2 w)) | 1 => only b0 (.clz (rdA2 w))
    | 2 => only b0 (.brev (rdA2 w)) | _ => only b0 (.ffs (rdA2 w))
  | 0x09 => match f with
    | 0 => some (.bfeN o) | 1 => some (.bfeS o) | 2 => some (.bfi o) | _ => none
  | 0x0A => some (.cmp (rdCmp w))
  | 0x0B => some (.sel (fF w) o)
  | 0x0C => some (.addi (bits w 22 10) (rdI2 w))
  | 0x0D => rdLogici w
  | 0x0E => rdShifti w
  | 0x0F => some (.movw (bits w 14 18) (bits w 7 7))
  | 0x10 => some (.movh (bits w 14 18) (bits w 7 7))
  | 0x11 => some (.movx (bits w 14 18) (bits w 7 7))
  | 0x12 => some (.lea (fF w) o)
  | 0x13 => only b0 (.cvti (fF w) (rdA2 w))
  | 0x14 => some (.idot4 (fF w) o)
  | 0x15 => some (.idot4s (fF w) o)
  | 0x16 => some (.idot8 (fF w) o)
  | 0x17 => some (.idot8s (fF w) o)
  | _ => none

/-- Branches and lane operations, majors 0x18 to 0x1F (R76, R177 to R181). -/
def rdFlowLane (w : Nat) : Option Instr :=
  let off : BitVec 18 := bits w 14 18
  let o := rdA3 w
  match fieldN w 1 6 with
  | 0x18 => only (dZero w) (.br off)
  | 0x19 => only (fieldN w 11 3 == 0) (.brc off (bitAt w 10) (bits w 7 3))
  | 0x1A => only (fieldN w 12 2 == 0) (.brloop off (bits w 7 5))
  | 0x1B => only (dZero w) (.call off)
  | 0x1C => some (.lshf (fF w) o)
  | 0x1D => some (.lred (fF w) o)
  | 0x1E => some (.lscan (fF w) o)
  | 0x1F => only (fieldN w 17 4 == 0 && fieldN w 21 7 == 0 && fieldN w 28 2 == 0)
      (.vote (fF w) (bits w 14 3) (bits w 7 7))
  | _ => none

/-- Floating-point majors 0x20 to 0x2B (Table 3.6). -/
def rdFloat (w : Nat) : Option Instr :=
  let f := fieldN w 30 2
  let o := rdA3 w
  match fieldN w 1 6 with
  | 0x20 => match f with | 0 => some (.fadd o) | 1 => some (.fsub o) | _ => none
  | 0x21 => only (f == 0) (.fmul o)
  | 0x22 => match f with | 0 => some (.ffma o) | 1 => some (.ffms o) | 2 => some (.fnma o) | _ => none
  | 0x23 => match f with | 0 => some (.fmin o) | 1 => some (.fmax o) | _ => none
  | 0x24 => some (.fcmp (rdCmp w))
  | 0x25 => only (fieldN w 21 7 == 0 && !bitAt w 29) (.frnd (fF w) (rdA2 w))
  | 0x26 => only (f == 0 && !bitAt w 29 && fieldN w 24 4 == 0) (.fspec (bits w 21 3) (rdA2 w))
  | 0x27 => only (!bitAt w 29) (.cvtf (fF w) (bits w 21 7) (rdA2 w))
  | 0x28 => some (.fdot (fF w) o)
  | 0x29 => some (.pack (fF w) o)
  | 0x2A => some (.unpack (fF w) o)
  | 0x2B => some (.fscale (fF w) o)
  | _ => none

/-- Majors 0x2C to 0x3F. -/
def rdHigh (w : Nat) : Option Instr :=
  match fieldN w 1 6 with
  | 0x2C => only (fieldN w 30 2 == 0 && !bitAt w 27 && !bitAt w 13)
      (.mloop (bitAt w 29) (bitAt w 28) (bits w 22 5) (bits w 18 4) (bits w 14 4) (bits w 7 6))
  | 0x2D => rdMaux w
  | 0x2E => rdTdesc w
  | 0x2F => rdDraw w
  | 0x30 => some (.ld (rdMem w))
  | 0x31 => some (.st (rdMem w))
  | 0x32 => some (.lds (rdMem w))
  | 0x33 => some (.sts (rdMem w))
  | 0x34 => some (.atom (bits w 28 4) (bits w 26 2) (eReg w) (bits w 14 7) (bits w 7 7))
  | 0x35 => only (fieldN w 30 2 == 0) (.atoms (bits w 26 4) (eReg w) (bits w 14 7) (bits w 7 7))
  | 0x36 => only (!bitAt w 30)
      (if bitAt w 31 then .stvM (bits w 26 4) (eReg w) (bits w 14 7) (bits w 7 7)
       else .ldvM (bits w 26 4) (eReg w) (bits w 14 7) (bits w 7 7))
  | 0x37 => rdOrder w
  | 0x38 => rdEngine w
  | 0x3C => rdBarrier w
  | 0x3D => rdTask w
  | 0x3E => rdFlow w
  | 0x3F => rdSys w
  | _ => none

/-- A 32-bit word by its major opcode, before the checks of WellFormed. -/
def rdWord (w : Nat) : Option Instr :=
  let m := fieldN w 1 6
  if m < 0x18 then rdInt w else if m < 0x20 then rdFlowLane w else if m < 0x2C then rdFloat w else rdHigh w

/-- A halfword: H form (bits [1:0] = 00) or D form (R69, R70, R83). -/
def rdHalf (h : Nat) : Option Instr :=
  if h % 4 = 2 then only (fieldN h 12 4 == 0) (.dict (bits h 2 10))
  else
    let b : BitVec 5 := bits h 11 5
    let d : BitVec 5 := bits h 6 5
    match fieldN h 2 4 with
    | 0 => some (.movH b d) | 1 => some (.addH b d) | 2 => some (.subH b d) | 3 => some (.mulH b d)
    | 4 => some (.andH b d) | 5 => some (.orH b d) | 6 => some (.xorH b d) | 7 => some (.shlH b d)
    | 8 => some (.shrH b d) | 9 => some (.sarH b d) | 10 => some (.minH b d) | 11 => some (.maxH b d)
    | 12 => some (.faddH b d) | 13 => some (.fsubH b d) | 14 => some (.fmulH b d) | _ => some (.fmaxH b d)

/-- A term that is well formed, or nothing (R82 step 1). -/
def checked (i : Option Instr) : Option Instr := i.filter Instr.wf

/-- The instruction of a 32-bit word. -/
def decodeWord (w : Nat) : Option Instr := checked (rdWord w)

/-- The instruction of a halfword. -/
def decodeHalf (h : Nat) : Option Instr := checked (rdHalf h)

/-- What stands at the start of a run of bytes: an instruction and its length, a word or halfword that is none (cause 0x01, with the
word for HADDR), or bytes that end before the instruction does (cause 0x06; the number of bytes that stand there). -/
inductive Decoded where
  | instr (i : Instr) (len : Nat) (word : Nat)
  | illegal (word : Nat) (len : Nat)
  | short (have_ : Nat)
  deriving DecidableEq, Repr

/-- The length of an instruction is in bit 0 of its first halfword (R64). -/
def decode : List Byte → Decoded
  | b0 :: b1 :: rest =>
    let h := b0.toNat + 256 * b1.toNat
    if h % 2 = 0 then
      match decodeHalf h with
      | some i => .instr i 2 h
      | none => .illegal h 2
    else match rest with
      | b2 :: b3 :: _ =>
        let w := h + 65536 * (b2.toNat + 256 * b3.toNat)
        match decodeWord w with
        | some i => .instr i 4 w
        | none => .illegal w 4
      | _ => .short 2
  | _ => .short 0

/-- The bytes of a number, least significant first (R2). -/
def leBytes : Nat → Nat → List Byte
  | 0, _ => []
  | n + 1, w => BitVec.ofNat 8 w :: leBytes n (w / 256)

/-- The instruction the decoder reads from `nbits` bits `w` laid out as the hardware stores them, zeros above. -/
def decodeTableWord (nbits w : Nat) : Option Instr :=
  match decode (leBytes 4 (w % 2 ^ nbits)) with
  | .instr i _ _ => some i
  | _ => none

/-! ### The encoder (Tables 3.2 and 3.4) -/

def b2n (b : Bool) : Nat := if b then 1 else 0

/-- A uniform register in a 7-bit field. -/
def u7 (r : BitVec 5) : Nat := 96 + r.toNat

/-- "0 or wD". -/
def ou7 : Option (BitVec 5) → Nat
  | none => 0
  | some r => u7 r

def encA (major f : Nat) (o : A3) : Nat :=
  f * 2 ^ 30 + b2n o.lb * 2 ^ 29 + b2n o.la * 2 ^ 28 + o.b.toNat * 2 ^ 21 + o.a.toNat * 2 ^ 14 + o.d.toNat * 2 ^ 7
    + major * 2 + 1

/-- A form with a given b field and Lb = 0. -/
def encAb (major f b : Nat) (o : A2) : Nat :=
  f * 2 ^ 30 + b2n o.la * 2 ^ 28 + b * 2 ^ 21 + o.a.toNat * 2 ^ 14 + o.d.toNat * 2 ^ 7 + major * 2 + 1

def encI (major imm : Nat) (o : A2) : Nat :=
  imm * 2 ^ 22 + b2n o.la * 2 ^ 21 + o.a.toNat * 2 ^ 14 + o.d.toNat * 2 ^ 7 + major * 2 + 1

def encWB (major imm c : Nat) : Nat := imm * 2 ^ 14 + c * 2 ^ 7 + major * 2 + 1

def encM (major : Nat) (o : MemOps) : Nat :=
  o.hint.toNat * 2 ^ 30 + b2n o.lx * 2 ^ 29 + o.sz.toNat * 2 ^ 26 + o.x.toNat * 2 ^ 19 + o.base.toNat * 2 ^ 14
    + o.d.toNat * 2 ^ 7 + major * 2 + 1

def encO (major minor e a d : Nat) : Nat := minor * 2 ^ 26 + e * 2 ^ 21 + a * 2 ^ 14 + d * 2 ^ 7 + major * 2 + 1

def encCmp (major : Nat) (o : CmpOps) : Nat :=
  encA major o.f.toNat ⟨o.lb, o.la, o.b, o.a, BitVec.ofNat 7 (o.cond.toNat * 8 + o.k.toNat)⟩

def encH (op : Nat) (b d : BitVec 5) : Nat := b.toNat * 2 ^ 11 + d.toNat * 2 ^ 6 + op * 4

/-- The encoding of an instruction: its width in bits and its word. Commands and events have none. RECLAIM.GIVE has the word of
RECLAIM (Table 14.3), which the decoder reads as `reclaimTake`. -/
def encode : Instr → Option (Nat × Nat)
  | .add f o => some (32, encA 0x00 f.toNat o)
  | .sub f o => some (32, encA 0x01 f.toNat o)
  | .mul f o => some (32, encA 0x02 f.toNat o)
  | .mad o => some (32, encA 0x03 0 o)
  | .min f o => some (32, encA 0x04 f.toNat o)
  | .max f o => some (32, encA 0x05 f.toNat o)
  | .land o => some (32, encA 0x06 0 o)
  | .lor o => some (32, encA 0x06 1 o)
  | .lxor o => some (32, encA 0x06 2 o)
  | .landn o => some (32, encA 0x06 3 o)
  | .shl o => some (32, encA 0x07 0 o)
  | .shr o => some (32, encA 0x07 1 o)
  | .sar o => some (32, encA 0x07 2 o)
  | .rot o => some (32, encA 0x07 3 o)
  | .popc o => some (32, encAb 0x08 0 0 o)
  | .clz o => some (32, encAb 0x08 1 0 o)
  | .brev o => some (32, encAb 0x08 2 0 o)
  | .ffs o => some (32, encAb 0x08 3 0 o)
  | .bfeN o => some (32, encA 0x09 0 o)
  | .bfeS o => some (32, encA 0x09 1 o)
  | .bfi o => some (32, encA 0x09 2 o)
  | .cmp o => some (32, encCmp 0x0A o)
  | .sel f o => some (32, encA 0x0B f.toNat o)
  | .addi imm o => some (32, encI 0x0C imm.toNat o)
  | .andi imm o => some (32, encI 0x0D imm.toNat o)
  | .ori imm o => some (32, encI 0x0D (256 + imm.toNat) o)
  | .xori imm o => some (32, encI 0x0D (512 + imm.toNat) o)
  | .andni imm o => some (32, encI 0x0D (768 + imm.toNat) o)
  | .shli n o => some (32, encI 0x0E n.toNat o)
  | .shri n o => some (32, encI 0x0E (256 + n.toNat) o)
  | .sari n o => some (32, encI 0x0E (512 + n.toNat) o)
  | .roti n o => some (32, encI 0x0E (768 + n.toNat) o)
  | .movw imm d => some (32, encWB 0x0F imm.toNat d.toNat)
  | .movh imm d => some (32, encWB 0x10 imm.toNat d.toNat)
  | .movx imm d => some (32, encWB 0x11 imm.toNat d.toNat)
  | .lea f o => some (32, encA 0x12 f.toNat o)
  | .cvti f o => some (32, encAb 0x13 f.toNat 0 o)
  | .idot4 f o => some (32, encA 0x14 f.toNat o)
  | .idot4s f o => some (32, encA 0x15 f.toNat o)
  | .idot8 f o => some (32, encA 0x16 f.toNat o)
  | .idot8s f o => some (32, encA 0x17 f.toNat o)
  | .br off => some (32, encWB 0x18 off.toNat 0)
  | .brc off sense k => some (32, encWB 0x19 off.toNat (b2n sense * 8 + k.toNat))
  | .brloop off w => some (32, encWB 0x1A off.toNat w.toNat)
  | .call off => some (32, encWB 0x1B off.toNat 0)
  | .lshf f o => some (32, encA 0x1C f.toNat o)
  | .lred f o => some (32, encA 0x1D f.toNat o)
  | .lscan f o => some (32, encA 0x1E f.toNat o)
  | .vote f k d => some (32, f.toNat * 2 ^ 30 + k.toNat * 2 ^ 14 + d.toNat * 2 ^ 7 + 0x1F * 2 + 1)
  | .fadd o => some (32, encA 0x20 0 o)
  | .fsub o => some (32, encA 0x20 1 o)
  | .fmul o => some (32, encA 0x21 0 o)
  | .ffma o => some (32, encA 0x22 0 o)
  | .ffms o => some (32, encA 0x22 1 o)
  | .fnma o => some (32, encA 0x22 2 o)
  | .fmin o => some (32, encA 0x23 0 o)
  | .fmax o => some (32, encA 0x23 1 o)
  | .fcmp o => some (32, encCmp 0x24 o)
  | .frnd f o => some (32, encAb 0x25 f.toNat 0 o)
  | .fspec fn o => some (32, encAb 0x26 0 fn.toNat o)
  | .cvtf f c o => some (32, encAb 0x27 f.toNat c.toNat o)
  | .fdot f o => some (32, encA 0x28 f.toNat o)
  | .pack f o => some (32, encA 0x29 f.toNat o)
  | .unpack f o => some (32, encA 0x2A f.toNat o)
  | .fscale f o => some (32, encA 0x2B f.toNat o)
  | .mloop m z cnt tB tA acc =>
    some (32, b2n m * 2 ^ 29 + b2n z * 2 ^ 28 + cnt.toNat * 2 ^ 22 + tB.toNat * 2 ^ 18 + tA.toNat * 2 ^ 14
      + acc.toNat * 2 ^ 7 + 0x2C * 2 + 1)
  | .mzero acc => some (32, encO 0x2D 0 0 acc.toNat 0)
  | .mload acc t => some (32, encO 0x2D 1 0 acc.toNat t.toNat)
  | .mstore t acc => some (32, encO 0x2D 2 0 acc.toNat t.toNat)
  | .mread d acc e => some (32, encO 0x2D 3 e.toNat acc.toNat d.toNat)
  | .mwrite acc e d => some (32, encO 0x2D 4 e.toNat acc.toNat d.toNat)
  | .mwait all acc => some (32, encO 0x2D 5 0 (b2n all * 64 + acc.toNat) 0)
  | .tset t f s => some (32, encO 0x2E 0 f.toNat t.toNat (u7 s))
  | .tget d t f => some (32, encO 0x2E 1 f.toNat t.toNat (u7 d))
  | .tclr t => some (32, encO 0x2E 2 0 t.toNat 0)
  | .mprojC acc tA tB m =>
    some (32, encO 0x2F 0 (m.toNat / 8 * 16 + tB.toNat) (m.toNat % 8 * 16 + tA.toNat) acc.toNat)
  | .mprojS acc tA tB m =>
    some (32, encO 0x2F 1 (m.toNat / 8 * 16 + tB.toNat) (m.toNat % 8 * 16 + tA.toNat) acc.toNat)
  | .drawcfg s => some (32, encO 0x2F 2 s.toNat 0 0)
  | .draw d acc e => some (32, encO 0x2F 3 e.toNat acc.toNat (u7 d))
  | .deliver m t => some (32, encO 0x2F 4 t.toNat 0 (u7 m))
  | .drawseed s => some (32, encO 0x2F 5 s.toNat 0 0)
  | .ld o => some (32, encM 0x30 o)
  | .st o => some (32, encM 0x31 o)
  | .lds o => some (32, encM 0x32 o)
  | .sts o => some (32, encM 0x33 o)
  | .atom op sc e x d => some (32, encO 0x34 (op.toNat * 4 + sc.toNat) e.toNat x.toNat d.toNat)
  | .atoms op e x d => some (32, encO 0x35 op.toNat e.toNat x.toNat d.toNat)
  | .ldvM n e x d => some (32, encO 0x36 n.toNat e.toNat x.toNat d.toNat)
  | .stvM n e x d => some (32, encO 0x36 (32 + n.toNat) e.toNat x.toNat d.toNat)
  | .phaseP sc => some (32, encO 0x37 sc.toNat 0 0 0)
  | .phaseR sc => some (32, encO 0x37 (4 + sc.toNat) 0 0 0)
  | .phase sc => some (32, encO 0x37 (8 + sc.toNat) 0 0 0)
  | .waitm d e t => some (32, encO 0x37 16 e.toNat (u7 t) (ou7 d))
  | .smap o g l => some (32, encO 0x37 17 o.toNat (u7 g) (u7 l))
  | .sunmap o => some (32, encO 0x37 18 o.toNat 0 0)
  | .sflush o => some (32, encO 0x37 19 o.toNat 0 0)
  | .prefetch l2 e x => some (32, encO 0x37 20 e.toNat x.toNat (b2n l2))
  | .fenceS => some (32, encO 0x37 21 0 0 0)
  | .tcopy t g b => some (32, encO 0x38 0 b.toNat t.toNat (u7 g))
  | .tstore t g b => some (32, encO 0x38 1 b.toNat t.toNat (u7 g))
  | .tstoreA t g b => some (32, encO 0x38 2 b.toNat t.toNat (u7 g))
  | .tmcast t r b => some (32, encO 0x38 3 b.toNat t.toNat (u7 r))
  | .gather t g b => some (32, encO 0x38 4 b.toNat t.toNat (u7 g))
  | .own t en => some (32, encO 0x38 5 0 t.toNat (b2n en))
  | .engineSub r s => some (32, encO 0x38 6 r.toNat 0 (u7 s))
  | .subend r => some (32, encO 0x38 7 r.toNat 0 0)
  | .slotdone r x => some (32, encO 0x38 8 r.toNat x.toNat 0)
  | .kvmove k p b => some (32, encO 0x38 9 b.toNat (u7 p) (u7 k))
  | .barSync b n => some (32, encO 0x3C 0 0 b.toNat n.toNat)
  | .barArrive b n => some (32, encO 0x3C 1 0 b.toNat n.toNat)
  | .barWait b => some (32, encO 0x3C 2 0 b.toNat 0)
  | .tbarInit r a => some (32, encO 0x3C 3 a.toNat 0 (u7 r))
  | .tbarExpect s a => some (32, encO 0x3C 4 a.toNat 0 (u7 s))
  | .tbarArrive d a => some (32, encO 0x3C 5 a.toNat 0 (ou7 d))
  | .tbarWait d p a => some (32, encO 0x3C 6 a.toNat (u7 p) (ou7 d))
  | .tbarAck s a => some (32, encO 0x3C 7 a.toNat 0 (u7 s))
  | .joinArm d p j => some (32, encO 0x3C 8 j.toNat (u7 p) (ou7 d))
  | .joinArrive i c j => some (32, encO 0x3C 9 j.toNat c.toNat (u7 i))
  | .joinWait j => some (32, encO 0x3C 10 j.toNat 0 0)
  | .joinRead d sel j => some (32, encO 0x3C 11 j.toNat sel.toNat (u7 d))
  | .joinCancel j => some (32, encO 0x3C 12 j.toNat 0 0)
  | .killoff => some (32, encO 0x3C 13 0 0 0)
  | .killon => some (32, encO 0x3C 14 0 0 0)
  | .enq k q r => some (32, encO 0x3D 0 r.toNat (u7 q) k.toNat)
  | .spawn k r => some (32, encO 0x3D 1 r.toNat 0 k.toNat)
  | .launch k q r => some (32, encO 0x3D 2 r.toNat (u7 q) k.toNat)
  | .gpset g n s => some (32, encO 0x3D 3 s.toNat (u7 g) n.toNat)
  | .gpget d g n => some (32, encO 0x3D 4 n.toNat (u7 g) (u7 d))
  | .greplay k g => some (32, encO 0x3D 5 0 (u7 g) k.toNat)
  | .ovload d i => some (32, encO 0x3E 0 0 i.toNat (u7 d))
  | .ovcall t en => some (32, encO 0x3E 1 t.toNat en.toNat 0)
  | .ovjump t en => some (32, encO 0x3E 2 t.toNat en.toNat 0)
  | .ret => some (32, encO 0x3E 3 0 0 0)
  | .ovpin t => some (32, encO 0x3E 4 t.toNat 0 0)
  | .ovunpin t => some (32, encO 0x3E 5 t.toNat 0 0)
  | .ovdrop t => some (32, encO 0x3E 6 t.toNat 0 0)
  | .ovquery d t => some (32, encO 0x3E 7 t.toNat 0 (u7 d))
  | .exit => some (32, encO 0x3E 8 0 0 0)
  | .trap c => some (32, encO 0x3E 9 0 c.toNat 0)
  | .rth => some (32, encO 0x3E 10 0 0 0)
  | .nret => some (32, encO 0x3E 11 0 0 0)
  | .yield => some (32, encO 0x3E 12 0 0 0)
  | .nop => some (32, encO 0x3E 13 0 0 0)
  | .srd d s => some (32, encO 0x3F 0 0 s.toNat d.toNat)
  | .swr sel s => some (32, encO 0x3F 1 s.toNat sel.toNat 0)
  | .reclaimTake d c l | .reclaimGive d c l => some (32, encO 0x3F 2 l.toNat (u7 c) (u7 d))
  | .resume k d h => some (32, encO 0x3F 3 (b2n k) (u7 h) (u7 d))
  | .tlbinv a c => some (32, encO 0x3F 4 a.toNat (u7 c) 0)
  | .pgquery d a c => some (32, encO 0x3F 5 a.toNat (ou7 c) (u7 d))
  | .pwrreq d t => some (32, encO 0x3F 6 0 (u7 t) (ou7 d))
  | .ctxopQuery d s => some (32, encO 0x3F 7 s.toNat 0 (u7 d))
  | .ctxopSwout d s => some (32, encO 0x3F 7 s.toNat 1 (u7 d))
  | .ctxopSwin d s => some (32, encO 0x3F 7 s.toNat 2 (u7 d))
  | .halt => some (32, encO 0x3F 8 0 0 0)
  | .dict i => some (16, i.toNat * 4 + 2)
  | .movH b d => some (16, encH 0 b d)
  | .addH b d => some (16, encH 1 b d)
  | .subH b d => some (16, encH 2 b d)
  | .mulH b d => some (16, encH 3 b d)
  | .andH b d => some (16, encH 4 b d)
  | .orH b d => some (16, encH 5 b d)
  | .xorH b d => some (16, encH 6 b d)
  | .shlH b d => some (16, encH 7 b d)
  | .shrH b d => some (16, encH 8 b d)
  | .sarH b d => some (16, encH 9 b d)
  | .minH b d => some (16, encH 10 b d)
  | .maxH b d => some (16, encH 11 b d)
  | .faddH b d => some (16, encH 12 b d)
  | .fsubH b d => some (16, encH 13 b d)
  | .fmulH b d => some (16, encH 14 b d)
  | .fmaxH b d => some (16, encH 15 b d)
  | _ => none

/-- The bytes of an instruction as the instruction store holds them (R2, R64); none for a command or event. -/
def encodeBytes (i : Instr) : Option (List Byte) := (encode i).map fun p => leBytes (p.1 / 8) p.2

end Sys2Proof
end

