-- ==== Sys2Proof/Machine/Kernel.lean ====
section
/-! DEFINITION. Drify commands as the endpoint takes them (R423 to R427), and kernels: images, loading, unloading, release (R92 to R95,
R303 to R306). -/

namespace Sys2Proof.Machine

/-! ### Commands -/

/-- The endpoint answers while some link is UP or DEGRADED (R415). -/
def anyLinkUp (s : State) : Bool := s.links.any fun p => decide (p.2.st = .up) || decide (p.2.st = .degraded)

/-- One answer (R423, R427); one that goes over UUD may be lost. -/
def reply (s : State) (h : Hdr) (op status : Nat) (body : List DWord) : State :=
  if h.mode = .uud ∧ Config.choice s.tick (2 ^ 97) % 2 = 1 then s else { s with answers := s.answers ++ [.drify op h status body] }

/-- What a command comes to: the state, the status and the answer's body. -/
structure Reply where
  s : State
  status : Nat
  body : List DWord

def ok (s : State) (body : List DWord) : Reply := { s := s, status := 0, body := body }
def refuse (s : State) (status : Nat) : Reply := { s := s, status := status, body := [] }

/-- A command of the span firmware itself on context 0, which it owns (R19, R450): log entry 86. -/
def fromFirmware (s : State) (h : Hdr) : Bool := decide (h.assoc = 0) && decide (h.ctx = 0) && decide (6 ≤ s.fw.step)

/-- The endpoint takes a command: some link is up, and its mode carries the command (R415, R423: UUD only QUERYQ and PORTQUERY). -/
def arrives (s : State) (h : Hdr) (op : Nat) : Bool :=
  fromFirmware s h || (anyLinkUp s && (decide (h.mode ≠ .uud) || decide (op = 0x1E ∨ op = 0x30)))

/-- The endpoint takes an ATTEST, which needs no association: some link is up, and it does not come over UUD (R415, R423, R452). -/
def attestArrives (s : State) (h : Hdr) : Bool := anyLinkUp s && decide (h.mode ≠ .uud)

/-- A command that comes on a TSS association of the module (R423, R452). -/
def associated (s : State) (h : Hdr) (op : Nat) (f : Reply) : Out :=
  .next (if !arrives s h op then s
    else if !fromFirmware s h && !s.fw.assocs.contains h.assoc then reply s h op 5 []
    else reply f.s h op f.status f.body)

/-- A command for a context: the association of its OPEN, then the context's state (R423, R426). -/
def command (s : State) (h : Hdr) (op : Nat) (takes : CtxState → Bool) (f : Context → Reply) : Out :=
  associated s h op (match mget s.contexts h.ctx.toNat with
    | none => refuse s 2
    | some c => if c.assoc ≠ h.assoc then refuse s 5 else if !takes c.st then refuse s 2 else f c)

/-- States in which a context takes the commands on its objects (R426). -/
def isOpen (st : CtxState) : Bool := decide (st = .opened ∨ st = .running ∨ st = .switchedOut)

/-! ### Images -/

/-- Field of an image: `n` bytes at an offset. -/
def imgField (b : List Byte) (o n : Nat) : Nat := leNat ((b.drop o).take n)

/-- Role table (Table 3.12). -/
def imgRoles (b : List Byte) : List Role :=
  (List.range (imgField b 0x0D 1)).map fun i =>
    let o := imgField b 0x18 4 + 16 * i
    { width := imgField b (o + 0xB) 1, count := imgField b (o + 0xC) 2, regs := imgField b (o + 0xE) 2 }

/-- An overlay as its table entry gives it (Table 3.13): offset, size, entries, slots. -/
structure ImgOverlay where
  off : Nat
  size : Nat
  entries : Nat
  slots : Nat
  deriving DecidableEq, Repr

def imgOverlays (b : List Byte) : List ImgOverlay :=
  (List.range (imgField b 0x14 2)).map fun i =>
    let o := imgField b 0x1C 4 + 16 * i
    { off := imgField b o 4, size := imgField b (o + 4) 4, entries := imgField b (o + 8) 2, slots := imgField b (o + 0xA) 2 }

def imgDict (b : List Byte) : List Word :=
  (List.range (imgField b 0x16 2)).map fun i => u32 (imgField b (imgField b 0x20 4 + 4 * i) 4)

/-- A part lies in the image and is aligned on 256 B (R92; DESIGN CHOICE: the device refuses one that is not, log entry 87). -/
def partOk (size off n : Nat) : Bool := decide (off % 256 = 0) && decide (off + n ≤ size)

/-- The limits of Table 3.13 on an overlay of an image of a size. -/
def overlayOk (size : Nat) (o : ImgOverlay) : Bool :=
  decide (o.size % 2 = 0) && decide (o.size ≤ 65536) && decide (o.slots = ceilDiv o.size 8192) && partOk size o.off o.size &&
  decide (4 * o.entries ≤ o.size)

/-- The entry-table words of an overlay lie in it at even offsets (R95). -/
def entriesOk (b : List Byte) (o : ImgOverlay) : Bool :=
  (List.range o.entries).all fun i => let w := imgField b (o.off + 4 * i) 4; decide (w < o.size) && decide (w % 2 = 0)

/-- Sizes, counts and offsets keep the limits of Tables 3.10 to 3.13 (R95); an image without an overlay is outside them (log entry 105). -/
def limitsOk (b : List Byte) : Bool :=
  let size := imgField b 8 4
  decide (64 ≤ size ∧ size ≤ b.length) && decide (1 ≤ imgField b 0x0C 1 ∧ imgField b 0x0C 1 ≤ 32) && decide (1 ≤ imgField b 0x0D 1) &&
  decide (1 ≤ imgField b 0x0E 1 ∧ imgField b 0x0E 1 ≤ 40) && decide (imgField b 0x10 4 ≤ 786432) &&
  decide (1 ≤ imgField b 0x14 2 ∧ imgField b 0x14 2 ≤ 128) && decide (imgField b 0x16 2 ≤ 1024) &&
  partOk size (imgField b 0x18 4) (16 * imgField b 0x0D 1) && partOk size (imgField b 0x1C 4) (16 * imgField b 0x14 2) &&
  partOk size (imgField b 0x20 4) (4 * imgField b 0x16 2) && partOk size (imgField b 0x24 4) (imgField b 0x28 4) &&
  (imgRoles b).all (fun r => decide (r.width ≤ 32) && decide (16 ≤ r.regs ∧ r.regs ≤ 96)) && (imgOverlays b).all (overlayOk size)

/-- The checks of an image in the order of R95, that of R272 last. -/
def imageChecks (c : Context) (b : List Byte) : List Bool :=
  let h := imgField b 0x0F 1
  [decide (imgField b 0 4 = 0x4B58494D) && decide (imgField b 4 2 = 1), limitsOk b,
   decide (((imgRoles b).map (·.count)).sum = imgField b 0x0C 1), (imgOverlays b).all (entriesOk b),
   decide (imgField b 0x0E 1 ≤ c.slotQuota),
   decide (h = 0xFF) || ((imgOverlays b)[h]?).any fun o => decide (1 ≤ o.entries),
   (List.finRange 4).all fun i => decide ((u32 (imgField b (0x30 + 4 * i.val) 4)) &&& ~~~c.feat[i] = 0)]

/-- The first check that an image fails (R305). -/
def failedCheck (c : Context) (b : List Byte) : Option Nat := (imageChecks c b).findIdx? (!·)

/-! ### Accumulator tiles of a kernel (R41) -/

/-- Accumulator indices that an instruction names. -/
def accNames : Instr → List Nat
  | .mloop _ _ _ _ _ a => [a.toNat]
  | .mzero a => [a.toNat]
  | .mload a _ => [a.toNat]
  | .mstore _ a => [a.toNat]
  | .mread _ a _ => [a.toNat]
  | .mwrite a _ _ => [a.toNat]
  | .mwait all a => if all then [] else [a.toNat]
  | .mprojC a _ _ _ => [a.toNat]
  | .mprojS a _ _ _ => [a.toNat]
  | .draw _ a _ => [a.toNat]
  | _ => []

/-- Indices that a word names. -/
def accOfWord (w : Word) : List Nat :=
  match decodeWord w.toNat with
  | some i => accNames i
  | none => []

/-- The words of a run of code: a halfword with bit 0 set begins a 32-bit word, any other stands alone (R64). -/
def codeWords : Nat → List Byte → List Word
  | 0, _ => []
  | n + 1, b0 :: b1 :: l =>
    if b0.getLsbD 0 then u32 (leNat (b0 :: b1 :: l.take 2)) :: codeWords n (l.drop 2) else codeWords n l
  | _, _ => []

/-- A of R41: the highest index that an instruction of the overlays or the dictionary names, plus one. -/
def accCountOf (b : List Byte) : Nat :=
  let code := (imgOverlays b).flatMap fun o =>
    let l := ((b.drop o.off).take o.size).drop (4 * o.entries)
    codeWords l.length l
  ((code ++ imgDict b).flatMap accOfWord).foldl (fun m a => Nat.max m (a + 1)) 0

/-! ### Loading -/

/-- A free choice from a list. -/
def freePick (s : State) (salt : Nat) (l : List Nat) : Option Nat := pick s.tick salt l

/-- Overlay ids of a context that a kernel holds. -/
def idsHeld (s : State) (ctx : Nat) : List (Nat × Nat) :=
  (s.kernels.filter fun p => decide (p.2.ctx = ctx)).map fun p => (p.2.base, p.2.overlays.length)

/-- Bases at which `n` consecutive overlay ids are free; a context holds at most 65,535 (R305). -/
def freeBases (s : State) (ctx n : Nat) : List Nat :=
  let held := idsHeld s ctx
  if 65535 < (held.map (·.2)).sum + n then []
  else (List.range (65536 - n)).filter fun b => held.all fun p => decide (p.1 + p.2 ≤ b) || decide (b + n ≤ p.1)

/-- The leaf entry of a page the loader maps: readable, and executable or writable (R305). -/
def loaderLeaf (frame key : Nat) (exec : Bool) : DWord := u64 (frame * 65536 + key * 256 + (if exec then 16 else 8) + 7)

/-- Units of 8 B of a run of bytes, with their place. -/
def units8 : Nat → List Byte → List (Nat × List Byte)
  | o, a :: b :: c :: d :: e :: f :: g :: h :: l => (o, [a, b, c, d, e, f, g, h]) :: units8 (o + 8) l
  | _, [] => []
  | o, l => [(o, l)]

/-- The entry is a pointer that a walk follows. -/
def isPointer (e : DWord) (lvl : Nat) : Bool := e.getLsbD 0 && !e.getLsbD 1 && pointerOk e lvl

/-- The table that a pointer entry names. -/
def tableOf (e : DWord) : Nat := slice e 6 46 * 64

/-- The absent leaves of the level-0 tables that a tree holds: the virtual address of the page and the place of the entry (R398). -/
def emptySlots (rd : Nat → DWord) : Nat → Nat → Nat → List (Nat × Nat)
  | 0, base, va => ((List.range 32).map fun i => (va + 65536 * i, base + 8 * i)).filter fun p => !(rd p.2).getLsbD 0
  | l + 1, base, va => (List.range (2 ^ (levelBits (l + 1)).2)).flatMap fun i =>
      let e := rd (base + 8 * i)
      if isPointer e (l + 1) then emptySlots rd l (tableOf e) (va + pageSize (l + 1) * i) else []

/-- Physical memory that a tree takes: its tables and the pages of its leaves. -/
def treeRanges (rd : Nat → DWord) : Nat → Nat → List (Nat × Nat)
  | 0, base => (base, tableSize 0) :: (List.range 32).filterMap fun i =>
      let e := rd (base + 8 * i)
      if e.getLsbD 0 && decide (leafKind e ≠ 3) then some (leafPa e, pageSize 0) else none
  | l + 1, base => (base, tableSize (l + 1)) :: (List.range (2 ^ (levelBits (l + 1)).2)).flatMap fun i =>
      let e := rd (base + 8 * i)
      if isPointer e (l + 1) then treeRanges rd l (tableOf e)
      else if e.getLsbD 0 && e.getLsbD 1 && decide (leafKind e ≠ 3) then [(leafPa e, pageSize (l + 1))] else []

/-- Physical memory in use for the contexts: their trees, save areas, fault queues and remote page tables (R269, R281, R404, R419, R456). -/
def usedRanges (s : State) : List (Nat × Nat) :=
  zeroRanges s ++ s.contexts.flatMap fun p =>
    [(p.2.save, p.2.savesz), (p.2.faultq, 64 + 64 * 2 ^ 15), (p.2.rpt, 64 * p.2.rptn)] ++
    (if inMemory p.2.ptroot && decide (p.2.ptroot % 4096 = 0) then treeRanges (rdEntry s (dieAgent 0) s.fresh) 5 p.2.ptroot else [])

/-- What the loader still has for the parts of an image: the absent leaves of the context's tree, the physical memory in use, and the units
of memory that failed. -/
structure Room where
  slots : List (Nat × Nat)
  used : List (Nat × Nat)
  failed : List Nat
  deriving DecidableEq, Repr

def roomOf (s : State) (c : Context) : Room :=
  { slots := if inMemory c.ptroot && decide (c.ptroot % 4096 = 0) then emptySlots (rdEntry s (dieAgent 0) s.fresh) 5 c.ptroot 0 else []
    used := usedRanges s, failed := s.fw.failed }

/-- A frame of 64 KiB is in no range in use, nor in memory that failed, which stays unmapped (R451). -/
def Room.free (m : Room) (f : Nat) : Bool := !failedIn m.failed (65536 * f) 65536 && !m.used.any fun p => overlaps p.1 p.2 (65536 * f) 65536

/-- `n` free HBM frames: those that the loader names where they are free. -/
def takeFrames (name : Nat → Nat) : Nat → List Nat → Room → Option (List Nat × Room)
  | 0, l, m => some (l, m)
  | n + 1, l, m =>
    let f := name n % 2 ^ 23
    (if m.free f then some f else (List.range (2 ^ 23)).find? m.free).bind fun f =>
      takeFrames name n (l ++ [f]) { m with used := (65536 * f, 65536) :: m.used }

/-- Runs of `n` pages, one after another, among absent leaves. -/
def pageRuns (n : Nat) (l : List (Nat × Nat)) : List (List (Nat × Nat)) :=
  l.filterMap fun p => (List.range n).mapM fun j => l.find? fun x => decide (x.1 = p.1 + 65536 * j)

/-- Pages, with the places of their leaves, and frames for a part of an image of a size: the loader's choice among what is free (R305). -/
def takePages (s : State) (part size : Nat) (m : Room) : Option (List ((Nat × Nat) × Nat) × Room) :=
  let n := max 1 (ceilDiv size 65536)
  (pick s.tick (2 ^ 98 + part) (pageRuns n m.slots)).bind fun pages =>
    (takeFrames (fun j => Config.loaderFrame s.tick (part * 2 ^ 16 + j)) n [] m).map fun r =>
      (pages.zip r.1, { r.2 with slots := m.slots.filter fun x => !pages.contains x })

/-- Place a part of an image in context memory (R305, R95, R438): its pages are mapped by leaves that were absent on frames that were free,
and its bytes are published at .sys. Gives the state and the virtual base; none where the tree or the memory has no room (log entry 38). -/
def loadPart (s : State) (c : Context) (part : Nat) (bytes : List Byte) (exec : Bool) (m : Room) : Option (State × Nat × Room) :=
  (takePages s part bytes.length m).map fun r =>
    let key := keySerial s c.keyslot
    let map (s : State) (p : (Nat × Nat) × Nat) : State := devWrite s key p.1.2 (leList (loaderLeaf p.2 c.keyslot exec).toNat 8)
    let frame (o : Nat) : Nat := ((r.1[o / 65536]?).map (·.2)).getD 0 * 65536 + o % 65536
    let put (s : State) (u : Nat × List Byte) : State := publish s (dieAgent 0) none none .sys key ((paRange (frame u.1) u.2.length).zip u.2)
    ((units8 0 bytes).foldl put (r.1.foldl map s), (r.1.head?.map fun p => p.1.1).getD 0, r.2)

/-- Place the overlays of an image, one part each. -/
def loadOverlays (c : Context) (b : List Byte) : List ImgOverlay → Nat → State → Room → Option (State × List Overlay × Room)
  | [], _, s, m => some (s, [], m)
  | o :: l, i, s, m =>
    (loadPart s c i ((b.drop o.off).take o.size) true m).bind fun r => (loadOverlays c b l (i + 1) r.1 r.2.2).map fun rest =>
      (rest.1, { va := u64 r.2.1, size := o.size, entries := o.entries, slots := o.slots,
                 entry0 := if o.entries = 0 then 0 else imgField b o.off 4 } :: rest.2.1, rest.2.2)

/-- A checked image becomes a kernel in LOADED (R305). -/
def loadImageAs (s : State) (ctx : Nat) (c : Context) (kid base : Nat) (b : List Byte) : Option (State × Kernel) :=
  (loadOverlays c b (imgOverlays b) 0 s (roomOf s c)).bind fun r =>
  (loadPart r.1 c (imgOverlays b).length ((b.drop (imgField b 0x24 4)).take (imgField b 0x28 4)) false r.2.2).map fun d =>
    let h := imgField b 0x0F 1
    let k : Kernel :=
      { ctx := ctx, st := .loaded, unload := false, base := base, overlays := r.2.1, dict := imgDict b, data := u64 d.2.1,
        groups := imgField b 0x0C 1, roles := imgRoles b, workset := imgField b 0x0E 1, handler := if h = 0xFF then none else some h,
        scratch := imgField b 0x10 4, acc := accCountOf b }
    ({ d.1 with kernels := mput d.1.kernels kid k }, k)

/-- The device's own engine read of a context's memory (R155). -/
def devAcc (s : State) (ctx : Nat) : EngAcc := { by' := .device, ctx := ctx, who := dieAgent 0, moment := s.fresh, hbmDie := none }

/-- The device reads bytes of a context for a command; none where a page is absent, protected or remote, or an error stands there. -/
def devBytes (s : State) (ctx : Nat) (addr : DWord) (n : Nat) : Option (List Byte) :=
  match (devAcc s ctx).read s ((List.range n).map fun i => .byte (wrapVa (addr.toNat + i))) with
  | .error _ => none
  | .ok r => if r.bad then none else some r.bytes

/-- LOADK (R305, R95): status 3 with no kernel for an image that cannot be read or placed, or that fails a check; the first failed check is
reported (log entry 88). -/
def execLoadk (h : Hdr) (addr : BitVec 64) (size : Nat) (s : State) : Out :=
  command s h 0x10 isOpen fun c =>
    let ctx := h.ctx.toNat
    match devBytes s ctx addr size with
    | none => refuse s 3
    | some b => match failedCheck c b with
      | some n => refuse { s with answers := s.answers ++ [.check h n] } 3
      | none => match freePick s (2 ^ 94) ((List.range 65536).filter fun k => (mget s.kernels k).isNone),
          freePick s (2 ^ 95) (freeBases s ctx (imgField b 0x14 2)) with
        | some kid, some base => match loadImageAs s ctx c kid base b with
          | some x => ok x.1 [u64 (kid + base * 2 ^ 16), x.2.data]
          | none => refuse s 3
        | _, _ => refuse s 3

/-- The kernel of a context that an id names, or status 3 (R426). -/
def withKernel (s : State) (ctx kid : Nat) (f : Kernel → Reply) : Reply :=
  match (mget s.kernels kid).filter fun k => decide (k.ctx = ctx) with
  | some k => f k
  | none => refuse s 3

def setKernel (s : State) (kid : Nat) (k : Kernel) : State := { s with kernels := mput s.kernels kid k }

/-- READYK (R304). -/
def execReadyk (h : Hdr) (kid : Nat) (s : State) : Out :=
  command s h 0x11 isOpen fun _ => withKernel s h.ctx.toNat kid fun k =>
    if k.st = .loaded then ok (setKernel s kid { k with st := .ready }) [] else refuse s 2

/-- The unload of a kernel (R304, R306): its undispatched tasks are removed at once. -/
def unloadKernel (s : State) (kid : Nat) (k : Kernel) : State :=
  let s := removeTasks s fun _ q t => decide (q.ctx = k.ctx) && decide (k.base ≤ recOv t.record) && decide (recOv t.record < k.base + k.overlays.length)
  setKernel s kid (if k.st = .running then { k with unload := true } else { k with st := .drained })

/-- UNLOADK (R306). -/
def execUnloadk (h : Hdr) (kid : Nat) (s : State) : Out :=
  command s h 0x12 isOpen fun _ => withKernel s h.ctx.toNat kid fun k =>
    if k.st = .drained ∨ k.unload = true then refuse s 2 else ok (unloadKernel s kid k) []

/-! ### Release -/

def ofKernel (k : Kernel) (r : Residency) : Bool :=
  decide (r.ctx = k.ctx) && decide (k.base ≤ r.ov) && decide (r.ov < k.base + k.overlays.length)

/-- A core still holds a residency or the dictionary of a kernel. -/
def holdsKernel (s : State) (kid : Nat) (k : Kernel) : Bool :=
  s.cores.any fun p => p.2.res.any (ofKernel k) || p.2.dicts.any fun d => decide (d.1 = kid)

/-- KERNEL_RELEASE (R306): the residencies of a core that no group refers to and no team pins go to EVICTING and its dictionary is freed; once no core holds
any more the kernel is UNLOADED. -/
def kernelRelease (s : State) (kid core : Nat) : State :=
  match mget s.kernels kid with
  | none => s
  | some k =>
    if k.st ≠ .drained then s
    else
      let c := coreOf s core
      let s := setCore s core { c with
        dicts := c.dicts.filter fun d => decide (d.1 ≠ kid)
        res := c.res.map fun r => if ofKernel k r && decide (r.st = .resident) && decide (refCount s core r = 0) &&
            (r.transit || decide (pinCount s core r.ctx r.ov = 0)) then { r with st := .evicting } else r }
      if holdsKernel s kid k then s else { s with kernels := mdel s.kernels kid }

def execKernelRelease (kid core : Nat) (s : State) : Out := .next (kernelRelease s kid core)

end Sys2Proof.Machine
end

