-- ==== Sys2Proof/Machine/Skidder.lean ====
section
/-! DEFINITION. Rings and skidders (R252 to R254, 16_tile.md R388 to R394), and the retry of stalled operations (R405). -/

namespace Sys2Proof.Machine

/-! ### SUB -/

/-- A stream descriptor from its 64 bytes (Table 16.10). -/
def streamOf (b : List Byte) : StreamDesc :=
  let n (o k : Nat) : Nat := leNat ((b.drop o).take k)
  { kind := BitVec.ofNat 2 (n 0 1), raw := decide (n 0 1 / 4 % 2 = 1), fmt := BitVec.ofNat 4 (n 1 1), layout := BitVec.ofNat 8 (n 2 1),
    rows := n 3 1, cols := n 4 2, stride := n 8 4, count := n 0xC 4, origin := u64 (n 0x10 8), step := u64 (n 0x18 8) }

/-- The fields of a stream descriptor meet Table 16.10 and R383; `mx`: the MX formats are enabled. -/
def streamOk (b : List Byte) (mx : Bool) : Bool :=
  let n (o k : Nat) : Nat := leNat ((b.drop o).take k)
  let d := streamOf b
  let fmt := n 1 1
  decide (n 0 1 < 8) && d.kind != 0 && decide (fmt < 16) && fmt != 0 && fmt != 14 && (mx || !isScaled fmt) &&
  decide (1 ≤ d.rows ∧ d.rows ≤ 32) && (fmt = 15 || d.cols != 0) && n 6 2 = 0 && decide (1 ≤ d.count) &&
  decide (d.origin.toNat % 32 = 0) && decide (d.step.toNat % 32 = 0) && (b.drop 0x20).all (· == 0) &&
  (if d.raw then fmt = 15 || !(bitsOf fmt = 4 && d.cols % 2 = 1) else layoutOk d.layout fmt d.rows d.cols)

/-- The descriptor of a slot's image at a scratch offset (R391). -/
def StreamDesc.at' (d : StreamDesc) (off : Nat) : Desc :=
  let k := if d.fmt = 15 then 0 else ceilDiv d.cols (ksOf d.fmt.toNat)
  { base := BitVec.ofNat 20 off, fmt := d.fmt, rows := BitVec.ofNat 6 d.rows, cols := BitVec.ofNat 16 d.cols,
    stride := BitVec.ofNat 32 d.stride, inc := 512, scale := BitVec.ofNat 20 (off + 512 * k), maskq := 0, layout := d.layout }

/-- Bytes of a slot image (R391). -/
def StreamDesc.image (d : StreamDesc) : Nat :=
  let x := d.at' 0
  if d.raw then d.rows * rawRow x else 32 * x.sectors.length

/-- The fields of a ring header: base, slot size, slots, barrier, and whether the zero bytes are zero (Table 16.6). -/
def headerOf (t : Team) (off : Nat) : Nat × Nat × Nat × Nat × Bool :=
  let b := t.read off 64
  (leNat (b.take 4), leNat ((b.drop 4).take 4), leNat ((b.drop 8).take 4), leNat ((b.drop 12).take 4), (b.drop 16).all (· == 0))

/-- The checks of R389 on a ring, as far as the stream does not matter. The header's lines may be filling, or await an access that a
sequencer operation of the group has still to make (R342, R123). -/
def ringCheck (s : State) (tid : Nat) (t : Team) (off : Nat) : R Sub := do
  if !t.inRange off 128 then .error (stopTrap s 9 (u64 off))
  else if anySpilled t (linesOf off 128) || seqPending s t.core s.cur.group tid (linesOf off 128) then .error (.stall s)
  else
    let (base, size, n, bar, zero) := headerOf t off
    if !t.inRange base (size * n) then .error (stopTrap s 9 (u64 base))
    else if !t.inRange bar 16 then .error (stopTrap s 9 (u64 bar))
    else do
      let u : Sub := { ring := off, base := base, slotsz := size, nslot := n, bar := bar, sd := streamOf [], next := 0, skid := 0,
                       words := List.replicate n 0, ended := false }
      need s (zero && base % 256 = 0 && size % 256 = 0 && decide (256 ≤ size ∧ size ≤ 65536) && decide (1 ≤ n ∧ n ≤ 16) && bar % 16 = 0)
      need s (!overlaps base (size * n) off 128 && !overlaps base (size * n) bar 16 &&
        !(t.windows.any fun w => u.ranges.any fun p => overlaps p.1 p.2 w.off w.len) && decide (t.subs.length < 16) &&
        !(t.subs.any fun x => decide (x.ring = off)))
      stallIf s (anySpilled t [bar / 256])
      .ok u

/-- SUB (R252, R389, R391). -/
def engineSubStep (s : State) (r st : BitVec 5) : R State := do
  let g ← issuer s
  need s (feature s g 4)
  let (tid, t) ← issuerTeam s g
  useW s g [r.toNat, st.toNat] []
  let off := (g.rdW r.toNat).toNat
  let sa := g.rdW st.toNat
  if off % 128 ≠ 0 then .error (stopTrap s 2 (u64 off))
  else if sa.toNat % 64 ≠ 0 then .error (stopTrap s 2 sa)
  else do
    let u ← ringCheck s tid t off
    let a : EngAcc := { by' := .issue s.cur.group, ctx := g.ctx, who := agentOf g.core, moment := s.fresh, hbmDie := none }
    match a.read s ((List.range 64).map fun i => .byte (wrapVa (sa.toNat + i))) with
    | .error (.far u t) => .error (.stall (a.ask s u t))
    | .error (.fault f _) => .error (.trap s { cause := f.cause, haddr := sa, access := f.access } s.cur.mask)
    | .ok b =>
      let s := a.used s
      if b.bad then .error (stopTrap s 10 sa)
      else do
        let d := streamOf b.bytes
        need s (streamOk b.bytes (feature s g 1) && decide (d.image ≤ u.slotsz))
        match translate s g.ctx (agentOf g.core) 0 d.origin .read with
        | .error f => .error (.trap s { cause := f.cause, haddr := d.origin, access := f.access } s.cur.mask)
        | .ok tr =>
          let k := skidderOf tr g.core
          if 64 ≤ mgetD s.skidders k 0 then .error (.hold s (.unit (.stream k)))
          else
            let t := { t with subs := t.subs ++ [{ u with sd := d, skid := k }] }
            let t := t.write s.tick (off + 0x40) (leList 0 64)
            .ok (done { setTeam s tid t with skidders := mput s.skidders k (mgetD s.skidders k 0 + 1), fresh := s.fresh + 1 } g)

def execEngineSub (r s' : BitVec 5) (s : State) : Out := finish (engineSubStep s r s')

/-! ### SUBEND, SLOTDONE -/

/-- The subscription whose ring a register names (R253, R254). -/
def subAt (s : State) (t : Team) (a : DWord) : R Sub :=
  match t.subs.find? fun u => decide (u64 u.ring = a) with
  | some u => .ok u
  | none => illegal s

/-- Replace the subscription of a ring. -/
def Team.setSub (t : Team) (u : Sub) : Team := { t with subs := t.subs.map fun x => if x.ring = u.ring then u else x }

/-- SUBEND (R253). -/
def subendStep (s : State) (r : BitVec 5) : R State := do
  let g ← issuer s
  need s (feature s g 4)
  let (tid, t) ← issuerTeam s g
  useW s g [r.toNat] []
  let u ← subAt s t (g.rdW r.toNat)
  .ok (done (settleSubs (setTeam s tid (t.setSub { u with ended := true })) tid) g)

def execSubend (r : BitVec 5) (s : State) : Out := finish (subendStep s r)

/-- Place of a slot word in scratch. -/
def Sub.wordAt (u : Sub) (i : Nat) : Nat := u.ring + 0x40 + 4 * i

/-- The slot word as it stands in scratch. -/
def slotWord (t : Team) (u : Sub) (i : Nat) : Word := u32 (leNat (t.read (u.wordAt i) 4))

/-- Write a slot word by an event of Table 16.9: the state it holds is the one expected from now on (R390, R394). -/
def Team.putWord (t : Team) (now : Nat) (u : Sub) (i : Nat) (w : Word) : Team :=
  (t.write now (u.wordAt i) (leList w.toNat 4)).setSub { u with words := u.words.set i w }

/-- The slot word that the last event of Table 16.9 wrote. -/
def Sub.expected (u : Sub) (i : Nat) : Word := (u.words[i]?).getD 0

/-- A slot word with another state. -/
def wordTo (w : Word) (st : Nat) : Word := u32 (w.toNat / 2 ^ 16 * 2 ^ 16 + st)

/-- The slot number SLOTDONE reads, with its group (R254, R38). -/
def slotArg (s : State) (g : Group) (x : BitVec 7) : R (Group × Nat) :=
  if isUni x then do
    useW s g [uniIdx x] []
    .ok (g, (g.rdW (uniIdx x)).toNat)
  else
    let l := (lowestLane (s.cur.mask &&& g.liveMask)).getD 0
    let ns := (g.vname x).toList
    do
      scoreboard s g ns []
      filled s g ns
      raiseBy (freeBadBy s g [l] ns) [(l, badRead g l ns)]
      .ok ((g.orFlags 0 (g.rdLane l x).2).touchNames s.tick ns [], (g.rdLane l x).1.toNat)

/-- Hand a FULL slot back (R254): a word that the skidder did not write stays foreign to it (R394). -/
def Team.handBack (t : Team) (now : Nat) (u : Sub) (i : Nat) : Team :=
  let w := slotWord t u i
  if w = u.expected i then t.putWord now u i (wordTo w 3) else t.write now (u.wordAt i) (leList (wordTo w 3).toNat 4)

/-- SLOTDONE (R254): its write follows the accesses that the group's sequencer operations have still to make (R123). -/
def slotdoneStep (s : State) (r : BitVec 5) (x : BitVec 7) : R State := do
  let g ← issuer s
  need s (feature s g 4)
  let (tid, t) ← issuerTeam s g
  useW s g [r.toNat] []
  let (g, i) ← slotArg s g x
  let u ← subAt s t (g.rdW r.toNat)
  need s (decide (i < u.nslot))
  stallIf s (anySpilled t [u.wordAt i / 256] || seqPending s t.core s.cur.group tid [u.wordAt i / 256])
  need s (decide (slotState (slotWord t u i) = 2))
  .ok (done (setTeam s tid (t.handBack s.tick u i)) g)

def execSlotdone (r : BitVec 5) (x : BitVec 7) (s : State) : Out := finish (slotdoneStep s r x)

/-! ### Fills -/

/-- A slot word that is not the one last written ends the subscription with ERR, the slot left as found (R394): the skidder takes it no
more, and it holds the stream context no longer (R253, log entry 65). -/
def foreignEnd (s : State) (tid : Nat) (t : Team) (u : Sub) (i : Nat) : State :=
  let u := { u with ended := true, words := u.words.set i 0 }
  settleSubs (setTbarErr (setTeam s tid (t.setSub u)) tid u.bar) tid

/-- The context's switch-out has reached the step that lets no slot enter FILLING (R279 step 5). -/
def fillsStopped (s : State) (ctx : Nat) : Bool :=
  match (mget s.contexts ctx).map Context.switch with
  | some (.out n) => decide (5 ≤ n)
  | _ => false

/-- The switch-out has freed the stream contexts (R279 step 6). -/
def streamsFreed (s : State) (ctx : Nat) : Bool :=
  match (mget s.contexts ctx).map Context.switch with
  | some (.out n) => decide (6 ≤ n)
  | _ => false

/-- A skidder's operation on tile `i` of a stream in its slot. -/
def slotOp (s : State) (tid : Nat) (u : Sub) (kind : EngKind) (i : Nat) : EngOp :=
  let off := u.base + i % u.nslot * u.slotsz
  { id := s.fresh, kind := kind, group := none, team := tid, desc := u.sd.at' off, raw := u.sd.raw,
    gaddr := u.sd.origin + u64 i * u.sd.step, bar := u.bar, list := [], lines := linesOf off u.slotsz, accepted := true, moment := s.fresh,
    flipped := [], done := 0, buf := [], version := 0, retries := 0, receivers := [], ring := u.ring, slot := i % u.nslot, err := false,
    stalled := none, stopped := false, abandoned := false, published := false, remote := [] }

/-- A slot in which a fill may start: it is EMPTY, or its word says so though the skidder wrote another state last (R392, R394). -/
def fillable (t : Team) (u : Sub) (slot : Nat) : Bool := decide (slotState (u.expected slot) = 0) || decide (slotState (slotWord t u slot) = 0)

/-- FILL_START (R390, R392): tile `next` starts in its slot, while the clock of the scratchpad runs (R429). DESIGN CHOICE (log entry 118): the
whole slot word, its reserved bits too, is what the skidder last wrote, at this check and at the other three of R394. -/
def fillStart (s : State) (tid ring : Nat) : State :=
  match mget s.teams tid with
  | none => s
  | some t => match subOf t ring with
    | none => s
    | some u =>
      let i := u.next % u.nslot
      let o := slotOp s tid u .fill u.next
      if u.ended || decide (u.sd.count ≤ u.next) || !fillable t u i || fillsStopped s t.ctx || clocksStopped s t.core ||
          !linesFree s t.core o || opSpilled t o then s
      else if slotWord t u i ≠ u.expected i then foreignEnd s tid t u i
      else
        let r := acceptLines t s.tick (u.sd.kind != 2) o.lines
        let t' := r.1.putWord s.tick { u with next := u.next + 1 } i (u32 (u.next % 2 ^ 16 * 2 ^ 16 + 1))
        pushOp (setTeam { s with fresh := s.fresh + 1 } tid t') t.core { o with flipped := r.2 }

def execFillStart (team ring : Nat) (s : State) : Out := .next (fillStart s team ring)

/-- Unspecified bytes for the sectors that a stopped fill has not read (R394). -/
def fillFree (s : State) (o : EngOp) : State :=
  (o.sectors.drop o.done).foldl (fun s off => engWrite s o off ((List.range 32).map fun i => Config.freeByte s.tick (2 ^ 62 + off + i))) s

/-- The end of a slot's operation: its lines return, then the slot word is written (R392, R393). -/
def endSlot (s : State) (core : Nat) (o : EngOp) (st : Nat) : State :=
  match mget s.teams o.team with
  | none => s
  | some t =>
    let t := returnLines t s.tick (otherOps s core o) o
    match subOf t o.ring with
    | none => setTeam s o.team t
    | some u =>
      if slotWord t u o.slot ≠ u.expected o.slot then foreignEnd (setTeam s o.team t) o.team t u o.slot
      else setTeam s o.team (t.putWord s.tick u o.slot (wordTo (u.expected o.slot) st))

/-- Fill done (R392): lines, slot word, then the last decrement. -/
def endFill (s : State) (core : Nat) (o : EngOp) (total : Nat) : State :=
  let s := if o.stopped then fillFree s o else s
  dropOp (landSectors (endSlot s core o 2) o.team o.bar (total - opMade total o)) core o.id

/-- A line of an operation's tile lies in memory that the serving skidder does not reach (R394, R24). -/
def tileOutside (s : State) (core : Nat) (o : EngOp) : Bool :=
  let a := opAcc s core o
  ((((List.range o.sectors.length).flatMap fun n => (o.srcs n).flatMap Src.vas).map (· / 256)).eraseDups).any fun l =>
    match translate s a.ctx a.who 0 (u64 (256 * l)) .locate with
    | .ok t => !a.reaches t
    | .error _ => false

/-- The completion of a fill, with the version check of R387; that of a STORE stream reads nothing (R392), and finds only whether its tile lies
where the skidder reaches (R252, R394). -/
def fillTry (s : State) (core : Nat) (o : EngOp) (t : Team) : Try :=
  match (if isStoreFill t o then .finish (tileOutside s core o) else versionEnd s core o) with
  | .ask u t => .go ((opAcc s core o).ask s u t)
  | .stall f va => .stall f va
  | .again o => .go (putOp ((opAcc s core o).used s) core o)
  | .finish err => .go (endFill (if err then markErr s o else s) core o (opTotal t o))

/-- FILL_DONE (R390), while the clock of the scratchpad runs (R429). -/
def fillDone (s : State) (core id : Nat) : State :=
  match findOp s core id with
  | none => s
  | some o => match mget s.teams o.team with
    | none => if o.kind = .fill then dropOp s core id else s
    | some t =>
      if o.kind = .fill ∧ (o.abandoned = true ∨ o.stalled = none) ∧ (o.abandoned = true ∨ o.stopped = true ∨ isStoreFill t o = true ∨ opTotal t o ≤ o.done) then
        (if o.abandoned then settleSubs (dropOp s core id) o.team else if clocksStopped s core then s else takeTry s core o (fillTry s core o t))
      else s

def execFillDone (core op : Nat) (s : State) : Out := .next (fillDone s core op)

/-! ### Drains -/

/-- The tile that a slot holds: the newest started in it. -/
def Sub.tileIn (u : Sub) (slot : Nat) : Nat := (u.next - 1) - ((u.next - 1) + u.nslot - slot) % u.nslot

/-- A slot that a drain may take: it is DONE, or its word says so though the skidder last saw it FULL (R393, R394). -/
def drainable (t : Team) (u : Sub) (slot : Nat) : Bool :=
  decide (slotState (u.expected slot) = 3) || (decide (slotState (u.expected slot) = 2) && decide (slotState (slotWord t u slot) = 3))

/-- DRAIN_START (R390, R393), while the clock of the scratchpad runs (R429). -/
def drainStart (s : State) (tid ring slot : Nat) : State :=
  match mget s.teams tid with
  | none => s
  | some t => match subOf t ring with
    | none => s
    | some u =>
      let o := slotOp s tid u .drain (u.tileIn slot)
      if decide (u.nslot ≤ slot) || streamsFreed s t.ctx || clocksStopped s t.core || !drainable t u slot || !linesFree s t.core o || opSpilled t o then s
      else if slotWord t u slot ≠ u.expected slot then foreignEnd s tid t u slot
      else
        let r := acceptLines t s.tick false o.lines
        let t' := r.1.putWord s.tick u slot (wordTo (u.expected slot) 4)
        pushOp (setTeam { s with fresh := s.fresh + 1 } tid t') t.core { o with flipped := r.2 }

def execDrainStart (team ring slot : Nat) (s : State) : Out := .next (drainStart s team ring slot)

/-- The image of a slot as its drain reads it, and whether a line of it held an error. -/
def drainImage (s : State) (t : Team) (o : EngOp) : List Host.Cell × Bool :=
  let bad := o.lines.filter t.badLines.contains
  let bytes (l : Nat) : List Byte := if bad.contains l then (List.range 256).map fun i => Config.freeByte s.tick (2 ^ 62 + 256 * l + i)
    else t.read (256 * l) 256
  (o.lines.foldl (fun m l => wrBytes m (256 * l) (bytes l)) [], !bad.isEmpty)

/-- The stream ends once COUNT tiles are filled and every slot is EMPTY (R393). -/
def settleStream (s : State) (tid ring : Nat) : State :=
  match mget s.teams tid with
  | none => s
  | some t => match subOf t ring with
    | none => s
    | some u =>
      let over' := decide (u.sd.count ≤ u.next) && u.words.all fun w => decide (slotState w = 0)
      settleSubs (if over' then setTeam s tid (t.setSub { u with ended := true }) else s) tid

/-- Drain done (R393). -/
def endDrain (s : State) (core : Nat) (o : EngOp) : State := settleStream (dropOp (endSlot s core o 0) core o.id) o.team o.ring

/-- The writes of a drain, and its end (R393). A drain that finds an uncorrectable error in the image, which it reads whole first, or in
the tile's version word, writes nothing (R394, R387). -/
def drainTry (s : State) (core : Nat) (o : EngOp) (t : Team) (u : Sub) : Try :=
  if u.sd.kind = 1 then .go (endDrain s core o)
  else
    let img := drainImage s t o
    let o := { o with buf := img.1 }
    if img.2 || (layVer o.desc.layout && versionBad s (opAcc s core o) o.gaddr) then .go (endDrain (markErr s o) core o)
    else if layVer o.desc.layout then
      match storeWhole s core o with
      | .error (f, va) => if f.cause = 3 then .stall f va else .go (endDrain (markErr s o) core o)
      | .ok (s, _) => .go (endDrain s core o)
    else
      let a := opAcc s core o
      let w := a.prepAll s (sectorGroups o.packed)
      match w.2 with
      | some (f, va) => if f.cause = 3 then .stall f va else .go (endDrain (markErr (makeWrites s a (.engine core o.id) w.1 []).1 o) core o)
      | none => .go (endDrain (makeWrites s a (.engine core o.id) w.1 []).1 core o)

/-- DRAIN_DONE (R390, R393), while the clock of the scratchpad runs (R429). -/
def drainDone (s : State) (core id : Nat) : State :=
  match findOp s core id with
  | none => s
  | some o =>
    if o.kind = .drain ∧ o.stalled = none then match mget s.teams o.team with
      | none => dropOp s core id
      | some t => match subOf t o.ring with
        | none => dropOp s core id
        | some u => if clocksStopped s core then s else takeTry s core o (drainTry s core o t u)
    else s

def execDrainDone (core op : Nat) (s : State) : Out := .next (drainDone s core op)

/-! ### Retry -/

/-- The next access of a stalled operation. -/
def nextTry (s : State) (core : Nat) (o : EngOp) (t : Team) : Try :=
  if canLand t { o with stalled := none } then landTry s core o t
  else match o.kind with
    | .fill => fillTry s core o t
    | .drain => match subOf t o.ring with
      | none => .go s
      | some u => drainTry s core o t u
    | _ => completeTry s core o

/-- FAULT_RETRY (R246, R405): a stalled operation goes on once its access no longer finds the page not present; where it meets another
absent page, that access posts its own record. -/
def faultRetry (s : State) (core id : Nat) : State :=
  match findOp s core id with
  | none => s
  | some o => match mget s.teams o.team with
    | none => s
    | some t =>
      if o.stalled.isSome then
        match nextTry s core o t with
        | .stall f va => takeTry s core o (.stall f va)
        | .go _ => putOp s core { o with stalled := none }
      else s

def execFaultRetry (core op : Nat) (s : State) : Out := .next (faultRetry s core op)

end Sys2Proof.Machine
end

