-- ==== Sys2Proof/Machine/Special.lean ====
section
/-! DEFINITION. Special registers (R38, R188 to R192), HALT (R193), RESUME (R355), TLBINV (R411) and PGQUERY (R412). -/

namespace Sys2Proof.Machine

/-! ### SRD -/

def OpPoint.word (p : OpPoint) (droop active : Bool) : Word :=
  u32 (p.lfreq * 2 ^ 16 + p.ratio * 2 ^ 8 + (if droop then 2 else 0) + (if active then 1 else 0))

/-- THROT (R433). -/
def throtOf (c : Cluster) : Word := OpPoint.word c.point (decide (c.droopNow ≠ .idle)) c.throttled

/-- LMAP of a logical lane (Table 2.2). -/
def lmapOf (g : Group) (l : Fin 32) : Nat := g.lanes[l] % 128 + g.level * 2 ^ 7 + l.val / 2 ^ (5 - g.level) * 2 ^ 10

/-- Resident scratch of a team in units of 4 KiB (R190, R345). -/
def Team.resident (t : Team) : Nat := ceilDiv t.physical 4096

/-- The residency level of a group of a team: the low 32 bits of RESLV (R345). -/
def Group.levelIn (g : Group) (t : Option Team) : Nat := g.level + g.resident * 2 ^ 8 + ((t.map Team.resident).getD 0) * 2 ^ 16

/-- The residency level of a group (R345). -/
def levelOf (s : State) (g : Group) : Nat := g.levelIn (g.team.bind (mget s.teams))

def reslvOf (s : State) (g : Group) : DWord := u64 (levelOf s g + g.foldCount.toNat * 2 ^ 32)

/-- A special register as a thread reads it (Table 6.29); a control group's identity registers are those of R19. -/
def srdVal (s : State) (g : Group) (sel : BitVec 7) (l : Fin 32) : DWord :=
  let cl := clusterOf s (clusOf g.core)
  let th := g.threads[l]
  let feat (i : Fin 4) : DWord := match contextOf s g with
    | some c => c.feat[i].zeroExtend 64
    | none => 0
  let team (f : Team → DWord) (ctl : DWord) : DWord := match g.team.bind (mget s.teams) with
    | some t => f t
    | none => ctl
  match sel.toNat with
  | 0x00 => u64 l.val
  | 0x01 => u64 (g.gid * 32 + l.val)
  | 0x02 => if g.isControl then 0 else u64 g.lanes[l]
  | 0x03 => if g.isControl then 0 else u64 (lmapOf g l)
  | 0x04 => u64 g.width
  | 0x05 => u64 g.gid
  | 0x06 => team (fun t => u64 t.ngrp) 1
  | 0x07 => if g.isControl then 0 else u64 (g.role + g.roleIdx * 256)
  | 0x08 => team (·.index) 0
  | 0x09 => team (·.nteam) 1
  | 0x10 => g.gstat
  | 0x11 => g.fpenNow.zeroExtend 64
  | 0x12 => g.rwin.zeroExtend 64
  | 0x13 => th.xfer.zeroExtend 64
  | 0x14 => reslvOf s g
  | 0x15 => (throtOf cl).zeroExtend 64
  | 0x16 => g.ntvec
  | 0x17 => g.ncause.zeroExtend 64
  | 0x18 => th.npc.zeroExtend 64
  | 0x20 => u64 cl.cycle
  | 0x21 => u64 s.tstamp
  | 0x28 => feat 0
  | 0x29 => feat 1
  | 0x2A => feat 2
  | 0x2B => feat 3
  | 0x40 => g.hcause
  | 0x41 => g.hpc
  | 0x42 => g.haddr
  | 0x48 => cl.cslr.zeroExtend 64
  | 0x49 => cl.ddtr.zeroExtend 64
  | _ => 0

/-- Selectors whose every access is privileged (Table 6.29). -/
def privSel (sel : BitVec 7) : Bool := decide (0x40 ≤ sel.toNat)

def selAllowed (s : State) (g : Group) (sel : BitVec 7) : R Unit := if privSel sel && !g.privileged then denied s else .ok ()

/-- An access of GSTAT waits in WAITING(unit) for the group's sequencer operations, draws among them (R189). -/
def gstatWait (s : State) (g : Group) (sel : BitVec 7) : R Unit :=
  if sel = 0x10 ∧ seqHas s s.cur.group g.core (fun _ => true) = true then .error (.hold s (.unit .gstat)) else .ok ()

/-- SRD (R188). -/
def srdStep (s : State) (d sel : BitVec 7) : R State := do
  let g ← issuer s
  selAllowed s g sel
  if isUni d then
    useW s g [] [uniIdx d]
    gstatWait s g sel
    .ok (done s (g.wrW (uniIdx d) (srdVal s g sel ((lowestLane g.liveMask).getD 0))))
  else
    operandsReady s g [] [d]
    gstatWait s g sel
    let g' ← vecOn s g (cohort s) [] [d] fun l _ => .val ((srdVal s g sel l).truncate 32)
    .ok (done s g')

def execSrd (d sel : BitVec 7) (s : State) : Out := finish (srdStep s d sel)

/-! ### SWR -/

/-- GSTAT after an SWR (R191): bits [23:20] keep their values. -/
def swrGstat (old v : DWord) : DWord := (old &&& 0xF00000#64) ||| (v &&& 0x703FF#64)

/-- A register 32 bits wide takes no value above bit 31 nor in its reserved bits (R188, R4). -/
def only32 (s : State) (v : DWord) (mask : Word) : R Word := do
  need s (decide (v.toNat < 2 ^ 32) && ((v.truncate 32 : Word) &&& ~~~mask) == 0)
  .ok (v.truncate 32)

/-- RWIN takes no span 3 and no count of S or more (R49). -/
def rwinOk (v : Word) : Bool := v.toNat / 32 % 4 != 3 && decide (v.toNat % 32 < rwinSpan v)

/-- CSLR and DDTR are written in context 0 only (R435). -/
def context0Only (s : State) (g : Group) : R Unit := if g.ctx = 0 then .ok () else denied s

/-- The state after an SWR of a register (Table 6.29). DESIGN CHOICE (log entry 92): NTVEC with an odd byte offset raises cause 0x01; the spec
gives such a value no fate. -/
def swrTo (s : State) (g : Group) (sel : BitVec 7) (v : DWord) : R State := do
  let cl := clusterOf s (clusOf g.core)
  match sel.toNat with
  | 0x10 => do
    need s ((v &&& ~~~0xF703FF#64) == 0)
    .ok (done s { g with gstat := swrGstat g.gstat v })
  | 0x11 => do
    let x ← only32 s v 0x3F#32
    .ok (done s { g with fpen := x })
  | 0x12 => do
    let x ← only32 s v 0x7F#32
    need s (rwinOk x)
    .ok (done s { g with rwin := x })
  | 0x13 => do
    let x ← only32 s v 0x1F#32
    .ok (done s (g.onLanes s.cur.mask fun _ t => { t with xfer := x }))
  | 0x16 => do
    let x ← only32 s v 0xFFFFFFFE#32
    .ok (done s { g with ntvec := x.zeroExtend 64 })
  | 0x40 => do
    need s ((v &&& 0xFFFFE000#64) == 0)
    .ok (done s { g with hcause := v })
  | 0x41 => do
    let x ← only32 s v 0xFFFFFFFF#32
    .ok (done s { g with hpc := x.zeroExtend 64 })
  | 0x42 => .ok (done s { g with haddr := v })
  | 0x48 => do
    context0Only s g
    let x ← only32 s v 0xFF3F#32
    .ok (done (setCluster s (clusOf g.core) { cl with cslr := x }) g)
  | 0x49 => do
    context0Only s g
    let x ← only32 s v 0xFF#32
    need s (decide (10 ≤ x.toNat ∧ x.toNat ≤ 100))
    .ok (done (setCluster s (clusOf g.core) { cl with ddtr := x }) g)
  | _ => illegal s

/-- SWR (R188, R189). -/
def swrStep (s : State) (sel : BitVec 7) (r : BitVec 5) : R State := do
  let g ← issuer s
  selAllowed s g sel
  useW s g [r.toNat] []
  gstatWait s g sel
  swrTo s g sel (g.rdW r.toNat)

def execSwr (sel : BitVec 7) (r : BitVec 5) (s : State) : Out := finish (swrStep s sel r)

/-! ### HALT -/

/-- The record of a HALT (R193, Table 17.6): SOURCE 6 with the values the registers hold. -/
def haltRecord (g : Group) : FaultRec :=
  let cause := slice g.hcause 0 8
  { source := 6, cause := cause, access := 0, vaddr := if addrCause cause then g.haddr else 0, group := handleOf g, hcause := g.hcause,
    hpc := g.hpc, detail := g.haddr }

/-- HALT (R193). -/
def haltStep (s : State) : R State := do
  let g ← issuer s
  if !g.privileged then denied s
  else
    let g' := if g.handling then g.leaveHandler
      else { g with hcause := hcauseOf 8 s.cur.mask, hpc := hpcOf { s.cur with pc := s.cur.next }, haddr := 0 }.savePlaces
    .ok (postRecord (setGroup s s.cur.group { g' with st := .parked false }) g.ctx (haltRecord g'))

def execHalt (s : State) : Out := finish (haltStep s)

/-! ### RESUME -/

/-- The group parked under R352 goes back to HANDLER, any other as RTH returns it, in a group that is saved (R282). -/
def Group.resumed (g : Group) : Group :=
  match g.st with
  | .parked true => { g with st := .handler }
  | .parked false =>
    { g.onLanes g.liveMask fun i t =>
        if g.hcause.getLsbD (32 + i.val) then
          { t with pc := BitVec.ofNat 32 (slice g.hpc 0 16), ov := g.hpc.extractLsb' 16 16, wait := none }
        else { t with pc := t.savedPc, ov := t.savedOv, wait := t.savedWait } with st := .active }
  | _ => g

def isParked : GState → Bool
  | .parked _ => true
  | _ => false

/-- The saved group that a handle names, PARKED (R282). -/
def savedParked (c : Context) (h : DWord) : Option Group :=
  (c.saved.flatMap fun x => x.groups.map (·.2)).find? fun g => decide (handleOf g = h) && isParked g.st

/-- RESUME or a kill of a PARKED group by its handle (R355, R282): none when the handle names no such group. -/
def resumeBy (s : State) (h : DWord) (kill : Bool) : Option State :=
  match groupOfHandle s h with
  | some (gid, g) =>
    match g.st with
    | .parked inH => some (if kill then killGroup s gid else resumeGroup s gid g inH)
    | _ => none
  | none =>
    match mget s.contexts (slice h 48 8) with
    | none => none
    | some c => match savedParked c h with
      | none => none
      | some g =>
        if kill then some (reduceJoin (killSaved s (slice h 48 8) fun x => decide (handleOf x = h)) g)
        else some (setContext s (slice h 48 8) { c with saved := c.saved.map fun x =>
          { x with groups := x.groups.map fun p => (p.1, if handleOf p.2 = h then p.2.resumed else p.2) } })

/-- RESUME and RESUME.KILL (R355). -/
def resumeStep (s : State) (kill : Bool) (d hr : BitVec 5) : R State := do
  let g ← issuer s
  if !g.privileged then denied s
  else do
    useW s g [hr.toNat] [d.toNat]
    let h := g.rdW hr.toNat
    need s (slice h 56 8 = 0 && slice h 17 15 = 0)
    if g.ctx ≠ 0 ∧ slice h 48 8 ≠ g.ctx then denied s
    else
      let r := resumeBy s h kill
      let s' := r.getD s
      match mget s'.groups s.cur.group with
      | none => .ok s'
      | some g => .ok (done s' (g.wrW d.toNat (if r.isSome then 0 else 1)))

def execResume (kill : Bool) (d h : BitVec 5) (s : State) : Out := finish (resumeStep s kill d h)

/-! ### TLBINV -/

/-- A page that may have translated an address is the page that an invalidation names (R411: every size). -/
def pageHit (s : State) (ctx : Nat) (c : Context) (who : Agent) (va a : Nat) : Bool :=
  (leafChoices s ctx c who va).any fun w => match w with
    | .leaf _ lvl => va / pageSize lvl == a / pageSize lvl
    | _ => false

/-- Whether an access of a context at an address was translated through an entry that an invalidation drops. -/
def invalHits (s : State) (i : Inval) (ctx : Nat) (who : Agent) (va : Nat) : Bool :=
  (i.ctx.isNone || i.ctx == some ctx) && match i.va with
    | none => true
    | some a => match mget s.contexts ctx with
      | none => false
      | some c => decide (a < 2 ^ 57) && pageHit s ctx c who va a

/-- Accesses that an invalidation waits for (R411): loads and atomics of groups, and what peers have still to read or write. A Publish
that stands at a MIGRATING page translates again instead (R403). -/
def invalWaits (s : State) (i : Inval) : Bool :=
  (s.groups.any fun p =>
    (p.2.loads.any fun l => invalHits s i p.2.ctx (agentOf p.2.core) l.addr.toNat) ||
    (!p.2.pageHeld && p.2.atoms.any fun a => a.steps.any fun st => st.old.isNone && invalHits s i p.2.ctx (agentOf p.2.core) st.va.toNat)) ||
  s.remotes.any fun r => invalHits s i r.ctx (dieAgent 0) r.va.toNat

/-- A group's pending stores after an invalidation (R403). -/
def staleGroup (s : State) (i : Inval) (g : Group) : Group :=
  { g with pend := g.pend.map fun e => if invalHits s i g.ctx (agentOf g.core) e.va.toNat then { e with stale := true } else e }

/-- A team's dirty stash bytes after an invalidation (R403). -/
def staleTeam (s : State) (i : Inval) (t : Team) : Team :=
  { t with stashDirty := t.stashDirty.map fun x =>
      if invalHits s i t.ctx (agentOf t.core) (stashVa t x.1) then (x.1, { x.2 with stale := true }) else x }

def staleSaved (s : State) (i : Inval) (x : SavedTeam) : SavedTeam :=
  { x with team := staleTeam s i x.team, groups := x.groups.map fun p => (p.1, staleGroup s i p.2) }

/-- Mark pending stores and dirty stash bytes as translated through dropped entries (R403). -/
def markStale (s : State) (i : Inval) : State :=
  { s with
    groups := s.groups.map fun p => (p.1, staleGroup s i p.2)
    teams := s.teams.map fun p => (p.1, staleTeam s i p.2)
    contexts := s.contexts.map fun c => (c.1, { c.2 with saved := c.2.saved.map (staleSaved s i) }) }

/-- The end of an invalidation: from now on no access uses an older value of a page it covers (R403). -/
def invalidate (s : State) (i : Inval) : State :=
  let s := markStale s i
  { s with invals := { i with moment := s.fresh } :: s.invals, fresh := s.fresh + 1 }

/-- TLBINV (R411). -/
def tlbinvStep (s : State) (a c : BitVec 5) : R State := do
  let g ← issuer s
  if !g.privileged then denied s
  else do
    useW s g [a.toNat, c.toNat] []
    let w := g.rdW c.toNat
    let range := slice w 8 2
    need s (decide (w.toNat < 2 ^ 10) && range != 3)
    if g.ctx ≠ 0 ∧ (range = 2 ∨ slice w 0 8 ≠ g.ctx) then denied s
    else
      let i : Inval := { moment := 0, ctx := if range = 2 then none else some (slice w 0 8),
                         va := if range = 0 then some (g.rdW a.toNat).toNat else none }
      if invalWaits s i then .error (.stall s) else .ok (doneNow (invalidate s i))

def execTlbinv (a c : BitVec 5) (s : State) : Out := finish (tlbinvStep s a c)

/-! ### PGQUERY -/

/-- The word PGQUERY writes (Table 17.10). -/
def pageWord (s : State) (ctx : Nat) (who : Agent) (va : DWord) (full : Bool) : DWord :=
  if 2 ^ 57 ≤ va.toNat then 3
  else match walkNow s ctx who va.toNat with
    | .absent => 0
    | .malformed => 3
    | .leaf e _ => u64 ((if full then slice e 16 36 * 2 ^ 16 else 0) + slice e 2 14 * 4 + (if leafMig e then 2 else 1))

/-- PGQUERY (R412). -/
def pgqueryStep (s : State) (d a : BitVec 5) (c : Option (BitVec 5)) : R State := do
  let g ← issuer s
  useW s g (a.toNat :: (c.map (·.toNat)).toList) [d.toNat]
  let w : DWord := match c with
    | none => u64 g.ctx
    | some r => g.rdW r.toNat
  need s (decide (w.toNat < 256))
  if g.ctx ≠ 0 ∧ w.toNat ≠ g.ctx then denied s
  else .ok (done s (g.wrW d.toNat (pageWord s w.toNat (agentOf g.core) (g.rdW a.toNat) g.privileged)))

def execPgquery (d a : BitVec 5) (c : Option (BitVec 5)) (s : State) : Out := finish (pgqueryStep s d a c)

end Sys2Proof.Machine
end

