-- ==== Sys2Proof/Machine/Context.lean ====
section
/-! DEFINITION. Contexts: opening, quotas, close (R269 to R278), the context switch (R279 to R282) and CTXOP (R283, R284). -/

namespace Sys2Proof.Machine

/-! ### Quotas -/

/-- The control core of a cluster that holds a compute core of a mask (R274). -/
def onControl (mask : BitVec 576) (n : Nat) : Bool := (List.range 4).any fun i => mask.getLsbD (4 * n + i)

/-- The quotas of every context on a core stay within its slots (R274). -/
def quotasFit (s : State) (ctx : Nat) (mask : BitVec 576) (slotQ ctlQ : Nat) : Bool :=
  let others := s.contexts.filter fun p => decide (p.1 ≠ ctx)
  let sum (f : Context → Nat) (on : Context → Bool) : Nat := ((others.filter fun p => on p.2).map fun p => f p.2).sum
  ((List.range Config.computeCores).all fun c => !mask.getLsbD c ||
    decide (slotQ + sum (·.slotQuota) (fun x => x.mask.getLsbD c) ≤ 40)) &&
  ((List.range Config.controlCores).all fun n => !onControl mask n ||
    decide (ctlQ + sum (·.ctlQuota) (fun x => onControl x.mask n) ≤ 16))

/-- Quotas within Table 10.4 that fit (R273, R274). -/
def quotasOk (s : State) (ctx : Nat) (mask : BitVec 576) (slotQ ctlQ savesz : Nat) : Bool :=
  decide (1 ≤ slotQ ∧ slotQ ≤ 40) && decide (ctlQ ≤ 16) && decide (savesz % 65536 = 0) && quotasFit s ctx mask slotQ ctlQ

/-! ### OPEN, FEATANS, SETQUOTA -/

/-- The keystone firmware programs a key slot with a new key (R450, R276). -/
def programKey (s : State) (slot : Nat) : State :=
  let n := s.fw.keySerial + 1
  { s with fw := { s.fw with keySerial := n, keySlots := mput s.fw.keySlots slot n } }

/-- The context that OPEN makes, in OPENING with no feature enabled (R270, Table 18.8). -/
def openedContext (s : State) (h : Hdr) (b : OpenBody) : Context :=
  { st := .opening, keyslot := b.keyslot.toNat, feat := Vector.replicate 4 0, mask := b.mask, slotQuota := b.slotQuota,
    ctlQuota := b.ctlQuota, save := b.save.toNat, savesz := b.savesz.toNat, ptroot := b.ptroot.toNat, joinwin := b.joinwin.toNat,
    faultq := b.faultq.toNat, rpt := b.rpt.toNat, rptn := b.rptn.toNat, linkto := b.linkto.toNat, job := b.job,
    memkey := Config.memKey s.tick, assoc := h.assoc, heldRecs := [], switch := .none, saved := [] }

/-- What a context holds in physical memory beside its save area: page-table root, fault queue of the greatest size, and remote page table
(R398, R404, R419). -/
def plainAreas (ptroot faultq rpt rptn : Nat) : List (Nat × Nat) :=
  [(ptroot, 4096), (faultq, 64 + 64 * 2 ^ 15), (rpt, 64 * rptn)].filter fun a => decide (a.2 ≠ 0)

/-- Areas of a context in physical memory: none meets a save area, which only the switch microcode reaches (R281), memory that failed its
training (R451), or what context 0 holds (R456); nor does its save area meet an area of another. DEDUCED (log entry 102). -/
def areasOk (s : State) (ctx save savesz ptroot faultq rpt rptn : Nat) : Bool :=
  let others := s.contexts.filter fun p => decide (p.1 ≠ ctx)
  let mine := plainAreas ptroot faultq rpt rptn
  let all := if savesz = 0 then mine else (save, savesz) :: mine
  all.all (fun a => !mapsNone { s with contexts := others } ctx a.1 a.2 && (decide (ctx = 0) || !(zeroRanges s).any fun z => overlaps a.1 a.2 z.1 z.2)) &&
  (decide (savesz = 0) || (mine ++ others.flatMap fun p => plainAreas p.2.ptroot p.2.faultq p.2.rpt p.2.rptn).all fun a =>
    !overlaps a.1 a.2 save savesz)

/-- What OPEN is refused for with status 3 (R274, R426; R281, R451, R456 for its areas). -/
def openOk (s : State) (ctx : Nat) (b : OpenBody) : Bool :=
  areasOk s ctx b.save.toNat b.savesz.toNat b.ptroot.toNat b.faultq.toNat b.rpt.toNat b.rptn.toNat &&
  !(b.keyslot == 0 && decide (ctx ≠ 0)) && !(s.contexts.any fun p => p.2.job == b.job) &&
  quotasOk s ctx b.mask b.slotQuota b.ctlQuota b.savesz.toNat && decide (b.joinwin.toNat % 2 ^ 30 = 0) &&
  decide (1000 ≤ b.linkto.toNat ∧ b.linkto.toNat ≤ 10000000)

/-- OPEN (R270, R271, R275, R417). -/
def openFor (s : State) (h : Hdr) (b : OpenBody) : Reply :=
  let ctx := h.ctx.toNat
  if (mget s.contexts ctx).isSome then refuse s 2
  else if 1 < b.keyop.toNat ∨ (b.keyop = 0 ∧ b.wkey ≠ 0) then refuse s 4
  else if !openOk s ctx b then refuse s 3
  else
    let c := openedContext s h b
    let s := if b.keyop = 1 then programKey s b.keyslot.toNat else s
    ok (setContext s ctx c) [Config.featOffer0.zeroExtend 64, 0, c.memkey]

def execOpenCtx (h : Hdr) (b : OpenBody) (s : State) : Out := associated s h 0x01 (openFor s h b)

/-- The context is gone: its id is CLOSED. -/
def dropContext (s : State) (ctx : Nat) : State := { s with contexts := mdel s.contexts ctx }

/-- A feature answer meets R272. -/
def featOk (f0 f1 f2 f3 : Word) : Bool :=
  f0.getLsbD 0 && f0 &&& ~~~Config.featOffer0 == 0 && f1 == 0 && f2 == 0 && f3 == 0

/-- FEATANS (R272). -/
def execFeatans (h : Hdr) (f0 f1 f2 f3 : BitVec 32) (s : State) : Out :=
  command s h 0x02 (fun st => decide (st = .opening)) fun c =>
    if featOk f0 f1 f2 f3 then ok (setContext s h.ctx.toNat { c with st := .opened, feat := #v[f0, f1, f2, f3] }) []
    else refuse (dropContext s h.ctx.toNat) 3

/-- The save area of a context holds something: saved teams, a switch under way, or what a fold or a return stack has spilled (R408, R176). -/
def saveUsed (s : State) (ctx : Nat) (c : Context) : Bool :=
  !c.saved.isEmpty || decide (c.switch ≠ .none) ||
  (s.groups.any fun p => decide (p.2.ctx = ctx) && (!p.2.spilled.isEmpty || decide (16 < p.2.stack.length))) ||
  (s.teams.any fun p => decide (p.2.ctx = ctx) && p.2.lines.any fun l => l.2.spilled)

/-- SETQUOTA (R273, R274). A save area in use stays (R408), and queue masks stand as they are (log entry 113). -/
def execSetquota (h : Hdr) (b : QuotaBody) (s : State) : Out :=
  command s h 0x03 isOpen fun c =>
    if quotasOk s h.ctx.toNat b.mask b.slotQuota b.ctlQuota b.savesz.toNat &&
        areasOk s h.ctx.toNat b.save.toNat b.savesz.toNat c.ptroot c.faultq c.rpt c.rptn &&
        !(saveUsed s h.ctx.toNat c && decide (b.save.toNat ≠ c.save ∨ b.savesz.toNat ≠ c.savesz)) then
      ok (setContext s h.ctx.toNat { c with slotQuota := b.slotQuota, ctlQuota := b.ctlQuota, save := b.save.toNat,
                                            savesz := b.savesz.toNat, mask := b.mask }) []
    else refuse s 3

/-! ### Close -/

/-- Discard of a queue (Table 11.2): DRAINING, every undispatched task removed. -/
def discardQueue (s : State) (qid : Nat) : State :=
  match mget s.queues qid with
  | none => s
  | some q => removeTasks (setQueue s qid { q with st := .draining, discarding := true }) fun i _ _ => decide (i = qid)

/-- Keys of a map whose value meets a test. -/
def keysOf {α : Type} (m : Map α) (f : α → Bool) : List Nat := (m.filter fun p => f p.2).map (·.1)

/-- The saved groups of a context are killed where they are saved, and its saved teams are gone (R278 step 2, R282). -/
def dropSaved (s : State) (ctx : Nat) : State :=
  match mget s.contexts ctx with
  | none => s
  | some c =>
    let live := (c.saved.flatMap fun x => x.groups.map (·.2)).filter fun g => !g.st.ended
    live.foldl reduceJoin (setContext s ctx { c with saved := [] })

/-- The steps of R278 as far as they act at once: queues discarded, groups killed, kernels unloaded. -/
def closeSteps (s : State) (ctx : Nat) : State :=
  let s := (keysOf s.queues fun q => decide (q.ctx = ctx)).foldl discardQueue s
  let s := (s.graphs.filter fun p => decide (p.2.ctx = ctx)).foldl (fun s p => freeGraph s p.1 p.2) s
  let s := dropSaved ((keysOf s.groups fun g => decide (g.ctx = ctx)).foldl killFalls s) ctx
  (s.kernels.filter fun p => decide (p.2.ctx = ctx)).foldl (fun s p => settleKernel (unloadKernel s p.1 p.2) p.1) s

/-- CLOSE (R270, R278, R282): a switch in progress finishes first. DESIGN CHOICE (log entry 125): the context is CLOSING from the command on, and
what waits for the switch is its teardown. -/
def execClose (h : Hdr) (s : State) : Out :=
  command s h 0x04 (fun st => decide (st ≠ .closing)) fun c =>
    let s := setContext s h.ctx.toNat { c with st := .closing }
    ok (if c.switch = .none then closeSteps s h.ctx.toNat else s) []

/-- Nothing of the context is left but its pages and its id (Table 10.1). -/
def closeReady (s : State) (ctx : Nat) (c : Context) : Bool :=
  decide (c.st = .closing) && decide (c.switch = .none) && !(s.queues.any fun p => decide (p.2.ctx = ctx) && decide (p.2.st ≠ .destroyed)) &&
  !(s.graphs.any fun p => decide (p.2.ctx = ctx)) && !(s.teams.any fun p => decide (p.2.ctx = ctx)) &&
  !(s.groups.any fun p => decide (p.2.ctx = ctx)) && !(s.kernels.any fun p => decide (p.2.ctx = ctx)) && c.saved.isEmpty

/-- CLOSE_DONE (R278 steps 3 and 4): pages unmapped, their translations dropped (R401), the key slot retired when no other context uses it,
the id CLOSED. -/
def closeDone (s : State) (ctx : Nat) : State :=
  match mget s.contexts ctx with
  | none => s
  | some c =>
    if closeReady s ctx c then
      let s := dropContext (invalidate { s with queues := s.queues.filter fun p => decide (p.2.ctx ≠ ctx) }
        { moment := 0, ctx := some ctx, va := none }) ctx
      if s.contexts.any fun p => decide (p.2.keyslot = c.keyslot) then s
      else { s with fw := { s.fw with keySlots := mdel s.fw.keySlots c.keyslot } }
    else s

def execCloseDone (ctx : Nat) (s : State) : Out := .next (closeDone s ctx)

/-! ### Switch-out -/

/-- Start of a switch-out: the result as CTXOP.SWOUT writes it (R284). -/
def startOut (s : State) (ctx : Nat) : State × Nat :=
  match mget s.contexts ctx with
  | none => (s, 2)
  | some c =>
    if c.switch ≠ .none then (s, 1)
    else if c.st ≠ .opened ∧ c.st ≠ .running then (s, 2)
    else (setContext s ctx { c with switch := .out 1 }, 0)

/-- Start of a switch-in (R284); a context without a saved team is OPEN at once (Table 10.2). -/
def startIn (s : State) (ctx : Nat) : State × Nat :=
  match mget s.contexts ctx with
  | none => (s, 2)
  | some c =>
    if c.switch ≠ .none then (s, 1)
    else if c.st ≠ .switchedOut then (s, 2)
    else if c.saved.isEmpty then (setContext s ctx { c with st := .opened }, 0)
    else (setContext s ctx { c with switch := .restoring }, 0)

def groupsOfCtx (s : State) (ctx : Nat) : List (Nat × Group) := s.groups.filter fun p => decide (p.2.ctx = ctx)
def teamsOfCtx (s : State) (ctx : Nat) : List (Nat × Team) := s.teams.filter fun p => decide (p.2.ctx = ctx)

/-- A group stands at an instruction boundary, or waits within a Publish that a MIGRATING page stopped (R279 step 2). -/
def atBoundary (g : Group) : Bool :=
  (match g.publishing with
    | none => true
    | some p => p.stopped && p.remote.isEmpty) && g.reclaiming.isNone && g.foldPlan.isNone && !g.peerHeld

/-- A delivery that is publishing (R279 step 4). -/
def Commit.publishing : Commit → Bool
  | .pending _ _ _ (some _) stalled => stalled.isNone
  | _ => false

/-- Operations of teams of a context on their cores that meet a test. -/
def opsOfCtx (s : State) (ctx : Nat) (f : EngOp → Bool) : Bool :=
  (teamsOfCtx s ctx).any fun p => (coreOf s p.2.core).eng.any fun o => decide (o.team = p.1) && f o

def isRingOp (o : EngOp) : Bool := decide (o.kind = .fill) || decide (o.kind = .drain)

/-- The step of a switch-out that has begun is complete (R279). -/
def outStepDone (s : State) (ctx : Nat) : Nat → Bool
  | 1 => true
  | 2 => (groupsOfCtx s ctx).all fun p => atBoundary p.2
  | 3 => ((groupsOfCtx s ctx).all fun p => p.2.loads.isEmpty) && (teamsOfCtx s ctx).all fun p => p.2.stashFills.isEmpty
  | 4 => !(opsOfCtx s ctx fun o => !isRingOp o) &&
      ((teamsOfCtx s ctx).all fun p => !((coreOf s p.2.core).seq.any fun o => decide (o.team = p.1)) &&
        !(p.2.cr.toList.any Commit.publishing) && !(s.acks.any fun a => decide (a.team = p.1)))
  | 5 => !opsOfCtx s ctx isRingOp
  | _ => false

/-- Kills that have fallen due take effect as issue stops (R279 step 2, R282). -/
def killPending (s : State) (ctx : Nat) : State :=
  ((groupsOfCtx s ctx).filter fun p => p.2.killDue.isSome).foldl (fun s p => killGroup s p.1) s

/-- WAITMs of a context that a write of their sector has ended take their code before issue stops (R143: the first cause). -/
def wakeSeen (s : State) (ctx : Nat) : State :=
  ((groupsOfCtx s ctx).map (·.1)).foldl (fun s g => wakeIf s g 1 fun x m => waitmCause s g x m.sector m.began 1) s

/-- SWITCH_OUT_STEP (R279): the next step begins once the one before it is complete. -/
def switchOutStep (s : State) (ctx : Nat) : State :=
  match mget s.contexts ctx with
  | none => s
  | some c => match c.switch with
    | .out n =>
      if outStepDone s ctx n then
        let s := if n = 1 then wakeSeen s ctx else s
        let s := setContext s ctx { c with switch := .out (n + 1) }
        if n = 2 then killPending s ctx else s
      else s
    | _ => s

def execSwitchOutStep (ctx : Nat) (s : State) : Out := .next (switchOutStep s ctx)

/-- A close that has waited for a switch goes on (R282). -/
def afterSwitch (s : State) (ctx : Nat) : State :=
  match mget s.contexts ctx with
  | none => s
  | some c => if c.st = .closing then closeSteps s ctx else s

/-- One team leaves its core for the save area (R279 step 6): its groups, its stream contexts and its place are gone. -/
def saveTeam (s : State) (tid : Nat) (t : Team) : State × SavedTeam :=
  let gs := teamGroups s tid
  let s := t.subs.foldl (fun s u => { s with skidders := mputD s.skidders u.skid (mgetD s.skidders u.skid 0 - 1) 0 }) s
  let cl := clusterOf s (clusOf t.core)
  let s := setCluster s (clusOf t.core) { cl with waveQ := cl.waveQ.filter fun x => !(gs.any fun p => p.1 == x) }
  ({ s with teams := mdel s.teams tid, groups := s.groups.filter fun p => decide (p.2.team ≠ some tid) },
   { uid := tid, team := t, groups := gs })

/-- Save the teams of a context. -/
def saveTeams : List (Nat × Team) → State → State × List SavedTeam
  | [], s => (s, [])
  | p :: l, s =>
    let r := saveTeam s p.1 p.2
    let x := saveTeams l r.1
    (x.1, r.2 :: x.2)

/-- Size of a team's record with its groups' pending stores and dirty bytes (Table 10.6). -/
def recordSize (t : Team) (gs : List Group) : Nat :=
  4096 + ceilDiv t.scratchSize 256 * 256 + 4096 * t.accCount + 16384 * gs.length +
  (gs.map fun g => (g.pend.map fun e => e.bytes.length).sum).sum + t.stashDirty.length

/-- The bytes of a save area that the header and the records of saved teams take, whole data units within it. -/
def areaBytes (c : Context) (saved : List SavedTeam) : List Nat :=
  let n := 4096 + (saved.map fun x => recordSize x.team (x.groups.map (·.2))).sum
  (paRange c.save (Nat.min c.savesz (ceilDiv n 32 * 32))).filter inMemory

/-- The switch microcode writes the save area under the owner key (R281); its encoding is its own, so each byte is free (log entry 39). -/
def writeArea (s : State) (c : Context) (saved : List SavedTeam) : State :=
  match areaBytes c saved with
  | [] => s
  | l => publish s (dieAgent (homeDie c.save)) none none .dev (keySerial s c.keyslot) (l.map fun a => (a, Config.freeByte s.tick a))

/-- SWITCH_OUT_DONE (R279 step 6, Table 10.2). -/
def switchOutDone (s : State) (ctx : Nat) : State :=
  match mget s.contexts ctx with
  | none => s
  | some c =>
    if c.switch = .out 6 then
      let r := saveTeams (teamsOfCtx s ctx) s
      afterSwitch (setContext (writeArea r.1 c r.2) ctx { c with switch := .none, saved := r.2, st := if c.st = .closing then .closing else .switchedOut }) ctx
    else s

def execSwitchOutDone (ctx : Nat) (s : State) : Out := .next (switchOutDone s ctx)

/-! ### Restore -/

/-- The groups of a saved team as placement sees them, in GID order. -/
def savedOrder (x : SavedTeam) : List (Nat × Group) :=
  (sortBy (x.groups.map fun p => (p.2.gid, p.1))).filterMap fun k => (mget x.groups k.2).map fun g => (k.2, g)

/-- A team with every scratch line resident. -/
def Team.unspilled (t : Team) : Team := { t with physical := t.scratchSize, lines := t.lines.map fun l => (l.1, { l.2 with spilled := false }) }

/-- A saved group as placement sees it: its live threads alone need rows (R43). -/
def savedShape (g : Group) : Shape := { role := g.role, idx := g.roleIdx, width := g.width, hosts := g.liveMask, budget := g.budget }

/-- A wait after a restore: WAITM returns with code 5 unless a cause came before the switch (R280, Table 5.6); an instruction that
waited for an overlay in its middle is executed from the start (R331). -/
def Wait.restored : Wait → Option Wait
  | .monitor m => some (.monitor { m with code := m.code.or (some 5) })
  | .overlay .. => none
  | w => some w

/-- A thread after a restore: it lies in no copy of its overlay yet. -/
def Thread.restored (t : Thread) : Thread :=
  { t with copy := none, wait := t.wait.bind Wait.restored, savedWait := t.savedWait.bind Wait.restored, npcWait := t.npcWait.bind Wait.restored }

/-- A group of a saved team on its new slot and lanes, placed anew and unfolded; an armed fold notice fires for one that was folded,
by its lanes, registers or scratch (R280, Table 10.5, R54, R345). -/
def restoreGroup (s : State) (core slot : Nat) (lanes : Vector Nat 32) (team : Team) (g : Group) : Group :=
  let g' := { g with
    core := core, slot := slot, serial := mgetD (coreOf s core).serials slot 0 + 1, age := s.fresh, hosts := g.liveMask, homeLanes := lanes
    lanes := lanes, level := 0, resident := g.budget, spilled := [], wantFill := [], foldPlan := none, threads := g.threads.map Thread.restored }
  if g'.levelIn (some team.unspilled) ≠ g.levelIn (some team) then g'.noticeDue 0x20 else g'

/-- The skidder that serves a subscription on its new core. -/
def newSkid (s : State) (ctx core : Nat) (u : Sub) : Nat :=
  match translate s ctx (agentOf core) 0 u.sd.origin .read with
  | .ok t => skidderOf t core
  | .error _ => u.skid

/-- The subscriptions of a restored team with their stream contexts reacquired; none while a skidder has no free one. -/
def reacquire (s : State) (ctx core : Nat) : List Sub → Option (State × List Sub)
  | [] => some (s, [])
  | u :: l =>
    let k := newSkid s ctx core u
    if 64 ≤ mgetD s.skidders k 0 then none
    else (reacquire { s with skidders := mput s.skidders k (mgetD s.skidders k 0 + 1) } ctx core l).map fun r =>
      (r.1, { u with skid := k } :: r.2)

/-- Groups of a restored team enter their slots. -/
def restoreGroups (core : Nat) (t : Team) : List ((Nat × Group) × (Nat × List Nat)) → State → State
  | [], s => s
  | p :: l, s =>
    restoreGroups core t l (addGroup { s with fresh := s.fresh + 1 } p.1.1 (restoreGroup s core p.2.1 (laneVec p.2.2) t p.1.2))

/-- The records of a context's teams fit its save area (R280, R339 step 1, Table 10.6). -/
def saveFits (s : State) (ctx : Nat) : Bool :=
  match mget s.contexts ctx with
  | none => true
  | some c =>
    let resident := ((s.teams.filter fun p => decide (p.2.ctx = ctx)).map fun p => recordSize p.2 ((teamGroups s p.1).map (·.2))).sum
    let saved := (c.saved.map fun x => recordSize x.team (x.groups.map (·.2))).sum
    decide (4096 + resident + saved ≤ c.savesz)

/-- A restored team has its overlays to reload (R280, R318). -/
def startReload (s : State) (tid : Nat) : State :=
  match mget s.teams tid with
  | none => s
  | some t => reloadTeam (setTeam s tid { t with reloading := toReload s tid t }) tid

/-- RESTORE_PLACE (R280): the first saved team of a restoring context is placed, its save record part of what must fit (log entry 43). -/
def restorePlace (s : State) (ctx core : Nat) (place : Placing) : State :=
  match mget s.contexts ctx with
  | none => s
  | some c => match c.switch, c.saved with
    | .restoring, x :: rest =>
      let t := x.team
      let gs := savedOrder x
      match mget s.kernels t.kernel, reacquire s ctx core t.subs with
      | some k, some (s1, subs) =>
        if decide (core < Config.computeCores) && c.mask.getLsbD core && roomFor s core ctx t.kernel k t.scratchSize t.accCount && saveFits s ctx &&
            placingOk s core (gs.map fun p => savedShape p.2) place then
          let s := setTeam (loadDict s1 core t.kernel) x.uid { t.unspilled with core := core, subs := subs, reloading := [] }
          let s := restoreGroups core t (gs.zip place) s
          let c := { c with saved := rest }
          let c := if rest.isEmpty then { c with switch := .none, st := if c.st = .closing then .closing else .running } else c
          let s := endTeam (recheckBars (startReload (setContext s ctx c) x.uid) x.uid) x.uid
          if rest.isEmpty then afterSwitch s ctx else s
        else s
      | _, _ => s
    | _, _ => s

def execRestorePlace (ctx core : Nat) (place : Placing) (s : State) : Out := .next (restorePlace s ctx core place)

/-! ### SWOUT, SWIN, CTXOP -/

/-- SWOUT and SWIN as commands (R424, R426): context 0 is refused. -/
def switchCommand (s : State) (h : Hdr) (op : Nat) (f : State → Nat → State × Nat) : Out :=
  if h.ctx = 0 then associated s h op (refuse s 3)
  else command s h op isOpen fun _ => let r := f s h.ctx.toNat; ok r.1 [u64 r.2]

def execSwout (h : Hdr) (s : State) : Out := switchCommand s h 0x05 startOut
def execSwin (h : Hdr) (s : State) : Out := switchCommand s h 0x06 startIn

/-- Codes of Table 10.1. -/
def CtxState.code : CtxState → Nat
  | .closed => 0
  | .opening => 1
  | .opened => 2
  | .running => 3
  | .switchedOut => 4
  | .closing => 5

/-- The state word of a context (Table 10.9). -/
def stateWord (s : State) (ctx : Nat) : DWord :=
  match mget s.contexts ctx with
  | none => 0
  | some c => u64 ((teamsOfCtx s ctx).length * 2 ^ 16 + c.keyslot * 2 ^ 8 + (if c.switch = .none then 0 else 8) + c.st.code)

/-- The operand of a CTXOP once the checks of R283 and R284 have passed. -/
def ctxopArg (s : State) (d r : BitVec 5) (query : Bool) : R (Group × Nat) := do
  let g ← issuer s
  if !g.privileged then denied s
  else do
    useW s g [r.toNat] [d.toNat]
    let w := (g.rdW r.toNat).toNat
    need s (decide (w < 256))
    if g.ctx ≠ 0 ∧ (w ≠ g.ctx ∨ query = false) then denied s
    else do
      need s (query || decide (w ≠ 0))
      .ok (g, w)

/-- CTXOP.QUERY (R284). -/
def ctxopQueryStep (s : State) (d r : BitVec 5) : R State := do
  let (g, c) ← ctxopArg s d r true
  .ok (done s (g.wrW d.toNat (stateWord s c)))

def execCtxopQuery (d r : BitVec 5) (s : State) : Out := finish (ctxopQueryStep s d r)

/-- CTXOP.SWOUT and CTXOP.SWIN (R284). -/
def ctxopStep (s : State) (f : State → Nat → State × Nat) (d r : BitVec 5) : R State := do
  let (g, c) ← ctxopArg s d r false
  let x := f s c
  .ok (done x.1 (g.wrW d.toNat (u64 x.2)))

def execCtxopSwout (d r : BitVec 5) (s : State) : Out := finish (ctxopStep s startOut d r)
def execCtxopSwin (d r : BitVec 5) (s : State) : Out := finish (ctxopStep s startIn d r)

end Sys2Proof.Machine
end

