-- ==== Sys2Proof/Machine/Drify.lean ====
section
/-! DEFINITION. The Drify commands on pages, groups, tasks, queues and graphs (R424, R426, R427). -/

namespace Sys2Proof.Machine

/-! ### Pages -/

/-- The table at a level that a walk for an address reaches, the levels above it valid pointers (R426). -/
def tableAt (rd : Nat → DWord) (va level : Nat) : Nat → Nat → Option Nat
  | 0, base => if level = 0 then some base else none
  | l + 1, base =>
    if level = l + 1 then some base
    else
      let e := rd (base + 8 * vaIndex va (l + 1))
      if e.getLsbD 0 && !e.getLsbD 1 && pointerOk e (l + 1) then tableAt rd va level l (slice e 6 46 * 64) else none

/-- An entry with the reserved bits of its layout zero, as the device writes it (Table 17.5, R4). -/
def entryWritten (e : DWord) : DWord := e &&& (if e.getLsbD 1 then 0x000FFFFFFFFFFFFF#64 else 0x000FFFFFFFFFFFC3#64)

/-- What MAPPG writes: the zeroed table, then the entry, each published at .dev (R402, R426). -/
def writeEntry (s : State) (key pa level : Nat) (e : DWord) (zero : Bool) : State :=
  let s := if zero && isPointer e level then devWrite s key (tableOf e) (leList 0 (tableSize (level - 1))) else s
  devWrite s key pa (leList e.toNat 8)

/-- Bytes of memory that a leaf of a level maps (R397). -/
def leafSpan (e : DWord) (level : Nat) : Nat := if leafKind e = 2 then 2 ^ 20 else pageSize level

/-- A present leaf of a level maps memory of the module that meets a test of its range. -/
def leafMaps (bad : Nat → Nat → Bool) (e : DWord) (level : Nat) : Bool :=
  e.getLsbD 0 && e.getLsbD 1 && decide (leafKind e ≠ 3) && bad (leafPa e) (leafSpan e level)

/-- An entry of a level, itself or through the tables below it, maps memory that meets a test of its range. -/
def entryMaps (rd : Nat → DWord) (bad : Nat → Nat → Bool) : Nat → DWord → Bool
  | 0, e => leafMaps bad e 0
  | l + 1, e =>
    if isPointer e (l + 1) then (List.range (2 ^ (levelBits l).2)).any fun i => entryMaps rd bad l (rd (tableOf e + 8 * i))
    else leafMaps bad e (l + 1)

/-- A change of an entry that Drify refuses: it would unmap or migrate a save area (R408), or map what no group of the context may reach
(log entry 102). -/
def mapRefused (s : State) (ctx : Nat) (rd : Nat → DWord) (old new : DWord) (level : Nat) (zero : Bool) : Bool :=
  (old != new || zero) && (entryMaps rd (inSave s) level old || entryMaps rd (mapsNone s ctx) level new)

/-- MAPPG (R424, R426). -/
def mapPage (s : State) (ctx : Nat) (c : Context) (va entry : DWord) (level : Nat) (zero : Bool) : Reply :=
  let entry := entryWritten entry
  if 5 < level then refuse s 4
  else if 2 ^ 57 ≤ va.toNat ∨ ¬ (inMemory c.ptroot = true ∧ c.ptroot % 4096 = 0) then refuse s 3
  else
    let rd := rdEntry s (dieAgent 0) s.fresh
    match tableAt rd va.toNat level 5 c.ptroot with
    | none => refuse s 3
    | some base =>
      let pa := base + 8 * vaIndex va.toNat level
      let all := isPointer (rd pa) level
      if mapRefused s ctx rd (rd pa) entry level zero then refuse s 3
      else ok (invalidate (writeEntry s (keySerial s c.keyslot) pa level entry zero)
        { moment := 0, ctx := some ctx, va := if all then none else some va.toNat }) []

/-- The invalidation that a MAPPG ends with would wait: that of one page, or of all where the entry may replace a pointer (R411). -/
def mapWaits (s : State) (ctx : Nat) (va : DWord) (level : Nat) : Bool :=
  invalWaits s { moment := 0, ctx := some ctx, va := if level = 0 then some va.toNat else none }

/-- MAPPG, which waits while its invalidation would (R411); commands that follow it on its ROD packet delivery context wait behind it (R425). -/
def execMappg (h : Hdr) (va entry : BitVec 64) (level : Nat) (zeroFill : Bool) (s : State) : Out :=
  if arrives s h 0x08 && mapWaits s h.ctx.toNat va level then
    .next { s with pendingCmds := s.pendingCmds ++ [.mappg h va entry level zeroFill] }
  else command s h 0x08 isOpen fun c => mapPage s h.ctx.toNat c va entry level zeroFill

/-- An entry of the remote page table with its reserved bits zero, as the device writes it (Table 18.4, R4). -/
def rptWritten (e : BitVec 512) : BitVec 512 :=
  e &&& BitVec.ofNat 512 (0xFF03 + (2 ^ 24 - 1) * 2 ^ 32 + (2 ^ 128 - 1) * 2 ^ 64 + 0xFFF * 2 ^ 192 + (2 ^ 160 - 1) * 2 ^ 224)

/-- RMTSET (R419, R424); where the entry's place is in no memory of the module it is refused (log entry 89). -/
def execRmtset (h : Hdr) (index : BitVec 32) (entry : BitVec 512) (s : State) : Out :=
  command s h 0x09 isOpen fun c =>
    if c.rptn ≤ index.toNat ∨ inMemory (c.rpt + 64 * index.toNat) = false then refuse s 3
    else ok (devWrite s (keySerial s c.keyslot) (c.rpt + 64 * index.toNat) (leList (rptWritten entry).toNat 64)) []

/-! ### Teams and groups -/

/-- Kills fall due to the groups of teams, resident or saved (R310, R377, R282). -/
def killTeams (s : State) (ctx : Nat) (tids : List Nat) : State :=
  let f (g : Group) : Bool := g.team.any tids.contains
  let s := (keysOf s.groups f).foldl killFalls s
  let late : List Group := match mget s.contexts ctx with
    | none => []
    | some c => ((c.saved.flatMap fun x => x.groups.map (·.2)).filter fun g => f g && !g.st.ended)
  late.foldl reduceJoin (killSaved s ctx f)

/-- The teams of a grid, resident or saved. -/
def gridTeams (s : State) (c : Context) (grid : Nat) : List Nat :=
  keysOf s.teams (fun t => decide (t.grid = grid)) ++ (c.saved.filter fun x => decide (x.team.grid = grid)).map (·.uid)

/-- The team of a handle, with its grid. -/
def teamOfHandle (s : State) (c : Context) (g : Group) : Option (Nat × Nat) :=
  g.team.bind fun t => match mget s.teams t with
    | some x => some (t, x.grid)
    | none => (c.saved.find? fun x => decide (x.uid = t)).map fun x => (t, x.team.grid)

/-- The group of a context that a handle names, resident or saved (R354). -/
def groupNamed (s : State) (ctx : Nat) (c : Context) (h : DWord) : Option (Option Nat × Group) :=
  match (groupOfHandle s h).filter fun p => decide (p.2.ctx = ctx) with
  | some p => some (some p.1, p.2)
  | none => ((c.saved.flatMap fun x => x.groups.map (·.2)).find? fun g => decide (handleOf g = h)).map fun g => (none, g)

/-- The parts of a handle that Table 14.9 gives as 0 are 0; a body in which they are not is malformed (R426). DEDUCED (assumption 74). -/
def handleOk (h : DWord) : Bool := decide (slice h 56 8 = 0) && decide (slice h 17 15 = 0)

/-- KILLT (R310, R426). -/
def killFor (s : State) (ctx : Nat) (c : Context) (handle : DWord) (grid : Bool) : Reply :=
  match groupNamed s ctx c handle with
  | none => refuse s 3
  | some (gid, g) => match teamOfHandle s c g with
    | none => ok (match gid with
        | some i => killFalls s i
        | none => s) []
    | some (t, gr) =>
      if grid then ok (killTeams (removeTasks s fun _ _ x => decide (x.grid = gr)) ctx (gridTeams s c gr)) []
      else ok (killTeams s ctx [t]) []

def execKillt (h : Hdr) (handle : BitVec 64) (grid : Bool) (s : State) : Out :=
  command s h 0x14 isOpen fun c =>
    if handleOk handle then killFor s h.ctx.toNat c handle grid else refuse s 4

/-- RESUMEG (R355, R427): the result that RESUME writes; a handle of another context is no object of this one. -/
def execResumeg (h : Hdr) (handle : BitVec 64) (kill : Bool) (s : State) : Out :=
  command s h 0x15 isOpen fun _ =>
    if handleOk handle = false then refuse s 4
    else if slice handle 48 8 ≠ h.ctx.toNat then refuse s 3
    else match resumeBy s handle kill with
      | some s' => ok s' [0]
      | none => ok s [1]

/-- STARTCG (R19, R426, R427). -/
def execStartcg (h : Hdr) (core : Nat) (kid : Nat) (rec : TaskRec) (s : State) : Out :=
  command s h 0x16 isOpen fun _ => withKernel s h.ctx.toNat kid fun k =>
    if k.st = .drained then refuse s 3
    else if rec.zero ≠ 0 then refuse s 4
    else match startControl s h.ctx.toNat core kid rec with
      | some r => ok r.1 [handleOf r.2]
      | none => refuse s 3

/-! ### Queues and tasks -/

/-- The queue of a context that an id names, or status 3 (R426). -/
def withQueue (s : State) (ctx qid : Nat) (f : Queue → Reply) : Reply :=
  match (mget s.queues qid).filter fun q => decide (q.ctx = ctx) with
  | some q => f q
  | none => refuse s 3

/-- LAUNCHK and Drify ENQ: the checks of R426, then the slot write of R296 without a Publish. -/
def enqueueFor (s : State) (ctx qid teams : Nat) (one : Bool) (r : TaskRec) : Reply :=
  withQueue s ctx qid fun _ =>
    if !entryOk s ctx r then refuse s 3
    else if teams = 0 ∨ (one = true ∧ teams ≠ 1) ∨ recordOk r = false then refuse s 4
    else match insertTask s qid { r with depth := 0 } teams with
      | some s' => ok s' [1]
      | none => ok s [0]

def execLaunchk (h : Hdr) (qid : Nat) (teams : Nat) (rec : TaskRec) (s : State) : Out :=
  command s h 0x13 isOpen fun _ => enqueueFor s h.ctx.toNat qid teams false rec

def execDrifyEnq (h : Hdr) (qid : Nat) (teams : Nat) (rec : TaskRec) (s : State) : Out :=
  command s h 0x1F isOpen fun _ => enqueueFor s h.ctx.toNat qid teams true rec

/-- CREATEQ (R286, R287, R289). -/
def execCreateq (h : Hdr) (qid : Nat) (ovf ovfsz : BitVec 64) (mask : BitVec 576) (s : State) : Out :=
  command s h 0x18 isOpen fun c =>
    if 4096 ≤ qid ∨ (mget s.queues qid).any (fun q => decide (q.st ≠ .destroyed)) = true ∨ mask &&& ~~~c.mask ≠ 0 ∨ ovfsz.toNat % 131072 ≠ 0 then refuse s 3
    else ok (setQueue { s with fresh := s.fresh + 1 } qid
      { ctx := h.ctx.toNat, born := s.fresh, st := .created, discarding := false, mask := mask, ovf := ovf.toNat, ovfsz := ovfsz.toNat, segs := [] }) []

/-- A queue event of Table 11.2: from the states that take it, or status 2. -/
def queueEvent (s : State) (h : Hdr) (op qid : Nat) (takes : QState → Bool) (f : Queue → State) : Out :=
  command s h op isOpen fun _ => withQueue s h.ctx.toNat qid fun q => if takes q.st then ok (f q) [] else refuse s 2

/-- START (R286). -/
def execStart (h : Hdr) (qid : Nat) (s : State) : Out :=
  queueEvent s h 0x19 qid (fun st => decide (st = .created ∨ st = .paused)) fun q => setQueue s qid { q with st := .active }

/-- PAUSE (R286). -/
def execPause (h : Hdr) (qid : Nat) (s : State) : Out :=
  queueEvent s h 0x1A qid (fun st => decide (st = .active)) fun q => setQueue s qid { q with st := .paused }

/-- DRAIN (R286): tasks are kept. -/
def execDrain (h : Hdr) (qid : Nat) (s : State) : Out :=
  queueEvent s h 0x1B qid (fun st => decide (st = .created ∨ st = .active ∨ st = .paused)) fun q =>
    settleQueues (setQueue s qid { q with st := .draining })

/-- DISCARD (R286). -/
def execDiscard (h : Hdr) (qid : Nat) (s : State) : Out :=
  queueEvent s h 0x1C qid (fun st => decide (st ≠ .destroyed)) fun _ => discardQueue s qid

/-- SETMASK (R287). -/
def execSetmask (h : Hdr) (qid : Nat) (mask : BitVec 576) (s : State) : Out :=
  command s h 0x1D isOpen fun c => withQueue s h.ctx.toNat qid fun q =>
    if q.st = .destroyed then refuse s 2 else if mask &&& ~~~c.mask ≠ 0 then refuse s 3 else ok (setQueue s qid { q with mask := mask }) []

/-- Codes of Table 11.1. -/
def QState.code : QState → Nat
  | .created => 0
  | .active => 1
  | .paused => 2
  | .draining => 3
  | .destroyed => 4

/-- STATE of an occupied slot: READY (1), or DISPATCHING (2). Where the slot of a LAUNCH has dispatched some of its teams, it is one of the
two: the spec does not say which (log entry 40). -/
def readState (s : State) (i : Nat) (t : Task) : Nat := if t.next = 0 then 1 else 1 + Config.choice s.tick (2 ^ 99 + i) % 2

/-- The hardware state of a slot (Table 11.3). -/
def slotWords (s : State) (x : Segment) (i : Nat) : List DWord :=
  match mget x.slots i with
  | none => [0, 0, 0, 0, 0, 0]
  | some t => [u64 (readState s i t + t.eprio * 2 ^ 32), u64 t.age0, u64 t.next, u64 t.nteam, 0, 0]

/-- READY tasks of a segment: the slots whose STATE reads READY in the same answer (R427). -/
def readyTasks (s : State) (x : Segment) : Nat := (x.slots.filter fun p => decide (readState s p.1 p.2 = 1)).length

/-- QUERYQ (Table 18.9). -/
def execQueryq (h : Hdr) (qid seg slot : Nat) (s : State) : Out :=
  command s h 0x1E isOpen fun _ => withQueue s h.ctx.toNat qid fun q =>
    if 1024 ≤ seg ∨ 256 ≤ slot then refuse s 3
    else
      let x := q.seg seg
      ok s (u64 (q.st.code + readyTasks s x * 2 ^ 32) :: u64 x.disp :: ((List.range 16).flatMap fun i => slotWords s x (slot + i)))

/-! ### Graphs -/

/-- The graph of a context that an id names, or status 3 (R426). -/
def withGraph (s : State) (ctx gid : Nat) (f : Graph → Reply) : Reply :=
  match (mget s.graphs gid).filter fun x => decide (x.ctx = ctx) with
  | some x => f x
  | none => refuse s 3

/-- The commands of a list as RECORDG reads it (R298, R299). -/
def chunks128 : Nat → List Byte → List (List Byte)
  | 0, _ => []
  | n + 1, l => l.take 128 :: chunks128 n (l.drop 128)

/-- RECORDG (R298). -/
def execRecordg (h : Hdr) (gid count core : Nat) (addr : BitVec 64) (s : State) : Out :=
  command s h 0x20 isOpen fun _ =>
    if 1024 ≤ gid ∨ (mget s.graphs gid).isSome ∨ count = 0 ∨ 4096 < count then refuse s 3
    else match (devBytes s h.ctx.toNat addr (128 * count)).bind fun b => recordGraph s h.ctx.toNat gid count core addr (chunks128 count b) with
      | some s' => ok s' []
      | none => refuse s 3

/-- FREEG (R298). -/
def execFreeg (h : Hdr) (gid : Nat) (s : State) : Out :=
  command s h 0x21 isOpen fun _ => withGraph s h.ctx.toNat gid fun x => ok (freeGraph s gid x) []

/-- Parameter registers that a REPLAY supplies (Table 18.8). -/
def suppliedGp (x : Graph) (mask : BitVec 16) (gp : Vector (BitVec 64) 16) : Graph :=
  { x with gp := Vector.ofFn fun i => if mask.getLsbD i.val then gp[i] else x.gp[i] }

/-- REPLAY (R300). -/
def execReplay (h : Hdr) (gid : Nat) (mask : BitVec 16) (gp : Vector (BitVec 64) 16) (s : State) : Out :=
  command s h 0x22 isOpen fun _ => withGraph s h.ctx.toNat gid fun x =>
    if x.replaying then refuse s 1 else ok (setGraph s gid (suppliedGp x mask gp).start) []

/-! ### What is no command -/

/-- BAD_COMMAND (R424, R426): status 4, or 5 from a source that is not the association of the context named (R423); ATTEST is taken from
any source (R452). -/
def execBadCommand (h : Hdr) (op : BitVec 16) (s : State) : Out :=
  if op = 0x38 then .next (if attestArrives s h then reply s h 0x38 4 [] else s)
  else associated s h op.toNat (if (mget s.contexts h.ctx.toNat).any (fun c => decide (c.assoc ≠ h.assoc)) && decide (h.ctx ≠ 0)
    then refuse s 5 else refuse s 4)

/-! ### Commands that wait -/

/-- The header of a Drify command. -/
def hdrOf : Instr → Option Hdr
  | .openCtx h _ => some h
  | .featans h .. => some h
  | .setquota h _ => some h
  | .close h => some h
  | .swout h => some h
  | .swin h => some h
  | .mappg h .. => some h
  | .rmtset h .. => some h
  | .loadk h .. => some h
  | .readyk h _ => some h
  | .unloadk h _ => some h
  | .launchk h .. => some h
  | .killt h .. => some h
  | .resumeg h .. => some h
  | .startcg h .. => some h
  | .createq h .. => some h
  | .start h _ => some h
  | .pause h _ => some h
  | .drain h _ => some h
  | .discard h _ => some h
  | .setmask h .. => some h
  | .queryq h .. => some h
  | .drifyEnq h .. => some h
  | .recordg h .. => some h
  | .freeg h _ => some h
  | .replay h .. => some h
  | .portquery h _ => some h
  | .portup h _ => some h
  | .portdrain h _ => some h
  | .setport h .. => some h
  | .attest h _ => some h
  | .badCommand h _ => some h
  | _ => none

/-- A command follows, in a ROD packet delivery context, one of those that wait (R425). -/
def behind (l : List Instr) (i : Instr) : Bool :=
  (hdrOf i).any fun h => decide (h.mode = .rod) && l.any fun j => (hdrOf j).any fun k => decide (k.mode = .rod) && decide (k.pdc = h.pdc)

/-- A command that has arrived still waits for its invalidation (R411). -/
def stillWaits (s : State) : Instr → Bool
  | .mappg h va _ level _ => mapWaits s h.ctx.toNat va level
  | _ => false

end Sys2Proof.Machine
end

