-- ==== Sys2Proof/Machine/Clock.lean ====
section
/-! DEFINITION. Operating points, throttling and droop (19_clocks_and_current.md R428 to R436). -/

namespace Sys2Proof.Machine

/-- A legal operating point (R428). -/
def pointOk (p : OpPoint) : Bool :=
  decide (600 ≤ p.vmv ∧ p.vmv ≤ 800) && decide (p.lfreq % 25 = 0 ∧ 400 ≤ p.lfreq ∧ p.lfreq ≤ 1000) &&
  decide (p.lfreq + 500 ≤ 2 * p.vmv) && decide (p.ratio < 3) && decide (p.ratio = 0 → 2 * p.lfreq ≤ 1700)

/-! ### PWRREQ -/

/-- A post into a mailbox: 1 when it replaced a target (R429, R431). -/
def postTarget (s : State) (cl : Nat) (p : OpPoint) : State × Nat :=
  let c := clusterOf s cl
  (setCluster s cl { c with mailbox := some p }, if c.mailbox.isSome then 1 else 0)

/-- PWRREQ (R431). -/
def pwrreqStep (s : State) (d : Option (BitVec 5)) (t : BitVec 5) : R State := do
  let g ← issuer s
  if !g.privileged then denied s
  else do
    context0Only s g
    useW s g [t.toNat] ((d.map (·.toNat)).toList)
    let w := g.rdW t.toNat
    let p : OpPoint := { vmv := slice w 16 10, lfreq := slice w 32 12, ratio := slice w 8 2 }
    need s (decide (slice w 44 20 = 0 ∧ slice w 26 6 = 0 ∧ slice w 10 6 = 0 ∧ slice w 0 8 ≤ 143) && decide (p.ratio ≠ 3) &&
      decide (600 ≤ p.vmv ∧ p.vmv ≤ 800) && decide (400 ≤ p.lfreq ∧ p.lfreq ≤ 1000 ∧ p.lfreq % 25 = 0))
    let r := if pointOk p then postTarget s (slice w 0 8) p else (s, 2)
    .ok (done r.1 (match d with
      | none => g
      | some x => g.wrW x.toNat (u64 r.2)))

def execPwrreq (d : Option (BitVec 5)) (t : BitVec 5) (s : State) : Out := finish (pwrreqStep s d t)

/-! ### Changes -/

/-- The effective point of a target under a cap (R429). -/
def effective (p : OpPoint) (cap : Option Nat) : OpPoint :=
  match cap with
  | none => p
  | some f => { p with lfreq := min p.lfreq f }

/-- A cap holds a cluster below a target (R432). -/
def capped (p : OpPoint) (cap : Option Nat) : Bool := cap.any fun f => decide (f < p.lfreq)

/-- The group of a team that a throttle notice falls due to: the lowest GID that has not ended (R434). -/
def electGroup (s : State) (tid : Nat) : Option Nat :=
  ((sortBy (((teamGroups s tid).filter fun p => !p.2.st.ended).map fun p => (p.2.gid, p.1))).map (·.2)).head?

/-- A throttle notice falls due to every resident team of a cluster (R434). -/
def throttleNotice (s : State) (cl code : Nat) : State :=
  (s.teams.filter fun p => decide (clusOf p.2.core = cl)).foldl (fun s p => match electGroup s p.1 with
    | none => s
    | some g => match mget s.groups g with
      | none => s
      | some x => setGroup s g (x.noticeDue code)) s

/-- The end of a change: the goal is the point, and throttling begins or ends as the cap of this change has it (R429, R432, R434). -/
def endChange (s : State) (cl : Nat) (goal : OpPoint) (low : Bool) : State :=
  let c := clusterOf s cl
  let s := setCluster s cl { c with point := goal, change := none, throttled := low }
  if low == c.throttled then s else throttleNotice s cl (if low then 0x21 else 0x22)

/-- OP_CHANGE_START (R429 step 1): the mailbox empties into the change; a change to the point in force is over at once. -/
def opChangeStart (s : State) (cl : Nat) : State :=
  let c := clusterOf s cl
  if c.change.isSome ∨ (c.mailbox.isNone ∧ c.capMoved = false) then s
  else
    let target := c.mailbox.getD c.target
    let goal := effective target c.cap
    let low := capped target c.cap
    let c := { c with target := target, mailbox := none, capMoved := false }
    if goal = c.point then endChange (setCluster s cl c) cl goal low
    else setCluster s cl { c with change := some { goal := goal, capped := low, phase := if c.point.vmv < goal.vmv then .rampUp else .relock,
                                                   since := s.tstamp } }

def execOpChangeStart (cluster : Nat) (s : State) : Out := .next (opChangeStart s cluster)

/-- Nanoseconds of a supply ramp, at 10 mV/us. -/
def rampNs (a b : Nat) : Nat := 100 * ((a - b) + (b - a))

/-- SUPPLY_RAMP_DONE (R429 steps 2 and 4). -/
def supplyRampDone (s : State) (cl : Nat) : State :=
  let c := clusterOf s cl
  match c.change with
  | none => s
  | some x =>
    if s.tstamp < x.since + rampNs c.point.vmv x.goal.vmv then s
    else match x.phase with
      | .rampUp => setCluster s cl { c with change := some { x with phase := .relock, since := s.tstamp } }
      | .rampDown => endChange s cl x.goal x.capped
      | .relock => s

def execSupplyRampDone (cluster : Nat) (s : State) : Out := .next (supplyRampDone s cluster)

/-- RELOCK_DONE (R429 steps 3 and 4). -/
def relockDone (s : State) (cl : Nat) : State :=
  let c := clusterOf s cl
  match c.change with
  | none => s
  | some x =>
    if x.phase ≠ .relock ∨ s.tstamp < x.since + 1000 then s
    else if x.goal.vmv < c.point.vmv then setCluster s cl { c with change := some { x with phase := .rampDown, since := s.tstamp } }
    else endChange s cl x.goal x.capped

def execRelockDone (cluster : Nat) (s : State) : Out := .next (relockDone s cluster)

/-- CAP_CHANGE (R429, R450): the span firmware, once it runs, sets the cap, which takes effect as the next change. -/
def capChange (s : State) (cluster cap : Nat) : State :=
  if s.fw.step < 3 ∨ 144 ≤ cluster then s else setCluster s cluster { clusterOf s cluster with cap := some cap, capMoved := true }

def execCapChange (cluster cap : Nat) (s : State) : Out := .next (capChange s cluster cap)

/-! ### Droop -/

/-- DROOP_ALARM (R436). -/
def droopAlarm (s : State) (cl : Nat) : State :=
  let c := clusterOf s cl
  if c.relocking then s
  else match c.droopNow with
    | .stretch _ => s
    | _ => setCluster s cl { c with droop := .stretch c.cycle }

def execDroopAlarm (cluster : Nat) (s : State) : Out := .next (droopAlarm s cluster)

/-- DROOP_STRETCH_END: the 6 lc that follow the alarm are over (R436 step 1). -/
def droopStretchEnd (s : State) (cl : Nat) : State :=
  let c := clusterOf s cl
  match c.droop with
  | .stretch t => if t + 7 ≤ c.cycle then setCluster s cl { c with droop := c.droopNow } else s
  | _ => s

def execDroopStretchEnd (cluster : Nat) (s : State) : Out := .next (droopStretchEnd s cluster)

/-- DROOP_WINDOW_END: the 64 lc after the stretch are over (R436 step 2). -/
def droopWindowEnd (s : State) (cl : Nat) : State :=
  let c := clusterOf s cl
  match c.droop with
  | .window t => if t + 64 ≤ c.cycle then setCluster s cl { c with droop := .idle } else s
  | _ => s

def execDroopWindowEnd (cluster : Nat) (s : State) : Out := .next (droopWindowEnd s cluster)

/-! ### The span firmware -/

/-- SPAN_FIRMWARE_CLUSTER_SETTING (R450, Table 25.1): a legal target is posted; CSLR and DDTR take values that SWR would take. -/
def spanSetting (s : State) (cl : Nat) : ClusterSetting → State
  | .target p => if pointOk p then (postTarget s cl p).1 else s
  | .cslr v => if v &&& ~~~0xFF3F#32 = 0 then setCluster s cl { clusterOf s cl with cslr := v } else s
  | .ddtr v => if 10 ≤ v.toNat ∧ v.toNat ≤ 100 then setCluster s cl { clusterOf s cl with ddtr := v } else s

def execSpanFirmwareClusterSetting (cluster : Nat) (v : ClusterSetting) (s : State) : Out :=
  .next (if s.fw.step < 3 ∨ 144 ≤ cluster then s else spanSetting s cluster v)

end Sys2Proof.Machine
end

