-- ==== Sys2Proof/Machine/Matrix.lean ====
section
/-! DEFINITION. Tile descriptors, accumulator tiles and what the matrix sequencer computes (07_ref_float_packed_matrix.md R211 to
R226). -/

namespace Sys2Proof.Machine

/-! ### TSET, TGET, TCLR -/

/-- Width of a descriptor field (Table 7.16). -/
def fieldWidth (fld : BitVec 4) : Nat := match fld.toNat with
  | 0 => 20
  | 1 => 4
  | 2 => 6
  | 3 => 16
  | 4 => 32
  | 5 => 20
  | 6 => 20
  | 7 => 3
  | _ => 8

/-- A value that TSET may write to a field (R214, R272); `mx`: the MX formats are enabled. -/
def fieldOk (mx : Bool) (fld : BitVec 4) (v : DWord) : Bool :=
  decide (v.toNat < 2 ^ fieldWidth fld) && match fld.toNat with
    | 0 => decide (v.toNat % 256 = 0)
    | 1 => decide (v.toNat ≠ 14) && (mx || !isScaled v.toNat)
    | 2 => decide (v.toNat ≤ 32)
    | 5 => decide (v.toNat % 256 = 0)
    | 6 => decide (v.toNat % 32 = 0)
    | _ => true

def Desc.setField (d : Desc) (fld : BitVec 4) (v : DWord) : Desc := match fld.toNat with
  | 0 => { d with base := v.truncate 20 }
  | 1 => { d with fmt := v.truncate 4 }
  | 2 => { d with rows := v.truncate 6 }
  | 3 => { d with cols := v.truncate 16 }
  | 4 => { d with stride := v.truncate 32 }
  | 5 => { d with inc := v.truncate 20 }
  | 6 => { d with scale := v.truncate 20 }
  | 7 => { d with maskq := v.truncate 3 }
  | _ => { d with layout := v.truncate 8 }

def Desc.field (d : Desc) (fld : BitVec 4) : DWord := match fld.toNat with
  | 0 => d.base.zeroExtend 64
  | 1 => d.fmt.zeroExtend 64
  | 2 => d.rows.zeroExtend 64
  | 3 => d.cols.zeroExtend 64
  | 4 => d.stride.zeroExtend 64
  | 5 => d.inc.zeroExtend 64
  | 6 => d.scale.zeroExtend 64
  | 7 => d.maskq.zeroExtend 64
  | _ => d.layout.zeroExtend 64

def Team.tile (t : Team) (n : BitVec 4) : Desc := t.tiles[(⟨n.toNat, n.isLt⟩ : Fin 16)]
def Team.setTile (t : Team) (n : BitVec 4) (d : Desc) : Team := { t with tiles := t.tiles.set (⟨n.toNat, n.isLt⟩ : Fin 16) d }

/-- TSET (R214). -/
def tsetStep (s : State) (n fld : BitVec 4) (r : BitVec 5) : R State := do
  let g ← issuer s
  let (tid, t) ← issuerTeam s g
  useW s g [r.toNat] []
  need s (fieldOk (feature s g 1) fld (g.rdW r.toNat))
  .ok (done (setTeam s tid (t.setTile n ((t.tile n).setField fld (g.rdW r.toNat)))) g)

def execTset (t : BitVec 4) (fld : BitVec 4) (r : BitVec 5) (s : State) : Out := finish (tsetStep s t fld r)

/-- TGET (R214). -/
def tgetStep (s : State) (d : BitVec 5) (n fld : BitVec 4) : R State := do
  let g ← issuer s
  let (_, t) ← issuerTeam s g
  useW s g [] [d.toNat]
  .ok (done s (g.wrW d.toNat ((t.tile n).field fld)))

def execTget (d : BitVec 5) (t : BitVec 4) (fld : BitVec 4) (s : State) : Out := finish (tgetStep s d t fld)

/-- A descriptor with every field 0 (R213). -/
def Desc.zero : Desc :=
  { base := 0, fmt := 0, rows := 0, cols := 0, stride := 0, inc := 0, scale := 0, maskq := 0, layout := 0 }

/-- TCLR (R214). -/
def tclrStep (s : State) (n : BitVec 4) : R State := do
  let g ← issuer s
  let (tid, t) ← issuerTeam s g
  .ok (done (setTeam s tid (t.setTile n Desc.zero)) g)

def execTclr (t : BitVec 4) (s : State) : Out := finish (tclrStep s t)

/-! ### Accumulator tiles -/

def Team.acct (t : Team) (n : Nat) : AccTile := mgetD t.acc n AccTile.zero
def Team.setAcct (t : Team) (n : Nat) (a : AccTile) : Team := { t with acc := mputD t.acc n a AccTile.zero }
def AccTile.word (a : AccTile) (i j : Nat) : Word := mgetD a.words (32 * i + j) 0
def AccTile.setWord (a : AccTile) (i j : Nat) (w : Word) : AccTile := { a with words := mputD a.words (32 * i + j) w 0 }

/-- The error bit is set by a line; the row mask of R217 is cleared. The first line's offset stays. -/
def AccTile.mark (a : AccTile) (off : Nat) : AccTile :=
  { a with err := true, errOff := if a.err then a.errOff else off, rowsDone := 0 }

def AccTile.unmark (a : AccTile) : AccTile := { a with err := false, errOff := 0, rowsDone := 0 }

/-- The accumulator tile that a sequencer operation writes. -/
def SeqKind.target : SeqKind → Option Nat
  | .mloop a .. => some a
  | .mzero a => some a
  | .mload a .. => some a
  | .mproj _ a .. => some a
  | _ => none

/-- An incomplete operation of the team writes one of the tiles (R48). -/
def tileWritten (s : State) (core tid : Nat) (ns : List Nat) : Bool :=
  (coreOf s core).seq.any fun o => decide (o.team = tid) && match o.kind.target with
    | some a => ns.contains a
    | none => false

/-- An incomplete operation of the team is on a tile (R225). -/
def tileNamed (s : State) (core tid n : Nat) : Bool :=
  (coreOf s core).seq.any fun o => decide (o.team = tid) && o.kind.names.contains n

/-- A reader of an errored tile traps (R217). -/
def errCheck (s : State) (t : Team) (n : Nat) : R Unit :=
  if (t.acct n).err then .error (stopTrap s 10 (u64 (t.acct n).errOff)) else .ok ()

/-- An operation as the sequencer accepts it; `n` is the number that the next engine operation would take. -/
def SeqOp.start (n gid tid : Nat) (k : SeqKind) : SeqOp :=
  { issued := n, group := gid, team := tid, kind := k, done := 0, seen := [], badA := 0, badB := 0, bad := none, flags := 0 }

/-- The sequencer accepts an operation; an issue that finds 8 waits (R215). DESIGN CHOICE (log entry 122): the checks of its entry come before
that wait, so that one which fails them traps at once. -/
def seqIssue (s : State) (g : Group) (tid : Nat) (k : SeqKind) : R State :=
  let c := coreOf s g.core
  if 8 ≤ c.seq.length then .error (.hold s (.unit .sequencer))
  else .ok (done (setCore s g.core { c with seq := c.seq ++ [SeqOp.start s.fresh s.cur.group tid k] }) g)

/-! ### Issue -/

/-- Offsets and lengths of the step lines and scale lines that `n` steps of an operand read (R219). -/
def loopParts (d : Desc) (n : Nat) : List (Nat × Nat) :=
  (List.range n).map (fun k => (d.stepAt k, 512)) ++
  (if isScaled d.f then (((List.range n).map fun k => k * ksOf d.f / 32).eraseDups).map fun j => (d.scaleAt j, 32) else [])

/-- The line checks of R219 on both operands. -/
def loopLines (s : State) (t : Team) (da db : Desc) (n : Nat) : R Unit :=
  match (outside t (loopParts da n)).or (outside t (loopParts db n)) with
  | some off => .error (stopTrap s 9 (u64 off))
  | none => .ok ()

/-- MLOOP (R219, R220). DESIGN CHOICE (log entry 121): a line outside the scratchpad (cause 0x09) comes before the error of the tile (0x0A). -/
def mloopStep (s : State) (m z : Bool) (cnt : BitVec 5) (tb ta : BitVec 4) (acc : BitVec 6) : R State := do
  let g ← issuer s
  let (tid, t) ← issuerTeam s g
  useW s g [cnt.toNat] []
  stallIf s (tileWritten s g.core tid [acc.toNat])
  let da := t.tile ta
  let db := t.tile tb
  let n := (g.rdW cnt.toNat).toNat
  need s (decide (n ≤ 65535))
  need s (compatible da.f db.f)
  loopLines s t da db n
  if !z || m then errCheck s t acc.toNat
  let mask (d : Desc) : Word := if m then (g.q[d.maskq.toNat]!).truncate 32 else 0xFFFFFFFF#32
  seqIssue s g tid (.mloop acc.toNat da db n z (mask da) (mask db))

def execMloop (m z : Bool) (cnt : BitVec 5) (tB tA : BitVec 4) (acc : BitVec 6) (s : State) : Out :=
  finish (mloopStep s m z cnt tB tA acc)

/-- MZERO (R223). -/
def mzeroStep (s : State) (acc : BitVec 6) : R State := do
  let g ← issuer s
  let (tid, _) ← issuerTeam s g
  stallIf s (tileWritten s g.core tid [acc.toNat])
  seqIssue s g tid (.mzero acc.toNat)

def execMzero (acc : BitVec 6) (s : State) : Out := finish (mzeroStep s acc)

/-- The range of a tile transfer lies in the scratchpad (R224). -/
def transferRange (s : State) (t : Team) (d : Desc) (p : Nat) : R Unit :=
  if t.inRange d.base.toNat (32 * p) then .ok () else .error (stopTrap s 9 (u64 d.base.toNat))

/-- MLOAD (R224). -/
def mloadStep (s : State) (acc : BitVec 6) (tn : BitVec 4) : R State := do
  let g ← issuer s
  let (tid, t) ← issuerTeam s g
  stallIf s (tileWritten s g.core tid [acc.toNat])
  need s (decide ((t.tile tn).f = 15))
  transferRange s t (t.tile tn) 128
  seqIssue s g tid (.mload acc.toNat (t.tile tn))

def execMload (acc : BitVec 6) (t : BitVec 4) (s : State) : Out := finish (mloadStep s acc t)

/-- MSTORE (R224). DESIGN CHOICE (log entry 121): a range outside the scratchpad (cause 0x09) comes before the error of the tile (0x0A). -/
def mstoreStep (s : State) (tn : BitVec 4) (acc : BitVec 6) : R State := do
  let g ← issuer s
  let (tid, t) ← issuerTeam s g
  stallIf s (tileWritten s g.core tid [acc.toNat])
  match transferRow (t.tile tn).f with
  | none => illegal s
  | some p => do
    transferRange s t (t.tile tn) p
    errCheck s t acc.toNat
    seqIssue s g tid (.mstore acc.toNat (t.tile tn) g.frm)

def execMstore (t : BitVec 4) (acc : BitVec 6) (s : State) : Out := finish (mstoreStep s t acc)

/-! ### MREAD, MWRITE, MWAIT -/

/-- The 7-bit field of a uniform register. -/
def uniField (e : BitVec 5) : BitVec 7 := 0x60#7 ||| e.zeroExtend 7

/-- MREAD (R225). DESIGN CHOICE (log entry 121): the error of the tile (cause 0x0A) comes before a lane's register budget (0x01). -/
def mreadStep (s : State) (d : BitVec 7) (acc : BitVec 6) (e : BitVec 5) : R State := do
  let g ← issuer s
  let (tid, t) ← issuerTeam s g
  stallIf s (tileNamed s g.core tid acc.toNat)
  operandsReady s g [uniField e] [d]
  errCheck s t acc.toNat
  let row := slice (g.rdW e.toNat) 0 5
  let g' ← vecOn s g (cohort s) [(uniField e, false)] [d] fun i _ => .val ((t.acct acc.toNat).word row i.val)
  .ok (done s g')

def execMread (d : BitVec 7) (acc : BitVec 6) (e : BitVec 5) (s : State) : Out := finish (mreadStep s d acc e)

/-- The error bit after a row has been written by the lanes of `m` (R217). -/
def AccTile.rowWritten (a : AccTile) (row : Nat) (m : BitVec 32) : AccTile :=
  if a.err && m == 0xFFFFFFFF#32 then
    let rows := a.rowsDone ||| BitVec.twoPow 32 row
    if rows = 0xFFFFFFFF#32 then a.unmark else { a with rowsDone := rows }
  else a

/-- MWRITE (R225); the stream record of the tile is invalid from now on (R261). -/
def mwriteStep (s : State) (acc : BitVec 6) (e : BitVec 5) (d : BitVec 7) : R State := do
  let g ← issuer s
  let (tid, t) ← issuerTeam s g
  stallIf s (tileNamed s g.core tid acc.toNat)
  let g' ← vecOn s g (cohort s) [(uniField e, false), (d, false)] [] fun _ _ => { vals := [], flags := 0 }
  let row := slice (g.rdW e.toNat) 0 5
  let a := (cohort s).foldl (fun a i => a.setWord row i.val (g.rdLane i d).1) (t.acct acc.toNat)
  .ok (done (setTeam s tid (t.setAcct acc.toNat ({ a with stream := none }.rowWritten row s.cur.mask))) g')

def execMwrite (acc : BitVec 6) (e : BitVec 5) (d : BitVec 7) (s : State) : Out := finish (mwriteStep s acc e d)

/-- MWAIT (R226). -/
def mwaitStep (s : State) (all : Bool) (acc : BitVec 6) : R State := do
  let g ← issuer s
  let _ ← issuerTeam s g
  if seqHas s s.cur.group g.core fun k => all || k.names.contains acc.toNat then
    .error (.hold s (.unit (if all then .tiles else .tile acc.toNat)))
  else .ok (done s g)

def execMwait (all : Bool) (acc : BitVec 6) (s : State) : Out := finish (mwaitStep s all acc)

/-! ### What an operation computes -/

/-- A byte as the sequencer reads it: unspecified in a line with an uncorrectable error (R217). -/
def seqByte (s : State) (t : Team) (off : Nat) : Byte :=
  if t.badLines.contains (off / 256) then Config.freeByte s.tick (2 ^ 62 + off) else (t.read off 1).headD 0

/-- Unspecified value of an accumulator word (R217). -/
def freeWord (s : State) (i j : Nat) : Word :=
  u32 (leNat ((List.range 4).map fun b => Config.freeByte s.tick (2 ^ 65 + 4 * (32 * i + j) + b)))

/-- What a step has read of one operand: its format, its step line and its scale line (R211). -/
structure StepSide where
  fmt : Nat
  line : Array Byte
  scales : Array Byte

/-- Code of element `kk` of row `r` of a step line (R211). -/
def StepSide.elem (d : StepSide) (r kk : Nat) : Nat :=
  let at' (o : Nat) : Nat := (d.line.getD (16 * r + o) 0).toNat
  match bitsOf d.fmt with
  | 16 => at' (2 * kk) + 256 * at' (2 * kk + 1)
  | 8 => at' kk
  | _ => at' (kk / 2) / 16 ^ (kk % 2) % 16

/-- The value of an element of a floating-point operand (Table 7.15, R100). -/
def elemVal (fmt c : Nat) : FVal :=
  match fmt with
  | 1 => unpackF e4m3 c
  | 2 => unpackF e5m2 c
  | 3 => unpackF e2m1 c
  | 6 => unpackF bf16 c
  | 7 => unpackF f16 c
  | 8 => unpackF e4m3 c
  | 9 => unpackF e5m2 c
  | 10 => unpackF e2m1 c
  | _ => .fin (decide (sextN c 8 < 0)) (sextN c 8).natAbs (-6)

/-- Scale exponent of row `r`: none for the NaN code, 0 for an operand without scales (R99, R117). -/
def StepSide.scale (d : StepSide) (r : Nat) : Option Int :=
  if isScaled d.fmt then
    let c := (d.scales.getD r 0).toNat
    if c = 255 then none else some ((c : Int) - 127)
  else some 0

/-- One product term with its block scales (R115, R117). Under a NaN scale, whether a 0 × ∞ product still sets NV is not stated: it does
(log entry 19). -/
def scaledTerm (sa sb : Option Int) (p : FVal) : FVal :=
  match sa, sb with
  | some x, some y => scaleV (x + y) p
  | _, _ => .nan p.isSig

/-- One element of a K-slice of the float kind (R114). -/
def sliceF (a b : StepSide) (i j : Nat) (c : Word) : Word × Flags :=
  let r := windowSum false (unpackF f32 c.toNat :: (List.range (ksOf a.fmt)).map fun kk =>
    scaledTerm (a.scale i) (b.scale j) (mulX (elemVal a.fmt (a.elem i kk)) (elemVal b.fmt (b.elem j kk))))
  (u32 r.1, r.2)

/-- A signed integer format (Table 7.15). -/
def signedFmt (fmt : Nat) : Bool := decide (fmt = 4 ∨ fmt = 5)

/-- One element of a K-slice of the integer kind (R118, R102). -/
def sliceI (a b : StepSide) (i j : Nat) (c : Word) : Word × Flags :=
  let es := (List.range (ksOf a.fmt)).map fun kk =>
    (intElem (bitsOf a.fmt) (signedFmt a.fmt) (a.elem i kk), intElem (bitsOf b.fmt) (signedFmt b.fmt) (b.elem j kk))
  (BitVec.ofInt 32 (c.toInt + (es.map fun p => p.1.1 * p.2.1).sum), es.foldl (fun a p => a ||| p.1.2 ||| p.2.2) 0)

/-- One element of a K-slice (R116). -/
def sliceElem (a b : StepSide) (i j : Nat) (c : Word) : Word × Flags := if isIntFmt a.fmt then sliceI a b i j c else sliceF a b i j c

/-- First line with an error of a range, as an offset (R217). -/
def firstBad (t : Team) (off n : Nat) : Option Nat := ((linesOf off n).find? t.badLines.contains).map (256 * ·)

/-- The rows, a 32nd of the range each, that lie in a line with an error. -/
def badRows (t : Team) (off n : Nat) : BitVec 32 := maskOf (allLanes.filter fun r => t.badLines.contains ((off + n / 32 * r.val) / 256))

/-- Every (row, column) of a tile, in order. -/
def tileCells : List (Nat × Nat) := (List.range 32).flatMap fun i => (List.range 32).map fun j => (i, j)

/-- Mark a tile if a line that was read holds an error (R217). -/
def AccTile.marked (a : AccTile) (bad : Option Nat) : AccTile :=
  match bad with
  | some off => a.mark off
  | none => a

/-- One K-step of a loop on the cells that its masks select (R220): the tile and the flags. A row that an error has reached holds
unspecified words (R217). -/
def loopStep (s : State) (x : AccTile) (a b : StepSide) (zero : Bool) (rm cm badA badB : BitVec 32) : AccTile × Flags :=
  (tileCells.filter fun p => rm.getLsbD p.1 && cm.getLsbD p.2).foldl (fun (x : AccTile × Flags) p =>
    let e := sliceElem a b p.1 p.2 (if zero then 0 else x.1.word p.1 p.2)
    (x.1.setWord p.1 p.2 (if badA.getLsbD p.1 || badB.getLsbD p.2 then freeWord s p.1 p.2 else e.1), x.2 ||| e.2)) (x, 0)

/-- The cells that the masks select are 0 (R220). -/
def AccTile.clearCells (x : AccTile) (rm cm : BitVec 32) : AccTile :=
  (tileCells.filter fun p => rm.getLsbD p.1 && cm.getLsbD p.2).foldl (fun x p => x.setWord p.1 p.2 0) x

/-- Two rows of a tile from the 256 B that MLOAD read (R224). -/
def loadRows (s : State) (x : AccTile) (row : Nat) (bs : List Byte) (bad : Bool) : AccTile :=
  (List.range 64).foldl (fun x c =>
    x.setWord (row + c / 32) (c % 32) (if bad then freeWord s (row + c / 32) (c % 32) else u32 (leNat ((bs.drop (4 * c)).take 4)))) x

/-- The bytes of an element that MSTORE writes, with its flags (Table 7.22). -/
def storeElem (fmt : Nat) (frm : BitVec 2) (w : Word) : List Byte × Flags :=
  let v := unpackF f32 w.toNat
  match fmt with
  | 6 => let r := convTo bf16 frm false v; (leList r.1 2, r.2)
  | 7 => let r := convTo f16 frm false v; (leList r.1 2, r.2)
  | 1 => let r := convTo e4m3 0 false v; (leList r.1 1, r.2)
  | 2 => let r := convTo e5m2 0 false v; (leList r.1 1, r.2)
  | _ => (leList w.toNat 4, 0)

/-- The bytes of the tile that MSTORE writes from BASE upward, and its flags (R224). -/
def storeTile (a : AccTile) (fmt : Nat) (frm : BitVec 2) : List Byte × Flags :=
  let es := tileCells.map fun p => storeElem fmt frm (a.word p.1 p.2)
  (es.flatMap (·.1), es.foldl (fun f e => f ||| e.2) 0)

/-- The flags of an operation reach GSTAT of its group (R104, R215). -/
def seqFlags (s : State) (gid : Nat) (f : Flags) : State :=
  match mget s.groups gid with
  | none => s
  | some g => setGroup s gid (g.orFlags f false)

end Sys2Proof.Machine
end

