-- ==== Sys2Proof/Machine/Draw.lean ====
section
/-! DEFINITION. Projection, the draw unit and token delivery (09_token_generation.md R257 to R268, R120). -/

namespace Sys2Proof.Machine

/-! ### DCFG -/

/-- MODE, RMAX, PL and s of DCFG (Table 9.1). -/
def dcfgMode (c : DWord) : Nat := slice c 0 2
def dcfgRmax (c : DWord) : Nat := slice c 2 8
def dcfgPl (c : DWord) : Nat := slice c 16 16
def dcfgS (c : DWord) : Word := c.extractLsb' 32 32

/-- A finite, positive, normal FP32 value (R259). -/
def posNormal (x : Word) : Bool := decide (2 ^ 23 ≤ x.toNat ∧ x.toNat < infCode f32)

/-- A BF16 pivot offset that is a NaN or greater than 0 (R259). -/
def pivotBad (l : Nat) : Bool :=
  match unpackF bf16 l with
  | .nan _ => true
  | .inf n => !n
  | .fin n m _ => !n && decide (m ≠ 0)

/-- A configuration that DRAWCFG takes (R259). -/
def dcfgOk (c : DWord) : Bool :=
  dcfgMode c != 3 && dcfgRmax c != 0 && slice c 10 6 == 0 && posNormal (dcfgS c) && !(dcfgMode c == 1 && pivotBad (dcfgPl c))

/-- DRAWCFG (R259). -/
def drawcfgStep (s : State) (r : BitVec 5) : R State := do
  let g ← issuer s
  need s (feature s g 2)
  let _ ← issuerTeam s g
  useW s g [r.toNat] []
  need s (dcfgOk (g.rdW r.toNat))
  .ok (done s { g with dcfg := g.rdW r.toNat })

def execDrawcfg (r : BitVec 5) (s : State) : Out := finish (drawcfgStep s r)

/-- DRAWSEED (R259). -/
def drawseedStep (s : State) (r : BitVec 5) : R State := do
  let g ← issuer s
  need s (feature s g 2)
  let _ ← issuerTeam s g
  if seqHas s s.cur.group g.core SeqKind.isDraw then .error (.hold s (.unit .draws))
  else do
    useW s g [r.toNat] []
    .ok (done s { g with drawKey := g.rdW r.toNat, drawCtr := 0 })

def execDrawseed (r : BitVec 5) (s : State) : Out := finish (drawseedStep s r)

/-! ### MPROJ -/

/-- MPROJ.C and MPROJ.S (R260). -/
def mprojStep (s : State) (sKind : Bool) (acc : BitVec 6) (ta tb menu : BitVec 4) : R State := do
  let g ← issuer s
  need s (feature s g 2)
  let (tid, t) ← issuerTeam s g
  stallIf s (tileWritten s g.core tid [acc.toNat])
  let da := t.tile ta
  let db := t.tile tb
  need s (compatible da.f db.f && isFloatFmt da.f && da.rows != 0)
  loopLines s t da db (2 ^ menu.toNat)
  seqIssue s g tid (.mproj sKind acc.toNat da db (2 ^ menu.toNat) g.dcfg)

def execMprojC (acc : BitVec 6) (tA tB menu : BitVec 4) (s : State) : Out := finish (mprojStep s false acc tA tB menu)
def execMprojS (acc : BitVec 6) (tA tB menu : BitVec 4) (s : State) : Out := finish (mprojStep s true acc tA tB menu)

/-! ### Exact weights -/

def Dy.zero : Dy := { m := 0, e := 0 }
def Dy.one : Dy := { m := 1, e := 0 }
def dyAdd (a b : Dy) : Dy :=
  if a.m = 0 then b else if b.m = 0 then a
  else
    let e := min a.e b.e
    { m := a.m * 2 ^ (a.e - e).toNat + b.m * 2 ^ (b.e - e).toNat, e := e }
def dyMul (a b : Dy) : Dy := { m := a.m * b.m, e := a.e + b.e }
def dyNeg (a : Dy) : Dy := { a with m := -a.m }
def dySum (l : List Dy) : Dy := l.foldr dyAdd Dy.zero
/-- a < b. -/
def dyLt (a b : Dy) : Bool := decide ((dyAdd a (dyNeg b)).m < 0)
/-- The largest integer not above a. -/
def dyFloor (a : Dy) : Int := if 0 ≤ a.e then a.m * 2 ^ a.e.toNat else a.m / 2 ^ (-a.e).toNat

/-- The exact value of a finite FP32 code; 0 for any other. -/
def dyOf (w : Word) : Dy := match unpackF f32 w.toNat with
  | .fin n m e => { m := sgn n m, e := e }
  | _ => Dy.zero

def f32Inf : Word := 0x7F800000#32
def f32NegInf : Word := 0xFF800000#32

/-- The value is a NaN. -/
def isNanW (w : Word) : Bool := (unpackF f32 w.toNat).isNan
/-- A finite value. -/
def isFinW (w : Word) : Bool := !isNanW w && w != f32Inf && w != f32NegInf

/-- 2^(y) with a relative error of `err` units of 2^-32, kept so far within the bound 2^-14 of R120 that the drawn shares stay
within the 2^-13 that R265 derives from it. -/
def expDy (y : Dy) (err : Int) : Dy :=
  let x : Int := if 0 ≤ y.e + 600 then y.m * 2 ^ (y.e + 600).toNat else y.m / 2 ^ (-(y.e + 600)).toNat
  { m := exp2S (x % sfS) * (2 ^ 32 + satI err (-(2 ^ 18 - 17)) (2 ^ 18 - 17)), e := x / sfS - 632 }

/-- (c - m) * s, exact. -/
def logitDy (c m s : Word) : Dy := dyMul (dyAdd (dyOf c) (dyNeg (dyOf m))) (dyOf s)

/-- The weight 2^((c - m) * s) of a logit under the maximum of its tile (R120, R261). DESIGN CHOICE: its one free error is the same
in the streamed sums, the histogram and the walk, so that each drawn share keeps R265's bound. -/
def weightOf (c m s : Word) : Dy :=
  if m = f32Inf then (if c = f32Inf then Dy.one else Dy.zero)
  else if isFinW m && isFinW c then expDy (logitDy c m s) (Config.drawError c m s)
  else Dy.zero

/-- floor(2 * x * s), exact. -/
def keyOf (x s : Word) : Int := dyFloor (dyMul { m := 2, e := 0 } (dyMul (dyOf x) (dyOf s)))

/-- The bucket of a logit under a maximum (R261). -/
def bucketOf (c m s : Word) : Nat :=
  if m = f32Inf then (if c = f32Inf then 0 else 63)
  else if isFinW m && isFinW c then min (keyOf m s - keyOf c s).toNat 63
  else 63

/-- The largest non-NaN logit of a list, -∞ if there is none. -/
def maxLogit (l : List Word) : Word :=
  l.foldl (fun m c => match cmpV (unpackF f32 m.toNat) (unpackF f32 c.toNat) with
    | some .lt => c
    | _ => m) f32NegInf

/-- Z and HIST of the logits of a row (R261). -/
def streamRow (s : Word) (l : List Word) : StreamRow :=
  let m := maxLogit l
  let ws := l.map fun c => (bucketOf c m s, weightOf c m s)
  { m := m, z := dySum (ws.map (·.2)), hist := (List.range 64).map fun b => dySum ((ws.filter fun p => decide (p.1 = b)).map (·.2)) }

/-- The 32 logits of a row of a tile. -/
def rowLogits (a : AccTile) (i : Nat) : List Word := (List.range 32).map (a.word i)

/-- The stream record of a tile of logits (R261). -/
def rowStream (x : AccTile) (sKind : Bool) (nrows : Nat) (dcfg : DWord) : Stream :=
  { sKind := sKind, nrows := nrows, dcfg := dcfg, rows := (List.range nrows).map fun i => streamRow (dcfgS dcfg) (rowLogits x i) }

/-! ### DRAW -/

/-- The stream records of a span agree (R263); their common header. -/
def spanHeader (t : Team) (ns : List Nat) : Option Stream :=
  match ns.map fun n => (t.acct n).stream with
  | [] => none
  | none :: _ => none
  | some h :: l => if l.all fun x => match x with
      | some y => y.sKind == h.sKind && y.nrows == h.nrows && y.dcfg == h.dcfg
      | none => false
    then some h else none

/-- DRAW (R263). DESIGN CHOICE (log entry 121): the error of a tile (cause 0x0A) comes after every other check. -/
def drawStep (s : State) (d : BitVec 5) (acc : BitVec 6) (e : BitVec 5) : R State := do
  let g ← issuer s
  need s (feature s g 2)
  let (tid, t) ← issuerTeam s g
  useW s g [e.toNat] [d.toNat]
  let w := g.rdW e.toNat
  let span := slice w 24 4 + 1
  let ns := (List.range span).map (acc.toNat + ·)
  stallIf s (tileWritten s g.core tid ns)
  need s (slice w 28 4 = 0 && decide (acc.toNat + span ≤ t.accCount))
  match spanHeader t ns with
  | none => illegal s
  | some h => do
    need s (h.sKind || decide (span = 1))
    let off := slice w 0 24
    if off % 256 ≠ 0 then .error (stopTrap s 2 (u64 off))
    else if !t.inRange off 256 then .error (stopTrap s 9 (u64 off))
    else match ns.find? fun n => (t.acct n).err with
      | some n => .error (stopTrap s 10 (u64 (t.acct n).errOff))
      | none => seqIssue s g tid (.draw d acc.toNat span off (w.extractLsb' 32 32) g.drawKey)

def execDraw (d : BitVec 5) (acc : BitVec 6) (e : BitVec 5) (s : State) : Out := finish (drawStep s d acc e)

/-- One round of Philox-4x32 (PRESUMED: the published generator that R264 names). -/
def philoxRound (c : Word × Word × Word × Word) (k : Word × Word) : Word × Word × Word × Word :=
  let p0 := 0xD2511F53 * c.1.toNat
  let p1 := 0xCD9E8D57 * c.2.2.1.toNat
  (u32 (p1 / 2 ^ 32) ^^^ c.2.1 ^^^ k.1, u32 p1, u32 (p0 / 2 ^ 32) ^^^ c.2.2.2 ^^^ k.2, u32 p0)

def philoxRounds : Nat → Word × Word × Word × Word → Word × Word → Word × Word × Word × Word
  | 0, c, _ => c
  | n + 1, c, k => philoxRounds n (philoxRound c k) (k.1 + 0x9E3779B9#32, k.2 + 0xBB67AE85#32)

/-- Word 0 of Philox-4x32-10 (R264). -/
def philox (key : DWord) (ctr : BitVec 128) : Word :=
  (philoxRounds 10 (ctr.extractLsb' 0 32, ctr.extractLsb' 32 32, ctr.extractLsb' 64 32, ctr.extractLsb' 96 32)
    (key.extractLsb' 0 32, key.extractLsb' 32 32)).1

/-- The merged record of a row over a span (R264). -/
structure Merged where
  m : Word
  z : Dy
  hist : List Dy
  deriving DecidableEq, Repr

/-- What one tile adds to the merged sums: its scale under the merged maximum, or none where it adds nothing (R264). The scale has no
error of its own: R120's bound is spent on the weights. -/
def mergeScale (m mt s : Word) : Option Dy :=
  if m = f32Inf ∨ m = f32NegInf then (if mt = m ∧ m = f32Inf then some Dy.one else none)
  else if isFinW mt then (if dyOf mt = dyOf m then some Dy.one else some (expDy (logitDy mt m s) 0))
  else none

/-- Buckets moved down by `k`, those past 63 into 63. -/
def shiftHist (k : Nat) (h : List Dy) : List Dy :=
  (List.range 64).map fun b =>
    if b = 63 then dySum ((List.range 64).map fun i => if 63 ≤ i + k then (h[i]?).getD Dy.zero else Dy.zero)
    else if k ≤ b then (h[b - k]?).getD Dy.zero else Dy.zero

/-- The weight of a logit under the merged maximum, as the merged sums hold it. -/
def walkWeight (m s : Word) (c mt : Word) : Dy := (mergeScale m mt s).elim Dy.zero (dyMul (weightOf c mt s))

def mergeRow (s : Word) (rows : List StreamRow) : Merged :=
  let m := maxLogit (rows.map (·.m))
  let parts := rows.filterMap fun r => (mergeScale m r.m s).map fun k =>
    let sh := if m = f32Inf then 0 else (keyOf m s - keyOf r.m s).toNat
    (dyMul r.z k, (shiftHist sh r.hist).map (dyMul k))
  { m := m, z := dySum (parts.map (·.1)), hist := (List.range 64).map fun b => dySum (parts.map fun p => (p.2[b]?).getD Dy.zero) }

/-- The bucket B of TOP-P: the smallest at which the cumulative mass reaches P * Z (R264). -/
def topBucket (pl : Nat) (x : Merged) : Nat :=
  let goal := dyMul { m := pl, e := -16 } x.z
  ((List.range 64).find? fun b => !dyLt (dySum (x.hist.take (b + 1))) goal).getD 63

/-- A column lies in the filter set F (R264). -/
def inFilter (mode : Nat) (cfg : DWord) (x : Merged) (c : Word) : Bool :=
  match mode with
  | 0 => true
  | 1 =>
    if x.m = f32Inf then c == f32Inf
    else isFinW c && match unpackF bf16 (dcfgPl cfg) with
      | .fin n m e => !dyLt (dyAdd (dyOf c) (dyNeg (dyOf x.m))) { m := sgn n m, e := e }
      | _ => true
  | _ => decide (bucketOf c x.m (dcfgS cfg) ≤ topBucket (dcfgPl cfg) x)

/-- The first column at which the running sum passes the target, else the highest with weight (R264). -/
def walkTo (target : Dy) : List Dy → Nat → Dy → Option Nat → Option Nat
  | [], _, _, last => last
  | w :: l, i, sum, last =>
    let sum' := dyAdd sum w
    if dyLt target sum' then some i else walkTo target l (i + 1) sum' (if w.m = 0 then last else some i)

/-- U of a uniform word (R264). -/
def uniDy (u : Word) : Dy := { m := 2 * u.toNat + 1, e := -33 }

/-- The lowest column with the largest non-NaN logit, 0 when every logit is NaN. -/
def argmax (cs : List Word) : Nat :=
  let m := maxLogit cs
  (((List.range cs.length).zip cs).find? fun p => !isNanW p.2 && decide (cmpV (unpackF f32 p.2.toNat) (unpackF f32 m.toNat) = some .eq)).elim 0 (·.1)

/-- What a row draws: column, whether it fell back, and the counter after (R264); `cs` are its logits, each beside its tile's maximum. -/
def drawRow (mode : Nat) (cfg : DWord) (x : Merged) (cs : List (Word × Word)) (key : DWord) : Nat → Word → BitVec 128 → Nat × Bool × BitVec 128
  | left, u, ctr =>
    let ws := cs.map fun c => walkWeight x.m (dcfgS cfg) c.1 c.2
    let j := (walkTo (dyMul (uniDy u) x.z) ws 0 Dy.zero none).getD 0
    if inFilter mode cfg x ((cs[j]?).elim 0 (·.1)) then (j, false, ctr)
    else match left with
      | 0 => (argmax (cs.map (·.1)), true, ctr)
      | n + 1 => drawRow mode cfg x cs key n (philox key ctr) (ctr + 1)

/-- What a DRAW leaves as it goes through the rows (R264). -/
structure DrawRun where
  cr : Vector Commit 32
  drawn : Word
  fell : Word
  ctr : BitVec 128

/-- One row of a DRAW. -/
def drawOne (h : Stream) (tiles : List AccTile) (u base : Word) (key : DWord) (i : Nat) (r : DrawRun) : DrawRun :=
  let rows := tiles.filterMap fun a => a.stream.bind fun x => x.rows[i]?
  let x := mergeRow (dcfgS h.dcfg) rows
  let cs := tiles.flatMap fun a => (a.stream.bind fun x => x.rows[i]?).elim [] fun r => (rowLogits a i).map (·, r.m)
  let mode := if h.sKind then dcfgMode h.dcfg else 0
  let d := if x.z.m = 0 then (argmax (cs.map (·.1)), true, r.ctr) else drawRow mode h.dcfg x cs key (dcfgRmax h.dcfg) u r.ctr
  { cr := r.cr.set! i (.held (base + u32 d.1)), drawn := r.drawn ||| BitVec.twoPow 32 i,
    fell := if d.2.1 then r.fell ||| BitVec.twoPow 32 i else r.fell, ctr := d.2.2 }

/-- The rows of a DRAW in ascending order: those of the mask whose commit register is EMPTY. -/
def drawRows (t : Team) (h : Stream) (tiles : List AccTile) (table : List Byte) (mask : Word) (key : DWord) (ctr : BitVec 128) : DrawRun :=
  let entry (i : Nat) (o : Nat) : Word := u32 (leNat ((table.drop (8 * i + o)).take 4))
  (List.range h.nrows).foldl (fun r i =>
    if mask.getLsbD i && decide (r.cr[i]! = .empty) then drawOne h tiles (entry i 0) (entry i 4) key i r else r)
    { cr := t.cr, drawn := 0, fell := 0, ctr := ctr }

/-- A commit register that a DRAW of an ended team has filled goes as at the team's end (R266, Table 9.6). -/
def lateCommit (s : State) (tid : Nat) (t : Team) : State :=
  if !t.ended then setTeam s tid t
  else
    let crs := (List.finRange 32).map fun i => endCommit t i.val t.cr[i]
    let s := if t.killed then s else (crs.filterMap (·.2)).foldl (fun s r => postRecord s t.ctx r) s
    let late (i : Fin 32) : Commit := match t.cr[i] with
      | .held _ => if t.killed then .empty else (endCommit t i.val t.cr[i]).1
      | c => c
    setTeam s tid { t with cr := Vector.ofFn late }

/-- DRAW in the sequencer, its table read (R264): a table line with an error marks the first tile of the span (R217). -/
def runDraw (s : State) (gid tid : Nat) (t : Team) (d : BitVec 5) (acc span : Nat) (table : List Byte) (bad : Option Nat) (mask : Word)
    (key : DWord) : State :=
  let ns := (List.range span).map (acc + ·)
  match spanHeader t ns, mget s.groups gid with
  | some h, some g =>
    let r := drawRows t h (ns.map t.acct) table mask key g.drawCtr
    let g := { g with drawCtr := r.ctr }.wrW d.toNat (u64 (r.fell.toNat * 2 ^ 32 + r.drawn.toNat))
    let t := { t with cr := r.cr }.setAcct acc ((t.acct acc).marked bad)
    lateCommit (setGroup s gid g) tid t
  | _, _ => s

/-! ### DELIVER -/

/-- DELIVER (R267). -/
def deliverStep (s : State) (m tr : BitVec 5) : R State := do
  let g ← issuer s
  need s (feature s g 2)
  let (tid, t) ← issuerTeam s g
  useW s g [m.toNat, tr.toNat] []
  let table := g.rdW tr.toNat
  if table.toNat % 256 ≠ 0 then .error (stopTrap s 2 table)
  else
    let mask := g.rdW m.toNat
    let cr := Vector.ofFn fun (i : Fin 32) => match t.cr[i] with
      | .held tok => if mask.getLsbD i.val then Commit.pending tok table (handleOf g) none none else .held tok
      | c => c
    .ok (done (setTeam s tid { t with cr := cr, dtable := table, dtableBy := handleOf g }) g)

def execDeliver (m t : BitVec 5) (s : State) : Out := finish (deliverStep s m t)

/-- What the delivery unit comes to at its next access of a slot (R268). -/
inductive Deliver where
  /-- A peer has not answered yet. -/
  | far (s : State)
  /-- Another delivery to the ring is under way, or the ring is full. -/
  | wait
  /-- A TAIL that could not be written can be now: the entry is written anew with the TAIL of the moment. -/
  | again
  | stall (cause access : Nat) (va : Nat)
  | entry (s : State) (ring count : Nat)
  | tail (s : State)

/-- Bytes that the delivery unit reads as an engine read (R155, R268). -/
def deliverRead (a : EngAcc) (s : State) (va n : Nat) (k : Nat → Deliver) : Deliver :=
  match a.read s ((List.range n).map fun i => .byte (wrapVa (va + i))) with
  | .error (.fault f x) => .stall f.cause f.access x
  | .error (.far u t) => .far (a.ask s u t)
  | .ok r => if r.bad then .stall 10 1 va else k (leNat r.bytes)

/-- A word written by the delivery unit: one publish event at .dev, or a write to a peer (R268, R420). -/
def deliverWrite (a : EngAcc) (s : State) (tid row va w : Nat) (k : State → Deliver) : Deliver :=
  match a.prep s ((List.range 4).zip (leList w 4) |>.map fun p => (wrapVa (va + p.1), p.2)) with
  | .error (f, x) => .stall f.cause f.access x
  | .ok w => k (makeWrites s a (.deliver tid row) [w] []).1

/-- A peer has not acknowledged a write of a commit register. -/
def unackedDelivery (s : State) (tid row : Nat) : Bool := s.remotes.any fun r => decide (r.kind = .deliver tid row)

/-- Another row of the team has its entry published in the ring, its TAIL not yet, and is not stalled (R268: a stalled slot holds no other). -/
def ringBusy (t : Team) (row ring : Nat) : Bool :=
  (List.finRange 32).any fun i => decide (i.val ≠ row) && match t.cr[i] with
    | .pending _ _ _ (some (r, _)) none => decide (r = ring)
    | _ => false

/-- The entry of a slot: table, header, then the entry's write (R268). LOG2CAP is the whole word at 0x08, whose upper bits Table 9.7 gives
as zero (log entry 111). DESIGN CHOICE (log entry 124): the record for a LOG2CAP of 0 or above 15 names the ring's address and ACCESS 0. -/
def deliverEntry (s : State) (a : EngAcc) (tid row : Nat) (t : Team) (token : Word) (table : DWord) : Deliver :=
  deliverRead a s (table.toNat + 8 * row) 8 fun ring => deliverRead a s ring 16 fun h =>
    let tail := h % 2 ^ 32
    let head := h / 2 ^ 32 % 2 ^ 32
    let cap := h / 2 ^ 64 % 2 ^ 32
    if cap = 0 ∨ 15 < cap then .stall 4 0 ring
    else if ringBusy t row ring || decide (2 ^ cap ≤ (tail + 2 ^ 32 - head) % 2 ^ 32) then .wait
    else deliverWrite a s tid row (ring + 64 + 4 * (tail % 2 ^ cap)) token.toNat fun s => .entry s ring tail

/-- A slot that stalled at TAIL held up no other row, so the place of its entry may be another's by now: once TAIL can be written the slot
starts over, and no token is lost (R268). DEDUCED (log entry 127). -/
def tailAgain (a : EngAcc) (s : State) (ring : Nat) : Deliver :=
  match a.prep s ((List.range 4).map fun i => (wrapVa (ring + i), 0)) with
  | .error (f, x) => .stall f.cause f.access x
  | .ok _ => .again

/-- The next access of a PENDING slot: a remote write is acknowledged before the next one is made (R420). -/
def deliverTry (s : State) (tid : Nat) (t : Team) (row : Nat) (token : Word) (table : DWord) (entry : Option (Nat × Nat)) (retry : Bool) : Deliver :=
  let a : EngAcc := { by' := .delivery tid row, ctx := t.ctx, who := agentOf t.core, moment := s.fresh, hbmDie := none }
  if unackedDelivery s tid row then .far s
  else match entry with
    | none => deliverEntry s a tid row t token table
    | some (ring, tail) => if retry then tailAgain a s ring else deliverWrite a s tid row ring ((tail + 1) % 2 ^ 32) .tail

def putCommit (s : State) (tid row : Nat) (c : Commit) : State :=
  match mget s.teams tid with
  | none => s
  | some t => setTeam s tid { t with cr := t.cr.set! row c }

/-- A switch-out lets only a delivery that is publishing go on: from step 4 on a slot whose entry is not published stays PENDING, and
after step 4 every slot does (R279). -/
def deliveryHeld (s : State) (ctx : Nat) (entry : Option (Nat × Nat)) : Bool :=
  match (mget s.contexts ctx).map Context.switch with
  | some (.out n) => decide (5 ≤ n) || (decide (n = 4) && entry.isNone)
  | _ => false

/-- The delivery unit at a slot (R268): `retry` for a stalled one. An access that stalls posts one record, and another where its cause or its
address is another (R405). -/
def deliverAt (s : State) (tid row : Nat) (retry : Bool) : State :=
  match mget s.teams tid with
  | none => s
  | some t => match t.cr[row % 32]! with
    | .pending tok table by' entry stalled =>
      if stalled.isSome != retry || decide (32 ≤ row) || deliveryHeld s t.ctx entry then s
      else
        let used (s : State) : State := dropFetched s (.delivery tid row)
        match deliverTry s tid t row tok table entry retry with
        | .far s => s
        | .wait => used (putCommit s tid row (.pending tok table by' entry none))
        | .stall cause access va =>
          if stalled = some (cause, va) then used s
          else postRecord (used (putCommit s tid row (.pending tok table by' entry (some (cause, va))))) t.ctx
            (deliveryRecord t.core row cause access (u64 va) by' 0)
        | .again => used (putCommit s tid row (.pending tok table by' none none))
        | .entry s ring tail => used (putCommit s tid row (.pending tok table by' (some (ring, tail)) none))
        | .tail s => putCommit s tid row (if unackedDelivery s tid row then .pending tok table by' entry none else .empty)
    | _ => s

def execDelivery (team row : Nat) (s : State) : Out := .next (deliverAt s team row false)
def execDeliveryRetry (team row : Nat) (s : State) : Out := .next (deliverAt s team row true)

end Sys2Proof.Machine
end

