-- ==== Sys2Proof/Machine/Link.lean ====
section
/-! DEFINITION. Links (R413 to R416), peers at the memory endpoint (R417, R418), and remote accesses (R420 to R422). -/

namespace Sys2Proof.Machine

/-! ### Link states -/

def setLink (s : State) (l : Nat) (x : Link) : State := { s with links := mputD s.links l x Link.initial }

/-- The link carries traffic (Table 18.1). -/
def Link.carries (l : Link) : Bool := l.isUp || decide (l.st = .draining)

/-- Remote accesses whose link no longer carries them, or that wait for one, take the lowest of their ports that is up (R419, R422). -/
def reroute (s : State) : State :=
  { s with remotes := s.remotes.map fun r =>
      if r.link.any fun l => (linkOf s l).carries then r else { r with link := linkFor s r.peer } }

/-- A link event from the states that take it (Table 18.2). -/
def linkEvent (s : State) (l : Nat) (takes : LinkState → Bool) (f : Link → Link) : Out :=
  .next (if l < 8 ∧ takes (linkOf s l).st = true then reroute (setLink s l (f (linkOf s l))) else s)

/-- A link that is DOWN: no lane is good and no packet delivery context is open. -/
def Link.down (l : Link) : Link := { l with st := .down, lanes := 0, attempts := 0, pdcs := [] }

/-- TRAINED: with 8 good lanes, or with 4 and more. -/
def execTrained (link lanes : Nat) (s : State) : Out :=
  linkEvent s link (fun st => decide (st = .training) && decide (4 ≤ lanes ∧ lanes ≤ 8)) fun l =>
    { l with st := if lanes = 8 then .up else .degraded, lanes := lanes, attempts := 0 }

/-- TRAIN_FAIL: after 3 attempts the link is DOWN. -/
def execTrainFail (link : Nat) (s : State) : Out :=
  linkEvent s link (fun st => decide (st = .training)) fun l =>
    if 2 ≤ l.attempts then l.down else { l with attempts := l.attempts + 1 }

/-- LANE_LOSS: 4 to 7 good lanes are left. -/
def execLaneLoss (link lanes : Nat) (s : State) : Out :=
  linkEvent s link (fun st => decide (st = .up) && decide (4 ≤ lanes ∧ lanes ≤ 7)) fun l => { l with st := .degraded, lanes := lanes }

/-- LANE_REGAIN: all 8 lanes again. -/
def execLaneRegain (link : Nat) (s : State) : Out :=
  linkEvent s link (fun st => decide (st = .degraded)) fun l => { l with st := .up, lanes := 8 }

/-- DRAINED: the last packet delivery context has closed; the link carries no access of the module any more. -/
def execDrained (link : Nat) (s : State) : Out :=
  linkEvent s link (fun st => decide (st = .draining) && !s.remotes.any fun r => decide (r.link = some link)) Link.down

/-- SIGNAL_LOSS. -/
def execSignalLoss (link : Nat) (s : State) : Out :=
  linkEvent s link (fun st => decide (st ≠ .down)) Link.down

/-- UNSUPPORTED_OPTION_PACKET (R416): dropped, and the link's error counter advances. -/
def execUnsupportedOptionPacket (link : Nat) (s : State) : Out :=
  linkEvent s link (fun st => decide (st = .up ∨ st = .degraded ∨ st = .draining)) fun l =>
    { l with errors := (l.errors + 1) % 2 ^ 32 }

/-! ### Port commands -/

/-- A port command (R426): context id 0, a link from 0 to 7. -/
def portCommand (s : State) (h : Hdr) (op link : Nat) (f : Link → Reply) : Out :=
  associated s h op (if h.ctx ≠ 0 then refuse s 5 else if 8 ≤ link then refuse s 3 else f (linkOf s link))

/-- Codes of Table 18.1. -/
def LinkState.code : LinkState → Nat
  | .down => 0
  | .training => 1
  | .up => 2
  | .degraded => 3
  | .draining => 4

/-- PORTQUERY (Table 18.9). -/
def execPortquery (h : Hdr) (link : Nat) (s : State) : Out :=
  portCommand s h 0x30 link fun l => ok s [u64 (l.st.code + l.lanes * 2 ^ 8 + l.errors * 2 ^ 32)]

/-- PORTUP (R415). -/
def execPortup (h : Hdr) (link : Nat) (s : State) : Out :=
  portCommand s h 0x31 link fun l =>
    if l.st = .down then ok (setLink s link { l with st := .training, attempts := 0 }) [] else refuse s 2

/-- PORTDRAIN (R415). -/
def execPortdrain (h : Hdr) (link : Nat) (s : State) : Out :=
  portCommand s h 0x32 link fun l => if l.isUp then ok (setLink s link { l with st := .draining }) [] else refuse s 2

/-- SETPORT (R413). -/
def execSetport (h : Hdr) (link : Nat) (ipv4 : BitVec 32) (ipv6 : BitVec 128) (s : State) : Out :=
  portCommand s h 0x33 link fun l => ok (setLink s link { l with ipv4 := ipv4, ipv6 := ipv6 }) []

/-! ### Peers (R417, R418) -/

/-- What a memory operation comes to: the state and, when it succeeds, the data of its response. -/
abbrev PeerResult := State × Option (List Byte)

/-- The context a memory operation names, if its key is right (R417). -/
def peerContext (s : State) (p : PeerHdr) : Option Nat :=
  (s.contexts.find? fun c => c.2.job == p.job && c.2.memkey == p.mkey).map (·.1)

/-- The link brings an operation: it is up, or it is DRAINING and the packet delivery context is open (Table 18.1). -/
def brings (s : State) (p : PeerHdr) : Bool :=
  decide (p.link < 8) && ((linkOf s p.link).isUp || ((linkOf s p.link).carries && (linkOf s p.link).pdcs.contains p.pdc))

/-- The packet delivery context of an operation is open from now on. -/
def openPdc (s : State) (p : PeerHdr) : State :=
  let l := linkOf s p.link
  if l.pdcs.contains p.pdc then s else setLink s p.link { l with pdcs := p.pdc :: l.pdcs }

/-- An operation at the memory endpoint, with its response. -/
def peerOp (s : State) (p : PeerHdr) (f : Nat → PeerResult) : Out :=
  .next (if brings s p then
      let r := match peerContext s p with
        | none => (s, none)
        | some c => f c
      openPdc { r.1 with answers := r.1.answers ++ [.endpoint p.link r.2.isSome (r.2.getD [])] } p
    else s)

/-- Bytes at rising addresses, by the aligned unit of 8 B that holds them (R134). -/
def unitGroups : List (Nat × Byte) → List (List (Nat × Byte))
  | [] => []
  | c :: l => match unitGroups l with
    | (d :: g) :: r => if d.1 / 8 = c.1 / 8 then (c :: d :: g) :: r else [c] :: (d :: g) :: r
    | r => [c] :: r

/-- The device's access for a peer. -/
def peerAcc (s : State) (ctx die : Nat) : EngAcc := { by' := .device, ctx := ctx, who := dieAgent die, moment := s.fresh, hbmDie := none }

/-- A write of local memory; one to a remote page is refused. -/
def localWrite : PreWrite → Option (Nat × List Host.Cell)
  | .local k c => some (k, c)
  | .far .. => none

/-- The writes of a peer's write, or none when one of them fails. -/
def peerWrites (s : State) (ctx : Nat) : List (List (Nat × Byte)) → Option (List (Nat × List Host.Cell))
  | [] => some []
  | l :: r => match (peerAcc s ctx 0).prep s l with
    | .error _ => none
    | .ok w => match localWrite w, peerWrites s ctx r with
      | some x, some xs => some (x :: xs)
      | _, _ => none

/-- The die that homes the bytes of a write. -/
def cellsDie (c : List Host.Cell) : Nat := homeDie ((c.map (·.1)).headD 0)

/-- Write (R418): each single-copy atomic unit is a publish event at its home slice, at .sys. -/
def peerWriteAt (s : State) (va : DWord) (data : List Byte) (ctx : Nat) : PeerResult :=
  let bytes := (List.range data.length).zip data |>.map fun p => (va.toNat + p.1, p.2)
  if 2 ^ 57 < va.toNat + data.length then (s, none)
  else match peerWrites s ctx (unitGroups bytes) with
    | none => (s, none)
    | some ws => (ws.foldl (fun s w => publish s (dieAgent (cellsDie w.2)) none none .sys w.1 w.2) s, some [])

def execPeerWrite (p : PeerHdr) (data : List (BitVec 8)) (s : State) : Out := peerOp s p (peerWriteAt s p.va data)

/-- The translation of a peer's access, remote leaves refused. -/
def peerTrans (s : State) (ctx : Nat) (va : DWord) (n : Need) : Option Trans :=
  match translate s ctx (dieAgent 0) 0 va n with
  | .ok t => if t.kind = .remote then none else some t
  | .error _ => none

/-- Read of the units of a peer's read, each by an agent of its home die. -/
def peerUnits (s : State) (ctx : Nat) : List Nat → Option (List (Nat × List Byte))
  | [] => some []
  | u :: l => match peerTrans s ctx (u64 (8 * u)) .read with
    | none => none
    | some t => match (peerAcc s ctx (homeDie t.home)).unit s u, peerUnits s ctx l with
      | .ok r, some rs => if r.bad then none else some ((u, r.bytes) :: rs)
      | _, _ => none

/-- Read (R418). -/
def peerReadAt (s : State) (va : DWord) (len ctx : Nat) : PeerResult :=
  let a := va.toNat
  if 2 ^ 57 < a + len then (s, none)
  else
    let us := ((List.range len).map fun i => (a + i) / 8).eraseDups
    match peerUnits s ctx us with
    | none => (s, none)
    | some rs => (s, some ((List.range len).map fun i => ((mget rs ((a + i) / 8)).bind fun b => b[(a + i) % 8]?).getD 0))

def execPeerRead (p : PeerHdr) (len : Nat) (s : State) : Out := peerOp s p (peerReadAt s p.va len)

/-- An atomic of a peer at the home slice, at .sys (R418, R147): the old value is the response. -/
def peerAtomic (s : State) (va : DWord) (f : Nat → Option Nat) (ctx : Nat) : PeerResult :=
  if va.toNat % 8 ≠ 0 then (s, none)
  else match peerTrans s ctx va .rmw with
    | none => (s, none)
    | some t =>
      let pas := paRange t.pa 8
      if pas.any (badByte s) then (s, none)
      else
        let r := atomicAt s (dieAgent (homeDie t.pa)) none .sys (keySerial s t.key) 0 pas f
        (r.1, some (leList r.2.1 8))

def execPeerFetchAdd (p : PeerHdr) (v : BitVec 64) (s : State) : Out :=
  peerOp s p (peerAtomic s p.va fun m => some ((m + v.toNat) % 2 ^ 64))

def execPeerCompareSwap (p : PeerHdr) (cmp new : BitVec 64) (s : State) : Out :=
  peerOp s p (peerAtomic s p.va fun m => if m = cmp.toNat then some new.toNat else none)

/-! ### Remote accesses -/

/-- A load of a group in flight takes a value or fails. -/
def settleLoad (s : State) (gid id : Nat) (f : Load → Load) : State :=
  match mget s.groups gid with
  | none => s
  | some g => setGroup s gid { g with loads := g.loads.map fun l => if l.id = id then f l else l }

def Publishing.without (p : Publishing) (id : Nat) : Publishing := { p with remote := p.remote.filter fun x => decide (x ≠ id) }

/-- A Publish of a group, under way or set aside by a notice, has one remote entry less to wait for (R236, R421). -/
def settleEntry (s : State) (gid id : Nat) : State :=
  match mget s.groups gid with
  | none => s
  | some g => setGroup s gid { g with publishing := g.publishing.map (·.without id), heldPublish := g.heldPublish.map (·.without id) }

/-- An engine operation has one remote write less to wait for. -/
def settleWrite (s : State) (core op id : Nat) : State :=
  match findOp s core op with
  | none => s
  | some o => putOp s core { o with remote := o.remote.filter fun x => decide (x ≠ id) }

/-- The value a peer returns, the group's own pending bytes over it (R420, R143). -/
def overlaid (v : BitVec 128) (cells : List Host.Cell) : BitVec 128 :=
  BitVec.ofNat 128 (leNat ((List.range 16).map fun i => mgetD cells i (v.extractLsb' (8 * i) 8)))

/-- A lane of an ATOM under way takes its old value or its failure. -/
def settleAtom (s : State) (gid tag lane : Nat) (f : AtomStep → AtomStep) : State :=
  match mget s.groups gid with
  | none => s
  | some g => setGroup s gid { g with atoms := g.atoms.map fun a =>
      if a.tag = tag then { a with steps := a.steps.map fun x => if x.lane = lane then f x else x } else a }

/-- A unit that a reader asked a peer for has come, or its read has failed (R420, R422). -/
def settleRead (s : State) (by' : Reading) (unit : Nat) (val : Option (List Byte)) : State :=
  { s with fetched := s.fetched ++ [{ by' := by', unit := unit, val := val }] }

/-- A peer has acknowledged a write of the delivery unit: that of TAIL empties the register (R268, R420). -/
def settleDelivery (s : State) (tid row : Nat) (va : DWord) : State :=
  match mget s.teams tid with
  | none => s
  | some t => match t.cr[row % 32]! with
    | .pending _ _ _ (some (ring, _)) _ => if va = u64 (wrapVa ring) then putCommit s tid row .empty else s
    | _ => s

/-- Another entry of the same Publish comes first: under ROD the peer performs them in issue order (R421). -/
def behindEntry (s : State) (r : RemoteOp) : Bool :=
  r.peer.rod && match r.kind with
    | .entry g h => s.remotes.any fun x => decide (x.kind = .entry g h) && x.peer.rod && decide (x.id < r.id)
    | _ => false

/-- REMOTE_ACK (R420, R421): the peer has performed a remote access that some link carries. -/
def remoteAck (s : State) (id : Nat) (v : BitVec 128) : State :=
  match s.remotes.find? fun r => decide (r.id = id) with
  | none => s
  | some r =>
    if r.link.isNone || behindEntry s r then s
    else
      let s := { s with remotes := s.remotes.filter fun x => decide (x.id ≠ id) }
      match r.kind with
      | .load g l => settleLoad s g l fun x => { x with val := some (overlaid v r.cells) }
      | .entry g _ => settleEntry s g id
      | .atomic g tag lane => settleAtom s g tag lane fun x => { x with old := some (v.toNat % 2 ^ 64) }
      | .engine core op => settleWrite s core op id
      | .deliver tid row => settleDelivery s tid row r.va
      | .read by' unit => settleRead s by' unit (some (leList v.toNat 8))

def execRemoteAck (id : Nat) (v : BitVec 128) (s : State) : Out := .next (remoteAck s id v)

/-- A delivery whose remote write failed stalls with a record; the slot stays PENDING, its entry published unless that write failed (R268,
Table 18.5). -/
def failDelivery (s : State) (tid row : Nat) (va : DWord) : State :=
  match mget s.teams tid with
  | none => s
  | some t => match t.cr[row % 32]! with
    | .pending tok table by' entry _ =>
      let entry := entry.filter fun e => decide (va = u64 (wrapVa e.1))
      postRecord (putCommit s tid row (.pending tok table by' entry (some (10, va.toNat)))) t.ctx (deliveryRecord t.core row 10 2 va by' 0)
    | _ => s

/-- The outcome of a remote access that no peer acknowledged (Table 18.5). -/
def failRemote (s : State) (r : RemoteOp) : State :=
  match r.kind with
  | .load g l => settleLoad s g l fun x => { x with bad := true }
  | .entry g h => postRecord (settleEntry s g r.id) r.ctx (discardRecord h 10 r.va)
  | .atomic g tag lane => settleAtom s g tag lane fun x => { x with bad := some (10, 0) }
  | .engine core op => match findOp s core op with
    | none => s
    | some o => settleWrite (markErr s o) core op r.id
  | .deliver tid row => failDelivery s tid row r.va
  | .read by' unit => settleRead s by' unit none

/-- LINK_TIMEOUT (R422): an access not acknowledged within the context's link timeout fails. -/
def linkTimeout (s : State) (id : Nat) : State :=
  match s.remotes.find? fun r => decide (r.id = id) with
  | none => s
  | some r =>
    let limit := ((mget s.contexts r.ctx).map (·.linkto)).getD 0
    if s.tstamp < r.since + 1000 * limit then s
    else failRemote { s with remotes := s.remotes.filter fun x => decide (x.id ≠ id) } r

def execLinkTimeout (id : Nat) (s : State) : Out := .next (linkTimeout s id)

end Sys2Proof.Machine
end

