-- ==== Sys2Proof/Machine/Sign.lean ====
section
/-! DEFINITION. Signatures of reports (R451, R453): SHA-384, and ECDSA on brainpoolP384r1. PRESUMED (log entry 90): the hash, the curve and
the scheme are those of the published standards that the rules name. -/

namespace Sys2Proof.Machine

/-! ### SHA-384 -/

/-- The `k`th root of a number, rounded down, below 2^`b`. -/
def rootOf (k n : Nat) : Nat → Nat → Nat
  | 0, r => r
  | b + 1, r => rootOf k n b (if (r + 2 ^ b) ^ k ≤ n then r + 2 ^ b else r)

/-- The first primes. -/
def primes (n : Nat) : List Nat := ((List.range 410).filter fun p => decide (2 ≤ p) && ((List.range p).drop 2).all fun d => decide (p % d ≠ 0)).take n

/-- Round constants: the first 64 bits of the fractions of the cube roots of the first 80 primes. -/
def shaK : List DWord := (primes 80).map fun p => u64 (rootOf 3 (p * 2 ^ 192) 68 0)

/-- Initial words: those of the square roots of the ninth to the sixteenth prime. -/
def shaInit : List DWord := ((primes 16).drop 8).map fun p => u64 (rootOf 2 (p * 2 ^ 128) 68 0)

/-- A number from bytes, most significant first, and its bytes. -/
def beNat (l : List Byte) : Nat := leNat l.reverse
def beList (n k : Nat) : List Byte := (leList n k).reverse

def xorRot (x : DWord) (a b : Nat) (y : DWord) : DWord := x.rotateRight a ^^^ x.rotateRight b ^^^ y

/-- The message schedule, newest word first. -/
def shaNext (w : List DWord) : List DWord :=
  let at' (i : Nat) : DWord := (w[i]?).getD 0
  let s0 := xorRot (at' 14) 1 8 (at' 14 >>> 7)
  let s1 := xorRot (at' 1) 19 61 (at' 1 >>> 6)
  (s1 + at' 6 + s0 + at' 15) :: w

def shaSchedule : Nat → List DWord → List DWord
  | 0, w => w
  | n + 1, w => shaSchedule n (shaNext w)

def shaRound (v : List DWord) (k w : DWord) : List DWord :=
  match v with
  | [a, b, c, d, e, f, g, h] =>
    let t1 := h + xorRot e 14 18 (e.rotateRight 41) + ((e &&& f) ^^^ (~~~e &&& g)) + k + w
    let t2 := xorRot a 28 34 (a.rotateRight 39) + ((a &&& b) ^^^ (a &&& c) ^^^ (b &&& c))
    [t1 + t2, a, b, c, d + t1, e, f, g]
  | v => v

/-- One block of 128 bytes. -/
def shaBlock (v : List DWord) (block : List Byte) : List DWord :=
  let ws := ((List.range 16).map fun i => u64 (beNat ((block.drop (8 * i)).take 8))).reverse
  let r := (shaK.zip (shaSchedule 64 ws).reverse).foldl (fun v p => shaRound v p.1 p.2) v
  (v.zip r).map fun p => p.1 + p.2

/-- The message with its padding. -/
def shaPad (m : List Byte) : List Byte :=
  m ++ 0x80#8 :: List.replicate ((128 - (m.length + 17) % 128) % 128) 0 ++ beList (8 * m.length) 16

/-- SHA-384. -/
def sha384 (m : List Byte) : List Byte :=
  let p := shaPad m
  let v := (List.range (p.length / 128)).foldl (fun v i => shaBlock v ((p.drop (128 * i)).take 128)) shaInit
  (v.take 6).flatMap fun w => beList w.toNat 8

/-! ### brainpoolP384r1 -/

def curveP : Nat := 0x8CB91E82A3386D280F5D6F7E50E641DF152F7109ED5456B412B1DA197FB71123ACD3A729901D1A71874700133107EC53
def curveA : Nat := 0x7BC382C63D8C150C3C72080ACE05AFA0C2BEA28E4FB22787139165EFBA91F90F8AA5814A503AD4EB04A8C7DD22CE2826
def curveN : Nat := 0x8CB91E82A3386D280F5D6F7E50E641DF152F7109ED5456B31F166E6CAC0425A7CF3AB6AF6B7FC3103B883202E9046565
def curveG : Nat × Nat :=
  (0x1D1C64F068CF45FFA2A63A81B7C13F6B8847A3E77EF14FE3DB7FCAFE0CBD10E8E826E03436D646AAEF87B2E247D4AF1E,
   0x8ABE1D7520F9C2A45CB1EB8E95CFD55262B70B29FEEC5864E19C054FF99129280E4646217791811142820341263C5315)

/-- A power modulo `m`, by the low `b` bits of the exponent. -/
def powMod (m : Nat) : Nat → Nat → Nat → Nat
  | 0, _, _ => 1
  | b + 1, x, e => (if e % 2 = 1 then x else 1) * powMod m b (x * x % m) (e / 2) % m

/-- The inverse modulo a prime. -/
def invMod (m x : Nat) : Nat := powMod m 384 (x % m) (m - 2)

/-- The sum of two points of the curve; none is the point at infinity. -/
def curveAdd : Option (Nat × Nat) → Option (Nat × Nat) → Option (Nat × Nat)
  | none, q => q
  | p, none => p
  | some (x1, y1), some (x2, y2) =>
    if x1 = x2 ∧ (y1 + y2) % curveP = 0 then none
    else
      let l := if x1 = x2 then (3 * x1 * x1 + curveA) * invMod curveP (2 * y1) % curveP
        else (y2 + curveP - y1) * invMod curveP (x2 + curveP - x1) % curveP
      let x := (l * l + 2 * curveP - x1 - x2) % curveP
      some (x, (l * (x1 + curveP - x) + curveP - y1) % curveP)

/-- A multiple of a point, by the low `b` bits of the factor. -/
def curveMul : Nat → Nat → Option (Nat × Nat) → Option (Nat × Nat)
  | 0, _, _ => none
  | b + 1, k, p => curveAdd (if k % 2 = 1 then p else none) (curveMul b (k / 2) (curveAdd p p))

/-- A private key or a signature's number from a free number, and its public point. -/
def secretOf (n : Nat) : Nat := 1 + n % (curveN - 1)
def pointOf (k : Nat) : Nat × Nat := (curveMul 384 k (some curveG)).getD (0, 0)

/-- The ECDSA signature of bytes with a key and a drawn number: r and s. -/
def ecdsa (key draw : Nat) (m : List Byte) : Nat × Nat :=
  let k := secretOf draw
  let r := (pointOf k).1 % curveN
  (r, invMod curveN k * (beNat (sha384 m) + r * secretOf key) % curveN)

end Sys2Proof.Machine
end

