-- ==== Sys2Proof/Machine/Boot.lean ====
section
/-! DEFINITION. Reset, boot, attestation (25_bring_up.md R450 to R456). -/

namespace Sys2Proof.Machine

/-- MODULE_RESET (R451): the module is as after reset; memory, which nothing scrubs (R277), and the counts that outlive a reset stay. -/
def moduleReset (s : State) : State :=
  { State.reset with
    tick := s.tick, agenda := s.agenda, fresh := s.fresh + 1, mem := s.mem, events := s.events, badSectors := s.badSectors
    invals := [{ moment := s.fresh, ctx := none, va := none }], answers := s.answers
    fw := { State.reset.fw with resets := s.fw.resets + 1, reports := s.fw.reports, keySerial := s.fw.keySerial } }

def execModuleReset (s : State) : Out := .next (moduleReset s)

/-! ### Boot steps -/

/-- A cluster set to the reset point (R428): unless that is its latest target already, it is posted, and the change to it takes
R429's course. -/
def Cluster.toReset (c : Cluster) : Cluster :=
  if c.mailbox.isNone ∧ c.target = Cluster.initial.target then c else { c with mailbox := some Cluster.initial.target }

/-- A cluster runs at its latest target: no change is in progress and none waits in the mailbox (R429). -/
def Cluster.settled (c : Cluster) : Bool := c.change.isNone && c.mailbox.isNone

/-- Step 4: every cluster is set to the reset point. -/
def resetPoints (s : State) : State := { s with clusters := s.clusters.map fun p => (p.1, p.2.toReset) }

/-- Context 0 as step 6 opens it (R456, Table 25.4): the figures the span firmware chooses are free values. -/
def contextZero (failed : List Nat) : Context :=
  let zeroFig := zeroFig failed
  { st := .opened, keyslot := 0, feat := #v[Config.featOffer0, 0, 0, 0], mask := -1, slotQuota := 1 + zeroFig 0 % 40,
    ctlQuota := zeroFig 1 % 17, save := zeroFig 2 * 65536, savesz := zeroFig 3 * 65536,
    ptroot := zeroFig 4 * 4096, joinwin := zeroFig 5 * 2 ^ 30, faultq := zeroFig 6 * 64,
    rpt := zeroFig 7 * 64, rptn := zeroFig 8, linkto := 1000 + zeroFig 9 % 9999001,
    job := BitVec.ofNat 24 (zeroFig 10), memkey := u64 (zeroFig 11), assoc := 0, heldRecs := [], switch := .none, saved := [] }

/-- Step 6: context 0 opens and every link is enabled. -/
def bootOpen (s : State) : State :=
  let s := setContext s 0 (contextZero s.fw.failed)
  (List.range 8).foldl (fun s l => setLink s l { linkOf s l with st := .training, attempts := 0 }) s

def Firmware.at' (f : Firmware) (n : Nat) : Firmware := { f with step := n }

/-- BOOT_STEP (R451): the next step of Table 25.2; `ok` says whether its check passes. Step 5 begins only once step 4 has every cluster
at its point. -/
def bootStep (s : State) (ok : Bool) : State :=
  let n := s.fw.step + 1
  let go := { s with fw := s.fw.at' n }
  let stop := { s with fw := { s.fw with stopped := true } }
  if s.fw.stopped then s
  else match n with
    | 1 => if ok then go else stop
    | 2 => { go with fw := { go.fw with mkey := Config.measured 0 s.fw.resets } }
    | 3 => if ok then { go with fw := { go.fw with spanOk := true, mspan := Config.measured 1 s.fw.resets } } else stop
    | 4 => resetPoints { go with fw := { go.fw with failed := if ok then [] else Config.failedMemory s.fw.resets } }
    | 5 => if s.clusters.all (·.2.settled) then programKey go 0 else s
    | 6 => bootOpen go
    | _ => s

def execBootStep (ok : Bool) (s : State) : Out := .next (bootStep s ok)

/-! ### Attestation -/

/-- Bytes 0x000 to 0x13F of a report (R453, Table 25.3): the ephemeral TSS key pair is free. -/
def signedBytes (s : State) (n : Nat) (nonce : BitVec 384) : List Byte :=
  let p := pointOf (secretOf (Config.reportDraw 0 n))
  leList 0x4B584154 4 ++ leList 1 2 ++ leList 0 2 ++ leList Config.deviceId.toNat 16 ++
  leList (Config.resetsBefore + s.fw.resets) 8 ++ leList nonce.toNat 48 ++ leList s.fw.mkey.toNat 48 ++ leList s.fw.mspan.toNat 48 ++
  leList Config.featOffer0.toNat 16 ++ leList 4 1 ++ beList p.1 48 ++ beList p.2 48 ++ leList 0 31

/-- The 416 B of a report: the signature follows what it signs (R453). -/
def reportBytes (s : State) (n : Nat) (nonce : BitVec 384) : List Byte :=
  let b := signedBytes s n nonce
  let r := ecdsa Config.identityKey (Config.reportDraw 1 n) b
  b ++ beList r.1 48 ++ beList r.2 48

/-- ATTEST (R452): the one command taken outside an association; the answer carries the report and the certificate chain. -/
def attest (s : State) (h : Hdr) (nonce : BitVec 384) : State :=
  if !attestArrives s h then s
  else if h.ctx ≠ 0 then reply s h 0x38 4 []
  else if !s.fw.canSign then reply s h 0x38 1 []
  else
    let n := s.fw.reports + 1
    { s with fw := { s.fw with reports := n, liveReports := s.fw.liveReports ++ [n] }
             answers := s.answers ++ [.report h (reportBytes s n nonce ++ Config.certChain)] }

def execAttest (h : Hdr) (nonce : BitVec 384) (s : State) : Out := .next (attest s h nonce)

/-- KEYSTONE_READY_TO_SIGN (R452): after step 6. -/
def execKeystoneReadyToSign (s : State) : Out :=
  .next (if 6 ≤ s.fw.step then { s with fw := { s.fw with canSign := true } } else s)

/-- TSS_ASSOCIATION (R452, R453): the key pair of one report completes one association. -/
def execTssAssociation (assoc report : Nat) (s : State) : Out :=
  .next (if anyLinkUp s && s.fw.liveReports.contains report && decide (assoc ≠ 0) && !s.fw.assocs.contains assoc then
      { s with fw := { s.fw with liveReports := s.fw.liveReports.filter fun x => decide (x ≠ report), assocs := s.fw.assocs ++ [assoc] } }
    else s)

end Sys2Proof.Machine
end

