-- ==== Sys2Proof/Machine/Sequencer.lean ====
section
/-! DEFINITION. The matrix sequencer of a core: the scratch accesses of the operation at its head, one by one (R216, R123), and
SEQUENCER_COMPLETE (R215, R217, R220, R223, R224, R261, R264). -/

namespace Sys2Proof.Machine

/-! ### Where an access may take place -/

/-- An ended team has no operation left that could make a line present or hand it back (R311): the sequencer does not wait for it. -/
def lineOrphaned (s : State) (tid : Nat) (t : Team) (l : Nat) : Bool :=
  t.ended && !((coreOf s t.core).eng.any fun o => decide (o.team = tid) && !o.abandoned && o.lines.contains l)

/-- An access may take place now: none of its lines is filling, those read are present, those written thread-owned and present
(R216, R342). -/
def accessReady (s : State) (tid : Nat) (t : Team) (a : Access) : Bool :=
  let ls := a.lines.filter fun l => !lineOrphaned s tid t l
  !anySpilled t a.lines && (lineWait t a.write ls).isNone

/-! ### What an access does -/

/-- The operand sides of the K-step that has been read whole. -/
def SeqOp.sides (o : SeqOp) (da db : Desc) : StepSide × StepSide :=
  let part (i : Nat) : Array Byte := ((o.seen[i]?).getD []).toArray
  ({ fmt := da.f, line := part 0, scales := part 2 }, { fmt := db.f, line := part 1, scales := part (if isScaled da.f then 3 else 2) })

/-- The K-step of a loop once its last line is read (R220); before that, the operation only keeps the lines. -/
def stepLoop (s : State) (t : Team) (o : SeqOp) (acc : Nat) (da db : Desc) (z : Bool) (rm cm : BitVec 32) : Team × SeqOp :=
  if o.done % stepWidth da db ≠ 0 then (t, o)
  else
    let x := o.sides da db
    let r := loopStep s (t.acct acc) x.1 x.2 (z && decide (o.done = stepWidth da db)) rm cm o.badA o.badB
    (t.setAcct acc r.1, { o with seen := [], flags := o.flags ||| r.2 })

/-- The operation after a read: the bytes kept, and what an uncorrectable error reached (R217). In a stash window it reads the bytes that
are held, without a fill (log entry 106). -/
def SeqOp.read (s : State) (t : Team) (o : SeqOp) (a : Access) : SeqOp :=
  let rows := badRows t a.off a.len
  { o with done := o.done + 1, seen := o.seen ++ [(List.range a.len).map fun i => seqByte s t (a.off + i)],
           bad := o.bad.or (firstBad t a.off a.len),
           badA := if a.ofB then o.badA else o.badA ||| rows, badB := if a.ofB then o.badB ||| rows else o.badB }

/-- A write of a line by the sequencer, as the issuing group's (R123, R216, R129). -/
def seqWrite (s : State) (gid : Nat) (t : Team) (off : Nat) (bs : List Byte) : Team :=
  match mget s.groups gid with
  | none => t.write s.tick off bs
  | some g => putScratch s gid g 0 t off bs

/-- One access of an operation (R216): the team and the operation after it. -/
def SeqOp.access (s : State) (t : Team) (o : SeqOp) (a : Access) : Team × SeqOp :=
  let t := t.touch s.tick a.lines
  match o.kind with
  | .mloop acc da db _ z rm cm => stepLoop s t (o.read s t a) acc da db z rm cm
  | .mproj _ acc da db _ _ => stepLoop s t (o.read s t a) acc da db true (-1) (-1)
  | .mload acc _ =>
    let o' := o.read s t a
    (t.setAcct acc (loadRows s (t.acct acc) (2 * o.done) ((o'.seen[0]?).getD []) (t.badLines.contains (a.off / 256))), { o' with seen := [] })
  | .mstore acc d frm =>
    (seqWrite s o.group t a.off (((storeTile (t.acct acc) d.f frm).1.drop (256 * o.done)).take 256), { o with done := o.done + 1 })
  | .mzero _ => (t, o)
  | .draw .. => (t, o.read s t a)

/-- The operation at the head of a core's sequencer. -/
def seqHead (s : State) (core : Nat) : Option SeqOp := (coreOf s core).seq.head?

/-- A state in which the head of a core's sequencer has become `o`. -/
def putHead (s : State) (core : Nat) (o : SeqOp) : State :=
  let c := coreOf s core
  setCore s core { c with seq := o :: c.seq.tail }

/-- The next access of the head of the sequencer, if it has one left that need not wait and the clocks run (R429). -/
def sequencerAccess (s : State) (core : Nat) : State :=
  match seqHead s core with
  | none => s
  | some o => match mget s.teams o.team, o.kind.access o.done with
    | some t, some a =>
      if accessReady s o.team t a && !clocksStopped s core then
        let r := o.access s t a
        putHead (setTeam s o.team r.1) core r.2
      else s
    | _, _ => s

/-- Up to `n` accesses of the head of the sequencer. -/
def sequencerRun (core : Nat) : Nat → State → State
  | 0, s => s
  | n + 1, s => sequencerRun core n (sequencerAccess s core)

/-! ### Completion -/

/-- A loop leaves its tile without a stream record, whether or not it changes an element (log entry 109), marked where a line it read held an
error; one that wrote every cell unmarks it first (R217, R261). -/
def AccTile.looped (x : AccTile) (whole : Bool) (bad : Option Nat) : AccTile :=
  ({ (if whole then x.unmark else x) with stream := none }).marked bad

/-- The completion of an operation whose accesses are all made (R215, R220, R223, R224, R261, R264). -/
def finishSeq (s : State) (o : SeqOp) (t : Team) : State :=
  match o.kind with
  | .mloop a _ _ n z rm cm =>
    let x := if z && n == 0 then (t.acct a).clearCells rm cm else t.acct a
    seqFlags (setTeam s o.team (t.setAcct a (x.looped (z && rm == -1 && cm == -1) o.bad))) o.group o.flags
  | .mzero a => setTeam s o.team (t.setAcct a AccTile.zero)
  | .mload a _ => setTeam s o.team (t.setAcct a ((t.acct a).looped true o.bad))
  | .mstore a d frm => seqFlags s o.group (storeTile (t.acct a) d.f frm).2
  | .mproj k a da _ _ cfg =>
    let x := (t.acct a).looped true o.bad
    seqFlags (setTeam s o.team (t.setAcct a { x with stream := some (rowStream x k da.rows.toNat cfg) })) o.group o.flags
  | .draw d a span _ mask key => runDraw s o.group o.team t d a span ((o.seen[0]?).getD []) o.bad mask key

/-- The head of the sequencer completes if its accesses are all made and the clocks run (R429); the next operation starts (R215). -/
def seqFinish (s : State) (core : Nat) : State :=
  match seqHead s core with
  | none => s
  | some o => match mget s.teams o.team with
    | none => setCore s core { coreOf s core with seq := (coreOf s core).seq.tail }
    | some t =>
      if o.kind.accesses ≤ o.done ∧ clocksStopped s core = false then
        let s := finishSeq s o t
        setCore s core { coreOf s core with seq := (coreOf s core).seq.tail }
      else s

/-- SEQUENCER_COMPLETE: the head of the sequencer makes the accesses it has left, up to one that must wait, and completes if none is
left. Between two such moves single accesses may take place (`Turn.sequencerAccess`). -/
def sequencerComplete (s : State) (core : Nat) : State :=
  let left := (seqHead s core).elim 0 fun o => o.kind.accesses - o.done
  seqFinish (sequencerRun core left s) core

def execSequencerComplete (core : Nat) (s : State) : Out := .next (sequencerComplete s core)

end Sys2Proof.Machine
end

