-- ==== Sys2Proof/Machine/Fold.lean ====
section
/-! DEFINITION. Folding and expansion: RECLAIM, relocation, spilling and filling (14_group.md R338 to R347). -/

namespace Sys2Proof.Machine

/-! ### Lanes and rows -/

/-- Threads of the group that a physical lane hosts. -/
def Group.hosted (g : Group) (lane : Nat) : Nat := g.onLane g.lanes lane

/-- Physical lanes of a level, from the lanes before the fold (R340). -/
def Group.lanesAt (g : Group) (level : Nat) : Vector Nat 32 := Vector.ofFn fun i => g.lanes[i.val % 2 ^ (5 - level)]!

/-- Relocation of a group off held lanes (R340): the smallest level that serves, or none when its quarter has no lane left. -/
def Group.relocate (g : Group) (held : List Nat) : Option Group :=
  let serves (l : Nat) : Bool := decide (g.level ≤ l) && allLanes.all fun i => !g.threads[i].live || !held.contains (g.lanesAt l)[i]
  match (List.range 6).find? serves with
  | some l => some { g with level := l, lanes := g.lanesAt l }
  | none =>
    let q := g.lanes[(0 : Fin 32)] / 32
    (((List.range 32).map (32 * q + ·)).find? fun x => !held.contains x).map fun x => { g with level := 5, lanes := Vector.replicate 32 x }

/-- Relocation of every victim. -/
def relocateAll (held : List Nat) : List (Nat × Group) → Option (List (Nat × Group))
  | [] => some []
  | p :: l => match p.2.relocate held, relocateAll held l with
    | some g, some r => some ((p.1, g) :: r)
    | _, _ => none

/-- Rows of a lane that groups hold. -/
def rowsOf (gs : List (Nat × Group)) (lane : Nat) : Nat := (gs.map fun p => p.2.rowsOn lane).sum

/-- A lane can be added to the hold (R339): it hosts no other group's thread, every victim keeps a host lane, and every host lane
gives 16 rows to each thread it then hosts. -/
def canHold (victims others : List (Nat × Group)) (held : List Nat) (lane : Nat) : Bool :=
  !(others.any fun p => decide (0 < p.2.hosted lane)) &&
  match relocateAll (lane :: held) victims with
  | none => false
  | some vs => (List.range 128).all fun y =>
      decide (16 * (vs.map fun p => p.2.hosted y).sum + rowsOf others y ≤ Config.rowsPerLane)

/-- The named lanes that the hold takes, in ascending order, each tested with those before it (R339). -/
def takeLanes (victims others : List (Nat × Group)) : List Nat → List Nat → List Nat
  | [], held => held
  | x :: l, held =>
    if held.contains x ∨ canHold victims others held x = false then takeLanes victims others l held
    else takeLanes victims others l (held ++ [x])

/-! ### Resident limits (R341, R339 step 4) -/

/-- The largest limit that the rows of a group's host lanes give it, `used` being the rows of other groups. -/
def Group.limit (g : Group) (used : Nat → Nat) : Nat :=
  ((List.range 128).filter fun y => decide (0 < g.hosted y)).foldl (fun m y => min m ((Config.rowsPerLane - used y) / g.hosted y)) g.budget

/-- Rows of a lane but for one group's. -/
def rowsBut (gs : List (Nat × Group)) (gid lane : Nat) : Nat := rowsOf (gs.filter fun p => decide (p.1 ≠ gid)) lane

def replaceGroup (gs : List (Nat × Group)) (gid : Nat) (g : Group) : List (Nat × Group) :=
  gs.map fun p => if p.1 = gid then (gid, g) else p

/-- A group's limit drops to what its lanes give, never below 16. -/
def fitGroup (others : List (Nat × Group)) (vs : List (Nat × Group)) (gid : Nat) : List (Nat × Group) :=
  match mget vs gid with
  | none => vs
  | some g =>
    let cap := g.limit fun y => rowsOf others y + rowsBut vs gid y
    replaceGroup vs gid { g with resident := if cap < g.resident then max 16 cap else g.resident }

/-- A group spills for the free rows asked of one lane. -/
def spillFor (others : List (Nat × Group)) (n lane : Nat) (vs : List (Nat × Group)) (gid : Nat) : List (Nat × Group) :=
  match mget vs gid with
  | none => vs
  | some g =>
    let free := Config.rowsPerLane - (rowsOf others lane + rowsOf vs lane)
    let t := g.hosted lane
    if n ≤ free ∨ t = 0 then vs
    else replaceGroup vs gid { g with resident := max (min 16 g.resident) (g.resident - ceilDiv (n - free) t) }

/-- Victims after steps 3 and 4 of R339; `young` names them youngest first. -/
def foldRows (others vs : List (Nat × Group)) (young held : List Nat) (n : Nat) : List (Nat × Group) :=
  let vs := young.foldl (fitGroup others) vs
  ((List.range 128).filter fun y => !held.contains y).foldl (fun vs y => young.foldl (spillFor others n y) vs) vs

/-- The smallest free-row count of the lanes that are not held, capped at `n`. -/
def rowsAchieved (others vs : List (Nat × Group)) (held : List Nat) (n : Nat) : Nat :=
  ((List.range 128).filter fun y => !held.contains y).foldl (fun m y => min m (Config.rowsPerLane - (rowsOf others y + rowsOf vs y))) n

/-! ### Scratch (R342) -/

/-- Offsets of transaction barriers that are live in a team. -/
def liveBars (s : State) (tid : Nat) (t : Team) : List Nat :=
  (((coreOf s t.core).eng.filter fun o => decide (o.team = tid)).map (·.bar)) ++ t.subs.map (·.bar) ++
  (teamGroups s tid).flatMap fun p => p.2.threads.toList.filterMap fun th => match th.wait with
    | some (.tbar off _) => if th.live then some off else none
    | _ => none

/-- Lines that never spill. -/
def fixedLines (s : State) (tid : Nat) (t : Team) : List Nat :=
  (liveBars s tid t).flatMap (linesOf · 16) ++ t.subs.flatMap (fun u => linesOf u.ring 128) ++ t.windows.flatMap Window.lines ++
  ((coreOf s t.core).seq.filter fun o => decide (o.team = tid)).flatMap fun o => o.kind.linesFrom 0

/-- Lines of a team that may spill, least recently touched first. -/
def spillable (s : State) (tid : Nat) (t : Team) : List Nat :=
  let fixed := fixedLines s tid t
  let ls := (List.range (t.scratchSize / 256)).filter fun l => !(t.line l).spilled && !(t.line l).engine && !fixed.contains l
  (sortBy (ls.map fun l => (mgetD t.touched l 0, l))).map (·.2)

/-- Lines of a team that stand in physical scratch. -/
def Team.residentLines (t : Team) : Nat := t.scratchSize / 256 - (t.lines.filter (·.2.spilled)).length

/-- A team gives up physical scratch until the bytes asked for are free: first what no line stands in, then its lines spill. -/
def spillLines (s : State) (want tid : Nat) : State :=
  match mget s.teams tid with
  | none => s
  | some t =>
    let short := ceilDiv (want - freeScratch s t.core) 256
    let spare := t.physical / 256 - t.residentLines
    let gone := (spillable s tid t).take (short - spare)
    let t' := gone.foldl (fun t l => t.setLine l { t.line l with spilled := true }) t
    setTeam s tid { t' with physical := t.physical - 256 * (min short spare + gone.length) }

/-! ### TAKE -/

/-- A context is in no switch (R282). -/
def settled (s : State) (ctx : Nat) : Bool :=
  match mget s.contexts ctx with
  | some c => decide (c.switch = .none)
  | none => false

/-- The victims on a core (R339 step 2): its resident groups that have not ended (Tables 14.1 and 14.7). -/
def victimsOn (s : State) (core victim : Nat) : List (Nat × Group) :=
  (groupsOn s core).filter fun p => !p.2.st.ended && (if victim = 0 then decide (p.2.ctx ≠ 0) else decide (p.2.ctx = victim)) && settled s p.2.ctx

/-- A group folds: a WAITM ends with code 3, and a changed residency level counts and makes the notice due (R340, R341, R343, R345,
R347). -/
def applyFold (s : State) (gid : Nat) : State :=
  match mget s.groups gid with
  | none => s
  | some g => match g.foldPlan with
    | none => s
    | some p =>
      let g := { g with level := p.level, lanes := p.lanes, resident := p.resident, foldPlan := none }
      let g := (g.wakeMonitors s gid 3).spillTo g.wantFill 96
      setGroup s gid (if p.changes then Group.noticeDue { g with foldCount := g.foldCount + 1 } 0x20 else g)

/-- A group folds at once where it is not issuing (R339). -/
def foldsNow (s : State) (gid : Nat) : Bool :=
  match mget s.groups gid with
  | none => false
  | some g => killsAtOnce s gid g

/-- A victim whose level or lanes change gets its plan, and folds where it does not issue; `old` is its level before the TAKE. -/
def planFold (s : State) (old gid : Nat) (new : Group) : State :=
  match mget s.groups gid with
  | none => s
  | some g =>
    let changes := decide (levelOf s { g with level := new.level, resident := new.resident } ≠ old)
    if !changes && decide (new.lanes = g.lanes) then s
    else
      let p : FoldPlan := { level := new.level, lanes := new.lanes, resident := new.resident, changes := changes }
      let s := setGroup s gid { g with foldPlan := some p }
      if foldsNow s gid then applyFold s gid else s

/-- Teams of victims, youngest first. -/
def teamsYoungest (young : List Nat) (vs : List (Nat × Group)) : List Nat :=
  (young.filterMap fun g => (mget vs g).bind (·.team)).eraseDups

/-- A TAKE (R339): the state with the folds planned, and the result word; none when it is refused. -/
def takeCore (s : State) (core victim n want : Nat) (named : List Nat) : Option (State × DWord) :=
  let c := coreOf s core
  let vs0 := victimsOn s core victim
  let old := (c.hold.map (·.lanes)).getD []
  if c.hold.any (fun h => decide (h.victim ≠ victim)) || !((vs0.map (·.2.ctx)).eraseDups.all (saveFits s)) then none
  else
    let others := (groupsOn s core).filter fun p => !(vs0.any fun v => decide (v.1 = p.1))
    let held := takeLanes vs0 others named old
    let young := (byAge vs0).reverse
    let vs := foldRows others ((relocateAll held vs0).getD vs0) young held n
    let s1 := setCore s core { c with hold := some { victim := victim, lanes := held } }
    let s2 := (teamsYoungest young vs0).foldl (fun s t => spillLines s want t) s1
    let s3 := vs.foldl (fun x p => planFold x (((mget vs0 p.1).map (levelOf s)).getD 0) p.1 p.2) s2
    let got := (named.filter held.contains).length
    let rows := rowsAchieved others vs held n
    let full := decide (got = named.length ∧ rows = n ∧ want ≤ freeScratch s2 core)
    some (s3, u64 ((freeScratch s2 core - freeScratch s core) / 4096 * 2 ^ 32 + rows * 2 ^ 16 + got * 2 ^ 8 + (if full then 1 else 0)))

/-- The word of a GIVE (R346): the hold is emptied if its victim matches. -/
def giveCore (s : State) (core victim : Nat) : State × DWord :=
  let c := coreOf s core
  match c.hold with
  | none => (s, 1)
  | some h => if h.victim = victim then (setCore s core { c with hold := none }, 1) else (s, 2)

/-- A victim of a core has not folded yet. -/
def foldsPending (s : State) (core : Nat) : Bool := (groupsOn s core).any fun p => p.2.foldPlan.isSome

/-- Another RECLAIM on the core is under way (R339: one at a time). -/
def coreClaimed (s : State) (core : Nat) : Bool := s.groups.any fun p => p.2.reclaiming.any fun r => decide (r.core = core)

/-- Lanes that the lane mask names (R338): quarters 0 and 1 in the first register, 2 and 3 in the second. -/
def namedLanes (lo hi : DWord) : List Nat :=
  (List.range 128).filter fun x => if x < 64 then lo.getLsbD x else hi.getLsbD (x - 64)

/-- RECLAIM (R338, R339, R346); TAKE and GIVE are one word, told apart by wC[10]. -/
def reclaimStep (s : State) (d c l : BitVec 5) : R State := do
  let g ← issuer s
  if !g.privileged then denied s
  else do
    context0Only s g
    need s (l.toNat % 2 = 0)
    useW s g [c.toNat, l.toNat, l.toNat + 1] [d.toNat]
    match g.reclaiming with
    | some r =>
      if foldsPending s r.core then .error (.stall s)
      else .ok (done s ({ g with reclaiming := none }.wrW d.toNat r.result))
    | none => do
      let w := g.rdW c.toNat
      let core := slice w 0 10
      let n := slice w 16 12
      let units := slice w 32 8
      let give := w.getLsbD 10
      let named := namedLanes (g.rdW l.toNat) (g.rdW (l.toNat + 1))
      need s (decide (core ≤ 575) && decide (slice w 11 5 = 0 ∧ slice w 28 4 = 0 ∧ slice w 40 8 = 0 ∧ slice w 56 8 = 0) &&
        decide (units ≤ 192 ∧ n ≤ 2048) && (!give || (named.isEmpty && decide (n = 0 ∧ units = 0))))
      if coreClaimed s core then .error (.stall s)
      else if give then
        let r := giveCore s core (slice w 48 8)
        .ok (done r.1 (g.wrW d.toNat r.2))
      else match takeCore s core (slice w 48 8) n (4096 * units) named with
        | none => .ok (done s (g.wrW d.toNat 2))
        | some (s', word) =>
          if foldsPending s' core then
            .error (.stall (setGroup s' s.cur.group { g with reclaiming := some { core := core, dest := d, result := word } }))
          else .ok (done s' (g.wrW d.toNat word))

def execReclaimTake (d c l : BitVec 5) (s : State) : Out := finish (reclaimStep s d c l)
def execReclaimGive (d c l : BitVec 5) (s : State) : Out := finish (reclaimStep s d c l)

/-- GROUP_FOLD (R339): a planned fold is taken at an instruction boundary of a group that has not ended (Table 14.1), while the clock of the
lanes runs (R429). -/
def execGroupFold (g : Nat) (s : State) : Out :=
  .next (match mget s.groups g with
    | none => s
    | some x => if x.betweenInstrs && !x.st.ended && !clocksStopped s x.core then applyFold s g else s)

/-! ### Expansion (R346) -/

/-- A hold names the context of a group. -/
def heldCtx (s : State) (core ctx : Nat) : Bool :=
  (coreOf s core).hold.any fun h => if h.victim = 0 then decide (ctx ≠ 0) else decide (h.victim = ctx)

/-- Threads of the group whose own lane is a given one. -/
def Group.homeOn (g : Group) (lane : Nat) : Nat :=
  (allLanes.filter fun i => g.hosts.getLsbD i.val && decide (g.homeLanes[i] = lane)).length

/-- The group with the lanes and rows that are free for it. -/
def expandedGroup (s : State) (gid : Nat) (g : Group) : Group :=
  let others := (groupsOn s g.core).filter fun p => decide (p.1 ≠ gid)
  let home := (List.range 128).all fun y => decide (g.homeOn y = 0) ||
    (!(heldLanes s g.core).contains y && decide (rowsOf others y + g.resident * g.homeOn y ≤ Config.rowsPerLane))
  let g := if home then { g with level := 0, lanes := g.homeLanes } else g
  { g with resident := max g.resident (g.limit (rowsOf others)) }

/-- The team with physical scratch back as the core allows; its spilled lines stay spilled until they are touched. -/
def expandedTeam (s : State) (t : Team) : Team := { t with physical := min t.scratchSize (t.physical + freeScratch s t.core) }

/-- An expansion as it would take place now. -/
def expandAt (s : State) (gid : Nat) (g : Group) : State :=
  let s := setGroup s gid (expandedGroup s gid g)
  match g.team with
  | none => s
  | some tid => match mget s.teams tid with
    | none => s
    | some t => setTeam s tid (expandedTeam s t)

/-- A group may expand: resident on a compute core, at a boundary, and no hold names its context. -/
def mayExpand (s : State) (g : Group) : Bool :=
  !g.st.ended && g.team.isSome && g.publishing.isNone && g.foldPlan.isNone && !heldCtx s g.core g.ctx && settled s g.ctx

/-- An expansion would change something. -/
def wouldExpand (s : State) (gid : Nat) (g : Group) : Bool :=
  mayExpand s g && let s' := expandAt s gid g; decide (s'.groups ≠ s.groups) || decide (s'.teams ≠ s.teams)

/-- Groups whose level an expansion changed have a fold notice due (R347). -/
def noticeChanged (old s : State) : State :=
  { s with groups := s.groups.map fun p => match mget old.groups p.1 with
      | some g => if levelOf old g ≠ levelOf s p.2 then (p.1, p.2.noticeDue 0x20) else p
      | none => p }

/-- GROUP_EXPAND (R346): groups expand oldest first, while the clock of the lanes runs (R429). -/
def groupExpand (s : State) (gid : Nat) : State :=
  match mget s.groups gid with
  | none => s
  | some g =>
    let older := (groupsOn s g.core).any fun p => decide (p.2.age < g.age) && wouldExpand s p.1 p.2
    if older ∨ wouldExpand s gid g = false ∨ clocksStopped s g.core = true then s else noticeChanged s (expandAt s gid g)

def execGroupExpand (g : Nat) (s : State) : Out := .next (groupExpand s g)

/-! ### Fills -/

/-- REGISTER_FILL (R341): a wanted name becomes resident; the coldest other names spill where a thread holds too many. -/
def registerFill (s : State) (gid name : Nat) : State :=
  match mget s.groups gid with
  | none => s
  | some g =>
    if g.wantFill.contains name && g.spilled.contains name && !clocksStopped s g.core then
      setGroup s gid ({ g with spilled := g.spilled.filter fun n => decide (n ≠ name) }.spillTo g.wantFill 96)
    else s

def execRegisterFill (g name : Nat) (s : State) : Out := .next (registerFill s g name)

/-- SCRATCH_FILL (R342): a spilled line comes back into physical scratch of the team that no line stands in, in the place of the least
recently touched line that may spill, or in free scratch of the core, which may raise the residency level of the team's groups: their fold
notice is due (R345, R347; log entry 58). -/
def scratchFill (s : State) (tid line : Nat) : State :=
  match mget s.teams tid with
  | none => s
  | some t =>
    if !(t.line line).spilled || clocksStopped s t.core then s
    else
      let back (t : Team) : Team := (t.setLine line { t.line line with spilled := false }).touch s.tick [line]
      if t.residentLines < t.physical / 256 then setTeam s tid (back t)
      else match (spillable s tid t).head? with
      | some l => setTeam s tid (back (t.setLine l { t.line l with spilled := true }))
      | none => if 256 ≤ freeScratch s t.core then noticeChanged s (setTeam s tid (back { t with physical := t.physical + 256 })) else s

def execScratchFill (team line : Nat) (s : State) : Out := .next (scratchFill s team line)

end Sys2Proof.Machine
end

