-- ==== Sys2Proof/Machine/Notice.lean ====
section
/-! DEFINITION. Delivery of notices (R356, R357), the retry of held fault records (R404), and the traps of what is no instruction
(R65, R83). -/

namespace Sys2Proof.Machine

/-- A WAITM has ended with a code: it completes before a notice is delivered (R357), as the next move begins. -/
def Group.waitmEnded (g : Group) : Bool := g.threads.toList.any fun t => t.live && match t.wait with
  | some (.monitor m) => m.code.isSome
  | _ => false

/-- A pending notice is deliverable at the group's boundary (R357): the group is RUNNING or WAITING, also at a MIGRATING page, and not
PLACED by a restore whose overlays still reload (Table 14.2), and its clocks run (R429). -/
def noticeReady (s : State) (g : Group) : Bool :=
  !g.notices.isEmpty && g.ncause == 0 && decide (g.st = .active) && !g.koff && g.betweenInstrs && g.foldPlan.isNone &&
  g.liveMask != 0 && !g.waitmEnded && ctxIssues s g.ctx && teamLoaded s g && !clocksStopped s g.core

/-- The pending notice of the lowest code. -/
def lowestNotice (m : Map DWord) : Option (Nat × DWord) :=
  m.foldl (fun b p => match b with
    | none => some p
    | some q => if p.1 < q.1 then some p else some q) none

/-- A thread goes to the notice handler (R357): its NPC keeps its place, and with it its wait. -/
def Thread.toNotice (t : Thread) (ntvec : DWord) : Thread :=
  { t with npc := t.pc, npcOv := t.ov, npcWait := t.wait, inNotice := true, pc := BitVec.ofNat 32 (slice ntvec 0 16)
           ov := ntvec.extractLsb' 16 16, copy := none, wait := none }

/-- A group in the step of a delivery (R357): the lowest code leaves the pending ones, the threads go to the NTVEC of its due moment
(R358), a WAITM still waiting returns code 4, or 1 if a write came before, and a Publish at a MIGRATING page waits for the NRET. -/
def Group.deliver (g : Group) (s : State) (gid code : Nat) (vec : DWord) : Group :=
  let g := g.wakeMonitors s gid 4
  { g.onLanes g.liveMask fun _ t => t.toNotice vec with
    ncause := u32 code, notices := mdel g.notices code, heldPublish := g.publishing, publishing := none }

/-- NOTICE_DELIVERY (R357). -/
def noticeDelivery (s : State) (gid : Nat) : State :=
  match mget s.groups gid with
  | none => s
  | some g => match lowestNotice g.notices with
    | none => s
    | some (code, vec) => if noticeReady s g then enterOverlays (setGroup s gid (g.deliver s gid code vec)) gid else s

def execNoticeDelivery (g : Nat) (s : State) : Out := .next (noticeDelivery s g)

/-- FAULT_QUEUE_RETRY (R404): held records are posted in their order as far as the queue has room. -/
def faultQueueRetry (s : State) (ctx : Nat) : State :=
  match mget s.contexts ctx with
  | none => s
  | some c => c.heldRecs.foldl (fun s r => postRecord s ctx r) (setContext s ctx { c with heldRecs := [] })

def execFaultQueueRetry (ctx : Nat) (s : State) : Out := .next (faultQueueRetry s ctx)

/-- What is no instruction raises cause 0x01 (R83). -/
def execIllegalInstruction (word : BitVec 32) (s : State) : Out := finish do
  let _ ← issuer s
  .error (stopTrap s 1 (word.zeroExtend 64))

/-- A fetch beyond the overlay's image raises cause 0x06 (R65). -/
def execOverlayImageFault (off : BitVec 64) (s : State) : Out := finish do
  let _ ← issuer s
  .error (stopTrap s 6 off)

end Sys2Proof.Machine
end

