-- ==== Sys2Proof/Machine/Dict.lean ====
section
/-! DEFINITION. DICT (R71, R72): a dictionary entry executes as if it stood at the D instruction's address. -/

namespace Sys2Proof.Machine

/-- A 32-bit instruction that a dictionary entry holds. The 16-bit forms, commands and events are no dictionary entries (R71). -/
def execEntry (i : Instr) (s : State) : Out :=
  match i with
  | .add f o => execAdd f o s
  | .sub f o => execSub f o s
  | .mul f o => execMul f o s
  | .mad o => execMad o s
  | .min f o => execMin f o s
  | .max f o => execMax f o s
  | .land o => execLand o s
  | .lor o => execLor o s
  | .lxor o => execLxor o s
  | .landn o => execLandn o s
  | .shl o => execShl o s
  | .shr o => execShr o s
  | .sar o => execSar o s
  | .rot o => execRot o s
  | .popc o => execPopc o s
  | .clz o => execClz o s
  | .brev o => execBrev o s
  | .ffs o => execFfs o s
  | .bfeN o => execBfeN o s
  | .bfeS o => execBfeS o s
  | .bfi o => execBfi o s
  | .cmp o => execCmp o s
  | .sel f o => execSel f o s
  | .addi imm o => execAddi imm o s
  | .andi imm o => execAndi imm o s
  | .ori imm o => execOri imm o s
  | .xori imm o => execXori imm o s
  | .andni imm o => execAndni imm o s
  | .shli n o => execShli n o s
  | .shri n o => execShri n o s
  | .sari n o => execSari n o s
  | .roti n o => execRoti n o s
  | .movw imm d => execMovw imm d s
  | .movh imm d => execMovh imm d s
  | .movx imm d => execMovx imm d s
  | .lea f o => execLea f o s
  | .cvti f o => execCvti f o s
  | .idot4 f o => execIdot4 f o s
  | .idot4s f o => execIdot4s f o s
  | .idot8 f o => execIdot8 f o s
  | .idot8s f o => execIdot8s f o s
  | .br off => execBr off s
  | .brc off sense k => execBrc off sense k s
  | .brloop off w => execBrloop off w s
  | .call off => execCall off s
  | .lshf f o => execLshf f o s
  | .lred f o => execLred f o s
  | .lscan f o => execLscan f o s
  | .vote f k d => execVote f k d s
  | .fadd o => execFadd o s
  | .fsub o => execFsub o s
  | .fmul o => execFmul o s
  | .ffma o => execFfma o s
  | .ffms o => execFfms o s
  | .fnma o => execFnma o s
  | .fmin o => execFmin o s
  | .fmax o => execFmax o s
  | .fcmp o => execFcmp o s
  | .frnd f o => execFrnd f o s
  | .fspec fn o => execFspec fn o s
  | .cvtf f code o => execCvtf f code o s
  | .fdot f o => execFdot f o s
  | .pack f o => execPack f o s
  | .unpack f o => execUnpack f o s
  | .fscale f o => execFscale f o s
  | .mloop m z cnt tB tA acc => execMloop m z cnt tB tA acc s
  | .mzero acc => execMzero acc s
  | .mload acc t => execMload acc t s
  | .mstore t acc => execMstore t acc s
  | .mread d acc e => execMread d acc e s
  | .mwrite acc e d => execMwrite acc e d s
  | .mwait all acc => execMwait all acc s
  | .tset t fld src => execTset t fld src s
  | .tget d t fld => execTget d t fld s
  | .tclr t => execTclr t s
  | .mprojC acc tA tB menu => execMprojC acc tA tB menu s
  | .mprojS acc tA tB menu => execMprojS acc tA tB menu s
  | .drawcfg src => execDrawcfg src s
  | .draw d acc e => execDraw d acc e s
  | .deliver m t => execDeliver m t s
  | .drawseed src => execDrawseed src s
  | .ld o => execLd o s
  | .st o => execSt o s
  | .lds o => execLds o s
  | .sts o => execSts o s
  | .atom op scope e x d => execAtom op scope e x d s
  | .atoms op e x d => execAtoms op e x d s
  | .ldvM n e x d => execLdvM n e x d s
  | .stvM n e x d => execStvM n e x d s
  | .phaseP scope => execPhaseP scope s
  | .phaseR scope => execPhaseR scope s
  | .phase scope => execPhase scope s
  | .waitm d e t => execWaitm d e t s
  | .smap o g l => execSmap o g l s
  | .sunmap o => execSunmap o s
  | .sflush o => execSflush o s
  | .prefetch l2 e x => execPrefetch l2 e x s
  | .fenceS => execFenceS s
  | .tcopy t g b => execTcopy t g b s
  | .tstore t g b => execTstore t g b s
  | .tstoreA t g b => execTstoreA t g b s
  | .tmcast t r b => execTmcast t r b s
  | .gather t g b => execGather t g b s
  | .own t engine => execOwn t engine s
  | .engineSub r src => execEngineSub r src s
  | .subend r => execSubend r s
  | .slotdone r x => execSlotdone r x s
  | .kvmove k p b => execKvmove k p b s
  | .barSync b n => execBarSync b n s
  | .barArrive b n => execBarArrive b n s
  | .barWait b => execBarWait b s
  | .tbarInit r a => execTbarInit r a s
  | .tbarExpect src a => execTbarExpect src a s
  | .tbarArrive d a => execTbarArrive d a s
  | .tbarWait d p a => execTbarWait d p a s
  | .tbarAck src a => execTbarAck src a s
  | .joinArm d p j => execJoinArm d p j s
  | .joinArrive i c j => execJoinArrive i c j s
  | .joinWait j => execJoinWait j s
  | .joinRead d sel j => execJoinRead d sel j s
  | .joinCancel j => execJoinCancel j s
  | .killoff => execKilloff s
  | .killon => execKillon s
  | .enq k q r => execEnq k q r s
  | .spawn k r => execSpawn k r s
  | .launch k q r => execLaunch k q r s
  | .gpset g n src => execGpset g n src s
  | .gpget d g n => execGpget d g n s
  | .greplay k g => execGreplay k g s
  | .ovload d idx => execOvload d idx s
  | .ovcall t entry => execOvcall t entry s
  | .ovjump t entry => execOvjump t entry s
  | .ret => execRet s
  | .ovpin t => execOvpin t s
  | .ovunpin t => execOvunpin t s
  | .ovdrop t => execOvdrop t s
  | .ovquery d t => execOvquery d t s
  | .exit => execExit s
  | .trap code => execTrap code s
  | .rth => execRth s
  | .nret => execNret s
  | .yield => execYield s
  | .nop => execNop s
  | .srd d sel => execSrd d sel s
  | .swr sel src => execSwr sel src s
  | .reclaimTake d c l => execReclaimTake d c l s
  | .reclaimGive d c l => execReclaimGive d c l s
  | .resume kill d h => execResume kill d h s
  | .tlbinv a c => execTlbinv a c s
  | .pgquery d a c => execPgquery d a c s
  | .pwrreq d t => execPwrreq d t s
  | .ctxopQuery d src => execCtxopQuery d src s
  | .ctxopSwout d src => execCtxopSwout d src s
  | .ctxopSwin d src => execCtxopSwin d src s
  | .halt => execHalt s
  | _ => execIllegalInstruction s.cur.word s

/-- An entry of the dictionary of a kernel; an entry that the image does not supply is 0 (R71). -/
def dictEntry (s : State) (kernel idx : Nat) : Word := ((mget s.kernels kernel).bind fun k => k.dict[idx]?).getD 0

/-- DICT (R72): the entry is decoded and executed; the next PC stays this address plus 2. -/
def execDict (i : BitVec 10) (s : State) : Out :=
  match mget s.groups s.cur.group with
  | none => .fault .noIssuer
  | some g =>
    let w := dictEntry s g.kernel i.toNat
    if !w.getLsbD 0 then execIllegalInstruction s.cur.word s
    else
      let s := { s with cur := { s.cur with word := w } }
      match decodeWord w.toNat with
      | none => execIllegalInstruction w s
      | some i => execEntry i s

end Sys2Proof.Machine
end

