-- ==== Sys2Proof/Machine/Dispatch.lean ====
section
/-! DEFINITION. One arm per instruction, command and event of the opcode table, in the table's order. -/

namespace Sys2Proof.Machine

/-- The meaning of an instruction, a command or an event. -/
def exec (i : Instr) (s : State) : Host.Outcome State Fault Refusal :=
  match i with
  | .add f o => Sys2Proof.Machine.execAdd f o s
  | .sub f o => Sys2Proof.Machine.execSub f o s
  | .mul f o => Sys2Proof.Machine.execMul f o s
  | .mad o => Sys2Proof.Machine.execMad o s
  | .min f o => Sys2Proof.Machine.execMin f o s
  | .max f o => Sys2Proof.Machine.execMax f o s
  | .land o => Sys2Proof.Machine.execLand o s
  | .lor o => Sys2Proof.Machine.execLor o s
  | .lxor o => Sys2Proof.Machine.execLxor o s
  | .landn o => Sys2Proof.Machine.execLandn o s
  | .shl o => Sys2Proof.Machine.execShl o s
  | .shr o => Sys2Proof.Machine.execShr o s
  | .sar o => Sys2Proof.Machine.execSar o s
  | .rot o => Sys2Proof.Machine.execRot o s
  | .popc o => Sys2Proof.Machine.execPopc o s
  | .clz o => Sys2Proof.Machine.execClz o s
  | .brev o => Sys2Proof.Machine.execBrev o s
  | .ffs o => Sys2Proof.Machine.execFfs o s
  | .bfeN o => Sys2Proof.Machine.execBfeN o s
  | .bfeS o => Sys2Proof.Machine.execBfeS o s
  | .bfi o => Sys2Proof.Machine.execBfi o s
  | .cmp o => Sys2Proof.Machine.execCmp o s
  | .sel f o => Sys2Proof.Machine.execSel f o s
  | .addi imm o => Sys2Proof.Machine.execAddi imm o s
  | .andi imm o => Sys2Proof.Machine.execAndi imm o s
  | .ori imm o => Sys2Proof.Machine.execOri imm o s
  | .xori imm o => Sys2Proof.Machine.execXori imm o s
  | .andni imm o => Sys2Proof.Machine.execAndni imm o s
  | .shli n o => Sys2Proof.Machine.execShli n o s
  | .shri n o => Sys2Proof.Machine.execShri n o s
  | .sari n o => Sys2Proof.Machine.execSari n o s
  | .roti n o => Sys2Proof.Machine.execRoti n o s
  | .movw imm d => Sys2Proof.Machine.execMovw imm d s
  | .movh imm d => Sys2Proof.Machine.execMovh imm d s
  | .movx imm d => Sys2Proof.Machine.execMovx imm d s
  | .lea f o => Sys2Proof.Machine.execLea f o s
  | .cvti f o => Sys2Proof.Machine.execCvti f o s
  | .idot4 f o => Sys2Proof.Machine.execIdot4 f o s
  | .idot4s f o => Sys2Proof.Machine.execIdot4s f o s
  | .idot8 f o => Sys2Proof.Machine.execIdot8 f o s
  | .idot8s f o => Sys2Proof.Machine.execIdot8s f o s
  | .br off => Sys2Proof.Machine.execBr off s
  | .brc off sense k => Sys2Proof.Machine.execBrc off sense k s
  | .brloop off w => Sys2Proof.Machine.execBrloop off w s
  | .call off => Sys2Proof.Machine.execCall off s
  | .lshf f o => Sys2Proof.Machine.execLshf f o s
  | .lred f o => Sys2Proof.Machine.execLred f o s
  | .lscan f o => Sys2Proof.Machine.execLscan f o s
  | .vote f k d => Sys2Proof.Machine.execVote f k d s
  | .fadd o => Sys2Proof.Machine.execFadd o s
  | .fsub o => Sys2Proof.Machine.execFsub o s
  | .fmul o => Sys2Proof.Machine.execFmul o s
  | .ffma o => Sys2Proof.Machine.execFfma o s
  | .ffms o => Sys2Proof.Machine.execFfms o s
  | .fnma o => Sys2Proof.Machine.execFnma o s
  | .fmin o => Sys2Proof.Machine.execFmin o s
  | .fmax o => Sys2Proof.Machine.execFmax o s
  | .fcmp o => Sys2Proof.Machine.execFcmp o s
  | .frnd f o => Sys2Proof.Machine.execFrnd f o s
  | .fspec fn o => Sys2Proof.Machine.execFspec fn o s
  | .cvtf f code o => Sys2Proof.Machine.execCvtf f code o s
  | .fdot f o => Sys2Proof.Machine.execFdot f o s
  | .pack f o => Sys2Proof.Machine.execPack f o s
  | .unpack f o => Sys2Proof.Machine.execUnpack f o s
  | .fscale f o => Sys2Proof.Machine.execFscale f o s
  | .mloop m z cnt tB tA acc => Sys2Proof.Machine.execMloop m z cnt tB tA acc s
  | .mzero acc => Sys2Proof.Machine.execMzero acc s
  | .mload acc t => Sys2Proof.Machine.execMload acc t s
  | .mstore t acc => Sys2Proof.Machine.execMstore t acc s
  | .mread d acc e => Sys2Proof.Machine.execMread d acc e s
  | .mwrite acc e d => Sys2Proof.Machine.execMwrite acc e d s
  | .mwait all acc => Sys2Proof.Machine.execMwait all acc s
  | .tset t fld src => Sys2Proof.Machine.execTset t fld src s
  | .tget d t fld => Sys2Proof.Machine.execTget d t fld s
  | .tclr t => Sys2Proof.Machine.execTclr t s
  | .mprojC acc tA tB menu => Sys2Proof.Machine.execMprojC acc tA tB menu s
  | .mprojS acc tA tB menu => Sys2Proof.Machine.execMprojS acc tA tB menu s
  | .drawcfg src => Sys2Proof.Machine.execDrawcfg src s
  | .draw d acc e => Sys2Proof.Machine.execDraw d acc e s
  | .deliver m t => Sys2Proof.Machine.execDeliver m t s
  | .drawseed src => Sys2Proof.Machine.execDrawseed src s
  | .ld o => Sys2Proof.Machine.execLd o s
  | .st o => Sys2Proof.Machine.execSt o s
  | .lds o => Sys2Proof.Machine.execLds o s
  | .sts o => Sys2Proof.Machine.execSts o s
  | .atom op scope e x d => Sys2Proof.Machine.execAtom op scope e x d s
  | .atoms op e x d => Sys2Proof.Machine.execAtoms op e x d s
  | .ldvM n e x d => Sys2Proof.Machine.execLdvM n e x d s
  | .stvM n e x d => Sys2Proof.Machine.execStvM n e x d s
  | .phaseP scope => Sys2Proof.Machine.execPhaseP scope s
  | .phaseR scope => Sys2Proof.Machine.execPhaseR scope s
  | .phase scope => Sys2Proof.Machine.execPhase scope s
  | .waitm d e t => Sys2Proof.Machine.execWaitm d e t s
  | .smap o g l => Sys2Proof.Machine.execSmap o g l s
  | .sunmap o => Sys2Proof.Machine.execSunmap o s
  | .sflush o => Sys2Proof.Machine.execSflush o s
  | .prefetch l2 e x => Sys2Proof.Machine.execPrefetch l2 e x s
  | .fenceS => Sys2Proof.Machine.execFenceS s
  | .tcopy t g b => Sys2Proof.Machine.execTcopy t g b s
  | .tstore t g b => Sys2Proof.Machine.execTstore t g b s
  | .tstoreA t g b => Sys2Proof.Machine.execTstoreA t g b s
  | .tmcast t r b => Sys2Proof.Machine.execTmcast t r b s
  | .gather t g b => Sys2Proof.Machine.execGather t g b s
  | .own t engine => Sys2Proof.Machine.execOwn t engine s
  | .engineSub r src => Sys2Proof.Machine.execEngineSub r src s
  | .subend r => Sys2Proof.Machine.execSubend r s
  | .slotdone r x => Sys2Proof.Machine.execSlotdone r x s
  | .kvmove k p b => Sys2Proof.Machine.execKvmove k p b s
  | .barSync b n => Sys2Proof.Machine.execBarSync b n s
  | .barArrive b n => Sys2Proof.Machine.execBarArrive b n s
  | .barWait b => Sys2Proof.Machine.execBarWait b s
  | .tbarInit r a => Sys2Proof.Machine.execTbarInit r a s
  | .tbarExpect src a => Sys2Proof.Machine.execTbarExpect src a s
  | .tbarArrive d a => Sys2Proof.Machine.execTbarArrive d a s
  | .tbarWait d p a => Sys2Proof.Machine.execTbarWait d p a s
  | .tbarAck src a => Sys2Proof.Machine.execTbarAck src a s
  | .joinArm d p j => Sys2Proof.Machine.execJoinArm d p j s
  | .joinArrive r c j => Sys2Proof.Machine.execJoinArrive r c j s
  | .joinWait j => Sys2Proof.Machine.execJoinWait j s
  | .joinRead d sel j => Sys2Proof.Machine.execJoinRead d sel j s
  | .joinCancel j => Sys2Proof.Machine.execJoinCancel j s
  | .killoff => Sys2Proof.Machine.execKilloff s
  | .killon => Sys2Proof.Machine.execKillon s
  | .enq k q r => Sys2Proof.Machine.execEnq k q r s
  | .spawn k r => Sys2Proof.Machine.execSpawn k r s
  | .launch k q r => Sys2Proof.Machine.execLaunch k q r s
  | .gpset g n src => Sys2Proof.Machine.execGpset g n src s
  | .gpget d g n => Sys2Proof.Machine.execGpget d g n s
  | .greplay k g => Sys2Proof.Machine.execGreplay k g s
  | .ovload d idx => Sys2Proof.Machine.execOvload d idx s
  | .ovcall t entry => Sys2Proof.Machine.execOvcall t entry s
  | .ovjump t entry => Sys2Proof.Machine.execOvjump t entry s
  | .ret => Sys2Proof.Machine.execRet s
  | .ovpin t => Sys2Proof.Machine.execOvpin t s
  | .ovunpin t => Sys2Proof.Machine.execOvunpin t s
  | .ovdrop t => Sys2Proof.Machine.execOvdrop t s
  | .ovquery d t => Sys2Proof.Machine.execOvquery d t s
  | .exit => Sys2Proof.Machine.execExit s
  | .trap code => Sys2Proof.Machine.execTrap code s
  | .rth => Sys2Proof.Machine.execRth s
  | .nret => Sys2Proof.Machine.execNret s
  | .yield => Sys2Proof.Machine.execYield s
  | .nop => Sys2Proof.Machine.execNop s
  | .srd d sel => Sys2Proof.Machine.execSrd d sel s
  | .swr sel src => Sys2Proof.Machine.execSwr sel src s
  | .reclaimTake d c l => Sys2Proof.Machine.execReclaimTake d c l s
  | .reclaimGive d c l => Sys2Proof.Machine.execReclaimGive d c l s
  | .resume kill d h => Sys2Proof.Machine.execResume kill d h s
  | .tlbinv a c => Sys2Proof.Machine.execTlbinv a c s
  | .pgquery d a c => Sys2Proof.Machine.execPgquery d a c s
  | .pwrreq d t => Sys2Proof.Machine.execPwrreq d t s
  | .ctxopQuery d src => Sys2Proof.Machine.execCtxopQuery d src s
  | .ctxopSwout d src => Sys2Proof.Machine.execCtxopSwout d src s
  | .ctxopSwin d src => Sys2Proof.Machine.execCtxopSwin d src s
  | .halt => Sys2Proof.Machine.execHalt s
  | .dict idx => Sys2Proof.Machine.execDict idx s
  | .movH b d => Sys2Proof.Machine.execMovH b d s
  | .addH b d => Sys2Proof.Machine.execAddH b d s
  | .subH b d => Sys2Proof.Machine.execSubH b d s
  | .mulH b d => Sys2Proof.Machine.execMulH b d s
  | .andH b d => Sys2Proof.Machine.execAndH b d s
  | .orH b d => Sys2Proof.Machine.execOrH b d s
  | .xorH b d => Sys2Proof.Machine.execXorH b d s
  | .shlH b d => Sys2Proof.Machine.execShlH b d s
  | .shrH b d => Sys2Proof.Machine.execShrH b d s
  | .sarH b d => Sys2Proof.Machine.execSarH b d s
  | .minH b d => Sys2Proof.Machine.execMinH b d s
  | .maxH b d => Sys2Proof.Machine.execMaxH b d s
  | .faddH b d => Sys2Proof.Machine.execFaddH b d s
  | .fsubH b d => Sys2Proof.Machine.execFsubH b d s
  | .fmulH b d => Sys2Proof.Machine.execFmulH b d s
  | .fmaxH b d => Sys2Proof.Machine.execFmaxH b d s
  | .openCtx h b => Sys2Proof.Machine.execOpenCtx h b s
  | .featans h f0 f1 f2 f3 => Sys2Proof.Machine.execFeatans h f0 f1 f2 f3 s
  | .setquota h b => Sys2Proof.Machine.execSetquota h b s
  | .close h => Sys2Proof.Machine.execClose h s
  | .swout h => Sys2Proof.Machine.execSwout h s
  | .swin h => Sys2Proof.Machine.execSwin h s
  | .mappg h va entry level zeroFill => Sys2Proof.Machine.execMappg h va entry level zeroFill s
  | .rmtset h index entry => Sys2Proof.Machine.execRmtset h index entry s
  | .loadk h addr size => Sys2Proof.Machine.execLoadk h addr size s
  | .readyk h kid => Sys2Proof.Machine.execReadyk h kid s
  | .unloadk h kid => Sys2Proof.Machine.execUnloadk h kid s
  | .launchk h qid teams rec => Sys2Proof.Machine.execLaunchk h qid teams rec s
  | .killt h handle grid => Sys2Proof.Machine.execKillt h handle grid s
  | .resumeg h handle kill => Sys2Proof.Machine.execResumeg h handle kill s
  | .startcg h core kid rec => Sys2Proof.Machine.execStartcg h core kid rec s
  | .createq h qid ovf ovfsz mask => Sys2Proof.Machine.execCreateq h qid ovf ovfsz mask s
  | .start h qid => Sys2Proof.Machine.execStart h qid s
  | .pause h qid => Sys2Proof.Machine.execPause h qid s
  | .drain h qid => Sys2Proof.Machine.execDrain h qid s
  | .discard h qid => Sys2Proof.Machine.execDiscard h qid s
  | .setmask h qid mask => Sys2Proof.Machine.execSetmask h qid mask s
  | .queryq h qid seg slot => Sys2Proof.Machine.execQueryq h qid seg slot s
  | .drifyEnq h qid teams rec => Sys2Proof.Machine.execDrifyEnq h qid teams rec s
  | .recordg h gid count core addr => Sys2Proof.Machine.execRecordg h gid count core addr s
  | .freeg h gid => Sys2Proof.Machine.execFreeg h gid s
  | .replay h gid mask gp => Sys2Proof.Machine.execReplay h gid mask gp s
  | .portquery h link => Sys2Proof.Machine.execPortquery h link s
  | .portup h link => Sys2Proof.Machine.execPortup h link s
  | .portdrain h link => Sys2Proof.Machine.execPortdrain h link s
  | .setport h link ipv4 ipv6 => Sys2Proof.Machine.execSetport h link ipv4 ipv6 s
  | .attest h nonce => Sys2Proof.Machine.execAttest h nonce s
  | .peerWrite p data => Sys2Proof.Machine.execPeerWrite p data s
  | .peerRead p len => Sys2Proof.Machine.execPeerRead p len s
  | .peerFetchAdd p v => Sys2Proof.Machine.execPeerFetchAdd p v s
  | .peerCompareSwap p cmp new => Sys2Proof.Machine.execPeerCompareSwap p cmp new s
  | .remoteAck id v => Sys2Proof.Machine.execRemoteAck id v s
  | .linkTimeout id => Sys2Proof.Machine.execLinkTimeout id s
  | .trained link lanes => Sys2Proof.Machine.execTrained link lanes s
  | .trainFail link => Sys2Proof.Machine.execTrainFail link s
  | .laneLoss link lanes => Sys2Proof.Machine.execLaneLoss link lanes s
  | .laneRegain link => Sys2Proof.Machine.execLaneRegain link s
  | .drained link => Sys2Proof.Machine.execDrained link s
  | .signalLoss link => Sys2Proof.Machine.execSignalLoss link s
  | .moduleReset => Sys2Proof.Machine.execModuleReset s
  | .bootStep ok => Sys2Proof.Machine.execBootStep ok s
  | .capChange cluster cap => Sys2Proof.Machine.execCapChange cluster cap s
  | .opChangeStart cluster => Sys2Proof.Machine.execOpChangeStart cluster s
  | .supplyRampDone cluster => Sys2Proof.Machine.execSupplyRampDone cluster s
  | .relockDone cluster => Sys2Proof.Machine.execRelockDone cluster s
  | .droopAlarm cluster => Sys2Proof.Machine.execDroopAlarm cluster s
  | .droopStretchEnd cluster => Sys2Proof.Machine.execDroopStretchEnd cluster s
  | .droopWindowEnd cluster => Sys2Proof.Machine.execDroopWindowEnd cluster s
  | .releaseWave cluster => Sys2Proof.Machine.execReleaseWave cluster s
  | .dispatch qid seg slot core place => Sys2Proof.Machine.execDispatch qid seg slot core place s
  | .taskPromotion qid seg slot => Sys2Proof.Machine.execTaskPromotion qid seg slot s
  | .overflowRefill qid seg => Sys2Proof.Machine.execOverflowRefill qid seg s
  | .graphTask gid => Sys2Proof.Machine.execGraphTask gid s
  | .graphArm gid => Sys2Proof.Machine.execGraphArm gid s
  | .graphWait gid => Sys2Proof.Machine.execGraphWait gid s
  | .graphWrite gid => Sys2Proof.Machine.execGraphWrite gid s
  | .graphEnd gid => Sys2Proof.Machine.execGraphEnd gid s
  | .kernelRelease kid core => Sys2Proof.Machine.execKernelRelease kid core s
  | .teamRetire team => Sys2Proof.Machine.execTeamRetire team s
  | .groupKill g => Sys2Proof.Machine.execGroupKill g s
  | .killDeadline g => Sys2Proof.Machine.execKillDeadline g s
  | .noticeDelivery g => Sys2Proof.Machine.execNoticeDelivery g s
  | .groupExpand g => Sys2Proof.Machine.execGroupExpand g s
  | .groupFold g => Sys2Proof.Machine.execGroupFold g s
  | .registerFill g name => Sys2Proof.Machine.execRegisterFill g name s
  | .scratchFill team line => Sys2Proof.Machine.execScratchFill team line s
  | .overlayLoadDone core ctx ov transit => Sys2Proof.Machine.execOverlayLoadDone core ctx ov transit s
  | .overlayLoadFail core ctx ov transit => Sys2Proof.Machine.execOverlayLoadFail core ctx ov transit s
  | .overlayEvicted core ctx ov transit => Sys2Proof.Machine.execOverlayEvicted core ctx ov transit s
  | .transitSwap core => Sys2Proof.Machine.execTransitSwap core s
  | .loadReturn g n => Sys2Proof.Machine.execLoadReturn g n s
  | .publishComplete g => Sys2Proof.Machine.execPublishComplete g s
  | .stashFillDone team sector => Sys2Proof.Machine.execStashFillDone team sector s
  | .waitmWake g code => Sys2Proof.Machine.execWaitmWake g code s
  | .waitmTimeout g => Sys2Proof.Machine.execWaitmTimeout g s
  | .sequencerComplete core => Sys2Proof.Machine.execSequencerComplete core s
  | .engineAccept core op => Sys2Proof.Machine.execEngineAccept core op s
  | .sectorLand core op => Sys2Proof.Machine.execSectorLand core op s
  | .lineComplete core op line => Sys2Proof.Machine.execLineComplete core op line s
  | .engineComplete core op => Sys2Proof.Machine.execEngineComplete core op s
  | .tmcastDelivery core op => Sys2Proof.Machine.execTmcastDelivery core op s
  | .ackReceive n => Sys2Proof.Machine.execAckReceive n s
  | .faultRetry core op => Sys2Proof.Machine.execFaultRetry core op s
  | .fillStart team ring => Sys2Proof.Machine.execFillStart team ring s
  | .fillDone core op => Sys2Proof.Machine.execFillDone core op s
  | .drainStart team ring slot => Sys2Proof.Machine.execDrainStart team ring slot s
  | .drainDone core op => Sys2Proof.Machine.execDrainDone core op s
  | .delivery team row => Sys2Proof.Machine.execDelivery team row s
  | .deliveryRetry team row => Sys2Proof.Machine.execDeliveryRetry team row s
  | .faultQueueRetry ctx => Sys2Proof.Machine.execFaultQueueRetry ctx s
  | .switchOutStep ctx => Sys2Proof.Machine.execSwitchOutStep ctx s
  | .switchOutDone ctx => Sys2Proof.Machine.execSwitchOutDone ctx s
  | .restorePlace ctx core place => Sys2Proof.Machine.execRestorePlace ctx core place s
  | .closeDone ctx => Sys2Proof.Machine.execCloseDone ctx s
  | .illegalInstruction word => Sys2Proof.Machine.execIllegalInstruction word s
  | .overlayImageFault off => Sys2Proof.Machine.execOverlayImageFault off s
  | .badCommand h op => Sys2Proof.Machine.execBadCommand h op s
  | .unsupportedOptionPacket link => Sys2Proof.Machine.execUnsupportedOptionPacket link s
  | .tssAssociation assoc report => Sys2Proof.Machine.execTssAssociation assoc report s
  | .keystoneReadyToSign => Sys2Proof.Machine.execKeystoneReadyToSign s
  | .spanFirmwareClusterSetting cluster v => Sys2Proof.Machine.execSpanFirmwareClusterSetting cluster v s

end Sys2Proof.Machine
end

