-- ==== Sys2Proof/Machine/Fetch.lean ====
section
/-! DEFINITION. Which threads issue, and the instruction they fetch (R50 to R53, R64, R65), and the passing of time (R5). -/

namespace Sys2Proof.Machine

/-! ### Who may issue -/

/-- A group issues: it is RUNNING or in HANDLER, its context lets it, no fold, notice or kill is due at this boundary before the next
instruction (R339, R357, R377), no Publish, access of GSTAT or MWAIT is under way (R236, R189, R226), and its clocks run (R429). -/
def mayIssue (s : State) (gid : Nat) (g : Group) : Bool :=
  (match g.st with
    | .active => true
    | .handler => true
    | _ => false) &&
  g.publishing.isNone && g.foldPlan.isNone && !noticeReady s g && !g.killPoint s && !g.unitHeld s gid && ctxIssues s g.ctx &&
  teamLoaded s g && !(clusterOf s (clusOf g.core)).relocking

/-- The wait that an instruction goes on from when it issues again; the other waits start it anew. -/
def Thread.heldBy (t : Thread) : Option Wait := t.wait.filter Wait.lasting

/-- A live thread can issue: no wait for an event of its own holds it; one that waits for anything else tries its instruction again.
A WAITM and a wait for an overlay end without an issue of their threads.
While a Publish, or another instruction in its middle, is held until the NRET of a notice, only threads inside the notice or the handler issue
(R357, log entries 97 and 120). -/
def threadReady (s : State) (gid : Nat) (g : Group) (t : Thread) : Bool :=
  t.live && !t.wait.any Wait.endsItself && (!g.midway || t.wait.any Wait.midway) &&
  (t.heldBy.isNone || !waitHolds s gid g t || g.pageHeld) && ((g.heldPublish.isNone && !g.midwayLeft) || t.inNotice || g.handling)

/-- The threads that issue with a leading thread: ready, at its PC, going on from the same wait. All of them issue together (R50, R53);
those that share a lane of a folded group are passes of the one issue (R58). -/
def withLead (s : State) (gid : Nat) (g : Group) (l : Fin 32) : BitVec 32 :=
  let t := g.threads[l]
  maskOf (allLanes.filter fun i => threadReady s gid g g.threads[i] && g.threads[i].pc == t.pc && g.threads[i].ov == t.ov &&
    decide (g.threads[i].heldBy = t.heldBy))

/-- The lowest ready thread of a mask. -/
def leadOf (s : State) (gid : Nat) (g : Group) (mask : BitVec 32) : Option (Fin 32) :=
  lowestLane (maskOf ((lanesOf mask).filter fun i => threadReady s gid g g.threads[i]))

/-! ### Fetch -/

/-- A fetched instruction word with its size in bytes, or the offset of the first halfword beyond the image (R64, R65). -/
def fetchWord (code : List Byte) (pc : Nat) : Except Nat (Nat × Nat) :=
  match code[pc]?, code[pc + 1]? with
  | some a, some b =>
    if !a.getLsbD 0 then .ok (leNat [a, b], 2)
    else match code[pc + 2]?, code[pc + 3]? with
      | some c, some d => .ok (leNat [a, b, c, d], 4)
      | _, _ => .error (pc + 2)
  | _, _ => .error pc

/-- The instruction that a word is; none where it is no word of Tables 3.5 to 3.7 (R83). -/
def instrOf (w size : Nat) : Option Instr := if size = 2 then decodeHalf w else decodeWord w

/-- What a move comes to in a state: nothing to execute; an instruction, command or event; a word that is no instruction (R83); a
fetch beyond the image (R65). -/
inductive Fetched where
  | idle (s : State)
  | run (i : Instr) (s : State)
  | illegal (w : Word) (s : State)
  | beyond (off : DWord) (s : State)

/-- A thread waits for its own overlay, which it asks for (R317, R455). -/
def awaitCode (s : State) (gid : Nat) (g : Group) (m : BitVec 32) (ov : BitVec 16) : State :=
  let s := (needOverlay s g.core g.ctx ov.toNat gid).1
  match mget s.groups gid with
  | none => s
  | some g => setGroup s gid (g.onLanes m fun _ t => { t with wait := some (.overlay ov .own) })

/-- The complete copy that a thread fetches from: the one its PC lies in (R313). -/
def copyFor (c : Core) (ctx : Nat) (t : Thread) : Option Residency :=
  (copyOf c ctx t).bind fun b => (findRes c ctx t.ov.toNat b).filter fun r => decide (r.st = .resident)

/-- The instruction of the leading thread from the copy of its overlay that its PC lies in; each thread of the issue stays in its own copy
(R313). -/
def fetchCode (s : State) (gid : Nat) (g : Group) (all : BitVec 32) (t : Thread) : Fetched :=
  match copyFor (coreOf s g.core) g.ctx t with
  | none => .idle (awaitCode s gid g all t.ov)
  | some r =>
    let s := setGroup s gid (g.onLanes all fun _ x => { x with copy := copyOf (coreOf s g.core) g.ctx x })
    let cur : Issue := { group := gid, mask := all, ov := t.ov, pc := t.pc, next := t.pc, word := 0 }
    match fetchWord r.code t.pc.toNat with
    | .error off => .beyond (u64 off) { s with cur := cur }
    | .ok (w, n) =>
      let s := { s with cur := { cur with next := t.pc + BitVec.ofNat 32 n, word := BitVec.ofNat 32 w } }
      match instrOf w n with
      | none => .illegal (BitVec.ofNat 32 w) s
      | some i => .run i s

/-- Threads of a group issue: the lowest ready thread of `mask` leads. -/
def fetchAt (s : State) (gid : Nat) (g : Group) (mask : BitVec 32) : Fetched :=
  match leadOf s gid g mask with
  | none => .idle s
  | some l => fetchCode s gid g (withLead s gid g l) g.threads[l]

/-- A move in which a group issues; a PLACED group starts once its entry overlay is resident (Table 14.2), and threads that wait for
an overlay ask for it again where that is due. -/
def fetchIssue (s : State) (gid : Nat) (mask : BitVec 32) : Fetched :=
  match mget s.groups gid with
  | none => .idle s
  | some g =>
    if g.st = .placed then .idle (if ctxIssues s g.ctx && teamLoaded s g then startGroup s gid else s)
    else if !teamLoaded s g && ctxIssues s g.ctx then .idle (g.team.elim s (reloadTeam s))
    else if mayIssue s gid g then
      let s := askOverlays s gid
      match mget s.groups gid with
      | none => .idle s
      | some g => fetchAt s gid g mask
    else .idle s

/-- Rows of the opcode table that are commands or events of the device, and so moves of their own; instructions are fetched. -/
def isMove (i : Instr) : Bool :=
  match i with
  | .illegalInstruction _ => false
  | .overlayImageFault _ => false
  | i => (encode i).isNone

/-- From now on a line of a team's scratchpad holds an uncorrectable error (R217, R228). -/
def scratchError (s : State) (tid line : Nat) : State :=
  match mget s.teams tid with
  | none => s
  | some t => setTeam s tid { t with badLines := line :: t.badLines }

/-- A command or event as it comes: a command waits behind those of its ROD packet delivery context that wait (R425). -/
def arrive (s : State) (i : Instr) : Fetched :=
  if !isMove i then .idle s
  else if behind s.pendingCmds i then .idle { s with pendingCmds := s.pendingCmds ++ [i] }
  else .run i s

/-- A command that waits takes effect, once it need not wait any more. -/
def takeCommand (s : State) (n : Nat) : Fetched :=
  match s.pendingCmds[n]? with
  | none => .idle s
  | some i =>
    if behind (s.pendingCmds.take n) i || stillWaits s i then .idle s
    else .run i { s with pendingCmds := s.pendingCmds.eraseIdx n }

/-- The sectors that an uncorrectable error reaches: in HBM4E, where a line is stored compressed, those of the whole line (R409). -/
def errorSectors (l : List Nat) : List Nat :=
  l.flatMap fun x => if inHbm (32 * x) then (List.range 8).map (x / 8 * 8 + ·) else [x]

/-- A move as something to execute. -/
def fetchTurn (s : State) : Turn → Fetched
  | .command n => takeCommand s n
  | .issue g m => fetchIssue s g m
  | .sequencerAccess c => .idle (sequencerAccess s c)
  | .event i => arrive s i
  | .memoryError l => .idle { s with badSectors := errorSectors l ++ s.badSectors }
  | .scratchError t l => .idle (scratchError s t l)

/-! ### Time -/

/-- A cluster after the lane cycles of a move; none pass while its clocks relock (R430, R437). -/
def Cluster.pass (c : Cluster) (n : Nat) : Cluster := if c.relocking then c else { c with cycle := c.cycle + n }

/-- TSTAMP and the CYCLE of every cluster go on by amounts that the manual leaves open (R5). -/
def runClocks (s : State) : State :=
  { s with
    tick := s.tick + 1
    tstamp := s.tstamp + Config.nsElapsed s.tick
    clusters := (List.range 144).map fun c => (c, (clusterOf s c).pass (Config.lcElapsed s.tick c)) }

/-- Time passes at a move, the WAITMs whose end has come end (R237), and what waits no more leaves the transit queues (R324). -/
def passTime (s : State) : State := settleTransit ((s.groups.map (·.1)).foldl settleMonitors (runClocks s))

/-- The next move: the head of the agenda, or a free choice (R42, R51). -/
def takeTurn (s : State) : Turn × State :=
  match s.agenda with
  | t :: l => (t, { s with agenda := l })
  | [] => (Config.nextTurn s.tick, s)

end Sys2Proof.Machine
end

