-- ==== Sys2Proof/Machine/Sample.lean ====
section
/-! DEFINITION. A small resident program: one context, kernel, team and group on core 0 with its overlay resident, as a host and
the device would have brought it there. -/

namespace Sys2Proof.Machine

/-- A context in RUNNING with every feature. -/
def sampleContext : Context :=
  { st := .running, keyslot := 1, feat := #v[Config.featOffer0, 0, 0, 0], mask := -1, slotQuota := 40, ctlQuota := 16, save := 0,
    savesz := 2 ^ 30, ptroot := 0, joinwin := 0, faultq := 0, rpt := 0, rptn := 0, linkto := 1000, job := 1, memkey := 0, assoc := 1,
    heldRecs := [], switch := .none, saved := [] }

/-- A kernel of one overlay and one role. -/
def sampleKernel (size : Nat) : Kernel :=
  { ctx := 1, st := .running, unload := false, base := 0, overlays := [{ va := 0, size := size, entries := 0, slots := 1, entry0 := 0 }],
    dict := [], data := 0, groups := 1, roles := [{ width := 32, count := 1, regs := 96 }], workset := 1, handler := none,
    scratch := 65536, acc := 16 }

/-- Its overlay, resident in slot 0 of the core. -/
def sampleRes (code : List Byte) : Residency :=
  { ctx := 1, ov := 0, transit := false, st := .resident, handle := 0, slots := [0], gen := 1, code := code, moment := 0, stalled := none, by' := 0 }

def sampleRecord : TaskRec :=
  { entry := 0, affinity := 0, fclass := 0, prio := 0, join := 0, weight := 0, depth := 0, zero := 0, args := Vector.replicate 8 0 }

/-- Its group, at offset 0 of the overlay on lanes 0 to 31. -/
def sampleGroup (s : State) (team : Nat) : Group :=
  { newGroup s 1 0 (some team) 0 0 0 { role := 0, idx := 0, width := 32, hosts := -1, budget := 96 } sampleRecord (laneVec (List.range 32)) with
    st := .active }

/-- A program of one word at offset 0, about to issue as the only move of the agenda. -/
def placeWord (s : State) (code : List Byte) : State :=
  let tid := s.fresh
  let gid := s.fresh + 1
  let s := { s with fresh := s.fresh + 2, agenda := [.issue gid (-1)] }
  let s := setContext { s with kernels := mput s.kernels 0 (sampleKernel code.length) } 1 sampleContext
  let s := setCore s 0 { coreOf s 0 with res := [sampleRes code] }
  let s := setTeam s tid (newTeam 1 0 0 0 0 0 0 1 1 (sampleKernel code.length))
  addGroup s gid (sampleGroup s tid)

end Sys2Proof.Machine
end

