-- ==== Sys2Proof/Machine/Step.lean ====
section
/-! DEFINITION. One step of the machine: time passes, the next move is taken, and what it fetches is executed. -/

namespace Sys2Proof.Machine

/-- What a move comes to. -/
def runFetched : Fetched → Host.Outcome State Fault Refusal
  | .idle s => .next s
  | .run i s => exec i s
  | .illegal w s => execIllegalInstruction w s
  | .beyond off s => execOverlayImageFault off s

/-- One step. -/
def step (s : State) : Host.Outcome State Fault Refusal :=
  let r := takeTurn (passTime s)
  runFetched (fetchTurn r.2 r.1)

/-- A machine in which the very next step issues an instruction whose word is given: log entry 30. -/
def State.withFetchWord (s : State) (nbits w : Nat) : State := placeWord s (leBytes (max (nbits / 8) 4) (w % 2 ^ nbits))

end Sys2Proof.Machine
end

