-- ==== Sys2Proof/Safety.lean ====
section
/-! DEFINITION. What a safe run is: no step stops the machine, and the memories keep their canonical form; and the terms in which
claims say when an instruction has its effect: the group that issues, and registers that are free to be read and written. -/

namespace Sys2Proof

open Sys2Proof.Machine

/-- Global memory is in its canonical form: addresses rising, no entry equal to what an unlisted address reads as. -/
def MemOk (s : State) : Prop := Memory.wf s.mem = true

/-- The scratchpad of every team, resident or saved with its context, is in the same form. -/
def ScratchOk (s : State) : Prop :=
  (∀ p ∈ s.teams, Memory.wf p.2.scratch = true) ∧ ∀ c ∈ s.contexts, ∀ x ∈ c.2.saved, Memory.wf x.team.scratch = true

/-- The keys of a map rise strictly. -/
def Rising {α : Type} (m : Map α) : Prop := (m.map (·.1)).Pairwise (· < ·)

/-- A step gives a next state: it ends in no fault and in no refusal. -/
def Goes (o : Host.Outcome State Fault Refusal) : Prop := ∃ t, o = .next t

/-- `k` steps from a state end in no fault and in no refusal. -/
def SafeFor (k : Nat) (s : State) : Prop := Goes (core.run k s)

/-- A run is safe when every prefix of it is. -/
def SafeRun (s : State) : Prop := ∀ k, SafeFor k s

/-! ### When an instruction has its effect -/

/-- The issue names a group that is there. -/
def Issues (s : State) (g : Group) : Prop := mget s.groups s.cur.group = some g

/-- Uniform registers, by number, that an instruction may read and write now: no load and no DRAW is under way to any of them (R48,
R263), and none that it reads holds an uncorrectable error (R228). -/
def UniFree (s : State) (g : Group) (reads writes : List Nat) : Prop :=
  (∀ i ∈ reads ++ writes, busyW s g i = false) ∧ ∀ i ∈ reads, g.badW i = none

/-- Register fields that an instruction of these lanes may read and write now: nothing in flight (R48), no source spilled (R341), no
source that holds an uncorrectable error (R228). -/
def VecFree (s : State) (g : Group) (lanes : List (Fin 32)) (reads dests : List (BitVec 7)) : Prop :=
  (∀ n ∈ (reads ++ dests).filterMap g.vname, g.busyV n = false) ∧
  (∀ i ∈ (reads.filter isUni).map uniIdx, busyW s g i = false ∧ g.badW i = none) ∧
  ∀ n ∈ reads.filterMap g.vname, g.spilled.contains n = false ∧ ∀ l ∈ lanes, g.badV l n = none

/-- No lane's rows pass the register budget (R44): the names written are held already, or the rows still fit. -/
def VecRoom (g : Group) (lanes : List (Fin 32)) (frees names : List Nat) : Prop :=
  ∀ l ∈ lanes, (∀ n ∈ names, (mget g.threads[l].v n).isSome = true) ∨
    (g.threads[l].update frees (names.map fun n => (n, 0))).v.length ≤ g.budget

/-! ### What an instruction leaves -/

/-- The issuing threads stand at the next instruction, out of any wait; every other thread is as it was. -/
def Advanced (i : Issue) (g g' : Group) : Prop :=
  ∀ l : Fin 32, g'.threads[l] = if i.mask.getLsbD l then { g.threads[l] with pc := i.next, wait := none } else g.threads[l]

/-- A vector instruction has written `val` to the row `n` of each lane of the issue and raised `fl` and UNDEF: the rows of `frees` are
gone, every other row holds what it held, the issuing threads stand at the next instruction. Nothing else of the state has changed but
the bookkeeping of last reads, spills and errors of the group's rows. -/
def VecDone (s t : State) (g : Group) (frees : List Nat) (n : Nat) (val : Fin 32 → Word) (fl : Flags) (undef : Bool) : Prop :=
  ∃ g', t = setGroup s s.cur.group g' ∧
    (∀ l ∈ cohort s, g'.threads[l] = { g.threads[l] with v := g'.threads[l].v, pc := s.cur.next, wait := none } ∧
      ∀ m, mget g'.threads[l].v m = if m = n then some (val l) else if m ∈ frees then none else mget g.threads[l].v m) ∧
    (∀ l, l ∉ cohort s → g'.threads[l] = g.threads[l]) ∧
    g'.gstat = g.gstat ||| Flags.toGstat fl ||| gUndef undef ∧
    g' = { g with threads := g'.threads, gstat := g'.gstat, lastRead := g'.lastRead, spilled := g'.spilled, wantFill := g'.wantFill,
                  badRegs := g'.badRegs }

/-- A uniform instruction has written `v` to the uniform register `r`: every other uniform register holds what it held, the issuing
threads stand at the next instruction, and nothing else of the state has changed but the record of errors in registers. -/
def UniDone (s t : State) (g : Group) (r : Nat) (v : DWord) : Prop :=
  ∃ g', t = setGroup s s.cur.group g' ∧ Advanced s.cur g g' ∧
    (∀ i, i < 32 → g'.rdW i = if i = r then v else g.rdW i) ∧
    g' = { g with w := g'.w, threads := g'.threads, badRegs := g'.badRegs }

end Sys2Proof
end

