-- ==== Sys2Proof/Certificates/Slice0/Obligations.lean ====
section
/-! DEFINITION. The statements for the provers: what each instruction, command and event of the machine does, and what holds of the
whole machine. A statement that an instruction completes names the state it leaves. -/

namespace Sys2Proof.Claim

open Sys2Proof.Machine

/-! ### Forms of instructions that compute -/

/-- An instruction with one vector destination: the fields it reads with their last-read marks (R67, R68), the destination field, and
what a lane gets from the values it reads, with the flags raised. -/
structure VecForm where
  reads : List (BitVec 7 × Bool)
  d : BitVec 7
  f : List Word → Word × Flags

/-- Two sources. -/
def two (o : A3) (f : Word → Word → Word × Flags) : Option VecForm :=
  if isUni o.d then none
  else some { reads := [(o.a, o.la), (o.b, o.lb)], d := o.d, f := fun l => f (arg l 0) (arg l 1) }

/-- Two sources and the destination. -/
def three (o : A3) (f : Word → Word → Word → Word × Flags) : Option VecForm :=
  if isUni o.d then none
  else some { reads := [(o.a, o.la), (o.b, o.lb), (o.d, false)], d := o.d, f := fun l => f (arg l 0) (arg l 1) (arg l 2) }

/-- One source. -/
def one (o : A2) (f : Word → Word × Flags) : Option VecForm :=
  if isUni o.d then none else some { reads := [(o.a, o.la)], d := o.d, f := fun l => f (arg l 0) }

/-- Wide immediates: no source, or the destination. -/
def wide (d : BitVec 7) (readsD : Bool) (f : Word → Word) : Option VecForm :=
  if isUni d then none
  else some { reads := if readsD then [(d, false)] else [], d := d, f := fun l => (f (arg l 0), 0) }

/-- A 16-bit form: vD is the first source and the destination, vB the second (R70). -/
def half (b d : BitVec 5) (f : Word → Word → Word × Flags) : Option VecForm :=
  some { reads := [(d.zeroExtend 7, false), (b.zeroExtend 7, false)], d := d.zeroExtend 7, f := fun l => f (arg l 0) (arg l 1) }

/-- The integer instructions with a vector destination, and what they compute (R152 to R169, R70). -/
def intForm : Instr → Option VecForm
  | .add f o => two o fun x y => (addV' f x y, 0)
  | .sub f o => two o fun x y => (subV f x y, 0)
  | .mul f o => two o fun x y => (mulV' f x y, 0)
  | .mad o => three o fun x y d => (x * y + d, 0)
  | .min f o => two o fun x y => (minV f x y, 0)
  | .max f o => two o fun x y => (maxV f x y, 0)
  | .land o => two o fun x y => (x &&& y, 0)
  | .lor o => two o fun x y => (x ||| y, 0)
  | .lxor o => two o fun x y => (x ^^^ y, 0)
  | .landn o => two o fun x y => (x &&& ~~~y, 0)
  | .shl o => two o fun x y => (x <<< (y.toNat % 32), 0)
  | .shr o => two o fun x y => (x >>> (y.toNat % 32), 0)
  | .sar o => two o fun x y => (x.sshiftRight (y.toNat % 32), 0)
  | .rot o => two o fun x y => (x.rotateRight (y.toNat % 32), 0)
  | .popc o => one o fun x => (popcV x, 0)
  | .clz o => one o fun x => (clzV x, 0)
  | .brev o => one o fun x => (x.reverse, 0)
  | .ffs o => one o fun x => (ffsV x, 0)
  | .bfeN o => two o fun x y => (bfeV false x y, 0)
  | .bfeS o => two o fun x y => (bfeV true x y, 0)
  | .bfi o => three o fun x y d => (bfiV x y d, 0)
  | .addi imm o => one o fun x => (x + imm.signExtend 32, 0)
  | .andi imm o => one o fun x => (x &&& imm.zeroExtend 32, 0)
  | .ori imm o => one o fun x => (x ||| imm.zeroExtend 32, 0)
  | .xori imm o => one o fun x => (x ^^^ imm.zeroExtend 32, 0)
  | .andni imm o => one o fun x => (x &&& ~~~(imm.zeroExtend 32), 0)
  | .shli n o => one o fun x => (x <<< n.toNat, 0)
  | .shri n o => one o fun x => (x >>> n.toNat, 0)
  | .sari n o => one o fun x => (x.sshiftRight n.toNat, 0)
  | .roti n o => one o fun x => (x.rotateRight n.toNat, 0)
  | .movw imm d => wide d false fun _ => imm.signExtend 32
  | .movh imm d => wide d true (movhV imm)
  | .lea f o => two o fun x y => (x + (y <<< f.toNat), 0)
  | .cvti f o => one o fun x => (cvtiV f x, 0)
  | .idot4 f o => three o fun x y d => (u32 (idotV 4 false f x y d).1, (idotV 4 false f x y d).2)
  | .idot4s f o => three o fun x y d => (u32 (idotV 4 true f x y d).1, (idotV 4 true f x y d).2)
  | .idot8 f o => three o fun x y d => (u32 (idotV 8 false f x y d).1, (idotV 8 false f x y d).2)
  | .idot8s f o => three o fun x y d => (u32 (idotV 8 true f x y d).1, (idotV 8 true f x y d).2)
  | .movH b d => if b = d then none
      else some { reads := [(b.zeroExtend 7, false), (b.zeroExtend 7, false)], d := d.zeroExtend 7, f := fun l => (arg l 0 ||| arg l 1, 0) }
  | .addH b d => half b d fun x y => (x + y, 0)
  | .subH b d => half b d fun x y => (x - y, 0)
  | .mulH b d => half b d fun x y => (x * y, 0)
  | .andH b d => half b d fun x y => (x &&& y, 0)
  | .orH b d => half b d fun x y => (x ||| y, 0)
  | .xorH b d => half b d fun x y => (x ^^^ y, 0)
  | .shlH b d => half b d fun x y => (x <<< (y.toNat % 32), 0)
  | .shrH b d => half b d fun x y => (x >>> (y.toNat % 32), 0)
  | .sarH b d => half b d fun x y => (x.sshiftRight (y.toNat % 32), 0)
  | .minH b d => half b d fun x y => (if x.toInt ≤ y.toInt then x else y, 0)
  | .maxH b d => half b d fun x y => (if x.toInt ≤ y.toInt then y else x, 0)
  | _ => none

/-- The floating-point and packed instructions, and what they compute under FRM and FTZ (R197 to R210). -/
def floatForm (m : BitVec 2) (z : Bool) : Instr → Option VecForm
  | .fadd o => two o fun x y => (u32 (faddW m z x y).1, (faddW m z x y).2)
  | .fsub o => two o fun x y => (u32 (fsubW m z x y).1, (fsubW m z x y).2)
  | .fmul o => two o fun x y => (u32 (fmulW m z x y).1, (fmulW m z x y).2)
  | .ffma o => three o fun x y d => let r := fmaV m z false false (fp z x) (fp z y) (fp z d); (u32 r.1, r.2)
  | .ffms o => three o fun x y d => let r := fmaV m z false true (fp z x) (fp z y) (fp z d); (u32 r.1, r.2)
  | .fnma o => three o fun x y d => let r := fmaV m z true false (fp z x) (fp z y) (fp z d); (u32 r.1, r.2)
  | .fmin o => two o fun x y => (u32 (minmaxV false (fp z x) (fp z y)).1, (minmaxV false (fp z x) (fp z y)).2)
  | .fmax o => two o fun x y => (u32 (minmaxV true (fp z x) (fp z y)).1, (minmaxV true (fp z x) (fp z y)).2)
  | .frnd f o => one o fun x => (u32 (frndV f (fp z x)).1, (frndV f (fp z x)).2)
  | .fspec fn o => one o fun x => (u32 (fspec fn z x).1, (fspec fn z x).2)
  | .cvtf f code o => one o fun x => (u32 (cvtf f z code.toNat x).1, (cvtf f z code.toNat x).2)
  | .fdot f o => three o fun x y d => (u32 (fdotV z f x y d).1, (fdotV z f x y d).2)
  | .pack f o => if f.toNat < 2 then two o fun x y => (u32 (packV m z f x y 0).1, (packV m z f x y 0).2)
      else three o fun x y d => (u32 (packV m z f x y d).1, (packV m z f x y d).2)
  | .unpack f o => two o fun x y => (u32 (unpackV z f x y).1, (unpackV z f x y).2)
  | .fscale f o => two o fun x y => (u32 (fscaleV m z f x y).1, (fscaleV m z f x y).2)
  | .faddH b d => half b d fun x y => (u32 (faddW m z x y).1, (faddW m z x y).2)
  | .fsubH b d => half b d fun x y => (u32 (fsubW m z x y).1, (fsubW m z x y).2)
  | .fmulH b d => half b d fun x y => (u32 (fmulW m z x y).1, (fmulW m z x y).2)
  | .fmaxH b d => half b d fun x y => (u32 (minmaxV true (fp z x) (fp z y)).1, (minmaxV true (fp z x) (fp z y)).2)
  | _ => none

/-- What a lane of a form reads. -/
def VecForm.args (r : VecForm) (g : Group) (l : Fin 32) : List Word := r.reads.map fun p => (g.rdLane l p.1).1

/-- The form's registers are free, its rows fit, and no lane of the issue raises a flag that FPEN enables (R48, R44, R105). -/
def VecForm.Ready (r : VecForm) (s : State) (g : Group) : Prop :=
  VecFree s g (cohort s) (r.reads.map (·.1)) [r.d] ∧ VecRoom g (cohort s) (g.freesOf r.reads) [rotName g.rwin r.d.toNat] ∧
  ∀ l ∈ cohort s, g.trapFlags (r.f (r.args g l)).2 = 0

/-- The form has had its effect: every lane of the issue holds the result of its own values, the flags of all lanes are raised
together, and UNDEF where a row that was never written was read (R8, R45, R46, R104). -/
def VecForm.Done (r : VecForm) (s t : State) (g : Group) : Prop :=
  VecDone s t g (g.freesOf r.reads) (rotName g.rwin r.d.toNat) (fun l => (r.f (r.args g l)).1)
    ((cohort s).foldl (fun a l => a ||| (r.f (r.args g l)).2) 0)
    ((cohort s).any fun l => r.reads.any fun p => (g.rdLane l p.1).2)

/-- An instruction whose destination is uniform: the uniform sources, the destination and the 64-bit result (R67). -/
structure UniForm where
  reads : List (BitVec 7)
  d : BitVec 7
  f : List DWord → DWord

def uni2 (o : A3) (f : DWord → DWord → DWord) : Option UniForm :=
  if isUni o.d then some { reads := [o.a, o.b], d := o.d, f := fun l => f (arg l 0) (arg l 1) } else none

def uni3 (o : A3) (f : DWord → DWord → DWord → DWord) : Option UniForm :=
  if isUni o.d then some { reads := [o.a, o.b, o.d], d := o.d, f := fun l => f (arg l 0) (arg l 1) (arg l 2) } else none

def uni1 (o : A2) (f : DWord → DWord) : Option UniForm :=
  if isUni o.d then some { reads := [o.a], d := o.d, f := fun l => f (arg l 0) } else none

/-- The integer instructions with a uniform destination (R67, R152 to R168). -/
def uniForm : Instr → Option UniForm
  | .add f o => uni2 o (addV' f)
  | .sub f o => uni2 o (subV f)
  | .mul f o => uni2 o (mulV' f)
  | .mad o => uni3 o fun x y d => x * y + d
  | .min f o => uni2 o (minV f)
  | .max f o => uni2 o (maxV f)
  | .land o => uni2 o (· &&& ·)
  | .lor o => uni2 o (· ||| ·)
  | .lxor o => uni2 o (· ^^^ ·)
  | .landn o => uni2 o fun x y => x &&& ~~~y
  | .shl o => uni2 o fun x y => x <<< (y.toNat % 64)
  | .shr o => uni2 o fun x y => x >>> (y.toNat % 64)
  | .sar o => uni2 o fun x y => x.sshiftRight (y.toNat % 64)
  | .rot o => uni2 o fun x y => x.rotateRight (y.toNat % 64)
  | .popc o => uni1 o popcV
  | .clz o => uni1 o clzV
  | .brev o => uni1 o (·.reverse)
  | .ffs o => uni1 o ffsV
  | .bfeN o => uni2 o (bfeV false)
  | .bfeS o => uni2 o (bfeV true)
  | .bfi o => uni3 o bfiV
  | .addi imm o => uni1 o (· + imm.signExtend 64)
  | .andi imm o => uni1 o (· &&& imm.zeroExtend 64)
  | .ori imm o => uni1 o (· ||| imm.zeroExtend 64)
  | .xori imm o => uni1 o (· ^^^ imm.zeroExtend 64)
  | .andni imm o => uni1 o (· &&& ~~~(imm.zeroExtend 64))
  | .shli n o => uni1 o (· <<< n.toNat)
  | .shri n o => uni1 o (· >>> n.toNat)
  | .sari n o => uni1 o (·.sshiftRight n.toNat)
  | .roti n o => uni1 o (·.rotateRight n.toNat)
  | .movw imm d => if isUni d then some { reads := [], d := d, f := fun _ => imm.signExtend 64 } else none
  | .movh imm d => if isUni d then some { reads := [d], d := d, f := fun l => movhV imm (arg l 0) } else none
  | .movx imm d => if isUni d then some { reads := [d], d := d, f := fun l => movxV imm (arg l 0) } else none
  | .lea f o => uni2 o fun x y => x + (y <<< f.toNat)
  | .cvti f o => uni1 o (cvtiV f)
  | _ => none

/-- The group and uniform registers a form needs are there and free. -/
def UniForm.Ready (r : UniForm) (s : State) (g : Group) : Prop := UniFree s g (r.reads.map uniIdx) [uniIdx r.d]

end Sys2Proof.Claim

open Sys2Proof Sys2Proof.Machine Sys2Proof.Claim

/-- Every integer instruction with a vector destination completes in every lane of the issue with its value (R152 to R169, R70), and
leaves everything else (R8, R45, R46, R68). -/
def Obligations.IntegerVectorCompletes : Prop :=
  ∀ (i : Instr) (r : VecForm) (s : State) (g : Machine.Group), intForm i = some r → Issues s g → r.Ready s g →
    ∃ t, exec i s = .next t ∧ r.Done s t g

/-- The same for the integer instructions with a uniform destination: once for the group, on 64-bit values (R67). -/
def Obligations.IntegerUniformCompletes : Prop :=
  ∀ (i : Instr) (r : UniForm) (s : State) (g : Machine.Group), uniForm i = some r → Issues s g → r.Ready s g →
    ∃ t, exec i s = .next t ∧ UniDone s t g (uniIdx r.d) (r.f (r.reads.map fun x => g.rdW (uniIdx x)))

/-- Every floating-point and packed instruction completes in every lane with its value and its flags (R197 to R210, R70), while FPEN
enables none of the flags it raises (R105). -/
def Obligations.FloatVectorCompletes : Prop :=
  ∀ (i : Instr) (r : VecForm) (s : State) (g : Machine.Group), floatForm g.frm g.ftz i = some r → Issues s g → r.Ready s g →
    ∃ t, exec i s = .next t ∧ r.Done s t g


namespace Sys2Proof.Claim

/-- A compare has set predicate `k` of each lane of the issue to `val` and raised `fl` and UNDEF: the lane's other predicates hold what
they held, the rows of `frees` are gone, and nothing else has changed but the bookkeeping of rows. -/
def PredDone (s t : State) (g : Machine.Group) (frees : List Nat) (k : Nat) (val : Fin 32 → Bool) (fl : Flags) (undef : Bool) : Prop :=
  ∃ g', t = setGroup s s.cur.group g' ∧
    (∀ l ∈ cohort s,
      g'.threads[l] = { g.threads[l] with v := g'.threads[l].v, k := g'.threads[l].k, pc := s.cur.next, wait := none } ∧
      (∀ m, mget g'.threads[l].v m = if m ∈ frees then none else mget g.threads[l].v m) ∧
      ∀ j, j < 8 → g'.threads[l].k.getLsbD j = if j = k then val l else g.threads[l].k.getLsbD j) ∧
    (∀ l, l ∉ cohort s → g'.threads[l] = g.threads[l]) ∧
    g'.gstat = g.gstat ||| Flags.toGstat fl ||| gUndef undef ∧
    g' = { g with threads := g'.threads, gstat := g'.gstat, lastRead := g'.lastRead, spilled := g'.spilled, wantFill := g'.wantFill,
                  badRegs := g'.badRegs }

/-- The marked fields of two sources. -/
def marks2 (a b : BitVec 7) (la lb : Bool) : List (BitVec 7 × Bool) := [(a, la), (b, lb)]

/-- Whether a lane of the issue reads a row that was never written. -/
def anyUndef (s : State) (g : Machine.Group) (reads : List (BitVec 7 × Bool)) : Bool :=
  (cohort s).any fun l => reads.any fun p => (g.rdLane l p.1).2

/-- Two sources free, and no destination row. -/
def CmpReady (s : State) (g : Machine.Group) (o : CmpOps) (fl : Word → Word → Flags) : Prop :=
  VecFree s g (cohort s) [o.a, o.b] [] ∧ ∀ l ∈ cohort s, g.trapFlags (fl (g.rdLane l o.a).1 (g.rdLane l o.b).1) = 0

/-- The issue of a lane operation: every live thread of the group (R56). -/
def whole (s : State) (g : Machine.Group) : State := { s with cur := { s.cur with mask := g.liveMask } }

/-- Two rows written, the result in `n` and a second value in `n'`, and UNDEF raised where a row was never written; nothing else has
changed but the bookkeeping of rows. -/
def TwoRows (s t : State) (g : Machine.Group) (frees : List Nat) (n n' : Nat) (v v' : Word) (undef : Bool) : Prop :=
  ∃ g', t = setGroup s s.cur.group g' ∧
    (∀ l ∈ cohort s, g'.threads[l] = { g.threads[l] with v := g'.threads[l].v, pc := s.cur.next, wait := none } ∧
      ∀ m, mget g'.threads[l].v m = if m = n' then some v' else if m = n then some v
        else if m ∈ frees then none else mget g.threads[l].v m) ∧
    (∀ l, l ∉ cohort s → g'.threads[l] = g.threads[l]) ∧
    g'.gstat = g.gstat ||| Flags.toGstat 0 ||| gUndef undef ∧
    g' = { g with threads := g'.threads, gstat := g'.gstat, lastRead := g'.lastRead, spilled := g'.spilled, wantFill := g'.wantFill,
                  badRegs := g'.badRegs }

end Sys2Proof.Claim

open Sys2Proof Sys2Proof.Machine Sys2Proof.Claim

/-- CMP and FCMP set the named predicate of every lane of the issue, ANDed or ORed with its old value as f says (R171, R203); SEL writes
the source that the lane's predicate selects (R172). -/
def Obligations.CompareSelectComplete : Prop :=
  (∀ (o : CmpOps) (s : State) (g : Machine.Group), Issues s g → CmpReady s g o (fun _ _ => 0) →
    ∃ t, exec (.cmp o) s = .next t ∧ PredDone s t g (g.freesOf (marks2 o.a o.b o.la o.lb)) o.k.toNat
      (fun l => predMix o.f (g.threads[l].k.getLsbD o.k.toNat) (cmpCond o.cond (g.rdLane l o.a).1 (g.rdLane l o.b).1))
      0 (anyUndef s g (marks2 o.a o.b o.la o.lb))) ∧
  (∀ (o : CmpOps) (s : State) (g : Machine.Group), Issues s g →
    CmpReady s g o (fun x y => (fcmpV o.cond (fp g.ftz x) (fp g.ftz y)).2) →
    ∃ t, exec (.fcmp o) s = .next t ∧ PredDone s t g (g.freesOf (marks2 o.a o.b o.la o.lb)) o.k.toNat
      (fun l => predMix o.f (g.threads[l].k.getLsbD o.k.toNat)
        (fcmpV o.cond (fp g.ftz (g.rdLane l o.a).1) (fp g.ftz (g.rdLane l o.b).1)).1)
      ((cohort s).foldl (fun a l => a ||| (fcmpV o.cond (fp g.ftz (g.rdLane l o.a).1) (fp g.ftz (g.rdLane l o.b).1)).2) 0)
      (anyUndef s g (marks2 o.a o.b o.la o.lb))) ∧
  (∀ (f : BitVec 2) (o : A3) (s : State) (g : Machine.Group), Issues s g → isUni o.d = false →
    VecFree s g (cohort s) [o.a, o.b] [o.d] → VecRoom g (cohort s) (g.freesOf (marks2 o.a o.b o.la o.lb)) [rotName g.rwin o.d.toNat] →
    ∃ t, exec (.sel f o) s = .next t ∧ VecDone s t g (g.freesOf (marks2 o.a o.b o.la o.lb)) (rotName g.rwin o.d.toNat)
      (fun l => if g.threads[l].k.getLsbD f.toNat then (g.rdLane l o.a).1 else (g.rdLane l o.b).1)
      0 (anyUndef s g (marks2 o.a o.b o.la o.lb)))

/-- LSHF, LRED and LSCAN complete for every live thread of the group once all of them have reached the instruction (R56, R178 to R180). -/
def Sys2Proof.Claim.LaneArithmeticCompletes : Prop :=
  ∀ (f : BitVec 2) (o : A3) (s : State) (g : Machine.Group), Issues s g → converged g s.cur = true → isUni o.d = false →
    (VecFree (whole s g) g (cohort (whole s g)) [o.a, o.b] [o.d] →
      VecRoom g (cohort (whole s g)) (g.freesOf (marks2 o.a o.b o.la o.lb)) [rotName g.rwin o.d.toNat] →
      (∃ t, exec (.lshf f o) s = .next t ∧
        VecDone (whole s g) t g (g.freesOf (marks2 o.a o.b o.la o.lb)) (rotName g.rwin o.d.toNat)
          (fun l => arg (laneVals g o.a (if f = 3 then laneIdv g o.b else 0)) (lshfSrc f l (g.rdLane l o.b).1)) 0
          (anyUndef (whole s g) g (marks2 o.a o.b o.la o.lb))) ∧
      (∃ t, exec (.lscan f o) s = .next t ∧
        VecDone (whole s g) t g (g.freesOf (marks2 o.a o.b o.la o.lb)) (rotName g.rwin o.d.toNat)
          (fun l => lscanV f (laneVals g o.a (laneIdv g o.b)) l) 0 (anyUndef (whole s g) g (marks2 o.a o.b o.la o.lb))) ∧
      (f ≠ 3 → ∃ t, exec (.lred f o) s = .next t ∧
        VecDone (whole s g) t g (g.freesOf (marks2 o.a o.b o.la o.lb)) (rotName g.rwin o.d.toNat)
          (fun _ => arg (lredV f (laneVals g o.a (laneIdv g o.b))) 0) 0 (anyUndef (whole s g) g (marks2 o.a o.b o.la o.lb)))) ∧
    (isUni (o.d + 1) = false → VecFree (whole s g) g (cohort (whole s g)) [o.a, o.b] [o.d, o.d + 1] →
      VecRoom g (cohort (whole s g)) (g.freesOf (marks2 o.a o.b o.la o.lb)) [rotName g.rwin o.d.toNat, rotName g.rwin (o.d + 1).toNat] →
      ∃ t, exec (.lred 3 o) s = .next t ∧
        TwoRows (whole s g) t g (g.freesOf (marks2 o.a o.b o.la o.lb)) (rotName g.rwin o.d.toNat) (rotName g.rwin (o.d + 1).toNat)
          (arg (lredV 3 (laneVals g o.a (laneIdv g o.b))) 0) (arg (lredV 3 (laneVals g o.a (laneIdv g o.b))) 1)
          (anyUndef (whole s g) g (marks2 o.a o.b o.la o.lb)))

/-- VOTE completes for every live thread of the group: the ballot in a q register, any and all in a predicate, the count in a row
(R181). -/
def Sys2Proof.Claim.VoteCompletes : Prop :=
  ∀ (k : BitVec 3) (d : BitVec 7) (s : State) (g : Machine.Group), Issues s g → converged g s.cur = true →
    (exec (.vote 0 k d) s = .next (done (whole s g) { g with q := g.q.set! (d.toNat % 8) (ballotOf (voteVals g k.toNat false)) })) ∧
    (exec (.vote 1 k d) s = .next (done (whole s g) (g.onLanes g.liveMask fun _ t =>
      { t with k := setBit8 t.k (d.toNat % 8) ((voteVals g k.toNat false).any id) }))) ∧
    (exec (.vote 2 k d) s = .next (done (whole s g) (g.onLanes g.liveMask fun _ t =>
      { t with k := setBit8 t.k (d.toNat % 8) ((voteVals g k.toNat true).all id) }))) ∧
    (isUni d = false → VecFree (whole s g) g (cohort (whole s g)) [] [d] → VecRoom g (cohort (whole s g)) [] [rotName g.rwin d.toNat] →
      ∃ t, exec (.vote 3 k d) s = .next t ∧ VecDone (whole s g) t g [] (rotName g.rwin d.toNat)
        (fun _ => BitVec.ofNat 32 ((voteVals g k.toNat false).filter id).length) 0 false)

/-- The lane operations complete for every live thread of the group: LSHF, LRED, LSCAN and VOTE (R56, R178 to R181). -/
def Obligations.LaneOperationsComplete : Prop := Claim.LaneArithmeticCompletes ∧ Claim.VoteCompletes

/-- Branches inside an overlay go to their target when it lies in the image: BR and CALL with every thread of the issue, BRC with those
whose predicate differs from the sense bit while the others go on, BRLOOP until its counter reaches 0; CALL pushes a return point,
BRLOOP rotates the window (R76, R173 to R176, R49). -/
def Obligations.BranchesComplete : Prop :=
  ∀ (off : BitVec 18) (s : State) (g : Machine.Group), Issues s g →
    (0 ≤ branchTarget s.cur off → branchTarget s.cur off < imageSize s g.ctx s.cur.ov.toNat →
      exec (.br off) s = .next (setGroup s s.cur.group (g.goTo s.cur.mask (BitVec.ofInt 32 (branchTarget s.cur off)))) ∧
      (∀ sense k, exec (.brc off sense k) s = .next (if takenMask s g sense k = 0 then done s g
        else setGroup s s.cur.group ((g.advance s.cur).goTo (takenMask s g sense k) (BitVec.ofInt 32 (branchTarget s.cur off))))) ∧
      (g.stack.length < 256 → exec (.call off) s =
        .next (setGroup s s.cur.group ((g.push s.cur).goTo s.cur.mask (BitVec.ofInt 32 (branchTarget s.cur off))))) ∧
      (∀ w : BitVec 5, UniFree s g [w.toNat] [w.toNat] → g.rdW w.toNat ≠ 1 → exec (.brloop off w) s =
        .next (setGroup s s.cur.group ({ g.wrW w.toNat (g.rdW w.toNat - 1) with rwin := rotated g.rwin }.goTo s.cur.mask
          (BitVec.ofInt 32 (branchTarget s.cur off)))))) ∧
    (∀ w : BitVec 5, UniFree s g [w.toNat] [w.toNat] → g.rdW w.toNat = 1 →
      ∃ t, exec (.brloop off w) s = .next t ∧ UniDone s t g w.toNat 0)

/-- EXIT, RTH, NRET, YIELD, NOP and RET complete: EXIT takes the threads of the issue out of the group and the last one publishes at
.sys, in handler mode it kills the group; RTH leaves handler mode; NRET leaves the notice handler; YIELD and NOP go on; RET returns
through the top of the return stack to a resident overlay (R182 to R187, R332). TRAP raises cause 0x08 with its code in HADDR, which is
its effect (R183).
What `leftNotice` says of an EXIT, that NCAUSE is 0 once no live thread stands in the notice handler and that a Publish held aside goes on, is
the model's choice (log entries 21, 97): R185 speaks of NRET alone. -/
def Obligations.FlowCompletes : Prop :=
  ∀ (s : State) (g : Machine.Group), Issues s g →
    (exec .nop s = .next (done s g)) ∧ (exec .yield s = .next (done s g)) ∧
    (g.handling = true → exec .exit s = .next (killGroup s s.cur.group)) ∧
    (g.handling = false →
      let g' := (g.onLanes s.cur.mask fun _ t => { t with live := false, inNotice := false, wait := none }).leftNotice
      exec .exit s = .next (if g'.liveMask = 0 then startPublish (setGroup s s.cur.group g') s.cur.group .sys none true
        else setGroup s s.cur.group g')) ∧
    (g.handling = true → exec .rth s =
      .next (enterOverlays (setGroup s s.cur.group { g.leaveHandler with st := .active }) s.cur.group)) ∧
    (g.ncause ≠ 0 → exec .nret s =
      .next (enterOverlays (setGroup s s.cur.group (g.onLanes s.cur.mask fun _ t => t.fromNotice).leftNotice) s.cur.group)) ∧
    (∀ code, exec (.trap code) s =
      .next (takeTrap s s.cur.group { cause := 8, haddr := code.zeroExtend 64, access := 0 } s.cur.mask s.cur)) ∧
    (∀ e l r, g.stack = e :: l → codeOf (coreOf s g.core) g.ctx e.ov.toNat = some r →
      exec .ret s = .next (enterOv s s.cur.group (g.popFor s.cur.mask) s.cur.mask r e.off.toNat false))

/-- The overlay instructions complete (R329 to R335): OVLOAD finds its overlay or starts its load and writes its token; OVCALL and OVJUMP
enter a resident overlay at an entry of its table, by a token that is current or by a stale one, which they write anew; OVPIN pins a
resident overlay and writes its token, OVUNPIN takes the pin away, OVDROP lets an idle one go, OVQUERY writes the state word. OVCALL,
OVJUMP and RET wait while no copy of the overlay is complete, the load started where it can be. -/
def Sys2Proof.Claim.OverlayInstructionsComplete : Prop :=
  (∀ (d : BitVec 5) (idx : BitVec 7) (s : State) (g : Machine.Group) (k : Kernel) (o : Overlay), Issues s g → UniFree s g [] [d.toNat] →
    mget s.kernels g.kernel = some k → k.overlays[idx.toNat]? = some o →
    (∀ r, lookupRes (coreOf s g.core) g.ctx (k.base + idx.toNat) = some r →
      ∃ t, exec (.ovload d idx) s = .next t ∧ UniDone s t g d.toNat (tokenOf r)) ∧
    (∀ s' r, lookupRes (coreOf s g.core) g.ctx (k.base + idx.toNat) = none →
      findRes (coreOf s g.core) g.ctx (k.base + idx.toNat) true = none →
      allocate s g.core g.ctx (k.base + idx.toNat) o.slots (handleOf g) = some s' →
      findRes (coreOf s' g.core) g.ctx (k.base + idx.toNat) false = some r →
      exec (.ovload d idx) s = .next (done s' (g.wrW d.toNat (tokenOf r)))) ∧
    (lookupRes (coreOf s g.core) g.ctx (k.base + idx.toNat) = none →
      ((findRes (coreOf s g.core) g.ctx (k.base + idx.toNat) true).isSome = true ∨
        allocate s g.core g.ctx (k.base + idx.toNat) o.slots (handleOf g) = none) →
      ∃ t, exec (.ovload d idx) s = .next t ∧ UniDone s t g d.toNat (nullToken (k.base + idx.toNat)))) ∧
  (∀ (t entry) (s : State) (g : Machine.Group) (o : Nat × Kernel × Overlay) (r : Residency), Issues s g → UniFree s g [t.toNat] [t.toNat] →
    overlayOf s g.ctx (slice (g.rdW t.toNat) 0 16) = some o → entry.toNat < o.2.2.entries →
    currentRes (coreOf s g.core) g.ctx (g.rdW t.toNat) = some r →
    (r.st = .resident →
      (g.stack.length < 256 → exec (.ovcall t entry) s =
        .next (enterOv s s.cur.group (g.push s.cur) s.cur.mask r (entryWord r.code entry.toNat) false)) ∧
      (exec (.ovjump t entry) s =
        .next (enterOv s s.cur.group g s.cur.mask r (entryWord r.code entry.toNat) false))) ∧
    (r.st ≠ .resident → ∀ w : Bool → Wait,
      (∀ call, w call = .overlay (BitVec.ofNat 16 (slice (g.rdW t.toNat) 0 16)) (.enter call entry.toNat s.cur.next none s.tick)) →
      (g.stack.length < 256 → exec (.ovcall t entry) s = .next (holdCohort s (w true))) ∧
      exec (.ovjump t entry) s = .next (holdCohort s (w false)))) ∧
  (∀ (t entry) (s : State) (g : Machine.Group) (o : Nat × Kernel × Overlay), Issues s g → UniFree s g [t.toNat] [t.toNat] →
    overlayOf s g.ctx (slice (g.rdW t.toNat) 0 16) = some o → entry.toNat < o.2.2.entries →
    currentRes (coreOf s g.core) g.ctx (g.rdW t.toNat) = none →
    (∀ r g', lookupRes (coreOf s g.core) g.ctx (slice (g.rdW t.toNat) 0 16) = some r → r.st = .resident → g' = g.wrW t.toNat (tokenOf r) →
      (g.stack.length < 256 → exec (.ovcall t entry) s =
        .next (enterOv (setGroup s s.cur.group g') s.cur.group (g'.push s.cur) s.cur.mask r (entryWord r.code entry.toNat) false)) ∧
      (exec (.ovjump t entry) s =
        .next (enterOv (setGroup s s.cur.group g') s.cur.group g' s.cur.mask r (entryWord r.code entry.toNat) false))) ∧
    (∀ s' r (w : Bool → Wait), needOverlay s g.core g.ctx (slice (g.rdW t.toNat) 0 16) s.cur.group = (s', false) →
      lookupRes (coreOf s' g.core) g.ctx (slice (g.rdW t.toNat) 0 16) = some r → r.st ≠ .resident →
      (∀ call, w call = .overlay (BitVec.ofNat 16 (slice (g.rdW t.toNat) 0 16)) (.enter call entry.toNat s'.cur.next none s'.tick)) →
      let u := setGroup s' s.cur.group (g.wrW t.toNat (tokenOf r))
      (g.stack.length < 256 → exec (.ovcall t entry) s = .next (holdCohort u (w true))) ∧
      exec (.ovjump t entry) s = .next (holdCohort u (w false))) ∧
    (∀ s' (w : Bool → Wait), needOverlay s g.core g.ctx (slice (g.rdW t.toNat) 0 16) s.cur.group = (s', false) →
      lookupRes (coreOf s' g.core) g.ctx (slice (g.rdW t.toNat) 0 16) = none →
      (∀ call, w call = .overlay (BitVec.ofNat 16 (slice (g.rdW t.toNat) 0 16)) (.enter call entry.toNat s.cur.next (some t) s.tick)) →
      (g.stack.length < 256 → exec (.ovcall t entry) s = .next (holdCohort s' (w true))) ∧
      exec (.ovjump t entry) s = .next (holdCohort s' (w false)))) ∧
  (∀ (s s' : State) (g : Machine.Group) (e l), Issues s g → g.stack = e :: l → needOverlay s g.core g.ctx e.ov.toNat s.cur.group = (s', false) →
    codeOf (coreOf s' g.core) g.ctx e.ov.toNat = none →
    exec .ret s = .next (holdCohort s' (.overlay e.ov (.ret e.off g.stack.length)))) ∧
  (∀ (t : BitVec 5) (s : State) (g : Machine.Group) (o : Nat × Kernel × Overlay), Issues s g → UniFree s g [t.toNat] [t.toNat] →
    overlayOf s g.ctx (slice (g.rdW t.toNat) 0 16) = some o →
    (∀ tid tm r, issuerTeam s g = .ok (tid, tm) →
      (slice (g.rdW t.toNat) 0 16 ∈ pinsOf s tid tm ∨ (pinsOf s tid tm).length < 16) →
      findRes (coreOf s g.core) g.ctx (slice (g.rdW t.toNat) 0 16) false = some r → r.st = .resident →
      exec (.ovpin t) s = .next (done (setTeam s tid
          { tm with pins := if slice (g.rdW t.toNat) 0 16 ∈ tm.pins then tm.pins else tm.pins ++ [slice (g.rdW t.toNat) 0 16] })
        (g.wrW t.toNat (tokenOf r)))) ∧
    (∀ tid tm, issuerTeam s g = .ok (tid, tm) → exec (.ovunpin t) s =
      .next (done (setTeam s tid { tm with pins := tm.pins.filter fun x => decide (x ≠ slice (g.rdW t.toNat) 0 16) }) g)) ∧
    (exec (.ovdrop t) s = .next (done (setCore s g.core (dropOv s g.core g.ctx (slice (g.rdW t.toNat) 0 16))) g)) ∧
    (∀ d : BitVec 5, UniFree s g [t.toNat] [d.toNat] →
      ∃ t', exec (.ovquery d t) s = .next t' ∧ UniDone s t' g d.toNat (ovWord s g.core g.ctx (g.rdW t.toNat))))


namespace Sys2Proof.Claim

/-- The issuing group's team. -/
def TeamOf (s : State) (g : Machine.Group) (tid : Nat) (t : Team) : Prop := g.team = some tid ∧ mget s.teams tid = some t

/-- The sequencer of the issuing core has taken an operation at the end of its queue, and the issue has gone on (R215). -/
def queued (s : State) (g : Machine.Group) (tid : Nat) (k : SeqKind) : State :=
  done (setCore s g.core { coreOf s g.core with seq := (coreOf s g.core).seq ++ [SeqOp.start s.fresh s.cur.group tid k] }) g

/-- The sequencer has room and no operation of the team under way writes one of the tiles (R215, R48). -/
def SeqFree (s : State) (g : Machine.Group) (tid : Nat) (tiles : List Nat) : Prop :=
  (coreOf s g.core).seq.length < 8 ∧ tileWritten s g.core tid tiles = false

/-- Masks of MLOOP.M: the low words of the q registers that MASKQ names; every row and column without .M (R220). -/
def loopMask (g : Machine.Group) (m : Bool) (d : Desc) : Word := if m then (g.q[d.maskq.toNat]!).truncate 32 else 0xFFFFFFFF#32

/-- Both operands' lines lie inside the scratchpad (R219). -/
def LinesIn (t : Team) (da db : Desc) (n : Nat) : Prop := outside t (loopParts da n) = none ∧ outside t (loopParts db n) = none

/-- The value a special register gives to an SRD with a uniform destination: that of the lowest live lane (R188). -/
def srdUni (s : State) (g : Machine.Group) (sel : BitVec 7) : DWord := srdVal s g sel ((lowestLane g.liveMask).getD 0)

/-- An access of GSTAT does not wait for operations of the group in the sequencer (R189). -/
def GstatFree (s : State) (g : Machine.Group) (sel : BitVec 7) : Prop := sel = 0x10 → ∀ o ∈ (coreOf s g.core).seq, o.group ≠ s.cur.group

/-- The reserved bits of a 32-bit special register are 0 in a value (R188, R4). -/
def FitsMask (v : DWord) (mask : Word) : Prop := v.toNat < 2 ^ 32 ∧ (v.truncate 32 : Word) &&& ~~~mask = 0

end Sys2Proof.Claim

open Sys2Proof Sys2Proof.Machine Sys2Proof.Claim

/-- The matrix operations complete at issue by entering the sequencer's queue with what they copied: MLOOP, MZERO, MLOAD, MSTORE,
MPROJ.C, MPROJ.S and DRAW (R215, R219, R220, R223, R224, R260, R263). -/
def Obligations.MatrixIssueCompletes : Prop :=
  (∀ (m z : Bool) (cnt : BitVec 5) (tB tA : BitVec 4) (acc : BitVec 6) (s : State) (g : Machine.Group) (tid : Nat) (t : Team),
    Issues s g → TeamOf s g tid t → UniFree s g [cnt.toNat] [] → SeqFree s g tid [acc.toNat] → (g.rdW cnt.toNat).toNat ≤ 65535 →
    compatible (t.tile tA).f (t.tile tB).f = true → LinesIn t (t.tile tA) (t.tile tB) (g.rdW cnt.toNat).toNat →
    ((z = false ∨ m = true) → (t.acct acc.toNat).err = false) →
    exec (.mloop m z cnt tB tA acc) s = .next (queued s g tid (.mloop acc.toNat (t.tile tA) (t.tile tB) (g.rdW cnt.toNat).toNat z
      (loopMask g m (t.tile tA)) (loopMask g m (t.tile tB))))) ∧
  (∀ (acc : BitVec 6) (s : State) (g : Machine.Group) (tid : Nat) (t : Team), Issues s g → TeamOf s g tid t →
    SeqFree s g tid [acc.toNat] → exec (.mzero acc) s = .next (queued s g tid (.mzero acc.toNat))) ∧
  (∀ (acc : BitVec 6) (d : BitVec 4) (s : State) (g : Machine.Group) (tid : Nat) (t : Team), Issues s g → TeamOf s g tid t →
    SeqFree s g tid [acc.toNat] → (t.tile d).f = 15 → t.inRange (t.tile d).base.toNat 4096 = true →
    exec (.mload acc d) s = .next (queued s g tid (.mload acc.toNat (t.tile d)))) ∧
  (∀ (acc : BitVec 6) (d : BitVec 4) (row : Nat) (s : State) (g : Machine.Group) (tid : Nat) (t : Team), Issues s g → TeamOf s g tid t →
    SeqFree s g tid [acc.toNat] → transferRow (t.tile d).f = some row → t.inRange (t.tile d).base.toNat (32 * row) = true →
    (t.acct acc.toNat).err = false → exec (.mstore d acc) s = .next (queued s g tid (.mstore acc.toNat (t.tile d) g.frm))) ∧
  (∀ (acc : BitVec 6) (tA tB menu : BitVec 4) (s : State) (g : Machine.Group) (tid : Nat) (t : Team), Issues s g → TeamOf s g tid t →
    feature s g 2 = true → SeqFree s g tid [acc.toNat] → compatible (t.tile tA).f (t.tile tB).f = true →
    isFloatFmt (t.tile tA).f = true → (t.tile tA).rows ≠ 0 → LinesIn t (t.tile tA) (t.tile tB) (2 ^ menu.toNat) →
    exec (.mprojC acc tA tB menu) s =
      .next (queued s g tid (.mproj false acc.toNat (t.tile tA) (t.tile tB) (2 ^ menu.toNat) g.dcfg)) ∧
    exec (.mprojS acc tA tB menu) s =
      .next (queued s g tid (.mproj true acc.toNat (t.tile tA) (t.tile tB) (2 ^ menu.toNat) g.dcfg))) ∧
  (∀ (d : BitVec 5) (acc : BitVec 6) (e : BitVec 5) (h : Stream) (span : Nat) (s : State) (g : Machine.Group) (tid : Nat) (t : Team),
    Issues s g → TeamOf s g tid t → feature s g 2 = true → UniFree s g [e.toNat] [d.toNat] → span = slice (g.rdW e.toNat) 24 4 + 1 →
    SeqFree s g tid ((List.range span).map (acc.toNat + ·)) → slice (g.rdW e.toNat) 28 4 = 0 → acc.toNat + span ≤ t.accCount →
    spanHeader t ((List.range span).map (acc.toNat + ·)) = some h → (h.sKind = true ∨ span = 1) →
    slice (g.rdW e.toNat) 0 24 % 256 = 0 → t.inRange (slice (g.rdW e.toNat) 0 24) 256 = true →
    (∀ n, n < span → (t.acct (acc.toNat + n)).err = false) →
    exec (.draw d acc e) s = .next (queued s g tid
      (.draw d acc.toNat span (slice (g.rdW e.toNat) 0 24) ((g.rdW e.toNat).extractLsb' 32 32) g.drawKey)))

/-- The instructions on tile descriptors, accumulator rows and the draw configuration complete: TSET, TGET, TCLR, MREAD, MWRITE, MWAIT,
DRAWCFG, DRAWSEED and DELIVER (R214, R225, R226, R259, R267). -/
def Obligations.TileAndDrawStateComplete : Prop :=
  ∀ (s : State) (g : Machine.Group) (tid : Nat) (t : Team), Issues s g → TeamOf s g tid t →
    (∀ (n fld : BitVec 4) (r : BitVec 5), UniFree s g [r.toNat] [] → fieldOk (feature s g 1) fld (g.rdW r.toNat) = true →
      exec (.tset n fld r) s = .next (done (setTeam s tid (t.setTile n ((t.tile n).setField fld (g.rdW r.toNat)))) g)) ∧
    (∀ (d : BitVec 5) (n fld : BitVec 4), UniFree s g [] [d.toNat] →
      ∃ s', exec (.tget d n fld) s = .next s' ∧ UniDone s s' g d.toNat ((t.tile n).field fld)) ∧
    (∀ n : BitVec 4, exec (.tclr n) s = .next (done (setTeam s tid (t.setTile n Desc.zero)) g)) ∧
    (∀ (d : BitVec 7) (acc : BitVec 6) (e : BitVec 5), isUni d = false → tileNamed s g.core tid acc.toNat = false →
      VecFree s g (cohort s) [uniField e] [d] → VecRoom g (cohort s) [] [rotName g.rwin d.toNat] → (t.acct acc.toNat).err = false →
      ∃ s', exec (.mread d acc e) s = .next s' ∧ VecDone s s' g [] (rotName g.rwin d.toNat)
        (fun l => (t.acct acc.toNat).word (slice (g.rdW e.toNat) 0 5) l.val) 0 false) ∧
    (∀ (acc : BitVec 6) (e : BitVec 5) (d : BitVec 7), tileNamed s g.core tid acc.toNat = false →
      VecFree s g (cohort s) [uniField e, d] [] →
      ∃ g' a', exec (.mwrite acc e d) s = .next (done (setTeam s tid (t.setAcct acc.toNat a')) g') ∧ a'.stream = none ∧
        (∀ i j, i < 32 → j < 32 → a'.word i j =
          if h : i = slice (g.rdW e.toNat) 0 5 ∧ j < 32 ∧ s.cur.mask.getLsbD j then (g.rdLane ⟨j, h.2.1⟩ d).1
          else (t.acct acc.toNat).word i j) ∧ g'.threads = g.threads ∧ g'.w = g.w) ∧
    (∀ (all : Bool) (acc : BitVec 6), (∀ o ∈ (coreOf s g.core).seq, o.group = s.cur.group → all = false ∧ acc.toNat ∉ o.kind.names) →
      exec (.mwait all acc) s = .next (done s g)) ∧
    (feature s g 2 = true →
      (∀ r : BitVec 5, UniFree s g [r.toNat] [] → dcfgOk (g.rdW r.toNat) = true →
        exec (.drawcfg r) s = .next (done s { g with dcfg := g.rdW r.toNat })) ∧
      (∀ r : BitVec 5, UniFree s g [r.toNat] [] → (∀ o ∈ (coreOf s g.core).seq, o.group = s.cur.group → o.kind.isDraw = false) →
        exec (.drawseed r) s = .next (done s { g with drawKey := g.rdW r.toNat, drawCtr := 0 })) ∧
      (∀ m tr : BitVec 5, UniFree s g [m.toNat, tr.toNat] [] → (g.rdW tr.toNat).toNat % 256 = 0 →
        ∃ t', exec (.deliver m tr) s = .next (done (setTeam s tid t') g) ∧
          t' = { t with cr := t'.cr, dtable := g.rdW tr.toNat, dtableBy := handleOf g } ∧
          ∀ i : Fin 32, t'.cr[i] = match t.cr[i] with
            | .held tok => if (g.rdW m.toNat).getLsbD i then .pending tok (g.rdW tr.toNat) (handleOf g) none none else .held tok
            | c => c))

/-- SRD reads a special register: a uniform destination takes it once for the group, a vector destination its low word in every lane of
the issue (R188, R189). SWR writes one, while no bit that it must leave 0 is set: GSTAT, FPEN, RWIN, XFER, NTVEC, HCAUSE, HPC, HADDR,
and CSLR and DDTR in context 0 (R49, R188 to R192, R435). -/
def Obligations.SpecialRegistersComplete : Prop :=
  ∀ (sel : BitVec 7) (s : State) (g : Machine.Group), Issues s g → (0x40 ≤ sel.toNat → g.privileged = true) → GstatFree s g sel →
    (∀ d : BitVec 7, isUni d = true → UniFree s g [] [uniIdx d] →
      ∃ t, exec (.srd d sel) s = .next t ∧ UniDone s t g (uniIdx d) (srdUni s g sel)) ∧
    (∀ d : BitVec 7, isUni d = false → VecFree s g (cohort s) [] [d] → VecRoom g (cohort s) [] [rotName g.rwin d.toNat] →
      ∃ t, exec (.srd d sel) s = .next t ∧
        VecDone s t g [] (rotName g.rwin d.toNat) (fun l => (srdVal s g sel l).truncate 32) 0 false) ∧
    (∀ r : BitVec 5, UniFree s g [r.toNat] [] →
      let v := g.rdW r.toNat
      (sel = 0x10 → v &&& ~~~0xF703FF#64 = 0 →
        exec (.swr sel r) s = .next (done s { g with gstat := (g.gstat &&& 0xF00000#64) ||| (v &&& 0x703FF#64) })) ∧
      (sel = 0x11 → FitsMask v 0x3F#32 → exec (.swr sel r) s = .next (done s { g with fpen := v.truncate 32 })) ∧
      (sel = 0x12 → FitsMask v 0x7F#32 → v.toNat / 32 % 4 ≠ 3 → v.toNat % 32 < rwinSpan (v.truncate 32) →
        exec (.swr sel r) s = .next (done s { g with rwin := v.truncate 32 })) ∧
      (sel = 0x13 → FitsMask v 0x1F#32 →
        exec (.swr sel r) s = .next (done s (g.onLanes s.cur.mask fun _ t => { t with xfer := v.truncate 32 }))) ∧
      (sel = 0x16 → FitsMask v 0xFFFFFFFE#32 → exec (.swr sel r) s = .next (done s { g with ntvec := v })) ∧
      (sel = 0x40 → v &&& 0xFFFFE000#64 = 0 → exec (.swr sel r) s = .next (done s { g with hcause := v })) ∧
      (sel = 0x41 → v.toNat < 2 ^ 32 → exec (.swr sel r) s = .next (done s { g with hpc := v })) ∧
      (sel = 0x42 → exec (.swr sel r) s = .next (done s { g with haddr := v })) ∧
      (sel = 0x48 → g.ctx = 0 → FitsMask v 0xFF3F#32 → exec (.swr sel r) s =
        .next (done (setCluster s (clusOf g.core) { clusterOf s (clusOf g.core) with cslr := v.truncate 32 }) g)) ∧
      (sel = 0x49 → g.ctx = 0 → 10 ≤ v.toNat → v.toNat ≤ 100 → exec (.swr sel r) s =
        .next (done (setCluster s (clusOf g.core) { clusterOf s (clusOf g.core) with ddtr := v.truncate 32 }) g)))


namespace Sys2Proof.Claim

/-- The address of a lane of an access (R77): the base register, and the lane's index shifted by the access size. -/
def laneAddr (g : Machine.Group) (o : MemOps) (l : Fin 32) : DWord := addrOf g o.base (g.rdLane l o.x).1 (szLog o.sz)

/-- The address of a uniform access: the low 32 bits of the index register. -/
def uniAddr (g : Machine.Group) (o : MemOps) : DWord := addrOf g o.base ((g.rdW (uniIdx o.x)).truncate 32) (szLog o.sz)

/-- The registers of a vector access are free: the base, the fields read with their marks, the rows written. -/
def MemFree (s : State) (g : Machine.Group) (base : BitVec 5) (reads : List (BitVec 7 × Bool)) (dests : List (BitVec 7)) : Prop :=
  UniFree s g [base.toNat] [] ∧ VecFree s g (cohort s) (reads.map (·.1)) dests ∧
  VecRoom g (cohort s) (g.freesOf reads) (dests.filterMap g.vname)

/-- Scratch ranges that a thread may read, or write, now: nothing spilled, absent or engine-owned, no access of the same line that an
operation of the group in the sequencer has still to make, and no stash sector to fill (R153, R157, R123, R128, R342). -/
def ScratchFree (s : State) (tid : Nat) (t : Team) (store : Bool) (offs : List (Nat × Nat)) : Prop :=
  (∀ p ∈ offs, (∀ l ∈ linesOf p.1 p.2, (t.line l).spilled = false ∧ (t.line l).absent = false ∧ (store = true → (t.line l).engine = false)) ∧
    needsFill t p.1 = false) ∧
  seqPending s t.core s.cur.group tid (offs.flatMap fun p => linesOf p.1 p.2) = false

/-- The fields a vector store reads: its index with its mark, then its data registers. -/
def storeReads (o : MemOps) : List (BitVec 7 × Bool) := (o.x, o.lx) :: (destRegs o.d (szRegs o.sz)).map fun r => (r, false)

/-- The pending units of a uniform store, and of one lane of a vector store: its address and its bytes (R136, R134). -/
def uniPend (s : State) (g : Machine.Group) (o : MemOps) : List Pend :=
  storeUnits (transOf s g 0 (uniAddr g o) .write) (uniAddr g o) (leList (g.rdW (uniIdx o.d)).toNat (szBytes o.sz))

def lanePend (s : State) (g : Machine.Group) (o : MemOps) (l : Fin 32) : List Pend :=
  storeUnits (transOf s g l.val (laneAddr g o l) .write) (laneAddr g o l) (laneData g l (destRegs o.d (szRegs o.sz)) (szBytes o.sz))

/-- A vector instruction without a result row: rows freed, last reads noted, UNDEF where a row was never written (R46, R68). -/
def readOnly (s : State) (g : Machine.Group) (reads : List (BitVec 7 × Bool)) : Machine.Group :=
  g.vecCommit s.tick (cohort s) reads [] fun _ => { vals := [], flags := 0 }

/-- The old value that an atomic answers in a lane, as words (R232). -/
def oldIn (op : BitVec 4) (l : List (Fin 32 × Nat)) (i : Fin 32) : LaneRes := { vals := oldWords op (laneOld l i), flags := 0 }

/-- The old value that the steps of an ATOM hold for a lane. -/
def stepOld (l : List AtomStep) (lane : Nat) : Nat := ((l.find? fun st => decide (st.lane = lane)).bind (·.old)).getD 0

/-- Shift of the index of an atomic (R231). -/
def atomShift (op : BitVec 4) : Nat := if op = 11 then 3 else 2

/-- Address of an atomic's lane. -/
def atomAddr (g : Machine.Group) (op : BitVec 4) (e : BitVec 5) (x : BitVec 7) (l : Fin 32) : DWord :=
  addrOf g e (g.rdLane l x).1 (atomShift op)

/-- Rows that an atomic writes. -/
def atomDests (op : BitVec 4) (d : BitVec 7) : List (BitVec 7) := destRegs d (if op = 11 then 2 else 1)

/-- A group without the addresses that an LDV.M or STV.M of a number has kept while it waited for a peer (R235). -/
def forgetBases (g : Machine.Group) (n : Nat) : Machine.Group := { g with bases := g.bases.filter fun b => decide (b.1 ≠ n) }

/-- Fields an atomic reads. -/
def atomReads (op : BitVec 4) (x d : BitVec 7) : List (BitVec 7 × Bool) := (atomRegs op x d).map fun r => (r, false)

end Sys2Proof.Claim

open Sys2Proof Sys2Proof.Machine Sys2Proof.Claim

/-- The write of a byte that a read must give: the newest in coherence order, forced for the reader, nothing newer seen (R143). -/
def Sys2Proof.Claim.MustRead (s : State) (r : Reader) (pa : Nat) (e : Pub) : Prop :=
  s.events.find? (writesByte · pa) = some e ∧ (∀ e' ∈ s.events, writesByte e' pa = true → e' = e ∨ e'.id < e.id) ∧
  mgetD r.seen pa 0 ≤ e.id ∧ ∃ m, visAt r e = some m ∧ m ≤ r.rho[between e.who r.who]

/-- The value of a global load (R143). Bytes that the group's pending stores hold are the newest of theirs (step 1). Of any other unit of
bytes, where some moment is not before the floor of any of them, each byte is that of a write visible to the group and not older than
its floor, or the initial one, and the group has then seen that write (steps 2 and 3). A byte whose newest write is forced, after a
refresh for one, is that write's. -/
def Sys2Proof.Claim.LoadValues : Prop :=
  (∀ (s : State) (gid : Nat) (g : Machine.Group) (lane : Option Nat) (names : List Nat) (sz : BitVec 3) (a : DWord) (held : Option Nat)
    (bs : List Byte), mget s.groups gid = some g → bs.length = szBytes sz →
    (∀ i, i < szBytes sz → pendByte g (transOf s g (lane.getD 0) a .read) i = bs[i]?) →
    startLoadOp s gid lane names sz a held = { setGroup s gid { g with loads := g.loads ++ [
      { id := s.fresh, lane := lane, names := names, sz := sz, val := some (BitVec.ofNat 128 (leNat bs)), bad := false, addr := a,
        held := held }] } with fresh := s.fresh + 1 }) ∧
  (∀ (s : State) (gid : Nat) (g : Machine.Group) (salt : Nat) (t : Trans) (n : Nat), (∀ i, i < n → pendByte g t i = none) →
    cuts s (g.reader s gid t.key) ((physBytes t n).filterMap id) ≠ [] →
    ∃ w : Nat → Option Pub, ∀ i pa : Nat, (physBytes t n)[i]? = some (some pa) →
      (∀ e, w pa = some e → e ∈ visEvents s (g.reader s gid t.key) pa) ∧
      floorOf s (g.reader s gid t.key) pa ≤ ((w pa).map (·.id)).getD 0 ∧
      (readGroup s gid g true salt t n).1[i]? = some (byteUnder s (g.reader s gid t.key) pa (w pa)) ∧
      mgetD (readGroup s gid g true salt t n).2 pa 0 = ((w pa).map (·.id)).getD 0) ∧
  (∀ (s : State) (gid : Nat) (g : Machine.Group) (lane : Option Nat) (names : List Nat) (sz : BitVec 3) (a : DWord) (held : Option Nat)
    (t : Trans) (e : Nat → Pub), mget s.groups gid = some g → t = transOf s g (lane.getD 0) a .read → t.kind ≠ .remote →
    (∀ i, i < szBytes sz → pendByte g t i = none) →
    (∀ pa, some pa ∈ physBytes t (szBytes sz) → Claim.MustRead s (g.reader s gid t.key) pa (e pa)) →
    ∃ g' ld, mget (startLoadOp s gid lane names sz a held).groups gid = some g' ∧ g'.loads = g.loads ++ [ld] ∧ ld.id = s.fresh ∧
      ld.val = some (BitVec.ofNat 128 (leNat ((physBytes t (szBytes sz)).map fun p => match p with
        | none => 0
        | some pa => byteUnder s (g.reader s gid t.key) pa (some (e pa))))))

/-- A global load whose checks pass completes at issue: its rows are taken, reading 0 until the load returns, and freed as marked, and one
load a lane, in ascending order, is in flight with its value (R228, R229, R44). LDV.M transfers word by word and, with no stop, ends with
XFER 0 (R234, R235). -/
def Sys2Proof.Claim.GlobalLoadsIssue : Prop :=
  (∀ (o : MemOps) (s : State) (g : Machine.Group), Issues s g → isUni o.d = true →
    UniFree s g [o.base.toNat, uniIdx o.x] [uniIdx o.d] → globalTrap s g 0 (uniAddr g o) (szBytes o.sz) .read = none →
    exec (.ld o) s = .next (doneNow (startLoadOp s s.cur.group none [uniIdx o.d] o.sz (uniAddr g o) none))) ∧
  (∀ (o : MemOps) (s : State) (g : Machine.Group), Issues s g → isUni o.d = false →
    MemFree s g o.base [(o.x, o.lx)] (destRegs o.d (szRegs o.sz)) →
    (∀ l ∈ cohort s, globalTrap s g l.val (laneAddr g o l) (szBytes o.sz) .read = none) →
    exec (.ld o) s = .next (doneNow ((cohort s).foldl
      (fun s' l => startLoadOp s' s.cur.group (some l.val) ((destRegs o.d (szRegs o.sz)).filterMap g.vname) o.sz (laneAddr g o l) none)
      (setGroup s s.cur.group (g.vecCommit s.tick (cohort s) [(o.x, o.lx)] (destRegs o.d (szRegs o.sz))
        fun _ => { vals := (destRegs o.d (szRegs o.sz)).map fun _ => 0, flags := 0 }))))) ∧
  (∀ (n : BitVec 4) (e : BitVec 5) (x d : BitVec 7) (s : State) (g g' : Machine.Group), Issues s g →
    MemFree s g e [(x, false)] (destRegs d (n.toNat + 1)) → (∀ l ∈ cohort s, (addrOf g e (g.rdLane l x).1 2).toNat % 4 = 0) →
    transferTag s g = none →
    let r := transferAll s.cur.group s.fresh true d (fun l => addrOf g e (g.rdLane l x).1 2) (fun l => g.threads[l].xfer.toNat)
      (n.toNat + 1) (cohort s) { setGroup s s.cur.group ((g.orFlags 0 ((cohort s).any fun l => (g.rdLane l x).2)).touchNames s.tick
        ([x].filterMap g.vname) ((destRegs d (n.toNat + 1)).filterMap g.vname)) with fresh := s.fresh + 1 }
    mget r.1.groups s.cur.group = some g' → (∀ p ∈ r.2, p.stop = none ∧ p.waits = false) →
    exec (.ldvM n e x d) s = .next (done r.1 ((forgetBases g' s.fresh).onLanes s.cur.mask fun _ t => { t with xfer := 0 })))

/-- Global loads complete at issue (R228, R229, R234, R235), with the value that R143 gives: the group's own newest pending byte, else that of
a visible write not older than its floor, so that a published write is read after a refresh. That the rows taken read 0 until the load
returns is the model's choice (log entry 16). -/
def Obligations.GlobalLoadsComplete : Prop := Claim.GlobalLoadsIssue ∧ Claim.LoadValues

/-- A global store whose checks pass appends its units to the group's pending stores, one entry a lane in ascending order, at the
address and with the bytes of that lane; memory is as before until they are published (R229, R136, R134). STV.M appends word by word
and, with no stop, ends with XFER 0 (R234, R235). -/
def Obligations.GlobalStoresComplete : Prop :=
  (∀ (o : MemOps) (s : State) (g : Machine.Group), Issues s g → isUni o.d = true →
    UniFree s g [o.base.toNat, uniIdx o.x, uniIdx o.d] [] → globalTrap s g 0 (uniAddr g o) (szBytes o.sz) .write = none →
    exec (.st o) s = .next (done s { g with pend := g.pend ++ uniPend s g o })) ∧
  (∀ (o : MemOps) (s : State) (g : Machine.Group), Issues s g → isUni o.d = false → MemFree s g o.base (storeReads o) [] →
    (∀ l ∈ cohort s, globalTrap s g l.val (laneAddr g o l) (szBytes o.sz) .write = none) →
    exec (.st o) s = .next (done s { (readOnly s g (storeReads o)) with pend := g.pend ++ (cohort s).flatMap (lanePend s g o) })) ∧
  (∀ (n : BitVec 4) (e : BitVec 5) (x d : BitVec 7) (s : State) (g g' : Machine.Group), Issues s g →
    MemFree s g e ((x, false) :: (destRegs d (n.toNat + 1)).map fun r => (r, false)) [] →
    (∀ l ∈ cohort s, (addrOf g e (g.rdLane l x).1 2).toNat % 4 = 0) → transferTag s g = none →
    let r := transferAll s.cur.group s.fresh false d (fun l => addrOf g e (g.rdLane l x).1 2) (fun l => g.threads[l].xfer.toNat)
      (n.toNat + 1) (cohort s) { setGroup s s.cur.group ((g.orFlags 0 ((cohort s).any fun l => (g.rdLane l x).2)).touchNames s.tick
        ((x :: destRegs d (n.toNat + 1)).filterMap g.vname) []) with fresh := s.fresh + 1 }
    mget r.1.groups s.cur.group = some g' → (∀ p ∈ r.2, p.stop = none ∧ p.waits = false) →
    exec (.stvM n e x d) s = .next (done r.1 ((forgetBases g' s.fresh).onLanes s.cur.mask fun _ t => { t with xfer := 0 })))

/-- A scratch load whose checks pass reads its bytes at once, 0 where a line was never written (R230, R125). -/
def Obligations.ScratchLoadsComplete : Prop :=
  ∀ (o : MemOps) (s : State) (g : Machine.Group) (tid : Nat) (t : Team), Issues s g → TeamOf s g tid t →
    (isUni o.d = true → UniFree s g [o.base.toNat, uniIdx o.x] [uniIdx o.d] →
      scratchTrap s g t 0 (uniAddr g o) (szBytes o.sz) false = none → ScratchFree s tid t false [((uniAddr g o).toNat, szBytes o.sz)] →
      (uniAddr g o).toNat / 256 ∉ t.badLines →
      exec (.lds o) s = .next (done (setTeam s tid (t.touch s.tick (linesOf (uniAddr g o).toNat (szBytes o.sz))))
        (g.wrW (uniIdx o.d) (loadUni o.sz (leNat (t.read (uniAddr g o).toNat (szBytes o.sz))))))) ∧
    (isUni o.d = false → MemFree s g o.base [(o.x, o.lx)] (destRegs o.d (szRegs o.sz)) →
      (∀ l ∈ cohort s, scratchTrap s g t l.val (laneAddr g o l) (szBytes o.sz) false = none ∧ (laneAddr g o l).toNat / 256 ∉ t.badLines) →
      ScratchFree s tid t false ((cohort s).map fun l => ((laneAddr g o l).toNat, szBytes o.sz)) →
      exec (.lds o) s = .next (done
        (setTeam s tid (t.touch s.tick ((cohort s).flatMap fun l => linesOf (laneAddr g o l).toNat (szBytes o.sz))))
        (g.vecCommit s.tick (cohort s) [(o.x, o.lx)] (destRegs o.d (szRegs o.sz)) fun l =>
          { vals := loadWords o.sz (leNat (t.read (laneAddr g o l).toNat (szBytes o.sz))), flags := 0 })))

/-- A scratch store whose checks pass writes its bytes at once, lanes in ascending order, and sets the written bits (R230, R127, R125).
For the uniform form: the bytes stored read back, and every byte of the scratchpad outside them is as it was, address by address. -/
def Obligations.ScratchStoresComplete : Prop :=
  ∀ (o : MemOps) (s : State) (g : Machine.Group) (tid : Nat) (t : Team), Issues s g → TeamOf s g tid t →
    (isUni o.d = true → UniFree s g [o.base.toNat, uniIdx o.x, uniIdx o.d] [] →
      scratchTrap s g t 0 (uniAddr g o) (szBytes o.sz) true = none → ScratchFree s tid t true [((uniAddr g o).toNat, szBytes o.sz)] →
      ∃ t', exec (.sts o) s = .next (done (setTeam s tid t') g) ∧
        t'.read (uniAddr g o).toNat (szBytes o.sz) = leList (g.rdW (uniIdx o.d)).toNat (szBytes o.sz) ∧
        (∀ a, a < (uniAddr g o).toNat ∨ (uniAddr g o).toNat + szBytes o.sz ≤ a → rdByte t'.scratch a = rdByte t.scratch a) ∧
        ∀ l, l ∉ linesOf (uniAddr g o).toNat (szBytes o.sz) → t'.line l = t.line l) ∧
    (isUni o.d = false → MemFree s g o.base (storeReads o) [] →
      (∀ l ∈ cohort s, scratchTrap s g t l.val (laneAddr g o l) (szBytes o.sz) true = none) →
      ScratchFree s tid t true ((cohort s).map fun l => ((laneAddr g o l).toNat, szBytes o.sz)) →
      exec (.sts o) s = .next (done (setTeam s tid ((cohort s).foldl (fun t l => putScratch s s.cur.group g l.val t (laneAddr g o l).toNat
        (laneData g l (destRegs o.d (szRegs o.sz)) (szBytes o.sz))) t)) (readOnly s g (storeReads o))))

/-- Atomics complete lane by lane in ascending order, each answering the old value (R147, R231 to R233): ATOM on memory of the module
while no pending store of the group waits for a new walk, ATOMS in the scratchpad. -/
def Obligations.AtomicsComplete : Prop :=
  (∀ (op : BitVec 4) (sc : BitVec 2) (e : BitVec 5) (x d : BitVec 7) (s : State) (g : Machine.Group), Issues s g →
    atomUnderWay s g op (atomScope sc) = none → (∀ p ∈ g.pend, p.stale = false) →
    (isUni d = true → UniFree s g (e.toNat :: (atomRegs op x d).map uniIdx) [uniIdx d] →
      let a := addrOf g e ((g.rdW (uniIdx x)).truncate 32) (atomShift op)
      atomTrap s g op (atomScope sc) 0 a = none → (transOf s g 0 a .rmw).kind ≠ .remote →
      let r := atomRun s.cur.group s.fresh op (atomScope sc) [atomFirst s g 0 a (atomVals g op x d 0)] { s with fresh := s.fresh + 1 }
      ∃ g', mget r.1.groups s.cur.group = some g' ∧ (∀ st ∈ r.2.1, st.old.isSome = true) ∧
        exec (.atom op sc e x d) s = .next (done (setGroup r.1 s.cur.group (g'.putAtom s.fresh []))
          ((g'.putAtom s.fresh []).wrW (uniIdx d) (u64 (stepOld r.2.1 0))))) ∧
    (isUni d = false → MemFree s g e (atomReads op x d) (atomDests op d) →
      (∀ l ∈ cohort s, atomTrap s g op (atomScope sc) l.val (atomAddr g op e x l) = none ∧
        (transOf s g l.val (atomAddr g op e x l) .rmw).kind ≠ .remote) →
      let r := atomRun s.cur.group s.fresh op (atomScope sc)
        ((cohort s).map fun l => atomFirst s g l.val (atomAddr g op e x l) (atomVals g op x d l)) { s with fresh := s.fresh + 1 }
      ∃ g', mget r.1.groups s.cur.group = some g' ∧ (∀ st ∈ r.2.1, st.old.isSome = true) ∧
        exec (.atom op sc e x d) s = .next (done (setGroup r.1 s.cur.group (g'.putAtom s.fresh []))
          ((g'.putAtom s.fresh []).vecCommit s.tick (cohort s) (atomReads op x d) (atomDests op d)
            fun i => { vals := oldWords op (stepOld r.2.1 i.val), flags := 0 })))) ∧
  (∀ (op : BitVec 4) (e : BitVec 5) (x d : BitVec 7) (s : State) (g : Machine.Group) (tid : Nat) (t : Team), Issues s g → TeamOf s g tid t →
    (isUni d = true → UniFree s g (e.toNat :: (atomRegs op x d).map uniIdx) [uniIdx d] →
      let a := addrOf g e ((g.rdW (uniIdx x)).truncate 32) (atomShift op)
      scratchTrap s g t 0 a (atomBytes op) true = none → ScratchFree s tid t true [(a.toNat, atomBytes op)] → a.toNat / 256 ∉ t.badLines →
      let r := atomsLane s s.cur.group g op 0 a.toNat (atomVals g op x d 0) t
      exec (.atoms op e x d) s = .next (done (setTeam s tid r.1) (g.wrW (uniIdx d) (u64 r.2))) ∧ r.2 = leNat (t.read a.toNat (atomBytes op))) ∧
    (isUni d = false → MemFree s g e (atomReads op x d) (atomDests op d) →
      (∀ l ∈ cohort s, scratchTrap s g t l.val (atomAddr g op e x l) (atomBytes op) true = none ∧
        (atomAddr g op e x l).toNat / 256 ∉ t.badLines) →
      ScratchFree s tid t true ((cohort s).map fun l => ((atomAddr g op e x l).toNat, atomBytes op)) →
      let r := atomsLanes s s.cur.group g op (fun l => (atomAddr g op e x l).toNat) (atomVals g op x d) (cohort s) t []
      exec (.atoms op e x d) s = .next (done (setTeam s tid r.1) (g.vecCommit s.tick (cohort s) (atomReads op x d) (atomDests op d)
        (oldIn op r.2)))))

/-- The ORDER minors complete (R136 to R146, R236, R237, R241, R140): PHASE.P and PHASE start a Publish at their scope, which
PUBLISH_COMPLETE ends, PHASE.R refreshes at its scope; PREFETCH only reads its registers; FENCE.S goes on once no load is in flight and
every engine instruction is accepted. PHASE.P and PHASE follow the stash writes, and FENCE.S all the scratch accesses, that the group's
sequencer operations have still to make (the model's choice: log entry 119). WAITM with a timeout of 0 returns 6 after a refresh at .sys; with another its threads wait on the
sector of its address, with no code yet, until CYCLE reaches the sum; once the wait has the code of a cause, its threads go on with the
next move, after a refresh at .sys, with that code in the destination. -/
def Obligations.OrderingCompletes : Prop :=
  (∀ (sc : BitVec 2) (s : State) (g : Machine.Group), Issues s g →
    (stashLeft s g.core s.cur.group = false →
      exec (.phaseP sc) s = .next (startPublish (done s g) s.cur.group (orderScope sc) none false) ∧
      exec (.phase sc) s = .next (startPublish (done s g) s.cur.group (orderScope sc) (some (orderScope sc)) false)) ∧
    exec (.phaseR sc) s = .next (doneNow (refreshGroup s s.cur.group (orderScope sc)))) ∧
  (∀ (l2 : Bool) (e : BitVec 5) (x : BitVec 7) (s : State) (g : Machine.Group), Issues s g →
    (isUni x = true → UniFree s g [e.toNat, uniIdx x] [] → exec (.prefetch l2 e x) s = .next (done s g)) ∧
    (isUni x = false → UniFree s g [e.toNat] [] → VecFree s g (cohort s) [x] [] →
      exec (.prefetch l2 e x) s = .next (done s (readOnly s g [(x, false)])))) ∧
  (∀ (s : State) (g : Machine.Group), Issues s g → g.loads = [] →
    (∀ o ∈ (coreOf s g.core).eng, o.group = some s.cur.group → o.accepted = true) →
    (∀ o ∈ (coreOf s g.core).seq, o.group = s.cur.group → o.kind.accesses ≤ o.done) → exec .fenceS s = .next (done s g)) ∧
  (∀ (d : Option (BitVec 5)) (e t : BitVec 5) (s : State) (g : Machine.Group), Issues s g →
    UniFree s g [e.toNat, t.toNat] (d.map (·.toNat)).toList → globalTrap s g 0 (g.rdW e.toNat) 1 .read = none →
    g.rdW t.toNat = 0 → exec (.waitm d e t) s = .next (waitmReturn s d 6)) ∧
  (∀ (d : Option (BitVec 5)) (e t : BitVec 5) (s : State) (g : Machine.Group), Issues s g →
    UniFree s g [e.toNat, t.toNat] (d.map (·.toNat)).toList → globalTrap s g 0 (g.rdW e.toNat) 1 .read = none → g.rdW t.toNat ≠ 0 →
    exec (.waitm d e t) s = .next (holdCohort { s with fresh := s.fresh + 1 } (.monitor
      { sector := (watchSector (transOf s g 0 (g.rdW e.toNat) .read)).getD (2 ^ 60), began := s.fresh,
        deadline := (clusterOf s (clusOf g.core)).cycle + (g.rdW t.toNat).toNat, dest := d, next := s.cur.next, code := none }))) ∧
  (∀ (s : State) (gid code : Nat) (g : Machine.Group) (m : Monitor), mget s.groups gid = some g → (g.st = .active ∨ g.st = .handler) →
    ctxIssues s g.ctx = true → teamLoaded s g = true → g.monitors = [m] → m.code = some code →
    settleMonitors s gid = endMonitor (waitmTimeout s gid) gid m code ∧
    ∃ g', mget (endMonitor (waitmTimeout s gid) gid m code).groups gid = some g' ∧
      (∀ r, m.dest = some r → g'.rdW r.toNat = u64 code) ∧
      ∀ l : Fin 32, g.threads[l].live = true → g.threads[l].wait = some (.monitor m) →
        g'.threads[l].wait = none ∧ g'.threads[l].pc = m.next)

/-- SMAP, SFLUSH and SUNMAP complete (R238 to R240): SMAP adds a window over cleared lines; SFLUSH publishes the group's dirty bytes of
the window at .dev and forgets the clean sectors; SUNMAP publishes them, keeps what is left as pending stores, and takes the window away.
SMAP touches the lines that it writes; SFLUSH and SUNMAP follow the accesses that the group's sequencer operations have still to make to
the window (R342, R123). -/
def Obligations.StashCompletes : Prop :=
  ∀ (s : State) (g : Machine.Group) (tid : Nat) (t : Team), Issues s g → TeamOf s g tid t → feature s g 6 = true →
    (∀ (o a l : BitVec 5) (w : Window), UniFree s g [o.toNat, a.toNat, l.toNat] [] →
      w = { off := (g.rdW o.toNat).toNat, va := (g.rdW a.toNat).toNat, len := (g.rdW l.toNat).toNat } →
      w.off % 256 = 0 → w.va % 256 = 0 → w.len % 256 = 0 → 256 ≤ w.len → t.inRange w.off w.len = true → t.windows.length < 8 →
      (∀ x ∈ t.windows, overlaps w.off w.len x.off x.len = false ∧ overlaps w.va w.len x.va x.len = false) →
      (∀ x ∈ w.lines, isViewed t x = false ∧ inRing t x = false) → trimmedIn s g w.va w.len = none →
      ScratchFree s tid t true [(w.off, w.len)] →
      ∃ t', exec (.smap o a l) s = .next (done (setTeam s tid { t' with windows := t.windows ++ [w] }) g) ∧
        t' = (w.lines.foldl Team.clearLine t).touch s.tick w.lines) ∧
    (∀ (o : BitVec 5) (w : Window) (t' : Team), UniFree s g [o.toNat] [] →
      (t.windows.find? fun w => decide (u64 w.off = g.rdW o.toNat)) = some w → seqPending s t.core s.cur.group tid w.lines = false →
      (flushWindow s s.cur.group g tid t w).2 = false → mget (flushWindow s s.cur.group g tid t w).1.teams tid = some t' →
      exec (.sflush o) s = .next (doneNow (setTeam (flushWindow s s.cur.group g tid t w).1 tid
        { t' with stashFull := t'.stashFull.filter fun x => sectorDirty t' x || !decide (w.off ≤ x * 32 ∧ x * 32 < w.off + w.len) })) ∧
      (∀ g', (∀ p ∈ t.stashDirty, w.off ≤ p.1 → p.1 < w.off + w.len → p.2.gid = s.cur.group) →
        mget (flushWindow s s.cur.group g tid t w).1.groups s.cur.group = some g' →
        ∃ g'' t'', exec (.sunmap o) s = .next (done (setTeam (flushWindow s s.cur.group g tid t w).1 tid t'') g'') ∧
          t''.windows = t'.windows.filter (fun x => decide (x.off ≠ w.off)) ∧ (∀ x ∈ w.lines, (t''.line x).written = false) ∧
          g'' = { g' with pend := g''.pend } ∧ g'.pend <+: g''.pend))


namespace Sys2Proof.Claim

/-- The engine of the issuing core has taken an operation, and the issue has gone on (R243). -/
def engined (s : State) (g : Machine.Group) (o : EngOp) : State := done { pushOp s g.core o with fresh := s.fresh + 1 } g

/-- A tile is legal and its lines lie in the scratchpad (R244). -/
def TileAt (t : Team) (d : Desc) : Prop := tileLegal t d = true ∧ outside t d.parts = none

/-- A tile passes the checks at issue, and so does the barrier offset (R244, R245). -/
def TileIn (t : Team) (d : Desc) (bar : Nat) : Prop :=
  TileAt t d ∧ bar % 16 = 0 ∧ t.inRange bar 16 = true

/-- A transaction barrier that the register names: aligned, in range, in no stash window, its line not spilled and with no access of the
group's sequencer operations still to come (R363, R342, R123). -/
def TbarAt (s : State) (g : Machine.Group) (tid : Nat) (t : Team) (a : BitVec 5) (off : Nat) : Prop :=
  TeamOf s g tid t ∧ off = (g.rdW a.toNat).toNat ∧ off % 16 = 0 ∧ t.inRange off 16 = true ∧ windowAt t off = none ∧
  (t.line (off / 256)).spilled = false ∧ seqPending s t.core s.cur.group tid [off / 256] = false

/-- A register written when the instruction names one. -/
def optW (g : Machine.Group) (d : Option (BitVec 5)) (v : DWord) : Machine.Group :=
  match d with
  | none => g
  | some r => g.wrW r.toNat v

/-- The issue stands in no wait. -/
def Fresh (s : State) (g : Machine.Group) : Prop := issueWait s g = none

/-- Phase of a team barrier. -/
def barPhase (t : Team) (b : BitVec 4) : BitVec 16 := t.bars[barIdx b].phase

/-- A team barrier with one more arrival of a group (R362). -/
def arrived (t : Team) (g : Machine.Group) (b : BitVec 4) (n : BitVec 6) : TeamBar :=
  { t.bars[barIdx b] with
    n := if t.bars[barIdx b].m = 0 then n.toNat else t.bars[barIdx b].n
    m := t.bars[barIdx b].m + 1
    last := t.bars[barIdx b].last.set! (g.gid % 32) (some (barPhase t b)) }

/-- The team with that arrival. -/
def withArrival (s : State) (tid : Nat) (t : Team) (g : Machine.Group) (b : BitVec 4) (n : BitVec 6) : State :=
  setTeam s tid { t with bars := t.bars.set (barIdx b) (arrived t g b n) }

/-- The issuing group has seen the STATE word of a join (R132). -/
def seesState (s : State) (tr : Trans) : State := seeBytes s (some s.cur.group) (fieldBytes tr stateField)

/-- A task record at an offset of the scratchpad that an enqueue takes (R296, Table 11.4). -/
def RecordAt (s : State) (g : Machine.Group) (tid : Nat) (t : Team) (off : Nat) (r : TaskRec) : Prop :=
  off % 16 = 0 ∧ t.inRange off 80 = true ∧ ScratchFree s tid t true ((recordUnits off).map fun o => (o, 16)) ∧ (∀ l ∈ linesOf off 80, l ∉ t.badLines) ∧
  r = recordOf (t.read off 80) ∧ recordOk r = true ∧ entryOk s g.ctx r = true

/-- The state after the Publish at .dev that every enqueue begins with (R296). -/
def published (s : State) (tid : Nat) (t : Team) (off : Nat) : State × List Nat × Bool :=
  publishGroup (setTeam s tid (t.touch s.tick (linesOf off 80))) s.cur.group .dev

/-- What an enqueue leaves: the task in the queue and the predicate set in every thread of the issue, or no room and the predicate
clear (R294, R296). -/
def enqueued (s : State) (k : BitVec 3) (g : Machine.Group) (p : State) (qid : Nat) (r : TaskRec) (teams : Nat) : State :=
  match insertTask p qid r teams with
  | none => done p (g.setPred s.cur.mask k false)
  | some s' => done s' (g.setPred s.cur.mask k true)

/-- A slot that SLOTDONE may hand back: its word says FULL, its line is not spilled, and no access of the group's sequencer operations to it
is still to come (R254, R342, R123). -/
def SlotAt (s : State) (tid : Nat) (t : Team) (u : Sub) (i : Nat) : Prop :=
  slotState (slotWord t u i) = 2 ∧ (t.line (u.wordAt i / 256)).spilled = false ∧ seqPending s t.core s.cur.group tid [u.wordAt i / 256] = false

/-- The team with the slot handed back: its word says DONE. Where the word was the one that the skidder wrote last, the new one is what the
skidder expects (R390); a foreign word stays foreign to it (R394). -/
def handed (s : State) (t : Team) (u : Sub) (i : Nat) : Team :=
  if slotWord t u i = u.expected i then t.putWord s.tick u i (wordTo (slotWord t u i) 3)
  else t.write s.tick (u.wordAt i) (leList (wordTo (slotWord t u i) 3).toNat 4)

/-- A queue of the group's own context. -/
def OwnQueue (s : State) (g : Machine.Group) (qid : Nat) : Prop := ∃ q, mget s.queues qid = some q ∧ q.ctx = g.ctx

/-- The queue that a team was dispatched from is still there (R295). -/
def TeamQueue (s : State) (g : Machine.Group) (t : Team) : Prop := ∃ q, mget s.queues t.qid = some q ∧ q.ctx = g.ctx ∧ q.born = t.qborn

end Sys2Proof.Claim

open Sys2Proof Sys2Proof.Machine Sys2Proof.Claim

/-- The copy-engine instructions complete at issue by queueing their operation with what they read, while fewer than 32 are incomplete
(R243 to R250, R255): TCOPY, TSTORE, TSTORE.A, TMCAST, GATHER and KVMOVE; OWN flips the lines' owner once nothing uses them
and no access that the group's sequencer operations have still to make names them (R251, R123). The lists that GATHER and KVMOVE read
touch their lines (R342). -/
def Obligations.EngineIssueCompletes : Prop :=
  ∀ (s : State) (g : Machine.Group) (tid : Nat) (t : Team) (n : BitVec 4) (a b : BitVec 5), Issues s g → TeamOf s g tid t →
    (∀ engine : Bool, TileAt t (tileOf t n) → seqPending s t.core s.cur.group tid (tileOf t n).lines = false →
      (engine = true ∨ linesInUse s g.core tid (tileOf t n).lines = false) →
      exec (.own n engine) s = .next (done (setTeam s tid ((tileOf t n).lines.foldl
        (fun t l => t.setLine l { t.line l with engine := engine }) (t.touch s.tick (tileOf t n).lines))) g)) ∧
    (UniFree s g [a.toNat, b.toNat] [] → engineLoad s g.core < 32 →
      (TileIn t (tileOf t n) (g.rdW b.toNat).toNat → (tileOf t n).layOk = true →
        ((g.rdW a.toNat).toNat % 32 = 0 →
          exec (.tcopy n a b) s = .next (engined s g
            (newOp s tid .tcopy (tileOf t n) (g.rdW a.toNat) (g.rdW b.toNat).toNat [] (tileOf t n).lines)) ∧
          exec (.tstore n a b) s = .next (engined s g
            (newOp s tid .tstore (tileOf t n) (g.rdW a.toNat) (g.rdW b.toNat).toNat [] (tileOf t n).lines)) ∧
          (layVer (tileOf t n).layout = true → exec (.tstoreA n a b) s = .next (engined s g
            (newOp s tid .tstoreA (tileOf t n) (g.rdW a.toNat) (g.rdW b.toNat).toNat [] (tileOf t n).lines)))) ∧
        ((g.rdW a.toNat).toNat < 16 → exec (.tmcast n a b) s = .next (engined s g
          { newOp s tid .tmcast (tileOf t n) 0 (g.rdW b.toNat).toNat [] (tileOf t n).lines with
            receivers := (List.range ((g.rdW a.toNat).toNat + 1)).map fun i => (t.index.toNat + i + 1) % t.nteam.toNat }))) ∧
      (∀ l t', (tileOf t n).layOk = true → layArr (tileOf t n).layout = 0 → slice (g.rdW b.toNat) 24 8 = 0 → slice (g.rdW b.toNat) 56 8 = 0 →
        (g.rdW a.toNat).toNat % 32 = 0 → slice (g.rdW b.toNat) 32 24 % 4 = 0 → TileIn t (tileOf t n) (slice (g.rdW b.toNat) 0 24) →
        readList s g tid t (slice (g.rdW b.toNat) 32 24) (tileOf t n).rows.toNat 4 = .ok (l, t') →
        exec (.gather n a b) s = .next (engined (setTeam s tid t') g
          (newOp s tid .gather (tileOf t n) (g.rdW a.toNat) (slice (g.rdW b.toNat) 0 24) l (tileOf t n).lines)))) ∧
    (∀ (k p : BitVec 5) (l : List Nat) (t' : Team), feature s g 5 = true → UniFree s g [k.toNat, p.toNat, b.toNat] [] → engineLoad s g.core < 32 →
      slice (g.rdW p.toNat) 60 4 = 0 → (g.rdW k.toNat).toNat % 256 = 0 → slice (g.rdW p.toNat) 40 20 % 8 = 0 →
      (g.rdW b.toNat).toNat % 16 = 0 → t.inRange (g.rdW b.toNat).toNat 16 = true →
      readList s g tid t (slice (g.rdW p.toNat) 40 20) (2 * slice (g.rdW p.toNat) 16 16) 4 = .ok (l, t') → slice (g.rdW p.toNat) 32 8 ≠ 0 →
      slice (g.rdW p.toNat) 0 16 ≤ slice (g.rdW p.toNat) 16 16 → moveOk none l = true →
      exec (.kvmove k p b) s = .next (engined (setTeam s tid t') g
        { newOp s tid .kvmove default (g.rdW k.toNat) (g.rdW b.toNat).toNat (l.drop (2 * slice (g.rdW p.toNat) 0 16)) [] with
          ring := slice (g.rdW p.toNat) 0 16, slot := slice (g.rdW p.toNat) 32 8 }))

/-- SUB opens a subscription on a free stream context of its skidder and empties the slot words, SUBEND ends the subscription of a ring,
SLOTDONE hands a FULL slot back as DONE (R252 to R254, R389 to R391). -/
def Obligations.RingInstructionsComplete : Prop :=
  ∀ (s : State) (g : Machine.Group) (tid : Nat) (t : Team) (r : BitVec 5), Issues s g → TeamOf s g tid t → feature s g 4 = true →
    (∀ (st : BitVec 5) (u : Sub) (b : UnitRead) (tr : Trans), UniFree s g [r.toNat, st.toNat] [] → (g.rdW r.toNat).toNat % 128 = 0 →
      (g.rdW st.toNat).toNat % 64 = 0 → ringCheck s tid t (g.rdW r.toNat).toNat = .ok u →
      ({ by' := .issue s.cur.group, ctx := g.ctx, who := agentOf g.core, moment := s.fresh, hbmDie := none } : EngAcc).read s
        ((List.range 64).map fun i => .byte (wrapVa ((g.rdW st.toNat).toNat + i))) = .ok b → b.bad = false →
      streamOk b.bytes (feature s g 1) = true → (streamOf b.bytes).image ≤ u.slotsz →
      translate (dropFetched s (.issue s.cur.group)) g.ctx (agentOf g.core) 0 (streamOf b.bytes).origin .read = .ok tr →
      mgetD s.skidders (skidderOf tr g.core) 0 < 64 →
      exec (.engineSub r st) s = .next (done { setTeam (dropFetched s (.issue s.cur.group)) tid (({ t with
          subs := t.subs ++ [{ u with sd := streamOf b.bytes, skid := skidderOf tr g.core }] } : Team).write s.tick
            ((g.rdW r.toNat).toNat + 0x40) (leList 0 64)) with
        skidders := mput s.skidders (skidderOf tr g.core) (mgetD s.skidders (skidderOf tr g.core) 0 + 1), fresh := s.fresh + 1 } g)) ∧
    (∀ u : Sub, UniFree s g [r.toNat] [] → (t.subs.find? fun u => decide (u64 u.ring = g.rdW r.toNat)) = some u →
      exec (.subend r) s = .next (done (settleSubs (setTeam s tid (t.setSub { u with ended := true })) tid) g)) ∧
    (∀ (x : BitVec 7) (u : Sub), isUni x = true → UniFree s g [r.toNat] [] → UniFree s g [uniIdx x] [] →
      (t.subs.find? fun u => decide (u64 u.ring = g.rdW r.toNat)) = some u → (g.rdW (uniIdx x)).toNat < u.nslot →
      SlotAt s tid t u (g.rdW (uniIdx x)).toNat →
      exec (.slotdone r x) s = .next (done (setTeam s tid (handed s t u (g.rdW (uniIdx x)).toNat)) g)) ∧
    (∀ (x : BitVec 7) (u : Sub) (l : Fin 32), isUni x = false → UniFree s g [r.toNat] [] → lowestLane (s.cur.mask &&& g.liveMask) = some l →
      VecFree s g [l] [x] [] → (t.subs.find? fun u => decide (u64 u.ring = g.rdW r.toNat)) = some u →
      (g.rdLane l x).1.toNat < u.nslot → SlotAt s tid t u (g.rdLane l x).1.toNat →
      exec (.slotdone r x) s = .next (done (setTeam s tid (handed s t u (g.rdLane l x).1.toNat))
        ((g.orFlags 0 (g.rdLane l x).2).touchNames s.tick (g.vname x).toList [])))

/-- The team-barrier instructions complete (R360 to R362): a first arrival counts the group in and opens the phase when it is the last;
another one in the same phase, of whichever threads of the group and however long it has waited, waits for the next phase;
BAR.ARRIVE goes on at once, BAR.SYNC goes on when its own arrival opened the phase, and otherwise once the phase has opened and its
wave has left; BAR.WAIT goes on once the phase it arrived in has opened. -/
def Obligations.TeamBarriersComplete : Prop :=
  ∀ (s : State) (g : Machine.Group) (tid : Nat) (t : Team) (b : BitVec 4) (n : BitVec 6), Issues s g → TeamOf s g tid t →
    ((Fresh s g ∧ n.toNat ≤ t.ngrp) ∨
        (∃ (b' : BitVec 4) (ph : BitVec 16), issueWait s g = some (.bar b' ph false) ∧ barHeld s g t b ph = false) →
      (t.bars[barIdx b].last[g.gid % 32]! = some (barPhase t b) →
        exec (.barArrive b n) s = .next (holdCohort s (.bar b (barPhase t b) false)) ∧
        exec (.barSync b n) s = .next (holdCohort s (.bar b (barPhase t b) false))) ∧
      (t.bars[barIdx b].last[g.gid % 32]! ≠ some (barPhase t b) → (t.bars[barIdx b].m = 0 ∨ t.bars[barIdx b].n = n.toNat) →
      (exec (.barArrive b n) s = .next (doneNow (checkBar (withArrival s tid t g b n) tid (barIdx b)))) ∧
      (∀ t', mget (checkBar (withArrival s tid t g b n) tid (barIdx b)).teams tid = some t' → barPhase t' b ≠ barPhase t b →
        exec (.barSync b n) s = .next (doneNow (checkBar (withArrival s tid t g b n) tid (barIdx b)))))) ∧
    (∀ (b' : BitVec 4) (ph : BitVec 16), issueWait s g = some (.bar b' ph true) → barHeld s g t b ph = false →
      exec (.barSync b n) s = .next (done s g)) ∧
    (Fresh s g → (∃ ph, t.bars[barIdx b].last[g.gid % 32]! = some ph ∧ ph ≠ barPhase t b) → exec (.barWait b) s = .next (done s g)) ∧
    (∀ (b' : BitVec 4) (ph : BitVec 16) (c : Bool), issueWait s g = some (.bar b' ph c) → barHeld s g t b ph = false →
      exec (.barWait b) s = .next (done s g))

/-- The transaction-barrier instructions complete (R363 to R366): INIT sets the fields, EXPECT adds sectors, ARRIVE lowers the arrivals,
completes the phase when all is zero and answers the phase it arrived in, WAIT touches the line and goes on once the phase it names is over,
ACK sends one acknowledgement to a team of the grid. -/
def Obligations.TransactionBarriersComplete : Prop :=
  ∀ (s : State) (g : Machine.Group) (tid : Nat) (t : Team) (a : BitVec 5) (off : Nat), Issues s g → TbarAt s g tid t a off →
    (∀ r : BitVec 5, UniFree s g [a.toNat, r.toNat] [] →
      ((g.rdW r.toNat).toNat < 2 ^ 20 → exec (.tbarInit r a) s = .next (doneNow (updTbar s tid off fun _ =>
        { phase := 0, arrivals := (g.rdW r.toNat).truncate 20, sectors := 0, acks := 0, reload := (g.rdW r.toNat).truncate 20,
          err := false }))) ∧
      ((g.rdW r.toNat).toNat < 2 ^ 32 → exec (.tbarExpect r a) s = .next (doneNow (updTbar s tid off fun b =>
        { b with sectors := b.sectors + (g.rdW r.toNat).truncate 32 }))) ∧
      ((g.rdW r.toNat).toNat < t.nteam.toNat →
        (∀ q : Nat × Team, (s.teams.find? fun p => decide (p.2.grid = t.grid) && decide (p.2.index = g.rdW r.toNat)) = some q →
          exec (.tbarAck r a) s = .next (done { setTeam s tid { t with unacked := dropFirst (q.1, off) t.unacked } with
            acks := s.acks ++ [{ team := q.1, off := off }] } g)) ∧
        ((s.teams.find? fun p => decide (p.2.grid = t.grid) && decide (p.2.index = g.rdW r.toNat)) = none →
          exec (.tbarAck r a) s = .next (done s g)))) ∧
    (∀ d : Option (BitVec 5), UniFree s g [a.toNat] (d.map (·.toNat)).toList → (t.tbar off).arrivals ≠ 0 →
      exec (.tbarArrive d a) s = .next (updTbar (done s (optW g d ((t.tbar off).phase.zeroExtend 64))) tid off fun b =>
        { b with arrivals := b.arrivals - 1 }.complete)) ∧
    (∀ (d : Option (BitVec 5)) (p : BitVec 5), UniFree s g [a.toNat, p.toNat] (d.map (·.toNat)).toList →
      (t.tbar off).phase ≠ (g.rdW p.toNat).truncate 4 →
      (Fresh s g ∨ (∃ o ph, issueWait s g = some (.tbar o ph)) ∧ inWave s s.cur.group g.core = false) →
      exec (.tbarWait d p a) s = .next (done (setTeam s tid (t.touch s.tick [off / 256])) (optW g d (u64 ((if (t.tbar off).err then 1 else 0) + 16 * (t.tbar off).phase.toNat)))))

/-- The join instructions complete (R367 to R376): ARM answers the handle of the join it arms or 0, ARRIVE counts the group in once and
releases the join with the last arrival it needs, WAIT goes on once the join is no longer armed, READ answers the word selected, CANCEL
ends an armed join. What a minor reads or writes of the object its group has seen from then on (R132, R369; which fields a
minor reads is the model's choice, log entry 126). KILLOFF and KILLON set and clear KOFF (R378). -/
def Obligations.JoinsComplete : Prop :=
  ∀ (s : State) (g : Machine.Group), Issues s g → feature s g 3 = true →
    (exec .killoff s = .next (done s { g with gstat := g.gstat ||| 0x100000#64 })) ∧
    (exec .killon s = .next (done s { g with gstat := g.gstat &&& ~~~0x100000#64 })) ∧
    (∀ (j : BitVec 5) (index : Nat) (tr : Trans), joinFind s g.ctx g.core (g.rdW j.toNat) = .ok (index, tr) →
      (∀ (d : Option (BitVec 5)) (p : BitVec 5), UniFree s g [j.toNat, p.toNat] (d.map (·.toNat)).toList → armOk (g.rdW p.toNat) = true →
        exec (.joinArm d p j) s = .next (armJoin (done s (optW g d (u64 (armHandle (readJoin s tr) index (g.rdW p.toNat)))))
          (agentOf g.core) (some s.cur.group) tr (g.rdW p.toNat))) ∧
      (∀ (d : BitVec 5) (sel : BitVec 2), UniFree s g [j.toNat] [d.toNat] →
        ∃ t, exec (.joinRead d sel j) s = .next (seeBytes t (some s.cur.group) (fieldBytes tr (joinFields sel))) ∧
          UniDone s t g d.toNat (joinWord (readJoin s tr) sel)) ∧
      (UniFree s g [j.toNat] [] →
        ((readJoin s tr).armed = false → (Fresh s g ∨ (∃ i, issueWait s g = some (.join i)) ∧ inWave s s.cur.group g.core = false) →
          exec (.joinWait j) s = .next (doneNow (refreshGroup (seesState s tr) s.cur.group .dev))) ∧
        (exec (.joinCancel j) s = .next (if (readJoin s tr).armed then
          settleJoin (writeJoin (seesState (done s g) tr) (agentOf g.core) (some s.cur.group) tr stateField
            { readJoin s tr with state := 3, result := 0 }) g.ctx index (readJoin s tr).epoch (readJoin s tr).detach
          else seesState (done s g) tr))) ∧
      (∀ (i : BitVec 5) (c : BitVec 7), UniFree s g [j.toNat, i.toNat] [] → VecFree s g (cohort s) [c] [] → joinIndex g.join = index →
        let g₀ := (g.orFlags 0 ((cohort s).any fun l => (g.rdLane l c).2)).touchNames s.tick (g.vname c).toList []
        let r := publishGroup (setGroup s s.cur.group g₀) s.cur.group .dev
        ((readJoin s tr).armed = false ∨ joinEpoch g.join ≠ (readJoin s tr).epoch ∨ g.joinArrived = true ∨ g.detached = true ∨
            (readJoin s tr).m = (readJoin s tr).need →
          exec (.joinArrive i c j) s = .next (seeBytes (done s g₀) (some s.cur.group) (fieldBytes tr countedBy))) ∧
        (∀ g' : Machine.Group, (readJoin s tr).armed = true → joinEpoch g.join = (readJoin s tr).epoch → g.joinArrived = false →
          g.detached = false → (readJoin s tr).m ≠ (readJoin s tr).need → stashLeft s g.core s.cur.group = false → r.2.2 = false →
          mget r.1.groups s.cur.group = some g' → r.1.cur = s.cur →
          let jo := readJoin r.1 tr
          let j' := { jo with m := jo.m + 1, wa := (jo.wa + g'.weight.toNat) % 2 ^ 32, acc := accAfter jo g' (cohort s) c }
          let s₁ := seeBytes (done r.1 { g' with joinArrived := true }) (some s.cur.group) (paRange tr.pa 64)
          let s₂ := logEntry (writeJoin s₁ (agentOf g'.core) (some s.cur.group) tr countFields j') g' jo (g'.rdW i.toNat)
          exec (.joinArrive i c j) s = .next
            (if j'.m = j'.need then releaseJoin s₂ (agentOf g'.core) (some s.cur.group) g'.ctx index tr j' else s₂))))

/-- The task instructions complete (R294 to R297, R301, R302): ENQ, LAUNCH and SPAWN publish at .dev, take their record from scratch and
put it into the queue, or report that there is no room, as SPAWN does at depth 31 and where its team's queue is gone; that Publish follows
the stash writes that the group's sequencer operations have still to make (the model's choice: log entry 119); GPSET and GPGET write
and read a graph's parameter; GREPLAY starts an idle graph. -/
def Obligations.TaskInstructionsComplete : Prop :=
  ∀ (s : State) (g : Machine.Group), Issues s g →
    (∀ (tid : Nat) (t : Team) (k : BitVec 3) (r : BitVec 5) (rec : TaskRec) (g' : Machine.Group), TeamOf s g tid t →
      RecordAt s g tid t (slice (g.rdW r.toNat) 0 24) rec → stashLeft s g.core s.cur.group = false →
      (published s tid t (slice (g.rdW r.toNat) 0 24)).2.2 = false →
      mget (published s tid t (slice (g.rdW r.toNat) 0 24)).1.groups s.cur.group = some g' →
      (∀ q : BitVec 5, UniFree s g [q.toNat, r.toNat] [] → OwnQueue s g (g.rdW q.toNat).toNat → (g.rdW q.toNat).toNat < 4096 →
        (slice (g.rdW r.toNat) 24 40 = 0 → exec (.enq k q r) s = .next (enqueued s k g' (published s tid t (slice (g.rdW r.toNat) 0 24)).1
          (g.rdW q.toNat).toNat { rec with depth := 0 } 1)) ∧
        (slice (g.rdW r.toNat) 24 8 = 0 → slice (g.rdW r.toNat) 32 32 ≠ 0 → exec (.launch k q r) s =
          .next (enqueued s k g' (published s tid t (slice (g.rdW r.toNat) 0 24)).1 (g.rdW q.toNat).toNat { rec with depth := 0 }
            (slice (g.rdW r.toNat) 32 32)))) ∧
      (UniFree s g [r.toNat] [] → slice (g.rdW r.toNat) 24 40 = 0 →
        (TeamQueue s g t → g.depth < 31 →
          exec (.spawn k r) s = .next (enqueued s k g' (published s tid t (slice (g.rdW r.toNat) 0 24)).1 t.qid
            { rec with depth := BitVec.ofNat 8 (g.depth + 1), join := if g.join = 0 then rec.join else g.join } 1)) ∧
        (TeamQueue s g t → 31 ≤ g.depth → exec (.spawn k r) s = .next (done s (g.setPred s.cur.mask k false))) ∧
        ((∀ q, mget s.queues t.qid = some q → q.born ≠ t.qborn) → g.depth < 31 →
          exec (.spawn k r) s = .next (done (published s tid t (slice (g.rdW r.toNat) 0 24)).1 (g'.setPred s.cur.mask k false))))) ∧
    (∀ (w : BitVec 5) (x : Graph), mget s.graphs (g.rdW w.toNat).toNat = some x → x.ctx = g.ctx →
      (∀ (n : BitVec 4) (r : BitVec 5), UniFree s g [w.toNat, r.toNat] [] → exec (.gpset w n r) s =
        .next (done (setGraph s (g.rdW w.toNat).toNat { x with gp := x.gp.set (gpIdx n) (g.rdW r.toNat) }) g)) ∧
      (∀ (d : BitVec 5) (n : BitVec 4), UniFree s g [w.toNat] [d.toNat] →
        ∃ t, exec (.gpget d w n) s = .next t ∧ UniDone s t g d.toNat x.gp[gpIdx n]) ∧
      (∀ (k : BitVec 3) (g' : Machine.Group), UniFree s g [w.toNat] [] → stashLeft s g.core s.cur.group = false → (publishGroup s s.cur.group .dev).2.2 = false →
        mget (publishGroup s s.cur.group .dev).1.groups s.cur.group = some g' →
        exec (.greplay k w) s = .next (done (if x.replaying then (publishGroup s s.cur.group .dev).1
          else setGraph (publishGroup s s.cur.group .dev).1 (g.rdW w.toNat).toNat x.start) (g'.setPred s.cur.mask k (!x.replaying)))))


namespace Sys2Proof.Claim

/-- The operand words of a RECLAIM keep the bits that must be 0 at 0 and stay in range; a GIVE names nothing but its victim (R338). -/
def ReclaimOk (w lo hi : DWord) : Prop :=
  slice w 0 10 ≤ 575 ∧ slice w 11 5 = 0 ∧ slice w 28 4 = 0 ∧ slice w 40 8 = 0 ∧ slice w 56 8 = 0 ∧ slice w 32 8 ≤ 192 ∧
  slice w 16 12 ≤ 2048 ∧ (w.getLsbD 10 = true → lo = 0 ∧ hi = 0 ∧ slice w 16 12 = 0 ∧ slice w 32 8 = 0)

/-- The fields of a PWRREQ operand: what must be 0 is 0, and each field has a value of Table 19.3 (R431). -/
def PwrreqOk (w : DWord) : Prop :=
  slice w 0 8 ≤ 143 ∧ slice w 8 2 ≠ 3 ∧ slice w 10 6 = 0 ∧ 600 ≤ slice w 16 10 ∧ slice w 16 10 ≤ 800 ∧ slice w 26 6 = 0 ∧
  400 ≤ slice w 32 12 ∧ slice w 32 12 ≤ 1000 ∧ slice w 32 12 % 25 = 0 ∧ slice w 44 20 = 0

def pointIn (w : DWord) : OpPoint := { vmv := slice w 16 10, lfreq := slice w 32 12, ratio := slice w 8 2 }

/-- A legal operating point (R428): the lane clock within what the supply carries, and within 850 MHz at ratio HALF (0), whose
front-end clock is twice the lane clock (Table 19.1). -/
def LegalPoint (p : OpPoint) : Prop :=
  600 ≤ p.vmv ∧ p.vmv ≤ 800 ∧ p.lfreq % 25 = 0 ∧ 400 ≤ p.lfreq ∧ p.lfreq ≤ 1000 ∧ p.lfreq ≤ 2 * p.vmv - 500 ∧ p.ratio ≤ 2 ∧
  (p.ratio = 0 → p.lfreq ≤ 850)

/-- The word PGQUERY answers (Table 17.10), from what the walk finds. -/
def pageAnswer (w : Walk) (full : Bool) : DWord :=
  match w with
  | .absent => 0
  | .malformed => 3
  | .leaf e _ => u64 ((if full then slice e 16 36 * 2 ^ 16 else 0) + slice e 2 14 * 4 + (if slice e 7 1 = 1 then 2 else 1))

/-- The group as a HALT parks it (R193): in handler mode as RTH would return it, otherwise with HCAUSE, HPC and HADDR of a trap of cause
8 whose HPC is the next instruction. -/
def halted (s : State) (g : Machine.Group) : Machine.Group :=
  if g.handling then { g.leaveHandler with st := .parked false }
  else { ({ g with hcause := hcauseOf 8 s.cur.mask, hpc := hpcOf { s.cur with pc := s.cur.next }, haddr := 0 } : Machine.Group).savePlaces with
         st := .parked false }

end Sys2Proof.Claim

open Sys2Proof Sys2Proof.Machine Sys2Proof.Claim

/-- RECLAIM completes: a TAKE answers 2 when it is refused, else what it achieved, once every victim has folded; a GIVE empties the hold of
its victim and answers 1, or 2 for another victim's hold (R338, R339, R346). TAKE and GIVE are one word that wC[10] tells apart. -/
def Sys2Proof.Claim.ReclaimCompletes : Prop :=
  ∀ (s : State) (g : Machine.Group) (d c l : BitVec 5) (i : Instr), i = .reclaimTake d c l ∨ i = .reclaimGive d c l → Issues s g →
    g.privileged = true → g.ctx = 0 → l.toNat % 2 = 0 → UniFree s g [c.toNat, l.toNat, l.toNat + 1] [d.toNat] →
    (∀ r, g.reclaiming = some r → foldsPending s r.core = false →
      exec i s = .next (done s ({ g with reclaiming := none }.wrW d.toNat r.result))) ∧
    (g.reclaiming = none → ReclaimOk (g.rdW c.toNat) (g.rdW l.toNat) (g.rdW (l.toNat + 1)) →
      coreClaimed s (slice (g.rdW c.toNat) 0 10) = false →
      let core := slice (g.rdW c.toNat) 0 10
      let victim := slice (g.rdW c.toNat) 48 8
      ((g.rdW c.toNat).getLsbD 10 = true →
        ((coreOf s core).hold = none → exec i s = .next (done s (g.wrW d.toNat 1))) ∧
        (∀ h, (coreOf s core).hold = some h → exec i s = .next (if h.victim = victim
          then done (setCore s core { coreOf s core with hold := none }) (g.wrW d.toNat 1) else done s (g.wrW d.toNat 2)))) ∧
      ((g.rdW c.toNat).getLsbD 10 = false →
        let r := takeCore s core victim (slice (g.rdW c.toNat) 16 12) (4096 * slice (g.rdW c.toNat) 32 8)
          (namedLanes (g.rdW l.toNat) (g.rdW (l.toNat + 1)))
        (r = none → exec i s = .next (done s (g.wrW d.toNat 2))) ∧
        (∀ s' w, r = some (s', w) → foldsPending s' core = false → exec i s = .next (done s' (g.wrW d.toNat w))) ∧
        ∀ h, (coreOf s core).hold = some h → h.victim ≠ victim → r = none))

/-- RESUME answers 1 for a handle that names no parked group of its context, and otherwise restarts or kills that group and answers 0;
TLBINV completes once no load in flight uses what it drops; PGQUERY answers the word of the page; PWRREQ posts a legal target and answers
whether it replaced one, or 2; CTXOP answers the state of a context, or starts its switch; HALT parks its group with a record of SOURCE 6
(R193, R283, R284, R355, R411, R412, R428 to R431). All but PGQUERY run in handler mode or a control group. -/
def Obligations.SystemInstructionsComplete : Prop :=
  ∀ (s : State) (g : Machine.Group), Issues s g →
    (∀ (d a : BitVec 5) (c : Option (BitVec 5)) (w : DWord), UniFree s g (a.toNat :: (c.map (·.toNat)).toList) [d.toNat] →
      w = (match c with | none => u64 g.ctx | some r => g.rdW r.toNat) → w.toNat < 256 → g.ctx = 0 ∨ w.toNat = g.ctx →
      ∃ t, exec (.pgquery d a c) s = .next t ∧ UniDone s t g d.toNat (if 2 ^ 57 ≤ (g.rdW a.toNat).toNat then 3
        else pageAnswer (walkNow s w.toNat (agentOf g.core) (g.rdW a.toNat).toNat) g.privileged)) ∧
    (g.privileged = true →
      (∀ (kill : Bool) (d h : BitVec 5), UniFree s g [h.toNat] [d.toNat] → slice (g.rdW h.toNat) 56 8 = 0 → slice (g.rdW h.toNat) 17 15 = 0 →
        g.ctx = 0 ∨ slice (g.rdW h.toNat) 48 8 = g.ctx →
        (resumeBy s (g.rdW h.toNat) kill = none → exec (.resume kill d h) s = .next (done s (g.wrW d.toNat 1))) ∧
        (∀ s' g', resumeBy s (g.rdW h.toNat) kill = some s' → mget s'.groups s.cur.group = some g' →
          exec (.resume kill d h) s = .next (done s' (g'.wrW d.toNat 0)))) ∧
      (∀ (a c : BitVec 5) (i : Inval), UniFree s g [a.toNat, c.toNat] [] → (g.rdW c.toNat).toNat < 768 →
        g.ctx = 0 ∨ (slice (g.rdW c.toNat) 8 2 ≠ 2 ∧ slice (g.rdW c.toNat) 0 8 = g.ctx) →
        i = { moment := 0, ctx := if slice (g.rdW c.toNat) 8 2 = 2 then none else some (slice (g.rdW c.toNat) 0 8),
              va := if slice (g.rdW c.toNat) 8 2 = 0 then some (g.rdW a.toNat).toNat else none } →
        invalWaits s i = false → exec (.tlbinv a c) s = .next (doneNow (invalidate s i))) ∧
      (∀ (d : Option (BitVec 5)) (t : BitVec 5), g.ctx = 0 → UniFree s g [t.toNat] (d.map (·.toNat)).toList → PwrreqOk (g.rdW t.toNat) →
        let cl := slice (g.rdW t.toNat) 0 8
        (LegalPoint (pointIn (g.rdW t.toNat)) → exec (.pwrreq d t) s =
          .next (done (setCluster s cl { clusterOf s cl with mailbox := some (pointIn (g.rdW t.toNat)) })
            (optW g d (if (clusterOf s cl).mailbox.isSome then 1 else 0)))) ∧
        (¬ LegalPoint (pointIn (g.rdW t.toNat)) → exec (.pwrreq d t) s = .next (done s (optW g d 2)))) ∧
      (∀ d r : BitVec 5, UniFree s g [r.toNat] [d.toNat] → (g.rdW r.toNat).toNat < 256 →
        (g.ctx = 0 ∨ (g.rdW r.toNat).toNat = g.ctx →
          ∃ t, exec (.ctxopQuery d r) s = .next t ∧ UniDone s t g d.toNat (stateWord s (g.rdW r.toNat).toNat)) ∧
        (g.ctx = 0 → (g.rdW r.toNat).toNat ≠ 0 →
          exec (.ctxopSwout d r) s = .next (done (startOut s (g.rdW r.toNat).toNat).1 (g.wrW d.toNat (u64 (startOut s (g.rdW r.toNat).toNat).2))) ∧
          exec (.ctxopSwin d r) s = .next (done (startIn s (g.rdW r.toNat).toNat).1 (g.wrW d.toNat (u64 (startIn s (g.rdW r.toNat).toNat).2))))) ∧
      exec .halt s = .next (postRecord (setGroup s s.cur.group (halted s g)) g.ctx
        { source := 6, cause := slice (halted s g).hcause 0 8, access := 0,
          vaddr := if [2, 3, 4, 5, 10].contains (slice (halted s g).hcause 0 8) then (halted s g).haddr else 0, group := handleOf g,
          hcause := (halted s g).hcause, hpc := (halted s g).hpc, detail := (halted s g).haddr }))

/-- What a switch does at its start (R284): a context in a switch answers 1, a context in no state that allows the switch answers 2, and
else the switch has begun and the answer is 0; a context that is switched out with nothing saved is OPEN at once. -/
def Sys2Proof.Claim.SwitchesStart : Prop :=
  ∀ (s : State) (ctx : Nat),
    (mget s.contexts ctx = none → startOut s ctx = (s, 2) ∧ startIn s ctx = (s, 2)) ∧
    (∀ c, mget s.contexts ctx = some c →
      (c.switch ≠ .none → startOut s ctx = (s, 1) ∧ startIn s ctx = (s, 1)) ∧
      (c.switch = .none →
        ((c.st = .opened ∨ c.st = .running) → startOut s ctx = (setContext s ctx { c with switch := .out 1 }, 0)) ∧
        (c.st ≠ .opened → c.st ≠ .running → startOut s ctx = (s, 2)) ∧
        (c.st = .switchedOut → startIn s ctx = (setContext s ctx (if c.saved = [] then { c with st := .opened }
          else { c with switch := .restoring }), 0)) ∧
        (c.st ≠ .switchedOut → startIn s ctx = (s, 2))))

/-- DICT executes the instruction that its entry of the kernel's dictionary holds, with that word and the PC after the DICT itself (R71,
R72), and so completes with the effect of an integer, floating-point or packed entry whose registers are ready; MOV.H of a register to
itself, which changes nothing, only goes on (R70). -/
def Sys2Proof.Claim.DictExecutes : Prop :=
  ∀ (s : State) (g : Machine.Group), Issues s g →
    (∀ (i : BitVec 10) (k : Kernel) (w : Word) (x : Instr), mget s.kernels g.kernel = some k → k.dict[i.toNat]? = some w →
      w.getLsbD 0 = true → decodeWord w.toNat = some x →
      let s' := { s with cur := { s.cur with word := w } }
      exec (.dict i) s = exec x s' ∧
      (∀ r : VecForm, (intForm x = some r ∨ floatForm g.frm g.ftz x = some r) → r.Ready s' g → ∃ t, exec (.dict i) s = .next t ∧ r.Done s' t g) ∧
      ∀ r : UniForm, uniForm x = some r → r.Ready s' g →
        ∃ t, exec (.dict i) s = .next t ∧ UniDone s' t g (uniIdx r.d) (r.f (r.reads.map fun y => g.rdW (uniIdx y)))) ∧
    ∀ b : BitVec 5, exec (.movH b b) s = .next (done s g)

namespace Sys2Proof.Claim

/-- A command of a code reaches the endpoint, on an association of the module or from the span firmware on context 0, in a mode that
carries it (R19, R415, R423; that the span firmware's commands name association 0 is the model's choice, log entry 86). -/
def Reaches (s : State) (h : Hdr) (op : Nat) : Prop :=
  arrives s h op = true ∧ (fromFirmware s h = true ∨ s.fw.assocs.contains h.assoc = true)

/-- A command that the delivery mode UUD does not carry reaches the endpoint (R423): any code but those of QUERYQ and PORTQUERY. -/
def Arrives (s : State) (h : Hdr) : Prop := Reaches s h 0

/-- The command names a context of that association, in a state that takes it (R423, R426). -/
def Takes (s : State) (h : Hdr) (c : Context) (ok : CtxState → Bool) : Prop :=
  Arrives s h ∧ mget s.contexts h.ctx.toNat = some c ∧ c.assoc = h.assoc ∧ ok c.st = true

/-- The commands on a context that is open, with their codes (Table 18.6). MAPPG stands apart: it may wait for loads first. -/
def cmdOf : Instr → Option (Hdr × Nat)
  | .setquota h _ => some (h, 0x03)
  | .rmtset h _ _ => some (h, 0x09)
  | .loadk h _ _ => some (h, 0x10)
  | .readyk h _ => some (h, 0x11)
  | .unloadk h _ => some (h, 0x12)
  | .launchk h _ _ _ => some (h, 0x13)
  | .killt h _ _ => some (h, 0x14)
  | .resumeg h _ _ => some (h, 0x15)
  | .startcg h _ _ _ => some (h, 0x16)
  | .createq h _ _ _ _ => some (h, 0x18)
  | .start h _ => some (h, 0x19)
  | .pause h _ => some (h, 0x1A)
  | .drain h _ => some (h, 0x1B)
  | .discard h _ => some (h, 0x1C)
  | .setmask h _ _ => some (h, 0x1D)
  | .queryq h _ _ _ => some (h, 0x1E)
  | .drifyEnq h _ _ _ => some (h, 0x1F)
  | .recordg h _ _ _ _ => some (h, 0x20)
  | .freeg h _ => some (h, 0x21)
  | .replay h _ _ _ => some (h, 0x22)
  | _ => none

/-- The quotas of a command lie in their ranges, and on every core the quotas of all contexts fit (R273, R274). -/
def QuotasFit (s : State) (ctx : Nat) (mask : BitVec 576) (slotQ ctlQ savesz : Nat) : Prop :=
  1 ≤ slotQ ∧ slotQ ≤ 40 ∧ ctlQ ≤ 16 ∧ savesz % 65536 = 0 ∧ quotasFit s ctx mask slotQ ctlQ = true

/-- The body of an OPEN is legal, its key and job are free to be used, and its areas lie apart from those that they may not meet (R275, R417,
R426; R281, R451, R456, log entry 102). -/
def OpenOk (s : State) (ctx : Nat) (b : OpenBody) : Prop :=
  b.keyop.toNat ≤ 1 ∧ (b.keyop = 0 → b.wkey = 0) ∧ (b.keyslot ≠ 0 ∨ ctx = 0) ∧
  (∀ p ∈ s.contexts, p.2.job ≠ b.job) ∧ QuotasFit s ctx b.mask b.slotQuota b.ctlQuota b.savesz.toNat ∧
  areasOk s ctx b.save.toNat b.savesz.toNat b.ptroot.toNat b.faultq.toNat b.rpt.toNat b.rptn.toNat = true ∧
  b.joinwin.toNat % 2 ^ 30 = 0 ∧ 1000 ≤ b.linkto.toNat ∧ b.linkto.toNat ≤ 10000000

/-- A context with the figures of a SETQUOTA. -/
def withQuota (c : Context) (b : QuotaBody) : Context :=
  { c with slotQuota := b.slotQuota, ctlQuota := b.ctlQuota, save := b.save.toNat, savesz := b.savesz.toNat, mask := b.mask }

/-- A save area in use would be replaced (R408). -/
def MovesSave (s : State) (ctx : Nat) (c : Context) (b : QuotaBody) : Prop :=
  saveUsed s ctx c = true ∧ (b.save.toNat ≠ c.save ∨ b.savesz.toNat ≠ c.savesz)

/-- The save area of a SETQUOTA, with the context's other areas, lies apart from every area that it may not meet (R281, R451, R456; log entry
102). -/
def AreaApart (s : State) (ctx : Nat) (c : Context) (b : QuotaBody) : Prop :=
  areasOk s ctx b.save.toNat b.savesz.toNat c.ptroot c.faultq c.rpt c.rptn = true

/-- The state with a queue as CREATEQ makes it; `born` tells a queue from the earlier ones of its id. -/
def withNewQueue (s : State) (h : Hdr) (qid : Nat) (mask : BitVec 576) (ovf ovfsz : BitVec 64) : State :=
  setQueue { s with fresh := s.fresh + 1 } qid
    { ctx := h.ctx.toNat, born := s.fresh, st := .created, discarding := false, mask := mask, ovf := ovf.toNat, ovfsz := ovfsz.toNat, segs := [] }

/-- The answer of QUERYQ (Table 18.9): the queue's state and its READY tasks, its dispatches, and 16 slots. -/
def queueAnswer (s : State) (q : Queue) (seg slot : Nat) : List DWord :=
  u64 (q.st.code + readyTasks s (q.seg seg) * 2 ^ 32) :: u64 (q.seg seg).disp ::
    ((List.range 16).flatMap fun i => slotWords s (q.seg seg) (slot + i))

/-- An object of the command's context. -/
def Own {α : Type} (m : Map α) (ctxOf : α → Nat) (h : Hdr) (id : Nat) (x : α) : Prop := mget m id = some x ∧ ctxOf x = h.ctx.toNat

end Sys2Proof.Claim

open Sys2Proof Sys2Proof.Machine Sys2Proof.Claim

/-- Which commands take no effect (R415, R423, R426): with no link up, or over UUD, nothing arrives, QUERYQ over UUD apart; a command
outside the associations, or for a context of another association, answers 5; one for a CLOSED context, or one whose state takes no such
command, answers 2.
The model's choice: the order in which the association, the state CLOSED and the context's own association are looked at (log entry 45), the
silence on a command that UUD does not carry (log entry 99), and that OPENING and CLOSING take none of these commands, SETQUOTA among
them (log entry 46). -/
def Obligations.CommandsRefused : Prop :=
  ∀ (i : Instr) (h : Hdr) (op : Nat) (s : State), cmdOf i = some (h, op) →
    (fromFirmware s h = false → anyLinkUp s = false ∨ (h.mode = .uud ∧ op ≠ 0x1E) → exec i s = .next s) ∧
    (arrives s h op = true → fromFirmware s h = false → s.fw.assocs.contains h.assoc = false → exec i s = .next (reply s h op 5 [])) ∧
    (Reaches s h op →
      (mget s.contexts h.ctx.toNat = none → exec i s = .next (reply s h op 2 [])) ∧
      ∀ c, mget s.contexts h.ctx.toNat = some c →
        (c.assoc ≠ h.assoc → exec i s = .next (reply s h op 5 [])) ∧
        (c.assoc = h.assoc → c.st = .opening ∨ c.st = .closing → exec i s = .next (reply s h op 2 [])))

/-- OPEN makes an OPENING context and answers the offer, FEATANS opens it or ends it, SETQUOTA sets its figures, CLOSE begins its end,
SWOUT and SWIN begin a switch (R270 to R275, R278, R284, R417, R424, R426, R427). -/
def Sys2Proof.Claim.ContextCommandsComplete : Prop :=
  (∀ (h : Hdr) (b : OpenBody) (s : State), Arrives s h → mget s.contexts h.ctx.toNat = none → OpenOk s h.ctx.toNat b →
    exec (.openCtx h b) s = .next (reply (setContext (if b.keyop = 1 then programKey s b.keyslot.toNat else s) h.ctx.toNat
      (openedContext s h b)) h 0x01 0 [Config.featOffer0.zeroExtend 64, 0, Config.memKey s.tick])) ∧
  (∀ (h : Hdr) (b : OpenBody) (s : State), Arrives s h → (mget s.contexts h.ctx.toNat).isSome = true →
    exec (.openCtx h b) s = .next (reply s h 0x01 2 [])) ∧
  (∀ (h : Hdr) (f0 f1 f2 f3 : BitVec 32) (c : Context) (s : State), Takes s h c (fun st => decide (st = .opening)) →
    exec (.featans h f0 f1 f2 f3) s = .next (if f0.getLsbD 0 = true ∧ f0 &&& ~~~Config.featOffer0 = 0 ∧ f1 = 0 ∧ f2 = 0 ∧ f3 = 0
      then reply (setContext s h.ctx.toNat { c with st := .opened, feat := #v[f0, f1, f2, f3] }) h 0x02 0 []
      else reply { s with contexts := mdel s.contexts h.ctx.toNat } h 0x02 3 [])) ∧
  (∀ (h : Hdr) (b : QuotaBody) (c : Context) (s : State), Takes s h c isOpen →
    (QuotasFit s h.ctx.toNat b.mask b.slotQuota b.ctlQuota b.savesz.toNat → AreaApart s h.ctx.toNat c b → ¬ MovesSave s h.ctx.toNat c b →
      exec (.setquota h b) s = .next (reply (setContext s h.ctx.toNat (withQuota c b)) h 0x03 0 [])) ∧
    (¬ QuotasFit s h.ctx.toNat b.mask b.slotQuota b.ctlQuota b.savesz.toNat ∨ ¬ AreaApart s h.ctx.toNat c b ∨ MovesSave s h.ctx.toNat c b →
      exec (.setquota h b) s = .next (reply s h 0x03 3 []))) ∧
  (∀ (h : Hdr) (c : Context) (s : State), Takes s h c (fun st => decide (st ≠ .closing)) →
    exec (.close h) s = .next (reply (if c.switch = .none then closeSteps (setContext s h.ctx.toNat { c with st := .closing }) h.ctx.toNat
      else setContext s h.ctx.toNat { c with st := .closing }) h 0x04 0 [])) ∧
  (∀ (h : Hdr) (c : Context) (s : State), Takes s h c isOpen → h.ctx ≠ 0 →
    exec (.swout h) s = .next (reply (startOut s h.ctx.toNat).1 h 0x05 0 [u64 (startOut s h.ctx.toNat).2]) ∧
    exec (.swin h) s = .next (reply (startIn s h.ctx.toNat).1 h 0x06 0 [u64 (startIn s h.ctx.toNat).2]))

/-- MAPPG writes its entry at the level it names, published at .dev, and completes the invalidation that covers it, unless the walk stops
above, or the entry would take a save area's mapping away or map memory that no group of the context may reach (status 3); while its
invalidation must wait it waits. RMTSET writes its entry of the remote page table (R396, R402, R408, R411, R419, R424, R426). Reserved bits
of an entry are written 0 (R4). -/
def Sys2Proof.Claim.PageCommandsComplete : Prop :=
  ∀ (h : Hdr) (c : Context) (s : State), Takes s h c isOpen →
    (∀ (va entry : BitVec 64) (level : Nat) (zero : Bool),
      (mapWaits s h.ctx.toNat va level = true → exec (.mappg h va entry level zero) s =
        .next { s with pendingCmds := s.pendingCmds ++ [.mappg h va entry level zero] }) ∧
      (mapWaits s h.ctx.toNat va level = false →
        (5 < level → exec (.mappg h va entry level zero) s = .next (reply s h 0x08 4 [])) ∧
        (level ≤ 5 → 2 ^ 57 ≤ va.toNat → exec (.mappg h va entry level zero) s = .next (reply s h 0x08 3 [])) ∧
        (level ≤ 5 → va.toNat < 2 ^ 57 → inMemory c.ptroot = true → c.ptroot % 4096 = 0 →
          let rd := rdEntry s (dieAgent 0) s.fresh
          (tableAt rd va.toNat level 5 c.ptroot = none → exec (.mappg h va entry level zero) s = .next (reply s h 0x08 3 [])) ∧
          (∀ base, tableAt rd va.toNat level 5 c.ptroot = some base →
            let pa := base + 8 * vaIndex va.toNat level
            exec (.mappg h va entry level zero) s = .next (if mapRefused s h.ctx.toNat rd (rd pa) (entryWritten entry) level zero
              then reply s h 0x08 3 []
              else reply (invalidate (writeEntry s (keySerial s c.keyslot) pa level (entryWritten entry) zero)
                { moment := 0, ctx := some h.ctx.toNat, va := if isPointer (rd pa) level then none else some va.toNat }) h 0x08 0 []))))) ∧
    (∀ (index : BitVec 32) (entry : BitVec 512), inMemory (c.rpt + 64 * index.toNat) = true →
      exec (.rmtset h index entry) s = .next (if c.rptn ≤ index.toNat then reply s h 0x09 3 []
        else reply (devWrite s (keySerial s c.keyslot) (c.rpt + 64 * index.toNat) (leList (rptWritten entry).toNat 64)) h 0x09 0 []))

/-- LOADK makes a kernel in LOADED of an image that passes R95 and answers its ids, or answers 3; READYK and UNLOADK move it on; STARTCG
starts a control group of it; LAUNCHK and ENQ insert a task and say whether it went in; KILLT and RESUMEG act on the group of a handle
(R19, R95, R296, R304 to R306, R310, R355, R424, R426, R427).
The model's choice: the statuses of READYK, UNLOADK and STARTCG (log entry 44), the answer that names the failed check beside status 3 (log
entry 88), the free ids and frames of LOADK and the free slot of STARTCG (log entry 37), and status 3 for an image that lies on a remote
page (log entry 99). -/
def Obligations.KernelCommandsComplete : Prop :=
  ∀ (h : Hdr) (c : Context) (s : State), Takes s h c isOpen →
    (∀ (addr : BitVec 64) (size : Nat),
      (devBytes s h.ctx.toNat addr size = none → exec (.loadk h addr size) s = .next (reply s h 0x10 3 [])) ∧
      ∀ b, devBytes s h.ctx.toNat addr size = some b →
        (∀ n, failedCheck c b = some n →
          exec (.loadk h addr size) s = .next (reply { s with answers := s.answers ++ [.check h n] } h 0x10 3 [])) ∧
        (failedCheck c b = none → ∀ kid base,
          freePick s (2 ^ 94) ((List.range 65536).filter fun k => (mget s.kernels k).isNone) = some kid →
          freePick s (2 ^ 95) (freeBases s h.ctx.toNat (imgField b 0x14 2)) = some base →
          (loadImageAs s h.ctx.toNat c kid base b = none → exec (.loadk h addr size) s = .next (reply s h 0x10 3 [])) ∧
          ∀ x, loadImageAs s h.ctx.toNat c kid base b = some x →
            exec (.loadk h addr size) s = .next (reply x.1 h 0x10 0 [u64 (kid + base * 2 ^ 16), x.2.data]) ∧
              mget x.1.kernels kid = some x.2 ∧ x.2.st = .loaded ∧ x.2.ctx = h.ctx.toNat ∧ x.2.base = base)) ∧
    (∀ (kid : Nat), (∀ k, ¬ Own s.kernels Kernel.ctx h kid k) →
      exec (.readyk h kid) s = .next (reply s h 0x11 3 []) ∧ exec (.unloadk h kid) s = .next (reply s h 0x12 3 [])) ∧
    (∀ (kid : Nat) (k : Kernel), Own s.kernels Kernel.ctx h kid k →
      exec (.readyk h kid) s = .next (if k.st = .loaded then reply (setKernel s kid { k with st := .ready }) h 0x11 0 []
        else reply s h 0x11 2 []) ∧
      exec (.unloadk h kid) s = .next (if k.st = .drained ∨ k.unload = true then reply s h 0x12 2 []
        else reply (unloadKernel s kid k) h 0x12 0 []) ∧
      ∀ (core : Nat) (r : TaskRec), k.st ≠ .drained →
        (r.zero ≠ 0 → exec (.startcg h core kid r) s = .next (reply s h 0x16 4 [])) ∧
        (∀ x, r.zero = 0 → startControl s h.ctx.toNat core kid r = some x → exec (.startcg h core kid r) s =
          .next (reply x.1 h 0x16 0 [handleOf x.2])) ∧
        (r.zero = 0 → startControl s h.ctx.toNat core kid r = none → exec (.startcg h core kid r) s = .next (reply s h 0x16 3 []))) ∧
    (∀ (qid teams : Nat) (q : Queue) (r : TaskRec), Own s.queues Queue.ctx h qid q → entryOk s h.ctx.toNat r = true → recordOk r = true →
      (0 < teams → exec (.launchk h qid teams r) s = .next (match insertTask s qid { r with depth := 0 } teams with
        | some s' => reply s' h 0x13 0 [1]
        | none => reply s h 0x13 0 [0])) ∧
      exec (.drifyEnq h qid 1 r) s = .next (match insertTask s qid { r with depth := 0 } 1 with
        | some s' => reply s' h 0x1F 0 [1]
        | none => reply s h 0x1F 0 [0])) ∧
    (∀ (x : BitVec 64), handleOk x = true →
      (∀ grid, groupNamed s h.ctx.toNat c x = none → exec (.killt h x grid) s = .next (reply s h 0x14 3 [])) ∧
      (∀ gid g, groupNamed s h.ctx.toNat c x = some (some gid, g) → teamOfHandle s c g = none →
        ∀ grid, exec (.killt h x grid) s = .next (reply (killFalls s gid) h 0x14 0 [])) ∧
      (∀ gid g t gr, groupNamed s h.ctx.toNat c x = some (gid, g) → teamOfHandle s c g = some (t, gr) →
        exec (.killt h x false) s = .next (reply (killTeams s h.ctx.toNat [t]) h 0x14 0 []) ∧
        exec (.killt h x true) s = .next (reply (killTeams (removeTasks s fun _ _ y => decide (y.grid = gr)) h.ctx.toNat
          (gridTeams s c gr)) h 0x14 0 [])) ∧
      ∀ kill, slice x 48 8 = h.ctx.toNat → exec (.resumeg h x kill) s = .next (match resumeBy s x kill with
        | some s' => reply s' h 0x15 0 [0]
        | none => reply s h 0x15 0 [1]))

/-- The queue commands (R286 to R289, Table 11.2): CREATEQ makes a CREATED queue, over a DESTROYED one too; START, PAUSE, DRAIN and
DISCARD move it from the states that take them and else answer 2; SETMASK sets its mask; QUERYQ, which UUD carries too, answers its state and
16 slots. An id that names no queue answers 3. -/
def Sys2Proof.Claim.QueueCommandsComplete : Prop :=
  ∀ (h : Hdr) (c : Context) (s : State) (qid : Nat),
    (Reaches s h 0x1E → mget s.contexts h.ctx.toNat = some c → c.assoc = h.assoc → isOpen c.st = true →
      (∀ q, Own s.queues Queue.ctx h qid q → ∀ seg slot, seg < 1024 → slot < 256 →
        exec (.queryq h qid seg slot) s = .next (reply s h 0x1E 0 (queueAnswer s q seg slot))) ∧
      ((∀ q, ¬ Own s.queues Queue.ctx h qid q) → ∀ seg slot, exec (.queryq h qid seg slot) s = .next (reply s h 0x1E 3 []))) ∧
    (Takes s h c isOpen →
      (∀ (ovf ovfsz : BitVec 64) (mask : BitVec 576), qid < 4096 → (∀ q, mget s.queues qid = some q → q.st = .destroyed) →
        mask &&& ~~~c.mask = 0 → ovfsz.toNat % 131072 = 0 →
        exec (.createq h qid ovf ovfsz mask) s = .next (reply (withNewQueue s h qid mask ovf ovfsz) h 0x18 0 [])) ∧
      (∀ q, Own s.queues Queue.ctx h qid q →
        exec (.start h qid) s = .next (if q.st = .created ∨ q.st = .paused then reply (setQueue s qid { q with st := .active }) h 0x19 0 []
          else reply s h 0x19 2 []) ∧
        exec (.pause h qid) s = .next (if q.st = .active then reply (setQueue s qid { q with st := .paused }) h 0x1A 0 []
          else reply s h 0x1A 2 []) ∧
        exec (.drain h qid) s = .next (if q.st = .created ∨ q.st = .active ∨ q.st = .paused
          then reply (settleQueues (setQueue s qid { q with st := .draining })) h 0x1B 0 [] else reply s h 0x1B 2 []) ∧
        exec (.discard h qid) s = .next (if q.st = .destroyed then reply s h 0x1C 2 [] else reply (removeTasks (setQueue s qid
          { q with st := .draining, discarding := true }) fun i _ _ => decide (i = qid)) h 0x1C 0 []) ∧
        (∀ mask : BitVec 576, exec (.setmask h qid mask) s = .next (if q.st = .destroyed then reply s h 0x1D 2 []
          else if mask &&& ~~~c.mask = 0 then reply (setQueue s qid { q with mask := mask }) h 0x1D 0 [] else reply s h 0x1D 3 []))) ∧
      ((∀ q, ¬ Own s.queues Queue.ctx h qid q) → ∀ (mask : BitVec 576),
        exec (.start h qid) s = .next (reply s h 0x19 3 []) ∧ exec (.pause h qid) s = .next (reply s h 0x1A 3 []) ∧
        exec (.drain h qid) s = .next (reply s h 0x1B 3 []) ∧ exec (.discard h qid) s = .next (reply s h 0x1C 3 []) ∧
        exec (.setmask h qid mask) s = .next (reply s h 0x1D 3 [])))

/-- The graph commands (R298, R300): RECORDG reads its command list and makes an IDLE graph, FREEG takes one away, REPLAY starts an idle
one with the parameters it supplies and answers 1 for one that is replaying. -/
def Sys2Proof.Claim.GraphCommandsComplete : Prop :=
  ∀ (h : Hdr) (c : Context) (s : State) (gid : Nat), Takes s h c isOpen →
    (∀ (count core : Nat) (addr : BitVec 64) (b : List Byte) (s' : State), gid < 1024 → mget s.graphs gid = none → 0 < count → count ≤ 4096 →
      devBytes s h.ctx.toNat addr (128 * count) = some b → recordGraph s h.ctx.toNat gid count core addr (chunks128 count b) = some s' →
      exec (.recordg h gid count core addr) s = .next (reply s' h 0x20 0 []) ∧
        ∃ x, mget s'.graphs gid = some x ∧ x.replaying = false ∧ x.count = count ∧ x.cmds = chunks128 count b) ∧
    (∀ x, Own s.graphs Graph.ctx h gid x →
      exec (.freeg h gid) s = .next (reply (freeGraph s gid x) h 0x21 0 []) ∧
      ∀ (mask : BitVec 16) (gp : Vector (BitVec 64) 16), exec (.replay h gid mask gp) s = .next (if x.replaying then reply s h 0x22 1 []
        else reply (setGraph s gid (suppliedGp x mask gp).start) h 0x22 0 []))

/-- The port commands act on context id 0 alone, PORTQUERY over UUD too (R413 to R415, R423, R426); ATTEST needs no association and does not
arrive over UUD, answers 1 until the keystone can sign, then a report and the certificate chain (R452, R453); a malformed command answers 4
(R424, R426). -/
def Sys2Proof.Claim.PortCommandsComplete : Prop :=
  ∀ (h : Hdr) (s : State),
    (Reaches s h 0x30 → ∀ l : Nat,
      (h.ctx ≠ 0 → exec (.portquery h l) s = .next (reply s h 0x30 5 [])) ∧
      (h.ctx = 0 → l < 8 → exec (.portquery h l) s = .next (reply s h 0x30 0
        [u64 ((linkOf s l).st.code + (linkOf s l).lanes * 2 ^ 8 + (linkOf s l).errors * 2 ^ 32)]))) ∧
    (Arrives s h → ∀ l : Nat,
      (h.ctx ≠ 0 → ∀ (a : BitVec 32) (b : BitVec 128), exec (.portup h l) s = .next (reply s h 0x31 5 []) ∧
        exec (.portdrain h l) s = .next (reply s h 0x32 5 []) ∧ exec (.setport h l a b) s = .next (reply s h 0x33 5 [])) ∧
      (h.ctx = 0 → l < 8 → ∀ x, x = linkOf s l →
        exec (.portup h l) s = .next (if x.st = .down then reply (setLink s l { x with st := .training, attempts := 0 }) h 0x31 0 []
          else reply s h 0x31 2 []) ∧
        exec (.portdrain h l) s = .next (if x.st = .up ∨ x.st = .degraded then reply (setLink s l { x with st := .draining }) h 0x32 0 []
          else reply s h 0x32 2 []) ∧
        ∀ (a : BitVec 32) (b : BitVec 128), exec (.setport h l a b) s =
          .next (reply (setLink s l { x with ipv4 := a, ipv6 := b }) h 0x33 0 []))) ∧
    (anyLinkUp s = false ∨ h.mode = .uud → ∀ nonce : BitVec 384,
      exec (.attest h nonce) s = .next s ∧ exec (.badCommand h 0x38) s = .next s) ∧
    (anyLinkUp s = true → h.mode ≠ .uud → ∀ nonce : BitVec 384,
      (h.ctx ≠ 0 → exec (.attest h nonce) s = .next (reply s h 0x38 4 [])) ∧
      (h.ctx = 0 → s.fw.canSign = false → exec (.attest h nonce) s = .next (reply s h 0x38 1 [])) ∧
      (h.ctx = 0 → s.fw.canSign = true → exec (.attest h nonce) s = .next
        { s with fw := { s.fw with reports := s.fw.reports + 1, liveReports := s.fw.liveReports ++ [s.fw.reports + 1] }
                 answers := s.answers ++ [.report h (reportBytes s (s.fw.reports + 1) nonce ++ Config.certChain)] }) ∧
      exec (.badCommand h 0x38) s = .next (reply s h 0x38 4 [])) ∧
    (∀ op : BitVec 16, Reaches s h op.toNat → op ≠ 0x38 → (h.ctx = 0 ∨ ∀ c, mget s.contexts h.ctx.toNat = some c → c.assoc = h.assoc) →
      exec (.badCommand h op) s = .next (reply s h op.toNat 4 []))

namespace Sys2Proof.Claim

/-- An operation arrives at the memory endpoint over a link that is UP or DEGRADED, or, on a packet delivery context that is open, over a
link that is DRAINING (R417, Table 18.1). -/
def PeerArrives (s : State) (p : PeerHdr) : Prop :=
  p.link < 8 ∧ ((linkOf s p.link).st = .up ∨ (linkOf s p.link).st = .degraded ∨
    ((linkOf s p.link).st = .draining ∧ (linkOf s p.link).pdcs.contains p.pdc = true))

/-- The context an operation names by its job id, with the memory key of that context (R417). -/
def PeerOf (s : State) (p : PeerHdr) (ctx : Nat) : Prop :=
  (s.contexts.find? fun c => c.2.job == p.job && c.2.memkey == p.mkey).map (·.1) = some ctx

/-- A response of the memory endpoint (R418); the packet delivery context of the operation is open from then on. -/
def respond (s : State) (p : PeerHdr) (data : Option (List Byte)) : State :=
  openPdc { s with answers := s.answers ++ [.endpoint p.link data.isSome (data.getD [])] } p

/-- A cluster at the start of a change (R429 step 1); whether the cap lowers the goal is settled then (R432). -/
def changing (c : Cluster) (target goal : OpPoint) (now : Nat) : Cluster :=
  { c with target := target, mailbox := none, capMoved := false
           change := some { goal := goal, capped := capped target c.cap, phase := if c.point.vmv < goal.vmv then .rampUp else .relock, since := now } }

/-- Every cluster runs at its latest target (R429). -/
def AllSettled (s : State) : Prop := ∀ p ∈ s.clusters, p.2.change = none ∧ p.2.mailbox = none

/-- A link that has gone DOWN: no lane is good, no packet delivery context is open. -/
def gone (x : Link) : Link := { x with st := .down, lanes := 0, attempts := 0, pdcs := [] }

/-- A link as an event leaves it; accesses whose link carries them no longer go to another of their ports (R419). -/
def moved (s : State) (l : Nat) (x : Link) : State := reroute (setLink s l x)

/-- The state after the accesses that a remote acknowledgement answers are taken away. -/
def without (s : State) (id : Nat) : State := { s with remotes := s.remotes.filter fun x => decide (x.id ≠ id) }

/-- A remote access in flight. -/
def InFlight (s : State) (id : Nat) (r : RemoteOp) : Prop := (s.remotes.find? fun r => decide (r.id = id)) = some r

end Sys2Proof.Claim

open Sys2Proof Sys2Proof.Machine Sys2Proof.Claim

/-- The link events of Table 18.2 (R413 to R416): each moves its link from the states that take it, and in any other state changes
nothing. A link trains with 8 good lanes to UP, with 4 to 7 to DEGRADED, and goes DOWN after three failed attempts; a DRAINING link goes DOWN
once no access of the module is left on it. -/
def Sys2Proof.Claim.LinkEventsComplete : Prop :=
  ∀ (s : State) (l : Nat), l < 8 → ∀ x, x = linkOf s l →
    (∀ n, exec (.trained l n) s = .next (if x.st = .training ∧ 4 ≤ n ∧ n ≤ 8
      then moved s l { x with st := if n = 8 then .up else .degraded, lanes := n, attempts := 0 } else s)) ∧
    exec (.trainFail l) s = .next (if x.st = .training then moved s l (if 2 ≤ x.attempts
      then gone x else { x with attempts := x.attempts + 1 }) else s) ∧
    (∀ n, exec (.laneLoss l n) s = .next (if x.st = .up ∧ 4 ≤ n ∧ n ≤ 7 then moved s l { x with st := .degraded, lanes := n } else s)) ∧
    exec (.laneRegain l) s = .next (if x.st = .degraded then moved s l { x with st := .up, lanes := 8 } else s) ∧
    exec (.drained l) s = .next (if x.st = .draining ∧ (∀ r ∈ s.remotes, r.link ≠ some l) then moved s l (gone x) else s) ∧
    exec (.signalLoss l) s = .next (if x.st = .down then s else moved s l (gone x)) ∧
    exec (.unsupportedOptionPacket l) s = .next (if x.st = .up ∨ x.st = .degraded ∨ x.st = .draining
      then moved s l { x with errors := (x.errors + 1) % 2 ^ 32 } else s)

/-- An operation of a peer whose job id or memory key names no context has no effect and answers an error; a write publishes each unit of
its bytes at .sys before it answers, a read answers M's bytes, and fetch-add and compare-swap answer the old value (R417, R418, R147). -/
def Sys2Proof.Claim.PeerOperationsComplete : Prop :=
  ∀ (s : State) (p : PeerHdr), PeerArrives s p → ∀ (data : List (BitVec 8)) (len : Nat) (v c n : BitVec 64),
    ((∀ ctx, ¬ PeerOf s p ctx) →
      exec (.peerWrite p data) s = .next (respond s p none) ∧ exec (.peerRead p len) s = .next (respond s p none) ∧
      exec (.peerFetchAdd p v) s = .next (respond s p none) ∧ exec (.peerCompareSwap p c n) s = .next (respond s p none)) ∧
    ∀ ctx, PeerOf s p ctx →
      (∀ ws, p.va.toNat + data.length ≤ 2 ^ 57 →
        peerWrites s ctx (unitGroups ((List.range data.length).zip data |>.map fun q => (p.va.toNat + q.1, q.2))) = some ws →
        exec (.peerWrite p data) s =
          .next (respond (ws.foldl (fun s w => publish s (dieAgent (cellsDie w.2)) none none .sys w.1 w.2) s) p (some []))) ∧
      (∀ rs, p.va.toNat + len ≤ 2 ^ 57 →
        peerUnits s ctx (((List.range len).map fun i => (p.va.toNat + i) / 8).eraseDups) = some rs →
        exec (.peerRead p len) s = .next (respond s p (some ((List.range len).map fun i =>
          ((mget rs ((p.va.toNat + i) / 8)).bind fun b => b[(p.va.toNat + i) % 8]?).getD 0)))) ∧
      (p.va.toNat % 8 ≠ 0 → exec (.peerFetchAdd p v) s = .next (respond s p none) ∧
        exec (.peerCompareSwap p c n) s = .next (respond s p none)) ∧
      (∀ t, p.va.toNat % 8 = 0 → peerTrans s ctx p.va .rmw = some t → (∀ a ∈ paRange t.pa 8, badByte s a = false) →
        let at' (f : Nat → Option Nat) := atomicAt s (dieAgent (homeDie t.pa)) none .sys (keySerial s t.key) 0 (paRange t.pa 8) f
        exec (.peerFetchAdd p v) s = .next (respond (at' fun m => some ((m + v.toNat) % 2 ^ 64)).1 p
          (some (leList (at' fun m => some ((m + v.toNat) % 2 ^ 64)).2.1 8))) ∧
        exec (.peerCompareSwap p c n) s = .next (respond (at' fun m => if m = c.toNat then some n.toNat else none).1 p
          (some (leList (at' fun m => if m = c.toNat then some n.toNat else none).2.1 8))))

/-- A remote access ends once: with the acknowledgement of a peer that some link brings, giving its load or its lane of an ATOM the value
and its Publish, engine operation or delivery one write less to wait for, its reader the bytes (R420, R421); or, the context's link timeout
gone by, as Table 18.5 says (R422): the load, the lane and the read fail, the entry of a Publish is discarded with a record, its group there
or gone, the engine operation goes on in error, the delivery stalls. Under ROD the entries of one Publish are performed in issue order
(R421). -/
def Sys2Proof.Claim.RemoteAccessesEnd : Prop :=
  ∀ (s : State) (id : Nat) (r : RemoteOp), InFlight s id r →
    (∀ v : BitVec 128,
      (r.link = none ∨ behindEntry s r = true → exec (.remoteAck id v) s = .next s) ∧
      (r.link ≠ none → behindEntry s r = false →
        (∀ g l, r.kind = .load g l → exec (.remoteAck id v) s =
          .next (settleLoad (without s id) g l fun x => { x with val := some (overlaid v r.cells) })) ∧
        (∀ g tag lane, r.kind = .atomic g tag lane → exec (.remoteAck id v) s =
          .next (settleAtom (without s id) g tag lane fun x => { x with old := some (v.toNat % 2 ^ 64) })) ∧
        (∀ g h, r.kind = .entry g h → exec (.remoteAck id v) s = .next (settleEntry (without s id) g id)) ∧
        (∀ core op, r.kind = .engine core op → exec (.remoteAck id v) s = .next (settleWrite (without s id) core op id)) ∧
        (∀ tid row, r.kind = .deliver tid row → exec (.remoteAck id v) s = .next (settleDelivery (without s id) tid row r.va)) ∧
        (∀ by' unit, r.kind = .read by' unit → exec (.remoteAck id v) s =
          .next (settleRead (without s id) by' unit (some (leList v.toNat 8)))))) ∧
    (∀ c, mget s.contexts r.ctx = some c →
      (s.tstamp < r.since + 1000 * c.linkto → exec (.linkTimeout id) s = .next s) ∧
      (r.since + 1000 * c.linkto ≤ s.tstamp →
        (∀ g l, r.kind = .load g l → exec (.linkTimeout id) s = .next (settleLoad (without s id) g l fun x => { x with bad := true })) ∧
        (∀ g tag lane, r.kind = .atomic g tag lane → exec (.linkTimeout id) s =
          .next (settleAtom (without s id) g tag lane fun x => { x with bad := some (10, 0) })) ∧
        (∀ g h, r.kind = .entry g h → exec (.linkTimeout id) s =
          .next (postRecord (settleEntry (without s id) g r.id) r.ctx (discardRecord h 10 r.va))) ∧
        (∀ core op o, r.kind = .engine core op → findOp (without s id) core op = some o →
          exec (.linkTimeout id) s = .next (settleWrite (markErr (without s id) o) core op r.id)) ∧
        (∀ tid row, r.kind = .deliver tid row → exec (.linkTimeout id) s = .next (failDelivery (without s id) tid row r.va)) ∧
        (∀ by' unit, r.kind = .read by' unit → exec (.linkTimeout id) s = .next (settleRead (without s id) by' unit none))))

/-- MODULE_RESET leaves every part of the module as it is after reset but memory, which nothing scrubs, and the counts that outlive a
reset (R277, R451); BOOT_STEP goes one step on, or stops at a check that fails, and step 4 leaves every cluster on its way to the reset point,
which step 5 waits for (R428, R429); the keystone signs from step 6 on; the key pair of one
report completes one association (R451 to R453).
That MODULE_RESET keeps memory and the pending events on it is the model's choice (log entry 56): R277 says only that memory is not scrubbed
between owners. -/
def Obligations.FirmwareEventsComplete : Prop :=
  ∀ s : State,
    (∃ t, exec .moduleReset s = .next t ∧ t.mem = s.mem ∧ t.events = s.events ∧ t.groups = [] ∧ t.teams = [] ∧ t.cores = [] ∧
      t.clusters = [] ∧ t.contexts = [] ∧ t.kernels = [] ∧ t.queues = [] ∧ t.graphs = [] ∧ t.links = [] ∧ t.remotes = [] ∧ t.acks = [] ∧
      t.fw.step = 0 ∧ t.fw.stopped = false ∧ t.fw.canSign = false ∧ t.fw.assocs = [] ∧ t.fw.liveReports = [] ∧
      t.fw.keySlots = [] ∧ t.fw.resets = s.fw.resets + 1) ∧
    (∀ ok, s.fw.stopped = true → exec (.bootStep ok) s = .next s) ∧
    (∀ ok, s.fw.stopped = false → ∃ t, exec (.bootStep ok) s = .next t ∧
      ((s.fw.step = 0 ∨ s.fw.step = 2) → ok = false → t.fw.stopped = true ∧ t.fw.step = s.fw.step) ∧
      (s.fw.step < 6 → ((s.fw.step = 0 ∨ s.fw.step = 2) → ok = true) → (s.fw.step = 4 → AllSettled s) →
        t.fw.stopped = false ∧ t.fw.step = s.fw.step + 1) ∧
      (s.fw.step = 3 → ∀ n c, mget s.clusters n = some c → ∃ c', mget t.clusters n = some c' ∧ c'.mailbox.getD c'.target = ⟨675, 850, 1⟩) ∧
      (s.fw.step = 4 → ¬ AllSettled s → t = s) ∧
      (s.fw.step = 5 → (mget t.contexts 0).map (·.st) = some .opened ∧ ∀ l, l < 8 → (linkOf t l).st = .training)) ∧
    exec .keystoneReadyToSign s = .next (if 6 ≤ s.fw.step then { s with fw := { s.fw with canSign := true } } else s) ∧
    (∀ assoc report : Nat, anyLinkUp s = true → report ∈ s.fw.liveReports → assoc ≠ 0 → assoc ∉ s.fw.assocs →
      exec (.tssAssociation assoc report) s = .next { s with fw := { s.fw with
        liveReports := s.fw.liveReports.filter (fun x => decide (x ≠ report)), assocs := s.fw.assocs ++ [assoc] } })

/-- The events of a cluster's operating point (R428 to R436): the span firmware posts a legal target or sets CSLR or DDTR, a cap takes
effect as the next change, a change begins with the supply when it rises and with the clock otherwise, ramps take 100 ns per mV and a
relock 1000 ns, and the supply falls last. -/
def Sys2Proof.Claim.OperatingPointEventsComplete : Prop :=
  ∀ (s : State) (n : Nat), ∀ c, c = clusterOf s n →
    (3 ≤ s.fw.step → n < 144 →
      (∀ cap, exec (.capChange n cap) s = .next (setCluster s n { c with cap := some cap, capMoved := true })) ∧
      (∀ p, LegalPoint p → exec (.spanFirmwareClusterSetting n (.target p)) s = .next (setCluster s n { c with mailbox := some p })) ∧
      (∀ v, v &&& ~~~0xFF3F#32 = 0 → exec (.spanFirmwareClusterSetting n (.cslr v)) s = .next (setCluster s n { c with cslr := v })) ∧
      (∀ v, 10 ≤ v.toNat → v.toNat ≤ 100 → exec (.spanFirmwareClusterSetting n (.ddtr v)) s = .next (setCluster s n { c with ddtr := v }))) ∧
    (c.change = none → (c.mailbox ≠ none ∨ c.capMoved = true) → ∀ target goal, target = c.mailbox.getD c.target →
      goal = (match c.cap with | none => target | some f => { target with lfreq := min target.lfreq f }) → goal ≠ c.point →
      exec (.opChangeStart n) s = .next (setCluster s n (changing c target goal s.tstamp))) ∧
    (∀ x, c.change = some x →
      (x.phase = .rampUp → x.since + 100 * (x.goal.vmv - c.point.vmv) ≤ s.tstamp → c.point.vmv ≤ x.goal.vmv →
        exec (.supplyRampDone n) s = .next (setCluster s n { c with change := some { x with phase := .relock, since := s.tstamp } })) ∧
      (x.phase = .rampDown → x.since + 100 * (c.point.vmv - x.goal.vmv) ≤ s.tstamp → x.goal.vmv ≤ c.point.vmv →
        exec (.supplyRampDone n) s = .next (endChange s n x.goal x.capped)) ∧
      (x.phase = .relock → x.since + 1000 ≤ s.tstamp →
        exec (.relockDone n) s = .next (if x.goal.vmv < c.point.vmv
          then setCluster s n { c with change := some { x with phase := .rampDown, since := s.tstamp } } else endChange s n x.goal x.capped)))

/-- The droop response (R436, Table 19.6): an alarm in lane cycle t stretches the six that follow, then a window of 64 follows, and then
the cluster is idle; an alarm within a stretch does nothing more. A release wave lets at most WAVE groups go, GAP lc after the wave before,
and no two waves leave in one lc (R379, R435). -/
def Sys2Proof.Claim.DroopAndWaveEventsComplete : Prop :=
  ∀ (s : State) (n : Nat), ∀ c, c = clusterOf s n →
    (c.relocking = false → (∀ t, c.droop = .stretch t → t + 7 ≤ c.cycle) →
      exec (.droopAlarm n) s = .next (setCluster s n { c with droop := .stretch c.cycle })) ∧
    (∀ t, c.droop = .stretch t →
      (c.cycle < t + 7 → exec (.droopAlarm n) s = .next s ∧ exec (.droopStretchEnd n) s = .next s) ∧
      (t + 7 ≤ c.cycle → c.cycle < t + 71 → exec (.droopStretchEnd n) s = .next (setCluster s n { c with droop := .window (t + 7) }))) ∧
    (∀ t, c.droop = .window t →
      (t + 64 ≤ c.cycle → exec (.droopWindowEnd n) s = .next (setCluster s n { c with droop := .idle })) ∧
      (c.cycle < t + 64 → exec (.droopWindowEnd n) s = .next s)) ∧
    (c.relocking = true → exec (.droopAlarm n) s = .next s ∧ exec (.releaseWave n) s = .next s) ∧
    (c.relocking = false → exec (.releaseWave n) s = .next (if c.waveQ ≠ [] ∧ (∀ t, c.lastWave = some t → t + max 1 (gapOf c.cslr) ≤ c.cycle)
      then setCluster s n { c with waveQ := c.waveQ.drop (waveOf c.cslr), lastWave := some c.cycle } else s))

namespace Sys2Proof.Claim

/-- A task of a slot that may go to a core now (R287, R291 to R293): its queue dispatches, the core may take it, its kernel is READY or
RUNNING, the core has room for one team as `place` has it, no promotion or refill is due in the segment, and no task before it fits. -/
structure MayDispatch (s : State) (qid seg slot core : Nat) (place : Placing) (q : Queue) (t : Task) (kid : Nat) (k : Kernel) : Prop where
  queue : mget s.queues qid = some q
  task : mget (q.seg seg).slots slot = some t
  kernel : taskKernel s q t = some (kid, k)
  runs : dispatching s q = true
  may : coreMay s q seg core t = true
  room : roomFor s core q.ctx kid k (ceilDiv k.scratch 256 * 256) k.acc = true
  placing : placingOk s core (teamShape k t.record) place = true
  aged : ∀ p ∈ (q.seg seg).slots, (q.seg seg).disp < p.2.age0 + 65536
  agedSpill : ∀ p ∈ (q.seg seg).spill, (q.seg seg).disp < p.2.age0 + 65536
  refilled : (q.seg seg).spill = [] ∨ (q.seg seg).free = none
  first : ∀ p ∈ (q.seg seg).slots, p.1 ≠ slot → before p.2 t = true → coreMay s q seg core p.2 = true → taskFits s q core p.2 = false

/-- The interpreter of a graph stands at a command of a kind (R298, R299). -/
def AtCommand (s : State) (gid kind : Nat) (x : Graph) (g : Machine.Group) (c : List Byte) : Prop :=
  mget s.graphs gid = some x ∧ interpreter s x = some g ∧ x.cmds[x.pos]? = some c ∧ cmdField c 0 1 = kind

/-- The record of a TASK command with what the replay patches in (R300 step 3). -/
def patched (x : Graph) (c : List Byte) : TaskRec :=
  let r := recordOf ((c.drop 16).take 80)
  { r with depth := 0, join := patchedJoin x r.join, args := Vector.ofFn fun i => patchedArg x c r i }

/-- The state after a Publish at .dev by the interpreter. -/
def interpreterPublish (s : State) (x : Graph) : State × List Nat × Bool := publishGroup s x.cg .dev

/-- A core after KERNEL_RELEASE: the residencies of the kernel that no group refers to and no team pins go to EVICTING, its dictionary is
freed (R306, R333). -/
def released (s : State) (kid core : Nat) (k : Kernel) : Core :=
  { coreOf s core with
    dicts := (coreOf s core).dicts.filter fun d => decide (d.1 ≠ kid)
    res := (coreOf s core).res.map fun r =>
      if ofKernel k r && decide (r.st = .resident) && decide (refCount s core r = 0) && (r.transit || decide (pinCount s core r.ctx r.ov = 0))
      then { r with st := .evicting } else r }

/-- Nothing of Table 12.4 holds an ended team, and no switch has stopped its context (R310, R311, R282). -/
structure Retires (s : State) (tid : Nat) (t : Team) : Prop where
  team : mget s.teams tid = some t
  ended : t.ended = true
  seq : ∀ o ∈ (coreOf s t.core).seq, o.team ≠ tid
  eng : ∀ o ∈ (coreOf s t.core).eng, o.team ≠ tid
  subs : t.subs = []
  commits : ∀ i : Fin 32, t.cr[i] = .empty
  context : switching s t.ctx = false

/-- A group stands at an instruction boundary, where a kill can take effect (R377). -/
def Between (g : Machine.Group) : Prop :=
  (∀ p, g.publishing = some p → p.stopped = true) ∧ g.reclaiming = none ∧ g.peerHeld = false

end Sys2Proof.Claim

open Sys2Proof Sys2Proof.Machine Sys2Proof.Claim

/-- DISPATCH places one team of the task that comes first among those that fit the core, and the slot goes on to its next team or
is free after the last (R291, R292), no spilled task passed over while a slot is free for it (R62, R289); a dispatch that may not be changes
nothing. TASK_PROMOTION raises the priority of a task 65,536 dispatches old, in a slot or spilled (R293). OVERFLOW_REFILL moves the first
spilled task into the lowest free slot, as the overflow ring
holds it (R289). -/
def Sys2Proof.Claim.DispatchEventsComplete : Prop :=
  (∀ (s : State) (qid seg slot core : Nat) (place : Placing) (q : Queue) (t : Task) (kid : Nat) (k : Kernel),
    MayDispatch s qid seg slot core place q t kid k → exec (.dispatch qid seg slot core place) s =
      .next (settleQueues (placeTeam (setQueue s qid (q.setSeg seg { (q.seg seg) with
        disp := (q.seg seg).disp + 1,
        slots := if t.next + 1 = t.nteam then mdel (q.seg seg).slots slot else mput (q.seg seg).slots slot { t with next := t.next + 1 } }))
        q.ctx kid k core qid q.born t place))) ∧
  (∀ (s : State) (qid seg slot core : Nat) (place : Placing),
    (∀ q t kid k, ¬ MayDispatch s qid seg slot core place q t kid k) → exec (.dispatch qid seg slot core place) s = .next s) ∧
  (∀ (s : State) (qid seg slot : Nat) (q : Queue) (t : Task), mget s.queues qid = some q → slot < 256 →
    mget (q.seg seg).slots slot = some t → t.age0 + 65536 ≤ (q.seg seg).disp → exec (.taskPromotion qid seg slot) s =
      .next (setQueue s qid (q.setSeg seg { (q.seg seg) with
        slots := mput (q.seg seg).slots slot { t with eprio := min (t.eprio + 1) 7, age0 := t.age0 + 65536 } }))) ∧
  (∀ (s : State) (qid seg n pos : Nat) (q : Queue) (t : Task), mget s.queues qid = some q → 256 ≤ n →
    (q.seg seg).spill[n - 256]? = some (pos, t) → t.age0 + 65536 ≤ (q.seg seg).disp →
    let t' : Task := { t with eprio := min (t.eprio + 1) 7, age0 := t.age0 + 65536 }
    exec (.taskPromotion qid seg n) s = .next (writeSpill (setQueue s qid (q.setSeg seg { (q.seg seg) with
      spill := (q.seg seg).spill.set (n - 256) (pos, t') })) q seg pos t')) ∧
  (∀ (s : State) (qid seg i pos : Nat) (q : Queue) (t : Task) (l : List (Nat × Task)), mget s.queues qid = some q →
    (q.seg seg).spill = (pos, t) :: l → (q.seg seg).free = some i → exec (.overflowRefill qid seg) s =
      .next (setQueue s qid (q.setSeg seg { (q.seg seg) with slots := mput (q.seg seg).slots i (readSpill s q seg pos t), spill := l })))

/-- The graph commands in execution (R299, R300): TASK publishes at .dev and inserts its patched task, and tries again while there is no
room; ARM arms its join; WAIT goes on, after a refresh at .dev, once the join is not armed; WRITE stores 8 bytes and publishes them; END
stops the replay, a kind above 4 with ERROR. -/
def Sys2Proof.Claim.GraphEventsComplete : Prop :=
  ∀ (s : State) (gid : Nat) (x : Graph) (g : Machine.Group) (c : List Byte) (kind : Nat), AtCommand s gid kind x g c →
    (kind = 0 → exec (.graphEnd gid) s = .next (setGraph s gid (x.stop false))) ∧
    (4 < kind → exec (.graphEnd gid) s = .next (setGraph s gid (x.stop true))) ∧
    (kind = 1 →
      let r := recordOf ((c.drop 16).take 80)
      (∀ q, mget s.queues (cmdField c 2 2) = some q → q.ctx = x.ctx → entryOk s x.ctx r = true → recordOk r = true → cmdField c 4 4 ≠ 0 →
        (interpreterPublish s x).2.2 = false →
        exec (.graphTask gid) s = .next (match insertTask (interpreterPublish s x).1 (cmdField c 2 2) (patched x c) (cmdField c 4 4) with
          | none => (interpreterPublish s x).1
          | some s' => setGraph s' gid x.next)) ∧
      ((cmdField c 4 4 = 0 ∨ recordOk r = false ∨ entryOk s x.ctx r = false) →
        exec (.graphTask gid) s = .next (setGraph s gid (x.stop true)))) ∧
    (kind = 2 → ctxFeature s x.ctx 3 = true → armOk (u64 (cmdField c 24 8)) = true → ∀ i t,
      joinFind s x.ctx g.core (u64 (cmdField c 16 8)) = .ok (i, t) →
      let h := armHandle (readJoin s t) i (u64 (cmdField c 24 8))
      let s' := armJoin s (agentOf g.core) (some x.cg) t (u64 (cmdField c 24 8))
      exec (.graphArm gid) s = .next (if h = 0 then setGraph s' gid (x.stop true)
        else setGraph s' gid { x.next with armed := (i, BitVec.ofNat 8 (h / 2 ^ 24)) :: x.armed })) ∧
    (kind = 3 → ∀ i t, joinFind s x.ctx g.core (u64 (cmdField c 16 8)) = .ok (i, t) →
      exec (.graphWait gid) s = .next (if (readJoin s t).armed then s
        else setGraph (refreshGroup (seeBytes s (some x.cg) (fieldBytes t stateField)) x.cg .dev) gid (if (readJoin s t).state = 3 then x.stop true else x.next))) ∧
    (kind = 4 →
      let a := u64 (cmdField c 16 8)
      let v := if 128 ≤ cmdField c 1 1 then x.latched[cmdField c 1 1 % 16]! else u64 (cmdField c 24 8)
      a.toNat % 8 = 0 → ∀ t, translate s x.ctx (agentOf g.core) 0 a .write = .ok t →
      let p := publishGroup (setGroup s x.cg { g with pend := g.pend ++ storeUnits t a (leList v.toNat 8) }) x.cg .dev
      p.2.2 = false → exec (.graphWrite gid) s = .next (setGraph p.1 gid x.next))

/-- KERNEL_RELEASE frees a DRAINED kernel's dictionary and the residencies on a core that nothing refers to or pins, and with the last core the kernel is gone
(R306). TEAM_RETIRE publishes or discards what is left dirty of a team that has ended and that nothing of Table 12.4 holds, and takes the
team away with its groups (R129, R310, R311). -/
def Sys2Proof.Claim.RetirementEventsComplete : Prop :=
  (∀ (s : State) (kid core : Nat) (k : Kernel), mget s.kernels kid = some k → k.st = .drained →
    let t := setCore s core (released s kid core k)
    exec (.kernelRelease kid core) s = .next (if holdsKernel t kid k then t else { t with kernels := mdel t.kernels kid })) ∧
  (∀ (s : State) (kid core : Nat) (k : Kernel), mget s.kernels kid = some k → k.st ≠ .drained →
    exec (.kernelRelease kid core) s = .next s) ∧
  (∀ (s : State) (tid : Nat) (t : Team), Retires s tid t →
    (∀ t', mget (lastDirty s tid).teams tid = some t' → t'.stashDirty ≠ [] → exec (.teamRetire tid) s = .next (lastDirty s tid)) ∧
    ((∀ t', mget (lastDirty s tid).teams tid = some t' → t'.stashDirty = []) → exec (.teamRetire tid) s =
      .next (settleContext (settleKernel { lastDirty s tid with
        teams := mdel (lastDirty s tid).teams tid
        groups := (lastDirty s tid).groups.filter fun p => decide (p.2.team ≠ some tid) } t.kernel) t.ctx))) ∧
  (∀ (s : State) (tid : Nat), (∀ t, mget s.teams tid = some t → t.ended = false ∨ t.subs ≠ [] ∨ (∃ i : Fin 32, t.cr[i] ≠ .empty) ∨
    (∃ o ∈ (coreOf s t.core).seq, o.team = tid) ∨ (∃ o ∈ (coreOf s t.core).eng, o.team = tid)) → exec (.teamRetire tid) s = .next s)

/-- A kill that is due takes effect at a kill point, that is, while KOFF is clear or the group waits, and no Publish is under way; after
65,536 lc it takes effect whatever KOFF holds (R161, R377, R378). A Publish completes once every peer has acknowledged (R138, R236). -/
def Sys2Proof.Claim.KillAndPublishEventsComplete : Prop :=
  ∀ (s : State) (gid : Nat) (g : Machine.Group), mget s.groups gid = some g →
    (g.killDue ≠ none → Between g → (g.koff = false ∨ g.isWaiting s gid = true) →
      exec (.groupKill gid) s = .next (killGroup s gid)) ∧
    (g.killDue = none → exec (.groupKill gid) s = .next s ∧ exec (.killDeadline gid) s = .next s) ∧
    (∀ since, g.killDue = some since → Between g → since + 65536 ≤ (clusterOf s (clusOf g.core)).cycle →
      exec (.killDeadline gid) s = .next (killGroup s gid)) ∧
    (∀ since, g.killDue = some since → (clusterOf s (clusOf g.core)).cycle < since + 65536 → exec (.killDeadline gid) s = .next s) ∧
    (∀ p, g.publishing = some p → p.stopped = false →
      (p.remote ≠ [] → exec (.publishComplete gid) s = .next s) ∧
      (p.remote = [] → exec (.publishComplete gid) s = .next (if p.last then exitGroup s gid
        else match p.refresh with
          | none => setGroup s gid { g with publishing := none }
          | some sc => refreshGroup (setGroup s gid { g with publishing := none }) gid sc))) ∧
    (∀ p, g.publishing = some p → p.stopped = true → switching s g.ctx = true → exec (.publishComplete gid) s = .next s) ∧
    (∀ p g', g.publishing = some p → p.stopped = true → switching s g.ctx = false → mget (publishGroup s gid p.scope).1.groups gid = some g' →
      exec (.publishComplete gid) s = .next (setGroup (publishGroup s gid p.scope).1 gid { g' with
        publishing := some { p with remote := p.remote ++ (publishGroup s gid p.scope).2.1, stopped := (publishGroup s gid p.scope).2.2 } }))

namespace Sys2Proof.Claim

/-- A notice can be delivered to a group now (R357): none is being handled, the group is RUNNING or WAITING, at a MIGRATING page too, at an
instruction boundary of a context that issues, the overlays of its team are loaded again after a restore, KOFF is clear, no WAITM has
ended that is still to complete, and the clocks of its cluster run (R429). -/
structure Deliverable (s : State) (g : Machine.Group) : Prop where
  free : g.ncause = 0
  active : g.st = .active
  koff : g.koff = false
  quiet : Between g
  fold : g.foldPlan = none
  live : g.liveMask ≠ 0
  waitm : g.waitmEnded = false
  ctx : ctxIssues s g.ctx = true
  loaded : teamLoaded s g = true
  clocks : clocksStopped s g.core = false

/-- A code is the lowest of the pending notices, `vec` the NTVEC of its due moment (R356, R358). -/
def LowestNotice (g : Machine.Group) (code : Nat) (vec : DWord) : Prop :=
  mget g.notices code = some vec ∧ ∀ p ∈ g.notices, code ≤ p.1

/-- A group in the delivery of a notice: NCAUSE holds its code, it is pending no longer, every live thread stands at NTVEC with its place and
wait kept in NPC, a WAITM without a code has 4, or 1 if a write came before, and a Publish at a MIGRATING page is held (R357, R143, R403). -/
def notified (s : State) (gid : Nat) (g : Machine.Group) (code : Nat) (vec : DWord) : Machine.Group :=
  let w := g.wakeMonitors s gid 4
  { w.onLanes w.liveMask fun _ t =>
      { t with npc := t.pc, npcOv := t.ov, npcWait := t.wait, inNotice := true, wait := none, copy := none
               pc := BitVec.ofNat 32 (slice vec 0 16), ov := vec.extractLsb' 16 16 } with
    ncause := u32 code, notices := mdel g.notices code, heldPublish := g.publishing, publishing := none }

/-- A group that a fold has reached (R340, R341, R343): its level, lanes and resident limit are those of the plan, a WAITM has code 3, or 1 if
a write came before, and names beyond the limit spill. -/
def folded (s : State) (gid : Nat) (g : Machine.Group) (p : FoldPlan) : Machine.Group :=
  (Machine.Group.wakeMonitors { g with level := p.level, lanes := p.lanes, resident := p.resident, foldPlan := none } s gid 3).spillTo g.wantFill 96

/-- A load of a group in flight whose value or error is there (R228). -/
def LoadHere (g : Machine.Group) (n : Nat) (l : Machine.Load) : Prop :=
  (g.loads.find? fun l => decide (l.id = n) && l.held.isNone) = some l ∧ (l.val ≠ none ∨ l.bad = true)

/-- The group without the load. -/
def unloaded (g : Machine.Group) (n : Nat) : Machine.Group := { g with loads := g.loads.filter fun x => decide (x.id ≠ n) }

/-- A residency of a key in a state. -/
def ResAt (s : State) (core ctx ov : Nat) (transit : Bool) (st : ResState) (r : Residency) : Prop :=
  findRes (coreOf s core) ctx ov transit = some r ∧ r.st = st

/-- The residency once it is loaded. -/
def resident (r : Residency) (code : List Byte) : Residency := { r with st := .resident, code := code, stalled := none }

/-- The state in which a residency has become RESIDENT, at the top of its order, with the groups placed for it started (R315, Table 14.2). -/
def madeResident (s : State) (core : Nat) (r : Residency) (code : List Byte) : State :=
  startPlaced (setCore s core (touchRes (coreOf s core) (resident r code))) core (resident r code)

/-- A sector that a stash fill reads for a group: its page translates to local memory (R128, R230). -/
structure FillAt (s : State) (tid sec gid : Nat) (t : Team) (g : Machine.Group) (tr : Trans) : Prop where
  team : mget s.teams tid = some t
  fill : (t.stashFills.find? (·.1 == sec)) = some (sec, gid)
  group : mget s.groups gid = some g
  window : windowAt t (sec * 32) ≠ none
  trans : translate s g.ctx (agentOf g.core) 0 (u64 (stashVa t (sec * 32))) .read = .ok tr
  near : tr.kind ≠ .remote

end Sys2Proof.Claim

open Sys2Proof Sys2Proof.Machine Sys2Proof.Claim

/-- NOTICE_DELIVERY gives the lowest pending code (R356 to R358): NCAUSE holds it, the code is no longer pending, and every live thread goes
to the NTVEC of the notice's due moment with its place and wait kept in NPC; a WAITM that had not ended has then ended with code 4, or 1.
While a notice cannot be delivered, nothing changes.
The model's choice: a planned fold holds the delivery (log entry 59), a Publish at a MIGRATING page is set aside by it (log entry 97), and
an ATOM or LDV.M that waits for a peer comes to its end first (log entry 100). -/
def Obligations.NoticeDeliveryCompletes : Prop :=
  ∀ (s : State) (gid : Nat) (g : Machine.Group), mget s.groups gid = some g →
    (∀ code vec, LowestNotice g code vec → Deliverable s g →
      exec (.noticeDelivery gid) s = .next (enterOverlays (setGroup s gid (notified s gid g code vec)) gid)) ∧
    (g.notices = [] ∨ ¬ Deliverable s g → exec (.noticeDelivery gid) s = .next s)

/-- GROUP_FOLD takes a planned fold of a group that has not ended at an instruction boundary, counted and with its notice due where the residency level changes (R339 to
R347); GROUP_EXPAND gives the oldest group that can expand its lanes and rows back (R346); REGISTER_FILL makes a wanted name resident, the
coldest others spilling; SCRATCH_FILL brings a spilled line back into scratch of the team that no line stands in, in place of the least
recently touched line that may spill, or in free scratch, with the fold notice of the groups whose residency level that changes (R341, R342,
R345, R347). Nothing folds, expands or fills while the clocks of the cluster relock (R429). -/
def Sys2Proof.Claim.FoldEventsComplete : Prop :=
  (∀ (s : State) (gid : Nat) (g : Machine.Group) (p : FoldPlan), mget s.groups gid = some g → g.foldPlan = some p → Between g →
    (g.st.ended = true ∨ clocksStopped s g.core = true → exec (.groupFold gid) s = .next s) ∧ (g.st.ended = false → clocksStopped s g.core = false →
    exec (.groupFold gid) s = .next (setGroup s gid (if p.changes
      then Machine.Group.noticeDue { folded s gid g p with foldCount := g.foldCount + 1 } 0x20 else folded s gid g p)))) ∧
  (∀ (s : State) (gid : Nat) (g : Machine.Group), mget s.groups gid = some g → wouldExpand s gid g = true →
    (∀ p ∈ groupsOn s g.core, p.2.age < g.age → wouldExpand s p.1 p.2 = false) →
    exec (.groupExpand gid) s = .next (if clocksStopped s g.core then s else noticeChanged s (expandAt s gid g))) ∧
  (∀ (s : State) (gid name : Nat) (g : Machine.Group), mget s.groups gid = some g →
    exec (.registerFill gid name) s = .next (if name ∈ g.wantFill ∧ name ∈ g.spilled ∧ clocksStopped s g.core = false
      then setGroup s gid ({ g with spilled := g.spilled.filter fun n => decide (n ≠ name) }.spillTo g.wantFill 96) else s)) ∧
  (∀ (s : State) (tid line : Nat) (t : Team), mget s.teams tid = some t → (t.line line).spilled = true →
    let back (t : Team) : Team := (t.setLine line { t.line line with spilled := false }).touch s.tick [line]
    (clocksStopped s t.core = true → exec (.scratchFill tid line) s = .next s) ∧
    (clocksStopped s t.core = false → exec (.scratchFill tid line) s = .next (if t.residentLines < t.physical / 256 then setTeam s tid (back t)
      else match (spillable s tid t).head? with
        | some l => setTeam s tid (back (t.setLine l { t.line l with spilled := true }))
        | none => if 256 ≤ freeScratch s t.core then noticeChanged s (setTeam s tid (back { t with physical := t.physical + 256 })) else s)))

/-- The overlay events (R315, R323, R324, Table 13.2): a load that reads its image makes the residency RESIDENT with it, moves it to the
top of the order, starts the groups placed for it and ends the waits for it in the same step; one that meets a page not present stalls with
one record; one that meets a remote page asks the peer; one that fails is gone, and the groups that wait on that copy trap; an EVICTING residency
frees its slots; the transit occupant goes to EVICTING while a queued waiter still waits and no group holds it. -/
def Sys2Proof.Claim.OverlayEventsComplete : Prop :=
  ∀ (s : State) (core ctx ov : Nat) (transit : Bool) (r : Residency),
    (ResAt s core ctx ov transit .loading r →
      (∀ code, loadImage s core r = .ok code → exec (.overlayLoadDone core ctx ov transit) s =
        .next (dropFetched (((groupsOn (madeResident s core r code) core).map (·.1)).foldl settleOverlays (madeResident s core r code))
          (.overlay core ctx ov transit))) ∧
      (∀ u t, loadImage s core r = .error (.far u t) → exec (.overlayLoadDone core ctx ov transit) s =
        .next (askPeer s ctx (.overlay core ctx ov transit) u t)) ∧
      (∀ f va, loadImage s core r = .error (.fault f va) → f.cause = 3 →
        exec (.overlayLoadDone core ctx ov transit) s = .next (stallLoad s core r f va) ∧
        exec (.overlayLoadFail core ctx ov transit) s = .next (stallLoad s core r f va) ∧
        (r.stalled = some va → stallLoad s core r f va = s)) ∧
      (∀ f va, loadImage s core r = .error (.fault f va) → f.cause ≠ 3 →
        let s' := dropReload (dropFetched (removeRes s core r) (.overlay core ctx ov transit)) core ctx ov
        exec (.overlayLoadFail core ctx ov transit) s = .next ((groupsOn s' core).foldl (fun x p =>
          if p.2.ctx = ctx ∧ p.2.awaitsCopy (coreOf s core) r ≠ 0 ∧ switching x ctx = false then
            trapWaiter x p.1 p.2 (p.2.awaitsCopy (coreOf s core) r) { cause := f.cause, haddr := failAddr s r f va, access := f.access } else x) s'))) ∧
    (ResAt s core ctx ov transit .evicting r → exec (.overlayEvicted core ctx ov transit) s = .next (removeRes s core r)) ∧
    ((coreOf s core).res.find? (·.transit) = some r → r.st = .resident →
      (∃ q ∈ (coreOf s core).transitQ, stillQueued s core q = true) →
      (∀ p ∈ groupsOn s core, holdsTransit s p.1 p.2 (coreOf s core) r = false) →
      exec (.transitSwap core) s = .next (setCore s core (updRes (coreOf s core) { r with st := .evicting })))

/-- LOAD_RETURN puts the value of a load into its registers, or marks them as holding that uncorrectable error and no older one (R228,
R229); STASH_FILL_DONE fills a sector by a read of the touching group, dirty bytes keeping their values, or keeps its error for the access
that touched it (Table 5.2, R407); neither comes in while the clocks of the cluster relock (R429); WAITM takes the code of a cause that has come, 6 at its deadline, and 1 where a write came before (R143,
R237, Table 5.6). -/
def Sys2Proof.Claim.MemoryEventsComplete : Prop :=
  (∀ (s : State) (gid n : Nat) (g : Machine.Group) (l : Machine.Load), mget s.groups gid = some g → LoadHere g n l →
    (clocksStopped s g.core = true → exec (.loadReturn gid n) s = .next s) ∧ (clocksStopped s g.core = false →
    (l.bad = true → exec (.loadReturn gid n) s = .next (setGroup s gid
      { unloaded g n with badRegs := (g.badRegs.filter fun b => !(decide (b.lane = l.lane) && l.names.contains b.name)) ++
          (l.names.map fun nm => { lane := l.lane, name := nm, addr := l.addr }) })) ∧
    (∀ v, l.bad = false → l.val = some v →
      (l.lane = none → exec (.loadReturn gid n) s = .next (setGroup s gid ((unloaded g n).wrW (l.names.headD 0) (loadUni l.sz v.toNat)))) ∧
      (∀ i, l.lane = some i → exec (.loadReturn gid n) s = .next (setGroup s gid ((unloaded g n).onLanes (BitVec.twoPow 32 i) fun _ t =>
        t.update [] (l.names.zip (loadWords l.sz v.toNat)))))))) ∧
  (∀ (s : State) (tid sec gid : Nat) (t : Team) (g : Machine.Group) (tr : Trans), FillAt s tid sec gid t g tr →
    (clocksStopped s t.core = true → exec (.stashFillDone tid sec) s = .next s) ∧ (clocksStopped s t.core = false →
    (fillRead s gid g tr = none → exec (.stashFillDone tid sec) s = .next (setTeam s tid
      { t with stashFills := t.stashFills.filter fun p => decide (p.1 ≠ sec), stashErrs := t.stashErrs ++ [(sec, gid)] })) ∧
    (∀ bs seen, fillRead s gid g tr = some (bs, seen) →
      ∃ t', exec (.stashFillDone tid sec) s = .next (setTeam (setGroup s gid { g with seen := seen }) tid t') ∧
        sec ∈ t'.stashFull ∧ (∀ p ∈ t'.stashFills, p.1 ≠ sec) ∧
        (∀ i b, i < 32 → mget t.stashDirty (sec * 32 + i) = none → bs[i]? = some b → rdByte t'.scratch (sec * 32 + i) = b) ∧
        (∀ a, (∀ i, i < 32 → mget t.stashDirty (sec * 32 + i) = none → a ≠ sec * 32 + i) → rdByte t'.scratch a = rdByte t.scratch a)))) ∧
  (∀ (s : State) (gid code : Nat) (g : Machine.Group), mget s.groups gid = some g →
    exec (.waitmWake gid code) s = .next (setGroup s gid (g.onMonitors fun m =>
      if waitmCause s gid g m.sector m.began code && !switching s g.ctx then m.wake s gid g code else m)) ∧
    exec (.waitmTimeout gid) s = .next (setGroup s gid (g.onMonitors fun m =>
      if decide (m.deadline ≤ (clusterOf s (clusOf g.core)).cycle) && !switching s g.ctx then m.wake s gid g 6 else m)))

/-- SEQUENCER_COMPLETE makes the accesses that the operation at the head of a core's sequencer has left, in order, up to one that must wait for
its lines, and once none is left completes it and takes it from the queue (R215 to R217). A single access takes place between two such moves
where its lines are ready. While the clocks of the cluster relock, nothing happens (R429). MZERO leaves its tile all zero and without error. -/
def Sys2Proof.Claim.SequencerCompletes : Prop :=
  ∀ (s : State) (core : Nat) (o : SeqOp) (rest : List SeqOp) (t : Team), (coreOf s core).seq = o :: rest → mget s.teams o.team = some t →
    (∀ a, o.kind.access o.done = some a → accessReady s o.team t a = false → o.done < o.kind.accesses →
      exec (.sequencerComplete core) s = .next s ∧ fetchTurn s (.sequencerAccess core) = .idle s) ∧
    (∀ a, o.kind.access o.done = some a → accessReady s o.team t a = true → o.done < o.kind.accesses →
      clocksStopped s core = false →
      let s' := putHead (setTeam s o.team (o.access s t a).1) core (o.access s t a).2
      exec (.sequencerComplete core) s = exec (.sequencerComplete core) s' ∧ fetchTurn s (.sequencerAccess core) = .idle s') ∧
    (clocksStopped s core = true → exec (.sequencerComplete core) s = .next s ∧ fetchTurn s (.sequencerAccess core) = .idle s) ∧
    (o.kind.accesses ≤ o.done → clocksStopped s core = false → exec (.sequencerComplete core) s = .next (setCore (finishSeq s o t) core
      { coreOf (finishSeq s o t) core with seq := (coreOf (finishSeq s o t) core).seq.tail })) ∧
    (∀ acc, o.kind = .mzero acc → clocksStopped s core = false → ∃ t' s', exec (.sequencerComplete core) s = .next s' ∧ mget s'.teams o.team = some t' ∧
      t'.acct acc = AccTile.zero ∧ ∀ a, a ≠ acc → t'.acct a = t.acct a)

namespace Sys2Proof.Claim

/-- An operation of a core of a team that is there. -/
def OpAt (s : State) (core id : Nat) (o : EngOp) (t : Team) : Prop := findOp s core id = some o ∧ mget s.teams o.team = some t

/-- The operation may land its next sector: accepted, not stalled or stopped, and sectors left (R245). -/
structure Lands (t : Team) (o : EngOp) : Prop where
  accepted : o.accepted = true
  stalled : o.stalled = none
  stopped : o.stopped = false
  abandoned : o.abandoned = false
  store : isStoreFill t o = false
  drain : o.kind ≠ .drain
  left : o.done < opTotal t o

/-- Every sector has landed: the operation is to complete. -/
structure Completes (t : Team) (o : EngOp) : Prop where
  accepted : o.accepted = true
  stalled : o.stalled = none
  stopped : o.stopped = false
  abandoned : o.abandoned = false
  all : opTotal t o ≤ o.done

/-- Offset in scratch of the operation's next sector. -/
def nextSector (o : EngOp) : Nat := (o.sectors[o.done]?).getD 0

/-- An operation may take its lines on a core: no operation uses them, and none, nor the barrier's, is spilled. -/
def SlotFree (s : State) (t : Team) (core : Nat) (o : EngOp) : Prop := linesFree s core o = true ∧ opSpilled t o = false

/-- The engine may take an operation: its lines are free, no access that the issuing group's earlier sequencer operations have still to make
names one of them, and the clocks run (R382, R342, R123, R429). -/
def AcceptFree (s : State) (t : Team) (core : Nat) (o : EngOp) : Prop :=
  SlotFree s t core o ∧ seqBefore s core o = false ∧ clocksStopped s core = false

/-- An operation stalls at an address, with one record (R246, R405). -/
def stall (s : State) (core : Nat) (o : EngOp) (f : XFault) (va : Nat) : State :=
  postRecord (putOp s core { o with stalled := some va }) (opCtx s o) (opRecord s core o f va)

/-- The number of the operation that the next acceptance makes. -/
def fresher (s : State) : State := { s with fresh := s.fresh + 1 }

/-- The operation of a slot as it starts. -/
def started (o : EngOp) (flipped : List Nat) : EngOp := { o with flipped := flipped }

/-- A receiver's part of a multicast (R249): the sender's operation and core stand in it. -/
def receiving (s : State) (core rid : Nat) (o : EngOp) : EngOp :=
  { o with id := s.fresh, kind := .recv, group := none, team := rid, moment := s.fresh, flipped := [], done := 0, receivers := []
           ring := o.id, slot := core, err := false }

/-- The commit register of a row is PENDING. -/
def PendingAt (s : State) (tid row : Nat) (t : Team) (tok : Word) (table by' : DWord) (entry : Option (Nat × Nat))
    (stalled : Option (Nat × Nat)) : Prop :=
  mget s.teams tid = some t ∧ row < 32 ∧ t.cr[row]! = .pending tok table by' entry stalled

end Sys2Proof.Claim

open Sys2Proof Sys2Proof.Machine Sys2Proof.Claim

/-- ENGINE_ACCEPT takes an operation whose lines are free: engine-owned from now on, absent until their data is there when the operation
writes them, and a multicast raises ACKS by its receivers (R153, R157, R243, R249, R382); it waits while a line is in use, is spilled, or
awaits an earlier access of the group's sequencer operations, and while the clocks of the cluster relock (R342, R123, R429). -/
def Sys2Proof.Claim.EngineAcceptCompletes : Prop :=
  ∀ (s : State) (core id : Nat) (o : EngOp) (t : Team), OpAt s core id o t → o.abandoned = false → o.accepted = false →
    o.kind.ofEngine = true →
    (AcceptFree s t core o → o.kind ≠ .tmcast →
      exec (.engineAccept core id) s = .next (putOp (fresher (setTeam s o.team (acceptLines t s.tick o.kind.inbound o.lines).1)) core
        { o with accepted := true, moment := s.fresh, flipped := o.lines.filter fun l => !(t.line l).engine })) ∧
    (AcceptFree s t core o → o.kind = .tmcast →
      exec (.engineAccept core id) s = .next (updTbar (putOp (fresher (setTeam s o.team (acceptLines t s.tick false o.lines).1)) core
        { o with accepted := true, moment := s.fresh, flipped := o.lines.filter fun l => !(t.line l).engine }) o.team o.bar fun b =>
          { b with acks := b.acks + BitVec.ofNat 16 o.receivers.length })) ∧
    (¬ AcceptFree s t core o → exec (.engineAccept core id) s = .next s)

/-- SECTOR_LAND makes one more sector (R245): a received multicast takes the sender's bytes; TSTORE, TSTORE.A and TMCAST read scratch; TCOPY,
GATHER and a fill read memory, asking the peer of a remote page, and write scratch, stall at a page not present, and stop in error at any
other fault (R246 to R250); KVMOVE reads (R255). LINE_COMPLETE makes a line present whose sectors have all landed and that no other operation
has still to write, or may write again, when the copy itself cannot repeat (R157, R381). Nothing lands and no line becomes present while the
clocks of the cluster relock (R429). -/
def Obligations.SectorEventsComplete : Prop :=
  ∀ (s : State) (core id : Nat) (o : EngOp) (t : Team), OpAt s core id o t →
    (Lands t o → clocksStopped s core = true → exec (.sectorLand core id) s = .next s) ∧
    (Lands t o → clocksStopped s core = false →
      (o.kind = .recv → exec (.sectorLand core id) s =
        .next (landed (engWrite s o (nextSector o) (rdBytes o.buf (nextSector o) 32)) core o (opTotal t o))) ∧
      ((o.kind = .tstore ∨ o.kind = .tstoreA ∨ o.kind = .tmcast) → t.badLines.contains (nextSector o / 256) = false →
        exec (.sectorLand core id) s = .next (landed s core { o with buf := wrBytes o.buf (nextSector o) (t.read (nextSector o) 32) }
          (opTotal t o))) ∧
      ((o.kind = .tcopy ∨ o.kind = .gather ∨ o.kind = .fill) → o.checks = false →
        (∀ r, (opAcc s core o).read s (o.srcs o.done) = .ok r → r.bad = false → exec (.sectorLand core id) s =
          .next (landed (engWrite ((opAcc s core o).used s) o (nextSector o) r.bytes) core o (opTotal t o))) ∧
        (∀ u tr, (opAcc s core o).read s (o.srcs o.done) = .error (.far u tr) →
          exec (.sectorLand core id) s = .next ((opAcc s core o).ask s u tr)) ∧
        (∀ f va, (opAcc s core o).read s (o.srcs o.done) = .error (.fault f va) →
          (f.cause = 3 → exec (.sectorLand core id) s = .next (stall s core o f va)) ∧
          (f.cause ≠ 3 → exec (.sectorLand core id) s =
            .next (putOp (setTbarErr s o.team o.bar) core { o with stopped := true, err := true })))) ∧
      (o.kind = .kvmove → exec (.sectorLand core id) s = .next (takeTry s core o (landMove s core o (opTotal t o))))) ∧
    (∀ line, o.accepted = true → o.kind.inbound = true → o.stopped = false → o.abandoned = false → o.checks = false →
      line ∈ o.lines → (∀ x ∈ o.sectors.drop o.done, x / 256 ≠ line) →
      exec (.lineComplete core id line) s = .next (if clocksStopped s core ∨ stillWritten (otherOps s core o) line then s
        else setTeam s o.team (t.setLine line { t.line line with absent := false })))

/-- ENGINE_COMPLETE ends an operation whose sectors have all landed (R155, R159, R245 to R250, R255): a copy without a version ends;
TSTORE makes its publish events at .dev in ascending order, TSTORE.A one event for the tile with its version, KVMOVE its entries in
ascending order, up to one that fails, which SECTORS then names, and each ends when no peer is left to acknowledge; a page not present
stalls the whole of a store, with its record and nothing published (R246); at any other fault TSTORE publishes the sectors before it and
TSTORE.A none, and each ends in error. Nothing completes while the clocks relock (R429). -/
def Obligations.EngineCompletes : Prop :=
  ∀ (s : State) (core id : Nat) (o : EngOp) (t : Team), OpAt s core id o t → Completes t o →
    (clocksStopped s core = true → exec (.engineComplete core id) s = .next s) ∧ (clocksStopped s core = false →
    ((o.kind = .tcopy ∨ o.kind = .gather ∨ o.kind = .recv) → o.checks = false → o.published = false →
      exec (.engineComplete core id) s = .next (endOp s core o)) ∧
    (o.kind = .tmcast → o.published = false → o.receivers = [] → noReceivers s core o.id = true →
      exec (.engineComplete core id) s = .next (endOp s core o)) ∧
    (o.kind = .tstore → o.published = false → ∀ ws e, (opAcc s core o).prepAll s (sectorGroups o.packed) = (ws, e) →
      let r := makeWrites s (opAcc s core o) (.engine core o.id) ws []
      (e = none →
        let o' := { o with published := true, remote := r.2 }
        exec (.engineComplete core id) s = .next (if r.2 = [] then endOp (putOp r.1 core o') core o' else putOp r.1 core o')) ∧
      (∀ f va, e = some (f, va) → f.cause = 3 → exec (.engineComplete core id) s = .next (stall s core o f va)) ∧
      (∀ f va, e = some (f, va) → f.cause ≠ 3 →
        let o' := { o with published := true, remote := r.2, err := true }
        let s' := putOp (setTbarErr r.1 o.team o.bar) core o'
        exec (.engineComplete core id) s = .next (if r.2 = [] then endOp s' core o' else s'))) ∧
    (o.kind = .tstoreA → o.published = false →
      (∀ r, storeWhole s core o = .ok r → exec (.engineComplete core id) s = .next (if r.2 = []
        then endOp r.1 core { o with published := true, remote := r.2 } else putOp r.1 core { o with published := true, remote := r.2 })) ∧
      (∀ f va, storeWhole s core o = .error (f, va) →
        (f.cause = 3 → exec (.engineComplete core id) s = .next (stall s core o f va)) ∧
        (f.cause ≠ 3 → exec (.engineComplete core id) s = .next (endOp (setTbarErr s o.team o.bar) core { o with err := true })))) ∧
    (o.kind = .kvmove → o.published = false → ∀ r ids,
      moveWrites s core o (opAcc s core o) (List.range (o.done / (8 * o.slot))) [] = (r, ids, none) →
      exec (.engineComplete core id) s = .next (if ids = [] then endOp r core { o with published := true, remote := ids }
        else putOp r core { o with published := true, remote := ids })) ∧
    (o.kind = .kvmove → o.published = false → ∀ r ids m f va,
      moveWrites s core o (opAcc s core o) (List.range (o.done / (8 * o.slot))) [] = (r, ids, some (m, f, va)) →
      exec (.engineComplete core id) s = .next (stopMove r core o m f va)) ∧
    ((o.kind = .tstore ∨ o.kind = .tstoreA ∨ o.kind = .kvmove) → o.published = true →
      exec (.engineComplete core id) s = .next (if o.remote = [] then endOp s core o else s)))

/-- TMCAST_DELIVERY begins the copy of the next receiver once its lines are free there and its clocks run (R429), or skips a receiver that is not resident, whose
acknowledgement counts as received with the error flag set (R249). ACK_RECEIVE lowers ACKS at the sender, once the barrier's line is not
spilled there and its clocks run (R365, R342, R429). FAULT_RETRY ends the stall of an operation whose access no longer finds the page not present; one that stalls at
another page posts its record (R246, R405). -/
def Sys2Proof.Claim.DeliveryOfCopiesCompletes : Prop :=
  (∀ (s : State) (core id i : Nat) (rest : List Nat) (o : EngOp) (t : Team), OpAt s core id o t → o.kind = .tmcast → o.accepted = true →
    opTotal t o ≤ o.done → clocksStopped s core = false → o.receivers = i :: rest →
    let found := s.teams.find? fun p => decide (p.2.grid = t.grid) && decide (p.2.index.toNat = i) && canReceive s (dieOf core) p.2
    (found = none → exec (.tmcastDelivery core id) s = .next (updTbar (putOp s core { o with receivers := rest }) o.team o.bar fun b =>
      { b with acks := b.acks - 1, err := true }.complete)) ∧
    (∀ rid rt, found = some (rid, rt) → clocksStopped s rt.core = true → exec (.tmcastDelivery core id) s = .next s) ∧
    (∀ rid rt, found = some (rid, rt) → SlotFree s rt rt.core (receiving s core rid o) → clocksStopped s rt.core = false → exec (.tmcastDelivery core id) s =
      .next (pushOp (setTeam (fresher (putOp s core { o with receivers := rest })) rid { (acceptLines rt s.tick true o.lines).1 with
        unacked := rt.unacked ++ [(o.team, o.bar)] }) rt.core
          (started (receiving s core rid o) (o.lines.filter fun l => !(rt.line l).engine))))) ∧
  (∀ (s : State) (n : Nat) (a : Ack), s.acks[n]? = some a →
    ((∀ t, mget s.teams a.team = some t → (t.line (a.off / 256)).spilled = false ∧ clocksStopped s t.core = false) → exec (.ackReceive n) s =
      .next (updTbar { s with acks := s.acks.eraseIdx n } a.team a.off fun b => { b with acks := b.acks - 1 }.complete)) ∧
    (∀ t, mget s.teams a.team = some t → ((t.line (a.off / 256)).spilled = true ∨ clocksStopped s t.core = true) →
      exec (.ackReceive n) s = .next s)) ∧
  (∀ (s : State) (core id : Nat) (o : EngOp) (t : Team) (at' : Nat), OpAt s core id o t → o.stalled = some at' →
    (∀ s', nextTry s core o t = .go s' → exec (.faultRetry core id) s = .next (putOp s core { o with stalled := none })) ∧
    (∀ f va, nextTry s core o t = .stall f va → exec (.faultRetry core id) s = .next (if va = at' then s else stall s core o f va)))

/-- The slots of a ring (R389 to R394): FILL_START makes the next tile's slot FILLING when it is EMPTY, FILL_DONE makes it FULL once its
data is there, with the error of a STORE tile that lies where the skidder does not reach (R252), DRAIN_START makes a DONE slot DRAINING, DRAIN_DONE writes the tile back and makes it EMPTY; an uncorrectable error in the
slot, or in the version word that a drain reads, writes nothing back, and a page not present stalls the whole of it. A slot word that is not the one
the skidder wrote ends the subscription in error. None of them happens while the clocks of the cluster relock (R429). -/
def Sys2Proof.Claim.RingEventsComplete : Prop :=
  (∀ (s : State) (tid ring : Nat) (t : Team) (u : Sub), mget s.teams tid = some t → subOf t ring = some u → u.ended = false →
    u.next < u.sd.count → fillable t u (u.next % u.nslot) = true → fillsStopped s t.ctx = false →
    SlotFree s t t.core (slotOp s tid u .fill u.next) →
    (clocksStopped s t.core = true → exec (.fillStart tid ring) s = .next s) ∧ (clocksStopped s t.core = false →
    (slotWord t u (u.next % u.nslot) ≠ u.expected (u.next % u.nslot) →
      exec (.fillStart tid ring) s = .next (foreignEnd s tid t u (u.next % u.nslot))) ∧
    (slotWord t u (u.next % u.nslot) = u.expected (u.next % u.nslot) →
      let o := slotOp s tid u .fill u.next
      let r := acceptLines t s.tick (u.sd.kind != 2) o.lines
      exec (.fillStart tid ring) s = .next (pushOp (setTeam (fresher s) tid (r.1.putWord s.tick { u with next := u.next + 1 }
        (u.next % u.nslot) (u32 (u.next % 2 ^ 16 * 2 ^ 16 + 1)))) t.core (started o r.2))))) ∧
  (∀ (s : State) (core id : Nat) (o : EngOp) (t : Team), OpAt s core id o t → o.kind = .fill → o.stalled = none → o.abandoned = false →
    (clocksStopped s core = true → exec (.fillDone core id) s = .next s) ∧
    (clocksStopped s core = false → isStoreFill t o = true →
      exec (.fillDone core id) s = .next (endFill (if tileOutside s core o then markErr s o else s) core o (opTotal t o))) ∧
    (clocksStopped s core = false → isStoreFill t o = false → (o.stopped = true ∨ (o.checks = false ∧ opTotal t o ≤ o.done)) →
      exec (.fillDone core id) s = .next (endFill s core o (opTotal t o)))) ∧
  (∀ (s : State) (tid ring slot : Nat) (t : Team) (u : Sub), mget s.teams tid = some t → subOf t ring = some u → slot < u.nslot →
    streamsFreed s t.ctx = false → slotState (u.expected slot) = 3 → SlotFree s t t.core (slotOp s tid u .drain (u.tileIn slot)) →
    slotWord t u slot = u.expected slot →
    let o := slotOp s tid u .drain (u.tileIn slot)
    let r := acceptLines t s.tick false o.lines
    exec (.drainStart tid ring slot) s = .next (if clocksStopped s t.core then s
      else pushOp (setTeam (fresher s) tid (r.1.putWord s.tick u slot (wordTo (u.expected slot) 4))) t.core (started o r.2))) ∧
  (∀ (s : State) (tid ring slot : Nat) (t : Team) (u : Sub), mget s.teams tid = some t → subOf t ring = some u → slot < u.nslot →
    streamsFreed s t.ctx = false → drainable t u slot = true → SlotFree s t t.core (slotOp s tid u .drain (u.tileIn slot)) →
    slotWord t u slot ≠ u.expected slot → clocksStopped s t.core = false →
    exec (.drainStart tid ring slot) s = .next (foreignEnd s tid t u slot)) ∧
  (∀ (s : State) (core id : Nat) (o : EngOp) (t : Team) (u : Sub), OpAt s core id o t → subOf t o.ring = some u → o.kind = .drain →
    o.stalled = none → (clocksStopped s core = true → exec (.drainDone core id) s = .next s) ∧ (clocksStopped s core = false →
    (u.sd.kind = 1 → exec (.drainDone core id) s = .next (endDrain s core o)) ∧
    (u.sd.kind ≠ 1 → ∀ o', o' = { o with buf := (drainImage s t o).1 } →
      ((∃ l ∈ o.lines, l ∈ t.badLines) ∨ (layVer o.desc.layout = true ∧ versionBad s (opAcc s core o') o.gaddr = true) →
        exec (.drainDone core id) s = .next (endDrain (setTbarErr s o.team o.bar) core o')) ∧
      ((∀ l ∈ o.lines, l ∉ t.badLines) → layVer o.desc.layout = true → versionBad s (opAcc s core o') o.gaddr = false →
        ∀ r, storeWhole s core o' = .ok r →
        exec (.drainDone core id) s = .next (endDrain r.1 core o')) ∧
      ((∀ l ∈ o.lines, l ∉ t.badLines) → layVer o.desc.layout = false → ∀ ws e,
        (opAcc s core o').prepAll s (sectorGroups o'.packed) = (ws, e) →
        (e = none → exec (.drainDone core id) s =
          .next (endDrain (makeWrites s (opAcc s core o') (.engine core o'.id) ws []).1 core o')) ∧
        (∀ f va, e = some (f, va) → f.cause = 3 → exec (.drainDone core id) s = .next (stall s core o f va))))))

/-- DELIVERY publishes a PENDING token into its ring, then the ring's TAIL, each at .dev, and empties the register once a peer has no write
left to acknowledge; a page not present stalls it with a record, another cause or address with another, and DELIVERY_RETRY goes on once the
page is there, from the entry on where TAIL had stalled, which is the model's choice (log entry 127; R267, R268, R405, R420).
A switch-out holds a slot that is not publishing from its step 4 on, and every slot after step 4 (R279). -/
def Sys2Proof.Claim.DeliveryEventsComplete : Prop :=
  ∀ (s : State) (tid row : Nat) (t : Team) (tok : Word) (table by' : DWord) (entry stalled : Option (Nat × Nat)),
    PendingAt s tid row t tok table by' entry stalled →
    ∀ i, i = (if stalled.isSome then Instr.deliveryRetry tid row else Instr.delivery tid row) →
    (deliveryHeld s t.ctx entry = true → exec i s = .next s) ∧ (deliveryHeld s t.ctx entry = false →
    let used (x : State) : State := dropFetched x (.delivery tid row)
    let next := deliverTry s tid t row tok table entry stalled.isSome
    (∀ s' ring n, next = .entry s' ring n →
      exec i s = .next (used (putCommit s' tid row (.pending tok table by' (some (ring, n)) none)))) ∧
    (∀ s', next = .tail s' →
      exec i s = .next (putCommit s' tid row (if unackedDelivery s' tid row then .pending tok table by' entry none else .empty))) ∧
    (∀ cause access va, next = .stall cause access va →
      exec i s = .next (if stalled = some (cause, va) then used s else postRecord (used (putCommit s tid row
        (.pending tok table by' entry (some (cause, va))))) t.ctx (deliveryRecord t.core row cause access (u64 va) by' 0))) ∧
    (next = .wait → exec i s = .next (used (putCommit s tid row (.pending tok table by' entry none)))) ∧
    (next = .again → exec i s = .next (used (putCommit s tid row (.pending tok table by' none none)))) ∧
    (∀ s', next = .far s' → exec i s = .next s'))

namespace Sys2Proof.Claim

/-- A context in a switch. -/
def Switching (s : State) (ctx : Nat) (c : Context) (w : Switch) : Prop := mget s.contexts ctx = some c ∧ c.switch = w

/-- The threads of an issue trap: what taking the trap leaves (R194, R349 to R352). -/
def trapped (s : State) (cause : Nat) (haddr : DWord) : State :=
  takeTrap s s.cur.group { cause := cause, haddr := haddr, access := 0 } s.cur.mask s.cur

/-- Nothing of a closing context is left but its pages and its id (R278). -/
structure Closed (s : State) (ctx : Nat) (c : Context) : Prop where
  there : mget s.contexts ctx = some c
  st : c.st = .closing
  switch : c.switch = .none
  saved : c.saved = []
  queues : ∀ p ∈ s.queues, p.2.ctx = ctx → p.2.st = .destroyed
  graphs : ∀ p ∈ s.graphs, p.2.ctx ≠ ctx
  teams : ∀ p ∈ s.teams, p.2.ctx ≠ ctx
  groups : ∀ p ∈ s.groups, p.2.ctx ≠ ctx
  kernels : ∀ p ∈ s.kernels, p.2.ctx ≠ ctx

/-- A saved team may go to a core (R280): its kernel is there, the core takes the context, it has room, the save area holds its context's
records, and `place` is legal for the threads that live (R43). -/
structure Restores (s : State) (ctx core : Nat) (place : Placing) (c : Context) (x : SavedTeam) (rest : List SavedTeam) (k : Kernel)
    (s₁ : State) (subs : List Sub) : Prop where
  switch : Switching s ctx c .restoring
  saved : c.saved = x :: rest
  kernel : mget s.kernels x.team.kernel = some k
  streams : reacquire s ctx core x.team.subs = some (s₁, subs)
  takes : core < Config.computeCores ∧ c.mask.getLsbD core = true
  room : roomFor s core ctx x.team.kernel k x.team.scratchSize x.team.accCount = true
  record : saveFits s ctx = true
  placing : placingOk s core ((savedOrder x).map fun p => savedShape p.2) place = true

/-- The context after one of its saved teams is restored. -/
def restoredContext (c : Context) (rest : List SavedTeam) : Context :=
  if rest = [] then { c with saved := [], switch := .none, st := if c.st = .closing then .closing else .running }
  else { c with saved := rest }

/-- The team on its new core, with all of its scratch back (R280, Table 10.5). -/
def restoredTeam (core : Nat) (t : Team) (subs : List Sub) : Team :=
  { t with core := core, subs := subs, physical := t.scratchSize, reloading := []
           lines := t.lines.map fun l => (l.1, { l.2 with spilled := false }) }

/-- Everything of a context's teams has left the cores for its save area (R279 step 6): each team with its groups stands in `c'`, none of
them is left in `t`. -/
structure AllSaved (s t : State) (ctx : Nat) (c' : Context) : Prop where
  kept : ∀ p, p ∈ c'.saved.map (fun x => (x.uid, x.team)) ↔ p ∈ s.teams ∧ p.2.ctx = ctx
  noTeam : ∀ p ∈ t.teams, p.2.ctx ≠ ctx
  groups : ∀ p ∈ s.groups, ∀ q ∈ s.teams, q.2.ctx = ctx → p.2.team = some q.1 → ∃ x ∈ c'.saved, x.uid = q.1 ∧ p ∈ x.groups
  noGroup : ∀ p ∈ t.groups, ∀ q ∈ s.teams, q.2.ctx = ctx → p.2.team ≠ some q.1

end Sys2Proof.Claim

open Sys2Proof Sys2Proof.Machine Sys2Proof.Claim

/-- The context switch (R279 to R282): a step begins once the one before it is done, WAITMs that a write has ended taking code 1 as issue
stops and kills that are due taking effect; the last saves every team with its groups and leaves the context SWITCHED-OUT, with no team and
no group of a team on a core, and writes no memory but its save area; a saved team is placed again on a core that has room, to load its
overlays there. CLOSE_DONE ends a context of which nothing is left, drops its translations, and retires its key slot when no other context
uses it (R278, R401). FAULT_QUEUE_RETRY posts
held records in their order (R404).
The model's choice: the kills taken as step 2 begins, and each step waiting for what the one before it waits for (log entry 51); that the
first of the saved teams is restored first, and that a WAITM for which a write has come takes code 1 as issue stops (log entry 43). -/
def Obligations.SwitchEventsComplete : Prop :=
  (∀ (s : State) (ctx n : Nat) (c : Context), Switching s ctx c (.out n) →
    (outStepDone s ctx n = true → exec (.switchOutStep ctx) s = .next (if n = 1
      then setContext (wakeSeen s ctx) ctx { c with switch := .out 2 } else if n = 2
      then killPending (setContext s ctx { c with switch := .out 3 }) ctx else setContext s ctx { c with switch := .out (n + 1) })) ∧
    (outStepDone s ctx n = false → exec (.switchOutStep ctx) s = .next s)) ∧
  (∀ (s : State) (ctx : Nat) (c : Context), Switching s ctx c (.out 6) → c.st ≠ .closing →
    ∃ t c', exec (.switchOutDone ctx) s = .next t ∧ mget t.contexts ctx = some c' ∧ c'.st = .switchedOut ∧ c'.switch = .none ∧
      AllSaved s t ctx c' ∧
      ∀ a, (∀ k < c.savesz, (c.save + k) / 32 ≠ a / 32) → rdByte t.mem a = rdByte s.mem a) ∧
  (∀ (s : State) (ctx core : Nat) (place : Placing) (c : Context) (x : SavedTeam) (rest : List SavedTeam) (k : Kernel) (s₁ : State)
    (subs : List Sub), Restores s ctx core place c x rest k s₁ subs →
    let s₂ := restoreGroups core x.team ((savedOrder x).zip place)
      (setTeam (loadDict s₁ core x.team.kernel) x.uid (restoredTeam core x.team subs))
    let s₃ := endTeam (recheckBars (startReload (setContext s₂ ctx (restoredContext c rest)) x.uid) x.uid) x.uid
    exec (.restorePlace ctx core place) s = .next (if rest = [] then afterSwitch s₃ ctx else s₃)) ∧
  (∀ (s : State) (ctx : Nat) (c : Context), Closed s ctx c → ∃ t, exec (.closeDone ctx) s = .next t ∧ mget t.contexts ctx = none ∧
    t.mem = s.mem ∧ (∀ i, i ≠ ctx → mget t.contexts i = mget s.contexts i) ∧
    ((∀ p ∈ s.contexts, p.1 ≠ ctx → p.2.keyslot ≠ c.keyslot) → mget t.fw.keySlots c.keyslot = none)) ∧
  (∀ (s : State) (ctx : Nat) (c : Context), mget s.contexts ctx = some c → exec (.faultQueueRetry ctx) s =
    .next (c.heldRecs.foldl (fun s r => postRecord s ctx r) (setContext s ctx { c with heldRecs := [] })))

/-- What is no instruction traps with cause 0x01 and the word in HADDR; a fetch beyond the image traps with cause 0x06 and the offset
(R65, R83). The trap is the effect of these rows. -/
def Sys2Proof.Claim.StopsTrap : Prop :=
  ∀ (s : State) (g : Machine.Group), Issues s g →
    (∀ word : BitVec 32, exec (.illegalInstruction word) s = .next (trapped s 1 (word.zeroExtend 64))) ∧
    (∀ off : BitVec 64, exec (.overlayImageFault off) s = .next (trapped s 6 off))

/-- The core hold and what folds and expands groups: the RECLAIM instruction and the fold events (R338 to R347).
The model's choice: that RECLAIM stays in its instruction until its folds are done, with its result and its limits fixed at the TAKE (log
entry 57), and which line SCRATCH_FILL puts out of scratch (log entry 58). -/
def Obligations.ReclaimAndFoldsComplete : Prop := Claim.ReclaimCompletes ∧ Claim.FoldEventsComplete

/-- The commands on a context, on its pages, and the start of a switch (R270 to R275, R278, R284, R398 to R403, R417, R419, R424 to R427).
The model's choice: that MAPPG waits for its invalidation in `pendingCmds` (log entry 49), status 3 where a save area would be lost or memory
mapped that no group of the context may reach (log entry 102), the statuses of LEVEL, of addresses and of quotas (log entry 44), and that
SETQUOTA is for an open context only, as R426 has it, though R273 is wider (log entry 46). -/
def Obligations.ContextAndPageCommandsComplete : Prop :=
  Claim.ContextCommandsComplete ∧ Claim.SwitchesStart ∧ Claim.PageCommandsComplete

/-- The commands on a queue, and dispatch from it (R286 to R293).
The model's choice: statuses 2 and 3 of the commands on a queue (log entry 44), that a promotion that is due comes before a dispatch (log
entry 73), what QUERYQ counts (log entry 82), and that a refill reads the record back from the overflow ring (log entry 40). -/
def Obligations.QueuesComplete : Prop := Claim.QueueCommandsComplete ∧ Claim.DispatchEventsComplete

/-- The commands on a graph, and the commands its interpreter runs (R298 to R300).
That a TASK for a DRAINING queue is tried again, and that WAIT goes on at an IDLE join, is the model's choice (log entry 36): R300 names a
full segment, RELEASED and CANCELLED. -/
def Obligations.GraphsComplete : Prop := Claim.GraphCommandsComplete ∧ Claim.GraphEventsComplete

/-- The port commands and the events of the links (R413 to R416, R424, R426, R452, R453).
The model's choice: the statuses of PORTUP, PORTDRAIN, ATTEST and malformed commands (log entry 44), and that the third failed attempt takes
a link down, the count starting again (log entry 53). -/
def Obligations.LinksComplete : Prop := Claim.PortCommandsComplete ∧ Claim.LinkEventsComplete

/-- What peers do to the module's memory, and how its accesses to peers end (R417 to R422).
The model's choice: that a misaligned atomic of a peer answers an error and that its write is all or none (log entry 54), the link that an
access takes and the moment from which its timeout runs (log entry 55). -/
def Obligations.PeersComplete : Prop := Claim.PeerOperationsComplete ∧ Claim.RemoteAccessesEnd

/-- The events of a cluster: its operating point, droops and release waves (R379, R428 to R436). -/
def Obligations.ClusterEventsComplete : Prop := Claim.OperatingPointEventsComplete ∧ Claim.DroopAndWaveEventsComplete

/-- The ends of kernels, teams and groups, and the end of a Publish (R138, R161, R236, R306, R310, R311, R377, R378).
The model's choice: that TEAM_RETIRE publishes at .sys the dirty bytes left by operations that outlived their group (log entry 28), and that a
group holds its lanes and rows until the Publish of its last EXIT is complete (log entry 79). -/
def Obligations.EndsComplete : Prop := Claim.RetirementEventsComplete ∧ Claim.KillAndPublishEventsComplete

/-- After a refresh of a group at a scope, every write that was visible to it by then through a scope that the refresh covers is forced for
it (R143, R145): its moment is not after the group's refresh point of that scope. -/
def Sys2Proof.Claim.RefreshForces : Prop :=
  ∀ (s : State) (gid : Nat) (g : Machine.Group) (sc : Scope), mget s.groups gid = some g →
    ∃ g', mget (refreshGroup s gid sc).groups gid = some g' ∧ g' = g.refresh sc s.fresh ∧
      ∀ (key : Nat) (e : Pub) (m : Nat), visAt (g.reader s gid key) e = some m → m ≤ s.fresh →
        between e.who (agentOf g.core) ≤ sc.idx → visAt (g'.reader s gid key) e = some m ∧ m ≤ g'.rho[between e.who (agentOf g.core)]

/-- The events by which memory, the stash, WAITM and the matrix sequencer answer (R215 to R217, R228, R229, R237 to R240). What a load that
returns holds is said at its issue (`Claim.LoadValues`, R143); a refresh forces the writes that are visible by then (R145). The model's
choice: that an access of the sequencer is a move of its own (log entry 33), and that a stash fill reads no pending store (log entry 12). -/
def Obligations.MemoryAndSequencerEventsComplete : Prop :=
  Claim.MemoryEventsComplete ∧ Claim.SequencerCompletes ∧ Claim.RefreshForces

/-- The acceptance of an engine operation, and the delivery of multicast copies (R153, R157, R243, R246, R249, R365, R382, R405). -/
def Obligations.EngineAcceptAndDeliveryComplete : Prop := Claim.EngineAcceptCompletes ∧ Claim.DeliveryOfCopiesCompletes

/-- Rings of streams and rings of tokens (R267, R268, R389 to R394). -/
def Obligations.RingAndDeliveryEventsComplete : Prop := Claim.RingEventsComplete ∧ Claim.DeliveryEventsComplete

/-- Words by way of a dictionary, words that are no instruction, and fetches beyond an image (R65, R70 to R72, R83). -/
def Obligations.DictAndStopsComplete : Prop := Claim.DictExecutes ∧ Claim.StopsTrap

/-- The overlay instructions, and the events of overlay loads, evictions and the transit region (R315, R323, R324, R329 to R335). -/
def Obligations.OverlaysComplete : Prop := Claim.OverlayInstructionsComplete ∧ Claim.OverlayEventsComplete

namespace Sys2Proof.Claim

/-- The next move and the state in which it is made: time has passed, and the move is the head of the agenda or else a free choice (log
entry 6). -/
def Moves (s : State) (t : Turn) (s' : State) : Prop :=
  (∃ l, (passTime s).agenda = t :: l ∧ s' = { passTime s with agenda := l }) ∨
  ((passTime s).agenda = [] ∧ t = Config.nextTurn (passTime s).tick ∧ s' = passTime s)

/-- In a move of group `gid` with threads `m`, thread `l` leads an issue in `s₁`: the group has started and may issue, its waits for overlays
that are resident have ended, and `r` is the complete copy of the overlay that the thread's PC lies in (R50, R313, R336). -/
structure Leads (s s₁ : State) (gid : Nat) (m : BitVec 32) (g : Machine.Group) (l : Fin 32) (r : Residency) : Prop where
  started : ∃ g₀, mget s.groups gid = some g₀ ∧ g₀.st ≠ .placed ∧ teamLoaded s g₀ = true ∧ mayIssue s gid g₀ = true
  asked : s₁ = askOverlays s gid
  group : mget s₁.groups gid = some g
  lead : leadOf s₁ gid g m = some l
  code : copyFor (coreOf s₁ g.core) g.ctx g.threads[l] = some r

/-- The leading thread's fetch finds an instruction of `n` bytes with word `w` in its copy of the image, at its PC (R64, R65). -/
def Fetches (g : Machine.Group) (l : Fin 32) (r : Residency) (w n : Nat) : Prop := fetchWord r.code g.threads[l].pc.toNat = .ok (w, n)

/-- The issue of lane `l` and the threads that stand with it, of an instruction of `n` bytes. -/
def issueAt (gid : Nat) (g : Machine.Group) (l : Fin 32) (mask : BitVec 32) (n w : Nat) : Issue :=
  { group := gid, mask := mask, ov := g.threads[l].ov, pc := g.threads[l].pc, next := g.threads[l].pc + BitVec.ofNat 32 n,
    word := BitVec.ofNat 32 w }

/-- The state of an issue: each of its threads keeps the copy that its PC lies in (R313). -/
def issuing (s₁ : State) (gid : Nat) (g : Machine.Group) (l : Fin 32) (n w : Nat) : State :=
  { setGroup s₁ gid (g.onLanes (withLead s₁ gid g l) fun _ x => { x with copy := copyOf (coreOf s₁ g.core) g.ctx x }) with
    cur := issueAt gid g l (withLead s₁ gid g l) n w }

/-- A trap of cause 1, 2, 7, ... of a whole issue as the machine takes it. -/
def trapWith (s : State) (cause : Nat) (haddr : DWord) (mask : BitVec 32) : State :=
  takeTrap s s.cur.group { cause := cause, haddr := haddr, access := 0 } mask s.cur

/-- The instruction that has the word of `i`: RECLAIM.GIVE shares the word of RECLAIM.TAKE (Table 14.3). -/
def sameWord : Instr → Instr
  | .reclaimGive d c l => .reclaimTake d c l
  | i => i

/-- Instructions that run only in handler mode or in a control group (R82 step 2, Table 6.29, R193, R338, R355, R411, R431, R284). -/
def privilegedOnly : Instr → Bool
  | .srd _ sel | .swr sel _ => decide (0x40 ≤ sel.toNat)
  | .halt | .resume _ _ _ | .tlbinv _ _ | .pwrreq _ _ | .ctxopQuery _ _ | .ctxopSwout _ _ | .ctxopSwin _ _
  | .reclaimTake _ _ _ | .reclaimGive _ _ _ => true
  | _ => false

/-- The bit of FEAT0 that an instruction needs (R272, Table 10.3). -/
def featureBit : Instr → Option Nat
  | .mprojC _ _ _ _ | .mprojS _ _ _ _ | .drawcfg _ | .draw _ _ _ | .drawseed _ | .deliver _ _ => some 2
  | .joinArm _ _ _ | .joinArrive _ _ _ | .joinWait _ | .joinRead _ _ _ | .joinCancel _ | .killoff | .killon => some 3
  | .engineSub _ _ | .subend _ | .slotdone _ _ => some 4
  | .kvmove _ _ _ => some 5
  | .smap _ _ _ | .sunmap _ | .sflush _ => some 6
  | _ => none

/-- The thread of a group that has entered its handler overlay: its place is kept, and it stands at entry 0 of that overlay (R350). -/
def enteredHandler (t : Thread) (ov e0 : Nat) : Thread :=
  { t with savedPc := t.pc, savedOv := t.ov, savedWait := t.wait, pc := BitVec.ofNat 32 e0, ov := BitVec.ofNat 16 ov,
           copy := none, wait := none }

/-- Everything of a group but its registers, its threads and its flags. -/
def sameButRegisters (g g' : Machine.Group) : Prop :=
  g' = { g with threads := g'.threads, w := g'.w, gstat := g'.gstat, lastRead := g'.lastRead, spilled := g'.spilled,
                wantFill := g'.wantFill, badRegs := g'.badRegs }

/-- A pending store to memory of the module whose translation still holds. -/
def LocalPend (e : Pend) : Prop := e.stale = false ∧ (e.tr.kind = .hbm ∨ e.tr.kind = .lpddr)

/-- A physical address outside a pending store. -/
def OutsideOf (e : Pend) (a : Nat) : Prop := a < e.tr.pa ∨ e.tr.pa + e.bytes.length ≤ a

/-- One key is that of every pending store, and no other key wrote last in a data unit of theirs (R275). -/
def OneKey (s : State) (g : Machine.Group) (key : Nat) : Prop :=
  ∀ e ∈ g.pend, keySerial s e.tr.key = key ∧ ∀ k < e.bytes.length, (unitKey s ((e.tr.pa + k) / 32)).all (· == key) = true

/-- The group has no dirty stash byte. -/
def NoDirty (s : State) (gid : Nat) (g : Machine.Group) : Prop :=
  ∀ tid t, g.team = some tid → mget s.teams tid = some t → ∀ p ∈ t.stashDirty, p.2.gid ≠ gid

end Sys2Proof.Claim

open Sys2Proof Sys2Proof.Machine Sys2Proof.Claim

/-- A step runs the instruction that the bytes at the leading thread's PC decode to, for all the threads that stand with it, with the PC
after its words beside it; a command or event of the device runs as it stands, and a command that has waited once it need wait no longer
(R50, R52, R53, R64, R313, R411, R425).
The model's choice: that the next move is the head of the agenda or any move at all (log entry 6), that the lowest ready thread of the move's
mask leads and takes with it every ready thread at its PC (log entry 8), and that a command waits in `pendingCmds` (log entries 49, 84). -/
def Obligations.StepRunsDecoded : Prop :=
  ∀ (s s' : State) (i : Instr),
    (∀ gid m s₁ g l r w n, Moves s (.issue gid m) s' → Leads s' s₁ gid m g l r → Fetches g l r w n → instrOf w n = some i →
      step s = exec i (issuing s₁ gid g l n w)) ∧
    (Moves s (.event i) s' → isMove i = true → behind s'.pendingCmds i = false → step s = exec i s') ∧
    (Moves s (.event i) s' → isMove i = true → behind s'.pendingCmds i = true →
      step s = .next { s' with pendingCmds := s'.pendingCmds ++ [i] }) ∧
    (∀ n, Moves s (.command n) s' → s'.pendingCmds[n]? = some i → behind (s'.pendingCmds.take n) i = false → stillWaits s' i = false →
      step s = exec i { s' with pendingCmds := s'.pendingCmds.eraseIdx n })

/-- The device never treats what is no instruction as one that does nothing: a word or halfword outside the tables, and a dictionary entry
with bit 0 clear, raise cause 0x01; every halfword of the H form is an instruction, and a D form with a bit of [15:12] set is none (R83). -/
def Obligations.UndefinedWordsTrap : Prop :=
  (∀ (s s' s₁ : State) (gid : Nat) (m : BitVec 32) (g : Machine.Group) (l : Fin 32) (r : Residency) (w n : Nat),
    Moves s (.issue gid m) s' → Leads s' s₁ gid m g l r → Fetches g l r w n → instrOf w n = none →
    step s = .next (trapWith (issuing s₁ gid g l n w) 1 ((BitVec.ofNat 32 w).zeroExtend 64) (withLead s₁ gid g l))) ∧
  (∀ h, h < 2 ^ 16 → h % 4 = 0 → (decodeHalf h).isSome = true) ∧
  (∀ h, h < 2 ^ 16 → h % 4 = 2 → h / 2 ^ 12 ≠ 0 → decodeHalf h = none) ∧
  (∀ (s : State) (g : Machine.Group) (idx : BitVec 10), Issues s g → (dictEntry s g.kernel idx.toNat).getLsbD 0 = false →
    exec (.dict idx) s = .next (trapWith s 1 (s.cur.word.zeroExtend 64) s.cur.mask))

/-- A fetch at or beyond the end of the overlay's image, or of an instruction whose second halfword lies there, raises cause 0x06 at the
instruction's address, with the byte offset of the first halfword beyond the end in HADDR; nothing runs on into another overlay (R65). -/
def Obligations.FetchBeyondTraps : Prop :=
  ∀ (s s' s₁ : State) (gid : Nat) (m : BitVec 32) (g : Machine.Group) (l : Fin 32) (r : Residency) (off : Nat),
    Moves s (.issue gid m) s' → Leads s' s₁ gid m g l r → fetchWord r.code g.threads[l].pc.toNat = .error off →
    step s = .next (trapWith { issuing s₁ gid g l 0 0 with
      cur := { issueAt gid g l (withLead s₁ gid g l) 0 0 with next := g.threads[l].pc } } 6 (u64 off) (withLead s₁ gid g l)) ∧
    (off = g.threads[l].pc.toNat ∨ off = g.threads[l].pc.toNat + 2) ∧ r.code.length < off + 2

/-- Words written out from the spec's encodings decode to what they stand for: EXIT and RTH (R182, R184), an ADD in the H form (R70), a
vector ADD (Table 3.4), a MOVW (W form), and a RESUME. -/
def Obligations.WordsDecode : Prop :=
  decodeTableWord 32 0x2000007D = some .exit ∧ decodeTableWord 32 0x2800007D = some .rth ∧
  decodeTableWord 16 0x4944 = some (.addH 9 5) ∧
  decodeTableWord 32 (3 * 2 ^ 21 + 2 * 2 ^ 14 + 1 * 2 ^ 7 + 0x00 * 2 + 1) = some (.add 0 ⟨false, false, 3, 2, 1⟩) ∧
  decodeTableWord 32 (5 * 2 ^ 14 + 96 * 2 ^ 7 + 0x0F * 2 + 1) = some (.movw 5 96) ∧
  decodeTableWord 32 (3 * 2 ^ 26 + 98 * 2 ^ 14 + 97 * 2 ^ 7 + 0x3F * 2 + 1) = some (.resume false 1 2)

/-- The decoder and the encoder agree: a well-formed instruction comes back from its word, whatever its operands (GIVE as TAKE, whose word
it shares), and a word that decodes is the encoding of a well-formed instruction and of no other word (R64 to R83). -/
def Obligations.EncodeDecodeAgree : Prop :=
  (∀ (i : Instr) (n w : Nat), i.wf = true → encode i = some (n, w) →
    (n = 16 ∨ n = 32) ∧ w < 2 ^ n ∧ decodeTableWord n w = some (sameWord i)) ∧
  (∀ (i : Instr) (w : Nat), w < 2 ^ 32 → w % 2 = 1 → decodeWord w = some i → i.wf = true ∧ encode i = some (32, w)) ∧
  (∀ (i : Instr) (h : Nat), h < 2 ^ 16 → h % 2 = 0 → decodeHalf h = some i → i.wf = true ∧ encode i = some (16, h))

/-- Reserved encodings are no instructions: majors 0x39 to 0x3B, size code 7 of the M form, a misaligned register pair or quadruple, a hint
on a scratch access, a mark on a uniform source, an undefined atomic operation, and minors past the last of their major (R67, R68, R73,
R77, R78, R83). -/
def Obligations.ReservedEncodingsRefused : Prop :=
  ∀ w, w < 2 ^ 32 → w % 2 = 1 →
    (0x39 ≤ fieldN w 1 6 → fieldN w 1 6 ≤ 0x3B → decodeWord w = none) ∧
    (0x30 ≤ fieldN w 1 6 → fieldN w 1 6 ≤ 0x33 →
      (fieldN w 26 3 = 7 → decodeWord w = none) ∧
      (fieldN w 7 7 < 96 → fieldN w 26 3 = 5 → fieldN w 7 7 % 2 = 1 → decodeWord w = none) ∧
      (fieldN w 7 7 < 96 → fieldN w 26 3 = 6 → fieldN w 7 7 % 4 ≠ 0 → decodeWord w = none) ∧
      (96 ≤ fieldN w 7 7 → fieldN w 19 7 < 96 → decodeWord w = none) ∧
      (96 ≤ fieldN w 19 7 → bitAt w 29 = true → decodeWord w = none) ∧
      (0x32 ≤ fieldN w 1 6 → fieldN w 30 2 ≠ 0 → decodeWord w = none)) ∧
    (fieldN w 1 6 = 0x34 → 12 ≤ fieldN w 28 4 → decodeWord w = none) ∧
    (fieldN w 1 6 ≤ 0x02 → 96 ≤ fieldN w 7 7 → (fieldN w 14 7 < 96 ∨ fieldN w 21 7 < 96) → decodeWord w = none) ∧
    (fieldN w 1 6 = 0x20 → 96 ≤ fieldN w 7 7 → decodeWord w = none) ∧
    (fieldN w 1 6 = 0x3E → 14 ≤ fieldN w 26 6 → decodeWord w = none) ∧
    (fieldN w 1 6 = 0x3F → 9 ≤ fieldN w 26 6 → decodeWord w = none)

/-- Every step keeps global memory in its canonical form: addresses rising, none listed that reads as an unlisted one does. -/
def Obligations.MemoryStaysCanonical : Prop :=
  ∀ s t : State, MemOk s → step s = .next t → MemOk t

/-- Every step keeps the scratchpad of every team, resident or saved with its context, in the same form. -/
def Obligations.ScratchStaysCanonical : Prop :=
  ∀ s t : State, ScratchOk s → step s = .next t → ScratchOk t

/-- The module after reset: every link DOWN (R413), every cluster at 675 mV, 850 MHz and ratio EQUAL (R428) with CSLR 0x080F (R435), DDTR 25
(R436) and CYCLE 0, TSTAMP 0 (R437), no context open, no group, and memory and scratch in canonical form. -/
def Obligations.ResetState : Prop :=
  (∀ l, l < 8 → (linkOf State.reset l).st = .down) ∧
  (∀ c, c < 144 → (clusterOf State.reset c).point = ⟨675, 850, 1⟩ ∧ (clusterOf State.reset c).cslr = 0x0000080F ∧
    (clusterOf State.reset c).ddtr = 25 ∧ (clusterOf State.reset c).cycle = 0 ∧ (clusterOf State.reset c).droop = .idle) ∧
  State.reset.tstamp = 0 ∧ (∀ c, mget State.reset.contexts c = none) ∧ (∀ g, mget State.reset.groups g = none) ∧
  MemOk State.reset ∧ ScratchOk State.reset

/-- Taking a synchronous trap outside handler mode (R194, R349, R350, R307): HCAUSE holds the cause, the lowest trapping lane and the lane
mask, HPC the place of the instruction, HADDR the detail; every live thread's place and w28 to w31 are kept; a group whose kernel has a
handler enters entry 0 of it in handler mode, with its other uniform registers, its vector rows and its flags as they were; for cause 0x03,
or without a handler, it parks and a fault record is posted. -/
def Obligations.TrapEntry : Prop :=
  ∀ (s : State) (gid : Nat) (g : Machine.Group) (t : TrapInfo) (mask : BitVec 32) (i : Issue) (low : Fin 32),
    mget s.groups gid = some g → g.handling = false → lowestLane mask = some low → t.cause < 256 →
    ∃ g₁ : Machine.Group, slice g₁.hcause 0 8 = t.cause ∧ slice g₁.hcause 8 5 = low.val ∧ slice g₁.hcause 32 32 = mask.toNat ∧
      slice g₁.hpc 16 16 = i.ov.toNat ∧ slice g₁.hpc 0 16 = i.pc.toNat % 2 ^ 16 ∧ g₁.haddr = t.haddr ∧ g₁.w = g.w ∧ g₁.gstat = g.gstat ∧
      (∀ l : Fin 32, g₁.threads[l].v = g.threads[l].v ∧ g₁.threads[l].k = g.threads[l].k ∧ (g.threads[l].live = false →
        g₁.threads[l] = g.threads[l])) ∧
      (∀ ov e0, t.cause ≠ 3 → handlerOf s g.kernel = some (ov, e0) →
        takeTrap s gid t mask i = enterOverlays (setGroup s gid g₁) gid ∧ g₁.st = .handler ∧
        (∀ n : Fin 4, g₁.hiddenW[n] = g.rdW (28 + n.val)) ∧
        ∀ l : Fin 32, g.threads[l].live = true → g₁.threads[l] = enteredHandler g.threads[l] ov e0) ∧
      (t.cause = 3 ∨ handlerOf s g.kernel = none →
        (∃ rec : FaultRec, takeTrap s gid t mask i = postRecord (setGroup s gid g₁) g.ctx rec ∧
          rec.source = (if t.cause = 3 then 0 else 6) ∧ rec.cause = t.cause ∧ rec.group = handleOf g ∧ rec.hcause = g₁.hcause ∧
          rec.hpc = g₁.hpc) ∧
        g₁.st = .parked false ∧
        ∀ l : Fin 32, g.threads[l].live = true → g₁.threads[l] = { g.threads[l] with
          savedPc := g.threads[l].pc, savedOv := g.threads[l].ov, savedWait := g.threads[l].wait })

/-- A trap raised in handler mode parks the group, which keeps HANDLER as its resume state; the record carries the inner trap, and the outer
trap's HCAUSE, HPC, HADDR, saved places and w28 to w31 stay; RESUME brings the group back to HANDLER where it stands (R352, R355).
SOURCE, VADDR and DETAIL are those of Table 17.6 (R404); that a trap other than of a page has SOURCE 6 in handler mode too is the model's
choice (log entry 116). -/
def Obligations.TrapInHandlerParks : Prop :=
  ∀ (s : State) (gid : Nat) (g : Machine.Group) (t : TrapInfo) (mask : BitVec 32) (i : Issue),
    mget s.groups gid = some g → g.handling = true →
    (∃ rec : FaultRec, takeTrap s gid t mask i = postRecord (setGroup s gid { g with st := .parked true }) g.ctx rec ∧ rec.cause = t.cause ∧
      rec.group = handleOf g ∧ rec.hpc = hpcOf i ∧ rec.hcause = hcauseOf t.cause mask ∧
      (t.cause = 3 → rec.source = 0 ∧ rec.vaddr = t.haddr) ∧ (t.cause ≠ 3 → rec.source = 6 ∧ rec.detail = t.haddr)) ∧
    ∀ s' g', mget s'.groups gid = some g' → resumeGroup s' gid g' true = setGroup s' gid { g' with st := .handler }

/-- Outside handler mode and control groups a privileged instruction raises cause 0x0C, and one that an agreed feature gates raises cause
0x01 in a context without it, each with the instruction's word in HADDR and no other effect; RTH raises 0x0C outside handler mode even in a
control group (R82, R184, R272). -/
def Obligations.PrivilegeAndFeatureTraps : Prop :=
  ∀ (i : Instr) (s : State) (g : Machine.Group), Issues s g →
    (privilegedOnly i = true → g.privileged = false → exec i s = .next (trapWith s 12 (s.cur.word.zeroExtend 64) s.cur.mask)) ∧
    (i = .rth → g.handling = false → exec i s = .next (trapWith s 12 (s.cur.word.zeroExtend 64) s.cur.mask)) ∧
    (∀ b, featureBit i = some b → feature s g b = false → exec i s = .next (trapWith s 1 (s.cur.word.zeroExtend 64) s.cur.mask))

/-- A floating-point trap (R105, R195): when some lane raises a flag that FPEN enables, the flags of the whole issue are set, no lane writes
its destination, and the group traps with cause 0x07 for the lanes that raised an enabled flag, with the flags of the lowest of them in
HADDR.
That the flags of every lane of the issue are set, UNDEF is not, and HADDR holds the flags of the lowest lane with an enabled flag is the
model's choice (log entry 14). -/
def Obligations.FloatTraps : Prop :=
  ∀ (i : Instr) (r : VecForm) (s : State) (g : Machine.Group) (low : Fin 32) (rest : List (Fin 32)), floatForm g.frm g.ftz i = some r →
    Issues s g → VecFree s g (cohort s) (r.reads.map (·.1)) [r.d] → VecRoom g (cohort s) (g.freesOf r.reads) [rotName g.rwin r.d.toNat] →
    (cohort s).filter (fun l => g.trapFlags (r.f (r.args g l)).2 != 0) = low :: rest →
    exec i s = .next (trapWith
      (setGroup s s.cur.group { g with gstat := g.gstat ||| Flags.toGstat ((cohort s).foldl (fun a l => a ||| (r.f (r.args g l)).2) 0) })
      7 ((r.f (r.args g low)).2.zeroExtend 64) (maskOf (low :: rest)))

/-- An access at an address that is no multiple of its size raises cause 0x02 with the address of the lowest lane at fault in HADDR and all
those lanes in the mask, before any other check of the address and with no effect (R77, R195, R227, R229). -/
def Obligations.MisalignedTraps : Prop :=
  ∀ (o : MemOps) (s : State) (g : Machine.Group) (i : Instr) (low : Fin 32) (rest : List (Fin 32)), i = .ld o ∨ i = .st o → Issues s g →
    (isUni o.d = true → UniFree s g [o.base.toNat, uniIdx o.x, uniIdx o.d] [] → (uniAddr g o).toNat % szBytes o.sz ≠ 0 →
      exec i s = .next (trapWith s 2 (uniAddr g o) s.cur.mask)) ∧
    (isUni o.d = false → MemFree s g o.base (if i = .ld o then [(o.x, o.lx)] else storeReads o)
        (if i = .ld o then destRegs o.d (szRegs o.sz) else []) →
      (∀ l ∈ cohort s, (laneAddr g o l).toNat % szBytes o.sz = 0 → globalTrap s g l.val (laneAddr g o l) (szBytes o.sz)
        (if i = .ld o then .read else .write) = none) →
      (cohort s).filter (fun l => decide ((laneAddr g o l).toNat % szBytes o.sz ≠ 0)) = low :: rest →
      exec i s = .next (trapWith s 2 (laneAddr g o low) (maskOf (low :: rest))))

/-- The frame of the instructions that compute in registers: when one gives a next state without a trap, every byte of memory, every team
with its scratchpad, every other group, and every special register, exception register and pending store of its own group is as it was;
what may change is registers, PCs and the flags of GSTAT. -/
def Obligations.ComputationFrame : Prop :=
  ∀ (i : Instr) (s t : State) (g : Machine.Group), Issues s g →
    ((intForm i).isSome = true ∨ (floatForm g.frm g.ftz i).isSome = true ∨ (uniForm i).isSome = true) → exec i s = .next t →
    (∃ s' x mask, t = takeTrap s' s.cur.group x mask s.cur) ∨
    ((∀ a, rdByte t.mem a = rdByte s.mem a) ∧ t.teams = s.teams ∧ t.cores = s.cores ∧ t.clusters = s.clusters ∧ t.contexts = s.contexts ∧
      (∀ j, j ≠ s.cur.group → mget t.groups j = mget s.groups j) ∧
      ∃ g', mget t.groups s.cur.group = some g' ∧ sameButRegisters g g' ∧ g'.gstat &&& 0xFFFFFFFFFFFFFC00#64 = g.gstat &&& 0xFFFFFFFFFFFFFC00#64 ∧
        ∀ l : Fin 32, g'.threads[l].k = g.threads[l].k ∧ g'.threads[l].xfer = g.threads[l].xfer ∧ g'.threads[l].live = g.threads[l].live)

/-- A Publish writes memory where the group's pending stores lie (R136, R138): nothing of them is pending after; a pending store alone is
in memory after it, byte for byte, at its translation; a byte in no 32 B data unit of a pending store reads as before. Where those units
were last written under the stores' own key, or never (R275), more holds: every byte outside every pending store reads as before, and of
several stores to one byte the newest is what memory holds. -/
def Obligations.PublishStores : Prop :=
  ∀ (s : State) (gid : Nat) (g : Machine.Group) (sc : Scope), mget s.groups gid = some g → (∀ e ∈ g.pend, LocalPend e) → NoDirty s gid g →
    (publishGroup s gid sc).2.2 = false ∧ (publishGroup s gid sc).2.1 = [] ∧
    (∃ g', mget (publishGroup s gid sc).1.groups gid = some g' ∧ g'.pend = [] ∧ g'.threads = g.threads ∧ g'.w = g.w) ∧
    (∀ e, g.pend = [e] → ∀ k, (h : k < e.bytes.length) → rdByte (publishGroup s gid sc).1.mem (e.tr.pa + k) = e.bytes[k]) ∧
    (∀ a, (∀ e ∈ g.pend, ∀ k < e.bytes.length, (e.tr.pa + k) / 32 ≠ a / 32) → rdByte (publishGroup s gid sc).1.mem a = rdByte s.mem a) ∧
    (∀ key, OneKey s g key →
      (∀ a, (∀ e ∈ g.pend, OutsideOf e a) → rdByte (publishGroup s gid sc).1.mem a = rdByte s.mem a) ∧
      (∀ older e newer, g.pend = older ++ e :: newer → ∀ k, (h : k < e.bytes.length) → (∀ e' ∈ newer, OutsideOf e' (e.tr.pa + k)) →
        rdByte (publishGroup s gid sc).1.mem (e.tr.pa + k) = e.bytes[k]))
end

