-- ==== Sys2Proof/Laws/Integer.lean ====
section
/-! SUPPORT. Integer values: a shift by a 5-bit immediate, and the shifts as plain bit-vector operations. -/

namespace Sys2Proof.Machine

theorem imm5_mod (n : BitVec 5) (W : Nat) (h : W = 32 ∨ W = 64) : (n.zeroExtend W).toNat % W = n.toNat := by
  have hn : n.toNat < 32 := n.isLt
  rcases h with rfl | rfl
  · rw [BitVec.toNat_setWidth]; omega
  · rw [BitVec.toNat_setWidth]; omega

theorem shlV_imm32 (x : Word) (n : BitVec 5) : shlV x (n.zeroExtend 32) = x <<< n.toNat := by rw [shlV, imm5_mod n 32 (.inl rfl)]
theorem shrV_imm32 (x : Word) (n : BitVec 5) : shrV x (n.zeroExtend 32) = x >>> n.toNat := by rw [shrV, imm5_mod n 32 (.inl rfl)]
theorem sarV_imm32 (x : Word) (n : BitVec 5) : sarV x (n.zeroExtend 32) = x.sshiftRight n.toNat := by
  rw [sarV, imm5_mod n 32 (.inl rfl)]
theorem rotV_imm32 (x : Word) (n : BitVec 5) : rotV x (n.zeroExtend 32) = x.rotateRight n.toNat := by
  rw [rotV, imm5_mod n 32 (.inl rfl)]
theorem shlV_imm64 (x : DWord) (n : BitVec 5) : shlV x (n.zeroExtend 64) = x <<< n.toNat := by rw [shlV, imm5_mod n 64 (.inr rfl)]
theorem shrV_imm64 (x : DWord) (n : BitVec 5) : shrV x (n.zeroExtend 64) = x >>> n.toNat := by rw [shrV, imm5_mod n 64 (.inr rfl)]
theorem sarV_imm64 (x : DWord) (n : BitVec 5) : sarV x (n.zeroExtend 64) = x.sshiftRight n.toNat := by
  rw [sarV, imm5_mod n 64 (.inr rfl)]
theorem rotV_imm64 (x : DWord) (n : BitVec 5) : rotV x (n.zeroExtend 64) = x.rotateRight n.toNat := by
  rw [rotV, imm5_mod n 64 (.inr rfl)]

end Sys2Proof.Machine
end

