-- ==== Sys2Proof/Laws/Maps.lean ====
section
/-! SUPPORT. Finite maps and byte memories: a read after a write, what a write leaves alone, and the canonical form of a memory,
which every write keeps. -/

namespace Sys2Proof.Machine

/-! ### Reading after writing -/

theorem mget_mput {α : Type} (m : Map α) (k j : Nat) (v : α) : mget (mput m k v) j = if k = j then some v else mget m j := by
  induction m with
  | nil => rfl
  | cons p r ih =>
    obtain ⟨k', v'⟩ := p
    unfold mput
    split
    · rfl
    · split
      · next h => subst h; by_cases hj : k' = j <;> simp [mget, hj]
      · next h =>
        by_cases hj : k' = j
        · have : k ≠ j := by omega
          simp [mget, hj, this]
        · simp [mget, hj, ih]

@[simp] theorem mget_mput_self {α : Type} (m : Map α) (k : Nat) (v : α) : mget (mput m k v) k = some v := by
  rw [mget_mput, if_pos rfl]

theorem mget_mput_of_ne {α : Type} (m : Map α) {k j : Nat} (v : α) (h : k ≠ j) : mget (mput m k v) j = mget m j := by
  rw [mget_mput, if_neg h]

theorem mget_mdel {α : Type} (m : Map α) (k j : Nat) : mget (mdel m k) j = if k = j then none else mget m j := by
  induction m with
  | nil => simp [mdel, mget]
  | cons p r ih =>
    obtain ⟨k', v'⟩ := p
    unfold mdel
    split
    · next h => subst h; rw [ih]; by_cases hj : k' = j <;> simp [mget, hj]
    · next h =>
      by_cases hj : k' = j
      · have : k ≠ j := by omega
        simp [mget, hj, this]
      · simp [mget, hj, ih]

theorem mgetD_mputD {α : Type} [DecidableEq α] (m : Map α) (k j : Nat) (v d : α) :
    mgetD (mputD m k v d) j d = if k = j then v else mgetD m j d := by
  unfold mgetD mputD
  split
  · next h => rw [mget_mdel]; by_cases hj : k = j <;> simp [hj, h]
  · rw [mget_mput]; by_cases hj : k = j <;> simp [hj]

/-- A byte read after one is written. -/
theorem rdByte_wrByte (m : List Host.Cell) (a a' : Nat) (b : Byte) : rdByte (wrByte m a b) a' = if a = a' then b else rdByte m a' :=
  mgetD_mputD m a a' b unlistedByte

/-- A byte outside the bytes written is as before. -/
theorem rdByte_wrBytes_of_out (bs : List Byte) : ∀ (m : List Host.Cell) (a x : Nat), (x < a ∨ a + bs.length ≤ x) →
    rdByte (wrBytes m a bs) x = rdByte m x := by
  induction bs with
  | nil => intro m a x _; rfl
  | cons b r ih =>
    intro m a x h
    simp only [List.length_cons] at h
    rw [wrBytes, ih _ _ _ (by omega), rdByte_wrByte, if_neg (by omega)]

/-- A byte inside the bytes written is the one written. -/
theorem rdByte_wrBytes_of_in (bs : List Byte) : ∀ (m : List Host.Cell) (a i : Nat) (h : i < bs.length),
    rdByte (wrBytes m a bs) (a + i) = bs[i] := by
  induction bs with
  | nil => intro m a i h; simp at h
  | cons b r ih =>
    intro m a i h
    rw [wrBytes]
    cases i with
    | zero => rw [rdByte_wrBytes_of_out _ _ _ _ (by omega), rdByte_wrByte]; simp
    | succ j =>
      have := ih (wrByte m a b) (a + 1) j (by simpa using h)
      rw [show a + (j + 1) = a + 1 + j by omega, this]
      simp

@[simp] theorem rdBytes_length (m : List Host.Cell) (a n : Nat) : (rdBytes m a n).length = n := by
  induction n generalizing a with
  | zero => rfl
  | succ n ih => simp [rdBytes, ih]

theorem rdBytes_congr (m m' : List Host.Cell) (n : Nat) : ∀ a, (∀ i, a ≤ i → i < a + n → rdByte m i = rdByte m' i) →
    rdBytes m a n = rdBytes m' a n := by
  induction n with
  | zero => intro a _; rfl
  | succ n ih =>
    intro a h
    rw [rdBytes, rdBytes, h a (by omega) (by omega), ih (a + 1) fun i h1 h2 => h i (by omega) (by omega)]

/-- Bytes read back after they are written. -/
theorem rdBytes_wrBytes_self (bs : List Byte) : ∀ (m : List Host.Cell) (a : Nat), rdBytes (wrBytes m a bs) a bs.length = bs := by
  induction bs with
  | nil => intro m a; rfl
  | cons b r ih =>
    intro m a
    rw [List.length_cons, rdBytes, wrBytes, ih, rdByte_wrBytes_of_out _ _ _ _ (by omega), rdByte_wrByte, if_pos rfl]

/-- A run of bytes apart from the bytes written is as before. -/
theorem rdBytes_wrBytes_of_out (bs : List Byte) (m : List Host.Cell) (a x n : Nat) (h : x + n ≤ a ∨ a + bs.length ≤ x) :
    rdBytes (wrBytes m a bs) x n = rdBytes m x n :=
  rdBytes_congr _ _ _ _ fun i h1 h2 => rdByte_wrBytes_of_out _ _ _ _ (by omega)

/-! ### The canonical form -/

/-- A bound may be lowered. -/
theorem wfFrom_weaken (m : List Host.Cell) : ∀ (lo lo' : Option Nat), (∀ l', lo' = some l' → ∃ l, lo = some l ∧ l' ≤ l) →
    Memory.wfFrom lo m = true → Memory.wfFrom lo' m = true := by
  cases m with
  | nil => intro _ _ _ _; rfl
  | cons p r =>
    obtain ⟨k, b⟩ := p
    intro lo lo' h hw
    simp only [Memory.wfFrom, Bool.and_eq_true] at hw ⊢
    refine ⟨⟨?_, hw.1.2⟩, hw.2⟩
    cases lo' with
    | none => rfl
    | some l' =>
      obtain ⟨l, rfl, hl⟩ := h l' rfl
      have h1 : l < k := by simpa using hw.1.1
      simp only [decide_eq_true_eq]; omega

theorem wfFrom_mdel (m : List Host.Cell) : ∀ (lo : Option Nat) (k : Nat), Memory.wfFrom lo m = true →
    Memory.wfFrom lo (mdel m k) = true := by
  induction m with
  | nil => intro _ _ _; rfl
  | cons p r ih =>
    obtain ⟨k', b⟩ := p
    intro lo k hw
    simp only [Memory.wfFrom, Bool.and_eq_true] at hw
    unfold mdel
    split
    · refine ih lo k (wfFrom_weaken r (some k') lo ?_ hw.2)
      intro l' hl
      subst hl
      have h1 : l' < k' := by simpa using hw.1.1
      exact ⟨k', rfl, by omega⟩
    · simp only [Memory.wfFrom, Bool.and_eq_true]
      exact ⟨hw.1, ih _ _ hw.2⟩

theorem wfFrom_mput (m : List Host.Cell) (b : Byte) (hb : b ≠ unlistedByte) : ∀ (lo : Option Nat) (k : Nat),
    (∀ l, lo = some l → l < k) → Memory.wfFrom lo m = true → Memory.wfFrom lo (mput m k b) = true := by
  have head : ∀ (lo : Option Nat) (k : Nat), (∀ l, lo = some l → l < k) →
      (match lo with | none => true | some l => decide (l < k)) = true := by
    intro lo k h
    cases lo with
    | none => rfl
    | some l => simpa using h l rfl
  induction m with
  | nil =>
    intro lo k h _
    simp only [mput, Memory.wfFrom, Bool.and_eq_true, decide_eq_true_eq]
    exact ⟨⟨head lo k h, hb⟩, trivial⟩
  | cons p r ih =>
    obtain ⟨k', b'⟩ := p
    intro lo k h hw
    simp only [Memory.wfFrom, Bool.and_eq_true] at hw
    unfold mput
    split
    · next hk =>
      simp only [Memory.wfFrom, Bool.and_eq_true, decide_eq_true_eq]
      exact ⟨⟨head lo k h, hb⟩, ⟨hk, by simpa using hw.1.2⟩, hw.2⟩
    · split
      · next hk =>
        subst hk
        simp only [Memory.wfFrom, Bool.and_eq_true, decide_eq_true_eq]
        exact ⟨⟨head lo _ h, hb⟩, hw.2⟩
      · next h1 h2 =>
        simp only [Memory.wfFrom, Bool.and_eq_true]
        refine ⟨hw.1, ih _ _ ?_ hw.2⟩
        intro l hl
        cases hl
        omega

/-- A write keeps the canonical form. -/
theorem wf_wrByte (m : List Host.Cell) (a : Nat) (b : Byte) (h : Memory.wf m = true) : Memory.wf (wrByte m a b) = true := by
  unfold wrByte mputD
  split
  · exact wfFrom_mdel m none a h
  · next hb => exact wfFrom_mput m b hb none a (by simp) h

theorem wf_wrBytes (bs : List Byte) : ∀ (m : List Host.Cell) (a : Nat), Memory.wf m = true → Memory.wf (wrBytes m a bs) = true := by
  induction bs with
  | nil => intro m a h; exact h
  | cons b r ih => intro m a h; exact ih _ _ (wf_wrByte m a b h)

theorem wf_wrCells (l : List Host.Cell) : ∀ m : List Host.Cell, Memory.wf m = true →
    Memory.wf (l.foldl (fun m c => wrByte m c.1 c.2) m) = true := by
  induction l with
  | nil => intro m h; exact h
  | cons c r ih => intro m h; exact ih _ (wf_wrByte m c.1 c.2 h)

theorem wf_filter (p : Host.Cell → Bool) (m : List Host.Cell) : ∀ lo : Option Nat, Memory.wfFrom lo m = true →
    Memory.wfFrom lo (m.filter p) = true := by
  induction m with
  | nil => intro _ _; rfl
  | cons c r ih =>
    obtain ⟨k, b⟩ := c
    intro lo hw
    simp only [Memory.wfFrom, Bool.and_eq_true] at hw
    by_cases hp : p (k, b)
    · rw [List.filter_cons_of_pos hp]
      simp only [Memory.wfFrom, Bool.and_eq_true]
      exact ⟨hw.1, ih _ hw.2⟩
    · rw [List.filter_cons_of_neg hp]
      refine ih lo (wfFrom_weaken r (some k) lo ?_ hw.2)
      intro l' hl
      subst hl
      have h1 : l' < k := by simpa using hw.1.1
      exact ⟨k, rfl, by omega⟩

end Sys2Proof.Machine
end

