-- ==== Sys2Proof/Laws/State.lean ====
section
/-! SUPPORT. The state's updates, field by field: one lemma for each field and each named update, true by rfl. -/

namespace Sys2Proof.Machine

/-! ### setGroup -/

@[simp] theorem setGroup_tick (s : State) (k : Nat) (x : Group) : (setGroup s k x).tick = s.tick := rfl
@[simp] theorem setGroup_agenda (s : State) (k : Nat) (x : Group) : (setGroup s k x).agenda = s.agenda := rfl
@[simp] theorem setGroup_cur (s : State) (k : Nat) (x : Group) : (setGroup s k x).cur = s.cur := rfl
@[simp] theorem setGroup_fresh (s : State) (k : Nat) (x : Group) : (setGroup s k x).fresh = s.fresh := rfl
@[simp] theorem setGroup_mem (s : State) (k : Nat) (x : Group) : (setGroup s k x).mem = s.mem := rfl
@[simp] theorem setGroup_events (s : State) (k : Nat) (x : Group) : (setGroup s k x).events = s.events := rfl
@[simp] theorem setGroup_badSectors (s : State) (k : Nat) (x : Group) : (setGroup s k x).badSectors = s.badSectors := rfl
@[simp] theorem setGroup_invals (s : State) (k : Nat) (x : Group) : (setGroup s k x).invals = s.invals := rfl
@[simp] theorem setGroup_tstamp (s : State) (k : Nat) (x : Group) : (setGroup s k x).tstamp = s.tstamp := rfl
@[simp] theorem setGroup_groups (s : State) (k : Nat) (x : Group) : (setGroup s k x).groups = mput s.groups k x := rfl
@[simp] theorem setGroup_teams (s : State) (k : Nat) (x : Group) : (setGroup s k x).teams = s.teams := rfl
@[simp] theorem setGroup_cores (s : State) (k : Nat) (x : Group) : (setGroup s k x).cores = s.cores := rfl
@[simp] theorem setGroup_clusters (s : State) (k : Nat) (x : Group) : (setGroup s k x).clusters = s.clusters := rfl
@[simp] theorem setGroup_contexts (s : State) (k : Nat) (x : Group) : (setGroup s k x).contexts = s.contexts := rfl
@[simp] theorem setGroup_kernels (s : State) (k : Nat) (x : Group) : (setGroup s k x).kernels = s.kernels := rfl
@[simp] theorem setGroup_queues (s : State) (k : Nat) (x : Group) : (setGroup s k x).queues = s.queues := rfl
@[simp] theorem setGroup_graphs (s : State) (k : Nat) (x : Group) : (setGroup s k x).graphs = s.graphs := rfl
@[simp] theorem setGroup_links (s : State) (k : Nat) (x : Group) : (setGroup s k x).links = s.links := rfl
@[simp] theorem setGroup_skidders (s : State) (k : Nat) (x : Group) : (setGroup s k x).skidders = s.skidders := rfl
@[simp] theorem setGroup_remotes (s : State) (k : Nat) (x : Group) : (setGroup s k x).remotes = s.remotes := rfl
@[simp] theorem setGroup_fetched (s : State) (k : Nat) (x : Group) : (setGroup s k x).fetched = s.fetched := rfl
@[simp] theorem setGroup_acks (s : State) (k : Nat) (x : Group) : (setGroup s k x).acks = s.acks := rfl
@[simp] theorem setGroup_answers (s : State) (k : Nat) (x : Group) : (setGroup s k x).answers = s.answers := rfl
@[simp] theorem setGroup_pendingCmds (s : State) (k : Nat) (x : Group) : (setGroup s k x).pendingCmds = s.pendingCmds := rfl
@[simp] theorem setGroup_fw (s : State) (k : Nat) (x : Group) : (setGroup s k x).fw = s.fw := rfl

/-! ### setTeam -/

@[simp] theorem setTeam_tick (s : State) (k : Nat) (x : Team) : (setTeam s k x).tick = s.tick := rfl
@[simp] theorem setTeam_agenda (s : State) (k : Nat) (x : Team) : (setTeam s k x).agenda = s.agenda := rfl
@[simp] theorem setTeam_cur (s : State) (k : Nat) (x : Team) : (setTeam s k x).cur = s.cur := rfl
@[simp] theorem setTeam_fresh (s : State) (k : Nat) (x : Team) : (setTeam s k x).fresh = s.fresh := rfl
@[simp] theorem setTeam_mem (s : State) (k : Nat) (x : Team) : (setTeam s k x).mem = s.mem := rfl
@[simp] theorem setTeam_events (s : State) (k : Nat) (x : Team) : (setTeam s k x).events = s.events := rfl
@[simp] theorem setTeam_badSectors (s : State) (k : Nat) (x : Team) : (setTeam s k x).badSectors = s.badSectors := rfl
@[simp] theorem setTeam_invals (s : State) (k : Nat) (x : Team) : (setTeam s k x).invals = s.invals := rfl
@[simp] theorem setTeam_tstamp (s : State) (k : Nat) (x : Team) : (setTeam s k x).tstamp = s.tstamp := rfl
@[simp] theorem setTeam_groups (s : State) (k : Nat) (x : Team) : (setTeam s k x).groups = s.groups := rfl
@[simp] theorem setTeam_teams (s : State) (k : Nat) (x : Team) : (setTeam s k x).teams = mput s.teams k x := rfl
@[simp] theorem setTeam_cores (s : State) (k : Nat) (x : Team) : (setTeam s k x).cores = s.cores := rfl
@[simp] theorem setTeam_clusters (s : State) (k : Nat) (x : Team) : (setTeam s k x).clusters = s.clusters := rfl
@[simp] theorem setTeam_contexts (s : State) (k : Nat) (x : Team) : (setTeam s k x).contexts = s.contexts := rfl
@[simp] theorem setTeam_kernels (s : State) (k : Nat) (x : Team) : (setTeam s k x).kernels = s.kernels := rfl
@[simp] theorem setTeam_queues (s : State) (k : Nat) (x : Team) : (setTeam s k x).queues = s.queues := rfl
@[simp] theorem setTeam_graphs (s : State) (k : Nat) (x : Team) : (setTeam s k x).graphs = s.graphs := rfl
@[simp] theorem setTeam_links (s : State) (k : Nat) (x : Team) : (setTeam s k x).links = s.links := rfl
@[simp] theorem setTeam_skidders (s : State) (k : Nat) (x : Team) : (setTeam s k x).skidders = s.skidders := rfl
@[simp] theorem setTeam_remotes (s : State) (k : Nat) (x : Team) : (setTeam s k x).remotes = s.remotes := rfl
@[simp] theorem setTeam_fetched (s : State) (k : Nat) (x : Team) : (setTeam s k x).fetched = s.fetched := rfl
@[simp] theorem setTeam_acks (s : State) (k : Nat) (x : Team) : (setTeam s k x).acks = s.acks := rfl
@[simp] theorem setTeam_answers (s : State) (k : Nat) (x : Team) : (setTeam s k x).answers = s.answers := rfl
@[simp] theorem setTeam_pendingCmds (s : State) (k : Nat) (x : Team) : (setTeam s k x).pendingCmds = s.pendingCmds := rfl
@[simp] theorem setTeam_fw (s : State) (k : Nat) (x : Team) : (setTeam s k x).fw = s.fw := rfl

/-! ### setCore -/

@[simp] theorem setCore_tick (s : State) (k : Nat) (x : Core) : (setCore s k x).tick = s.tick := rfl
@[simp] theorem setCore_agenda (s : State) (k : Nat) (x : Core) : (setCore s k x).agenda = s.agenda := rfl
@[simp] theorem setCore_cur (s : State) (k : Nat) (x : Core) : (setCore s k x).cur = s.cur := rfl
@[simp] theorem setCore_fresh (s : State) (k : Nat) (x : Core) : (setCore s k x).fresh = s.fresh := rfl
@[simp] theorem setCore_mem (s : State) (k : Nat) (x : Core) : (setCore s k x).mem = s.mem := rfl
@[simp] theorem setCore_events (s : State) (k : Nat) (x : Core) : (setCore s k x).events = s.events := rfl
@[simp] theorem setCore_badSectors (s : State) (k : Nat) (x : Core) : (setCore s k x).badSectors = s.badSectors := rfl
@[simp] theorem setCore_invals (s : State) (k : Nat) (x : Core) : (setCore s k x).invals = s.invals := rfl
@[simp] theorem setCore_tstamp (s : State) (k : Nat) (x : Core) : (setCore s k x).tstamp = s.tstamp := rfl
@[simp] theorem setCore_groups (s : State) (k : Nat) (x : Core) : (setCore s k x).groups = s.groups := rfl
@[simp] theorem setCore_teams (s : State) (k : Nat) (x : Core) : (setCore s k x).teams = s.teams := rfl
@[simp] theorem setCore_cores (s : State) (k : Nat) (x : Core) : (setCore s k x).cores = mput s.cores k x := rfl
@[simp] theorem setCore_clusters (s : State) (k : Nat) (x : Core) : (setCore s k x).clusters = s.clusters := rfl
@[simp] theorem setCore_contexts (s : State) (k : Nat) (x : Core) : (setCore s k x).contexts = s.contexts := rfl
@[simp] theorem setCore_kernels (s : State) (k : Nat) (x : Core) : (setCore s k x).kernels = s.kernels := rfl
@[simp] theorem setCore_queues (s : State) (k : Nat) (x : Core) : (setCore s k x).queues = s.queues := rfl
@[simp] theorem setCore_graphs (s : State) (k : Nat) (x : Core) : (setCore s k x).graphs = s.graphs := rfl
@[simp] theorem setCore_links (s : State) (k : Nat) (x : Core) : (setCore s k x).links = s.links := rfl
@[simp] theorem setCore_skidders (s : State) (k : Nat) (x : Core) : (setCore s k x).skidders = s.skidders := rfl
@[simp] theorem setCore_remotes (s : State) (k : Nat) (x : Core) : (setCore s k x).remotes = s.remotes := rfl
@[simp] theorem setCore_fetched (s : State) (k : Nat) (x : Core) : (setCore s k x).fetched = s.fetched := rfl
@[simp] theorem setCore_acks (s : State) (k : Nat) (x : Core) : (setCore s k x).acks = s.acks := rfl
@[simp] theorem setCore_answers (s : State) (k : Nat) (x : Core) : (setCore s k x).answers = s.answers := rfl
@[simp] theorem setCore_pendingCmds (s : State) (k : Nat) (x : Core) : (setCore s k x).pendingCmds = s.pendingCmds := rfl
@[simp] theorem setCore_fw (s : State) (k : Nat) (x : Core) : (setCore s k x).fw = s.fw := rfl

/-! ### setCluster -/

@[simp] theorem setCluster_tick (s : State) (k : Nat) (x : Cluster) : (setCluster s k x).tick = s.tick := rfl
@[simp] theorem setCluster_agenda (s : State) (k : Nat) (x : Cluster) : (setCluster s k x).agenda = s.agenda := rfl
@[simp] theorem setCluster_cur (s : State) (k : Nat) (x : Cluster) : (setCluster s k x).cur = s.cur := rfl
@[simp] theorem setCluster_fresh (s : State) (k : Nat) (x : Cluster) : (setCluster s k x).fresh = s.fresh := rfl
@[simp] theorem setCluster_mem (s : State) (k : Nat) (x : Cluster) : (setCluster s k x).mem = s.mem := rfl
@[simp] theorem setCluster_events (s : State) (k : Nat) (x : Cluster) : (setCluster s k x).events = s.events := rfl
@[simp] theorem setCluster_badSectors (s : State) (k : Nat) (x : Cluster) : (setCluster s k x).badSectors = s.badSectors := rfl
@[simp] theorem setCluster_invals (s : State) (k : Nat) (x : Cluster) : (setCluster s k x).invals = s.invals := rfl
@[simp] theorem setCluster_tstamp (s : State) (k : Nat) (x : Cluster) : (setCluster s k x).tstamp = s.tstamp := rfl
@[simp] theorem setCluster_groups (s : State) (k : Nat) (x : Cluster) : (setCluster s k x).groups = s.groups := rfl
@[simp] theorem setCluster_teams (s : State) (k : Nat) (x : Cluster) : (setCluster s k x).teams = s.teams := rfl
@[simp] theorem setCluster_cores (s : State) (k : Nat) (x : Cluster) : (setCluster s k x).cores = s.cores := rfl
@[simp] theorem setCluster_clusters (s : State) (k : Nat) (x : Cluster) : (setCluster s k x).clusters = mput s.clusters k x := rfl
@[simp] theorem setCluster_contexts (s : State) (k : Nat) (x : Cluster) : (setCluster s k x).contexts = s.contexts := rfl
@[simp] theorem setCluster_kernels (s : State) (k : Nat) (x : Cluster) : (setCluster s k x).kernels = s.kernels := rfl
@[simp] theorem setCluster_queues (s : State) (k : Nat) (x : Cluster) : (setCluster s k x).queues = s.queues := rfl
@[simp] theorem setCluster_graphs (s : State) (k : Nat) (x : Cluster) : (setCluster s k x).graphs = s.graphs := rfl
@[simp] theorem setCluster_links (s : State) (k : Nat) (x : Cluster) : (setCluster s k x).links = s.links := rfl
@[simp] theorem setCluster_skidders (s : State) (k : Nat) (x : Cluster) : (setCluster s k x).skidders = s.skidders := rfl
@[simp] theorem setCluster_remotes (s : State) (k : Nat) (x : Cluster) : (setCluster s k x).remotes = s.remotes := rfl
@[simp] theorem setCluster_fetched (s : State) (k : Nat) (x : Cluster) : (setCluster s k x).fetched = s.fetched := rfl
@[simp] theorem setCluster_acks (s : State) (k : Nat) (x : Cluster) : (setCluster s k x).acks = s.acks := rfl
@[simp] theorem setCluster_answers (s : State) (k : Nat) (x : Cluster) : (setCluster s k x).answers = s.answers := rfl
@[simp] theorem setCluster_pendingCmds (s : State) (k : Nat) (x : Cluster) : (setCluster s k x).pendingCmds = s.pendingCmds := rfl
@[simp] theorem setCluster_fw (s : State) (k : Nat) (x : Cluster) : (setCluster s k x).fw = s.fw := rfl

/-! ### setContext -/

@[simp] theorem setContext_tick (s : State) (k : Nat) (x : Context) : (setContext s k x).tick = s.tick := rfl
@[simp] theorem setContext_agenda (s : State) (k : Nat) (x : Context) : (setContext s k x).agenda = s.agenda := rfl
@[simp] theorem setContext_cur (s : State) (k : Nat) (x : Context) : (setContext s k x).cur = s.cur := rfl
@[simp] theorem setContext_fresh (s : State) (k : Nat) (x : Context) : (setContext s k x).fresh = s.fresh := rfl
@[simp] theorem setContext_mem (s : State) (k : Nat) (x : Context) : (setContext s k x).mem = s.mem := rfl
@[simp] theorem setContext_events (s : State) (k : Nat) (x : Context) : (setContext s k x).events = s.events := rfl
@[simp] theorem setContext_badSectors (s : State) (k : Nat) (x : Context) : (setContext s k x).badSectors = s.badSectors := rfl
@[simp] theorem setContext_invals (s : State) (k : Nat) (x : Context) : (setContext s k x).invals = s.invals := rfl
@[simp] theorem setContext_tstamp (s : State) (k : Nat) (x : Context) : (setContext s k x).tstamp = s.tstamp := rfl
@[simp] theorem setContext_groups (s : State) (k : Nat) (x : Context) : (setContext s k x).groups = s.groups := rfl
@[simp] theorem setContext_teams (s : State) (k : Nat) (x : Context) : (setContext s k x).teams = s.teams := rfl
@[simp] theorem setContext_cores (s : State) (k : Nat) (x : Context) : (setContext s k x).cores = s.cores := rfl
@[simp] theorem setContext_clusters (s : State) (k : Nat) (x : Context) : (setContext s k x).clusters = s.clusters := rfl
@[simp] theorem setContext_contexts (s : State) (k : Nat) (x : Context) : (setContext s k x).contexts = mput s.contexts k x := rfl
@[simp] theorem setContext_kernels (s : State) (k : Nat) (x : Context) : (setContext s k x).kernels = s.kernels := rfl
@[simp] theorem setContext_queues (s : State) (k : Nat) (x : Context) : (setContext s k x).queues = s.queues := rfl
@[simp] theorem setContext_graphs (s : State) (k : Nat) (x : Context) : (setContext s k x).graphs = s.graphs := rfl
@[simp] theorem setContext_links (s : State) (k : Nat) (x : Context) : (setContext s k x).links = s.links := rfl
@[simp] theorem setContext_skidders (s : State) (k : Nat) (x : Context) : (setContext s k x).skidders = s.skidders := rfl
@[simp] theorem setContext_remotes (s : State) (k : Nat) (x : Context) : (setContext s k x).remotes = s.remotes := rfl
@[simp] theorem setContext_fetched (s : State) (k : Nat) (x : Context) : (setContext s k x).fetched = s.fetched := rfl
@[simp] theorem setContext_acks (s : State) (k : Nat) (x : Context) : (setContext s k x).acks = s.acks := rfl
@[simp] theorem setContext_answers (s : State) (k : Nat) (x : Context) : (setContext s k x).answers = s.answers := rfl
@[simp] theorem setContext_pendingCmds (s : State) (k : Nat) (x : Context) : (setContext s k x).pendingCmds = s.pendingCmds := rfl
@[simp] theorem setContext_fw (s : State) (k : Nat) (x : Context) : (setContext s k x).fw = s.fw := rfl

/-! ### Group.onLanes -/

@[simp] theorem Group.onLanes_ctx (g : Group) (m : BitVec 32) (f : Fin 32 → Thread → Thread) : (g.onLanes m f).ctx = g.ctx := by unfold Group.onLanes; rfl
@[simp] theorem Group.onLanes_kernel (g : Group) (m : BitVec 32) (f : Fin 32 → Thread → Thread) : (g.onLanes m f).kernel = g.kernel := by unfold Group.onLanes; rfl
@[simp] theorem Group.onLanes_team (g : Group) (m : BitVec 32) (f : Fin 32 → Thread → Thread) : (g.onLanes m f).team = g.team := by unfold Group.onLanes; rfl
@[simp] theorem Group.onLanes_core (g : Group) (m : BitVec 32) (f : Fin 32 → Thread → Thread) : (g.onLanes m f).core = g.core := by unfold Group.onLanes; rfl
@[simp] theorem Group.onLanes_slot (g : Group) (m : BitVec 32) (f : Fin 32 → Thread → Thread) : (g.onLanes m f).slot = g.slot := by unfold Group.onLanes; rfl
@[simp] theorem Group.onLanes_serial (g : Group) (m : BitVec 32) (f : Fin 32 → Thread → Thread) : (g.onLanes m f).serial = g.serial := by unfold Group.onLanes; rfl
@[simp] theorem Group.onLanes_age (g : Group) (m : BitVec 32) (f : Fin 32 → Thread → Thread) : (g.onLanes m f).age = g.age := by unfold Group.onLanes; rfl
@[simp] theorem Group.onLanes_gid (g : Group) (m : BitVec 32) (f : Fin 32 → Thread → Thread) : (g.onLanes m f).gid = g.gid := by unfold Group.onLanes; rfl
@[simp] theorem Group.onLanes_role (g : Group) (m : BitVec 32) (f : Fin 32 → Thread → Thread) : (g.onLanes m f).role = g.role := by unfold Group.onLanes; rfl
@[simp] theorem Group.onLanes_roleIdx (g : Group) (m : BitVec 32) (f : Fin 32 → Thread → Thread) : (g.onLanes m f).roleIdx = g.roleIdx := by unfold Group.onLanes; rfl
@[simp] theorem Group.onLanes_width (g : Group) (m : BitVec 32) (f : Fin 32 → Thread → Thread) : (g.onLanes m f).width = g.width := by unfold Group.onLanes; rfl
@[simp] theorem Group.onLanes_hosts (g : Group) (m : BitVec 32) (f : Fin 32 → Thread → Thread) : (g.onLanes m f).hosts = g.hosts := by unfold Group.onLanes; rfl
@[simp] theorem Group.onLanes_budget (g : Group) (m : BitVec 32) (f : Fin 32 → Thread → Thread) : (g.onLanes m f).budget = g.budget := by unfold Group.onLanes; rfl
@[simp] theorem Group.onLanes_join (g : Group) (m : BitVec 32) (f : Fin 32 → Thread → Thread) : (g.onLanes m f).join = g.join := by unfold Group.onLanes; rfl
@[simp] theorem Group.onLanes_weight (g : Group) (m : BitVec 32) (f : Fin 32 → Thread → Thread) : (g.onLanes m f).weight = g.weight := by unfold Group.onLanes; rfl
@[simp] theorem Group.onLanes_depth (g : Group) (m : BitVec 32) (f : Fin 32 → Thread → Thread) : (g.onLanes m f).depth = g.depth := by unfold Group.onLanes; rfl
@[simp] theorem Group.onLanes_graph (g : Group) (m : BitVec 32) (f : Fin 32 → Thread → Thread) : (g.onLanes m f).graph = g.graph := by unfold Group.onLanes; rfl
@[simp] theorem Group.onLanes_st (g : Group) (m : BitVec 32) (f : Fin 32 → Thread → Thread) : (g.onLanes m f).st = g.st := by unfold Group.onLanes; rfl
@[simp] theorem Group.onLanes_w (g : Group) (m : BitVec 32) (f : Fin 32 → Thread → Thread) : (g.onLanes m f).w = g.w := by unfold Group.onLanes; rfl
@[simp] theorem Group.onLanes_q (g : Group) (m : BitVec 32) (f : Fin 32 → Thread → Thread) : (g.onLanes m f).q = g.q := by unfold Group.onLanes; rfl
@[simp] theorem Group.onLanes_gstat (g : Group) (m : BitVec 32) (f : Fin 32 → Thread → Thread) : (g.onLanes m f).gstat = g.gstat := by unfold Group.onLanes; rfl
@[simp] theorem Group.onLanes_fpen (g : Group) (m : BitVec 32) (f : Fin 32 → Thread → Thread) : (g.onLanes m f).fpen = g.fpen := by unfold Group.onLanes; rfl
@[simp] theorem Group.onLanes_rwin (g : Group) (m : BitVec 32) (f : Fin 32 → Thread → Thread) : (g.onLanes m f).rwin = g.rwin := by unfold Group.onLanes; rfl
@[simp] theorem Group.onLanes_ntvec (g : Group) (m : BitVec 32) (f : Fin 32 → Thread → Thread) : (g.onLanes m f).ntvec = g.ntvec := by unfold Group.onLanes; rfl
@[simp] theorem Group.onLanes_ncause (g : Group) (m : BitVec 32) (f : Fin 32 → Thread → Thread) : (g.onLanes m f).ncause = g.ncause := by unfold Group.onLanes; rfl
@[simp] theorem Group.onLanes_hcause (g : Group) (m : BitVec 32) (f : Fin 32 → Thread → Thread) : (g.onLanes m f).hcause = g.hcause := by unfold Group.onLanes; rfl
@[simp] theorem Group.onLanes_hpc (g : Group) (m : BitVec 32) (f : Fin 32 → Thread → Thread) : (g.onLanes m f).hpc = g.hpc := by unfold Group.onLanes; rfl
@[simp] theorem Group.onLanes_haddr (g : Group) (m : BitVec 32) (f : Fin 32 → Thread → Thread) : (g.onLanes m f).haddr = g.haddr := by unfold Group.onLanes; rfl
@[simp] theorem Group.onLanes_stack (g : Group) (m : BitVec 32) (f : Fin 32 → Thread → Thread) : (g.onLanes m f).stack = g.stack := by unfold Group.onLanes; rfl
@[simp] theorem Group.onLanes_homeLanes (g : Group) (m : BitVec 32) (f : Fin 32 → Thread → Thread) : (g.onLanes m f).homeLanes = g.homeLanes := by unfold Group.onLanes; rfl
@[simp] theorem Group.onLanes_lanes (g : Group) (m : BitVec 32) (f : Fin 32 → Thread → Thread) : (g.onLanes m f).lanes = g.lanes := by unfold Group.onLanes; rfl
@[simp] theorem Group.onLanes_level (g : Group) (m : BitVec 32) (f : Fin 32 → Thread → Thread) : (g.onLanes m f).level = g.level := by unfold Group.onLanes; rfl
@[simp] theorem Group.onLanes_resident (g : Group) (m : BitVec 32) (f : Fin 32 → Thread → Thread) : (g.onLanes m f).resident = g.resident := by unfold Group.onLanes; rfl
@[simp] theorem Group.onLanes_foldCount (g : Group) (m : BitVec 32) (f : Fin 32 → Thread → Thread) : (g.onLanes m f).foldCount = g.foldCount := by unfold Group.onLanes; rfl
@[simp] theorem Group.onLanes_spilled (g : Group) (m : BitVec 32) (f : Fin 32 → Thread → Thread) : (g.onLanes m f).spilled = g.spilled := by unfold Group.onLanes; rfl
@[simp] theorem Group.onLanes_lastRead (g : Group) (m : BitVec 32) (f : Fin 32 → Thread → Thread) : (g.onLanes m f).lastRead = g.lastRead := by unfold Group.onLanes; rfl
@[simp] theorem Group.onLanes_wantFill (g : Group) (m : BitVec 32) (f : Fin 32 → Thread → Thread) : (g.onLanes m f).wantFill = g.wantFill := by unfold Group.onLanes; rfl
@[simp] theorem Group.onLanes_foldPlan (g : Group) (m : BitVec 32) (f : Fin 32 → Thread → Thread) : (g.onLanes m f).foldPlan = g.foldPlan := by unfold Group.onLanes; rfl
@[simp] theorem Group.onLanes_reclaiming (g : Group) (m : BitVec 32) (f : Fin 32 → Thread → Thread) : (g.onLanes m f).reclaiming = g.reclaiming := by unfold Group.onLanes; rfl
@[simp] theorem Group.onLanes_pend (g : Group) (m : BitVec 32) (f : Fin 32 → Thread → Thread) : (g.onLanes m f).pend = g.pend := by unfold Group.onLanes; rfl
@[simp] theorem Group.onLanes_rho (g : Group) (m : BitVec 32) (f : Fin 32 → Thread → Thread) : (g.onLanes m f).rho = g.rho := by unfold Group.onLanes; rfl
@[simp] theorem Group.onLanes_seen (g : Group) (m : BitVec 32) (f : Fin 32 → Thread → Thread) : (g.onLanes m f).seen = g.seen := by unfold Group.onLanes; rfl
@[simp] theorem Group.onLanes_loads (g : Group) (m : BitVec 32) (f : Fin 32 → Thread → Thread) : (g.onLanes m f).loads = g.loads := by unfold Group.onLanes; rfl
@[simp] theorem Group.onLanes_bases (g : Group) (m : BitVec 32) (f : Fin 32 → Thread → Thread) : (g.onLanes m f).bases = g.bases := by unfold Group.onLanes; rfl
@[simp] theorem Group.onLanes_atoms (g : Group) (m : BitVec 32) (f : Fin 32 → Thread → Thread) : (g.onLanes m f).atoms = g.atoms := by unfold Group.onLanes; rfl
@[simp] theorem Group.onLanes_badRegs (g : Group) (m : BitVec 32) (f : Fin 32 → Thread → Thread) : (g.onLanes m f).badRegs = g.badRegs := by unfold Group.onLanes; rfl
@[simp] theorem Group.onLanes_publishing (g : Group) (m : BitVec 32) (f : Fin 32 → Thread → Thread) : (g.onLanes m f).publishing = g.publishing := by unfold Group.onLanes; rfl
@[simp] theorem Group.onLanes_heldPublish (g : Group) (m : BitVec 32) (f : Fin 32 → Thread → Thread) : (g.onLanes m f).heldPublish = g.heldPublish := by unfold Group.onLanes; rfl
@[simp] theorem Group.onLanes_dcfg (g : Group) (m : BitVec 32) (f : Fin 32 → Thread → Thread) : (g.onLanes m f).dcfg = g.dcfg := by unfold Group.onLanes; rfl
@[simp] theorem Group.onLanes_drawKey (g : Group) (m : BitVec 32) (f : Fin 32 → Thread → Thread) : (g.onLanes m f).drawKey = g.drawKey := by unfold Group.onLanes; rfl
@[simp] theorem Group.onLanes_drawCtr (g : Group) (m : BitVec 32) (f : Fin 32 → Thread → Thread) : (g.onLanes m f).drawCtr = g.drawCtr := by unfold Group.onLanes; rfl
@[simp] theorem Group.onLanes_hiddenW (g : Group) (m : BitVec 32) (f : Fin 32 → Thread → Thread) : (g.onLanes m f).hiddenW = g.hiddenW := by unfold Group.onLanes; rfl
@[simp] theorem Group.onLanes_joinArrived (g : Group) (m : BitVec 32) (f : Fin 32 → Thread → Thread) : (g.onLanes m f).joinArrived = g.joinArrived := by unfold Group.onLanes; rfl
@[simp] theorem Group.onLanes_detached (g : Group) (m : BitVec 32) (f : Fin 32 → Thread → Thread) : (g.onLanes m f).detached = g.detached := by unfold Group.onLanes; rfl
@[simp] theorem Group.onLanes_killDue (g : Group) (m : BitVec 32) (f : Fin 32 → Thread → Thread) : (g.onLanes m f).killDue = g.killDue := by unfold Group.onLanes; rfl
@[simp] theorem Group.onLanes_notices (g : Group) (m : BitVec 32) (f : Fin 32 → Thread → Thread) : (g.onLanes m f).notices = g.notices := by unfold Group.onLanes; rfl

/-! ### Group.advance -/

@[simp] theorem Group.advance_ctx (g : Group) (i : Issue) : (g.advance i).ctx = g.ctx := by rw [Group.advance, Group.onLanes_ctx]
@[simp] theorem Group.advance_kernel (g : Group) (i : Issue) : (g.advance i).kernel = g.kernel := by rw [Group.advance, Group.onLanes_kernel]
@[simp] theorem Group.advance_team (g : Group) (i : Issue) : (g.advance i).team = g.team := by rw [Group.advance, Group.onLanes_team]
@[simp] theorem Group.advance_core (g : Group) (i : Issue) : (g.advance i).core = g.core := by rw [Group.advance, Group.onLanes_core]
@[simp] theorem Group.advance_slot (g : Group) (i : Issue) : (g.advance i).slot = g.slot := by rw [Group.advance, Group.onLanes_slot]
@[simp] theorem Group.advance_serial (g : Group) (i : Issue) : (g.advance i).serial = g.serial := by rw [Group.advance, Group.onLanes_serial]
@[simp] theorem Group.advance_age (g : Group) (i : Issue) : (g.advance i).age = g.age := by rw [Group.advance, Group.onLanes_age]
@[simp] theorem Group.advance_gid (g : Group) (i : Issue) : (g.advance i).gid = g.gid := by rw [Group.advance, Group.onLanes_gid]
@[simp] theorem Group.advance_role (g : Group) (i : Issue) : (g.advance i).role = g.role := by rw [Group.advance, Group.onLanes_role]
@[simp] theorem Group.advance_roleIdx (g : Group) (i : Issue) : (g.advance i).roleIdx = g.roleIdx := by rw [Group.advance, Group.onLanes_roleIdx]
@[simp] theorem Group.advance_width (g : Group) (i : Issue) : (g.advance i).width = g.width := by rw [Group.advance, Group.onLanes_width]
@[simp] theorem Group.advance_hosts (g : Group) (i : Issue) : (g.advance i).hosts = g.hosts := by rw [Group.advance, Group.onLanes_hosts]
@[simp] theorem Group.advance_budget (g : Group) (i : Issue) : (g.advance i).budget = g.budget := by rw [Group.advance, Group.onLanes_budget]
@[simp] theorem Group.advance_join (g : Group) (i : Issue) : (g.advance i).join = g.join := by rw [Group.advance, Group.onLanes_join]
@[simp] theorem Group.advance_weight (g : Group) (i : Issue) : (g.advance i).weight = g.weight := by rw [Group.advance, Group.onLanes_weight]
@[simp] theorem Group.advance_depth (g : Group) (i : Issue) : (g.advance i).depth = g.depth := by rw [Group.advance, Group.onLanes_depth]
@[simp] theorem Group.advance_graph (g : Group) (i : Issue) : (g.advance i).graph = g.graph := by rw [Group.advance, Group.onLanes_graph]
@[simp] theorem Group.advance_st (g : Group) (i : Issue) : (g.advance i).st = g.st := by rw [Group.advance, Group.onLanes_st]
@[simp] theorem Group.advance_w (g : Group) (i : Issue) : (g.advance i).w = g.w := by rw [Group.advance, Group.onLanes_w]
@[simp] theorem Group.advance_q (g : Group) (i : Issue) : (g.advance i).q = g.q := by rw [Group.advance, Group.onLanes_q]
@[simp] theorem Group.advance_gstat (g : Group) (i : Issue) : (g.advance i).gstat = g.gstat := by rw [Group.advance, Group.onLanes_gstat]
@[simp] theorem Group.advance_fpen (g : Group) (i : Issue) : (g.advance i).fpen = g.fpen := by rw [Group.advance, Group.onLanes_fpen]
@[simp] theorem Group.advance_rwin (g : Group) (i : Issue) : (g.advance i).rwin = g.rwin := by rw [Group.advance, Group.onLanes_rwin]
@[simp] theorem Group.advance_ntvec (g : Group) (i : Issue) : (g.advance i).ntvec = g.ntvec := by rw [Group.advance, Group.onLanes_ntvec]
@[simp] theorem Group.advance_ncause (g : Group) (i : Issue) : (g.advance i).ncause = g.ncause := by rw [Group.advance, Group.onLanes_ncause]
@[simp] theorem Group.advance_hcause (g : Group) (i : Issue) : (g.advance i).hcause = g.hcause := by rw [Group.advance, Group.onLanes_hcause]
@[simp] theorem Group.advance_hpc (g : Group) (i : Issue) : (g.advance i).hpc = g.hpc := by rw [Group.advance, Group.onLanes_hpc]
@[simp] theorem Group.advance_haddr (g : Group) (i : Issue) : (g.advance i).haddr = g.haddr := by rw [Group.advance, Group.onLanes_haddr]
@[simp] theorem Group.advance_stack (g : Group) (i : Issue) : (g.advance i).stack = g.stack := by rw [Group.advance, Group.onLanes_stack]
@[simp] theorem Group.advance_homeLanes (g : Group) (i : Issue) : (g.advance i).homeLanes = g.homeLanes := by rw [Group.advance, Group.onLanes_homeLanes]
@[simp] theorem Group.advance_lanes (g : Group) (i : Issue) : (g.advance i).lanes = g.lanes := by rw [Group.advance, Group.onLanes_lanes]
@[simp] theorem Group.advance_level (g : Group) (i : Issue) : (g.advance i).level = g.level := by rw [Group.advance, Group.onLanes_level]
@[simp] theorem Group.advance_resident (g : Group) (i : Issue) : (g.advance i).resident = g.resident := by rw [Group.advance, Group.onLanes_resident]
@[simp] theorem Group.advance_foldCount (g : Group) (i : Issue) : (g.advance i).foldCount = g.foldCount := by rw [Group.advance, Group.onLanes_foldCount]
@[simp] theorem Group.advance_spilled (g : Group) (i : Issue) : (g.advance i).spilled = g.spilled := by rw [Group.advance, Group.onLanes_spilled]
@[simp] theorem Group.advance_lastRead (g : Group) (i : Issue) : (g.advance i).lastRead = g.lastRead := by rw [Group.advance, Group.onLanes_lastRead]
@[simp] theorem Group.advance_wantFill (g : Group) (i : Issue) : (g.advance i).wantFill = g.wantFill := by rw [Group.advance, Group.onLanes_wantFill]
@[simp] theorem Group.advance_foldPlan (g : Group) (i : Issue) : (g.advance i).foldPlan = g.foldPlan := by rw [Group.advance, Group.onLanes_foldPlan]
@[simp] theorem Group.advance_reclaiming (g : Group) (i : Issue) : (g.advance i).reclaiming = g.reclaiming := by rw [Group.advance, Group.onLanes_reclaiming]
@[simp] theorem Group.advance_pend (g : Group) (i : Issue) : (g.advance i).pend = g.pend := by rw [Group.advance, Group.onLanes_pend]
@[simp] theorem Group.advance_rho (g : Group) (i : Issue) : (g.advance i).rho = g.rho := by rw [Group.advance, Group.onLanes_rho]
@[simp] theorem Group.advance_seen (g : Group) (i : Issue) : (g.advance i).seen = g.seen := by rw [Group.advance, Group.onLanes_seen]
@[simp] theorem Group.advance_loads (g : Group) (i : Issue) : (g.advance i).loads = g.loads := by rw [Group.advance, Group.onLanes_loads]
@[simp] theorem Group.advance_bases (g : Group) (i : Issue) : (g.advance i).bases = g.bases := by rw [Group.advance, Group.onLanes_bases]
@[simp] theorem Group.advance_atoms (g : Group) (i : Issue) : (g.advance i).atoms = g.atoms := by rw [Group.advance, Group.onLanes_atoms]
@[simp] theorem Group.advance_badRegs (g : Group) (i : Issue) : (g.advance i).badRegs = g.badRegs := by rw [Group.advance, Group.onLanes_badRegs]
@[simp] theorem Group.advance_publishing (g : Group) (i : Issue) : (g.advance i).publishing = g.publishing := by rw [Group.advance, Group.onLanes_publishing]
@[simp] theorem Group.advance_heldPublish (g : Group) (i : Issue) : (g.advance i).heldPublish = g.heldPublish := by rw [Group.advance, Group.onLanes_heldPublish]
@[simp] theorem Group.advance_dcfg (g : Group) (i : Issue) : (g.advance i).dcfg = g.dcfg := by rw [Group.advance, Group.onLanes_dcfg]
@[simp] theorem Group.advance_drawKey (g : Group) (i : Issue) : (g.advance i).drawKey = g.drawKey := by rw [Group.advance, Group.onLanes_drawKey]
@[simp] theorem Group.advance_drawCtr (g : Group) (i : Issue) : (g.advance i).drawCtr = g.drawCtr := by rw [Group.advance, Group.onLanes_drawCtr]
@[simp] theorem Group.advance_hiddenW (g : Group) (i : Issue) : (g.advance i).hiddenW = g.hiddenW := by rw [Group.advance, Group.onLanes_hiddenW]
@[simp] theorem Group.advance_joinArrived (g : Group) (i : Issue) : (g.advance i).joinArrived = g.joinArrived := by rw [Group.advance, Group.onLanes_joinArrived]
@[simp] theorem Group.advance_detached (g : Group) (i : Issue) : (g.advance i).detached = g.detached := by rw [Group.advance, Group.onLanes_detached]
@[simp] theorem Group.advance_killDue (g : Group) (i : Issue) : (g.advance i).killDue = g.killDue := by rw [Group.advance, Group.onLanes_killDue]
@[simp] theorem Group.advance_notices (g : Group) (i : Issue) : (g.advance i).notices = g.notices := by rw [Group.advance, Group.onLanes_notices]

/-! ### Group.wrW -/

@[simp] theorem Group.wrW_ctx (g : Group) (i : Nat) (v : DWord) : (g.wrW i v).ctx = g.ctx := by unfold Group.wrW; rfl
@[simp] theorem Group.wrW_kernel (g : Group) (i : Nat) (v : DWord) : (g.wrW i v).kernel = g.kernel := by unfold Group.wrW; rfl
@[simp] theorem Group.wrW_team (g : Group) (i : Nat) (v : DWord) : (g.wrW i v).team = g.team := by unfold Group.wrW; rfl
@[simp] theorem Group.wrW_core (g : Group) (i : Nat) (v : DWord) : (g.wrW i v).core = g.core := by unfold Group.wrW; rfl
@[simp] theorem Group.wrW_slot (g : Group) (i : Nat) (v : DWord) : (g.wrW i v).slot = g.slot := by unfold Group.wrW; rfl
@[simp] theorem Group.wrW_serial (g : Group) (i : Nat) (v : DWord) : (g.wrW i v).serial = g.serial := by unfold Group.wrW; rfl
@[simp] theorem Group.wrW_age (g : Group) (i : Nat) (v : DWord) : (g.wrW i v).age = g.age := by unfold Group.wrW; rfl
@[simp] theorem Group.wrW_gid (g : Group) (i : Nat) (v : DWord) : (g.wrW i v).gid = g.gid := by unfold Group.wrW; rfl
@[simp] theorem Group.wrW_role (g : Group) (i : Nat) (v : DWord) : (g.wrW i v).role = g.role := by unfold Group.wrW; rfl
@[simp] theorem Group.wrW_roleIdx (g : Group) (i : Nat) (v : DWord) : (g.wrW i v).roleIdx = g.roleIdx := by unfold Group.wrW; rfl
@[simp] theorem Group.wrW_width (g : Group) (i : Nat) (v : DWord) : (g.wrW i v).width = g.width := by unfold Group.wrW; rfl
@[simp] theorem Group.wrW_hosts (g : Group) (i : Nat) (v : DWord) : (g.wrW i v).hosts = g.hosts := by unfold Group.wrW; rfl
@[simp] theorem Group.wrW_budget (g : Group) (i : Nat) (v : DWord) : (g.wrW i v).budget = g.budget := by unfold Group.wrW; rfl
@[simp] theorem Group.wrW_join (g : Group) (i : Nat) (v : DWord) : (g.wrW i v).join = g.join := by unfold Group.wrW; rfl
@[simp] theorem Group.wrW_weight (g : Group) (i : Nat) (v : DWord) : (g.wrW i v).weight = g.weight := by unfold Group.wrW; rfl
@[simp] theorem Group.wrW_depth (g : Group) (i : Nat) (v : DWord) : (g.wrW i v).depth = g.depth := by unfold Group.wrW; rfl
@[simp] theorem Group.wrW_graph (g : Group) (i : Nat) (v : DWord) : (g.wrW i v).graph = g.graph := by unfold Group.wrW; rfl
@[simp] theorem Group.wrW_st (g : Group) (i : Nat) (v : DWord) : (g.wrW i v).st = g.st := by unfold Group.wrW; rfl
@[simp] theorem Group.wrW_threads (g : Group) (i : Nat) (v : DWord) : (g.wrW i v).threads = g.threads := by unfold Group.wrW; rfl
@[simp] theorem Group.wrW_q (g : Group) (i : Nat) (v : DWord) : (g.wrW i v).q = g.q := by unfold Group.wrW; rfl
@[simp] theorem Group.wrW_gstat (g : Group) (i : Nat) (v : DWord) : (g.wrW i v).gstat = g.gstat := by unfold Group.wrW; rfl
@[simp] theorem Group.wrW_fpen (g : Group) (i : Nat) (v : DWord) : (g.wrW i v).fpen = g.fpen := by unfold Group.wrW; rfl
@[simp] theorem Group.wrW_rwin (g : Group) (i : Nat) (v : DWord) : (g.wrW i v).rwin = g.rwin := by unfold Group.wrW; rfl
@[simp] theorem Group.wrW_ntvec (g : Group) (i : Nat) (v : DWord) : (g.wrW i v).ntvec = g.ntvec := by unfold Group.wrW; rfl
@[simp] theorem Group.wrW_ncause (g : Group) (i : Nat) (v : DWord) : (g.wrW i v).ncause = g.ncause := by unfold Group.wrW; rfl
@[simp] theorem Group.wrW_hcause (g : Group) (i : Nat) (v : DWord) : (g.wrW i v).hcause = g.hcause := by unfold Group.wrW; rfl
@[simp] theorem Group.wrW_hpc (g : Group) (i : Nat) (v : DWord) : (g.wrW i v).hpc = g.hpc := by unfold Group.wrW; rfl
@[simp] theorem Group.wrW_haddr (g : Group) (i : Nat) (v : DWord) : (g.wrW i v).haddr = g.haddr := by unfold Group.wrW; rfl
@[simp] theorem Group.wrW_stack (g : Group) (i : Nat) (v : DWord) : (g.wrW i v).stack = g.stack := by unfold Group.wrW; rfl
@[simp] theorem Group.wrW_homeLanes (g : Group) (i : Nat) (v : DWord) : (g.wrW i v).homeLanes = g.homeLanes := by unfold Group.wrW; rfl
@[simp] theorem Group.wrW_lanes (g : Group) (i : Nat) (v : DWord) : (g.wrW i v).lanes = g.lanes := by unfold Group.wrW; rfl
@[simp] theorem Group.wrW_level (g : Group) (i : Nat) (v : DWord) : (g.wrW i v).level = g.level := by unfold Group.wrW; rfl
@[simp] theorem Group.wrW_resident (g : Group) (i : Nat) (v : DWord) : (g.wrW i v).resident = g.resident := by unfold Group.wrW; rfl
@[simp] theorem Group.wrW_foldCount (g : Group) (i : Nat) (v : DWord) : (g.wrW i v).foldCount = g.foldCount := by unfold Group.wrW; rfl
@[simp] theorem Group.wrW_spilled (g : Group) (i : Nat) (v : DWord) : (g.wrW i v).spilled = g.spilled := by unfold Group.wrW; rfl
@[simp] theorem Group.wrW_lastRead (g : Group) (i : Nat) (v : DWord) : (g.wrW i v).lastRead = g.lastRead := by unfold Group.wrW; rfl
@[simp] theorem Group.wrW_wantFill (g : Group) (i : Nat) (v : DWord) : (g.wrW i v).wantFill = g.wantFill := by unfold Group.wrW; rfl
@[simp] theorem Group.wrW_foldPlan (g : Group) (i : Nat) (v : DWord) : (g.wrW i v).foldPlan = g.foldPlan := by unfold Group.wrW; rfl
@[simp] theorem Group.wrW_reclaiming (g : Group) (i : Nat) (v : DWord) : (g.wrW i v).reclaiming = g.reclaiming := by unfold Group.wrW; rfl
@[simp] theorem Group.wrW_pend (g : Group) (i : Nat) (v : DWord) : (g.wrW i v).pend = g.pend := by unfold Group.wrW; rfl
@[simp] theorem Group.wrW_rho (g : Group) (i : Nat) (v : DWord) : (g.wrW i v).rho = g.rho := by unfold Group.wrW; rfl
@[simp] theorem Group.wrW_seen (g : Group) (i : Nat) (v : DWord) : (g.wrW i v).seen = g.seen := by unfold Group.wrW; rfl
@[simp] theorem Group.wrW_loads (g : Group) (i : Nat) (v : DWord) : (g.wrW i v).loads = g.loads := by unfold Group.wrW; rfl
@[simp] theorem Group.wrW_bases (g : Group) (i : Nat) (v : DWord) : (g.wrW i v).bases = g.bases := by unfold Group.wrW; rfl
@[simp] theorem Group.wrW_atoms (g : Group) (i : Nat) (v : DWord) : (g.wrW i v).atoms = g.atoms := by unfold Group.wrW; rfl
@[simp] theorem Group.wrW_publishing (g : Group) (i : Nat) (v : DWord) : (g.wrW i v).publishing = g.publishing := by unfold Group.wrW; rfl
@[simp] theorem Group.wrW_heldPublish (g : Group) (i : Nat) (v : DWord) : (g.wrW i v).heldPublish = g.heldPublish := by unfold Group.wrW; rfl
@[simp] theorem Group.wrW_dcfg (g : Group) (i : Nat) (v : DWord) : (g.wrW i v).dcfg = g.dcfg := by unfold Group.wrW; rfl
@[simp] theorem Group.wrW_drawKey (g : Group) (i : Nat) (v : DWord) : (g.wrW i v).drawKey = g.drawKey := by unfold Group.wrW; rfl
@[simp] theorem Group.wrW_drawCtr (g : Group) (i : Nat) (v : DWord) : (g.wrW i v).drawCtr = g.drawCtr := by unfold Group.wrW; rfl
@[simp] theorem Group.wrW_hiddenW (g : Group) (i : Nat) (v : DWord) : (g.wrW i v).hiddenW = g.hiddenW := by unfold Group.wrW; rfl
@[simp] theorem Group.wrW_joinArrived (g : Group) (i : Nat) (v : DWord) : (g.wrW i v).joinArrived = g.joinArrived := by unfold Group.wrW; rfl
@[simp] theorem Group.wrW_detached (g : Group) (i : Nat) (v : DWord) : (g.wrW i v).detached = g.detached := by unfold Group.wrW; rfl
@[simp] theorem Group.wrW_killDue (g : Group) (i : Nat) (v : DWord) : (g.wrW i v).killDue = g.killDue := by unfold Group.wrW; rfl
@[simp] theorem Group.wrW_notices (g : Group) (i : Nat) (v : DWord) : (g.wrW i v).notices = g.notices := by unfold Group.wrW; rfl

/-! ### Group.orFlags -/

@[simp] theorem Group.orFlags_ctx (g : Group) (f : Flags) (u : Bool) : (g.orFlags f u).ctx = g.ctx := by unfold Group.orFlags; rfl
@[simp] theorem Group.orFlags_kernel (g : Group) (f : Flags) (u : Bool) : (g.orFlags f u).kernel = g.kernel := by unfold Group.orFlags; rfl
@[simp] theorem Group.orFlags_team (g : Group) (f : Flags) (u : Bool) : (g.orFlags f u).team = g.team := by unfold Group.orFlags; rfl
@[simp] theorem Group.orFlags_core (g : Group) (f : Flags) (u : Bool) : (g.orFlags f u).core = g.core := by unfold Group.orFlags; rfl
@[simp] theorem Group.orFlags_slot (g : Group) (f : Flags) (u : Bool) : (g.orFlags f u).slot = g.slot := by unfold Group.orFlags; rfl
@[simp] theorem Group.orFlags_serial (g : Group) (f : Flags) (u : Bool) : (g.orFlags f u).serial = g.serial := by unfold Group.orFlags; rfl
@[simp] theorem Group.orFlags_age (g : Group) (f : Flags) (u : Bool) : (g.orFlags f u).age = g.age := by unfold Group.orFlags; rfl
@[simp] theorem Group.orFlags_gid (g : Group) (f : Flags) (u : Bool) : (g.orFlags f u).gid = g.gid := by unfold Group.orFlags; rfl
@[simp] theorem Group.orFlags_role (g : Group) (f : Flags) (u : Bool) : (g.orFlags f u).role = g.role := by unfold Group.orFlags; rfl
@[simp] theorem Group.orFlags_roleIdx (g : Group) (f : Flags) (u : Bool) : (g.orFlags f u).roleIdx = g.roleIdx := by unfold Group.orFlags; rfl
@[simp] theorem Group.orFlags_width (g : Group) (f : Flags) (u : Bool) : (g.orFlags f u).width = g.width := by unfold Group.orFlags; rfl
@[simp] theorem Group.orFlags_hosts (g : Group) (f : Flags) (u : Bool) : (g.orFlags f u).hosts = g.hosts := by unfold Group.orFlags; rfl
@[simp] theorem Group.orFlags_budget (g : Group) (f : Flags) (u : Bool) : (g.orFlags f u).budget = g.budget := by unfold Group.orFlags; rfl
@[simp] theorem Group.orFlags_join (g : Group) (f : Flags) (u : Bool) : (g.orFlags f u).join = g.join := by unfold Group.orFlags; rfl
@[simp] theorem Group.orFlags_weight (g : Group) (f : Flags) (u : Bool) : (g.orFlags f u).weight = g.weight := by unfold Group.orFlags; rfl
@[simp] theorem Group.orFlags_depth (g : Group) (f : Flags) (u : Bool) : (g.orFlags f u).depth = g.depth := by unfold Group.orFlags; rfl
@[simp] theorem Group.orFlags_graph (g : Group) (f : Flags) (u : Bool) : (g.orFlags f u).graph = g.graph := by unfold Group.orFlags; rfl
@[simp] theorem Group.orFlags_st (g : Group) (f : Flags) (u : Bool) : (g.orFlags f u).st = g.st := by unfold Group.orFlags; rfl
@[simp] theorem Group.orFlags_threads (g : Group) (f : Flags) (u : Bool) : (g.orFlags f u).threads = g.threads := by unfold Group.orFlags; rfl
@[simp] theorem Group.orFlags_w (g : Group) (f : Flags) (u : Bool) : (g.orFlags f u).w = g.w := by unfold Group.orFlags; rfl
@[simp] theorem Group.orFlags_q (g : Group) (f : Flags) (u : Bool) : (g.orFlags f u).q = g.q := by unfold Group.orFlags; rfl
@[simp] theorem Group.orFlags_fpen (g : Group) (f : Flags) (u : Bool) : (g.orFlags f u).fpen = g.fpen := by unfold Group.orFlags; rfl
@[simp] theorem Group.orFlags_rwin (g : Group) (f : Flags) (u : Bool) : (g.orFlags f u).rwin = g.rwin := by unfold Group.orFlags; rfl
@[simp] theorem Group.orFlags_ntvec (g : Group) (f : Flags) (u : Bool) : (g.orFlags f u).ntvec = g.ntvec := by unfold Group.orFlags; rfl
@[simp] theorem Group.orFlags_ncause (g : Group) (f : Flags) (u : Bool) : (g.orFlags f u).ncause = g.ncause := by unfold Group.orFlags; rfl
@[simp] theorem Group.orFlags_hcause (g : Group) (f : Flags) (u : Bool) : (g.orFlags f u).hcause = g.hcause := by unfold Group.orFlags; rfl
@[simp] theorem Group.orFlags_hpc (g : Group) (f : Flags) (u : Bool) : (g.orFlags f u).hpc = g.hpc := by unfold Group.orFlags; rfl
@[simp] theorem Group.orFlags_haddr (g : Group) (f : Flags) (u : Bool) : (g.orFlags f u).haddr = g.haddr := by unfold Group.orFlags; rfl
@[simp] theorem Group.orFlags_stack (g : Group) (f : Flags) (u : Bool) : (g.orFlags f u).stack = g.stack := by unfold Group.orFlags; rfl
@[simp] theorem Group.orFlags_homeLanes (g : Group) (f : Flags) (u : Bool) : (g.orFlags f u).homeLanes = g.homeLanes := by unfold Group.orFlags; rfl
@[simp] theorem Group.orFlags_lanes (g : Group) (f : Flags) (u : Bool) : (g.orFlags f u).lanes = g.lanes := by unfold Group.orFlags; rfl
@[simp] theorem Group.orFlags_level (g : Group) (f : Flags) (u : Bool) : (g.orFlags f u).level = g.level := by unfold Group.orFlags; rfl
@[simp] theorem Group.orFlags_resident (g : Group) (f : Flags) (u : Bool) : (g.orFlags f u).resident = g.resident := by unfold Group.orFlags; rfl
@[simp] theorem Group.orFlags_foldCount (g : Group) (f : Flags) (u : Bool) : (g.orFlags f u).foldCount = g.foldCount := by unfold Group.orFlags; rfl
@[simp] theorem Group.orFlags_spilled (g : Group) (f : Flags) (u : Bool) : (g.orFlags f u).spilled = g.spilled := by unfold Group.orFlags; rfl
@[simp] theorem Group.orFlags_lastRead (g : Group) (f : Flags) (u : Bool) : (g.orFlags f u).lastRead = g.lastRead := by unfold Group.orFlags; rfl
@[simp] theorem Group.orFlags_wantFill (g : Group) (f : Flags) (u : Bool) : (g.orFlags f u).wantFill = g.wantFill := by unfold Group.orFlags; rfl
@[simp] theorem Group.orFlags_foldPlan (g : Group) (f : Flags) (u : Bool) : (g.orFlags f u).foldPlan = g.foldPlan := by unfold Group.orFlags; rfl
@[simp] theorem Group.orFlags_reclaiming (g : Group) (f : Flags) (u : Bool) : (g.orFlags f u).reclaiming = g.reclaiming := by unfold Group.orFlags; rfl
@[simp] theorem Group.orFlags_pend (g : Group) (f : Flags) (u : Bool) : (g.orFlags f u).pend = g.pend := by unfold Group.orFlags; rfl
@[simp] theorem Group.orFlags_rho (g : Group) (f : Flags) (u : Bool) : (g.orFlags f u).rho = g.rho := by unfold Group.orFlags; rfl
@[simp] theorem Group.orFlags_seen (g : Group) (f : Flags) (u : Bool) : (g.orFlags f u).seen = g.seen := by unfold Group.orFlags; rfl
@[simp] theorem Group.orFlags_loads (g : Group) (f : Flags) (u : Bool) : (g.orFlags f u).loads = g.loads := by unfold Group.orFlags; rfl
@[simp] theorem Group.orFlags_bases (g : Group) (f : Flags) (u : Bool) : (g.orFlags f u).bases = g.bases := by unfold Group.orFlags; rfl
@[simp] theorem Group.orFlags_atoms (g : Group) (f : Flags) (u : Bool) : (g.orFlags f u).atoms = g.atoms := by unfold Group.orFlags; rfl
@[simp] theorem Group.orFlags_badRegs (g : Group) (f : Flags) (u : Bool) : (g.orFlags f u).badRegs = g.badRegs := by unfold Group.orFlags; rfl
@[simp] theorem Group.orFlags_publishing (g : Group) (f : Flags) (u : Bool) : (g.orFlags f u).publishing = g.publishing := by unfold Group.orFlags; rfl
@[simp] theorem Group.orFlags_heldPublish (g : Group) (f : Flags) (u : Bool) : (g.orFlags f u).heldPublish = g.heldPublish := by unfold Group.orFlags; rfl
@[simp] theorem Group.orFlags_dcfg (g : Group) (f : Flags) (u : Bool) : (g.orFlags f u).dcfg = g.dcfg := by unfold Group.orFlags; rfl
@[simp] theorem Group.orFlags_drawKey (g : Group) (f : Flags) (u : Bool) : (g.orFlags f u).drawKey = g.drawKey := by unfold Group.orFlags; rfl
@[simp] theorem Group.orFlags_drawCtr (g : Group) (f : Flags) (u : Bool) : (g.orFlags f u).drawCtr = g.drawCtr := by unfold Group.orFlags; rfl
@[simp] theorem Group.orFlags_hiddenW (g : Group) (f : Flags) (u : Bool) : (g.orFlags f u).hiddenW = g.hiddenW := by unfold Group.orFlags; rfl
@[simp] theorem Group.orFlags_joinArrived (g : Group) (f : Flags) (u : Bool) : (g.orFlags f u).joinArrived = g.joinArrived := by unfold Group.orFlags; rfl
@[simp] theorem Group.orFlags_detached (g : Group) (f : Flags) (u : Bool) : (g.orFlags f u).detached = g.detached := by unfold Group.orFlags; rfl
@[simp] theorem Group.orFlags_killDue (g : Group) (f : Flags) (u : Bool) : (g.orFlags f u).killDue = g.killDue := by unfold Group.orFlags; rfl
@[simp] theorem Group.orFlags_notices (g : Group) (f : Flags) (u : Bool) : (g.orFlags f u).notices = g.notices := by unfold Group.orFlags; rfl

/-! ### Group.cleanRows -/

@[simp] theorem Group.cleanRows_ctx (g : Group) (l : List (Fin 32)) (n : List Nat) : (g.cleanRows l n).ctx = g.ctx := by unfold Group.cleanRows; rfl
@[simp] theorem Group.cleanRows_kernel (g : Group) (l : List (Fin 32)) (n : List Nat) : (g.cleanRows l n).kernel = g.kernel := by unfold Group.cleanRows; rfl
@[simp] theorem Group.cleanRows_team (g : Group) (l : List (Fin 32)) (n : List Nat) : (g.cleanRows l n).team = g.team := by unfold Group.cleanRows; rfl
@[simp] theorem Group.cleanRows_core (g : Group) (l : List (Fin 32)) (n : List Nat) : (g.cleanRows l n).core = g.core := by unfold Group.cleanRows; rfl
@[simp] theorem Group.cleanRows_slot (g : Group) (l : List (Fin 32)) (n : List Nat) : (g.cleanRows l n).slot = g.slot := by unfold Group.cleanRows; rfl
@[simp] theorem Group.cleanRows_serial (g : Group) (l : List (Fin 32)) (n : List Nat) : (g.cleanRows l n).serial = g.serial := by unfold Group.cleanRows; rfl
@[simp] theorem Group.cleanRows_age (g : Group) (l : List (Fin 32)) (n : List Nat) : (g.cleanRows l n).age = g.age := by unfold Group.cleanRows; rfl
@[simp] theorem Group.cleanRows_gid (g : Group) (l : List (Fin 32)) (n : List Nat) : (g.cleanRows l n).gid = g.gid := by unfold Group.cleanRows; rfl
@[simp] theorem Group.cleanRows_role (g : Group) (l : List (Fin 32)) (n : List Nat) : (g.cleanRows l n).role = g.role := by unfold Group.cleanRows; rfl
@[simp] theorem Group.cleanRows_roleIdx (g : Group) (l : List (Fin 32)) (n : List Nat) : (g.cleanRows l n).roleIdx = g.roleIdx := by unfold Group.cleanRows; rfl
@[simp] theorem Group.cleanRows_width (g : Group) (l : List (Fin 32)) (n : List Nat) : (g.cleanRows l n).width = g.width := by unfold Group.cleanRows; rfl
@[simp] theorem Group.cleanRows_hosts (g : Group) (l : List (Fin 32)) (n : List Nat) : (g.cleanRows l n).hosts = g.hosts := by unfold Group.cleanRows; rfl
@[simp] theorem Group.cleanRows_budget (g : Group) (l : List (Fin 32)) (n : List Nat) : (g.cleanRows l n).budget = g.budget := by unfold Group.cleanRows; rfl
@[simp] theorem Group.cleanRows_join (g : Group) (l : List (Fin 32)) (n : List Nat) : (g.cleanRows l n).join = g.join := by unfold Group.cleanRows; rfl
@[simp] theorem Group.cleanRows_weight (g : Group) (l : List (Fin 32)) (n : List Nat) : (g.cleanRows l n).weight = g.weight := by unfold Group.cleanRows; rfl
@[simp] theorem Group.cleanRows_depth (g : Group) (l : List (Fin 32)) (n : List Nat) : (g.cleanRows l n).depth = g.depth := by unfold Group.cleanRows; rfl
@[simp] theorem Group.cleanRows_graph (g : Group) (l : List (Fin 32)) (n : List Nat) : (g.cleanRows l n).graph = g.graph := by unfold Group.cleanRows; rfl
@[simp] theorem Group.cleanRows_st (g : Group) (l : List (Fin 32)) (n : List Nat) : (g.cleanRows l n).st = g.st := by unfold Group.cleanRows; rfl
@[simp] theorem Group.cleanRows_threads (g : Group) (l : List (Fin 32)) (n : List Nat) : (g.cleanRows l n).threads = g.threads := by unfold Group.cleanRows; rfl
@[simp] theorem Group.cleanRows_w (g : Group) (l : List (Fin 32)) (n : List Nat) : (g.cleanRows l n).w = g.w := by unfold Group.cleanRows; rfl
@[simp] theorem Group.cleanRows_q (g : Group) (l : List (Fin 32)) (n : List Nat) : (g.cleanRows l n).q = g.q := by unfold Group.cleanRows; rfl
@[simp] theorem Group.cleanRows_gstat (g : Group) (l : List (Fin 32)) (n : List Nat) : (g.cleanRows l n).gstat = g.gstat := by unfold Group.cleanRows; rfl
@[simp] theorem Group.cleanRows_fpen (g : Group) (l : List (Fin 32)) (n : List Nat) : (g.cleanRows l n).fpen = g.fpen := by unfold Group.cleanRows; rfl
@[simp] theorem Group.cleanRows_rwin (g : Group) (l : List (Fin 32)) (n : List Nat) : (g.cleanRows l n).rwin = g.rwin := by unfold Group.cleanRows; rfl
@[simp] theorem Group.cleanRows_ntvec (g : Group) (l : List (Fin 32)) (n : List Nat) : (g.cleanRows l n).ntvec = g.ntvec := by unfold Group.cleanRows; rfl
@[simp] theorem Group.cleanRows_ncause (g : Group) (l : List (Fin 32)) (n : List Nat) : (g.cleanRows l n).ncause = g.ncause := by unfold Group.cleanRows; rfl
@[simp] theorem Group.cleanRows_hcause (g : Group) (l : List (Fin 32)) (n : List Nat) : (g.cleanRows l n).hcause = g.hcause := by unfold Group.cleanRows; rfl
@[simp] theorem Group.cleanRows_hpc (g : Group) (l : List (Fin 32)) (n : List Nat) : (g.cleanRows l n).hpc = g.hpc := by unfold Group.cleanRows; rfl
@[simp] theorem Group.cleanRows_haddr (g : Group) (l : List (Fin 32)) (n : List Nat) : (g.cleanRows l n).haddr = g.haddr := by unfold Group.cleanRows; rfl
@[simp] theorem Group.cleanRows_stack (g : Group) (l : List (Fin 32)) (n : List Nat) : (g.cleanRows l n).stack = g.stack := by unfold Group.cleanRows; rfl
@[simp] theorem Group.cleanRows_homeLanes (g : Group) (l : List (Fin 32)) (n : List Nat) : (g.cleanRows l n).homeLanes = g.homeLanes := by unfold Group.cleanRows; rfl
@[simp] theorem Group.cleanRows_lanes (g : Group) (l : List (Fin 32)) (n : List Nat) : (g.cleanRows l n).lanes = g.lanes := by unfold Group.cleanRows; rfl
@[simp] theorem Group.cleanRows_level (g : Group) (l : List (Fin 32)) (n : List Nat) : (g.cleanRows l n).level = g.level := by unfold Group.cleanRows; rfl
@[simp] theorem Group.cleanRows_resident (g : Group) (l : List (Fin 32)) (n : List Nat) : (g.cleanRows l n).resident = g.resident := by unfold Group.cleanRows; rfl
@[simp] theorem Group.cleanRows_foldCount (g : Group) (l : List (Fin 32)) (n : List Nat) : (g.cleanRows l n).foldCount = g.foldCount := by unfold Group.cleanRows; rfl
@[simp] theorem Group.cleanRows_spilled (g : Group) (l : List (Fin 32)) (n : List Nat) : (g.cleanRows l n).spilled = g.spilled := by unfold Group.cleanRows; rfl
@[simp] theorem Group.cleanRows_lastRead (g : Group) (l : List (Fin 32)) (n : List Nat) : (g.cleanRows l n).lastRead = g.lastRead := by unfold Group.cleanRows; rfl
@[simp] theorem Group.cleanRows_wantFill (g : Group) (l : List (Fin 32)) (n : List Nat) : (g.cleanRows l n).wantFill = g.wantFill := by unfold Group.cleanRows; rfl
@[simp] theorem Group.cleanRows_foldPlan (g : Group) (l : List (Fin 32)) (n : List Nat) : (g.cleanRows l n).foldPlan = g.foldPlan := by unfold Group.cleanRows; rfl
@[simp] theorem Group.cleanRows_reclaiming (g : Group) (l : List (Fin 32)) (n : List Nat) : (g.cleanRows l n).reclaiming = g.reclaiming := by unfold Group.cleanRows; rfl
@[simp] theorem Group.cleanRows_pend (g : Group) (l : List (Fin 32)) (n : List Nat) : (g.cleanRows l n).pend = g.pend := by unfold Group.cleanRows; rfl
@[simp] theorem Group.cleanRows_rho (g : Group) (l : List (Fin 32)) (n : List Nat) : (g.cleanRows l n).rho = g.rho := by unfold Group.cleanRows; rfl
@[simp] theorem Group.cleanRows_seen (g : Group) (l : List (Fin 32)) (n : List Nat) : (g.cleanRows l n).seen = g.seen := by unfold Group.cleanRows; rfl
@[simp] theorem Group.cleanRows_loads (g : Group) (l : List (Fin 32)) (n : List Nat) : (g.cleanRows l n).loads = g.loads := by unfold Group.cleanRows; rfl
@[simp] theorem Group.cleanRows_bases (g : Group) (l : List (Fin 32)) (n : List Nat) : (g.cleanRows l n).bases = g.bases := by unfold Group.cleanRows; rfl
@[simp] theorem Group.cleanRows_atoms (g : Group) (l : List (Fin 32)) (n : List Nat) : (g.cleanRows l n).atoms = g.atoms := by unfold Group.cleanRows; rfl
@[simp] theorem Group.cleanRows_publishing (g : Group) (l : List (Fin 32)) (n : List Nat) : (g.cleanRows l n).publishing = g.publishing := by unfold Group.cleanRows; rfl
@[simp] theorem Group.cleanRows_heldPublish (g : Group) (l : List (Fin 32)) (n : List Nat) : (g.cleanRows l n).heldPublish = g.heldPublish := by unfold Group.cleanRows; rfl
@[simp] theorem Group.cleanRows_dcfg (g : Group) (l : List (Fin 32)) (n : List Nat) : (g.cleanRows l n).dcfg = g.dcfg := by unfold Group.cleanRows; rfl
@[simp] theorem Group.cleanRows_drawKey (g : Group) (l : List (Fin 32)) (n : List Nat) : (g.cleanRows l n).drawKey = g.drawKey := by unfold Group.cleanRows; rfl
@[simp] theorem Group.cleanRows_drawCtr (g : Group) (l : List (Fin 32)) (n : List Nat) : (g.cleanRows l n).drawCtr = g.drawCtr := by unfold Group.cleanRows; rfl
@[simp] theorem Group.cleanRows_hiddenW (g : Group) (l : List (Fin 32)) (n : List Nat) : (g.cleanRows l n).hiddenW = g.hiddenW := by unfold Group.cleanRows; rfl
@[simp] theorem Group.cleanRows_joinArrived (g : Group) (l : List (Fin 32)) (n : List Nat) : (g.cleanRows l n).joinArrived = g.joinArrived := by unfold Group.cleanRows; rfl
@[simp] theorem Group.cleanRows_detached (g : Group) (l : List (Fin 32)) (n : List Nat) : (g.cleanRows l n).detached = g.detached := by unfold Group.cleanRows; rfl
@[simp] theorem Group.cleanRows_killDue (g : Group) (l : List (Fin 32)) (n : List Nat) : (g.cleanRows l n).killDue = g.killDue := by unfold Group.cleanRows; rfl
@[simp] theorem Group.cleanRows_notices (g : Group) (l : List (Fin 32)) (n : List Nat) : (g.cleanRows l n).notices = g.notices := by unfold Group.cleanRows; rfl

/-! ### Group.setDepth -/

@[simp] theorem Group.setDepth_ctx (g : Group) : (g.setDepth).ctx = g.ctx := by unfold Group.setDepth; rfl
@[simp] theorem Group.setDepth_kernel (g : Group) : (g.setDepth).kernel = g.kernel := by unfold Group.setDepth; rfl
@[simp] theorem Group.setDepth_team (g : Group) : (g.setDepth).team = g.team := by unfold Group.setDepth; rfl
@[simp] theorem Group.setDepth_core (g : Group) : (g.setDepth).core = g.core := by unfold Group.setDepth; rfl
@[simp] theorem Group.setDepth_slot (g : Group) : (g.setDepth).slot = g.slot := by unfold Group.setDepth; rfl
@[simp] theorem Group.setDepth_serial (g : Group) : (g.setDepth).serial = g.serial := by unfold Group.setDepth; rfl
@[simp] theorem Group.setDepth_age (g : Group) : (g.setDepth).age = g.age := by unfold Group.setDepth; rfl
@[simp] theorem Group.setDepth_gid (g : Group) : (g.setDepth).gid = g.gid := by unfold Group.setDepth; rfl
@[simp] theorem Group.setDepth_role (g : Group) : (g.setDepth).role = g.role := by unfold Group.setDepth; rfl
@[simp] theorem Group.setDepth_roleIdx (g : Group) : (g.setDepth).roleIdx = g.roleIdx := by unfold Group.setDepth; rfl
@[simp] theorem Group.setDepth_width (g : Group) : (g.setDepth).width = g.width := by unfold Group.setDepth; rfl
@[simp] theorem Group.setDepth_hosts (g : Group) : (g.setDepth).hosts = g.hosts := by unfold Group.setDepth; rfl
@[simp] theorem Group.setDepth_budget (g : Group) : (g.setDepth).budget = g.budget := by unfold Group.setDepth; rfl
@[simp] theorem Group.setDepth_join (g : Group) : (g.setDepth).join = g.join := by unfold Group.setDepth; rfl
@[simp] theorem Group.setDepth_weight (g : Group) : (g.setDepth).weight = g.weight := by unfold Group.setDepth; rfl
@[simp] theorem Group.setDepth_depth (g : Group) : (g.setDepth).depth = g.depth := by unfold Group.setDepth; rfl
@[simp] theorem Group.setDepth_graph (g : Group) : (g.setDepth).graph = g.graph := by unfold Group.setDepth; rfl
@[simp] theorem Group.setDepth_st (g : Group) : (g.setDepth).st = g.st := by unfold Group.setDepth; rfl
@[simp] theorem Group.setDepth_threads (g : Group) : (g.setDepth).threads = g.threads := by unfold Group.setDepth; rfl
@[simp] theorem Group.setDepth_w (g : Group) : (g.setDepth).w = g.w := by unfold Group.setDepth; rfl
@[simp] theorem Group.setDepth_q (g : Group) : (g.setDepth).q = g.q := by unfold Group.setDepth; rfl
@[simp] theorem Group.setDepth_fpen (g : Group) : (g.setDepth).fpen = g.fpen := by unfold Group.setDepth; rfl
@[simp] theorem Group.setDepth_rwin (g : Group) : (g.setDepth).rwin = g.rwin := by unfold Group.setDepth; rfl
@[simp] theorem Group.setDepth_ntvec (g : Group) : (g.setDepth).ntvec = g.ntvec := by unfold Group.setDepth; rfl
@[simp] theorem Group.setDepth_ncause (g : Group) : (g.setDepth).ncause = g.ncause := by unfold Group.setDepth; rfl
@[simp] theorem Group.setDepth_hcause (g : Group) : (g.setDepth).hcause = g.hcause := by unfold Group.setDepth; rfl
@[simp] theorem Group.setDepth_hpc (g : Group) : (g.setDepth).hpc = g.hpc := by unfold Group.setDepth; rfl
@[simp] theorem Group.setDepth_haddr (g : Group) : (g.setDepth).haddr = g.haddr := by unfold Group.setDepth; rfl
@[simp] theorem Group.setDepth_stack (g : Group) : (g.setDepth).stack = g.stack := by unfold Group.setDepth; rfl
@[simp] theorem Group.setDepth_homeLanes (g : Group) : (g.setDepth).homeLanes = g.homeLanes := by unfold Group.setDepth; rfl
@[simp] theorem Group.setDepth_lanes (g : Group) : (g.setDepth).lanes = g.lanes := by unfold Group.setDepth; rfl
@[simp] theorem Group.setDepth_level (g : Group) : (g.setDepth).level = g.level := by unfold Group.setDepth; rfl
@[simp] theorem Group.setDepth_resident (g : Group) : (g.setDepth).resident = g.resident := by unfold Group.setDepth; rfl
@[simp] theorem Group.setDepth_foldCount (g : Group) : (g.setDepth).foldCount = g.foldCount := by unfold Group.setDepth; rfl
@[simp] theorem Group.setDepth_spilled (g : Group) : (g.setDepth).spilled = g.spilled := by unfold Group.setDepth; rfl
@[simp] theorem Group.setDepth_lastRead (g : Group) : (g.setDepth).lastRead = g.lastRead := by unfold Group.setDepth; rfl
@[simp] theorem Group.setDepth_wantFill (g : Group) : (g.setDepth).wantFill = g.wantFill := by unfold Group.setDepth; rfl
@[simp] theorem Group.setDepth_foldPlan (g : Group) : (g.setDepth).foldPlan = g.foldPlan := by unfold Group.setDepth; rfl
@[simp] theorem Group.setDepth_reclaiming (g : Group) : (g.setDepth).reclaiming = g.reclaiming := by unfold Group.setDepth; rfl
@[simp] theorem Group.setDepth_pend (g : Group) : (g.setDepth).pend = g.pend := by unfold Group.setDepth; rfl
@[simp] theorem Group.setDepth_rho (g : Group) : (g.setDepth).rho = g.rho := by unfold Group.setDepth; rfl
@[simp] theorem Group.setDepth_seen (g : Group) : (g.setDepth).seen = g.seen := by unfold Group.setDepth; rfl
@[simp] theorem Group.setDepth_loads (g : Group) : (g.setDepth).loads = g.loads := by unfold Group.setDepth; rfl
@[simp] theorem Group.setDepth_bases (g : Group) : (g.setDepth).bases = g.bases := by unfold Group.setDepth; rfl
@[simp] theorem Group.setDepth_atoms (g : Group) : (g.setDepth).atoms = g.atoms := by unfold Group.setDepth; rfl
@[simp] theorem Group.setDepth_badRegs (g : Group) : (g.setDepth).badRegs = g.badRegs := by unfold Group.setDepth; rfl
@[simp] theorem Group.setDepth_publishing (g : Group) : (g.setDepth).publishing = g.publishing := by unfold Group.setDepth; rfl
@[simp] theorem Group.setDepth_heldPublish (g : Group) : (g.setDepth).heldPublish = g.heldPublish := by unfold Group.setDepth; rfl
@[simp] theorem Group.setDepth_dcfg (g : Group) : (g.setDepth).dcfg = g.dcfg := by unfold Group.setDepth; rfl
@[simp] theorem Group.setDepth_drawKey (g : Group) : (g.setDepth).drawKey = g.drawKey := by unfold Group.setDepth; rfl
@[simp] theorem Group.setDepth_drawCtr (g : Group) : (g.setDepth).drawCtr = g.drawCtr := by unfold Group.setDepth; rfl
@[simp] theorem Group.setDepth_hiddenW (g : Group) : (g.setDepth).hiddenW = g.hiddenW := by unfold Group.setDepth; rfl
@[simp] theorem Group.setDepth_joinArrived (g : Group) : (g.setDepth).joinArrived = g.joinArrived := by unfold Group.setDepth; rfl
@[simp] theorem Group.setDepth_detached (g : Group) : (g.setDepth).detached = g.detached := by unfold Group.setDepth; rfl
@[simp] theorem Group.setDepth_killDue (g : Group) : (g.setDepth).killDue = g.killDue := by unfold Group.setDepth; rfl
@[simp] theorem Group.setDepth_notices (g : Group) : (g.setDepth).notices = g.notices := by unfold Group.setDepth; rfl

/-! ### Group.savePlaces -/

@[simp] theorem Group.savePlaces_ctx (g : Group) : (g.savePlaces).ctx = g.ctx := by rw [Group.savePlaces, Group.onLanes_ctx]
@[simp] theorem Group.savePlaces_kernel (g : Group) : (g.savePlaces).kernel = g.kernel := by rw [Group.savePlaces, Group.onLanes_kernel]
@[simp] theorem Group.savePlaces_team (g : Group) : (g.savePlaces).team = g.team := by rw [Group.savePlaces, Group.onLanes_team]
@[simp] theorem Group.savePlaces_core (g : Group) : (g.savePlaces).core = g.core := by rw [Group.savePlaces, Group.onLanes_core]
@[simp] theorem Group.savePlaces_slot (g : Group) : (g.savePlaces).slot = g.slot := by rw [Group.savePlaces, Group.onLanes_slot]
@[simp] theorem Group.savePlaces_serial (g : Group) : (g.savePlaces).serial = g.serial := by rw [Group.savePlaces, Group.onLanes_serial]
@[simp] theorem Group.savePlaces_age (g : Group) : (g.savePlaces).age = g.age := by rw [Group.savePlaces, Group.onLanes_age]
@[simp] theorem Group.savePlaces_gid (g : Group) : (g.savePlaces).gid = g.gid := by rw [Group.savePlaces, Group.onLanes_gid]
@[simp] theorem Group.savePlaces_role (g : Group) : (g.savePlaces).role = g.role := by rw [Group.savePlaces, Group.onLanes_role]
@[simp] theorem Group.savePlaces_roleIdx (g : Group) : (g.savePlaces).roleIdx = g.roleIdx := by rw [Group.savePlaces, Group.onLanes_roleIdx]
@[simp] theorem Group.savePlaces_width (g : Group) : (g.savePlaces).width = g.width := by rw [Group.savePlaces, Group.onLanes_width]
@[simp] theorem Group.savePlaces_hosts (g : Group) : (g.savePlaces).hosts = g.hosts := by rw [Group.savePlaces, Group.onLanes_hosts]
@[simp] theorem Group.savePlaces_budget (g : Group) : (g.savePlaces).budget = g.budget := by rw [Group.savePlaces, Group.onLanes_budget]
@[simp] theorem Group.savePlaces_join (g : Group) : (g.savePlaces).join = g.join := by rw [Group.savePlaces, Group.onLanes_join]
@[simp] theorem Group.savePlaces_weight (g : Group) : (g.savePlaces).weight = g.weight := by rw [Group.savePlaces, Group.onLanes_weight]
@[simp] theorem Group.savePlaces_depth (g : Group) : (g.savePlaces).depth = g.depth := by rw [Group.savePlaces, Group.onLanes_depth]
@[simp] theorem Group.savePlaces_graph (g : Group) : (g.savePlaces).graph = g.graph := by rw [Group.savePlaces, Group.onLanes_graph]
@[simp] theorem Group.savePlaces_st (g : Group) : (g.savePlaces).st = g.st := by rw [Group.savePlaces, Group.onLanes_st]
@[simp] theorem Group.savePlaces_w (g : Group) : (g.savePlaces).w = g.w := by rw [Group.savePlaces, Group.onLanes_w]
@[simp] theorem Group.savePlaces_q (g : Group) : (g.savePlaces).q = g.q := by rw [Group.savePlaces, Group.onLanes_q]
@[simp] theorem Group.savePlaces_gstat (g : Group) : (g.savePlaces).gstat = g.gstat := by rw [Group.savePlaces, Group.onLanes_gstat]
@[simp] theorem Group.savePlaces_fpen (g : Group) : (g.savePlaces).fpen = g.fpen := by rw [Group.savePlaces, Group.onLanes_fpen]
@[simp] theorem Group.savePlaces_rwin (g : Group) : (g.savePlaces).rwin = g.rwin := by rw [Group.savePlaces, Group.onLanes_rwin]
@[simp] theorem Group.savePlaces_ntvec (g : Group) : (g.savePlaces).ntvec = g.ntvec := by rw [Group.savePlaces, Group.onLanes_ntvec]
@[simp] theorem Group.savePlaces_ncause (g : Group) : (g.savePlaces).ncause = g.ncause := by rw [Group.savePlaces, Group.onLanes_ncause]
@[simp] theorem Group.savePlaces_hcause (g : Group) : (g.savePlaces).hcause = g.hcause := by rw [Group.savePlaces, Group.onLanes_hcause]
@[simp] theorem Group.savePlaces_hpc (g : Group) : (g.savePlaces).hpc = g.hpc := by rw [Group.savePlaces, Group.onLanes_hpc]
@[simp] theorem Group.savePlaces_haddr (g : Group) : (g.savePlaces).haddr = g.haddr := by rw [Group.savePlaces, Group.onLanes_haddr]
@[simp] theorem Group.savePlaces_stack (g : Group) : (g.savePlaces).stack = g.stack := by rw [Group.savePlaces, Group.onLanes_stack]
@[simp] theorem Group.savePlaces_homeLanes (g : Group) : (g.savePlaces).homeLanes = g.homeLanes := by rw [Group.savePlaces, Group.onLanes_homeLanes]
@[simp] theorem Group.savePlaces_lanes (g : Group) : (g.savePlaces).lanes = g.lanes := by rw [Group.savePlaces, Group.onLanes_lanes]
@[simp] theorem Group.savePlaces_level (g : Group) : (g.savePlaces).level = g.level := by rw [Group.savePlaces, Group.onLanes_level]
@[simp] theorem Group.savePlaces_resident (g : Group) : (g.savePlaces).resident = g.resident := by rw [Group.savePlaces, Group.onLanes_resident]
@[simp] theorem Group.savePlaces_foldCount (g : Group) : (g.savePlaces).foldCount = g.foldCount := by rw [Group.savePlaces, Group.onLanes_foldCount]
@[simp] theorem Group.savePlaces_spilled (g : Group) : (g.savePlaces).spilled = g.spilled := by rw [Group.savePlaces, Group.onLanes_spilled]
@[simp] theorem Group.savePlaces_lastRead (g : Group) : (g.savePlaces).lastRead = g.lastRead := by rw [Group.savePlaces, Group.onLanes_lastRead]
@[simp] theorem Group.savePlaces_wantFill (g : Group) : (g.savePlaces).wantFill = g.wantFill := by rw [Group.savePlaces, Group.onLanes_wantFill]
@[simp] theorem Group.savePlaces_foldPlan (g : Group) : (g.savePlaces).foldPlan = g.foldPlan := by rw [Group.savePlaces, Group.onLanes_foldPlan]
@[simp] theorem Group.savePlaces_reclaiming (g : Group) : (g.savePlaces).reclaiming = g.reclaiming := by rw [Group.savePlaces, Group.onLanes_reclaiming]
@[simp] theorem Group.savePlaces_pend (g : Group) : (g.savePlaces).pend = g.pend := by rw [Group.savePlaces, Group.onLanes_pend]
@[simp] theorem Group.savePlaces_rho (g : Group) : (g.savePlaces).rho = g.rho := by rw [Group.savePlaces, Group.onLanes_rho]
@[simp] theorem Group.savePlaces_seen (g : Group) : (g.savePlaces).seen = g.seen := by rw [Group.savePlaces, Group.onLanes_seen]
@[simp] theorem Group.savePlaces_loads (g : Group) : (g.savePlaces).loads = g.loads := by rw [Group.savePlaces, Group.onLanes_loads]
@[simp] theorem Group.savePlaces_bases (g : Group) : (g.savePlaces).bases = g.bases := by rw [Group.savePlaces, Group.onLanes_bases]
@[simp] theorem Group.savePlaces_atoms (g : Group) : (g.savePlaces).atoms = g.atoms := by rw [Group.savePlaces, Group.onLanes_atoms]
@[simp] theorem Group.savePlaces_badRegs (g : Group) : (g.savePlaces).badRegs = g.badRegs := by rw [Group.savePlaces, Group.onLanes_badRegs]
@[simp] theorem Group.savePlaces_publishing (g : Group) : (g.savePlaces).publishing = g.publishing := by rw [Group.savePlaces, Group.onLanes_publishing]
@[simp] theorem Group.savePlaces_heldPublish (g : Group) : (g.savePlaces).heldPublish = g.heldPublish := by rw [Group.savePlaces, Group.onLanes_heldPublish]
@[simp] theorem Group.savePlaces_dcfg (g : Group) : (g.savePlaces).dcfg = g.dcfg := by rw [Group.savePlaces, Group.onLanes_dcfg]
@[simp] theorem Group.savePlaces_drawKey (g : Group) : (g.savePlaces).drawKey = g.drawKey := by rw [Group.savePlaces, Group.onLanes_drawKey]
@[simp] theorem Group.savePlaces_drawCtr (g : Group) : (g.savePlaces).drawCtr = g.drawCtr := by rw [Group.savePlaces, Group.onLanes_drawCtr]
@[simp] theorem Group.savePlaces_hiddenW (g : Group) : (g.savePlaces).hiddenW = g.hiddenW := by rw [Group.savePlaces, Group.onLanes_hiddenW]
@[simp] theorem Group.savePlaces_joinArrived (g : Group) : (g.savePlaces).joinArrived = g.joinArrived := by rw [Group.savePlaces, Group.onLanes_joinArrived]
@[simp] theorem Group.savePlaces_detached (g : Group) : (g.savePlaces).detached = g.detached := by rw [Group.savePlaces, Group.onLanes_detached]
@[simp] theorem Group.savePlaces_killDue (g : Group) : (g.savePlaces).killDue = g.killDue := by rw [Group.savePlaces, Group.onLanes_killDue]
@[simp] theorem Group.savePlaces_notices (g : Group) : (g.savePlaces).notices = g.notices := by rw [Group.savePlaces, Group.onLanes_notices]

/-! ### Threads -/

@[simp] theorem Group.onLanes_get (g : Group) (m : BitVec 32) (f : Fin 32 → Thread → Thread) (i : Fin 32) :
    (g.onLanes m f).threads[i] = if m.getLsbD i then f i g.threads[i] else g.threads[i] := by
  simp [Group.onLanes]

theorem Group.onLanes_on (g : Group) (m : BitVec 32) (f : Fin 32 → Thread → Thread) (i : Fin 32) (h : m.getLsbD i = true) :
    (g.onLanes m f).threads[i] = f i g.threads[i] := by
  rw [Group.onLanes_get, if_pos h]

theorem Group.onLanes_off (g : Group) (m : BitVec 32) (f : Fin 32 → Thread → Thread) (i : Fin 32) (h : m.getLsbD i = false) :
    (g.onLanes m f).threads[i] = g.threads[i] := by
  rw [Group.onLanes_get, h]; rfl

end Sys2Proof.Machine
end

