-- ==== Sys2Proof/Laws/Operands.lean ====
section
/-! SUPPORT. What the operand operations do once the registers are free: no wait, no trap, and which registers change. -/

namespace Sys2Proof.Machine

/-! ### Reading and writing -/

theorem issuer_ok {s : State} {g : Group} (h : Issues s g) : issuer s = .ok g := by
  unfold issuer
  rw [show mget s.groups s.cur.group = some g from h]

theorem useW_ok {s : State} {g : Group} {reads writes : List Nat} (h : UniFree s g reads writes) :
    useW s g reads writes = .ok () := by
  have h1 : (reads ++ writes).any (busyW s g) = false := by
    rw [List.any_eq_false]; intro i hi; simp [h.1 i hi]
  have h2 : (reads.find? fun i => (g.badW i).isSome) = none := by
    rw [List.find?_eq_none]; intro i hi; simp [h.2 i hi]
  simp [useW, scoreboard, readyU, h1, h2, bind, Except.bind]

theorem operandsReady_ok {s : State} {g : Group} {lanes : List (Fin 32)} {reads dests : List (BitVec 7)}
    (h : VecFree s g lanes reads dests) : operandsReady s g reads dests = .ok () := by
  obtain ⟨h1, h2, h3⟩ := h
  have a1 : ((reads ++ dests).filterMap g.vname).any g.busyV = false := by
    rw [List.any_eq_false]; intro n hn; simp [h1 n hn]
  have a2 : ((reads.filter isUni).map uniIdx).any (busyW s g) = false := by
    rw [List.any_eq_false]; intro i hi; simp [(h2 i hi).1]
  have a3 : ((reads.filter isUni).map uniIdx).find? (fun i => (g.badW i).isSome) = none := by
    rw [List.find?_eq_none]; intro i hi; simp [(h2 i hi).2]
  have a4 : ((reads.filterMap g.vname).filter fun n => g.spilled.contains n) = [] := by
    rw [List.filter_eq_nil_iff]; intro n hn; simp only [(h3 n hn).1]; decide
  simp only [operandsReady, scoreboard, filled, readyU, a1, a2, a3, a4, bind, Except.bind]
  rfl

theorem badRead_none {g : Group} {l : Fin 32} {names : List Nat} (h : ∀ n ∈ names, g.badV l n = none) : badRead g l names = none := by
  unfold badRead
  rw [List.findSome?_eq_none_iff.mpr h]; rfl

theorem overBudget_none {s : State} {g : Group} {lanes : List (Fin 32)} {frees names : List Nat} (h : VecRoom g lanes frees names)
    {l : Fin 32} (hl : l ∈ lanes) : overBudget s g g.threads[l] frees names = none := by
  unfold overBudget
  rw [if_neg]
  rintro ⟨h1, -, h3⟩
  rcases h l hl with h | h
  · rw [List.any_eq_true] at h3
    obtain ⟨n, hn, hx⟩ := h3
    have := h n hn
    rw [Option.isSome_iff_ne_none] at this
    rw [Option.isNone_iff_eq_none] at hx
    exact this hx
  · exact absurd h1 (by omega)

theorem chooseTrap_none (l : List (Fin 32 × Option TrapInfo)) (h : ∀ p ∈ l, p.2 = none) : chooseTrap l = none := by
  induction l with
  | nil => rfl
  | cons p r ih =>
    obtain ⟨i, t⟩ := p
    have := h (i, t) (by simp)
    simp only at this
    subst this
    exact ih fun p hp => h p (by simp [hp])

theorem raiseBy_none (st : Nat → State) (l : List (Fin 32 × Option TrapInfo)) (h : ∀ p ∈ l, p.2 = none) : raiseBy st l = .ok () := by
  unfold raiseBy
  rw [chooseTrap_none l h]

/-- A vector instruction whose registers are free, whose rows fit and whose flags are not enabled completes. -/
theorem vecOn_ok {s : State} {g : Group} {lanes : List (Fin 32)} {reads : List (BitVec 7 × Bool)} {dests : List (BitVec 7)}
    {f : Fin 32 → List Word → LaneRes} (hf : VecFree s g lanes (reads.map (·.1)) dests)
    (hr : VecRoom g lanes (g.freesOf reads) (dests.filterMap g.vname))
    (ht : ∀ l ∈ lanes, g.trapFlags (f l (g.readAll l (reads.map (·.1))).1).flags = 0) :
    vecOn s g lanes reads dests f =
      .ok (g.vecCommit s.tick lanes reads dests fun i => f i (g.readAll i (reads.map (·.1))).1) := by
  simp only [vecOn, bind, Except.bind]
  rw [operandsReady_ok hf]
  dsimp only
  rw [raiseBy_none]
  intro p hp
  rw [List.mem_map] at hp
  obtain ⟨l, hl, rfl⟩ := hp
  dsimp only
  rw [badRead_none fun n hn => (hf.2.2 n hn).2 l hl, overBudget_none hr hl]
  simp [flagTrap, ht l hl]

theorem vecStep_ok {s : State} {g : Group} {reads : List (BitVec 7 × Bool)} {dests : List (BitVec 7)} {f : List Word → LaneRes}
    (hi : Issues s g) (hf : VecFree s g (cohort s) (reads.map (·.1)) dests)
    (hr : VecRoom g (cohort s) (g.freesOf reads) (dests.filterMap g.vname))
    (ht : ∀ l ∈ cohort s, g.trapFlags (f (g.readAll l (reads.map (·.1))).1).flags = 0) :
    finish (vecStep s reads dests f) =
      .next (done s (g.vecCommit s.tick (cohort s) reads dests fun i => f (g.readAll i (reads.map (·.1))).1)) := by
  simp only [vecStep, bind, Except.bind]
  rw [issuer_ok hi]
  dsimp only
  rw [vecOn_ok hf hr ht]
  rfl

theorem uniStep_ok {s : State} {g : Group} {reads : List (BitVec 7)} {d : BitVec 7} {f : List DWord → DWord}
    (hi : Issues s g) (hf : UniFree s g (reads.map uniIdx) [uniIdx d]) :
    finish (uniStep s reads d f) = .next (done s (g.wrW (uniIdx d) (f (reads.map fun r => g.rdW (uniIdx r))))) := by
  simp only [uniStep, bind, Except.bind]
  rw [issuer_ok hi]
  dsimp only
  rw [useW_ok hf]
  rfl

end Sys2Proof.Machine
end

