-- ==== Sys2Proof/Laws/PerInstr.lean ====
section
/-! SUPPORT. The family EncodeFits, one lemma per constructor of Instr: an encoding is a halfword with bit 0 clear or a word with bit 0
set (R64), so no field of it reaches beyond its bits. -/

namespace Sys2Proof

/-- A number of bits and a word of that many, with bit 0 as the length has it (R64). -/
def Fits (n w : Nat) : Prop := (n = 16 ∧ w < 2 ^ 16 ∧ w % 2 = 0) ∨ (n = 32 ∧ w < 2 ^ 32 ∧ w % 2 = 1)

/-- The family: the encoding of an instruction, if it has one, fits. -/
def Laws.EncodeFits.Statement (i : Instr) : Prop := ∀ n w, encode i = some (n, w) → Fits n w

theorem fits_of {i : Instr} {n w : Nat} (h : encode i = some (n, w)) (hf : Fits n w) : Laws.EncodeFits.Statement i := by
  intro n' w' h'
  rw [h] at h'
  cases h'
  exact hf

theorem fits_none {i : Instr} (h : encode i = none) : Laws.EncodeFits.Statement i := by
  intro n w h'
  rw [h] at h'
  cases h'

theorem b2n_le (b : Bool) : b2n b ≤ 1 := by cases b <;> decide

theorem u7_lt (r : BitVec 5) : u7 r < 128 := by unfold u7; omega

theorem ou7_lt (r : Option (BitVec 5)) : ou7 r < 128 := by
  cases r with
  | none => decide
  | some r => exact u7_lt r

theorem fits_encA {major f : Nat} {o : A3} (hm : major < 64) (hf : f < 4) : Fits 32 (encA major f o) := by
  have := b2n_le o.la; have := b2n_le o.lb
  unfold encA
  exact .inr ⟨rfl, by omega, by omega⟩

theorem fits_encAb {major f b : Nat} {o : A2} (hm : major < 64) (hf : f < 4) (hb : b < 128) : Fits 32 (encAb major f b o) := by
  have := b2n_le o.la
  unfold encAb
  exact .inr ⟨rfl, by omega, by omega⟩

theorem fits_encI {major imm : Nat} {o : A2} (hm : major < 64) (hi : imm < 1024) : Fits 32 (encI major imm o) := by
  have := b2n_le o.la
  unfold encI
  exact .inr ⟨rfl, by omega, by omega⟩

theorem fits_encWB {major imm c : Nat} (hm : major < 64) (hi : imm < 2 ^ 18) (hc : c < 128) : Fits 32 (encWB major imm c) := by
  unfold encWB
  exact .inr ⟨rfl, by omega, by omega⟩

theorem fits_encM {major : Nat} {o : MemOps} (hm : major < 64) : Fits 32 (encM major o) := by
  have := b2n_le o.lx
  unfold encM
  exact .inr ⟨rfl, by omega, by omega⟩

theorem fits_encO {major minor e a d : Nat} (hm : major < 64) (hn : minor < 64) (he : e < 32) (ha : a < 128) (hd : d < 128) :
    Fits 32 (encO major minor e a d) := by
  unfold encO
  exact .inr ⟨rfl, by omega, by omega⟩

theorem fits_encCmp {major : Nat} {o : CmpOps} (hm : major < 64) : Fits 32 (encCmp major o) := by
  unfold encCmp
  exact fits_encA hm (by omega)

theorem fits_encH {op : Nat} {b d : BitVec 5} (ho : op < 16) : Fits 16 (encH op b d) := by
  unfold encH
  exact .inl ⟨rfl, by omega, by omega⟩

end Sys2Proof

open Sys2Proof

theorem Sys2Proof.Laws.EncodeFits.add (f : BitVec 2) (o : A3) : Sys2Proof.Laws.EncodeFits.Statement (.add f o) :=
  fits_of rfl (fits_encA (by decide) (by omega))

theorem Sys2Proof.Laws.EncodeFits.sub (f : BitVec 2) (o : A3) : Sys2Proof.Laws.EncodeFits.Statement (.sub f o) :=
  fits_of rfl (fits_encA (by decide) (by omega))

theorem Sys2Proof.Laws.EncodeFits.mul (f : BitVec 2) (o : A3) : Sys2Proof.Laws.EncodeFits.Statement (.mul f o) :=
  fits_of rfl (fits_encA (by decide) (by omega))

theorem Sys2Proof.Laws.EncodeFits.mad (o : A3) : Sys2Proof.Laws.EncodeFits.Statement (.mad o) := fits_of rfl (fits_encA (by decide) (by omega))

theorem Sys2Proof.Laws.EncodeFits.min (f : BitVec 2) (o : A3) : Sys2Proof.Laws.EncodeFits.Statement (.min f o) :=
  fits_of rfl (fits_encA (by decide) (by omega))

theorem Sys2Proof.Laws.EncodeFits.max (f : BitVec 2) (o : A3) : Sys2Proof.Laws.EncodeFits.Statement (.max f o) :=
  fits_of rfl (fits_encA (by decide) (by omega))

theorem Sys2Proof.Laws.EncodeFits.land (o : A3) : Sys2Proof.Laws.EncodeFits.Statement (.land o) := fits_of rfl (fits_encA (by decide) (by omega))

theorem Sys2Proof.Laws.EncodeFits.lor (o : A3) : Sys2Proof.Laws.EncodeFits.Statement (.lor o) := fits_of rfl (fits_encA (by decide) (by omega))

theorem Sys2Proof.Laws.EncodeFits.lxor (o : A3) : Sys2Proof.Laws.EncodeFits.Statement (.lxor o) := fits_of rfl (fits_encA (by decide) (by omega))

theorem Sys2Proof.Laws.EncodeFits.landn (o : A3) : Sys2Proof.Laws.EncodeFits.Statement (.landn o) := fits_of rfl (fits_encA (by decide) (by omega))

theorem Sys2Proof.Laws.EncodeFits.shl (o : A3) : Sys2Proof.Laws.EncodeFits.Statement (.shl o) := fits_of rfl (fits_encA (by decide) (by omega))

theorem Sys2Proof.Laws.EncodeFits.shr (o : A3) : Sys2Proof.Laws.EncodeFits.Statement (.shr o) := fits_of rfl (fits_encA (by decide) (by omega))

theorem Sys2Proof.Laws.EncodeFits.sar (o : A3) : Sys2Proof.Laws.EncodeFits.Statement (.sar o) := fits_of rfl (fits_encA (by decide) (by omega))

theorem Sys2Proof.Laws.EncodeFits.rot (o : A3) : Sys2Proof.Laws.EncodeFits.Statement (.rot o) := fits_of rfl (fits_encA (by decide) (by omega))

theorem Sys2Proof.Laws.EncodeFits.popc (o : A2) : Sys2Proof.Laws.EncodeFits.Statement (.popc o) :=
  fits_of rfl (fits_encAb (by decide) (by omega) (by omega))

theorem Sys2Proof.Laws.EncodeFits.clz (o : A2) : Sys2Proof.Laws.EncodeFits.Statement (.clz o) :=
  fits_of rfl (fits_encAb (by decide) (by omega) (by omega))

theorem Sys2Proof.Laws.EncodeFits.brev (o : A2) : Sys2Proof.Laws.EncodeFits.Statement (.brev o) :=
  fits_of rfl (fits_encAb (by decide) (by omega) (by omega))

theorem Sys2Proof.Laws.EncodeFits.ffs (o : A2) : Sys2Proof.Laws.EncodeFits.Statement (.ffs o) :=
  fits_of rfl (fits_encAb (by decide) (by omega) (by omega))

theorem Sys2Proof.Laws.EncodeFits.bfeN (o : A3) : Sys2Proof.Laws.EncodeFits.Statement (.bfeN o) := fits_of rfl (fits_encA (by decide) (by omega))

theorem Sys2Proof.Laws.EncodeFits.bfeS (o : A3) : Sys2Proof.Laws.EncodeFits.Statement (.bfeS o) := fits_of rfl (fits_encA (by decide) (by omega))

theorem Sys2Proof.Laws.EncodeFits.bfi (o : A3) : Sys2Proof.Laws.EncodeFits.Statement (.bfi o) := fits_of rfl (fits_encA (by decide) (by omega))

theorem Sys2Proof.Laws.EncodeFits.cmp (o : CmpOps) : Sys2Proof.Laws.EncodeFits.Statement (.cmp o) := fits_of rfl (fits_encCmp (by decide))

theorem Sys2Proof.Laws.EncodeFits.sel (f : BitVec 2) (o : A3) : Sys2Proof.Laws.EncodeFits.Statement (.sel f o) :=
  fits_of rfl (fits_encA (by decide) (by omega))

theorem Sys2Proof.Laws.EncodeFits.addi (imm : BitVec 10) (o : A2) : Sys2Proof.Laws.EncodeFits.Statement (.addi imm o) :=
  fits_of rfl (fits_encI (by decide) (by omega))

theorem Sys2Proof.Laws.EncodeFits.andi (imm : BitVec 8) (o : A2) : Sys2Proof.Laws.EncodeFits.Statement (.andi imm o) :=
  fits_of rfl (fits_encI (by decide) (by omega))

theorem Sys2Proof.Laws.EncodeFits.ori (imm : BitVec 8) (o : A2) : Sys2Proof.Laws.EncodeFits.Statement (.ori imm o) :=
  fits_of rfl (fits_encI (by decide) (by omega))

theorem Sys2Proof.Laws.EncodeFits.xori (imm : BitVec 8) (o : A2) : Sys2Proof.Laws.EncodeFits.Statement (.xori imm o) :=
  fits_of rfl (fits_encI (by decide) (by omega))

theorem Sys2Proof.Laws.EncodeFits.andni (imm : BitVec 8) (o : A2) : Sys2Proof.Laws.EncodeFits.Statement (.andni imm o) :=
  fits_of rfl (fits_encI (by decide) (by omega))

theorem Sys2Proof.Laws.EncodeFits.shli (n : BitVec 5) (o : A2) : Sys2Proof.Laws.EncodeFits.Statement (.shli n o) :=
  fits_of rfl (fits_encI (by decide) (by omega))

theorem Sys2Proof.Laws.EncodeFits.shri (n : BitVec 5) (o : A2) : Sys2Proof.Laws.EncodeFits.Statement (.shri n o) :=
  fits_of rfl (fits_encI (by decide) (by omega))

theorem Sys2Proof.Laws.EncodeFits.sari (n : BitVec 5) (o : A2) : Sys2Proof.Laws.EncodeFits.Statement (.sari n o) :=
  fits_of rfl (fits_encI (by decide) (by omega))

theorem Sys2Proof.Laws.EncodeFits.roti (n : BitVec 5) (o : A2) : Sys2Proof.Laws.EncodeFits.Statement (.roti n o) :=
  fits_of rfl (fits_encI (by decide) (by omega))

theorem Sys2Proof.Laws.EncodeFits.movw (imm : BitVec 18) (d : BitVec 7) : Sys2Proof.Laws.EncodeFits.Statement (.movw imm d) :=
  fits_of rfl (fits_encWB (by decide) (by omega) (by omega))

theorem Sys2Proof.Laws.EncodeFits.movh (imm : BitVec 18) (d : BitVec 7) : Sys2Proof.Laws.EncodeFits.Statement (.movh imm d) :=
  fits_of rfl (fits_encWB (by decide) (by omega) (by omega))

theorem Sys2Proof.Laws.EncodeFits.movx (imm : BitVec 18) (d : BitVec 7) : Sys2Proof.Laws.EncodeFits.Statement (.movx imm d) :=
  fits_of rfl (fits_encWB (by decide) (by omega) (by omega))

theorem Sys2Proof.Laws.EncodeFits.lea (f : BitVec 2) (o : A3) : Sys2Proof.Laws.EncodeFits.Statement (.lea f o) :=
  fits_of rfl (fits_encA (by decide) (by omega))

theorem Sys2Proof.Laws.EncodeFits.cvti (f : BitVec 2) (o : A2) : Sys2Proof.Laws.EncodeFits.Statement (.cvti f o) :=
  fits_of rfl (fits_encAb (by decide) (by omega) (by omega))

theorem Sys2Proof.Laws.EncodeFits.idot4 (f : BitVec 2) (o : A3) : Sys2Proof.Laws.EncodeFits.Statement (.idot4 f o) :=
  fits_of rfl (fits_encA (by decide) (by omega))

theorem Sys2Proof.Laws.EncodeFits.idot4s (f : BitVec 2) (o : A3) : Sys2Proof.Laws.EncodeFits.Statement (.idot4s f o) :=
  fits_of rfl (fits_encA (by decide) (by omega))

theorem Sys2Proof.Laws.EncodeFits.idot8 (f : BitVec 2) (o : A3) : Sys2Proof.Laws.EncodeFits.Statement (.idot8 f o) :=
  fits_of rfl (fits_encA (by decide) (by omega))

theorem Sys2Proof.Laws.EncodeFits.idot8s (f : BitVec 2) (o : A3) : Sys2Proof.Laws.EncodeFits.Statement (.idot8s f o) :=
  fits_of rfl (fits_encA (by decide) (by omega))

theorem Sys2Proof.Laws.EncodeFits.br (off : BitVec 18) : Sys2Proof.Laws.EncodeFits.Statement (.br off) :=
  fits_of rfl (fits_encWB (by decide) (by omega) (by omega))

theorem Sys2Proof.Laws.EncodeFits.brc (off : BitVec 18) (sense : Bool) (k : BitVec 3) : Sys2Proof.Laws.EncodeFits.Statement (.brc off sense k) :=
  fits_of rfl (by have := b2n_le sense; exact fits_encWB (by decide) (by omega) (by omega))

theorem Sys2Proof.Laws.EncodeFits.brloop (off : BitVec 18) (w : BitVec 5) : Sys2Proof.Laws.EncodeFits.Statement (.brloop off w) :=
  fits_of rfl (fits_encWB (by decide) (by omega) (by omega))

theorem Sys2Proof.Laws.EncodeFits.call (off : BitVec 18) : Sys2Proof.Laws.EncodeFits.Statement (.call off) :=
  fits_of rfl (fits_encWB (by decide) (by omega) (by omega))

theorem Sys2Proof.Laws.EncodeFits.lshf (f : BitVec 2) (o : A3) : Sys2Proof.Laws.EncodeFits.Statement (.lshf f o) :=
  fits_of rfl (fits_encA (by decide) (by omega))

theorem Sys2Proof.Laws.EncodeFits.lred (f : BitVec 2) (o : A3) : Sys2Proof.Laws.EncodeFits.Statement (.lred f o) :=
  fits_of rfl (fits_encA (by decide) (by omega))

theorem Sys2Proof.Laws.EncodeFits.lscan (f : BitVec 2) (o : A3) : Sys2Proof.Laws.EncodeFits.Statement (.lscan f o) :=
  fits_of rfl (fits_encA (by decide) (by omega))

theorem Sys2Proof.Laws.EncodeFits.vote (f : BitVec 2) (k : BitVec 3) (d : BitVec 7) : Sys2Proof.Laws.EncodeFits.Statement (.vote f k d) :=
  fits_of rfl (.inr ⟨rfl, by omega, by omega⟩)

theorem Sys2Proof.Laws.EncodeFits.fadd (o : A3) : Sys2Proof.Laws.EncodeFits.Statement (.fadd o) := fits_of rfl (fits_encA (by decide) (by omega))

theorem Sys2Proof.Laws.EncodeFits.fsub (o : A3) : Sys2Proof.Laws.EncodeFits.Statement (.fsub o) := fits_of rfl (fits_encA (by decide) (by omega))

theorem Sys2Proof.Laws.EncodeFits.fmul (o : A3) : Sys2Proof.Laws.EncodeFits.Statement (.fmul o) := fits_of rfl (fits_encA (by decide) (by omega))

theorem Sys2Proof.Laws.EncodeFits.ffma (o : A3) : Sys2Proof.Laws.EncodeFits.Statement (.ffma o) := fits_of rfl (fits_encA (by decide) (by omega))

theorem Sys2Proof.Laws.EncodeFits.ffms (o : A3) : Sys2Proof.Laws.EncodeFits.Statement (.ffms o) := fits_of rfl (fits_encA (by decide) (by omega))

theorem Sys2Proof.Laws.EncodeFits.fnma (o : A3) : Sys2Proof.Laws.EncodeFits.Statement (.fnma o) := fits_of rfl (fits_encA (by decide) (by omega))

theorem Sys2Proof.Laws.EncodeFits.fmin (o : A3) : Sys2Proof.Laws.EncodeFits.Statement (.fmin o) := fits_of rfl (fits_encA (by decide) (by omega))

theorem Sys2Proof.Laws.EncodeFits.fmax (o : A3) : Sys2Proof.Laws.EncodeFits.Statement (.fmax o) := fits_of rfl (fits_encA (by decide) (by omega))

theorem Sys2Proof.Laws.EncodeFits.fcmp (o : CmpOps) : Sys2Proof.Laws.EncodeFits.Statement (.fcmp o) := fits_of rfl (fits_encCmp (by decide))

theorem Sys2Proof.Laws.EncodeFits.frnd (f : BitVec 2) (o : A2) : Sys2Proof.Laws.EncodeFits.Statement (.frnd f o) :=
  fits_of rfl (fits_encAb (by decide) (by omega) (by omega))

theorem Sys2Proof.Laws.EncodeFits.fspec (fn : BitVec 3) (o : A2) : Sys2Proof.Laws.EncodeFits.Statement (.fspec fn o) :=
  fits_of rfl (fits_encAb (by decide) (by omega) (by omega))

theorem Sys2Proof.Laws.EncodeFits.cvtf (f : BitVec 2) (code : BitVec 7) (o : A2) : Sys2Proof.Laws.EncodeFits.Statement (.cvtf f code o) :=
  fits_of rfl (fits_encAb (by decide) (by omega) (by omega))

theorem Sys2Proof.Laws.EncodeFits.fdot (f : BitVec 2) (o : A3) : Sys2Proof.Laws.EncodeFits.Statement (.fdot f o) :=
  fits_of rfl (fits_encA (by decide) (by omega))

theorem Sys2Proof.Laws.EncodeFits.pack (f : BitVec 2) (o : A3) : Sys2Proof.Laws.EncodeFits.Statement (.pack f o) :=
  fits_of rfl (fits_encA (by decide) (by omega))

theorem Sys2Proof.Laws.EncodeFits.unpack (f : BitVec 2) (o : A3) : Sys2Proof.Laws.EncodeFits.Statement (.unpack f o) :=
  fits_of rfl (fits_encA (by decide) (by omega))

theorem Sys2Proof.Laws.EncodeFits.fscale (f : BitVec 2) (o : A3) : Sys2Proof.Laws.EncodeFits.Statement (.fscale f o) :=
  fits_of rfl (fits_encA (by decide) (by omega))

theorem Sys2Proof.Laws.EncodeFits.mloop (m z : Bool) (cnt : BitVec 5) (tB tA : BitVec 4) (acc : BitVec 6) : Sys2Proof.Laws.EncodeFits.Statement (.mloop m z cnt tB tA acc) :=
  fits_of rfl (by have := b2n_le m; have := b2n_le z; exact .inr ⟨rfl, by omega, by omega⟩)

theorem Sys2Proof.Laws.EncodeFits.mzero (acc : BitVec 6) : Sys2Proof.Laws.EncodeFits.Statement (.mzero acc) :=
  fits_of rfl (by apply fits_encO <;> omega)

theorem Sys2Proof.Laws.EncodeFits.mload (acc : BitVec 6) (t : BitVec 4) : Sys2Proof.Laws.EncodeFits.Statement (.mload acc t) :=
  fits_of rfl (by apply fits_encO <;> omega)

theorem Sys2Proof.Laws.EncodeFits.mstore (t : BitVec 4) (acc : BitVec 6) : Sys2Proof.Laws.EncodeFits.Statement (.mstore t acc) :=
  fits_of rfl (by apply fits_encO <;> omega)

theorem Sys2Proof.Laws.EncodeFits.mread (d : BitVec 7) (acc : BitVec 6) (e : BitVec 5) : Sys2Proof.Laws.EncodeFits.Statement (.mread d acc e) :=
  fits_of rfl (by have h0 := u7_lt e; apply fits_encO <;> omega)

theorem Sys2Proof.Laws.EncodeFits.mwrite (acc : BitVec 6) (e : BitVec 5) (d : BitVec 7) : Sys2Proof.Laws.EncodeFits.Statement (.mwrite acc e d) :=
  fits_of rfl (by have h0 := u7_lt e; apply fits_encO <;> omega)

theorem Sys2Proof.Laws.EncodeFits.mwait (all : Bool) (acc : BitVec 6) : Sys2Proof.Laws.EncodeFits.Statement (.mwait all acc) :=
  fits_of rfl (by have h0 := b2n_le all; apply fits_encO <;> omega)

theorem Sys2Proof.Laws.EncodeFits.tset (t : BitVec 4) (fld : BitVec 4) (s : BitVec 5) : Sys2Proof.Laws.EncodeFits.Statement (.tset t fld s) :=
  fits_of rfl (by have h0 := u7_lt s; apply fits_encO <;> omega)

theorem Sys2Proof.Laws.EncodeFits.tget (d : BitVec 5) (t : BitVec 4) (fld : BitVec 4) : Sys2Proof.Laws.EncodeFits.Statement (.tget d t fld) :=
  fits_of rfl (by have h0 := u7_lt d; apply fits_encO <;> omega)

theorem Sys2Proof.Laws.EncodeFits.tclr (t : BitVec 4) : Sys2Proof.Laws.EncodeFits.Statement (.tclr t) := fits_of rfl (by apply fits_encO <;> omega)

theorem Sys2Proof.Laws.EncodeFits.mprojC (acc : BitVec 6) (tA tB menu : BitVec 4) : Sys2Proof.Laws.EncodeFits.Statement (.mprojC acc tA tB menu) :=
  fits_of rfl (by apply fits_encO <;> omega)

theorem Sys2Proof.Laws.EncodeFits.mprojS (acc : BitVec 6) (tA tB menu : BitVec 4) : Sys2Proof.Laws.EncodeFits.Statement (.mprojS acc tA tB menu) :=
  fits_of rfl (by apply fits_encO <;> omega)

theorem Sys2Proof.Laws.EncodeFits.drawcfg (s : BitVec 5) : Sys2Proof.Laws.EncodeFits.Statement (.drawcfg s) :=
  fits_of rfl (by have h0 := u7_lt s; apply fits_encO <;> omega)

theorem Sys2Proof.Laws.EncodeFits.draw (d : BitVec 5) (acc : BitVec 6) (e : BitVec 5) : Sys2Proof.Laws.EncodeFits.Statement (.draw d acc e) :=
  fits_of rfl (by have h0 := u7_lt d; have h1 := u7_lt e; apply fits_encO <;> omega)

theorem Sys2Proof.Laws.EncodeFits.deliver (m : BitVec 5) (t : BitVec 5) : Sys2Proof.Laws.EncodeFits.Statement (.deliver m t) :=
  fits_of rfl (by have h0 := u7_lt m; have h1 := u7_lt t; apply fits_encO <;> omega)

theorem Sys2Proof.Laws.EncodeFits.drawseed (s : BitVec 5) : Sys2Proof.Laws.EncodeFits.Statement (.drawseed s) :=
  fits_of rfl (by have h0 := u7_lt s; apply fits_encO <;> omega)

theorem Sys2Proof.Laws.EncodeFits.ld (o : MemOps) : Sys2Proof.Laws.EncodeFits.Statement (.ld o) := fits_of rfl (fits_encM (by decide))

theorem Sys2Proof.Laws.EncodeFits.st (o : MemOps) : Sys2Proof.Laws.EncodeFits.Statement (.st o) := fits_of rfl (fits_encM (by decide))

theorem Sys2Proof.Laws.EncodeFits.lds (o : MemOps) : Sys2Proof.Laws.EncodeFits.Statement (.lds o) := fits_of rfl (fits_encM (by decide))

theorem Sys2Proof.Laws.EncodeFits.sts (o : MemOps) : Sys2Proof.Laws.EncodeFits.Statement (.sts o) := fits_of rfl (fits_encM (by decide))

theorem Sys2Proof.Laws.EncodeFits.atom (op : BitVec 4) (scope : BitVec 2) (e : BitVec 5) (x d : BitVec 7) : Sys2Proof.Laws.EncodeFits.Statement (.atom op scope e x d) :=
  fits_of rfl (by have h0 := u7_lt e; apply fits_encO <;> omega)

theorem Sys2Proof.Laws.EncodeFits.atoms (op : BitVec 4) (e : BitVec 5) (x d : BitVec 7) : Sys2Proof.Laws.EncodeFits.Statement (.atoms op e x d) :=
  fits_of rfl (by have h0 := u7_lt e; apply fits_encO <;> omega)

theorem Sys2Proof.Laws.EncodeFits.ldvM (n : BitVec 4) (e : BitVec 5) (x d : BitVec 7) : Sys2Proof.Laws.EncodeFits.Statement (.ldvM n e x d) :=
  fits_of rfl (by have h0 := u7_lt e; apply fits_encO <;> omega)

theorem Sys2Proof.Laws.EncodeFits.stvM (n : BitVec 4) (e : BitVec 5) (x d : BitVec 7) : Sys2Proof.Laws.EncodeFits.Statement (.stvM n e x d) :=
  fits_of rfl (by have h0 := u7_lt e; apply fits_encO <;> omega)

theorem Sys2Proof.Laws.EncodeFits.phaseP (scope : BitVec 2) : Sys2Proof.Laws.EncodeFits.Statement (.phaseP scope) :=
  fits_of rfl (by apply fits_encO <;> omega)

theorem Sys2Proof.Laws.EncodeFits.phaseR (scope : BitVec 2) : Sys2Proof.Laws.EncodeFits.Statement (.phaseR scope) :=
  fits_of rfl (by apply fits_encO <;> omega)

theorem Sys2Proof.Laws.EncodeFits.phase (scope : BitVec 2) : Sys2Proof.Laws.EncodeFits.Statement (.phase scope) :=
  fits_of rfl (by apply fits_encO <;> omega)

theorem Sys2Proof.Laws.EncodeFits.waitm (d : Option (BitVec 5)) (e t : BitVec 5) : Sys2Proof.Laws.EncodeFits.Statement (.waitm d e t) :=
  fits_of rfl (by have h0 := ou7_lt d; have h1 := u7_lt e; have h2 := u7_lt t; apply fits_encO <;> omega)

theorem Sys2Proof.Laws.EncodeFits.smap (o g l : BitVec 5) : Sys2Proof.Laws.EncodeFits.Statement (.smap o g l) :=
  fits_of rfl (by have h0 := u7_lt o; have h1 := u7_lt g; have h2 := u7_lt l; apply fits_encO <;> omega)

theorem Sys2Proof.Laws.EncodeFits.sunmap (o : BitVec 5) : Sys2Proof.Laws.EncodeFits.Statement (.sunmap o) :=
  fits_of rfl (by have h0 := u7_lt o; apply fits_encO <;> omega)

theorem Sys2Proof.Laws.EncodeFits.sflush (o : BitVec 5) : Sys2Proof.Laws.EncodeFits.Statement (.sflush o) :=
  fits_of rfl (by have h0 := u7_lt o; apply fits_encO <;> omega)

theorem Sys2Proof.Laws.EncodeFits.prefetch (l2 : Bool) (e : BitVec 5) (x : BitVec 7) : Sys2Proof.Laws.EncodeFits.Statement (.prefetch l2 e x) :=
  fits_of rfl (by have h0 := b2n_le l2; have h1 := u7_lt e; apply fits_encO <;> omega)

theorem Sys2Proof.Laws.EncodeFits.fenceS : Sys2Proof.Laws.EncodeFits.Statement .fenceS := fits_of rfl (by apply fits_encO <;> omega)

theorem Sys2Proof.Laws.EncodeFits.tcopy (t : BitVec 4) (g b : BitVec 5) : Sys2Proof.Laws.EncodeFits.Statement (.tcopy t g b) :=
  fits_of rfl (by have h0 := u7_lt g; have h1 := u7_lt b; apply fits_encO <;> omega)

theorem Sys2Proof.Laws.EncodeFits.tstore (t : BitVec 4) (g b : BitVec 5) : Sys2Proof.Laws.EncodeFits.Statement (.tstore t g b) :=
  fits_of rfl (by have h0 := u7_lt g; have h1 := u7_lt b; apply fits_encO <;> omega)

theorem Sys2Proof.Laws.EncodeFits.tstoreA (t : BitVec 4) (g b : BitVec 5) : Sys2Proof.Laws.EncodeFits.Statement (.tstoreA t g b) :=
  fits_of rfl (by have h0 := u7_lt g; have h1 := u7_lt b; apply fits_encO <;> omega)

theorem Sys2Proof.Laws.EncodeFits.tmcast (t : BitVec 4) (r b : BitVec 5) : Sys2Proof.Laws.EncodeFits.Statement (.tmcast t r b) :=
  fits_of rfl (by have h0 := u7_lt r; have h1 := u7_lt b; apply fits_encO <;> omega)

theorem Sys2Proof.Laws.EncodeFits.gather (t : BitVec 4) (g b : BitVec 5) : Sys2Proof.Laws.EncodeFits.Statement (.gather t g b) :=
  fits_of rfl (by have h0 := u7_lt g; have h1 := u7_lt b; apply fits_encO <;> omega)

theorem Sys2Proof.Laws.EncodeFits.own (t : BitVec 4) (engine : Bool) : Sys2Proof.Laws.EncodeFits.Statement (.own t engine) :=
  fits_of rfl (by have h0 := b2n_le engine; apply fits_encO <;> omega)

theorem Sys2Proof.Laws.EncodeFits.engineSub (r s : BitVec 5) : Sys2Proof.Laws.EncodeFits.Statement (.engineSub r s) :=
  fits_of rfl (by have h0 := u7_lt r; have h1 := u7_lt s; apply fits_encO <;> omega)

theorem Sys2Proof.Laws.EncodeFits.subend (r : BitVec 5) : Sys2Proof.Laws.EncodeFits.Statement (.subend r) :=
  fits_of rfl (by have h0 := u7_lt r; apply fits_encO <;> omega)

theorem Sys2Proof.Laws.EncodeFits.slotdone (r : BitVec 5) (x : BitVec 7) : Sys2Proof.Laws.EncodeFits.Statement (.slotdone r x) :=
  fits_of rfl (by have h0 := u7_lt r; apply fits_encO <;> omega)

theorem Sys2Proof.Laws.EncodeFits.kvmove (k p b : BitVec 5) : Sys2Proof.Laws.EncodeFits.Statement (.kvmove k p b) :=
  fits_of rfl (by have h0 := u7_lt k; have h1 := u7_lt p; have h2 := u7_lt b; apply fits_encO <;> omega)

theorem Sys2Proof.Laws.EncodeFits.barSync (b : BitVec 4) (n : BitVec 6) : Sys2Proof.Laws.EncodeFits.Statement (.barSync b n) :=
  fits_of rfl (by apply fits_encO <;> omega)

theorem Sys2Proof.Laws.EncodeFits.barArrive (b : BitVec 4) (n : BitVec 6) : Sys2Proof.Laws.EncodeFits.Statement (.barArrive b n) :=
  fits_of rfl (by apply fits_encO <;> omega)

theorem Sys2Proof.Laws.EncodeFits.barWait (b : BitVec 4) : Sys2Proof.Laws.EncodeFits.Statement (.barWait b) :=
  fits_of rfl (by apply fits_encO <;> omega)

theorem Sys2Proof.Laws.EncodeFits.tbarInit (r a : BitVec 5) : Sys2Proof.Laws.EncodeFits.Statement (.tbarInit r a) :=
  fits_of rfl (by have h0 := u7_lt r; have h1 := u7_lt a; apply fits_encO <;> omega)

theorem Sys2Proof.Laws.EncodeFits.tbarExpect (s a : BitVec 5) : Sys2Proof.Laws.EncodeFits.Statement (.tbarExpect s a) :=
  fits_of rfl (by have h0 := u7_lt s; have h1 := u7_lt a; apply fits_encO <;> omega)

theorem Sys2Proof.Laws.EncodeFits.tbarArrive (d : Option (BitVec 5)) (a : BitVec 5) : Sys2Proof.Laws.EncodeFits.Statement (.tbarArrive d a) :=
  fits_of rfl (by have h0 := ou7_lt d; have h1 := u7_lt a; apply fits_encO <;> omega)

theorem Sys2Proof.Laws.EncodeFits.tbarWait (d : Option (BitVec 5)) (p a : BitVec 5) : Sys2Proof.Laws.EncodeFits.Statement (.tbarWait d p a) :=
  fits_of rfl (by have h0 := ou7_lt d; have h1 := u7_lt p; have h2 := u7_lt a; apply fits_encO <;> omega)

theorem Sys2Proof.Laws.EncodeFits.tbarAck (s a : BitVec 5) : Sys2Proof.Laws.EncodeFits.Statement (.tbarAck s a) :=
  fits_of rfl (by have h0 := u7_lt s; have h1 := u7_lt a; apply fits_encO <;> omega)

theorem Sys2Proof.Laws.EncodeFits.joinArm (d : Option (BitVec 5)) (p j : BitVec 5) : Sys2Proof.Laws.EncodeFits.Statement (.joinArm d p j) :=
  fits_of rfl (by have h0 := ou7_lt d; have h1 := u7_lt p; have h2 := u7_lt j; apply fits_encO <;> omega)

theorem Sys2Proof.Laws.EncodeFits.joinArrive (i : BitVec 5) (c : BitVec 7) (j : BitVec 5) : Sys2Proof.Laws.EncodeFits.Statement (.joinArrive i c j) :=
  fits_of rfl (by have h0 := u7_lt i; have h1 := u7_lt j; apply fits_encO <;> omega)

theorem Sys2Proof.Laws.EncodeFits.joinWait (j : BitVec 5) : Sys2Proof.Laws.EncodeFits.Statement (.joinWait j) :=
  fits_of rfl (by have h0 := u7_lt j; apply fits_encO <;> omega)

theorem Sys2Proof.Laws.EncodeFits.joinRead (d : BitVec 5) (sel : BitVec 2) (j : BitVec 5) : Sys2Proof.Laws.EncodeFits.Statement (.joinRead d sel j) :=
  fits_of rfl (by have h0 := u7_lt d; have h1 := u7_lt j; apply fits_encO <;> omega)

theorem Sys2Proof.Laws.EncodeFits.joinCancel (j : BitVec 5) : Sys2Proof.Laws.EncodeFits.Statement (.joinCancel j) :=
  fits_of rfl (by have h0 := u7_lt j; apply fits_encO <;> omega)

theorem Sys2Proof.Laws.EncodeFits.killoff : Sys2Proof.Laws.EncodeFits.Statement .killoff := fits_of rfl (by apply fits_encO <;> omega)

theorem Sys2Proof.Laws.EncodeFits.killon : Sys2Proof.Laws.EncodeFits.Statement .killon := fits_of rfl (by apply fits_encO <;> omega)

theorem Sys2Proof.Laws.EncodeFits.enq (k : BitVec 3) (q r : BitVec 5) : Sys2Proof.Laws.EncodeFits.Statement (.enq k q r) :=
  fits_of rfl (by have h0 := u7_lt q; have h1 := u7_lt r; apply fits_encO <;> omega)

theorem Sys2Proof.Laws.EncodeFits.spawn (k : BitVec 3) (r : BitVec 5) : Sys2Proof.Laws.EncodeFits.Statement (.spawn k r) :=
  fits_of rfl (by have h0 := u7_lt r; apply fits_encO <;> omega)

theorem Sys2Proof.Laws.EncodeFits.launch (k : BitVec 3) (q r : BitVec 5) : Sys2Proof.Laws.EncodeFits.Statement (.launch k q r) :=
  fits_of rfl (by have h0 := u7_lt q; have h1 := u7_lt r; apply fits_encO <;> omega)

theorem Sys2Proof.Laws.EncodeFits.gpset (g : BitVec 5) (n : BitVec 4) (s : BitVec 5) : Sys2Proof.Laws.EncodeFits.Statement (.gpset g n s) :=
  fits_of rfl (by have h0 := u7_lt g; have h1 := u7_lt s; apply fits_encO <;> omega)

theorem Sys2Proof.Laws.EncodeFits.gpget (d g : BitVec 5) (n : BitVec 4) : Sys2Proof.Laws.EncodeFits.Statement (.gpget d g n) :=
  fits_of rfl (by have h0 := u7_lt d; have h1 := u7_lt g; apply fits_encO <;> omega)

theorem Sys2Proof.Laws.EncodeFits.greplay (k : BitVec 3) (g : BitVec 5) : Sys2Proof.Laws.EncodeFits.Statement (.greplay k g) :=
  fits_of rfl (by have h0 := u7_lt g; apply fits_encO <;> omega)

theorem Sys2Proof.Laws.EncodeFits.ovload (d : BitVec 5) (idx : BitVec 7) : Sys2Proof.Laws.EncodeFits.Statement (.ovload d idx) :=
  fits_of rfl (by have h0 := u7_lt d; apply fits_encO <;> omega)

theorem Sys2Proof.Laws.EncodeFits.ovcall (t : BitVec 5) (entry : BitVec 7) : Sys2Proof.Laws.EncodeFits.Statement (.ovcall t entry) :=
  fits_of rfl (by have h0 := u7_lt t; apply fits_encO <;> omega)

theorem Sys2Proof.Laws.EncodeFits.ovjump (t : BitVec 5) (entry : BitVec 7) : Sys2Proof.Laws.EncodeFits.Statement (.ovjump t entry) :=
  fits_of rfl (by have h0 := u7_lt t; apply fits_encO <;> omega)

theorem Sys2Proof.Laws.EncodeFits.ret : Sys2Proof.Laws.EncodeFits.Statement .ret := fits_of rfl (by apply fits_encO <;> omega)

theorem Sys2Proof.Laws.EncodeFits.ovpin (t : BitVec 5) : Sys2Proof.Laws.EncodeFits.Statement (.ovpin t) :=
  fits_of rfl (by have h0 := u7_lt t; apply fits_encO <;> omega)

theorem Sys2Proof.Laws.EncodeFits.ovunpin (t : BitVec 5) : Sys2Proof.Laws.EncodeFits.Statement (.ovunpin t) :=
  fits_of rfl (by have h0 := u7_lt t; apply fits_encO <;> omega)

theorem Sys2Proof.Laws.EncodeFits.ovdrop (t : BitVec 5) : Sys2Proof.Laws.EncodeFits.Statement (.ovdrop t) :=
  fits_of rfl (by have h0 := u7_lt t; apply fits_encO <;> omega)

theorem Sys2Proof.Laws.EncodeFits.ovquery (d t : BitVec 5) : Sys2Proof.Laws.EncodeFits.Statement (.ovquery d t) :=
  fits_of rfl (by have h0 := u7_lt d; have h1 := u7_lt t; apply fits_encO <;> omega)

theorem Sys2Proof.Laws.EncodeFits.exit : Sys2Proof.Laws.EncodeFits.Statement .exit := fits_of rfl (by apply fits_encO <;> omega)

theorem Sys2Proof.Laws.EncodeFits.trap (code : BitVec 7) : Sys2Proof.Laws.EncodeFits.Statement (.trap code) :=
  fits_of rfl (by apply fits_encO <;> omega)

theorem Sys2Proof.Laws.EncodeFits.rth : Sys2Proof.Laws.EncodeFits.Statement .rth := fits_of rfl (by apply fits_encO <;> omega)

theorem Sys2Proof.Laws.EncodeFits.nret : Sys2Proof.Laws.EncodeFits.Statement .nret := fits_of rfl (by apply fits_encO <;> omega)

theorem Sys2Proof.Laws.EncodeFits.yield : Sys2Proof.Laws.EncodeFits.Statement .yield := fits_of rfl (by apply fits_encO <;> omega)

theorem Sys2Proof.Laws.EncodeFits.nop : Sys2Proof.Laws.EncodeFits.Statement .nop := fits_of rfl (by apply fits_encO <;> omega)

theorem Sys2Proof.Laws.EncodeFits.srd (d : BitVec 7) (sel : BitVec 7) : Sys2Proof.Laws.EncodeFits.Statement (.srd d sel) :=
  fits_of rfl (by apply fits_encO <;> omega)

theorem Sys2Proof.Laws.EncodeFits.swr (sel : BitVec 7) (s : BitVec 5) : Sys2Proof.Laws.EncodeFits.Statement (.swr sel s) :=
  fits_of rfl (by have h0 := u7_lt s; apply fits_encO <;> omega)

theorem Sys2Proof.Laws.EncodeFits.reclaimTake (d c l : BitVec 5) : Sys2Proof.Laws.EncodeFits.Statement (.reclaimTake d c l) :=
  fits_of rfl (by have h0 := u7_lt d; have h1 := u7_lt c; have h2 := u7_lt l; apply fits_encO <;> omega)

theorem Sys2Proof.Laws.EncodeFits.reclaimGive (d c l : BitVec 5) : Sys2Proof.Laws.EncodeFits.Statement (.reclaimGive d c l) :=
  fits_of rfl (by have h0 := u7_lt d; have h1 := u7_lt c; have h2 := u7_lt l; apply fits_encO <;> omega)

theorem Sys2Proof.Laws.EncodeFits.resume (kill : Bool) (d h : BitVec 5) : Sys2Proof.Laws.EncodeFits.Statement (.resume kill d h) :=
  fits_of rfl (by have h0 := b2n_le kill; have h1 := u7_lt d; have h2 := u7_lt h; apply fits_encO <;> omega)

theorem Sys2Proof.Laws.EncodeFits.tlbinv (a c : BitVec 5) : Sys2Proof.Laws.EncodeFits.Statement (.tlbinv a c) :=
  fits_of rfl (by have h0 := u7_lt a; have h1 := u7_lt c; apply fits_encO <;> omega)

theorem Sys2Proof.Laws.EncodeFits.pgquery (d a : BitVec 5) (c : Option (BitVec 5)) : Sys2Proof.Laws.EncodeFits.Statement (.pgquery d a c) :=
  fits_of rfl (by have h0 := u7_lt d; have h1 := u7_lt a; have h2 := ou7_lt c; apply fits_encO <;> omega)

theorem Sys2Proof.Laws.EncodeFits.pwrreq (d : Option (BitVec 5)) (t : BitVec 5) : Sys2Proof.Laws.EncodeFits.Statement (.pwrreq d t) :=
  fits_of rfl (by have h0 := ou7_lt d; have h1 := u7_lt t; apply fits_encO <;> omega)

theorem Sys2Proof.Laws.EncodeFits.ctxopQuery (d s : BitVec 5) : Sys2Proof.Laws.EncodeFits.Statement (.ctxopQuery d s) :=
  fits_of rfl (by have h0 := u7_lt d; have h1 := u7_lt s; apply fits_encO <;> omega)

theorem Sys2Proof.Laws.EncodeFits.ctxopSwout (d s : BitVec 5) : Sys2Proof.Laws.EncodeFits.Statement (.ctxopSwout d s) :=
  fits_of rfl (by have h0 := u7_lt d; have h1 := u7_lt s; apply fits_encO <;> omega)

theorem Sys2Proof.Laws.EncodeFits.ctxopSwin (d s : BitVec 5) : Sys2Proof.Laws.EncodeFits.Statement (.ctxopSwin d s) :=
  fits_of rfl (by have h0 := u7_lt d; have h1 := u7_lt s; apply fits_encO <;> omega)

theorem Sys2Proof.Laws.EncodeFits.halt : Sys2Proof.Laws.EncodeFits.Statement .halt := fits_of rfl (by apply fits_encO <;> omega)

theorem Sys2Proof.Laws.EncodeFits.dict (i : BitVec 10) : Sys2Proof.Laws.EncodeFits.Statement (.dict i) := fits_of rfl (.inl ⟨rfl, by omega, by omega⟩)

theorem Sys2Proof.Laws.EncodeFits.movH (b d : BitVec 5) : Sys2Proof.Laws.EncodeFits.Statement (.movH b d) := fits_of rfl (fits_encH (by decide))

theorem Sys2Proof.Laws.EncodeFits.addH (b d : BitVec 5) : Sys2Proof.Laws.EncodeFits.Statement (.addH b d) := fits_of rfl (fits_encH (by decide))

theorem Sys2Proof.Laws.EncodeFits.subH (b d : BitVec 5) : Sys2Proof.Laws.EncodeFits.Statement (.subH b d) := fits_of rfl (fits_encH (by decide))

theorem Sys2Proof.Laws.EncodeFits.mulH (b d : BitVec 5) : Sys2Proof.Laws.EncodeFits.Statement (.mulH b d) := fits_of rfl (fits_encH (by decide))

theorem Sys2Proof.Laws.EncodeFits.andH (b d : BitVec 5) : Sys2Proof.Laws.EncodeFits.Statement (.andH b d) := fits_of rfl (fits_encH (by decide))

theorem Sys2Proof.Laws.EncodeFits.orH (b d : BitVec 5) : Sys2Proof.Laws.EncodeFits.Statement (.orH b d) := fits_of rfl (fits_encH (by decide))

theorem Sys2Proof.Laws.EncodeFits.xorH (b d : BitVec 5) : Sys2Proof.Laws.EncodeFits.Statement (.xorH b d) := fits_of rfl (fits_encH (by decide))

theorem Sys2Proof.Laws.EncodeFits.shlH (b d : BitVec 5) : Sys2Proof.Laws.EncodeFits.Statement (.shlH b d) := fits_of rfl (fits_encH (by decide))

theorem Sys2Proof.Laws.EncodeFits.shrH (b d : BitVec 5) : Sys2Proof.Laws.EncodeFits.Statement (.shrH b d) := fits_of rfl (fits_encH (by decide))

theorem Sys2Proof.Laws.EncodeFits.sarH (b d : BitVec 5) : Sys2Proof.Laws.EncodeFits.Statement (.sarH b d) := fits_of rfl (fits_encH (by decide))

theorem Sys2Proof.Laws.EncodeFits.minH (b d : BitVec 5) : Sys2Proof.Laws.EncodeFits.Statement (.minH b d) := fits_of rfl (fits_encH (by decide))

theorem Sys2Proof.Laws.EncodeFits.maxH (b d : BitVec 5) : Sys2Proof.Laws.EncodeFits.Statement (.maxH b d) := fits_of rfl (fits_encH (by decide))

theorem Sys2Proof.Laws.EncodeFits.faddH (b d : BitVec 5) : Sys2Proof.Laws.EncodeFits.Statement (.faddH b d) := fits_of rfl (fits_encH (by decide))

theorem Sys2Proof.Laws.EncodeFits.fsubH (b d : BitVec 5) : Sys2Proof.Laws.EncodeFits.Statement (.fsubH b d) := fits_of rfl (fits_encH (by decide))

theorem Sys2Proof.Laws.EncodeFits.fmulH (b d : BitVec 5) : Sys2Proof.Laws.EncodeFits.Statement (.fmulH b d) := fits_of rfl (fits_encH (by decide))

theorem Sys2Proof.Laws.EncodeFits.fmaxH (b d : BitVec 5) : Sys2Proof.Laws.EncodeFits.Statement (.fmaxH b d) := fits_of rfl (fits_encH (by decide))

theorem Sys2Proof.Laws.EncodeFits.openCtx (h : Hdr) (b : OpenBody) : Sys2Proof.Laws.EncodeFits.Statement (.openCtx h b) := fits_none rfl

theorem Sys2Proof.Laws.EncodeFits.featans (h : Hdr) (f0 f1 f2 f3 : BitVec 32) : Sys2Proof.Laws.EncodeFits.Statement (.featans h f0 f1 f2 f3) :=
  fits_none rfl

theorem Sys2Proof.Laws.EncodeFits.setquota (h : Hdr) (b : QuotaBody) : Sys2Proof.Laws.EncodeFits.Statement (.setquota h b) := fits_none rfl

theorem Sys2Proof.Laws.EncodeFits.close (h : Hdr) : Sys2Proof.Laws.EncodeFits.Statement (.close h) := fits_none rfl

theorem Sys2Proof.Laws.EncodeFits.swout (h : Hdr) : Sys2Proof.Laws.EncodeFits.Statement (.swout h) := fits_none rfl

theorem Sys2Proof.Laws.EncodeFits.swin (h : Hdr) : Sys2Proof.Laws.EncodeFits.Statement (.swin h) := fits_none rfl

theorem Sys2Proof.Laws.EncodeFits.mappg (h : Hdr) (va entry : BitVec 64) (level : Nat) (zeroFill : Bool) : Sys2Proof.Laws.EncodeFits.Statement (.mappg h va entry level zeroFill) :=
  fits_none rfl

theorem Sys2Proof.Laws.EncodeFits.rmtset (h : Hdr) (index : BitVec 32) (entry : BitVec 512) : Sys2Proof.Laws.EncodeFits.Statement (.rmtset h index entry) :=
  fits_none rfl

theorem Sys2Proof.Laws.EncodeFits.loadk (h : Hdr) (addr : BitVec 64) (size : Nat) : Sys2Proof.Laws.EncodeFits.Statement (.loadk h addr size) :=
  fits_none rfl

theorem Sys2Proof.Laws.EncodeFits.readyk (h : Hdr) (kid : Nat) : Sys2Proof.Laws.EncodeFits.Statement (.readyk h kid) := fits_none rfl

theorem Sys2Proof.Laws.EncodeFits.unloadk (h : Hdr) (kid : Nat) : Sys2Proof.Laws.EncodeFits.Statement (.unloadk h kid) := fits_none rfl

theorem Sys2Proof.Laws.EncodeFits.launchk (h : Hdr) (qid : Nat) (teams : Nat) (rec : TaskRec) : Sys2Proof.Laws.EncodeFits.Statement (.launchk h qid teams rec) :=
  fits_none rfl

theorem Sys2Proof.Laws.EncodeFits.killt (h : Hdr) (handle : BitVec 64) (grid : Bool) : Sys2Proof.Laws.EncodeFits.Statement (.killt h handle grid) :=
  fits_none rfl

theorem Sys2Proof.Laws.EncodeFits.resumeg (h : Hdr) (handle : BitVec 64) (kill : Bool) : Sys2Proof.Laws.EncodeFits.Statement (.resumeg h handle kill) :=
  fits_none rfl

theorem Sys2Proof.Laws.EncodeFits.startcg (h : Hdr) (core : Nat) (kid : Nat) (rec : TaskRec) : Sys2Proof.Laws.EncodeFits.Statement (.startcg h core kid rec) :=
  fits_none rfl

theorem Sys2Proof.Laws.EncodeFits.createq (h : Hdr) (qid : Nat) (ovf ovfsz : BitVec 64) (mask : BitVec 576) : Sys2Proof.Laws.EncodeFits.Statement (.createq h qid ovf ovfsz mask) :=
  fits_none rfl

theorem Sys2Proof.Laws.EncodeFits.start (h : Hdr) (qid : Nat) : Sys2Proof.Laws.EncodeFits.Statement (.start h qid) := fits_none rfl

theorem Sys2Proof.Laws.EncodeFits.pause (h : Hdr) (qid : Nat) : Sys2Proof.Laws.EncodeFits.Statement (.pause h qid) := fits_none rfl

theorem Sys2Proof.Laws.EncodeFits.drain (h : Hdr) (qid : Nat) : Sys2Proof.Laws.EncodeFits.Statement (.drain h qid) := fits_none rfl

theorem Sys2Proof.Laws.EncodeFits.discard (h : Hdr) (qid : Nat) : Sys2Proof.Laws.EncodeFits.Statement (.discard h qid) := fits_none rfl

theorem Sys2Proof.Laws.EncodeFits.setmask (h : Hdr) (qid : Nat) (mask : BitVec 576) : Sys2Proof.Laws.EncodeFits.Statement (.setmask h qid mask) :=
  fits_none rfl

theorem Sys2Proof.Laws.EncodeFits.queryq (h : Hdr) (qid seg slot : Nat) : Sys2Proof.Laws.EncodeFits.Statement (.queryq h qid seg slot) :=
  fits_none rfl

theorem Sys2Proof.Laws.EncodeFits.drifyEnq (h : Hdr) (qid : Nat) (teams : Nat) (rec : TaskRec) : Sys2Proof.Laws.EncodeFits.Statement (.drifyEnq h qid teams rec) :=
  fits_none rfl

theorem Sys2Proof.Laws.EncodeFits.recordg (h : Hdr) (gid count core : Nat) (addr : BitVec 64) : Sys2Proof.Laws.EncodeFits.Statement (.recordg h gid count core addr) :=
  fits_none rfl

theorem Sys2Proof.Laws.EncodeFits.freeg (h : Hdr) (gid : Nat) : Sys2Proof.Laws.EncodeFits.Statement (.freeg h gid) := fits_none rfl

theorem Sys2Proof.Laws.EncodeFits.replay (h : Hdr) (gid : Nat) (mask : BitVec 16) (gp : Vector (BitVec 64) 16) : Sys2Proof.Laws.EncodeFits.Statement (.replay h gid mask gp) :=
  fits_none rfl

theorem Sys2Proof.Laws.EncodeFits.portquery (h : Hdr) (link : Nat) : Sys2Proof.Laws.EncodeFits.Statement (.portquery h link) := fits_none rfl

theorem Sys2Proof.Laws.EncodeFits.portup (h : Hdr) (link : Nat) : Sys2Proof.Laws.EncodeFits.Statement (.portup h link) := fits_none rfl

theorem Sys2Proof.Laws.EncodeFits.portdrain (h : Hdr) (link : Nat) : Sys2Proof.Laws.EncodeFits.Statement (.portdrain h link) := fits_none rfl

theorem Sys2Proof.Laws.EncodeFits.setport (h : Hdr) (link : Nat) (ipv4 : BitVec 32) (ipv6 : BitVec 128) : Sys2Proof.Laws.EncodeFits.Statement (.setport h link ipv4 ipv6) :=
  fits_none rfl

theorem Sys2Proof.Laws.EncodeFits.attest (h : Hdr) (nonce : BitVec 384) : Sys2Proof.Laws.EncodeFits.Statement (.attest h nonce) := fits_none rfl

theorem Sys2Proof.Laws.EncodeFits.peerWrite (p : PeerHdr) (data : List (BitVec 8)) : Sys2Proof.Laws.EncodeFits.Statement (.peerWrite p data) :=
  fits_none rfl

theorem Sys2Proof.Laws.EncodeFits.peerRead (p : PeerHdr) (len : Nat) : Sys2Proof.Laws.EncodeFits.Statement (.peerRead p len) := fits_none rfl

theorem Sys2Proof.Laws.EncodeFits.peerFetchAdd (p : PeerHdr) (v : BitVec 64) : Sys2Proof.Laws.EncodeFits.Statement (.peerFetchAdd p v) :=
  fits_none rfl

theorem Sys2Proof.Laws.EncodeFits.peerCompareSwap (p : PeerHdr) (cmp new : BitVec 64) : Sys2Proof.Laws.EncodeFits.Statement (.peerCompareSwap p cmp new) :=
  fits_none rfl

theorem Sys2Proof.Laws.EncodeFits.remoteAck (id : Nat) (v : BitVec 128) : Sys2Proof.Laws.EncodeFits.Statement (.remoteAck id v) := fits_none rfl

theorem Sys2Proof.Laws.EncodeFits.linkTimeout (id : Nat) : Sys2Proof.Laws.EncodeFits.Statement (.linkTimeout id) := fits_none rfl

theorem Sys2Proof.Laws.EncodeFits.trained (link lanes : Nat) : Sys2Proof.Laws.EncodeFits.Statement (.trained link lanes) := fits_none rfl

theorem Sys2Proof.Laws.EncodeFits.trainFail (link : Nat) : Sys2Proof.Laws.EncodeFits.Statement (.trainFail link) := fits_none rfl

theorem Sys2Proof.Laws.EncodeFits.laneLoss (link lanes : Nat) : Sys2Proof.Laws.EncodeFits.Statement (.laneLoss link lanes) := fits_none rfl

theorem Sys2Proof.Laws.EncodeFits.laneRegain (link : Nat) : Sys2Proof.Laws.EncodeFits.Statement (.laneRegain link) := fits_none rfl

theorem Sys2Proof.Laws.EncodeFits.drained (link : Nat) : Sys2Proof.Laws.EncodeFits.Statement (.drained link) := fits_none rfl

theorem Sys2Proof.Laws.EncodeFits.signalLoss (link : Nat) : Sys2Proof.Laws.EncodeFits.Statement (.signalLoss link) := fits_none rfl

theorem Sys2Proof.Laws.EncodeFits.moduleReset : Sys2Proof.Laws.EncodeFits.Statement .moduleReset := fits_none rfl

theorem Sys2Proof.Laws.EncodeFits.bootStep (ok : Bool) : Sys2Proof.Laws.EncodeFits.Statement (.bootStep ok) := fits_none rfl

theorem Sys2Proof.Laws.EncodeFits.capChange (cluster cap : Nat) : Sys2Proof.Laws.EncodeFits.Statement (.capChange cluster cap) := fits_none rfl

theorem Sys2Proof.Laws.EncodeFits.opChangeStart (cluster : Nat) : Sys2Proof.Laws.EncodeFits.Statement (.opChangeStart cluster) := fits_none rfl

theorem Sys2Proof.Laws.EncodeFits.supplyRampDone (cluster : Nat) : Sys2Proof.Laws.EncodeFits.Statement (.supplyRampDone cluster) := fits_none rfl

theorem Sys2Proof.Laws.EncodeFits.relockDone (cluster : Nat) : Sys2Proof.Laws.EncodeFits.Statement (.relockDone cluster) := fits_none rfl

theorem Sys2Proof.Laws.EncodeFits.droopAlarm (cluster : Nat) : Sys2Proof.Laws.EncodeFits.Statement (.droopAlarm cluster) := fits_none rfl

theorem Sys2Proof.Laws.EncodeFits.droopStretchEnd (cluster : Nat) : Sys2Proof.Laws.EncodeFits.Statement (.droopStretchEnd cluster) := fits_none rfl

theorem Sys2Proof.Laws.EncodeFits.droopWindowEnd (cluster : Nat) : Sys2Proof.Laws.EncodeFits.Statement (.droopWindowEnd cluster) := fits_none rfl

theorem Sys2Proof.Laws.EncodeFits.releaseWave (cluster : Nat) : Sys2Proof.Laws.EncodeFits.Statement (.releaseWave cluster) := fits_none rfl

theorem Sys2Proof.Laws.EncodeFits.dispatch (qid seg slot core : Nat) (place : Placing) : Sys2Proof.Laws.EncodeFits.Statement (.dispatch qid seg slot core place) :=
  fits_none rfl

theorem Sys2Proof.Laws.EncodeFits.taskPromotion (qid seg slot : Nat) : Sys2Proof.Laws.EncodeFits.Statement (.taskPromotion qid seg slot) :=
  fits_none rfl

theorem Sys2Proof.Laws.EncodeFits.overflowRefill (qid seg : Nat) : Sys2Proof.Laws.EncodeFits.Statement (.overflowRefill qid seg) := fits_none rfl

theorem Sys2Proof.Laws.EncodeFits.graphTask (gid : Nat) : Sys2Proof.Laws.EncodeFits.Statement (.graphTask gid) := fits_none rfl

theorem Sys2Proof.Laws.EncodeFits.graphArm (gid : Nat) : Sys2Proof.Laws.EncodeFits.Statement (.graphArm gid) := fits_none rfl

theorem Sys2Proof.Laws.EncodeFits.graphWait (gid : Nat) : Sys2Proof.Laws.EncodeFits.Statement (.graphWait gid) := fits_none rfl

theorem Sys2Proof.Laws.EncodeFits.graphWrite (gid : Nat) : Sys2Proof.Laws.EncodeFits.Statement (.graphWrite gid) := fits_none rfl

theorem Sys2Proof.Laws.EncodeFits.graphEnd (gid : Nat) : Sys2Proof.Laws.EncodeFits.Statement (.graphEnd gid) := fits_none rfl

theorem Sys2Proof.Laws.EncodeFits.kernelRelease (kid core : Nat) : Sys2Proof.Laws.EncodeFits.Statement (.kernelRelease kid core) := fits_none rfl

theorem Sys2Proof.Laws.EncodeFits.teamRetire (team : Nat) : Sys2Proof.Laws.EncodeFits.Statement (.teamRetire team) := fits_none rfl

theorem Sys2Proof.Laws.EncodeFits.groupKill (g : Nat) : Sys2Proof.Laws.EncodeFits.Statement (.groupKill g) := fits_none rfl

theorem Sys2Proof.Laws.EncodeFits.killDeadline (g : Nat) : Sys2Proof.Laws.EncodeFits.Statement (.killDeadline g) := fits_none rfl

theorem Sys2Proof.Laws.EncodeFits.noticeDelivery (g : Nat) : Sys2Proof.Laws.EncodeFits.Statement (.noticeDelivery g) := fits_none rfl

theorem Sys2Proof.Laws.EncodeFits.groupExpand (g : Nat) : Sys2Proof.Laws.EncodeFits.Statement (.groupExpand g) := fits_none rfl

theorem Sys2Proof.Laws.EncodeFits.groupFold (g : Nat) : Sys2Proof.Laws.EncodeFits.Statement (.groupFold g) := fits_none rfl

theorem Sys2Proof.Laws.EncodeFits.registerFill (g name : Nat) : Sys2Proof.Laws.EncodeFits.Statement (.registerFill g name) := fits_none rfl

theorem Sys2Proof.Laws.EncodeFits.scratchFill (team line : Nat) : Sys2Proof.Laws.EncodeFits.Statement (.scratchFill team line) := fits_none rfl

theorem Sys2Proof.Laws.EncodeFits.overlayLoadDone (core ctx ov : Nat) (transit : Bool) : Sys2Proof.Laws.EncodeFits.Statement (.overlayLoadDone core ctx ov transit) :=
  fits_none rfl

theorem Sys2Proof.Laws.EncodeFits.overlayLoadFail (core ctx ov : Nat) (transit : Bool) : Sys2Proof.Laws.EncodeFits.Statement (.overlayLoadFail core ctx ov transit) :=
  fits_none rfl

theorem Sys2Proof.Laws.EncodeFits.overlayEvicted (core ctx ov : Nat) (transit : Bool) : Sys2Proof.Laws.EncodeFits.Statement (.overlayEvicted core ctx ov transit) :=
  fits_none rfl

theorem Sys2Proof.Laws.EncodeFits.transitSwap (core : Nat) : Sys2Proof.Laws.EncodeFits.Statement (.transitSwap core) := fits_none rfl

theorem Sys2Proof.Laws.EncodeFits.loadReturn (g n : Nat) : Sys2Proof.Laws.EncodeFits.Statement (.loadReturn g n) := fits_none rfl

theorem Sys2Proof.Laws.EncodeFits.publishComplete (g : Nat) : Sys2Proof.Laws.EncodeFits.Statement (.publishComplete g) := fits_none rfl

theorem Sys2Proof.Laws.EncodeFits.stashFillDone (team sector : Nat) : Sys2Proof.Laws.EncodeFits.Statement (.stashFillDone team sector) :=
  fits_none rfl

theorem Sys2Proof.Laws.EncodeFits.waitmWake (g code : Nat) : Sys2Proof.Laws.EncodeFits.Statement (.waitmWake g code) := fits_none rfl

theorem Sys2Proof.Laws.EncodeFits.waitmTimeout (g : Nat) : Sys2Proof.Laws.EncodeFits.Statement (.waitmTimeout g) := fits_none rfl

theorem Sys2Proof.Laws.EncodeFits.sequencerComplete (core : Nat) : Sys2Proof.Laws.EncodeFits.Statement (.sequencerComplete core) := fits_none rfl

theorem Sys2Proof.Laws.EncodeFits.engineAccept (core op : Nat) : Sys2Proof.Laws.EncodeFits.Statement (.engineAccept core op) := fits_none rfl

theorem Sys2Proof.Laws.EncodeFits.sectorLand (core op : Nat) : Sys2Proof.Laws.EncodeFits.Statement (.sectorLand core op) := fits_none rfl

theorem Sys2Proof.Laws.EncodeFits.lineComplete (core op line : Nat) : Sys2Proof.Laws.EncodeFits.Statement (.lineComplete core op line) :=
  fits_none rfl

theorem Sys2Proof.Laws.EncodeFits.engineComplete (core op : Nat) : Sys2Proof.Laws.EncodeFits.Statement (.engineComplete core op) := fits_none rfl

theorem Sys2Proof.Laws.EncodeFits.tmcastDelivery (core op : Nat) : Sys2Proof.Laws.EncodeFits.Statement (.tmcastDelivery core op) := fits_none rfl

theorem Sys2Proof.Laws.EncodeFits.ackReceive (n : Nat) : Sys2Proof.Laws.EncodeFits.Statement (.ackReceive n) := fits_none rfl

theorem Sys2Proof.Laws.EncodeFits.faultRetry (core op : Nat) : Sys2Proof.Laws.EncodeFits.Statement (.faultRetry core op) := fits_none rfl

theorem Sys2Proof.Laws.EncodeFits.fillStart (team ring : Nat) : Sys2Proof.Laws.EncodeFits.Statement (.fillStart team ring) := fits_none rfl

theorem Sys2Proof.Laws.EncodeFits.fillDone (core op : Nat) : Sys2Proof.Laws.EncodeFits.Statement (.fillDone core op) := fits_none rfl

theorem Sys2Proof.Laws.EncodeFits.drainStart (team ring slot : Nat) : Sys2Proof.Laws.EncodeFits.Statement (.drainStart team ring slot) :=
  fits_none rfl

theorem Sys2Proof.Laws.EncodeFits.drainDone (core op : Nat) : Sys2Proof.Laws.EncodeFits.Statement (.drainDone core op) := fits_none rfl

theorem Sys2Proof.Laws.EncodeFits.delivery (team row : Nat) : Sys2Proof.Laws.EncodeFits.Statement (.delivery team row) := fits_none rfl

theorem Sys2Proof.Laws.EncodeFits.deliveryRetry (team row : Nat) : Sys2Proof.Laws.EncodeFits.Statement (.deliveryRetry team row) := fits_none rfl

theorem Sys2Proof.Laws.EncodeFits.faultQueueRetry (ctx : Nat) : Sys2Proof.Laws.EncodeFits.Statement (.faultQueueRetry ctx) := fits_none rfl

theorem Sys2Proof.Laws.EncodeFits.switchOutStep (ctx : Nat) : Sys2Proof.Laws.EncodeFits.Statement (.switchOutStep ctx) := fits_none rfl

theorem Sys2Proof.Laws.EncodeFits.switchOutDone (ctx : Nat) : Sys2Proof.Laws.EncodeFits.Statement (.switchOutDone ctx) := fits_none rfl

theorem Sys2Proof.Laws.EncodeFits.restorePlace (ctx core : Nat) (place : Placing) : Sys2Proof.Laws.EncodeFits.Statement (.restorePlace ctx core place) :=
  fits_none rfl

theorem Sys2Proof.Laws.EncodeFits.closeDone (ctx : Nat) : Sys2Proof.Laws.EncodeFits.Statement (.closeDone ctx) := fits_none rfl

theorem Sys2Proof.Laws.EncodeFits.illegalInstruction (word : BitVec 32) : Sys2Proof.Laws.EncodeFits.Statement (.illegalInstruction word) :=
  fits_none rfl

theorem Sys2Proof.Laws.EncodeFits.overlayImageFault (off : BitVec 64) : Sys2Proof.Laws.EncodeFits.Statement (.overlayImageFault off) := fits_none rfl

theorem Sys2Proof.Laws.EncodeFits.badCommand (h : Hdr) (op : BitVec 16) : Sys2Proof.Laws.EncodeFits.Statement (.badCommand h op) := fits_none rfl

theorem Sys2Proof.Laws.EncodeFits.unsupportedOptionPacket (link : Nat) : Sys2Proof.Laws.EncodeFits.Statement (.unsupportedOptionPacket link) :=
  fits_none rfl

theorem Sys2Proof.Laws.EncodeFits.tssAssociation (assoc report : Nat) : Sys2Proof.Laws.EncodeFits.Statement (.tssAssociation assoc report) :=
  fits_none rfl

theorem Sys2Proof.Laws.EncodeFits.keystoneReadyToSign : Sys2Proof.Laws.EncodeFits.Statement .keystoneReadyToSign := fits_none rfl

theorem Sys2Proof.Laws.EncodeFits.spanFirmwareClusterSetting (cluster : Nat) (v : ClusterSetting) : Sys2Proof.Laws.EncodeFits.Statement (.spanFirmwareClusterSetting cluster v) :=
  fits_none rfl
end

