-- ==== Sys2Proof/Laws/Results.lean ====
section
/-! SUPPORT. What instructions that complete leave behind: lane masks, the rows of a vector instruction, the register of a uniform one,
and everything they leave alone. -/

namespace Sys2Proof.Machine

/-! ### Lane masks -/

theorem mem_lanesOf {m : BitVec 32} {l : Fin 32} : l ∈ lanesOf m ↔ m.getLsbD l = true := by
  simp [lanesOf, allLanes]

theorem mem_cohort {s : State} {l : Fin 32} : l ∈ cohort s ↔ s.cur.mask.getLsbD l = true := mem_lanesOf

theorem getLsbD_foldl_or (l : List (Fin 32)) : ∀ (m : BitVec 32) (i : Fin 32),
    (l.foldl (fun m j => m ||| BitVec.twoPow 32 j.val) m).getLsbD i = (m.getLsbD i || decide (i ∈ l)) := by
  induction l with
  | nil => intro m i; simp
  | cons a r ih =>
    intro m i
    rw [List.foldl_cons, ih]
    by_cases h : i = a
    · subst h; simp
    · have : ¬ (i.val = a.val) := fun hh => h (Fin.ext hh)
      simp [h, this]

theorem getLsbD_maskOf (l : List (Fin 32)) (i : Fin 32) : (maskOf l).getLsbD i = decide (i ∈ l) := by
  unfold maskOf
  rw [getLsbD_foldl_or]; simp

@[simp] theorem getLsbD_maskOf_lanesOf (m : BitVec 32) (i : Fin 32) : (maskOf (lanesOf m)).getLsbD i = m.getLsbD i := by
  rw [getLsbD_maskOf, Bool.eq_iff_iff, decide_eq_true_iff, mem_lanesOf]

/-! ### Rows -/

theorem mget_foldl_mdel (frees : List Nat) : ∀ (m : Map Word) (k : Nat),
    mget (frees.foldl mdel m) k = if k ∈ frees then none else mget m k := by
  induction frees with
  | nil => intro m k; simp
  | cons a r ih =>
    intro m k
    rw [List.foldl_cons, ih, mget_mdel]
    by_cases h1 : k ∈ r
    · simp [h1]
    · by_cases h2 : a = k
      · simp [h2]
      · have : ¬ k = a := fun h => h2 h.symm
        simp [h1, h2, this]

/-- One row written. -/
theorem mget_update_one (t : Thread) (frees : List Nat) (n : Nat) (x : Word) (m : Nat) :
    mget (t.update frees [(n, x)]).v m = if m = n then some x else if m ∈ frees then none else mget t.v m := by
  unfold Thread.update
  simp only [List.foldl_cons, List.foldl_nil]
  rw [mget_mput, mget_foldl_mdel]
  by_cases h : n = m
  · simp [h]
  · have : ¬ m = n := fun hh => h hh.symm
    simp [h, this]

theorem update_eq (t : Thread) (frees : List Nat) (ws : List (Nat × Word)) : t.update frees ws = { t with v := (t.update frees ws).v } := rfl

/-! ### Bookkeeping -/

theorem spillTo_eq (keep : List Nat) : ∀ (n : Nat) (g : Group), ∃ sp, g.spillTo keep n = { g with spilled := sp } := by
  intro n
  induction n with
  | zero => intro g; exact ⟨g.spilled, by unfold Group.spillTo; rfl⟩
  | succ n ih =>
    intro g
    unfold Group.spillTo
    split
    · exact ⟨g.spilled, rfl⟩
    · split
      · exact ⟨g.spilled, rfl⟩
      · next c _ =>
        obtain ⟨sp, h⟩ := ih { g with spilled := g.spilled ++ [c] }
        exact ⟨sp, h⟩

theorem touchNames_eq (g : Group) (now : Nat) (rd wr : List Nat) :
    ∃ lr sp wf, g.touchNames now rd wr = { g with lastRead := lr, spilled := sp, wantFill := wf } := by
  unfold Group.touchNames
  dsimp only
  split
  · obtain ⟨sp, h⟩ := spillTo_eq wr 96 { g with
      lastRead := wr.foldl (fun m n => if (mget m n).isSome then m else mput m n now) (rd.foldl (fun m n => mput m n now) g.lastRead)
      spilled := g.spilled.filter (fun n => !wr.contains n), wantFill := g.wantFill.filter fun n => !rd.contains n }
    exact ⟨_, sp, _, h⟩
  · exact ⟨_, _, _, rfl⟩

/-- What a vector instruction's commit leaves: threads rewritten lane by lane, flags, and bookkeeping. -/
theorem vecCommit_eq (g : Group) (now : Nat) (lanes : List (Fin 32)) (reads : List (BitVec 7 × Bool)) (dests : List (BitVec 7))
    (res : Fin 32 → LaneRes) :
    ∃ lr sp wf br, g.vecCommit now lanes reads dests res = { g with
      threads := (g.onLanes (maskOf lanes) fun i t => t.update (g.freesOf reads) ((dests.filterMap g.vname).zip (res i).vals)).threads
      gstat := g.gstat ||| Flags.toGstat (lanes.foldl (fun a i => a ||| (res i).flags) 0) |||
        gUndef (lanes.any fun i => (g.readAll i (reads.map (·.1))).2)
      lastRead := lr, spilled := sp, wantFill := wf, badRegs := br } := by
  unfold Group.vecCommit
  dsimp only
  obtain ⟨lr, sp, wf, h⟩ := touchNames_eq
    (((g.onLanes (maskOf lanes) fun i t => t.update (g.freesOf reads) ((dests.filterMap g.vname).zip (res i).vals)).cleanRows lanes
      (g.freesOf reads ++ dests.filterMap g.vname)).orFlags (lanes.foldl (fun a i => a ||| (res i).flags) 0)
        (lanes.any fun i => (g.readAll i (reads.map (·.1))).2)) now ((reads.map (·.1)).filterMap g.vname) (dests.filterMap g.vname)
  rw [h]
  refine ⟨lr, sp, wf, (g.cleanRows lanes (g.freesOf reads ++ dests.filterMap g.vname)).badRegs, ?_⟩
  unfold Group.orFlags Group.cleanRows Group.onLanes
  rfl

theorem vname_vec {g : Group} {d : BitVec 7} (h : isUni d = false) : g.vname d = some (rotName g.rwin d.toNat) := by
  simp [Group.vname, h]

/-- A vector instruction with one vector destination leaves what VecDone says. -/
theorem vecDone_of_commit {s : State} {g : Group} {reads : List (BitVec 7 × Bool)} {d : BitVec 7} (hd : isUni d = false)
    (res : Fin 32 → LaneRes) (val : Fin 32 → Word) (hv : ∀ l, (res l).vals = [val l]) :
    VecDone s (done s (g.vecCommit s.tick (cohort s) reads [d] res)) g (g.freesOf reads) (rotName g.rwin d.toNat) val
      ((cohort s).foldl (fun a i => a ||| (res i).flags) 0) ((cohort s).any fun i => (g.readAll i (reads.map (·.1))).2) := by
  obtain ⟨lr, sp, wf, br, h⟩ := vecCommit_eq g s.tick (cohort s) reads [d] res
  have hn : [d].filterMap g.vname = [rotName g.rwin d.toNat] := by simp [vname_vec hd]
  rw [h, hn]
  refine ⟨_, rfl, ?_, ?_, ?_, ?_⟩
  · intro l hl
    have hm := mem_cohort.mp hl
    have hm' : (maskOf (cohort s)).getLsbD l = true := by rw [cohort, getLsbD_maskOf_lanesOf]; exact hm
    constructor
    · rw [Group.advance, Group.onLanes_on _ _ _ _ hm]
      dsimp only
      rw [Group.onLanes_on _ _ _ _ hm']
      rfl
    · intro m
      rw [Group.advance, Group.onLanes_on _ _ _ _ hm]
      dsimp only
      rw [Group.onLanes_on _ _ _ _ hm', hv l]
      exact mget_update_one _ _ _ _ _
  · intro l hl
    have hm : s.cur.mask.getLsbD l = false := by
      rw [mem_cohort] at hl; simpa using hl
    have hm' : (maskOf (cohort s)).getLsbD l = false := by rw [cohort, getLsbD_maskOf_lanesOf]; exact hm
    rw [Group.advance, Group.onLanes_off _ _ _ _ hm]
    dsimp only
    rw [Group.onLanes_off _ _ _ _ hm']
  · unfold Group.advance Group.onLanes; rfl
  · unfold Group.advance Group.onLanes; rfl

theorem advance_advanced (i : Issue) (g : Group) : Advanced i g (g.advance i) := by
  intro l
  rw [Group.advance, Group.onLanes_get]

theorem rdW_wrW (g : Group) (r i : Nat) (v : DWord) (hr : r < 32) (hi : i < 32) : (g.wrW r v).rdW i = if i = r then v else g.rdW i := by
  unfold Group.rdW Group.wrW
  dsimp only
  rw [Nat.mod_eq_of_lt hr, Nat.mod_eq_of_lt hi]
  by_cases h : i = r
  · subst h; simp [hi]
  · have : ¬ r = i := fun hh => h hh.symm
    simp [hi, h, this]

theorem uniDone_of_wrW (s : State) (g : Group) (r : Nat) (v : DWord) (hr : r < 32) : UniDone s (done s (g.wrW r v)) g r v := by
  refine ⟨_, rfl, ?_, ?_, ?_⟩
  · intro l
    rw [Group.advance, Group.onLanes_get]
    unfold Group.wrW
    rfl
  · intro i hi
    rw [← rdW_wrW g r i v hr hi]
    unfold Group.advance Group.onLanes Group.rdW
    rfl
  · unfold Group.advance Group.onLanes Group.wrW
    rfl

theorem uniIdx_lt (d : BitVec 7) : uniIdx d < 32 := by unfold uniIdx; omega

/-- A uniform instruction whose registers are free leaves what UniDone says. -/
theorem uniStep_done {s : State} {g : Group} {reads : List (BitVec 7)} {d : BitVec 7} {f : List DWord → DWord}
    (hi : Issues s g) (hf : UniFree s g (reads.map uniIdx) [uniIdx d]) :
    ∃ t, finish (uniStep s reads d f) = .next t ∧ UniDone s t g (uniIdx d) (f (reads.map fun r => g.rdW (uniIdx r))) :=
  ⟨_, uniStep_ok hi hf, uniDone_of_wrW _ _ _ _ (uniIdx_lt d)⟩

/-- A vector instruction whose registers are free, whose rows fit and whose flags are not enabled leaves what VecDone says. -/
theorem vecStep_done {s : State} {g : Group} {reads : List (BitVec 7 × Bool)} {d : BitVec 7} {f : List Word → LaneRes}
    (hi : Issues s g) (hd : isUni d = false) (hf : VecFree s g (cohort s) (reads.map (·.1)) [d])
    (hr : VecRoom g (cohort s) (g.freesOf reads) [rotName g.rwin d.toNat])
    (ht : ∀ l ∈ cohort s, g.trapFlags (f (g.readAll l (reads.map (·.1))).1).flags = 0)
    (val : Fin 32 → Word) (hv : ∀ l, (f (g.readAll l (reads.map (·.1))).1).vals = [val l]) :
    ∃ t, finish (vecStep s reads [d] f) = .next t ∧ VecDone s t g (g.freesOf reads) (rotName g.rwin d.toNat) val
      ((cohort s).foldl (fun a i => a ||| (f (g.readAll i (reads.map (·.1))).1).flags) 0)
      ((cohort s).any fun i => (g.readAll i (reads.map (·.1))).2) := by
  have hn : [d].filterMap g.vname = [rotName g.rwin d.toNat] := by simp [vname_vec hd]
  exact ⟨_, vecStep_ok hi hf (by rw [hn]; exact hr) ht, vecDone_of_commit hd _ val hv⟩

theorem foldl_or_zero {α : Type} (l : List α) : l.foldl (fun (a : Flags) _ => a ||| 0) 0 = 0 := by
  induction l with
  | nil => rfl
  | cons a r ih => simp

end Sys2Proof.Machine
end

