-- ==== Sys2Proof/Laws/Shared.lean ====
section
/-! SUPPORT. What the shared operations of joins, overlays and transfers can change: one lemma for each says the whole of it, and the fields it
leaves alone follow. -/

namespace Sys2Proof.Machine

/-! ### seeBytes -/

/-- A group sees bytes: nothing changes but its own record of what it has seen. -/
theorem seeBytes_cases (s : State) (grp : Option Nat) (pas : List Nat) :
    seeBytes s grp pas = s ∨ ∃ i g seen, grp = some i ∧ mget s.groups i = some g ∧ seeBytes s grp pas = setGroup s i { g with seen := seen } := by
  unfold seeBytes
  cases grp with
  | none => exact .inl rfl
  | some i =>
    cases h : mget s.groups i with
    | none => exact .inl (by simp [h])
    | some g => exact .inr ⟨i, g, _, rfl, h, by simp only [Option.bind_some, h, Option.map_some]; rfl⟩

@[simp] theorem seeBytes_none (s : State) (pas : List Nat) : seeBytes s none pas = s := rfl

@[simp] theorem seeBytes_mem (s : State) (grp : Option Nat) (pas : List Nat) : (seeBytes s grp pas).mem = s.mem := by
  obtain h | ⟨_, _, _, -, -, h⟩ := seeBytes_cases s grp pas <;> simp [h]

@[simp] theorem seeBytes_events (s : State) (grp : Option Nat) (pas : List Nat) : (seeBytes s grp pas).events = s.events := by
  obtain h | ⟨_, _, _, -, -, h⟩ := seeBytes_cases s grp pas <;> simp [h]

@[simp] theorem seeBytes_teams (s : State) (grp : Option Nat) (pas : List Nat) : (seeBytes s grp pas).teams = s.teams := by
  obtain h | ⟨_, _, _, -, -, h⟩ := seeBytes_cases s grp pas <;> simp [h]

@[simp] theorem seeBytes_contexts (s : State) (grp : Option Nat) (pas : List Nat) : (seeBytes s grp pas).contexts = s.contexts := by
  obtain h | ⟨_, _, _, -, -, h⟩ := seeBytes_cases s grp pas <;> simp [h]

@[simp] theorem seeBytes_cores (s : State) (grp : Option Nat) (pas : List Nat) : (seeBytes s grp pas).cores = s.cores := by
  obtain h | ⟨_, _, _, -, -, h⟩ := seeBytes_cases s grp pas <;> simp [h]

@[simp] theorem seeBytes_cur (s : State) (grp : Option Nat) (pas : List Nat) : (seeBytes s grp pas).cur = s.cur := by
  obtain h | ⟨_, _, _, -, -, h⟩ := seeBytes_cases s grp pas <;> simp [h]

/-! ### settleTransit, dropReload, reading of READY slots -/

/-- What waits no more leaves the transit queues: only the cores' queues change. -/
theorem settleTransit_eq (s : State) : settleTransit s = { s with cores := (settleTransit s).cores } := rfl

@[simp] theorem settleTransit_mem (s : State) : (settleTransit s).mem = s.mem := rfl
@[simp] theorem settleTransit_events (s : State) : (settleTransit s).events = s.events := rfl
@[simp] theorem settleTransit_groups (s : State) : (settleTransit s).groups = s.groups := rfl
@[simp] theorem settleTransit_teams (s : State) : (settleTransit s).teams = s.teams := rfl
@[simp] theorem settleTransit_contexts (s : State) : (settleTransit s).contexts = s.contexts := rfl
@[simp] theorem settleTransit_agenda (s : State) : (settleTransit s).agenda = s.agenda := rfl

@[simp] theorem dropReload_mem (s : State) (core ctx ov : Nat) : (dropReload s core ctx ov).mem = s.mem := rfl
@[simp] theorem dropReload_groups (s : State) (core ctx ov : Nat) : (dropReload s core ctx ov).groups = s.groups := rfl
@[simp] theorem dropReload_cores (s : State) (core ctx ov : Nat) : (dropReload s core ctx ov).cores = s.cores := rfl
@[simp] theorem dropReload_contexts (s : State) (core ctx ov : Nat) : (dropReload s core ctx ov).contexts = s.contexts := rfl

/-- The scratch of every team is as it was. -/
theorem dropReload_scratch (s : State) (core ctx ov : Nat) :
    (dropReload s core ctx ov).teams.map (fun p => (p.1, p.2.scratch)) = s.teams.map fun p => (p.1, p.2.scratch) := by
  simp only [dropReload, List.map_map]
  refine List.map_congr_left fun p _ => ?_
  simp only [Function.comp_apply]
  split <;> rfl

/-! ### Addresses that a transfer keeps -/

@[simp] theorem Group.putBases_threads (g : Group) (n : Nat) (l : List (Fin 32)) (f : Fin 32 → DWord) : (g.putBases n l f).threads = g.threads := rfl
@[simp] theorem Group.putBases_w (g : Group) (n : Nat) (l : List (Fin 32)) (f : Fin 32 → DWord) : (g.putBases n l f).w = g.w := rfl
@[simp] theorem Group.putBases_pend (g : Group) (n : Nat) (l : List (Fin 32)) (f : Fin 32 → DWord) : (g.putBases n l f).pend = g.pend := rfl
@[simp] theorem Group.putBases_loads (g : Group) (n : Nat) (l : List (Fin 32)) (f : Fin 32 → DWord) : (g.putBases n l f).loads = g.loads := rfl
@[simp] theorem Group.putBases_nil (g : Group) (n : Nat) (f : Fin 32 → DWord) :
    g.putBases n [] f = { g with bases := g.bases.filter fun b => decide (b.1 ≠ n) } := by simp [Group.putBases]

end Sys2Proof.Machine
end

