-- ==== Sys2Proof/Tests/Slice0.lean ====
section
/-! SUPPORT. Tests: ill-formed terms that WellFormed refuses, words written out from the encodings of the spec, for each statement
with hypotheses states and operands that meet them, and a few effects worked out by hand. -/

namespace Sys2Proof.Tests

open Sys2Proof.Machine Sys2Proof.Claim

set_option Elab.async false

/-! ### Ill-formed terms (R66 to R68, R75, R77, R80, R81 and the operand rules of the entries) -/

theorem test_wf_reserved_function : (Instr.add 3 ⟨false, false, 3, 2, 1⟩).wf = false := by decide
theorem test_wf_min_function : (Instr.min 2 ⟨false, false, 3, 2, 1⟩).wf = false := by decide
theorem test_wf_uniform_needs_uniform : (Instr.add 0 ⟨false, false, 3, 98, 97⟩).wf = false := by decide
theorem test_wf_uniform_one_source : (Instr.popc ⟨false, 2, 97⟩).wf = false := by decide
theorem test_wf_vector_only : (Instr.fadd ⟨false, false, 3, 2, 97⟩).wf = false := by decide
theorem test_wf_vector_only_one_source : (Instr.frnd 0 ⟨false, 2, 97⟩).wf = false := by decide
theorem test_wf_mark_on_uniform : (Instr.add 0 ⟨true, false, 99, 2, 1⟩).wf = false := by decide
theorem test_wf_movx_vector : (Instr.movx 5 1).wf = false := by decide
theorem test_wf_cmp_condition : (Instr.cmp ⟨0, 10, 0, false, false, 3, 2⟩).wf = false := by decide
theorem test_wf_cmp_mix : (Instr.cmp ⟨3, 0, 0, false, false, 3, 2⟩).wf = false := by decide
theorem test_wf_fcmp_condition : (Instr.fcmp ⟨0, 8, 0, false, false, 3, 2⟩).wf = false := by decide
theorem test_wf_lred_second_row : (Instr.lred 3 ⟨false, false, 3, 2, 95⟩).wf = false := by decide
theorem test_wf_lscan_function : (Instr.lscan 3 ⟨false, false, 3, 2, 1⟩).wf = false := by decide
theorem test_wf_vote_predicate : (Instr.vote 0 1 8).wf = false := by decide
theorem test_wf_vote_ballot : (Instr.vote 3 1 97).wf = false := by decide
theorem test_wf_cvtf_code : (Instr.cvtf 0 5 ⟨false, 2, 1⟩).wf = false := by decide
theorem test_wf_fscale_function : (Instr.fscale 2 ⟨false, false, 3, 2, 1⟩).wf = false := by decide
theorem test_wf_mread_uniform : (Instr.mread 97 1 2).wf = false := by decide
theorem test_wf_mwait_all : (Instr.mwait true 1).wf = false := by decide
theorem test_wf_tset_field : (Instr.tset 1 9 2).wf = false := by decide
theorem test_wf_mproj_menu : (Instr.mprojC 1 2 3 10).wf = false := by decide
theorem test_wf_size_code : (Instr.ld ⟨0, false, 7, 3, 9, 2⟩).wf = false := by decide
theorem test_wf_pair_aligned : (Instr.ld ⟨0, false, 5, 3, 9, 1⟩).wf = false := by decide
theorem test_wf_quad_aligned : (Instr.st ⟨0, false, 6, 3, 9, 2⟩).wf = false := by decide
theorem test_wf_uniform_load_index : (Instr.ld ⟨0, false, 2, 3, 9, 97⟩).wf = false := by decide
theorem test_wf_uniform_no_b128 : (Instr.ld ⟨0, false, 6, 99, 9, 97⟩).wf = false := by decide
theorem test_wf_scratch_hint : (Instr.lds ⟨1, false, 2, 3, 9, 2⟩).wf = false := by decide
theorem test_wf_atomic_op : (Instr.atom 12 0 5 3 1).wf = false := by decide
theorem test_wf_atomic_data_fits : (Instr.atoms 9 5 94 1).wf = false := by decide
theorem test_wf_atomic_pair : (Instr.atom 11 0 5 3 1).wf = false := by decide
theorem test_wf_multi_fits : (Instr.ldvM 1 5 3 95).wf = false := by decide
theorem test_wf_barrier_count : (Instr.barSync 1 33).wf = false := by decide
theorem test_wf_srd_selector : (Instr.srd 1 0x0A).wf = false := by decide
theorem test_wf_swr_read_only : (Instr.swr 0x14 5).wf = false := by decide
theorem test_wf_reclaim_pair : (Instr.reclaimTake 1 2 3).wf = false := by decide

/-! ### Words -/

/-- The decoder reads each word as its instruction. -/
def reads (l : List (Nat × Nat × Instr)) : Bool := l.all fun p => decodeTableWord p.1 p.2.1 = some p.2.2

/-- Words of the integer instructions, from the match value and the fields of spec/opcode_table.json. -/
def integerWords : List (Nat × Nat × Instr) :=
  [(32, 0x8C78B081, .add 2 ⟨false, false, 99, 98, 97⟩), (32, 0x8C78B083, .sub 2 ⟨false, false, 99, 98, 97⟩),
   (32, 0x8C78B085, .mul 2 ⟨false, false, 99, 98, 97⟩), (32, 0x20608087, .mad ⟨true, false, 3, 2, 1⟩),
   (32, 0x60608089, .min 1 ⟨true, false, 3, 2, 1⟩), (32, 0x6060808B, .max 1 ⟨true, false, 3, 2, 1⟩),
   (32, 0x2060808D, .land ⟨true, false, 3, 2, 1⟩), (32, 0x6060808D, .lor ⟨true, false, 3, 2, 1⟩),
   (32, 0xA060808D, .lxor ⟨true, false, 3, 2, 1⟩), (32, 0xE060808D, .landn ⟨true, false, 3, 2, 1⟩),
   (32, 0x2060808F, .shl ⟨true, false, 3, 2, 1⟩), (32, 0x6060808F, .shr ⟨true, false, 3, 2, 1⟩),
   (32, 0xA060808F, .sar ⟨true, false, 3, 2, 1⟩), (32, 0xE060808F, .rot ⟨true, false, 3, 2, 1⟩), (32, 0x10008091, .popc ⟨true, 2, 1⟩),
   (32, 0x50008091, .clz ⟨true, 2, 1⟩), (32, 0x90008091, .brev ⟨true, 2, 1⟩), (32, 0xD0008091, .ffs ⟨true, 2, 1⟩),
   (32, 0x20608093, .bfeN ⟨true, false, 3, 2, 1⟩), (32, 0x60608093, .bfeS ⟨true, false, 3, 2, 1⟩),
   (32, 0xA0608093, .bfi ⟨true, false, 3, 2, 1⟩), (32, 0x9060A695, .cmp ⟨2, 9, 5, false, true, 3, 2⟩),
   (32, 0xE0608097, .sel 3 ⟨true, false, 3, 2, 1⟩)]

theorem test_decode_integer : reads integerWords = true := by decide +kernel

/-- Words of the immediate instructions, from the match value and the fields of spec/opcode_table.json. -/
def immediateWords : List (Nat × Nat × Instr) :=
  [(32, 0xFFE08099, .addi 1023 ⟨true, 2, 1⟩), (32, 0x2960809B, .andi 0xA5 ⟨true, 2, 1⟩), (32, 0x6960809B, .ori 0xA5 ⟨true, 2, 1⟩),
   (32, 0xA960809B, .xori 0xA5 ⟨true, 2, 1⟩), (32, 0xE960809B, .andni 0xA5 ⟨true, 2, 1⟩), (32, 0x07D8B09D, .shli 31 ⟨false, 98, 97⟩),
   (32, 0x47D8B09D, .shri 31 ⟨false, 98, 97⟩), (32, 0x87D8B09D, .sari 31 ⟨false, 98, 97⟩), (32, 0xC7D8B09D, .roti 31 ⟨false, 98, 97⟩),
   (32, 0x8000709F, .movw 0x20001 97), (32, 0x800070A1, .movh 0x20001 97), (32, 0x800070A3, .movx 0x20001 97),
   (32, 0xE06080A5, .lea 3 ⟨true, false, 3, 2, 1⟩), (32, 0x900080A7, .cvti 2 ⟨true, 2, 1⟩),
   (32, 0xA06080A9, .idot4 2 ⟨true, false, 3, 2, 1⟩), (32, 0xA06080AB, .idot4s 2 ⟨true, false, 3, 2, 1⟩),
   (32, 0xA06080AD, .idot8 2 ⟨true, false, 3, 2, 1⟩), (32, 0xA06080AF, .idot8s 2 ⟨true, false, 3, 2, 1⟩)]

theorem test_decode_immediate : reads immediateWords = true := by decide +kernel

/-- Words of the branch and lane instructions, from the match value and the fields of spec/opcode_table.json. -/
def branch_laneWords : List (Nat × Nat × Instr) :=
  [(32, 0xFFFF4031, .br 0x3FFFD), (32, 0x000104B3, .brc 4 true 1), (32, 0xFFFE84B5, .brloop 0x3FFFA 9), (32, 0x00080037, .call 0x20),
   (32, 0xE06080B9, .lshf 3 ⟨true, false, 3, 2, 1⟩), (32, 0xA06080BB, .lred 2 ⟨true, false, 3, 2, 1⟩),
   (32, 0x606080BD, .lscan 1 ⟨true, false, 3, 2, 1⟩), (32, 0x8000C2BF, .vote 2 3 5)]

theorem test_decode_branch_lane : reads branch_laneWords = true := by decide +kernel

/-- Words of the float instructions, from the match value and the fields of spec/opcode_table.json. -/
def floatWords : List (Nat × Nat × Instr) :=
  [(32, 0x206080C1, .fadd ⟨true, false, 3, 2, 1⟩), (32, 0x606080C1, .fsub ⟨true, false, 3, 2, 1⟩),
   (32, 0x206080C3, .fmul ⟨true, false, 3, 2, 1⟩), (32, 0x206080C5, .ffma ⟨true, false, 3, 2, 1⟩),
   (32, 0x606080C5, .ffms ⟨true, false, 3, 2, 1⟩), (32, 0xA06080C5, .fnma ⟨true, false, 3, 2, 1⟩),
   (32, 0x206080C7, .fmin ⟨true, false, 3, 2, 1⟩), (32, 0x606080C7, .fmax ⟨true, false, 3, 2, 1⟩),
   (32, 0x60609F49, .fcmp ⟨1, 7, 6, true, false, 3, 2⟩), (32, 0x900080CB, .frnd 2 ⟨true, 2, 1⟩),
   (32, 0x10A080CD, .fspec 5 ⟨true, 2, 1⟩), (32, 0x520080CF, .cvtf 1 16 ⟨true, 2, 1⟩),
   (32, 0xE06080D1, .fdot 3 ⟨true, false, 3, 2, 1⟩), (32, 0xE06080D3, .pack 3 ⟨true, false, 3, 2, 1⟩),
   (32, 0xE06080D5, .unpack 3 ⟨true, false, 3, 2, 1⟩), (32, 0x606080D7, .fscale 1 ⟨true, false, 3, 2, 1⟩)]

theorem test_decode_float : reads floatWords = true := by decide +kernel

/-- Words of the matrix instructions, from the match value and the fields of spec/opcode_table.json. -/
def matrixWords : List (Nat × Nat × Instr) :=
  [(32, 0x225590D9, .mloop true false 9 5 6 33), (32, 0x0008405B, .mzero 33), (32, 0x0408435B, .mload 33 6),
   (32, 0x0808435B, .mstore 6 33), (32, 0x0D2840DB, .mread 1 33 9), (32, 0x112840DB, .mwrite 33 9 1),
   (32, 0x1408405B, .mwait false 33), (32, 0x0101B4DD, .tset 6 8 9), (32, 0x0501B4DD, .tget 9 6 8), (32, 0x0801805D, .tclr 6)]

theorem test_decode_matrix : reads matrixWords = true := by decide +kernel

/-- Words of the draw instructions, from the match value and the fields of spec/opcode_table.json. -/
def drawWords : List (Nat × Nat × Instr) :=
  [(32, 0x02A590DF, .mprojC 33 6 5 9), (32, 0x06A590DF, .mprojS 33 6 5 9), (32, 0x0920005F, .drawcfg 9),
   (32, 0x0D28725F, .draw 4 33 9), (32, 0x1120325F, .deliver 4 9), (32, 0x1520005F, .drawseed 9)]

theorem test_decode_draw : reads drawWords = true := by decide +kernel

/-- Words of the memory instructions, from the match value and the fields of spec/opcode_table.json. -/
def memoryWords : List (Nat × Nat × Instr) :=
  [(32, 0xB41A4161, .ld ⟨2, true, 5, 3, 9, 2⟩), (32, 0xB41A4163, .st ⟨2, true, 5, 3, 9, 2⟩),
   (32, 0x341A4165, .lds ⟨0, true, 5, 3, 9, 2⟩), (32, 0x341A4167, .sts ⟨0, true, 5, 3, 9, 2⟩), (32, 0x98A0C0E9, .atom 9 2 5 3 1),
   (32, 0x24A0C0EB, .atoms 9 5 3 1), (32, 0x1CA0C0ED, .ldvM 7 5 3 1), (32, 0x9CA0C0ED, .stvM 7 5 3 1), (32, 0x0800006F, .phaseP 2),
   (32, 0x1800006F, .phaseR 2), (32, 0x2800006F, .phase 2), (32, 0x40B9B26F, .waitm (some 4) 5 6), (32, 0x44B9B26F, .smap 5 6 4),
   (32, 0x48A0006F, .sunmap 5), (32, 0x4CA0006F, .sflush 5), (32, 0x50A0C0EF, .prefetch true 5 3), (32, 0x5400006F, .fenceS)]

theorem test_decode_memory : reads memoryWords = true := by decide +kernel

/-- Words of the engine instructions, from the match value and the fields of spec/opcode_table.json. -/
def engineWords : List (Nat × Nat × Instr) :=
  [(32, 0x00A1B271, .tcopy 6 4 5), (32, 0x04A1B271, .tstore 6 4 5), (32, 0x08A1B271, .tstoreA 6 4 5), (32, 0x0CA1B271, .tmcast 6 4 5),
   (32, 0x10A1B271, .gather 6 4 5), (32, 0x140180F1, .own 6 true), (32, 0x18A03271, .engineSub 5 4), (32, 0x1CA00071, .subend 5),
   (32, 0x20A0C071, .slotdone 5 3), (32, 0x24B9B271, .kvmove 4 6 5)]

theorem test_decode_engine : reads engineWords = true := by decide +kernel

/-- Words of the barrier instructions, from the match value and the fields of spec/opcode_table.json. -/
def barrierWords : List (Nat × Nat × Instr) :=
  [(32, 0x00019079, .barSync 6 32), (32, 0x04019079, .barArrive 6 32), (32, 0x08018079, .barWait 6), (32, 0x0CA03279, .tbarInit 4 5),
   (32, 0x10A03279, .tbarExpect 4 5), (32, 0x14A00079, .tbarArrive none 5), (32, 0x18B9B279, .tbarWait (some 4) 6 5),
   (32, 0x1CA03279, .tbarAck 4 5), (32, 0x20B9B279, .joinArm (some 4) 6 5), (32, 0x24A0F279, .joinArrive 4 3 5),
   (32, 0x28A00079, .joinWait 5), (32, 0x2CA0B279, .joinRead 4 2 5), (32, 0x30A00079, .joinCancel 5), (32, 0x34000079, .killoff),
   (32, 0x38000079, .killon)]

theorem test_decode_barrier : reads barrierWords = true := by decide +kernel

/-- Words of the task instructions, from the match value and the fields of spec/opcode_table.json. -/
def taskWords : List (Nat × Nat × Instr) :=
  [(32, 0x00B981FB, .enq 3 6 5), (32, 0x04A001FB, .spawn 3 5), (32, 0x08B981FB, .launch 3 6 5), (32, 0x0CB985FB, .gpset 6 11 5),
   (32, 0x1179B27B, .gpget 4 6 11), (32, 0x141981FB, .greplay 3 6)]

theorem test_decode_task : reads taskWords = true := by decide +kernel

/-- Words of the flow instructions, from the match value and the fields of spec/opcode_table.json. -/
def flowWords : List (Nat × Nat × Instr) :=
  [(32, 0x0013727D, .ovload 4 77), (32, 0x04B3407D, .ovcall 5 77), (32, 0x08B3407D, .ovjump 5 77), (32, 0x0C00007D, .ret),
   (32, 0x10A0007D, .ovpin 5), (32, 0x14A0007D, .ovunpin 5), (32, 0x18A0007D, .ovdrop 5), (32, 0x1CA0327D, .ovquery 4 5),
   (32, 0x2000007D, .exit), (32, 0x2413407D, .trap 77), (32, 0x2800007D, .rth), (32, 0x2C00007D, .nret), (32, 0x3000007D, .yield),
   (32, 0x3400007D, .nop)]

theorem test_decode_flow : reads flowWords = true := by decide +kernel

/-- Words of the system instructions, from the match value and the fields of spec/opcode_table.json. -/
def systemWords : List (Nat × Nat × Instr) :=
  [(32, 0x000530FF, .srd 97 0x14), (32, 0x04B2407F, .swr 0x49 5), (32, 0x0919B27F, .reclaimTake 4 6 8),
   (32, 0x0C39B27F, .resume true 4 6), (32, 0x10B9807F, .tlbinv 5 6), (32, 0x14B9B27F, .pgquery 4 5 (some 6)),
   (32, 0x1819B27F, .pwrreq (some 4) 6), (32, 0x1CA0327F, .ctxopQuery 4 5), (32, 0x1CA0727F, .ctxopSwout 4 5),
   (32, 0x1CA0B27F, .ctxopSwin 4 5), (32, 0x2000007F, .halt)]

theorem test_decode_system : reads systemWords = true := by decide +kernel

/-- Words of the halfword instructions, from the match value and the fields of spec/opcode_table.json. -/
def halfwordWords : List (Nat × Nat × Instr) :=
  [(16, 0x0A96, .dict 0x2A5), (16, 0x4940, .movH 9 5), (16, 0x4944, .addH 9 5), (16, 0x4948, .subH 9 5), (16, 0x494C, .mulH 9 5),
   (16, 0x4950, .andH 9 5), (16, 0x4954, .orH 9 5), (16, 0x4958, .xorH 9 5), (16, 0x495C, .shlH 9 5), (16, 0x4960, .shrH 9 5),
   (16, 0x4964, .sarH 9 5), (16, 0x4968, .minH 9 5), (16, 0x496C, .maxH 9 5), (16, 0x4970, .faddH 9 5), (16, 0x4974, .fsubH 9 5),
   (16, 0x4978, .fmulH 9 5), (16, 0x497C, .fmaxH 9 5)]

theorem test_decode_halfword : reads halfwordWords = true := by decide +kernel

/-- The words of the examples of chapter 6: BR 6 bytes back, BRC both ways, BRLOOP, CALL and LRED.SUM (R173 to R176, R179). -/
theorem test_decode_examples : reads [(32, 0xFFFF4031, .br (-3)), (32, 0x000100B3, .brc 4 false 1), (32, 0x000104B3, .brc 4 true 1),
    (32, 0xFFFE84B5, .brloop (-6) 9), (32, 0x00080037, .call 0x20), (32, 0x0C00C53B, .lred 0 ⟨false, false, 96, 3, 10⟩)] = true := by
  decide +kernel

/-- RECLAIM.GIVE has the word of RECLAIM (Table 14.3). -/
theorem test_decode_give : encode (.reclaimGive 4 6 8) = encode (.reclaimTake 4 6 8) := by decide

/-! ### A small machine

Witnesses: for each statement with hypotheses, states and operands that meet those of every clause together, boundary values where a clause
has a range. Group 7 is the only group of team 3, in context 1, on core 2. -/

namespace W

def thread : Thread := { Thread.empty with live := true, ov := 5, pc := 8, v := [(1, 5), (2, 7)] }

/-- Lane 0 alone is live; w1 is 1, w2 is 65535, w3 is 256, and the other uniform registers are 0. -/
def gr : Machine.Group :=
  { ctx := 1, kernel := 2, team := some 3, core := 2, slot := 0, serial := 1, age := 1, gid := 0, role := 0, roleIdx := 0, width := 1,
    hosts := 1, budget := 8, join := 0, weight := 1, depth := 0, graph := none, st := .active,
    threads := (Vector.replicate 32 Thread.empty).set! 0 thread,
    w := (((Vector.replicate 32 0#64).set! 1 1).set! 2 65535).set! 3 256,
    q := Vector.replicate 8 0, gstat := 0, fpen := 0, rwin := 0, ntvec := 0x50040, ncause := 0, hcause := 0, hpc := 0, haddr := 0, stack := [],
    homeLanes := Vector.replicate 32 0, lanes := Vector.replicate 32 0, level := 0, resident := 8, foldCount := 0, spilled := [],
    lastRead := [], wantFill := [], foldPlan := none, reclaiming := none, pend := [], rho := #v[0, 0, 0, 0], seen := [], loads := [],
    bases := [], atoms := [], badRegs := [], publishing := none, heldPublish := none, dcfg := 0, drawKey := 0, drawCtr := 0,
    hiddenW := Vector.replicate 4 0, joinArrived := false, detached := false, killDue := none, notices := [] }

def bar : TeamBar := { n := 0, m := 0, phase := 0, last := Vector.replicate 32 none }

def tm : Team :=
  { ctx := 1, kernel := 2, core := 2, qid := 4, qborn := 0, grid := 9, index := 0, nteam := 1, ngrp := 1, scratchSize := 8192,
    physical := 8192, accCount := 2, scratch := [], lines := [], touched := [], badLines := [], bars := Vector.replicate 16 bar,
    tiles := Vector.replicate 16 default, acc := [], cr := Vector.replicate 32 .empty, dtable := 0, dtableBy := 0, pins := [], subs := [],
    windows := [], stashFull := [], stashDirty := [], stashFills := [], stashErrs := [], unacked := [], reloading := [], ended := false,
    killed := false }

def ctx1 : Context :=
  { st := .running, keyslot := 1, feat := #v[0x7F, 0, 0, 0], mask := -1, slotQuota := 40, ctlQuota := 16, save := 0, savesz := 0,
    ptroot := 0x1000, joinwin := 0, faultq := 0, rpt := 0, rptn := 0, linkto := 1000, job := 1, memkey := 1, assoc := 1, heldRecs := [],
    switch := .none, saved := [] }

def ov : Overlay := { va := 0, size := 32, entries := 2, slots := 1, entry0 := 8 }

/-- The kernel: ADD v1, v2, v3 in its dictionary. -/
def kn : Kernel :=
  { ctx := 1, st := .running, unload := false, base := 5, overlays := [ov], dict := [3 * 2 ^ 21 + 2 * 2 ^ 14 + 1 * 2 ^ 7 + 1, 0], data := 0, groups := 1,
    roles := [{ width := 1, count := 1, regs := 8 }], workset := 0, handler := none, scratch := 4096, acc := 1 }

def task : Task :=
  { record := { entry := 0x0005001E, affinity := 0, fclass := 0, prio := 0, join := 0, weight := 0, depth := 0, zero := 0,
                args := Vector.replicate 8 0 },
    grid := 1, eprio := 0, age0 := 0, next := 0, nteam := 1 }

def qu : Queue :=
  { ctx := 1, born := 0, st := .active, discarding := false, mask := -1, ovf := 0, ovfsz := 0, segs := [] }

/-- A graph of four commands that is not replaying. -/
def gra : Graph :=
  { ctx := 1, count := 1, addr := 0, cg := 7, gp := Vector.replicate 16 0, latched := Vector.replicate 16 0, replaying := false, error := false,
    pos := 0, cmds := [List.replicate 128 0], armed := [] }

def res (st : ResState) : Residency :=
  { ctx := 1, ov := 5, transit := false, st := st, handle := 0, slots := [0], gen := 1, code := leList 8 4 ++ List.replicate 28 0, moment := 1,
    stalled := none, by' := 0 }

def core2 : Core := { Core.empty with res := [res .resident] }

/-- The page tables of context 1: addresses below 2^32 are one page at 2^32, which may be read, written and executed. In the page: join 1,
ARMED with a NEED of 1, and at 0x100 a stream descriptor of one tile. -/
def tables : List Host.Cell :=
  [(0x1000, 1), (0x1001, 0x20), (0x2000, 1), (0x2001, 0x30), (0x3000, 0x1F), (0x3001, 1), (0x3004, 1),
   (0x100000040, 1), (0x100000048, 1), (0x100000100, 1), (0x100000101, 1), (0x100000103, 1), (0x100000104, 1), (0x10000010C, 1)]

/-- The machine with the group, the team, the kernel and the context as given, and an issue of lane 0 at byte 8 of overlay 5. -/
def stOf (g : Machine.Group) (t : Team) (c : Core) : State :=
  { State.reset with
    mem := tables
    cur := { group := 7, mask := 1, ov := 5, pc := 8, next := 12, word := 1 }
    groups := [(7, g)], teams := [(3, t)], cores := [(2, c)], contexts := [(1, ctx1)], kernels := [(2, kn)]
    queues := [(4, qu)], graphs := [(6, gra)]
    links := [(0, { Link.initial with st := .up, lanes := 8 })]
    fw := { State.reset.fw with step := 6, assocs := [1], canSign := true } }

abbrev st (g : Machine.Group) : State := stOf g tm core2

/-- The group with a uniform register changed. -/
def w (r : Nat) (v : DWord) : Machine.Group := { gr with w := gr.w.set! r v }

theorem issues (g : Machine.Group) (t : Team) (c : Core) : Issues (stOf g t c) g := rfl
theorem team (g : Machine.Group) (h : g.team = some 3) (t : Team) (c : Core) : TeamOf (stOf g t c) g 3 t := ⟨h, rfl⟩

theorem uni (g : Machine.Group) (t : Team) (c : Core) (hl : g.loads = []) (hb : g.badRegs = []) (hg : g.core = 2) (hc : c.seq = [])
    (a b : List Nat) : UniFree (stOf g t c) g a b := by
  refine ⟨fun i _ => ?_, fun i _ => ?_⟩
  · have : (coreOf (stOf g t c) 2).seq = [] := hc
    simp [busyW, hl, hg, this]
  · simp [Group.badW, hb]

theorem vec (g : Machine.Group) (t : Team) (c : Core) (hl : g.loads = []) (hb : g.badRegs = []) (hg : g.core = 2) (hc : c.seq = [])
    (hs : g.spilled = []) (ls : List (Fin 32)) (a b : List (BitVec 7)) : VecFree (stOf g t c) g ls a b := by
  refine ⟨fun n _ => ?_, fun i _ => ?_, fun n _ => ⟨?_, fun l _ => ?_⟩⟩
  · simp [Group.busyV, hl]
  · have : (coreOf (stOf g t c) 2).seq = [] := hc
    simp [busyW, Group.badW, hl, hb, hg, this]
  · simp [hs]
  · simp [Group.badV, hb]

/-- A row to write fits: the row is one that the lane holds already. -/
theorem room (g : Machine.Group) (n : Nat) (fr : List Nat) (hn : (mget gr.threads[(0 : Fin 32)].v n).isSome = true) (h : g.threads = gr.threads) :
    VecRoom g [0] fr [n] := by
  intro l hl
  obtain rfl := List.mem_singleton.1 hl
  left; intro m hm; obtain rfl := List.mem_singleton.1 hm; rw [h]; exact hn

/-- A result that is there and passes a test. -/
def okAnd {ε α : Type} (x : Except ε α) (p : α → Bool) : Bool := match x with
  | .ok a => p a
  | .error _ => false

theorem noTrap (f : Flags) : gr.trapFlags f = 0 := by
  have : gr.fpenNow = 0 := by decide
  simp [Group.trapFlags, this]

end W

open W

/-! ### Computation -/

theorem lane0 (g : Machine.Group) (t : Team) (c : Core) : cohort (stOf g t c) = [0] := by
  show lanesOf 1 = [0]; decide

theorem witness_integer_vector : ∃ r, intForm (.add 0 ⟨true, true, 2, 1, 1⟩) = some r ∧ Issues (st gr) gr ∧ r.Ready (st gr) gr :=
  ⟨_, rfl, rfl, vec _ _ _ rfl rfl rfl rfl rfl _ _ _, room gr 1 _ rfl rfl, fun _ _ => noTrap _⟩

theorem witness_integer_uniform : ∃ r, uniForm (.add 0 ⟨false, false, 98, 97, 127⟩) = some r ∧ Issues (st gr) gr ∧ r.Ready (st gr) gr :=
  ⟨_, rfl, rfl, uni _ _ _ rfl rfl rfl rfl _ _⟩

theorem witness_float_vector : ∃ r, floatForm gr.frm gr.ftz (.fmin ⟨false, false, 2, 1, 1⟩) = some r ∧ Issues (st gr) gr ∧ r.Ready (st gr) gr :=
  ⟨_, rfl, rfl, vec _ _ _ rfl rfl rfl rfl rfl _ _ _, room gr 1 _ rfl rfl, fun _ _ => noTrap _⟩

theorem witness_compare_select :
    CmpReady (st gr) gr ⟨0, 0, 7, true, false, 2, 1⟩ (fun _ _ => 0) ∧
    CmpReady (st gr) gr ⟨0, 0, 7, false, false, 2, 1⟩ (fun x y => (fcmpV 0 (fp gr.ftz x) (fp gr.ftz y)).2) ∧
    isUni (1 : BitVec 7) = false ∧ VecFree (st gr) gr (cohort (st gr)) [1, 2] [1] ∧ VecRoom gr (cohort (st gr)) [] [rotName gr.rwin 1] :=
  ⟨⟨vec _ _ _ rfl rfl rfl rfl rfl _ _ _, fun _ _ => noTrap _⟩,
   ⟨vec _ _ _ rfl rfl rfl rfl rfl _ _ _, fun _ _ => noTrap _⟩,
   rfl, vec _ _ _ rfl rfl rfl rfl rfl _ _ _, room gr 1 _ rfl rfl⟩

theorem witness_lane_operations :
    converged gr (st gr).cur = true ∧ isUni (1 : BitVec 7) = false ∧ VecFree (whole (st gr) gr) gr (cohort (whole (st gr) gr)) [1, 2] [1, 2] ∧
    VecRoom gr (cohort (whole (st gr) gr)) [] [rotName gr.rwin 1, rotName gr.rwin 2] := by
  have e : whole (st gr) gr = st gr := by
    have : gr.liveMask = 1 := by decide
    simp [whole, st, stOf, this]
  rw [e]
  refine ⟨by decide, rfl, vec _ _ _ rfl rfl rfl rfl rfl _ _ _, fun l hl => ?_⟩
  rw [st, lane0] at hl; obtain rfl := List.mem_singleton.1 hl
  left; decide

/-- The target at the first and at the last place of an image, and the last return point that fits the stack. -/
theorem witness_branches :
    imageSize (st gr) gr.ctx 5 = 32 ∧ branchTarget (st gr).cur 0x3FFFC = 0 ∧ branchTarget (st gr).cur 11 = 30 ∧ gr.stack.length < 256 ∧
    ({ gr with stack := List.replicate 255 ⟨1, 5, 0⟩ } : Machine.Group).stack.length < 256 ∧
    UniFree (st gr) gr [2] [2] ∧ gr.rdW 2 ≠ 1 ∧ UniFree (st gr) gr [1] [1] ∧ gr.rdW 1 = 1 :=
  ⟨by decide, by decide, by decide, by decide, by show (List.replicate 255 _).length < 256; rw [List.length_replicate]; decide, uni _ _ _ rfl rfl rfl rfl _ _, by decide, uni _ _ _ rfl rfl rfl rfl _ _, by decide⟩

theorem witness_flow :
    Issues (st gr) gr ∧ gr.handling = false ∧ ({ gr with st := .handler } : Machine.Group).handling = true ∧
    ({ gr with ncause := 0x20 } : Machine.Group).ncause ≠ 0 ∧
    ({ gr with stack := [⟨1, 5, 8⟩] } : Machine.Group).stack = ⟨1, 5, 8⟩ :: [] ∧ codeOf (coreOf (st gr) gr.core) gr.ctx 5 = some (res .resident) := by
  refine ⟨rfl, by decide, by decide, by decide, rfl, by decide⟩

def W.loadingCore : Core := { Core.empty with res := [res .loading] }
def W.evictingCore : Core := { Core.empty with res := [res .evicting] }

theorem witness_overlay_instructions :
    (UniFree (st gr) gr [] [1] ∧ mget (st gr).kernels gr.kernel = some kn ∧ kn.overlays[0]? = some ov ∧
      lookupRes (coreOf (st gr) gr.core) gr.ctx (kn.base + 0) = some (res .resident)) ∧
    (lookupRes (coreOf (stOf gr tm Core.empty) 2) 1 5 = none ∧ findRes (coreOf (stOf gr tm Core.empty) 2) 1 5 true = none ∧
      ∃ s' r, allocate (stOf gr tm Core.empty) 2 1 5 1 (handleOf gr) = some s' ∧ findRes (coreOf s' 2) 1 5 false = some r) ∧
    (findRes (coreOf (stOf gr tm { Core.empty with res := [{ res .loading with transit := true }] }) 2) 1 5 true).isSome = true ∧
    (overlayOf (st (w 4 (tokenOf (res .resident)))) 1 (slice ((w 4 (tokenOf (res .resident))).rdW 4) 0 16) = some (2, kn, ov) ∧ 1 < ov.entries ∧
      currentRes (coreOf (st gr) 2) 1 (tokenOf (res .resident)) = some (res .resident) ∧ (res .resident).st = .resident) ∧
    (overlayOf (st (w 4 5)) 1 (slice ((w 4 5).rdW 4) 0 16) = some (2, kn, ov) ∧ currentRes (coreOf (st (w 4 5)) 2) 1 ((w 4 5).rdW 4) = none ∧
      lookupRes (coreOf (st (w 4 5)) 2) 1 (slice ((w 4 5).rdW 4) 0 16) = some (res .resident)) ∧
    (currentRes (coreOf (stOf (w 4 (tokenOf (res .loading))) tm loadingCore) 2) 1 (tokenOf (res .loading)) = some (res .loading) ∧
      (res .loading).st ≠ .resident) ∧
    (∃ s' r, needOverlay (stOf (w 4 5) tm Core.empty) 2 1 5 7 = (s', false) ∧ lookupRes (coreOf s' 2) 1 5 = some r ∧ r.st ≠ .resident) ∧
    (∃ s', needOverlay (stOf (w 4 5) tm evictingCore) 2 1 5 7 = (s', false) ∧ lookupRes (coreOf s' 2) 1 5 = none ∧ codeOf (coreOf s' 2) 1 5 = none) ∧
    (∃ tid t, issuerTeam (st gr) gr = .ok (tid, t) ∧ (pinsOf (st gr) tid t).length < 16) := by
  refine ⟨⟨uni _ _ _ rfl rfl rfl rfl _ _, rfl, rfl, by decide⟩, ⟨by decide, by decide, ?_⟩, by decide, ⟨?_, by decide, by decide, rfl⟩,
    ⟨rfl, by decide, by decide⟩, ⟨by decide, by decide⟩, ⟨_, _, rfl, rfl, by decide⟩, ⟨_, rfl, by decide, by decide⟩, 3, tm, rfl, by decide⟩
  · exact ⟨_, _, rfl, rfl⟩
  · rfl

/-! ### Matrix, draws, special registers -/

namespace W

/-- Tile 1 holds one step of a floating-point format at offset 0, tile 2 an FP32 accumulator image. -/
def tmT : Team :=
  { tm with accCount := 16
            tiles := (tm.tiles.set! 1 { (default : Desc) with fmt := 1, rows := 32, cols := 1 }).set! 2 { (default : Desc) with fmt := 15 }
            acc := (List.range 16).map fun n => (n, { AccTile.zero with stream := some { sKind := true, nrows := 32, dcfg := 0, rows := [] } }) }

theorem onePart {t : Team} {d : Desc} (hs : isScaled d.f = false) (hb : d.base.toNat = 0) (hi : d.inc.toNat = 0)
    (hr : t.inRange 0 512 = true) (n : Nat) : outside t (loopParts d n) = none := by
  simp [outside, loopParts, hs, Desc.stepAt, hb, hi, hr]

theorem linesIn (n : Nat) : LinesIn tmT (tmT.tile 1) (tmT.tile 1) n :=
  ⟨onePart (by decide) (by decide) (by decide) (by decide) n, onePart (by decide) (by decide) (by decide) (by decide) n⟩

/-- Seven operations of the sequencer, none on tile 0. -/
def seq7 : Core := { core2 with seq := List.replicate 7 (SeqOp.start 1 9 8 (.mzero 1)) }

end W

/-- A loop of no step and one of 65,535; a queue with one place left; every tile in the span of a draw. -/
theorem witness_matrix_issue :
    Issues (stOf gr tmT seq7) gr ∧ TeamOf (stOf gr tmT seq7) gr 3 tmT ∧ SeqFree (stOf gr tmT seq7) gr 3 [0] ∧
    (gr.rdW 0).toNat = 0 ∧ (gr.rdW 2).toNat = 65535 ∧ UniFree (stOf gr tmT core2) gr [0, 2] [] ∧
    compatible (tmT.tile 1).f (tmT.tile 1).f = true ∧ LinesIn tmT (tmT.tile 1) (tmT.tile 1) 0 ∧ LinesIn tmT (tmT.tile 1) (tmT.tile 1) 65535 ∧
    (∀ n, n < 16 → (tmT.acct (0 + n)).err = false) ∧
    ((tmT.tile 2).f = 15 ∧ tmT.inRange (tmT.tile 2).base.toNat 4096 = true) ∧
    (transferRow (tmT.tile 2).f = some 128 ∧ tmT.inRange (tmT.tile 2).base.toNat (32 * 128) = true) ∧
    (feature (stOf gr tmT seq7) gr 2 = true ∧ isFloatFmt (tmT.tile 1).f = true ∧ (tmT.tile 1).rows ≠ 0 ∧
      LinesIn tmT (tmT.tile 1) (tmT.tile 1) (2 ^ (9 : BitVec 4).toNat)) ∧
    (slice ((w 4 0x0F001F00).rdW 4) 24 4 + 1 = 16 ∧ slice ((w 4 0x0F001F00).rdW 4) 28 4 = 0 ∧ 0 + 16 ≤ tmT.accCount ∧
      SeqFree (stOf gr tmT seq7) gr 3 ((List.range 16).map (0 + ·)) ∧
      (∃ h, spanHeader tmT ((List.range 16).map (0 + ·)) = some h ∧ h.sKind = true) ∧
      slice ((w 4 0x0F001F00).rdW 4) 0 24 % 256 = 0 ∧ tmT.inRange (slice ((w 4 0x0F001F00).rdW 4) 0 24) 256 = true) :=
  ⟨rfl, team _ rfl _ _, ⟨by decide, by decide⟩, by decide, by decide, uni _ _ _ rfl rfl rfl rfl _ _, by decide, linesIn _, linesIn _,
   by decide, by decide, by decide, ⟨by decide, by decide, by decide, linesIn _⟩,
   by decide, by decide, by decide, ⟨by decide, by decide⟩, ⟨_, rfl, rfl⟩, by decide, by decide⟩

theorem witness_tile_and_draw_state :
    Issues (stOf gr tmT core2) gr ∧ TeamOf (stOf gr tmT core2) gr 3 tmT ∧
    fieldOk (feature (stOf gr tmT core2) gr 1) 2 ((w 4 32).rdW 4) = true ∧ fieldOk (feature (stOf gr tmT core2) gr 1) 0 ((w 4 0).rdW 4) = true ∧
    UniFree (stOf gr tmT core2) gr [4, 3] [5] ∧ isUni (1 : BitVec 7) = false ∧ tileNamed (stOf gr tmT core2) gr.core 3 0 = false ∧
    VecFree (stOf gr tmT core2) gr (cohort (stOf gr tmT core2)) [Machine.uniField 4, 1] [1] ∧
    VecRoom gr (cohort (stOf gr tmT core2)) [] [rotName gr.rwin 1] ∧ (tmT.acct 0).err = false ∧
    (∀ o ∈ (coreOf (stOf gr tmT core2) gr.core).seq, o.group = (stOf gr tmT core2).cur.group → true = false) ∧
    feature (stOf gr tmT core2) gr 2 = true ∧ dcfgOk 0x3F80000000000100 = true ∧ (gr.rdW 3).toNat % 256 = 0 :=
  ⟨rfl, team _ rfl _ _, by decide, by decide, uni _ _ _ rfl rfl rfl rfl _ _, rfl, by decide, vec _ _ _ rfl rfl rfl rfl rfl _ _ _,
   by rw [lane0]; exact room gr 1 _ rfl rfl, by decide, fun o ho => absurd (show o ∈ ([] : List SeqOp) from ho) (by simp), by decide, by decide, by decide⟩

/-- The largest values that the registers take, and both ends of DDTR. -/
theorem witness_special_registers :
    Issues (st gr) gr ∧ ({ gr with st := .handler } : Machine.Group).privileged = true ∧ GstatFree (st gr) gr 0x10 ∧
    UniFree (st gr) gr [4] [4] ∧ VecFree (st gr) gr (cohort (st gr)) [] [1] ∧ VecRoom gr (cohort (st gr)) [] [rotName gr.rwin 1] ∧
    (0xF703FF : DWord) &&& ~~~0xF703FF#64 = 0 ∧ FitsMask 0x3F 0x3F ∧ (FitsMask 0x5F 0x7F ∧ 0x5F / 32 % 4 ≠ 3 ∧ 0x47 % 32 < rwinSpan 0x47) ∧
    FitsMask 0x1F 0x1F ∧ FitsMask 0xFFFFFFFE 0xFFFFFFFE ∧ (0xFFFFFFFF00001FFF : DWord) &&& 0xFFFFE000#64 = 0 ∧ FitsMask 0xFF3F 0xFF3F ∧
    ({ gr with ctx := 0 } : Machine.Group).ctx = 0 ∧ (10 ≤ (10 : DWord).toNat ∧ (100 : DWord).toNat ≤ 100) := by
  refine ⟨rfl, by decide, fun _ o ho => ?_, uni _ _ _ rfl rfl rfl rfl _ _, vec _ _ _ rfl rfl rfl rfl rfl _ _ _,
    by rw [lane0]; exact room gr 1 _ rfl rfl, by decide, ⟨by decide, by decide⟩, ⟨⟨by decide, by decide⟩, by decide, by decide⟩,
    ⟨by decide, by decide⟩, ⟨by decide, by decide⟩, by decide, ⟨by decide, by decide⟩, rfl, by decide⟩
  have e : (coreOf (st gr) gr.core).seq = [] := rfl
  rw [e] at ho; cases ho

/-! ### Memory and scratch -/

namespace W

/-- A vector row and its neighbours, in a lane whose rows stay within the budget. -/
theorem roomy (g : Machine.Group) (fr ns : List Nat) (h : (g.threads[(0 : Fin 32)].update fr (ns.map fun n => (n, 0))).v.length ≤ g.budget) :
    VecRoom g [0] fr ns := by
  intro l hl
  obtain rfl := List.mem_singleton.1 hl
  exact .inr h

theorem mem (g : Machine.Group) (t : Team) (c : Core) (hl : g.loads = []) (hb : g.badRegs = []) (hg : g.core = 2) (hc : c.seq = [])
    (hs : g.spilled = []) (base : BitVec 5) (rs : List (BitVec 7 × Bool)) (ds : List (BitVec 7))
    (h : (g.threads[(0 : Fin 32)].update (g.freesOf rs) ((ds.filterMap g.vname).map fun n => (n, 0))).v.length ≤ g.budget) :
    MemFree (stOf g t c) g base rs ds :=
  ⟨uni _ _ _ hl hb hg hc _ _, vec _ _ _ hl hb hg hc hs _ _ _, by rw [lane0]; exact roomy _ _ _ h⟩

/-- An operation of the engine on the two lines of tile 1. -/
def op (k : EngKind) : EngOp :=
  { id := 6, kind := k, group := some 7, team := 3, desc := { (default : Desc) with fmt := 1, rows := 32, cols := 1 }, raw := false, gaddr := 0,
    bar := 4096, list := [], lines := [0, 1], accepted := false, moment := 0, flipped := [], done := 0, buf := [], version := 0, retries := 0,
    receivers := [], ring := 0, slot := 0, err := false, stalled := none, stopped := false, abandoned := false, published := false, remote := [] }

/-- The last 8 and the last 16 bytes of the page. -/
def g8 : Machine.Group := w 4 0xFFFFFFF8
def g16 : Machine.Group := w 4 0xFFFFFFA0

/-- The last bytes of the scratchpad. -/
def s8 : Machine.Group := w 4 8184
def s16 : Machine.Group := w 4 8096

end W

theorem witness_global_loads :
    (isUni (97 : BitVec 7) = true ∧ UniFree (st g8) g8 [4, uniIdx 96] [uniIdx 97] ∧
      uniAddr g8 ⟨0, false, 5, 96, 4, 97⟩ = 0xFFFFFFF8 ∧ globalTrap (st g8) g8 0 0xFFFFFFF8 8 .read = none) ∧
    (isUni (4 : BitVec 7) = false ∧ MemFree (st g16) g16 4 [(1, true)] (destRegs 4 4) ∧
      laneAddr g16 ⟨0, true, 6, 1, 4, 4⟩ 0 = 0xFFFFFFF0 ∧ globalTrap (st g16) g16 0 0xFFFFFFF0 16 .read = none) ∧
    (MemFree (st gr) gr 0 [(1, false)] (destRegs 4 4) ∧ (addrOf gr 0 (gr.rdLane 0 1).1 2).toNat % 4 = 0 ∧ transferTag (st gr) gr = none ∧
      let r := transferAll 7 1 true 4 (fun l => addrOf gr 0 (gr.rdLane l 1).1 2) (fun l => gr.threads[l].xfer.toNat) 4 [0]
        { st gr with fresh := 2 }
      (mget r.1.groups 7).isSome = true ∧ ∀ p ∈ r.2, p.stop = none ∧ p.waits = false) :=
  ⟨⟨rfl, uni _ _ _ rfl rfl rfl rfl _ _, by decide, by decide +kernel⟩,
   ⟨rfl, mem _ _ _ rfl rfl rfl rfl rfl _ _ _ (by decide), by decide, by decide +kernel⟩,
   mem _ _ _ rfl rfl rfl rfl rfl _ _ _ (by decide), by decide, by decide, by decide +kernel⟩

/-- Bytes of pending stores; a unit that no store wrote; and a write of a unit that the group's last refresh forced: it became visible
at 4, before that refresh at 9. -/
def W.own : Machine.Group := { gr with pend := [{ va := 8, tr := { pa := 0x100000008, key := 1, kind := .hbm, peer := none }, bytes := [1, 2, 3, 4], stale := false }] }
def W.pub : Pub :=
  { id := 3, who := agentOf 2, group := none, reach := Vector.replicate 4 (some 4), atomic := none, key := 0,
    cells := [(0x100000008, 1), (0x100000009, 2), (0x10000000A, 3), (0x10000000B, 4)], olds := [] }
def W.fresh' : Machine.Group := { gr with rho := #v[9, 9, 9, 9] }
def W.onEvents (g : Machine.Group) : State := { st g with events := [pub], fresh := 9 }

theorem witness_load_values :
    (mget (st own).groups 7 = some own ∧ ([1, 2, 3, 4] : List Byte).length = szBytes 4 ∧
      ∀ i, i < szBytes 4 → pendByte own (transOf (st own) own 0 8 .read) i = ([1, 2, 3, 4] : List Byte)[i]?) ∧
    ((∀ i, i < 4 → pendByte gr (transOf (st gr) gr 0 8 .read) i = none) ∧
      cuts (st gr) (gr.reader (st gr) 7 1) ((physBytes (transOf (st gr) gr 0 8 .read) 4).filterMap id) ≠ []) ∧
    (mget (onEvents fresh').groups 7 = some fresh' ∧ (transOf (onEvents fresh') fresh' 0 8 .read).kind ≠ .remote ∧
      (∀ i, i < szBytes 4 → pendByte fresh' (transOf (onEvents fresh') fresh' 0 8 .read) i = none) ∧
      ∀ pa, some pa ∈ physBytes (transOf (onEvents fresh') fresh' 0 8 .read) (szBytes 4) →
        Claim.MustRead (onEvents fresh') (fresh'.reader (onEvents fresh') 7 (transOf (onEvents fresh') fresh' 0 8 .read).key) pa pub) := by
  have h : ∀ (s : State) (g : Machine.Group), decide (transOf s g 0 8 .read = { pa := 0x100000008, key := 1, kind := .hbm, peer := none }) = true →
      transOf s g 0 8 .read = { pa := 0x100000008, key := 1, kind := .hbm, peer := none } := fun _ _ h => of_decide_eq_true h
  have h1 := h (st own) own (by decide +kernel)
  have h2 := h (st gr) gr (by decide +kernel)
  have h3 := h (onEvents fresh') fresh' (by decide +kernel)
  rw [h1, h2, h3]
  refine ⟨⟨rfl, by decide, by decide⟩, ⟨by decide, by decide +kernel⟩, rfl, by decide, by decide, fun pa hp => ?_⟩
  have : pa = 0x100000008 ∨ pa = 0x100000009 ∨ pa = 0x10000000A ∨ pa = 0x10000000B := by
    revert hp; simp [physBytes, szBytes, szLog, List.range_succ]
  rcases this with rfl | rfl | rfl | rfl <;>
    exact ⟨by decide, fun e he hw => .inl (List.mem_singleton.1 he), by decide, 4, by decide, by decide⟩

theorem witness_global_stores :
    (UniFree (st g8) g8 [4, uniIdx 96, uniIdx 97] [] ∧ globalTrap (st g8) g8 0 0xFFFFFFF8 8 .write = none) ∧
    (MemFree (st g16) g16 4 (storeReads ⟨0, true, 6, 1, 4, 4⟩) [] ∧ globalTrap (st g16) g16 0 0xFFFFFFF0 16 .write = none) ∧
    (MemFree (st gr) gr 0 ((1, false) :: (destRegs 4 4).map fun r => (r, false)) [] ∧
      let r := transferAll 7 1 false 4 (fun l => addrOf gr 0 (gr.rdLane l 1).1 2) (fun l => gr.threads[l].xfer.toNat) 4 [0]
        { st gr with fresh := 2 }
      (mget r.1.groups 7).isSome = true ∧ ∀ p ∈ r.2, p.stop = none ∧ p.waits = false) :=
  ⟨⟨uni _ _ _ rfl rfl rfl rfl _ _, by decide +kernel⟩, ⟨mem _ _ _ rfl rfl rfl rfl rfl _ _ _ (by decide), by decide +kernel⟩,
   mem _ _ _ rfl rfl rfl rfl rfl _ _ _ (by decide), by decide +kernel⟩

theorem witness_scratch_loads :
    (TeamOf (st s8) s8 3 tm ∧ UniFree (st s8) s8 [4, uniIdx 96] [uniIdx 97] ∧ scratchTrap (st s8) s8 tm 0 8184 8 false = none ∧
      ScratchFree (st s8) 3 tm false [(8184, 8)] ∧ 8184 / 256 ∉ tm.badLines) ∧
    (MemFree (st s16) s16 4 [(1, true)] (destRegs 4 4) ∧ laneAddr s16 ⟨0, true, 6, 1, 4, 4⟩ 0 = 8176 ∧
      scratchTrap (st s16) s16 tm 0 8176 16 false = none ∧ ScratchFree (st s16) 3 tm false [(8176, 16)]) :=
  ⟨⟨team _ rfl _ _, uni _ _ _ rfl rfl rfl rfl _ _, by decide +kernel, by unfold ScratchFree; decide +kernel, by decide⟩,
   mem _ _ _ rfl rfl rfl rfl rfl _ _ _ (by decide), by decide, by decide +kernel, by unfold ScratchFree; decide +kernel⟩

theorem witness_scratch_stores :
    (UniFree (st s8) s8 [4, uniIdx 96, uniIdx 97] [] ∧ scratchTrap (st s8) s8 tm 0 8184 8 true = none ∧
      ScratchFree (st s8) 3 tm true [(8184, 8)]) ∧
    (MemFree (st s16) s16 4 (storeReads ⟨0, true, 6, 1, 4, 4⟩) [] ∧ scratchTrap (st s16) s16 tm 0 8176 16 true = none ∧
      ScratchFree (st s16) 3 tm true [(8176, 16)]) :=
  ⟨⟨uni _ _ _ rfl rfl rfl rfl _ _, by decide +kernel, by unfold ScratchFree; decide +kernel⟩,
   mem _ _ _ rfl rfl rfl rfl rfl _ _ _ (by decide), by decide +kernel, by unfold ScratchFree; decide +kernel⟩

theorem witness_atomics :
    (atomUnderWay (st g8) g8 11 .sys = none ∧ (∀ p ∈ g8.pend, p.stale = false) ∧ UniFree (st g8) g8 (4 :: (atomRegs 11 96 98).map uniIdx) [uniIdx 98] ∧
      atomTrap (st g8) g8 11 .sys 0 0xFFFFFFF8 = none ∧ (transOf (st g8) g8 0 0xFFFFFFF8 .rmw).kind ≠ .remote) ∧
    (MemFree (st gr) gr 0 (atomReads 9 1 1) (atomDests 9 1) ∧ atomAddr gr 9 0 1 0 = 20 ∧ atomTrap (st gr) gr 9 .dev 0 20 = none) ∧
    (scratchTrap (st s8) s8 tm 0 8184 (atomBytes 11) true = none ∧ ScratchFree (st s8) 3 tm true [(8184, atomBytes 11)]) ∧
    (scratchTrap (st gr) gr tm 0 20 (atomBytes 9) true = none ∧ ScratchFree (st gr) 3 tm true [(20, atomBytes 9)]) := by
  refine ⟨⟨by decide, by decide, uni _ _ _ rfl rfl rfl rfl _ _, by decide +kernel, by decide +kernel⟩,
    ⟨mem _ _ _ rfl rfl rfl rfl rfl _ _ _ (by decide), by decide, by decide +kernel⟩, ⟨by decide +kernel, ?_⟩, by decide +kernel, ?_⟩ <;>
    (unfold ScratchFree; decide +kernel)

/-- A WAITM that has the code of a cause, and a group that stands in it. -/
def W.ended' (code : Nat) : Monitor := { sector := 8, began := 0, deadline := 5, dest := some 6, next := 12, code := some code }
def W.watching : Machine.Group := { gr with threads := gr.threads.set! 0 { thread with wait := some (.monitor (ended' 2)) } }

/-- A store of the group's sequencer to a stash window that is still to come. -/
def W.storesToStash : State :=
  stOf gr { tm with windows := [{ off := 0, va := 0, len := 256 }] }
    { core2 with seq := [SeqOp.start 1 7 3 (.mstore 1 { (default : Desc) with fmt := 1, rows := 32, cols := 64 } 0)] }

theorem witness_ordering :
    UniFree (st gr) gr [4, uniIdx 97] [] ∧ VecFree (st gr) gr (cohort (st gr)) [1] [] ∧ gr.loads = [] ∧
    (∀ o ∈ (coreOf (stOf gr tm { core2 with eng := [{ op .tcopy with accepted := true }] }) gr.core).eng,
      o.group = some 7 → o.accepted = true) ∧
    (stashLeft (st gr) gr.core 7 = false ∧ stashLeft storesToStash gr.core 7 = true ∧
      ∀ o ∈ (coreOf (stOf gr tm { core2 with seq := [SeqOp.start 1 7 3 (.mzero 1)] }) gr.core).seq, o.group = 7 → o.kind.accesses ≤ o.done) ∧
    UniFree (st (w 4 0xFFFFFFFF)) (w 4 0xFFFFFFFF) [4, 5] [6] ∧ globalTrap (st (w 4 0xFFFFFFFF)) (w 4 0xFFFFFFFF) 0 0xFFFFFFFF 1 .read = none ∧
    (w 4 0xFFFFFFFF).rdW 5 = 0 ∧ (w 5 0xFFFFFFFFFFFFFFFF).rdW 5 ≠ 0 ∧
    (mget (st watching).groups 7 = some watching ∧ (watching.st = .active ∨ watching.st = .handler) ∧ ctxIssues (st watching) watching.ctx = true ∧
      teamLoaded (st watching) watching = true ∧ watching.monitors = [ended' 2] ∧ (ended' 2).code = some 2) ∧
    visAt (gr.reader (onEvents gr) 7 1) pub = some 4 ∧ 4 ≤ (onEvents gr).fresh ∧ between pub.who (agentOf gr.core) ≤ Scope.idx .core :=
  ⟨uni _ _ _ rfl rfl rfl rfl _ _, vec _ _ _ rfl rfl rfl rfl rfl _ _ _, rfl, by decide, ⟨by decide +kernel, by decide +kernel, by decide +kernel⟩, uni _ _ _ rfl rfl rfl rfl _ _, by decide +kernel,
   by decide, by decide, ⟨rfl, .inl rfl, by decide, by decide, by decide, rfl⟩, by decide, by decide, by decide⟩

/-- A window over the last line of the scratchpad. -/
def W.win : Window := { off := 7936, va := 0, len := 256 }
def W.tmW : Team := { tm with windows := [win] }

theorem witness_stash :
    (feature (st gr) gr 6 = true ∧ win.off % 256 = 0 ∧ win.va % 256 = 0 ∧ win.len % 256 = 0 ∧ 256 ≤ win.len ∧ tm.inRange win.off win.len = true ∧
      tm.windows.length < 8 ∧ (∀ x ∈ win.lines, isViewed tm x = false ∧ inRing tm x = false) ∧ trimmedIn (st gr) gr win.va win.len = none ∧
      ScratchFree (st gr) 3 tm true [(win.off, win.len)]) ∧
    ((tmW.windows.find? fun x => decide (u64 x.off = (w 4 7936).rdW 4)) = some win ∧
      seqPending (stOf (w 4 7936) tmW seq7) 2 7 3 win.lines = false ∧
      (flushWindow (stOf (w 4 7936) tmW core2) 7 (w 4 7936) 3 tmW win).2 = false ∧
      (mget (flushWindow (stOf (w 4 7936) tmW core2) 7 (w 4 7936) 3 tmW win).1.teams 3).isSome = true ∧
      (mget (flushWindow (stOf (w 4 7936) tmW core2) 7 (w 4 7936) 3 tmW win).1.groups 7).isSome = true) := by
  refine ⟨⟨by decide, by decide, by decide, by decide, by decide, by decide, by decide, by decide, by decide +kernel, ?_⟩, by decide, by decide +kernel,
    by decide +kernel, by decide +kernel, by decide +kernel⟩
  unfold ScratchFree; decide +kernel

/-! ### Engines, rings, barriers, joins, tasks -/

namespace W

/-- 31 operations of the engine. -/
def eng31 : Core := { core2 with eng := List.replicate 31 (op .tcopy) }

/-- Tile 3 has a layout with a version. -/
def tmE : Team := { tmT with tiles := tmT.tiles.set! 3 { (default : Desc) with fmt := 1, rows := 32, cols := 1, layout := 0x80 } }

/-- A ring header at 128: one slot of 512 bytes at 4096, its barrier at 6144; its slot word holds `n`. -/
def tmR (n : Byte) (subs : List Sub) : Team :=
  { tm with scratch := [(129, 0x10), (133, 2), (136, 1), (141, 0x18)] ++ (if n = 0 then [] else [(192, n)])
            lines := [(0, { Line.ready with written := true })], subs := subs }

def sub (word : Word) : Sub :=
  { ring := 128, base := 4096, slotsz := 512, nslot := 1, bar := 6144,
    sd := { kind := 1, raw := false, fmt := 1, layout := 0, rows := 1, cols := 1, stride := 0, count := 2, origin := 0, step := 0x8000 },
    next := 0, skid := 2, words := [word], ended := false }

/-- The group's thread waits. -/
def waits (x : Wait) : Machine.Group := { gr with threads := gr.threads.set! 0 { thread with wait := some x } }

/-- Barriers 0 and 1: one arrival is awaited, and the first phase is over. -/
def tmB : Team := { tm with bars := (tm.bars.set! 1 { bar with phase := 1, last := bar.last.set! 0 (some 0) }) }

/-- A transaction barrier with an arrival left in the last 16 bytes. -/
def tmX : Team := { tm with scratch := [(8176, 0x10)], lines := [(31, { Line.ready with written := true })] }

/-- A task record in the last 80 bytes of the scratchpad, FCLASS 32 and PRIO 15. -/
def tmK : Team :=
  { tm with scratch := [(8112, 0x1E), (8114, 5), (8118, 32), (8119, 15)], lines := [(31, { Line.ready with written := true })] }

end W

theorem witness_engine_issue :
    (TileAt tmE (tileOf tmE 3) ∧ seqPending (stOf gr tmE seq7) 2 7 3 (tileOf tmE 3).lines = false ∧ linesInUse (stOf gr tmE core2) gr.core 3 (tileOf tmE 3).lines = false) ∧
    UniFree (stOf gr tmE core2) gr [4, 5, 6] [] ∧ engineLoad (stOf gr tmE eng31) gr.core < 32 ∧
    (TileIn tmE (tileOf tmE 3) ((w 5 8176).rdW 5).toNat ∧ (tileOf tmE 3).layOk = true ∧ ((w 4 32).rdW 4).toNat % 32 = 0 ∧
      layVer (tileOf tmE 3).layout = true ∧ ((w 4 15).rdW 4).toNat < 16) ∧
    (layArr (tileOf tmE 1).layout = 0 ∧ slice ((w 5 0x0000010000001FF0).rdW 5) 24 8 = 0 ∧ slice ((w 5 0x0000010000001FF0).rdW 5) 56 8 = 0 ∧
      slice ((w 5 0x0000010000001FF0).rdW 5) 32 24 % 4 = 0 ∧ TileIn tmE (tileOf tmE 1) (slice ((w 5 0x0000010000001FF0).rdW 5) 0 24) ∧
      okAnd (readList (stOf gr tmE core2) gr 3 tmE 256 (tileOf tmE 1).rows.toNat 4) (fun _ => true) = true) ∧
    (feature (stOf gr tmE core2) gr 5 = true ∧ slice ((w 5 0x0000000100010001).rdW 5) 60 4 = 0 ∧ ((w 4 256).rdW 4).toNat % 256 = 0 ∧
      slice ((w 5 0x0000000100010001).rdW 5) 40 20 % 8 = 0 ∧ ((w 6 8176).rdW 6).toNat % 16 = 0 ∧ tmE.inRange ((w 6 8176).rdW 6).toNat 16 = true ∧
      okAnd (readList (stOf gr tmE core2) gr 3 tmE 0 (2 * 1) 4) (fun r => moveOk none r.1) = true ∧
      slice ((w 5 0x0000000100010001).rdW 5) 32 8 ≠ 0 ∧
      slice ((w 5 0x0000000100010001).rdW 5) 0 16 ≤ slice ((w 5 0x0000000100010001).rdW 5) 16 16) :=
  ⟨⟨⟨by decide +kernel, by decide +kernel⟩, by decide +kernel, by decide +kernel⟩, uni _ _ _ rfl rfl rfl rfl _ _, by decide +kernel,
   ⟨⟨⟨by decide +kernel, by decide +kernel⟩, by decide, by decide⟩, by decide, by decide, by decide, by decide⟩,
   ⟨by decide, by decide, by decide, by decide, ⟨⟨by decide +kernel, by decide +kernel⟩, by decide, by decide⟩, by decide +kernel⟩,
   by decide, by decide, by decide, by decide, by decide, by decide, by decide +kernel, by decide, by decide⟩

theorem witness_ring_instructions :
    (feature (stOf (w 4 128) (tmR 0 []) core2) (w 4 128) 4 = true ∧ UniFree (stOf (w 4 128) (tmR 0 []) core2) (w 4 128) [4, 3] [] ∧
      ((w 4 128).rdW 4).toNat % 128 = 0 ∧ ((w 4 128).rdW 3).toNat = 256 ∧
      okAnd (ringCheck (stOf (w 4 128) (tmR 0 []) core2) 3 (tmR 0 []) 128) (fun u => decide (u.slotsz = 512)) = true ∧
      okAnd (({ by' := .issue 7, ctx := 1, who := agentOf 2, moment := 1, hbmDie := none } : EngAcc).read (stOf (w 4 128) (tmR 0 []) core2)
        ((List.range 64).map fun i => .byte (wrapVa (256 + i)))) (fun b => !b.bad && streamOk b.bytes true &&
          decide ((streamOf b.bytes).image ≤ 512 ∧ (streamOf b.bytes).origin = 0)) = true ∧
      okAnd (translate (dropFetched (stOf (w 4 128) (tmR 0 []) core2) (.issue 7)) 1 (agentOf 2) 0 0 .read) (fun t => decide (t.kind = .hbm)) = true ∧
      ∀ k, mgetD (stOf (w 4 128) (tmR 0 []) core2).skidders k 0 < 64) ∧
    ((tmR 2 [sub 2]).subs.find? fun u => decide (u64 u.ring = (w 4 128).rdW 4)) = some (sub 2) ∧
    (isUni (96 : BitVec 7) = true ∧ ((w 4 128).rdW (uniIdx 96)).toNat < (sub 2).nslot ∧ SlotAt (stOf (w 4 128) (tmR 2 [sub 2]) core2) 3 (tmR 2 [sub 2]) (sub 2) 0) ∧
    (SlotAt (stOf (w 4 128) (tmR 2 [sub 1]) core2) 3 (tmR 2 [sub 1]) (sub 1) 0 ∧ slotWord (tmR 2 [sub 1]) (sub 1) 0 ≠ (sub 1).expected 0) ∧
    (isUni (1 : BitVec 7) = false ∧ lowestLane ((st gr).cur.mask &&& gr.liveMask) = some 0 ∧ VecFree (st gr) gr [0] [3] [] ∧
      (gr.rdLane 0 3).1.toNat < (sub 2).nslot) :=
  ⟨⟨by decide, uni _ _ _ rfl rfl rfl rfl _ _, by decide, by decide, by decide +kernel, by decide +kernel, by decide +kernel,
     fun _ => by show 0 < 64; decide⟩, rfl, ⟨by decide, by decide, by decide +kernel, by decide +kernel, by decide +kernel⟩,
   ⟨⟨by decide +kernel, by decide +kernel, by decide +kernel⟩, by decide +kernel⟩, by decide, by decide,
   vec _ _ _ rfl rfl rfl rfl rfl _ _ _, by decide⟩

theorem witness_team_barriers :
    (Fresh (st gr) gr ∧ (1 : BitVec 6).toNat ≤ tm.ngrp ∧ tm.bars[barIdx 0].last[gr.gid % 32]! ≠ some (barPhase tm 0) ∧ tm.bars[barIdx 0].m = 0 ∧
      (mget (checkBar (withArrival (st gr) 3 tm gr 0 1) 3 (barIdx 0)).teams 3).any (fun t => barPhase t 0 != barPhase tm 0) = true) ∧
    (issueWait (stOf (waits (.bar 1 0 false)) tmB core2) (waits (.bar 1 0 false)) = some (.bar 1 0 false) ∧
      issueWait (stOf (waits (.bar 1 0 true)) tmB core2) (waits (.bar 1 0 true)) = some (.bar 1 0 true) ∧
      barHeld (stOf (waits (.bar 1 0 true)) tmB core2) (waits (.bar 1 0 true)) tmB 1 0 = false) ∧
    (tmB.bars[barIdx 1].last[gr.gid % 32]! = some 0 ∧ (0 : BitVec 16) ≠ barPhase tmB 1) ∧
    (let t := { tm with bars := tm.bars.set! 0 { bar with last := bar.last.set! 0 (some 0) } }; t.bars[barIdx 0].last[gr.gid % 32]! = some (barPhase t 0)) :=
  ⟨⟨by unfold Fresh; decide, by decide, by decide, by decide, by decide +kernel⟩, ⟨by decide, by decide, by decide⟩, ⟨by decide, by decide⟩, by decide⟩

theorem witness_transaction_barriers :
    TbarAt (stOf (w 4 8176) tmX core2) (w 4 8176) 3 tmX 4 8176 ∧ UniFree (stOf (w 4 8176) tmX core2) (w 4 8176) [4, 2] [6] ∧
    ((w 5 0xFFFFF).rdW 5).toNat < 2 ^ 20 ∧ ((w 5 0xFFFFFFFF).rdW 5).toNat < 2 ^ 32 ∧ (gr.rdW 0).toNat < tmX.nteam.toNat ∧
    ((stOf gr tmX core2).teams.find? fun p => decide (p.2.grid = tmX.grid) && decide (p.2.index = gr.rdW 0)) = some (3, tmX) ∧
    ((stOf gr { tmX with nteam := 2 } core2).teams.find? fun p => decide (p.2.grid = tmX.grid) && decide (p.2.index = gr.rdW 1)) = none ∧
    (tmX.tbar 8176).arrivals ≠ 0 ∧ (tmX.tbar 8176).phase ≠ (gr.rdW 1).truncate 4 ∧ Fresh (stOf gr tmX core2) gr ∧
    (issueWait (stOf (waits (.tbar 8176 1)) tmX core2) (waits (.tbar 8176 1)) = some (.tbar 8176 1) ∧
      inWave (stOf (waits (.tbar 8176 1)) tmX core2) 7 2 = false) :=
  ⟨⟨team _ rfl _ _, by decide, by decide, by decide, by decide, by decide, by decide⟩, uni _ _ _ rfl rfl rfl rfl _ _, by decide, by decide, by decide,
   rfl, by decide, by decide, by decide, by unfold Fresh; decide, by decide, by decide⟩

/-- Join 1 is ARMED, the group's own, and join 2 is not. -/
theorem witness_joins :
    (feature (st (w 4 64)) (w 4 64) 3 = true ∧
      okAnd (joinFind (st (w 4 64)) 1 2 ((w 4 64).rdW 4)) (fun r => decide (r.1 = 1) && (readJoin (st (w 4 64)) r.2).armed &&
        decide (joinEpoch ({ gr with join := 1 } : Machine.Group).join = (readJoin (st (w 4 64)) r.2).epoch) &&
        decide ((readJoin (st (w 4 64)) r.2).m ≠ (readJoin (st (w 4 64)) r.2).need)) = true ∧
      joinIndex ({ gr with join := 1 } : Machine.Group).join = 1 ∧ gr.joinArrived = false ∧ gr.detached = false) ∧
    (let r := publishGroup (setGroup (st gr) 7 gr) 7 .dev;
      stashLeft (st gr) gr.core 7 = false ∧ r.2.2 = false ∧ (mget r.1.groups 7).isSome = true ∧ r.1.cur = (st gr).cur) ∧
    (okAnd (joinFind (st (w 4 128)) 1 2 ((w 4 128).rdW 4)) (fun r => decide (r.1 = 2) && !(readJoin (st (w 4 128)) r.2).armed) = true ∧
      Fresh (st gr) gr ∧ armOk 0x0000000FFFFFFFFF = true ∧ armOk 0x01010001 = true ∧ UniFree (st gr) gr [4, 5] [6] ∧
      VecFree (st gr) gr (cohort (st gr)) [1] []) :=
  ⟨⟨by decide, by decide +kernel, by decide, rfl, rfl⟩, by decide +kernel, by decide +kernel, by unfold Fresh; decide, by decide, by decide,
   uni _ _ _ rfl rfl rfl rfl _ _, vec _ _ _ rfl rfl rfl rfl rfl _ _ _⟩

theorem witness_task_instructions :
    (∃ r, RecordAt (stOf gr tmK core2) gr 3 tmK 8112 r) ∧
    (stashLeft (stOf gr tmK core2) gr.core 7 = false ∧ (published (stOf gr tmK core2) 3 tmK 8112).2.2 = false ∧ (mget (published (stOf gr tmK core2) 3 tmK 8112).1.groups 7).isSome = true) ∧
    (UniFree (stOf gr tmK core2) gr [4, 5] [] ∧ OwnQueue (stOf gr tmK core2) gr 4 ∧ 4 < 4096) ∧
    (slice ((w 5 8112).rdW 5) 24 40 = 0 ∧ slice ((w 5 0x100001FB0).rdW 5) 24 8 = 0 ∧ slice ((w 5 0x100001FB0).rdW 5) 32 32 ≠ 0) ∧
    (TeamQueue (stOf gr tmK core2) gr tmK ∧ ({ gr with depth := 30 } : Machine.Group).depth < 31 ∧ 31 ≤ ({ gr with depth := 31 } : Machine.Group).depth) ∧
    (∀ q, mget ({ stOf gr tmK core2 with queues := [] } : State).queues tmK.qid = some q → q.born ≠ tmK.qborn) ∧
    (mget (st gr).graphs ((w 4 6).rdW 4).toNat = some gra ∧ gra.ctx = gr.ctx ∧ (publishGroup (st gr) 7 .dev).2.2 = false) := by
  refine ⟨⟨_, by decide, by decide, ?_, by decide +kernel, rfl, by decide +kernel, by decide +kernel⟩, ⟨by decide +kernel, by decide +kernel, by decide +kernel⟩,
    ⟨uni _ _ _ rfl rfl rfl rfl _ _, ⟨qu, rfl, rfl⟩, by decide⟩, by decide, ⟨⟨qu, rfl, rfl, rfl⟩, by decide, by decide⟩, fun q h => (by cases h),
    rfl, rfl, by decide +kernel⟩
  unfold ScratchFree; decide +kernel

/-! ### System instructions and commands -/

namespace W

/-- A control group of context 0 on control core 512. -/
def cg : Machine.Group := { gr with ctx := 0, team := none, w := (gr.w.set! 4 0x00300000#64) }

def privileged : Machine.Group := { gr with st := .handler }

def hdr : Hdr := { ctx := 1, assoc := 1, seq := 0, mode := .rud, pdc := 0 }

/-- Context 1 in a state, with its switch. -/
def inState (c : CtxState) (w : Switch) : State := { st gr with contexts := [(1, { ctx1 with st := c, switch := w })] }

def openBody : OpenBody :=
  { keyslot := 1, keyop := 1, slotQuota := 40, ctlQuota := 16, save := 0, savesz := 0, ptroot := 0, joinwin := 0, faultq := 0, rpt := 0, rptn := 0,
    linkto := 1000, mask := -1, job := 2, wkey := 5 }

/-- Control core 143 with one slot left of its 16. -/
def control15 : State :=
  { st gr with groups := (7, gr) :: (List.range 15).map fun i => (100 + i, { cg with core := Config.computeCores + 143, slot := i }) }

def noContext : State := { st gr with contexts := [], groups := [], teams := [], queues := [], graphs := [], kernels := [] }

end W

theorem witness_reclaim :
    (cg.privileged = true ∧ cg.ctx = 0 ∧ UniFree (st cg) cg [4, 6, 7] [8] ∧ cg.reclaiming = none ∧ ReclaimOk 0x00FF00C00800023F 0 0 ∧
      ReclaimOk 0x0001000000000402 0 0 ∧ coreClaimed (st cg) 575 = false) ∧
    (foldsPending (st cg) 2 = false ∧ ({ cg with reclaiming := some { core := 2, dest := 8, result := 1 } } : Machine.Group).reclaiming.isSome = true) ∧
    ((coreOf (stOf cg tm { core2 with hold := some { victim := 1, lanes := [] } }) 2).hold = some { victim := 1, lanes := [] } ∧
      (coreOf (st cg) 2).hold = none) ∧
    takeCore (stOf cg tm { core2 with hold := some { victim := 1, lanes := [] } }) 2 2 0 0 [] = none ∧
    (takeCore (st cg) 3 1 0 0 []).any (fun r => !foldsPending r.1 3) = true := by
  refine ⟨⟨by decide, rfl, uni _ _ _ rfl rfl rfl rfl _ _, rfl, by unfold ReclaimOk; decide, by unfold ReclaimOk; decide, by decide⟩,
    ⟨by decide, rfl⟩, ⟨rfl, rfl⟩, by decide +kernel, by decide +kernel⟩

theorem witness_system_instructions :
    (UniFree (st gr) gr [4, 5] [6] ∧ (255 : DWord).toNat < 256 ∧ (u64 gr.ctx).toNat = gr.ctx) ∧ privileged.privileged = true ∧
    (slice ((w 4 0x0001000000000000).rdW 4) 56 8 = 0 ∧ slice ((w 4 0x0001000000000000).rdW 4) 17 15 = 0 ∧
      slice ((w 4 0x0001000000000000).rdW 4) 48 8 = gr.ctx ∧ resumeBy (st gr) 0x0001000000000000 false = none ∧
      (resumeBy (st { gr with st := .parked false }) (handleOf gr) false).any (fun s => (mget s.groups 7).isSome) = true) ∧
    ((767 : DWord).toNat < 768 ∧ cg.ctx = 0 ∧ (slice (0x001 : DWord) 8 2 ≠ 2 ∧ slice (0x001 : DWord) 0 8 = gr.ctx) ∧
      invalWaits (st gr) { moment := 0, ctx := some 1, va := some 0 } = false) ∧
    (PwrreqOk 0x000003E80320008F ∧ LegalPoint (pointIn 0x000003E80320018F) ∧ ¬ LegalPoint (pointIn 0x000003E80258018F)) := by
  refine ⟨⟨uni _ _ _ rfl rfl rfl rfl _ _, by decide, by decide⟩, by decide, ⟨by decide, by decide, by decide, by decide +kernel, by decide +kernel⟩,
    ⟨by decide, rfl, by decide, by decide +kernel⟩, ?_, ?_, ?_⟩
  · unfold PwrreqOk; decide
  · unfold LegalPoint; decide
  · unfold LegalPoint; decide

theorem witness_switches_start :
    mget (st gr).contexts 9 = none ∧ (∃ c, mget (inState .running (.out 1)).contexts 1 = some c ∧ c.switch ≠ .none) ∧
    (∃ c, mget (inState .opened .none).contexts 1 = some c ∧ c.switch = .none ∧ c.st = .opened) ∧
    (∃ c, mget (inState .opening .none).contexts 1 = some c ∧ c.switch = .none ∧ c.st ≠ .opened ∧ c.st ≠ .running) ∧
    ∃ c, mget (inState .switchedOut .none).contexts 1 = some c ∧ c.switch = .none ∧ c.st = .switchedOut :=
  ⟨rfl, ⟨_, rfl, by decide⟩, ⟨_, rfl, rfl, rfl⟩, ⟨_, rfl, rfl, by decide, by decide⟩, _, rfl, rfl, rfl⟩

theorem witness_dict :
    mget (st gr).kernels gr.kernel = some kn ∧ ∃ wd r, kn.dict[0]? = some wd ∧ wd.getLsbD 0 = true ∧
    decodeWord wd.toNat = some (.add 0 ⟨false, false, 3, 2, 1⟩) ∧ intForm (.add 0 ⟨false, false, 3, 2, 1⟩) = some r ∧ r.Ready (st gr) gr :=
  ⟨rfl, _, _, rfl, by decide, by decide +kernel, rfl, vec _ _ _ rfl rfl rfl rfl rfl _ _ _, room gr 1 _ rfl rfl, fun _ _ => noTrap _⟩

theorem witness_commands_refused :
    cmdOf (.readyk hdr 2) = some (hdr, 0x11) ∧ fromFirmware (st gr) hdr = false ∧ anyLinkUp ({ st gr with links := [] } : State) = false ∧
    ((({ hdr with mode := .uud } : Hdr).mode = .uud ∧ 0x11 ≠ 0x1E)) ∧ arrives (st gr) { hdr with assoc := 2 } 0x11 = true ∧
    (st gr).fw.assocs.contains 2 = false ∧ Reaches (st gr) hdr 0x11 ∧ mget (st gr).contexts ({ hdr with ctx := 9 } : Hdr).ctx.toNat = none ∧
    (∃ c, mget (st gr).contexts 1 = some c ∧ c.assoc ≠ ({ hdr with assoc := 2 } : Hdr).assoc) ∧
    (∃ c, mget (inState .opening .none).contexts 1 = some c ∧ c.assoc = 1 ∧ c.st = .opening) ∧
    ∃ c, mget (inState .closing .none).contexts 1 = some c ∧ c.assoc = 1 ∧ c.st = .closing :=
  ⟨rfl, by decide, by decide, by decide, by decide, by decide, ⟨by decide, .inr (by decide)⟩, by decide, ⟨_, rfl, by decide⟩, ⟨_, rfl, rfl, rfl⟩, _, rfl, rfl, rfl⟩

theorem witness_context_commands :
    (Arrives noContext hdr ∧ mget noContext.contexts hdr.ctx.toNat = none ∧ OpenOk noContext 1 openBody ∧
      OpenOk noContext 1 { openBody with keyop := 0, wkey := 0, slotQuota := 1, ctlQuota := 0, linkto := 10000000 }) ∧
    Takes (inState .opening .none) hdr { ctx1 with st := .opening } (fun s => decide (s = .opening)) ∧
    (Takes (st gr) hdr ctx1 isOpen ∧ QuotasFit (st gr) 1 (-1) 40 16 0 ∧ ¬ MovesSave (st gr) 1 ctx1 ⟨40, 16, 0, 0, -1⟩ ∧ ¬ QuotasFit (st gr) 1 (-1) 41 16 0 ∧
      ¬ QuotasFit (st gr) 1 (-1) 0 16 0 ∧ AreaApart (st gr) 1 ctx1 ⟨40, 16, 0, 0, -1⟩ ∧ ¬ AreaApart (st gr) 1 ctx1 ⟨40, 16, 0, 65536, -1⟩) ∧
    Takes (st gr) hdr ctx1 (fun s => decide (s ≠ .closing)) ∧ hdr.ctx ≠ 0 := by
  have a : Arrives noContext hdr := ⟨by decide, .inr (by decide)⟩
  have b : Arrives (st gr) hdr := ⟨by decide, .inr (by decide)⟩
  refine ⟨⟨a, rfl, ?_, ?_⟩, ⟨⟨by decide, .inr (by decide)⟩, rfl, rfl, rfl⟩, ⟨⟨b, rfl, rfl, rfl⟩, ?_, ?_, ?_, ?_, ?_, ?_⟩, ⟨b, rfl, rfl, rfl⟩, by decide⟩
  all_goals first | (unfold AreaApart; decide +kernel) | (unfold OpenOk QuotasFit; decide +kernel) | (unfold QuotasFit; decide +kernel) | (unfold MovesSave; decide +kernel)

/-- A save area in use on the page of the tree. -/
def W.savedPage : State := { st gr with contexts := [(1, { ctx1 with save := 0x100000000, savesz := 65536 })] }

theorem witness_page_commands :
    Takes (st gr) hdr ctx1 isOpen ∧ mapWaits (st gr) 1 0 0 = false ∧ inMemory ctx1.ptroot = true ∧ ctx1.ptroot % 4096 = 0 ∧
    tableAt (rdEntry (st gr) (dieAgent 0) 1) 0x20000 0 5 ctx1.ptroot = none ∧ tableAt (rdEntry (st gr) (dieAgent 0) 1) 0 3 5 ctx1.ptroot = some 0x3000 ∧
    tableAt (rdEntry (st gr) (dieAgent 0) 1) (2 ^ 57 - 1) 5 5 ctx1.ptroot = some 0x1000 ∧ 2 ^ 57 ≤ (0x200000000000000 : DWord).toNat ∧
    inMemory (ctx1.rpt + 64 * 0) = true ∧
    mapRefused (st gr) 1 (rdEntry (st gr) (dieAgent 0) 1) (rdEntry (st gr) (dieAgent 0) 1 0x3000) 0 3 false = false ∧
    mapRefused savedPage 1 (rdEntry (st gr) (dieAgent 0) 1) (rdEntry (st gr) (dieAgent 0) 1 0x3000) 0 3 false = true := by
  refine ⟨⟨⟨by decide, .inr (by decide)⟩, rfl, rfl, rfl⟩, by decide +kernel, by decide, by decide, by decide +kernel, by decide +kernel, by decide +kernel,
    by decide, by decide, by decide +kernel, by decide +kernel⟩

theorem witness_queue_commands :
    (Reaches (st gr) { hdr with mode := .uud } 0x1E ∧ mget (st gr).contexts 1 = some ctx1 ∧ ctx1.assoc = 1 ∧ isOpen ctx1.st = true ∧
      Own (st gr).queues Queue.ctx hdr 4 qu ∧ ∀ q, ¬ Own (st gr).queues Queue.ctx hdr 5 q) ∧
    (4095 < 4096 ∧ (∀ q, mget (st gr).queues 4095 = some q → q.st = .destroyed) ∧
      (∀ q, mget ({ st gr with queues := [(4, { qu with st := .destroyed })] } : State).queues 4 = some q → q.st = .destroyed) ∧
      (-1 : BitVec 576) &&& ~~~ctx1.mask = 0 ∧ (131072 : BitVec 64).toNat % 131072 = 0) := by
  refine ⟨⟨⟨by decide, .inr (by decide)⟩, rfl, rfl, rfl, ⟨rfl, rfl⟩, fun q h => (by cases h.1)⟩, by decide, fun q h => (by cases h), fun q h => ?_, by simp [ctx1], by decide⟩
  cases h; rfl

theorem witness_graph_commands :
    Takes control15 hdr ctx1 isOpen ∧ mget control15.graphs 1023 = none ∧
    (devBytes control15 1 0x1000 (128 * 1)).any (fun b => (recordGraph control15 1 1023 1 143 0x1000 (chunks128 1 b)).isSome) = true ∧
    Own (st gr).graphs Graph.ctx hdr 6 gra :=
  ⟨⟨⟨by decide, .inr (by decide)⟩, rfl, rfl, rfl⟩, rfl, by decide +kernel, rfl, rfl⟩

theorem witness_port_commands :
    Reaches (st gr) { hdr with ctx := 0 } 0x30 ∧ Reaches (st gr) { hdr with mode := .uud } 0x30 ∧ hdr.ctx ≠ 0 ∧ 7 < 8 ∧ Arrives (st gr) hdr ∧
    anyLinkUp (st gr) = true ∧ hdr.mode ≠ .uud ∧ anyLinkUp ({ st gr with links := [] } : State) = false ∧ ({ hdr with mode := .uud } : Hdr).mode = .uud ∧
    (st gr).fw.canSign = true ∧ ({ st gr with fw := { (st gr).fw with canSign := false } } : State).fw.canSign = false ∧
    Reaches (st gr) hdr 0xFFFF ∧ (∀ c, mget (st gr).contexts 1 = some c → c.assoc = 1) := by
  refine ⟨⟨by decide, .inr (by decide)⟩, ⟨by decide, .inr (by decide)⟩, by decide, by decide, ⟨by decide, .inr (by decide)⟩, by decide, by decide, by decide, rfl, rfl, rfl,
    ⟨by decide, .inr (by decide)⟩, fun c h => ?_⟩
  cases h; rfl

/-- A handle that names no group, that of group 7, and STARTCG on the last control core with its last slot, at an even offset
and at an odd one. -/
theorem witness_kernel_commands :
    Takes (st gr) hdr ctx1 isOpen ∧ devBytes (st gr) 1 0x100000000 64 = none ∧
    (devBytes (st gr) 1 0 64).any (fun b => (failedCheck ctx1 b) == some 0) = true ∧
    (∀ k, ¬ Own (st gr).kernels Kernel.ctx hdr 9 k) ∧ Own (st gr).kernels Kernel.ctx hdr 2 kn ∧ kn.st ≠ .drained ∧
    (task.record.zero = 0 ∧ ({ task.record with zero := 1 } : TaskRec).zero ≠ 0 ∧ (startControl control15 1 143 2 task.record).isSome = true ∧
      startControl control15 1 143 2 { task.record with entry := 0x0005001F } = none) ∧
    (Own (st gr).queues Queue.ctx hdr 4 qu ∧ entryOk (st gr) 1 task.record = true ∧ recordOk task.record = true ∧ 0 < 1) ∧
    (handleOk (handleOf gr) = true ∧ groupNamed (st gr) 1 ctx1 0x0001000000000000 = none ∧
      (groupNamed (st gr) 1 ctx1 (handleOf gr)).any (fun x => decide (x.1 = some 7) && (teamOfHandle (st gr) ctx1 x.2).isSome) = true ∧
      (groupNamed (st { gr with team := none }) 1 ctx1 (handleOf gr)).any
        (fun x => decide (x.1 = some 7) && (teamOfHandle (st { gr with team := none }) ctx1 x.2).isNone) = true ∧
      slice (handleOf gr) 48 8 = 1) :=
  ⟨⟨⟨by decide, .inr (by decide)⟩, rfl, rfl, rfl⟩, by decide +kernel, by decide +kernel, fun k h => (by cases h.1), ⟨rfl, rfl⟩, by decide,
   ⟨by decide, by decide, by decide +kernel, by decide +kernel⟩, ⟨⟨rfl, rfl⟩, by decide +kernel, by decide +kernel, by decide⟩,
   by decide, by decide +kernel, by decide +kernel, by decide +kernel, by decide⟩

/-! ### LOADK -/

namespace W

/-- An image of 776 bytes: one role, one overlay of one entry at byte 768. The place and value of each byte that is not 0. -/
def imageCells : List (Nat × Byte) :=
  [(0, 77), (1, 73), (2, 88), (3, 75), (4, 1), (8, 8), (9, 3), (0xc, 1), (0xd, 1), (0xe, 1), (0xf, 255), (0x14, 1),
   (0x19, 1), (0x1d, 2), (0x10c, 1), (0x10e, 16), (0x201, 3), (0x204, 8), (0x208, 1), (0x20a, 1), (0x300, 4), (0x304, 125), (0x307, 32)]

def image : List Byte := (List.range 776).map fun i => mgetD imageCells i 0

/-- The machine with that image at virtual address 0x10000: a chain of tables, each with its first entry, down to a level-0 table with one leaf. -/
def toLoad : State :=
  { st gr with mem := [(0x1000, 1), (0x1001, 32), (0x2000, 1), (0x2001, 48), (0x3000, 1), (0x3001, 64), (0x4000, 1), (0x4001, 80), (0x5000, 1),
   (0x5001, 96), (0x6008, 31), (0x6009, 1), (0x600a, 1), (0x600c, 1)] ++ imageCells.map fun p => (0x100010000 + p.1, p.2) }

/-- A choice among things that exist picks one of them. -/
theorem pick_some {α : Type} (t n : Nat) {l : List α} (h : l ≠ []) : ∃ a ∈ l, pick t n l = some a := by
  match l, h with
  | [a], _ => exact ⟨a, by simp, rfl⟩
  | a :: b :: l, _ =>
    have hl : Config.choice t n % (a :: b :: l).length < (a :: b :: l).length := Nat.mod_lt _ (by simp)
    exact ⟨_, List.getElem_mem hl, List.getElem?_eq_getElem hl⟩

/-- A part of at most one page is placed while a leaf is absent and a frame is free. -/
theorem page_some (s : State) (part size : Nat) (m : Room) (hs : m.slots ≠ []) (hz : ceilDiv size 65536 ≤ 1) (f : Nat) (hf : f < 2 ^ 23)
    (hm : m.free f = true) : ∃ x g, takePages s part size m =
      some ([(x, g)], { m with slots := m.slots.filter fun y => ! [x].contains y, used := (65536 * g, 65536) :: m.used }) := by
  have hn : max 1 (ceilDiv size 65536) = 1 := by omega
  have run : ∀ l ∈ pageRuns 1 m.slots, ∃ x, l = [x] := by
    intro l hl
    obtain ⟨p, -, hp⟩ := List.mem_filterMap.1 hl
    simp only [List.range_one, List.mapM_cons, List.mapM_nil] at hp
    cases hq : m.slots.find? fun x => decide (x.1 = p.1 + 65536 * 0) with
    | none => rw [hq] at hp; cases hp
    | some x => rw [hq] at hp; cases hp; exact ⟨x, rfl⟩
  have some' : pageRuns 1 m.slots ≠ [] := by
    match hk : m.slots, hs with
    | p :: l, _ => simp [pageRuns, List.mapM_cons]
  obtain ⟨l, hl, hp⟩ := pick_some s.tick (2 ^ 98 + part) some'
  obtain ⟨x, rfl⟩ := run l hl
  have frame : ∃ g, takeFrames (fun j => Config.loaderFrame s.tick (part * 2 ^ 16 + j)) 1 [] m =
      some ([g], { m with used := (65536 * g, 65536) :: m.used }) := by
    have : ((List.range (2 ^ 23)).find? m.free).isSome = true := List.find?_isSome.2 ⟨f, List.mem_range.2 hf, hm⟩
    obtain ⟨g, hg⟩ := Option.isSome_iff_exists.1 this
    by_cases h : m.free (Config.loaderFrame s.tick (part * 2 ^ 16 + 0) % 2 ^ 23) = true
    · exact ⟨Config.loaderFrame s.tick (part * 2 ^ 16 + 0) % 2 ^ 23, by simp only [takeFrames, h, if_true, Option.bind_some, List.nil_append]⟩
    · exact ⟨g, by simp only [takeFrames, h, if_false, Bool.false_eq_true, hg, Option.bind_some, List.nil_append]⟩
  obtain ⟨g, hg⟩ := frame
  exact ⟨x, g, by simp only [takePages, hn, hp, hg, Option.bind_some, Option.map_some, List.zip_cons_cons, List.zip_nil_right]⟩

/-- Two different things stand first in a list. -/
def two {α : Type} [DecidableEq α] : List α → Bool
  | a :: b :: _ => decide (a ≠ b)
  | _ => false

/-- An entry of the tables, which no write has touched, is what memory holds. -/
def plain (m : List (Nat × Byte)) (a : Nat) : DWord := u64 (leNat ((paRange a 8).map (rdByte m)))

theorem plain_zero {m : List (Nat × Byte)} {a : Nat} (h : ∀ p ∈ m, p.1 < a ∨ a + 8 ≤ p.1) : plain m a = 0 := by
  have z : ∀ (l : List (Nat × Byte)) (x : Nat), (∀ p ∈ l, p.1 ≠ x) → rdByte l x = 0 := by
    intro l x hl
    have : mget l x = none := by
      induction l with
      | nil => rfl
      | cons p l ih =>
        have h1 := hl p (by simp)
        have h2 := ih fun q hq => hl q (by simp [hq])
        simp only [mget]
        split
        · rename_i h3; exact absurd h3 h1
        · exact h2
    simp [rdByte, mgetD, this, unlistedByte]
  have : (paRange a 8).map (rdByte m) = List.replicate 8 0 := by
    have : ∀ i, i < 8 → rdByte m (a + i) = 0 := fun i hi => z m _ fun p hp => by have := h p hp; omega
    have h0 := this 0 (by omega)
    rw [Nat.add_zero] at h0
    simp [paRange, List.range_succ, this, h0, List.replicate]
  rw [plain, this]; rfl

/-- A table whose first entry alone is present. -/
def HeadOnly (m : List (Nat × Byte)) (l base next : Nat) : Prop :=
  isPointer (plain m base) (l + 1) = true ∧ tableOf (plain m base) = next ∧ ∀ p ∈ m, p.1 < base + 8 ∨ base + tableSize (l + 1) ≤ p.1

theorem head_rest {m : List (Nat × Byte)} {l base next : Nat} (h : HeadOnly m l base next) :
    ∀ i, i + 1 < 2 ^ (levelBits (l + 1)).2 → plain m (base + 8 * (i + 1)) = 0 := by
  intro i hi
  refine plain_zero fun p hp => ?_
  have := h.2.2 p hp
  simp only [tableSize] at this
  omega

theorem range_head (l : Nat) : List.range (2 ^ (levelBits (l + 1)).2) =
    0 :: (List.range (2 ^ (levelBits (l + 1)).2 - 1)).map Nat.succ := by
  rw [← List.range_succ_eq_map]; congr 1; have := Nat.two_pow_pos (levelBits (l + 1)).2; omega

theorem head_ranges {m : List (Nat × Byte)} {l base next : Nat} (h : HeadOnly m l base next) :
    treeRanges (plain m) (l + 1) base = (base, tableSize (l + 1)) :: treeRanges (plain m) l next := by
  have : ∀ i ∈ List.range (2 ^ (levelBits (l + 1)).2 - 1), plain m (base + 8 * Nat.succ i) = 0 := fun i hi =>
    head_rest h i (by have := List.mem_range.1 hi; omega)
  rw [treeRanges, range_head, List.flatMap_cons, List.flatMap_map, List.flatMap_eq_nil_iff.2]
  · simp only [Nat.mul_zero, Nat.add_zero, h.1, if_true, h.2.1, List.append_nil]
  · intro i hi; simp [this i hi, isPointer]

theorem head_slots {m : List (Nat × Byte)} {l base next : Nat} (h : HeadOnly m l base next) :
    emptySlots (plain m) (l + 1) base 0 = emptySlots (plain m) l next 0 := by
  have : ∀ i ∈ List.range (2 ^ (levelBits (l + 1)).2 - 1), plain m (base + 8 * Nat.succ i) = 0 := fun i hi =>
    head_rest h i (by have := List.mem_range.1 hi; omega)
  rw [emptySlots, range_head, List.flatMap_cons, List.flatMap_map, List.flatMap_eq_nil_iff.2]
  · simp only [Nat.mul_zero, Nat.add_zero, h.1, if_true, h.2.1, List.append_nil]
  · intro i hi; simp [this i hi, isPointer]

theorem heads : HeadOnly toLoad.mem 4 0x1000 0x2000 ∧ HeadOnly toLoad.mem 3 0x2000 0x3000 ∧ HeadOnly toLoad.mem 2 0x3000 0x4000 ∧
    HeadOnly toLoad.mem 1 0x4000 0x5000 ∧ HeadOnly toLoad.mem 0 0x5000 0x6000 := by
  unfold HeadOnly; decide +kernel

theorem rd_plain (n : Nat) : rdEntry toLoad (dieAgent 0) n = plain toLoad.mem := by
  funext a
  rfl

/-- The level-0 table: one leaf, that of the image. -/
theorem level0 : ∀ i ∈ List.range 32, plain toLoad.mem (0x6000 + 8 * i) = if i = 1 then 0x10001011F else 0 := by
  have far : ∀ p ∈ toLoad.mem, p.1 < 0x6000 ∨ (0x6008 ≤ p.1 ∧ p.1 < 0x6010) ∨ 0x6100 ≤ p.1 := by decide +kernel
  intro i hi
  have := List.mem_range.1 hi
  by_cases h : i = 1
  · subst h; decide +kernel
  · rw [if_neg h]
    refine plain_zero fun p hp => ?_
    have := far p hp; omega

/-- The absent leaves are those of the other 31 pages. -/
theorem room_slots : (roomOf toLoad ctx1).slots =
    ((List.range 32).map fun i => (65536 * i, 0x6000 + 8 * i)).filter fun p => decide (p.1 ≠ 65536) := by
  obtain ⟨h1, h2, h3, h4, h5⟩ := heads
  have h0 : emptySlots (plain toLoad.mem) 0 0x6000 0 =
      ((List.range 32).map fun i => (65536 * i, 0x6000 + 8 * i)).filter fun p => decide (p.1 ≠ 65536) := by
    rw [emptySlots]
    simp only [Nat.zero_add]
    refine List.filter_congr fun p hp => ?_
    obtain ⟨i, hi, rfl⟩ := List.mem_map.1 hp
    simp only [level0 i hi]
    have := List.mem_range.1 hi
    by_cases h : i = 1
    · subst h; rfl
    · rw [if_neg h]; have : 65536 * i ≠ 65536 := by omega
      simp [this]
  rw [← h0, ← head_slots h5, ← head_slots h4, ← head_slots h3, ← head_slots h2, ← head_slots h1, ← rd_plain toLoad.fresh]
  simp only [roomOf, show ctx1.ptroot = 0x1000 from rfl]
  rw [if_pos (by decide)]

theorem room_used : (roomOf toLoad ctx1).used = [(0, 0), (0, 64 + 64 * 2 ^ 15), (0, 0), (0x1000, 4096), (0x2000, 4096), (0x3000, 1024),
    (0x4000, 64), (0x5000, 2048), (0x6000, 256), (0x100010000, 65536)] := by
  obtain ⟨h1, h2, h3, h4, h5⟩ := heads
  have h0 : treeRanges (plain toLoad.mem) 0 0x6000 = [(0x6000, 256), (0x100010000, 65536)] := by
    rw [treeRanges]
    rw [List.filterMap_congr (g := fun i => if i = 1 then some (0x100010000, 65536) else none)]
    · rfl
    · intro i hi
      simp only [level0 i hi]
      by_cases h : i = 1
      · subst h; rfl
      · rw [if_neg h, if_neg h]; rfl
  have h : treeRanges (plain toLoad.mem) 5 0x1000 = [(0x1000, 4096), (0x2000, 4096), (0x3000, 1024), (0x4000, 64), (0x5000, 2048),
      (0x6000, 256), (0x100010000, 65536)] := by
    rw [head_ranges h1, head_ranges h2, head_ranges h3, head_ranges h4, head_ranges h5, h0]; rfl
  have : toLoad.contexts = [(1, ctx1)] := rfl
  simp only [roomOf, usedRanges, show zeroRanges toLoad = [] from rfl, List.nil_append, this, List.flatMap_cons, List.flatMap_nil, List.append_nil, rd_plain, show ctx1.ptroot = 0x1000 from rfl]
  rw [if_pos (by decide), h]; rfl

/-- A walk of an address of the image's page finds its leaf, at every moment. -/
theorem walk_image {va : Nat} (h1 : 0x10000 ≤ va) (h2 : va < 0x20000) (n : Nat) :
    walkAt toLoad ctx1 (dieAgent 0) va n = .leaf 0x10001011F 0 := by
  have e : plain toLoad.mem 0x1000 = 0x2001 ∧ plain toLoad.mem 0x2000 = 0x3001 ∧ plain toLoad.mem 0x3000 = 0x4001 ∧
      plain toLoad.mem 0x4000 = 0x5001 ∧ plain toLoad.mem 0x5000 = 0x6001 ∧ plain toLoad.mem 0x6008 = 0x10001011F := by decide +kernel
  have v5 : vaIndex va 5 = 0 := by simp only [vaIndex, levelBits]; omega
  have v4 : vaIndex va 4 = 0 := by simp only [vaIndex, levelBits]; omega
  have v3 : vaIndex va 3 = 0 := by simp only [vaIndex, levelBits]; omega
  have v2 : vaIndex va 2 = 0 := by simp only [vaIndex, levelBits]; omega
  have v1 : vaIndex va 1 = 0 := by simp only [vaIndex, levelBits]; omega
  have v0 : vaIndex va 0 = 1 := by simp only [vaIndex, levelBits]; omega
  rw [walkAt, rd_plain, show ctx1.ptroot = 0x1000 from rfl, if_pos (by decide)]
  simp only [walkFrom, v5, v4, v3, v2, v1, v0]
  rw [Nat.mul_zero, Nat.add_zero, e.1, show walkEntry 0x2001 5 = fun d => d 0x2000 from rfl]
  beta_reduce
  rw [Nat.add_zero, e.2.1, show walkEntry 0x3001 4 = fun d => d 0x3000 from rfl]
  beta_reduce
  rw [Nat.add_zero, e.2.2.1, show walkEntry 0x4001 3 = fun d => d 0x4000 from rfl]
  beta_reduce
  rw [Nat.add_zero, e.2.2.2.1, show walkEntry 0x5001 2 = fun d => d 0x5000 from rfl]
  beta_reduce
  rw [Nat.add_zero, e.2.2.2.2.1, show walkEntry 0x6001 1 = fun d => d 0x6000 from rfl]
  beta_reduce
  rw [Nat.mul_one, show 0x6000 + 8 = 0x6008 from rfl, e.2.2.2.2.2]
  rfl

theorem translate_image {va : Nat} (h1 : 0x10000 ≤ va) (h2 : va < 0x20000) :
    translate toLoad 1 (dieAgent 0) 0 (u64 va) .read = .ok { pa := 0x100010000 + va % 65536, key := 1, kind := .hbm, peer := none } := by
  have hv : (u64 va).toNat = va := by simp only [u64, BitVec.toNat_ofNat]; omega
  have hc : mget toLoad.contexts 1 = some ctx1 := rfl
  have hl : leafChoices toLoad 1 ctx1 (dieAgent 0) va = [.leaf 0x10001011F 0] := by
    simp only [leafChoices, walk_image h1 h2, show leafMoments toLoad = [0] from rfl, show lastInval toLoad 1 va 0 = 0 from rfl]
    rfl
  rw [Machine.translate, if_neg (by omega), hc]
  simp only [hv, hl, pick]
  rfl

/-- The unit of 8 bytes of the image at an offset. -/
def unitAt (o : Nat) : UnitRead :=
  let pas := (List.range 8).map (0x100010000 + o + ·)
  let got := pas.zip (readUnit toLoad { who := dieAgent 0, grp := none, rho := Vector.replicate 4 toLoad.fresh, seen := [], key := keySerial toLoad 1 } 1 pas)
  { bytes := pas.map fun pa => ((got.find? (·.1 == pa)).map (·.2.1)).getD 0, bad := pas.any (badByte toLoad)
    newest := (got.map (·.2.2)).foldl Nat.max 0 }

theorem unit_image {u : Nat} (h1 : 0x2000 ≤ u) (h2 : u < 0x4000) : (devAcc toLoad 1).unit toLoad u = .ok (unitAt (8 * u % 65536)) := by
  rw [EngAcc.unit]
  simp only [devAcc, translate_image (va := 8 * u) (by omega) (by omega)]
  rfl

/-- A part of at most one page is loaded while a leaf is absent and a frame is free. -/
theorem part_some (s : State) (c : Context) (part : Nat) (b : List Byte) (e : Bool) (m : Room) (hs : m.slots ≠ []) (hz : b.length ≤ 65536)
    (f : Nat) (hf : f < 2 ^ 23) (hm : m.free f = true) : ∃ t va x g, loadPart s c part b e m =
      some (t, va, { m with slots := m.slots.filter fun y => ! [x].contains y, used := (65536 * g, 65536) :: m.used }) := by
  obtain ⟨x, g, h⟩ := page_some s part b.length m hs (by unfold ceilDiv; omega) f hf hm
  rw [loadPart, h]
  exact ⟨_, _, x, g, rfl⟩

/-- An image of one overlay is loaded while two leaves are absent and two frames are free. -/
theorem load_some (s : State) (c : Context) (kid base : Nat) (b : List Byte) (o : ImgOverlay) (ho : imgOverlays b = [o]) (hz : o.size ≤ 65536)
    (hd : imgField b 0x28 4 ≤ 65536) (h0 : s.fw.failed = []) (p q : Nat × Nat) (hpq : p ≠ q) (hp : p ∈ (roomOf s c).slots) (hq : q ∈ (roomOf s c).slots)
    (h1 : (roomOf s c).free 0x30000 = true) (h2 : (roomOf s c).free 0x30001 = true) : (loadImageAs s 1 c kid base b).isSome = true := by
  obtain ⟨t, va, x, g, h⟩ := part_some s c 0 ((b.drop o.off).take o.size) true (roomOf s c) (List.ne_nil_of_mem hp)
    (by rw [List.length_take]; omega) 0x30000 (by decide) h1
  have left : ((roomOf s c).slots.filter fun y => ! [x].contains y) ≠ [] := by
    by_cases e : p = x
    · exact List.ne_nil_of_mem (List.mem_filter.2 ⟨hq, by simp; exact fun h => hpq (e.trans h.symm)⟩)
    · exact List.ne_nil_of_mem (List.mem_filter.2 ⟨hp, by simpa using e⟩)
  have none' : (roomOf s c).failed = [] := h0
  have free (l : List (Nat × Nat)) : ∃ f, f < 2 ^ 23 ∧ Room.free { roomOf s c with slots := l, used := (65536 * g, 65536) :: (roomOf s c).used } f = true := by
    by_cases e : g = 0x30000
    · refine ⟨0x30001, by decide, ?_⟩
      subst e
      simp only [Room.free, failedIn, none', List.isEmpty_nil, Bool.not_true, Bool.false_and, Bool.not_false, Bool.true_and, List.any_cons,
        Bool.not_or] at h2 ⊢
      rw [h2]; rfl
    · refine ⟨0x30000, by decide, ?_⟩
      simp only [Room.free, failedIn, none', List.isEmpty_nil, Bool.not_true, Bool.false_and, Bool.not_false, Bool.true_and, List.any_cons,
        Bool.not_or] at h1 ⊢
      rw [h1]
      simp [overlaps]; omega
  obtain ⟨f, hf, hm⟩ := free ((roomOf s c).slots.filter fun y => ! [x].contains y)
  obtain ⟨u, vb, y, k, h'⟩ := part_some t c 1 ((b.drop (imgField b 0x24 4)).take (imgField b 0x28 4)) false _ left
    (by rw [List.length_take]; omega) f hf hm
  simp only [loadImageAs, ho, loadOverlays, h, Option.bind_some, Option.map_some, List.length_singleton, h', Option.isSome_some]

end W

theorem units_image : ∀ l : List Nat, (∀ u ∈ l, 0x2000 ≤ u ∧ u < 0x4000) →
    (devAcc toLoad 1).units toLoad l = .ok (l.map fun u => (u, unitAt (8 * u % 65536)))
  | [], _ => rfl
  | u :: l, h => by
    rw [EngAcc.units, unit_image (h u (by simp)).1 (h u (by simp)).2, units_image l fun v hv => h v (by simp [hv])]
    rfl

theorem bytes_image : devBytes toLoad 1 0x10000 776 = some image := by
  have hu : ((((List.range 776).map fun i => Src.byte (wrapVa ((0x10000 : DWord).toNat + i))).flatMap Src.vas).map (· / 8)).eraseDups =
      (List.range 97).map (0x2000 + ·) := by decide +kernel
  rw [devBytes, EngAcc.read, hu, units_image _ fun u h => by
    obtain ⟨i, hi, rfl⟩ := List.mem_map.1 h
    have := List.mem_range.1 hi; omega]
  decide +kernel

theorem witness_loadk_refused : devBytes toLoad 1 (BitVec.ofNat 64 (2 ^ 57)) 1 = none ∧ failedCheck ctx1 [] = some 0 := by decide +kernel

theorem witness_loadk :
    Takes toLoad hdr ctx1 isOpen ∧ devBytes toLoad 1 0x10000 776 = some image ∧ failedCheck ctx1 image = none ∧
    ∃ kid base, freePick toLoad (2 ^ 94) ((List.range 65536).filter fun k => (mget toLoad.kernels k).isNone) = some kid ∧
      freePick toLoad (2 ^ 95) (freeBases toLoad 1 (imgField image 0x14 2)) = some base ∧
      (loadImageAs toLoad 1 ctx1 kid base image).isSome = true := by
  refine ⟨⟨⟨by decide, .inr (by decide)⟩, rfl, rfl, rfl⟩, bytes_image, by decide +kernel, ?_⟩
  have f := room_used
  obtain ⟨kid, -, hk⟩ := pick_some toLoad.tick (2 ^ 94) (l := (List.range 65536).filter fun k => (mget toLoad.kernels k).isNone)
    (List.ne_nil_of_mem (a := 0) (List.mem_filter.2 ⟨List.mem_range.2 (by decide), rfl⟩))
  have hb : freeBases toLoad 1 (imgField image 0x14 2) ≠ [] := by
    rw [show imgField image 0x14 2 = 1 by decide +kernel]
    exact List.ne_nil_of_mem (a := 6) (by rw [freeBases, if_neg (by decide)]; exact List.mem_filter.2 ⟨List.mem_range.2 (by decide), by decide⟩)
  obtain ⟨base, -, hb⟩ := pick_some toLoad.tick (2 ^ 95) hb
  exact ⟨kid, base, hk, hb, load_some toLoad ctx1 kid base image { off := 768, size := 8, entries := 1, slots := 1 } (by decide +kernel)
    (by decide) (by decide +kernel) rfl (0, 0x6000) (131072, 0x6010) (by decide) (by rw [room_slots]; decide) (by rw [room_slots]; decide)
    (by rw [Room.free, f]; decide) (by rw [Room.free, f]; decide)⟩

/-! ### Links, remote accesses, firmware, clusters -/

namespace W

/-- A link in a state, and the machine with it as link 0. -/
def link (x : LinkState) (n a : Nat) : Link := { Link.initial with st := x, lanes := n, attempts := a, pdcs := [3] }
def onLink (x : Link) : State := { st gr with links := [(0, x)] }

/-- An operation of a peer on context 1 by its job id and memory key, at a byte address of its page. -/
def peerHdr (va : DWord) (pdc : Nat) : PeerHdr := { link := 0, pdc := pdc, job := 1, mkey := 1, va := va }

def far (rod : Bool) : Peer := { ports := 1, rod := rod, job := 1, dest := 0, pid := 0, sa := 0, base := 0, mkey := 1 }

/-- A remote access, carried by link 0. -/
def access (k : RemoteKind) (id : Nat) (rod : Bool) : RemoteOp :=
  { id := id, ctx := 1, kind := k, va := 0, peer := far rod, addr := 0, link := some 0, cells := [], since := 0 }

def away (l : List RemoteOp) (t : Nat) : State := { st gr with remotes := l, tstamp := t }

def engOp : EngOp :=
  { id := 5, kind := .tstore, group := some 7, team := 3, desc := default, raw := false, gaddr := 0, bar := 0, list := [], lines := [],
    accepted := true, moment := 0, flipped := [], done := 0, buf := [], version := 0, retries := 0, receivers := [], ring := 0, slot := 0,
    err := false, stalled := none, stopped := false, abandoned := false, published := false, remote := [9] }

/-- Cluster 0 in the machine, in step 6 of bring-up. -/
def onCluster (c : Cluster) : State := { st gr with clusters := [(0, c)], tstamp := 50000 }
def goalUp : OpPoint := ⟨700, 900, 1⟩
def changeOf (p : ChangePhase) (g : OpPoint) : Change := { goal := g, capped := false, phase := p, since := 0 }
def drooping (d : Droop) (n : Nat) : Cluster := { Cluster.initial with droop := d, cycle := n }

end W

theorem witness_link_events :
    ((0 < 8) ∧ (7 < 8)) ∧ (linkOf (onLink (link .training 0 1)) 0).st = .training ∧ ¬ 2 ≤ (linkOf (onLink (link .training 0 1)) 0).attempts ∧
    2 ≤ (linkOf (onLink (link .training 0 2)) 0).attempts ∧ (linkOf (st gr) 0).st = .up ∧ (linkOf (onLink (link .degraded 5 0)) 0).st = .degraded ∧
    ((linkOf (onLink (link .draining 8 0)) 0).st = .draining ∧ ∀ r ∈ (onLink (link .draining 8 0)).remotes, r.link ≠ some 0) := by
  refine ⟨⟨by decide, by decide⟩, rfl, by decide, by decide, rfl, rfl, rfl, ?_⟩
  intro r hr; cases hr

theorem witness_peer_operations :
    (PeerArrives (st gr) (peerHdr 8 3) ∧ PeerArrives (onLink (link .degraded 5 0)) (peerHdr 8 3) ∧
      PeerArrives (onLink (link .draining 8 0)) (peerHdr 8 3)) ∧
    (PeerOf (st gr) (peerHdr 8 3) 1 ∧ ∀ ctx, ¬ PeerOf (st gr) { peerHdr 8 3 with mkey := 2 } ctx) ∧
    ((peerWrites (st gr) 1 (unitGroups ((List.range 2).zip [(1 : BitVec 8), 2] |>.map fun q => ((8 : DWord).toNat + q.1, q.2)))).isSome = true ∧
      (peerUnits (st gr) 1 (((List.range 2).map fun i => ((8 : DWord).toNat + i) / 8).eraseDups)).isSome = true) ∧
    ((9 : DWord).toNat % 8 ≠ 0 ∧ (8 : DWord).toNat % 8 = 0 ∧
      (peerTrans (st gr) 1 8 .rmw).any (fun t => (paRange t.pa 8).all fun a => !badByte (st gr) a) = true) := by
  refine ⟨⟨⟨by decide, .inl rfl⟩, ⟨by decide, .inr (.inl rfl)⟩, ⟨by decide, .inr (.inr ⟨rfl, rfl⟩)⟩⟩, ⟨rfl, ?_⟩, ⟨by decide +kernel, by decide +kernel⟩,
    by decide, by decide, by decide +kernel⟩
  intro ctx h; cases h

theorem witness_remote_accesses :
    (∀ k, InFlight (away [access k 9 false] 0) 9 (access k 9 false) ∧ (access k 9 false).link ≠ none ∧
      behindEntry (away [access k 9 false] 0) (access k 9 false) = false) ∧
    (InFlight (away [{ access (.entry 7 1) 9 false with link := none }] 0) 9 { access (.entry 7 1) 9 false with link := none }) ∧
    (InFlight (away [access (.entry 7 1) 8 true, access (.entry 7 1) 9 true] 0) 9 (access (.entry 7 1) 9 true) ∧
      behindEntry (away [access (.entry 7 1) 8 true, access (.entry 7 1) 9 true] 0) (access (.entry 7 1) 9 true) = true) ∧
    (mget (away [access (.entry 7 1) 9 false] 0).contexts 1 = some ctx1 ∧ (away [] 999999).tstamp < 0 + 1000 * ctx1.linkto ∧
      0 + 1000 * ctx1.linkto ≤ (away [] 1000000).tstamp) ∧
    findOp { away [access (.engine 2 5) 9 false] 1000000 with cores := [(2, { core2 with eng := [engOp] })] } 2 5 = some engOp := by
  refine ⟨fun k => ⟨rfl, by simp [access], rfl⟩, rfl, ⟨rfl, rfl⟩, ⟨rfl, by decide, by decide⟩, rfl⟩

theorem witness_firmware_events :
    ((State.reset.fw.stopped = false ∧ State.reset.fw.step = 0) ∧
      ({ State.reset with fw := { State.reset.fw with stopped := true } } : State).fw.stopped = true ∧ (st gr).fw.step = 6) ∧
    (AllSettled State.reset ∧ ¬ AllSettled { State.reset with clusters := [(0, { Cluster.initial with mailbox := some goalUp })] } ∧
      mget (onCluster .initial).clusters 0 = some .initial) ∧
    (anyLinkUp (st gr) = true ∧ (3 : Nat) ∈ ({ (st gr) with fw := { (st gr).fw with liveReports := [3] } } : State).fw.liveReports ∧
      (2 : Nat) ≠ 0 ∧ (2 : Nat) ∉ (st gr).fw.assocs) := by
  refine ⟨⟨⟨rfl, rfl⟩, rfl, rfl⟩, ⟨?_, ?_, rfl⟩, rfl, by decide, by decide, by decide⟩ <;> (unfold AllSettled; decide)

theorem witness_operating_point_events :
    (3 ≤ (st gr).fw.step ∧ (0 < 144) ∧ LegalPoint goalUp ∧ LegalPoint ⟨800, 1000, 1⟩ ∧ LegalPoint ⟨600, 400, 2⟩ ∧ LegalPoint ⟨800, 850, 0⟩ ∧
      (0x103F : Word) &&& ~~~0xFF3F#32 = 0 ∧ 10 ≤ (10 : Word).toNat ∧ (100 : Word).toNat ≤ 100) ∧
    ((clusterOf (onCluster { Cluster.initial with mailbox := some goalUp }) 0).change = none ∧
      (clusterOf (onCluster { Cluster.initial with mailbox := some goalUp }) 0).mailbox ≠ none ∧ goalUp ≠ Cluster.initial.point ∧
      (clusterOf (onCluster { Cluster.initial with capMoved := true, cap := some 500 }) 0).capMoved = true) ∧
    ((changeOf .rampUp goalUp).since + 100 * ((changeOf .rampUp goalUp).goal.vmv - Cluster.initial.point.vmv) ≤ (onCluster .initial).tstamp ∧
      Cluster.initial.point.vmv ≤ goalUp.vmv ∧
      (changeOf .rampDown ⟨600, 400, 1⟩).since + 100 * (Cluster.initial.point.vmv - 600) ≤ (onCluster .initial).tstamp ∧
      (changeOf .relock goalUp).since + 1000 ≤ (onCluster .initial).tstamp ∧
      (clusterOf (onCluster { Cluster.initial with change := some (changeOf .relock goalUp) }) 0).change = some (changeOf .relock goalUp)) := by
  refine ⟨⟨by decide, by decide, ?_, ?_, ?_, ?_, by decide, by decide, by decide⟩, ⟨rfl, by decide, by decide, rfl⟩, by decide, by decide, by decide, by decide, rfl⟩ <;>
    (unfold LegalPoint; decide)

theorem witness_droop_and_waves :
    ((clusterOf (onCluster (drooping .idle 0)) 0).relocking = false ∧ (drooping .idle 0).droop = .idle) ∧
    ((clusterOf (onCluster (drooping (.stretch 5) 11)) 0).droop = .stretch 5 ∧ (drooping (.stretch 5) 11).cycle < 5 + 7 ∧
      5 + 7 ≤ (drooping (.stretch 5) 12).cycle ∧ (drooping (.stretch 5) 75).cycle < 5 + 71) ∧
    ((clusterOf (onCluster (drooping (.window 12) 76)) 0).droop = .window 12 ∧ 12 + 64 ≤ (drooping (.window 12) 76).cycle ∧
      (drooping (.window 12) 75).cycle < 12 + 64) ∧
    (clusterOf (onCluster { drooping .idle 0 with change := some (changeOf .relock goalUp) }) 0).relocking = true ∧
    (clusterOf (onCluster { drooping .idle 9 with waveQ := [7], lastWave := some 1 }) 0).waveQ ≠ [] ∧ 1 + max 1 (gapOf Cluster.initial.cslr) ≤ 9 := by
  refine ⟨⟨rfl, rfl⟩, ⟨rfl, by decide, by decide, by decide⟩, ⟨rfl, by decide, by decide⟩, rfl, by decide, by decide⟩

/-! ### Dispatch, graphs, retirement, kills -/

namespace W

/-- Queue 4 with a segment of slots and spilled tasks. -/
def quOf (slots : Map Task) (spill : List (Nat × Task)) (disp : Nat) : Queue :=
  { qu with segs := [(0, { slots := slots, spill := spill, disp := disp })] }

def inQueue (q : Queue) : State := { st gr with queues := [(4, q)] }

/-- A graph that replays one command: its first bytes, with 8 bytes at 16 and 8 bytes at 24. -/
def graOf (b : List Byte) (a v : Nat) : Graph :=
  { gra with replaying := true, cmds := [b ++ List.replicate (16 - b.length) 0 ++ leList a 8 ++ leList v 8 ++ List.replicate 96 0] }

def cmdOf (x : Graph) : List Byte := x.cmds.headD []
def replay (x : Graph) : State := { st gr with graphs := [(6, x)] }
def drainedK : Kernel := { kn with st := .drained }
def ended : Team := { tm with ended := true }
/-- A dirty byte of a group of the team that is not at hand. -/
def dirty : Map Dirty := [(64, { gid := 99, tr := { pa := 64, key := 1, kind := .hbm, peer := none }, stale := false })]
def publishes (rem : List Nat) (stop : Bool) : Publishing := { scope := .dev, refresh := some .dev, remote := rem, stopped := stop, last := false }

end W

theorem witness_dispatch :
    MayDispatch (inQueue (quOf [(0, task)] [] 65535)) 4 0 0 3 [(0, [0])] (quOf [(0, task)] [] 65535) task 2 kn ∧
    (∀ q t kid k, ¬ MayDispatch (st gr) 4 0 0 3 [(0, [0])] q t kid k) := by
  refine ⟨⟨rfl, rfl, by decide +kernel, by decide, by decide +kernel, by decide +kernel, by decide +kernel, ?_, (fun p hp => by cases hp), .inl rfl, ?_⟩, fun q t kid k h => ?_⟩
  · intro p hp; obtain rfl : p = (0, task) := List.mem_singleton.1 hp; decide
  · intro p hp h; obtain rfl : p = (0, task) := List.mem_singleton.1 hp; exact absurd rfl h
  · have h1 : qu = q := Option.some.inj h.queue
    subst h1; exact absurd h.task (by simp [qu, Queue.seg, mget, mgetD, Segment.empty])

theorem witness_promotion_and_refill :
    (mget (inQueue (quOf [(255, task)] [] 65536)).queues 4 = some (quOf [(255, task)] [] 65536) ∧ (255 : Nat) < 256 ∧
      mget ((quOf [(255, task)] [] 65536).seg 0).slots 255 = some task ∧ task.age0 + 65536 ≤ ((quOf [(255, task)] [] 65536).seg 0).disp) ∧
    (((quOf [] [(2, task)] 65536).seg 0).spill[256 - 256]? = some (2, task) ∧ task.age0 + 65536 ≤ ((quOf [] [(2, task)] 65536).seg 0).disp) ∧
    (((quOf [] [(2, task)] 0).seg 0).spill = (2, task) :: [] ∧ ((quOf [] [(2, task)] 0).seg 0).free = some 0) := by
  refine ⟨⟨rfl, by decide, rfl, by decide⟩, ⟨rfl, by decide⟩, rfl, rfl⟩

theorem witness_graph_replay :
    (∀ b a v k, cmdField (cmdOf (graOf b a v)) 0 1 = k → AtCommand (replay (graOf b a v)) 6 k (graOf b a v) gr (cmdOf (graOf b a v))) ∧
    (cmdField (cmdOf (graOf [] 0 0)) 0 1 = 0 ∧ cmdField (cmdOf (graOf [5] 0 0)) 0 1 = 5) ∧
    (let x := graOf [1, 0, 4, 0, 1] 0x0005001E 0; let s := replay x; let r := recordOf (((cmdOf x).drop 16).take 80)
      cmdField (cmdOf x) 0 1 = 1 ∧ mget s.queues (cmdField (cmdOf x) 2 2) = some qu ∧ qu.ctx = x.ctx ∧ entryOk s x.ctx r = true ∧ recordOk r = true ∧
        cmdField (cmdOf x) 4 4 ≠ 0 ∧ (interpreterPublish s x).2.2 = false) ∧
    cmdField (cmdOf (graOf [1, 0, 4, 0, 0] 0x0005001E 0)) 4 4 = 0 ∧
    (let x := graOf [2] 64 0x01010001; let s := replay x
      cmdField (cmdOf x) 0 1 = 2 ∧ ctxFeature s x.ctx 3 = true ∧ armOk (u64 (cmdField (cmdOf x) 24 8)) = true ∧
        okAnd (joinFind s x.ctx gr.core (u64 (cmdField (cmdOf x) 16 8))) (fun r => (readJoin s r.2).armed) = true) ∧
    (let x := graOf [3] 128 0; let s := replay x
      cmdField (cmdOf x) 0 1 = 3 ∧ okAnd (joinFind s x.ctx gr.core (u64 (cmdField (cmdOf x) 16 8))) (fun r => !(readJoin s r.2).armed) = true) ∧
    (let x := graOf [4] 8 9; let s := replay x; let a := u64 (cmdField (cmdOf x) 16 8)
      cmdField (cmdOf x) 0 1 = 4 ∧ a.toNat % 8 = 0 ∧ okAnd (translate s x.ctx (agentOf gr.core) 0 a .write) (fun t =>
        !(publishGroup (setGroup s x.cg { gr with pend := gr.pend ++ storeUnits t a (leList 9 8) }) x.cg .dev).2.2) = true) := by
  refine ⟨fun b a v k h => ⟨rfl, rfl, rfl, h⟩, ⟨by decide, by decide⟩, by decide +kernel, by decide, by decide +kernel, by decide +kernel, by decide +kernel⟩

theorem witness_retirement :
    (mget ({ st gr with kernels := [(2, drainedK)] } : State).kernels 2 = some drainedK ∧ drainedK.st = .drained ∧ kn.st ≠ .drained ∧
      mget (st gr).kernels 2 = some kn) ∧
    (Retires (stOf gr ended core2) 3 ended ∧ ∀ t', mget (lastDirty (stOf gr ended core2) 3).teams 3 = some t' → t'.stashDirty = []) ∧
    (Retires (stOf gr { ended with stashDirty := dirty } core2) 3 { ended with stashDirty := dirty } ∧
      (mget (lastDirty (stOf gr { ended with stashDirty := dirty } core2) 3).teams 3).any (fun t' => !t'.stashDirty.isEmpty) = true) ∧
    (∀ t, mget (st gr).teams 3 = some t → t.ended = false) := by
  refine ⟨⟨rfl, rfl, by decide, rfl⟩, ⟨⟨rfl, rfl, (fun o h => by cases h), (fun o h => by cases h), rfl, by decide, by decide⟩, ?_⟩,
    ⟨⟨rfl, rfl, (fun o h => by cases h), (fun o h => by cases h), rfl, by decide, by decide⟩, by decide +kernel⟩, fun t h => ?_⟩
  · intro t' h
    have : mget (lastDirty (stOf gr ended core2) 3).teams 3 = some ended := by decide +kernel
    rw [this] at h; cases h; rfl
  · cases h; rfl

theorem witness_kill_and_publish :
    (mget (st { gr with killDue := some 0 }).groups 7 = some { gr with killDue := some 0 } ∧ Between { gr with killDue := some 0 } ∧
      ({ gr with killDue := some 0 } : Machine.Group).koff = false) ∧ gr.killDue = none ∧
    (Between { gr with publishing := some (publishes [] true) } ∧
      0 + 65536 ≤ (clusterOf { st gr with clusters := [(clusOf 2, { Cluster.initial with cycle := 65536 })] } (clusOf gr.core)).cycle ∧
      (clusterOf { st gr with clusters := [(clusOf 2, { Cluster.initial with cycle := 65535 })] } (clusOf gr.core)).cycle < 0 + 65536) ∧
    ((publishes [9] false).stopped = false ∧ (publishes [9] false).remote ≠ [] ∧ (publishes [] false).remote = []) ∧
    (switching { st gr with contexts := [(1, { ctx1 with switch := .out 2 })] } gr.ctx = true ∧ switching (st gr) gr.ctx = false) ∧
    (mget (publishGroup (st gr) 7 .dev).1.groups 7).isSome = true := by
  refine ⟨⟨rfl, ⟨(fun p h => by cases h), rfl, rfl⟩, by decide⟩, rfl, ⟨⟨(fun p h => by cases h; rfl), rfl, rfl⟩, by decide, by decide⟩,
    ⟨rfl, by decide, rfl⟩, ⟨by decide, by decide⟩, by decide +kernel⟩

/-! ### Notices, folds, overlay loads, fills, the sequencer -/

namespace W

/-- Two notices are pending. -/
def noticed : Machine.Group := { gr with notices := [(0x10, 0x50040), (0x20, 0x50040)] }

def plan (l : Nat) : FoldPlan := { level := l, lanes := Vector.replicate 32 0, resident := 16, changes := decide (l ≠ 0) }

/-- A core that holds one residency. -/
def coreRes (r : Residency) (q : List (Nat × Nat × Nat)) : Core := { Core.empty with res := [r], transitQ := q }

/-- The kernel with its overlay at another virtual address. -/
def imageAt (va : DWord) (r : Residency) : State :=
  { stOf gr tm (coreRes r []) with kernels := [(2, { kn with overlays := [{ ov with va := va }] })] }

/-- The machine with a remote page at 2^32: entry 0 of the remote page table at 0x7000. -/
def withFar (s : State) : State :=
  { s with
    mem := [(0x1000, 1), (0x1001, 0x20), (0x2000, 1), (0x2001, 0x30), (0x3000, 0x1F), (0x3001, 1), (0x3004, 1), (0x3008, 1), (0x3009, 0x40),
      (0x4000, 1), (0x4001, 0x50), (0x5000, 0x7F), (0x7000, 1), (0x7001, 1)]
    contexts := [(1, { ctx1 with rpt := 0x7000, rptn := 1 })] }

/-- A read went to a remote page, a fault of a cause was met, or neither. -/
def isFar {α : Type} : Except Miss α → Bool
  | .error (.far _ _) => true
  | _ => false
def isFault {α : Type} (p : Nat → Bool) : Except Miss α → Bool
  | .error (.fault f _) => p f.cause
  | _ => false

def loaded (lane : Option Nat) (v : Option (BitVec 128)) (b : Bool) : Machine.Load :=
  { id := 4, lane := lane, names := [1], sz := 2, val := v, bad := b, addr := 8, held := none }

def filling : Team := { tm with windows := [win'], stashFills := [(248, 7)] }
where win' : Window := { off := 7936, va := 0, len := 256 }

/-- A sequencer operation at the head, on a tile at line 0. -/
def storing (n : Nat) : SeqOp := { SeqOp.start 1 7 3 (.mstore 1 { (default : Desc) with fmt := 1, rows := 32, cols := 64 } 0) with done := n }
def zeroing : SeqOp := SeqOp.start 1 7 3 (.mzero 1)
def onSeq (o : SeqOp) : State := stOf gr tm { core2 with seq := [o] }
/-- The clocks of core 2's cluster relock. -/
def relocks (s : State) : State :=
  { s with clusters := [(clusOf 2, { Cluster.initial with change := some { goal := ⟨700, 900, 1⟩, capped := false, phase := .relock, since := 0 } })] }
def absentTm : Team := tm.setLine 0 { written := true, engine := true, absent := true, spilled := false }

end W

theorem witness_notice_delivery :
    mget (st noticed).groups 7 = some noticed ∧ LowestNotice noticed 0x10 0x50040 ∧ Deliverable (st noticed) noticed ∧ gr.notices = [] := by
  refine ⟨rfl, ⟨rfl, by decide⟩, ⟨rfl, rfl, by decide, ⟨(fun p h => by cases h), rfl, rfl⟩, rfl, by decide, by decide, by decide, by decide, by decide⟩, rfl⟩

theorem witness_fold_events :
    (mget (st { gr with foldPlan := some (plan 1) }).groups 7 = some { gr with foldPlan := some (plan 1) } ∧
      Between { gr with foldPlan := some (plan 1) } ∧ gr.st.ended = false ∧
      ({ gr with foldPlan := some (plan 1), st := .exited } : Machine.Group).st.ended = true ∧ (plan 1).changes = true ∧ (plan 0).changes = false) ∧
    (wouldExpand (st { gr with level := 1 }) 7 { gr with level := 1 } = true ∧
      ∀ p ∈ groupsOn (st { gr with level := 1 }) gr.core, p.2.age < gr.age → wouldExpand (st { gr with level := 1 }) p.1 p.2 = false) ∧
    (clocksStopped (st gr) 2 = false ∧ clocksStopped (relocks (st gr)) 2 = true ∧ mget (relocks (st gr)).groups 7 = some gr ∧
      mget (relocks (st gr)).teams 3 = some tm) ∧
    mget (st gr).groups 7 = some gr ∧ mget (st gr).teams 3 = some tm ∧ ((tm.setLine 31 { Line.ready with spilled := true }).line 31).spilled = true := by
  refine ⟨⟨rfl, ⟨(fun p h => by cases h), rfl, rfl⟩, rfl, rfl, rfl, rfl⟩, ⟨by decide +kernel, ?_⟩, ⟨by decide, by decide, rfl, rfl⟩, rfl, rfl, rfl⟩
  intro p hp h
  have : ∀ p ∈ groupsOn (st { gr with level := 1 }) gr.core, ¬ p.2.age < gr.age := by decide
  exact absurd h (this p hp)

theorem witness_overlay_events :
    (∀ x r, ResAt (stOf gr tm (coreRes { res x with stalled := r } [])) 2 1 5 false x { res x with stalled := r }) ∧
    (okAnd (loadImage (imageAt 0 (res .loading)) 2 (res .loading)) (fun b => decide (b.length = 32)) = true ∧
      isFar (loadImage (withFar (imageAt 0x100000000 (res .loading))) 2 (res .loading)) = true ∧
      isFault (· = 3) (loadImage (imageAt 0x200000000 (res .loading)) 2 (res .loading)) = true ∧
      isFault (· ≠ 3) (loadImage (imageAt 0x200000000000000 (res .loading)) 2 (res .loading)) = true) ∧
    (let r := { res .resident with ov := 9, transit := true }; let s := stOf (waits (.overlay 6 (.enter false 0 12 none 0))) tm (coreRes r [(1, 6, 7)])
      (coreOf s 2).res.find? (·.transit) = some r ∧ r.st = .resident ∧ (coreOf s 2).transitQ ≠ [] ∧
        (∃ q ∈ (coreOf s 2).transitQ, stillQueued s 2 q = true) ∧ ∀ p ∈ groupsOn s 2, holdsTransit s p.1 p.2 (coreOf s 2) r = false) := by
  refine ⟨fun x r => ⟨rfl, rfl⟩, ⟨by decide +kernel, by decide +kernel, by decide +kernel, by decide +kernel⟩, rfl, rfl, by decide, ?_, ?_⟩
  · exact ⟨_, List.mem_singleton.2 rfl, by decide +kernel⟩
  · decide +kernel

theorem witness_memory_events :
    (LoadHere { gr with loads := [loaded none (some 5) false] } 4 (loaded none (some 5) false) ∧
      LoadHere { gr with loads := [loaded (some 31) (some 5) false] } 4 (loaded (some 31) (some 5) false) ∧
      LoadHere { gr with loads := [loaded (some 0) none true] } 4 (loaded (some 0) none true)) ∧
    (∃ tr, FillAt (stOf gr filling core2) 3 248 7 filling gr tr ∧ (fillRead (stOf gr filling core2) 7 gr tr).isSome = true ∧
      fillRead { stOf gr filling core2 with badSectors := [tr.pa / 32] } 7 gr tr = none ∧
      FillAt { stOf gr filling core2 with badSectors := [tr.pa / 32] } 3 248 7 filling gr tr) ∧
    (mget (st gr).groups 7 = some gr ∧ clocksStopped (stOf gr filling core2) 2 = false ∧ clocksStopped (relocks (stOf gr filling core2)) 2 = true) := by
  have h : translate (stOf gr filling core2) 1 (agentOf 2) 0 (u64 (stashVa filling (248 * 32))) .read =
      .ok { pa := 0x100000000, key := 1, kind := .hbm, peer := none } := by decide +kernel
  refine ⟨⟨⟨rfl, .inl (by decide)⟩, ⟨rfl, .inl (by decide)⟩, ⟨rfl, .inr rfl⟩⟩,
    ⟨_, ⟨rfl, rfl, rfl, by decide, h, by decide⟩, by decide +kernel, by decide +kernel, ⟨rfl, rfl, rfl, by decide, h, by decide⟩⟩, rfl, by decide, by decide⟩

theorem witness_sequencer :
    ((coreOf (onSeq (storing 0)) 2).seq = storing 0 :: [] ∧ mget (onSeq (storing 0)).teams (storing 0).team = some tm) ∧
    ((storing 0).kind.access (storing 0).done).any (fun a => accessReady (onSeq (storing 0)) 3 tm a) = true ∧
    ((storing 0).kind.access (storing 0).done).any (fun a => !accessReady (stOf gr absentTm { core2 with seq := [storing 0], eng := [] }) 3 absentTm a) = true ∧
    (storing 0).done < (storing 0).kind.accesses ∧ (storing 99).kind.accesses ≤ (storing 99).done ∧
    (clocksStopped (onSeq (storing 0)) 2 = false ∧ clocksStopped (relocks (onSeq (storing 0))) 2 = true ∧
      (coreOf (relocks (onSeq (storing 0))) 2).seq = storing 0 :: []) ∧
    (zeroing.kind = .mzero 1 ∧ (coreOf (onSeq zeroing) 2).seq = zeroing :: []) := by
  refine ⟨⟨rfl, rfl⟩, by decide +kernel, by decide +kernel, by decide, by decide, ⟨by decide, by decide, rfl⟩, rfl, rfl⟩

/-! ### Operations of the engine and of the skidder, deliveries -/

namespace W

def onEng (o : EngOp) : State := stOf gr tm { core2 with eng := [o] }

/-- An operation that has been accepted, with its global address and some of its sectors landed. -/
def run (k : EngKind) (ga : DWord) (n : Nat) : EngOp := { op k with accepted := true, gaddr := ga, done := n }

/-- The reads of an operation's next sector, and the writes of all it stores. -/
def readsOf (s : State) (o : EngOp) : Except Miss UnitRead := (opAcc s 2 o).read s (o.srcs o.done)
def writesOf (s : State) (o : EngOp) : List PreWrite × Option (XFault × Nat) := (opAcc s 2 o).prepAll s (sectorGroups o.packed)
def failsBy (p : Nat → Bool) (x : Option (XFault × Nat)) : Bool := x.any fun e => p e.1.cause
def storeFails (p : Nat → Bool) : Except (XFault × Nat) (State × List Nat) → Bool
  | .error e => p e.1.cause
  | .ok _ => false

/-- An addressee of the multicast on the same die, and none. -/
def cast (l : List Nat) (n : Nat) : EngOp := { run .tmcast 0 n with receivers := l }

/-- The group's team with commit register 31 PENDING. -/
def pending (table : DWord) (entry st : Option (Nat × Nat)) : Team := { tm with cr := tm.cr.set! 31 (.pending 9 table 0 entry st) }

/-- Two delivery tables, for a ring of two entries at 0x400 that is empty and one at 0x440 that is full. -/
def rings (t : Team) : State :=
  { stOf gr t core2 with mem := tables ++ [(0x1000002F9, 4), (0x1000003F8, 0x40), (0x1000003F9, 4), (0x100000408, 1), (0x100000440, 2), (0x100000448, 1)] }

def comes (p : Deliver → Bool) (s : State) (table : DWord) (entry : Option (Nat × Nat)) (retry : Bool := false) : Bool :=
  p (deliverTry s 3 (pending table entry none) 31 9 table entry retry)

/-- A fill with its sectors landed. -/
def fullFill : EngOp := { run .fill 0 99 with ring := 128 }

/-- A drain of a STORE stream's slot, with the image of the slot. -/
def sub2 : Sub := { sub 4 with sd := { (sub 4).sd with kind := 2 } }
def drain (a : DWord) : EngOp := { run .drain a 0 with ring := 128, group := none }
def onDrain (a : DWord) : State := stOf gr (tmR 4 [sub2]) { core2 with eng := [drain a] }
def drained (a : DWord) : EngOp := { drain a with buf := (drainImage (onDrain a) (tmR 4 [sub2]) (drain a)).1 }

theorem acc_drain : opAcc (onDrain 64) 2 (drained 64) = { by' := .engine 2 6, ctx := 1, who := dieAgent 0, moment := 0, hbmDie := some 0 } := by
  have h : translate (onDrain 64) 1 (dieAgent (sub2.skid / 2)) 0 64 .locate = .ok { pa := 0x100000040, key := 1, kind := .hbm, peer := none } := by decide +kernel
  have h' : slotServer (onDrain 64) (drained 64) = some (servedBy (onDrain 64) 1 sub2 64) := rfl
  have hs : servedBy (onDrain 64) 1 sub2 64 / 2 = 0 := by
    simp only [servedBy, h, if_true, skidderOf, show homeDie 0x100000040 = 0 from rfl]; omega
  simp only [opAcc, h', hs]
  rfl

end W

/-- An MSTORE of the group, issued before the engine's operation, has its accesses still to make. -/
def W.afterStore : State := stOf gr tm { core2 with eng := [op .tcopy], seq := [storing 0] }

theorem witness_engine_accept :
    (OpAt (onEng (op .tcopy)) 2 6 (op .tcopy) tm ∧ (op .tcopy).abandoned = false ∧ (op .tcopy).accepted = false ∧ EngKind.ofEngine .tcopy = true ∧
      AcceptFree (onEng (op .tcopy)) tm 2 (op .tcopy)) ∧
    (OpAt (onEng (op .tmcast)) 2 6 (op .tmcast) tm ∧ EngKind.ofEngine .tmcast = true ∧ AcceptFree (onEng (op .tmcast)) tm 2 (op .tmcast)) ∧
    ¬ AcceptFree (onEng (op .tcopy)) (tm.setLine 1 { Line.ready with spilled := true }) 2 (op .tcopy) ∧
    ¬ AcceptFree (relocks (onEng (op .tcopy))) tm 2 (op .tcopy) ∧ (seqBefore afterStore 2 (op .tcopy) = true) := by
  refine ⟨⟨⟨rfl, rfl⟩, rfl, rfl, rfl, ⟨by decide +kernel, by decide +kernel⟩, by decide, by decide⟩,
    ⟨⟨rfl, rfl⟩, rfl, ⟨by decide +kernel, by decide +kernel⟩, by decide, by decide⟩, fun h => ?_, fun h => ?_, by decide +kernel⟩
  · have := h.1.2
    revert this; decide +kernel
  · have := h.2.2
    revert this; decide +kernel

/-- Two copies into the same lines, one of them with all its sectors landed. -/
def W.twoCopies : State := stOf gr tm { core2 with eng := [run .tcopy 0 99, { run .tcopy 0 0 with id := 7 }] }

theorem witness_sector_events :
    (∀ k, k ≠ .drain → k ≠ .fill → k ≠ .kvmove → OpAt (onEng (run k 0 0)) 2 6 (run k 0 0) tm ∧ Lands tm (run k 0 0)) ∧
    tm.badLines.contains (nextSector (run .tstore 0 0) / 256) = false ∧ (run .tcopy 0 0).checks = false ∧
    (okAnd (readsOf (onEng (run .tcopy 0 0)) (run .tcopy 0 0)) (fun r => !r.bad) = true ∧
      isFar (readsOf (withFar (onEng (run .tcopy 0x100000000 0))) (run .tcopy 0x100000000 0)) = true ∧
      isFault (· = 3) (readsOf (onEng (run .tcopy 0x200000000 0)) (run .tcopy 0x200000000 0)) = true ∧
      isFault (· ≠ 3) (readsOf (onEng (run .tcopy 0x200000000000000 0)) (run .tcopy 0x200000000000000 0)) = true) ∧
    (OpAt (onEng { run .kvmove 0 0 with list := [0, 1], slot := 1 }) 2 6 { run .kvmove 0 0 with list := [0, 1], slot := 1 } tm ∧
      Lands tm { run .kvmove 0 0 with list := [0, 1], slot := 1 }) ∧
    (clocksStopped (onEng (run .tcopy 0 0)) 2 = false ∧ clocksStopped (relocks (onEng (run .tcopy 0 0))) 2 = true ∧
      OpAt (relocks (onEng (run .tcopy 0 0))) 2 6 (run .tcopy 0 0) tm) ∧
    (stillWritten (otherOps (onEng (run .tcopy 0 99)) 2 (run .tcopy 0 99)) 1 = false ∧
      stillWritten (otherOps twoCopies 2 (run .tcopy 0 99)) 1 = true ∧ OpAt twoCopies 2 6 (run .tcopy 0 99) tm) ∧
    (EngKind.inbound .tcopy = true ∧ 1 ∈ (run .tcopy 0 99).lines ∧ ∀ x ∈ (run .tcopy 0 99).sectors.drop (run .tcopy 0 99).done, x / 256 ≠ 1) := by
  refine ⟨fun k h1 h2 h3 => ?_, by decide +kernel, rfl, ⟨by decide +kernel, by decide +kernel, by decide +kernel, by decide +kernel⟩,
    ⟨⟨rfl, rfl⟩, ⟨rfl, rfl, rfl, rfl, rfl, by decide, by decide⟩⟩, ⟨by decide, by decide, rfl, rfl⟩,
    ⟨by decide +kernel, by decide +kernel, rfl, rfl⟩, rfl, by decide, by decide +kernel⟩
  cases k <;> first | contradiction | exact ⟨⟨rfl, rfl⟩, ⟨rfl, rfl, rfl, rfl, rfl, by decide, by decide +kernel⟩⟩

/-- A move of one entry of 256 bytes, all read, to a page that is not there. -/
def W.farMove : EngOp := { run .kvmove 0x200000000 8 with list := [0, 1], slot := 1 }

theorem witness_engine_completes :
    (∀ k, k ≠ .kvmove → OpAt (onEng (run k 0 99)) 2 6 (run k 0 99) tm ∧ Completes tm (run k 0 99) ∧ (run k 0 99).checks = false ∧
      (run k 0 99).published = false ∧ (run k 0 99).receivers = [] ∧ noReceivers (onEng (run k 0 99)) 2 6 = true) ∧
    ((writesOf (onEng (run .tstore 0 99)) (run .tstore 0 99)).2.isNone = true ∧
      failsBy (· = 3) (writesOf (onEng (run .tstore 0x200000000 99)) (run .tstore 0x200000000 99)).2 = true ∧
      failsBy (· ≠ 3) (writesOf (onEng (run .tstore 0x200000000000000 99)) (run .tstore 0x200000000000000 99)).2 = true) ∧
    (okAnd (storeWhole (onEng (run .tstoreA 64 99)) 2 (run .tstoreA 64 99)) (fun _ => true) = true ∧
      storeFails (· = 3) (storeWhole (onEng (run .tstoreA 0x200000020 99)) 2 (run .tstoreA 0x200000020 99)) = true ∧
      storeFails (· ≠ 3) (storeWhole (onEng (run .tstoreA 0x200000000000020 99)) 2 (run .tstoreA 0x200000000000020 99)) = true) ∧
    (OpAt (onEng (run .kvmove 0 0)) 2 6 (run .kvmove 0 0) tm ∧ Completes tm (run .kvmove 0 0) ∧
      (moveWrites (onEng (run .kvmove 0 0)) 2 (run .kvmove 0 0) (opAcc (onEng (run .kvmove 0 0)) 2 (run .kvmove 0 0))
        (List.range ((run .kvmove 0 0).done / (8 * (run .kvmove 0 0).slot))) []).2.2.isNone = true) ∧
    (OpAt (onEng farMove) 2 6 farMove tm ∧ Completes tm farMove ∧ clocksStopped (onEng farMove) 2 = false ∧
      (moveWrites (onEng farMove) 2 farMove (opAcc (onEng farMove) 2 farMove) (List.range (farMove.done / (8 * farMove.slot))) []).2.2.any
        (fun x => decide (x.1 = 0)) = true) := by
  refine ⟨fun k h => ?_, ⟨by decide +kernel, by decide +kernel, by decide +kernel⟩, ⟨by decide +kernel, by decide +kernel, by decide +kernel⟩,
    ⟨⟨rfl, rfl⟩, ⟨rfl, rfl, rfl, rfl, by decide⟩, by decide +kernel⟩,
    ⟨rfl, rfl⟩, ⟨rfl, rfl, rfl, rfl, by decide⟩, by decide, by decide +kernel⟩
  cases k <;> first | contradiction | exact ⟨⟨rfl, rfl⟩, ⟨rfl, rfl, rfl, rfl, by decide +kernel⟩, by decide +kernel, rfl, rfl, by decide +kernel⟩

/-- The addressee's core is in a cluster whose clocks stand. -/
def W.castTo12 : State :=
  { onEng (cast [0] 99) with
    teams := [(3, { tm with index := 9 }), (4, { tm with core := 12 })]
    clusters := [(clusOf 12, { Cluster.initial with change := some { goal := ⟨700, 900, 1⟩, capped := false, phase := .relock, since := 0 } })] }

theorem witness_copies :
    (OpAt (onEng (cast [0] 99)) 2 6 (cast [0] 99) tm ∧ opTotal tm (cast [0] 99) ≤ (cast [0] 99).done ∧
      ((onEng (cast [0] 99)).teams.find? fun p => decide (p.2.grid = tm.grid) && decide (p.2.index.toNat = 0) &&
        canReceive (onEng (cast [0] 99)) (dieOf 2) p.2) = some (3, tm) ∧
      ((onEng (cast [7] 99)).teams.find? fun p => decide (p.2.grid = tm.grid) && decide (p.2.index.toNat = 7) &&
        canReceive (onEng (cast [7] 99)) (dieOf 2) p.2) = none ∧
      SlotFree (onEng (cast [0] 99)) tm 2 (receiving (onEng (cast [0] 99)) 2 3 (cast [0] 99)) ∧
      clocksStopped (onEng (cast [0] 99)) tm.core = false ∧
      (let t := { tm with core := 12 }
       (castTo12.teams.find? fun p => decide (p.2.grid = tm.grid) && decide (p.2.index.toNat = 0) && canReceive castTo12 (dieOf 2) p.2) = some (4, t) ∧
         clocksStopped castTo12 2 = false ∧ clocksStopped castTo12 12 = true)) ∧
    (({ st gr with acks := [{ team := 3, off := 4096 }] } : State).acks[0]? = some { team := 3, off := 4096 } ∧
      mget (st gr).teams 3 = some tm ∧ (tm.line 16).spilled = false ∧ clocksStopped (st gr) tm.core = false ∧
      clocksStopped (relocks (st gr)) tm.core = true ∧
      mget (stOf gr (tm.setLine 16 { Line.ready with spilled := true }) core2).teams 3 = some (tm.setLine 16 { Line.ready with spilled := true }) ∧
      ((tm.setLine 16 { Line.ready with spilled := true }).line 16).spilled = true) ∧
    (∀ a ∈ [0, 0x200000000], OpAt (onEng { run .tcopy a 0 with stalled := some 5 }) 2 6 { run .tcopy a 0 with stalled := some 5 } tm) ∧
    ((match nextTry (onEng { run .tcopy 0 0 with stalled := some 5 }) 2 { run .tcopy 0 0 with stalled := some 5 } tm with
        | .go _ => true
        | .stall _ _ => false) = true ∧
      (match nextTry (onEng { run .tcopy 0x200000000 0 with stalled := some 5 }) 2 { run .tcopy 0x200000000 0 with stalled := some 5 } tm with
        | .go _ => false
        | .stall _ _ => true) = true) := by
  refine ⟨⟨⟨rfl, rfl⟩, by decide +kernel, by decide +kernel, by decide +kernel, ⟨by decide +kernel, by decide +kernel⟩, by decide, by decide +kernel,
      by decide, by decide⟩, ⟨rfl, rfl, rfl, by decide, by decide, rfl, rfl⟩, fun a _ => ⟨rfl, rfl⟩, by decide +kernel, by decide +kernel⟩

theorem witness_rings :
    (mget (stOf gr (tmR 0 [sub 0]) core2).teams 3 = some (tmR 0 [sub 0]) ∧ subOf (tmR 0 [sub 0]) 128 = some (sub 0) ∧ (sub 0).ended = false ∧
      (sub 0).next < (sub 0).sd.count ∧ fillable (tmR 0 [sub 0]) (sub 0) ((sub 0).next % (sub 0).nslot) = true ∧
      fillable (tmR 5 [sub 0]) (sub 0) ((sub 0).next % (sub 0).nslot) = true ∧ fillable (tmR 0 [sub 2]) (sub 2) ((sub 2).next % (sub 2).nslot) = true ∧
      (clocksStopped (stOf gr (tmR 0 [sub 0]) core2) 2 = false ∧ clocksStopped (relocks (stOf gr (tmR 0 [sub 0]) core2)) 2 = true) ∧
      fillsStopped (stOf gr (tmR 0 [sub 0]) core2) 1 = false ∧
      SlotFree (stOf gr (tmR 0 [sub 0]) core2) (tmR 0 [sub 0]) 2 (slotOp (stOf gr (tmR 0 [sub 0]) core2) 3 (sub 0) .fill 0) ∧
      slotWord (tmR 0 [sub 0]) (sub 0) 0 = (sub 0).expected 0 ∧ slotWord (tmR 5 [sub 0]) (sub 0) 0 ≠ (sub 0).expected 0) ∧
    (findOp (stOf gr (tmR 1 [sub 1]) { core2 with eng := [fullFill] }) 2 6 = some fullFill ∧ fullFill.checks = false ∧
      isStoreFill (tmR 1 [sub 1]) fullFill = false ∧ isStoreFill (tmR 1 [sub2]) fullFill = true ∧
      opTotal (tmR 1 [sub 1]) fullFill ≤ fullFill.done) ∧
    (slotState ((sub 3).expected 0) = 3 ∧ streamsFreed (stOf gr (tmR 3 [sub 3]) core2) 1 = false ∧ slotWord (tmR 3 [sub 3]) (sub 3) 0 = (sub 3).expected 0 ∧
      drainable (tmR 3 [sub 2]) (sub 2) 0 = true ∧ slotWord (tmR 3 [sub 2]) (sub 2) 0 ≠ (sub 2).expected 0 ∧
      SlotFree (stOf gr (tmR 3 [sub 2]) core2) (tmR 3 [sub 2]) 2 (slotOp (stOf gr (tmR 3 [sub 2]) core2) 3 (sub 2) .drain ((sub 2).tileIn 0)) ∧
      SlotFree (stOf gr (tmR 3 [sub 3]) core2) (tmR 3 [sub 3]) 2 (slotOp (stOf gr (tmR 3 [sub 3]) core2) 3 (sub 3) .drain ((sub 3).tileIn 0))) ∧
    (OpAt (onDrain 64) 2 6 (drain 64) (tmR 4 [sub2]) ∧ subOf (tmR 4 [sub2]) (drain 64).ring = some sub2 ∧ sub2.sd.kind ≠ 1 ∧
      (∀ l ∈ (drain 64).lines, l ∉ (tmR 4 [sub2]).badLines) ∧ (∃ l ∈ (drain 64).lines, l ∈ ({ tmR 4 [sub2] with badLines := [1] } : Team).badLines) ∧
      layVer (drain 64).desc.layout = false ∧ (writesOf (onDrain 64) (drained 64)).2.isNone = true ∧
      failsBy (· = 3) (writesOf (onDrain 0x200000000) (drained 0x200000000)).2 = true ∧
      okAnd (storeWhole (onDrain 64) 2 (drained 64)) (fun _ => true) = true ∧
      layVer ({ drain 64 with desc := { (drain 64).desc with layout := 0x80 } } : EngOp).desc.layout = true ∧
      versionBad (onDrain 64) (opAcc (onDrain 64) 2 (drained 64)) 64 = false ∧
      versionBad { onDrain 64 with badSectors := [0x100000020 / 32] } (opAcc (onDrain 64) 2 (drained 64)) 64 = true) := by
  refine ⟨⟨rfl, rfl, rfl, by decide, by decide +kernel, by decide +kernel, by decide +kernel, ⟨by decide, by decide⟩, rfl, ⟨by decide +kernel, by decide +kernel⟩,
      by decide +kernel, by decide +kernel⟩, ⟨rfl, by decide, by decide, by decide, by decide +kernel⟩, ⟨by decide, rfl, by decide +kernel, by decide +kernel, by decide +kernel, ⟨by decide +kernel, by decide +kernel⟩, by decide +kernel, by decide +kernel⟩,
    ⟨rfl, rfl⟩, rfl, by decide, by decide, by decide, rfl, by rw [writesOf, acc_drain]; decide +kernel, by decide +kernel,
    by unfold storeWhole; simp only [acc_drain]; decide +kernel, by decide, by rw [acc_drain]; decide +kernel, by rw [acc_drain]; decide +kernel⟩

theorem witness_deliveries :
    (deliveryHeld (rings tm) 1 none = false ∧ deliveryHeld { rings tm with contexts := [(1, { ctx1 with switch := .out 4 })] } 1 none = true ∧
      deliveryHeld { rings tm with contexts := [(1, { ctx1 with switch := .out 4 })] } 1 (some (0x400, 0)) = false ∧
      deliveryHeld { rings tm with contexts := [(1, { ctx1 with switch := .out 5 })] } 1 (some (0x400, 0)) = true) ∧
    (∀ table entry st, PendingAt (stOf gr (pending table entry st) core2) 3 31 (pending table entry st) 9 table 0 entry st) ∧
    (comes (fun d => match d with | .entry _ r n => decide (r = 0x400 ∧ n = 0) | _ => false) (rings tm) 0x200 none = true ∧
      comes (fun d => match d with | .wait => true | _ => false) (rings tm) 0x300 none = true ∧
      comes (fun d => match d with | .tail _ => true | _ => false) (rings tm) 0x200 (some (0x400, 0)) = true ∧
      comes (fun d => match d with | .stall 3 _ _ => true | _ => false) (rings tm) 0x200000000 none = true ∧
      comes (fun d => match d with | .again => true | _ => false) (rings tm) 0x200 (some (0x400, 0)) true = true ∧
      comes (fun d => match d with | .far _ => true | _ => false) (withFar (rings tm)) 0x100000000 none = true) := by
  refine ⟨by decide, fun table entry st => ⟨rfl, by decide, rfl⟩, by decide +kernel, by decide +kernel, by decide +kernel, by decide +kernel, by decide +kernel, by decide +kernel⟩

/-! ### Switches, steps, decoding, traps, frames -/

namespace W

def saved : SavedTeam := { uid := 3, team := tm, groups := [(7, gr)] }

/-- Context 1 while it is restored, with one saved team, and nothing of it on a core. -/
def toRestore : State := { st gr with contexts := [(1, { ctx1 with st := .switchedOut, switch := .restoring, saved := [saved], savesz := 65536 })], groups := [], teams := [] }
def toClose : State := { noContext with contexts := [(1, { ctx1 with st := .closing })] }

/-- A state whose next moves are given. -/
def next (s : State) (l : List Turn) : State := { s with agenda := l }
def after (s : State) : State := { passTime s with agenda := [] }

/-- The machine with other code in the overlay's copy. -/
def code (b : List Byte) : State := stOf gr tm { Core.empty with res := [{ res .resident with code := b }] }
def codeRes (b : List Byte) : Residency := { res .resident with code := b }
def eight : List Byte := leList 8 4 ++ List.replicate 4 0

/-- What the leading thread's issue rests on, as a test: the group that leads, its lane and its copy. -/
def leads (s : State) (r : Residency) : Bool :=
  (mget s.groups 7).any (fun g => decide (g.st ≠ .placed) && teamLoaded s g && mayIssue s 7 g) &&
  (mget (askOverlays s 7).groups 7).any fun g => decide (leadOf (askOverlays s 7) 7 g 1 = some 0) &&
    decide (copyFor (coreOf (askOverlays s 7) g.core) g.ctx g.threads[(0 : Fin 32)] = some r) && decide (g.threads[(0 : Fin 32)].pc = 8)

theorem leads_of {s : State} {r : Residency} (h : leads s r = true) : ∃ g, Leads s (askOverlays s 7) 7 1 g 0 r ∧ g.threads[(0 : Fin 32)].pc = 8 := by
  simp only [leads, Bool.and_eq_true, Option.any_eq_true_iff_get, decide_eq_true_eq] at h
  obtain ⟨⟨h1, ⟨h2, h3⟩, h4⟩, h5, ⟨h6, h7⟩, h8⟩ := h
  exact ⟨_, ⟨⟨_, by simp, h2, h3, h4⟩, rfl, by simp, h6, h7⟩, h8⟩

theorem moves (s : State) (t : Turn) (h : (passTime (next s [t])).agenda = [t]) : Moves (next s [t]) t (after (next s [t])) := .inl ⟨[], h, rfl⟩

def cmdRod (p : Nat) : Instr := .portquery { hdr with mode := .rod, pdc := p } 0

/-- A group that traps on every floating-point flag, with 1.0 and 2^-24 in its lane. -/
def trapping : Machine.Group := { gr with fpen := 0x3F, threads := gr.threads.set! 0 { thread with v := [(1, 0x3F800000), (2, 0x33800000)] } }

/-- A pending store of two bytes. -/
def stored : Machine.Group := { gr with pend := [{ va := 8, tr := { pa := 0x100000008, key := 1, kind := .hbm, peer := none }, bytes := [1, 2], stale := false }] }

end W

theorem witness_switch_events :
    (∀ n, Switching { st gr with contexts := [(1, { ctx1 with switch := .out n })] } 1 { ctx1 with switch := .out n } (.out n)) ∧
    (outStepDone (st gr) 1 1 = true ∧ outStepDone (st gr) 1 2 = true ∧ outStepDone (st gr) 1 5 = true ∧
      outStepDone (stOf gr { tm with stashFills := [(0, 7)] } core2) 1 3 = false) ∧
    (ctx1.st ≠ .closing) ∧
    (∃ c, Restores toRestore 1 3 [(0, [0])] c saved [] kn toRestore []) ∧
    Closed toClose 1 { ctx1 with st := .closing } := by
  refine ⟨fun n => ⟨rfl, rfl⟩, ⟨rfl, by decide +kernel, by decide +kernel, by decide +kernel⟩, by decide,
    ⟨_, ⟨⟨rfl, rfl⟩, rfl, rfl, rfl, by decide +kernel, by decide +kernel, by decide +kernel, by decide +kernel⟩⟩, ⟨rfl, rfl, rfl, rfl, ?_, ?_, ?_, ?_, ?_⟩⟩
  all_goals decide

theorem witness_steps :
    (Moves (next (st gr) [.issue 7 1]) (.issue 7 1) (after (next (st gr) [.issue 7 1])) ∧
      ∃ g, Leads (after (next (st gr) [.issue 7 1])) (askOverlays (after (next (st gr) [.issue 7 1])) 7) 7 1 g 0 (res .resident) ∧
        Fetches g 0 (res .resident) 0 2) ∧
    (instrOf 0 2).isSome = true ∧
    (Moves (next (st gr) [.event (.signalLoss 0)]) (.event (.signalLoss 0)) (after (next (st gr) [.event (.signalLoss 0)])) ∧
      isMove (.signalLoss 0) = true ∧ behind (after (next (st gr) [.event (.signalLoss 0)])).pendingCmds (.signalLoss 0) = false) ∧
    (isMove (cmdRod 4) = true ∧ behind [cmdRod 4] (cmdRod 4) = true ∧ behind [cmdRod 4] (cmdRod 5) = false) ∧
    (Moves (next { st gr with pendingCmds := [cmdRod 4] } [.command 0]) (.command 0) (after (next { st gr with pendingCmds := [cmdRod 4] } [.command 0])) ∧
      (after (next { st gr with pendingCmds := [cmdRod 4] } [.command 0])).pendingCmds[0]? = some (cmdRod 4) ∧
      behind ((after (next { st gr with pendingCmds := [cmdRod 4] } [.command 0])).pendingCmds.take 0) (cmdRod 4) = false ∧
      stillWaits (after (next { st gr with pendingCmds := [cmdRod 4] } [.command 0])) (cmdRod 4) = false) := by
  refine ⟨⟨moves _ _ rfl, ?_⟩, by decide, ⟨moves _ _ rfl, by decide, rfl⟩, ⟨by decide, by decide, by decide⟩, moves _ _ rfl, rfl, rfl, rfl⟩
  obtain ⟨g, h, hp⟩ := leads_of (s := after (next (st gr) [.issue 7 1])) (r := res .resident) (by decide +kernel)
  exact ⟨g, h, by rw [Fetches, hp]; decide⟩

/-- A halfword outside the D form at the leading thread's PC, and an image that ends at it or in the middle of its instruction. -/
theorem witness_fetch_traps :
    (∃ g, Leads (after (next (code (eight ++ [2, 0x10])) [.issue 7 1])) (askOverlays (after (next (code (eight ++ [2, 0x10])) [.issue 7 1])) 7) 7 1 g 0
        (codeRes (eight ++ [2, 0x10])) ∧ Fetches g 0 (codeRes (eight ++ [2, 0x10])) 0x1002 2) ∧ instrOf 0x1002 2 = none ∧
    (∃ g, Leads (after (next (code eight) [.issue 7 1])) (askOverlays (after (next (code eight) [.issue 7 1])) 7) 7 1 g 0 (codeRes eight) ∧
      fetchWord (codeRes eight).code g.threads[(0 : Fin 32)].pc.toNat = .error 8) ∧
    (∃ g, Leads (after (next (code (eight ++ [1, 0])) [.issue 7 1])) (askOverlays (after (next (code (eight ++ [1, 0])) [.issue 7 1])) 7) 7 1 g 0
        (codeRes (eight ++ [1, 0])) ∧ fetchWord (codeRes (eight ++ [1, 0])).code g.threads[(0 : Fin 32)].pc.toNat = .error 10) ∧
    (Issues (st gr) gr ∧ (dictEntry (st gr) gr.kernel 1).getLsbD 0 = false) := by
  refine ⟨?_, by decide, ?_, ?_, rfl, by decide⟩
  · obtain ⟨g, h, hp⟩ := leads_of (s := after (next (code (eight ++ [2, 0x10])) [.issue 7 1])) (r := codeRes (eight ++ [2, 0x10])) (by decide +kernel)
    exact ⟨g, h, by rw [Fetches, hp]; decide⟩
  · obtain ⟨g, h, hp⟩ := leads_of (s := after (next (code eight) [.issue 7 1])) (r := codeRes eight) (by decide +kernel)
    exact ⟨g, h, by rw [hp]; decide⟩
  · obtain ⟨g, h, hp⟩ := leads_of (s := after (next (code (eight ++ [1, 0])) [.issue 7 1])) (r := codeRes (eight ++ [1, 0])) (by decide +kernel)
    exact ⟨g, h, by rw [hp]; decide⟩

theorem witness_encodings :
    ((Instr.add 0 ⟨true, true, 95, 95, 95⟩).wf = true ∧ (encode (.add 0 ⟨true, true, 95, 95, 95⟩)).isSome = true ∧
      (Instr.addH 31 31).wf = true ∧ (encode (.addH 31 31)).any (·.1 == 16) = true) ∧
    ((decodeWord 0x2000007D).isSome = true ∧ (decodeHalf 0x4944).isSome = true) := by decide

/-- A word for each clause on reserved encodings: its major, and the field that makes it reserved. -/
theorem witness_reserved :
    (∀ m ∈ [0x39, 0x3A, 0x3B], fieldN (m * 2 + 1) 1 6 = m) ∧
    (fieldN (7 * 2 ^ 26 + 0x30 * 2 + 1) 26 3 = 7 ∧ fieldN (5 * 2 ^ 26 + 95 * 2 ^ 7 + 0x33 * 2 + 1) 7 7 = 95 ∧ fieldN (6 * 2 ^ 26 + 2 * 2 ^ 7 + 0x30 * 2 + 1) 7 7 % 4 ≠ 0 ∧
      96 ≤ fieldN (95 * 2 ^ 19 + 96 * 2 ^ 7 + 0x30 * 2 + 1) 7 7 ∧ fieldN (95 * 2 ^ 19 + 96 * 2 ^ 7 + 0x30 * 2 + 1) 19 7 < 96 ∧
      bitAt (2 ^ 29 + 96 * 2 ^ 19 + 0x30 * 2 + 1) 29 = true ∧ fieldN (2 ^ 30 + 0x32 * 2 + 1) 30 2 ≠ 0) ∧
    (fieldN (12 * 2 ^ 28 + 0x34 * 2 + 1) 28 4 = 12 ∧ fieldN (95 * 2 ^ 14 + 96 * 2 ^ 7 + 1) 14 7 < 96 ∧ 96 ≤ fieldN (127 * 2 ^ 7 + 0x20 * 2 + 1) 7 7 ∧
      fieldN (14 * 2 ^ 26 + 0x3E * 2 + 1) 26 6 = 14 ∧ fieldN (9 * 2 ^ 26 + 0x3F * 2 + 1) 26 6 = 9) := by decide

/-- A team with bytes in its scratchpad, on its core and saved with its context. -/
def W.written : State :=
  { st gr with teams := [(3, tmR 2 [])], contexts := [(1, { ctx1 with saved := [{ uid := 4, team := tmR 2 [], groups := [] }] })] }

theorem witness_invariants :
    (MemOk (next (st gr) [.event (.signalLoss 0)]) ∧ ∃ t, step (next (st gr) [.event (.signalLoss 0)]) = .next t) ∧
    (ScratchOk (next written [.event (.signalLoss 0)]) ∧ ∃ t, step (next written [.event (.signalLoss 0)]) = .next t) ∧
    Memory.wf State.reset.mem = true := by
  refine ⟨⟨rfl, _, rfl⟩, ⟨⟨fun p hp => ?_, fun c hc x hx => ?_⟩, _, rfl⟩, rfl⟩
  · obtain rfl := List.mem_singleton.1 hp; decide
  · obtain rfl := List.mem_singleton.1 hc; obtain rfl := List.mem_singleton.1 hx; decide

theorem witness_traps :
    (mget (st gr).groups 7 = some gr ∧ gr.handling = false ∧ lowestLane 0x80000000 = some 31 ∧ (12 : Nat) < 256 ∧ handlerOf (st gr) gr.kernel = none ∧
      (handlerOf { st gr with kernels := [(2, { kn with handler := some 0 })] } gr.kernel) = some (5, 8)) ∧
    (mget (st privileged).groups 7 = some privileged ∧ privileged.handling = true) ∧
    (Issues (st gr) gr ∧ privilegedOnly .halt = true ∧ privilegedOnly (.srd 5 0x40) = true ∧ privilegedOnly (.srd 5 0x3F) = false ∧ gr.privileged = false) ∧
    (featureBit .killoff = some 3 ∧ feature { st gr with contexts := [(1, { ctx1 with feat := #v[0, 0, 0, 0] })] } gr 3 = false) :=
  ⟨⟨rfl, by decide, by decide, by decide, rfl, rfl⟩, ⟨rfl, by decide⟩, ⟨rfl, rfl, by decide, by decide, by decide⟩, rfl, by decide⟩

theorem witness_float_traps : ∃ r low, floatForm trapping.frm trapping.ftz (.fadd ⟨false, false, 2, 1, 1⟩) = some r ∧
    Issues (st trapping) trapping ∧ VecFree (st trapping) trapping (cohort (st trapping)) (r.reads.map (·.1)) [r.d] ∧
    VecRoom trapping (cohort (st trapping)) (trapping.freesOf r.reads) [rotName trapping.rwin r.d.toNat] ∧
    (cohort (st trapping)).filter (fun l => trapping.trapFlags (r.f (r.args trapping l)).2 != 0) = low :: [] := by
  refine ⟨_, 0, rfl, rfl, vec _ _ _ rfl rfl rfl rfl rfl _ _ _, ?_, by decide +kernel⟩
  rw [st, lane0]; exact roomy _ _ _ (by decide)

theorem witness_misaligned :
    (isUni (97 : BitVec 7) = true ∧ UniFree (st (w 4 1)) (w 4 1) [4, uniIdx 96, uniIdx 97] [] ∧ (uniAddr (w 4 1) ⟨0, false, 5, 96, 4, 97⟩).toNat % 8 ≠ 0) ∧
    (MemFree (st (w 4 1)) (w 4 1) 4 [(1, true)] (destRegs 4 4) ∧
      (∀ l ∈ cohort (st (w 4 1)), (laneAddr (w 4 1) ⟨0, true, 4, 1, 4, 4⟩ l).toNat % szBytes 4 = 0 →
        globalTrap (st (w 4 1)) (w 4 1) l.val (laneAddr (w 4 1) ⟨0, true, 4, 1, 4, 4⟩ l) (szBytes 4) .read = none) ∧
      (cohort (st (w 4 1))).filter (fun l => decide ((laneAddr (w 4 1) ⟨0, true, 4, 1, 4, 4⟩ l).toNat % szBytes 4 ≠ 0)) = 0 :: []) := by
  refine ⟨⟨by decide, uni _ _ _ rfl rfl rfl rfl _ _, by decide⟩, mem _ _ _ rfl rfl rfl rfl rfl _ _ _ (by decide), ?_, by decide⟩
  intro l hl h
  rw [st, lane0] at hl; obtain rfl := List.mem_singleton.1 hl
  exact absurd h (by decide)

theorem witness_frames :
    ((intForm (.add 0 ⟨false, false, 2, 1, 1⟩)).isSome = true ∧ (match exec (.add 0 ⟨false, false, 2, 1, 1⟩) (st gr) with
      | .next t => decide (t.teams = (st gr).teams)
      | _ => false) = true) ∧
    (mget (st stored).groups 7 = some stored ∧ (∀ e ∈ stored.pend, LocalPend e) ∧ NoDirty (st stored) 7 stored ∧
      OneKey (st stored) stored (keySerial (st stored) 1) ∧ (∀ e ∈ stored.pend, OutsideOf e 0x10000000A ∧ (e.tr.pa + 1) / 32 ≠ 0x100000020 / 32)) := by
  refine ⟨⟨rfl, by decide +kernel⟩, rfl, fun e he => ?_, fun tid t ht hm p hp => ?_, fun e he => ?_, fun e he => ?_⟩
  · obtain rfl := List.mem_singleton.1 he; exact ⟨rfl, .inl rfl⟩
  · obtain rfl : tid = 3 := by simpa [stored, gr] using ht.symm
    obtain rfl : t = tm := by simpa [st, stOf, mget] using hm.symm
    cases hp
  · obtain rfl := List.mem_singleton.1 he; exact ⟨rfl, fun k hk => rfl⟩
  · obtain rfl := List.mem_singleton.1 he; exact ⟨.inr (by decide), by decide⟩

/-! ### Effects worked out by hand -/

namespace W

/-- A test of the group after one instruction that ends in a next state. -/
def gives (i : Instr) (g : Machine.Group) (p : Machine.Group → Bool) : Bool := match exec i (st g) with
  | .next t => (mget t.groups 7).any p
  | _ => false

def v1 (g : Machine.Group) : Word := mgetD g.threads[(0 : Fin 32)].v 1 0

/-- The lane holds 0xFFFFFFFF and 2. -/
def wraps : Machine.Group := { gr with threads := gr.threads.set! 0 { thread with v := [(1, 0xFFFFFFFF), (2, 2)] } }
/-- The lane holds 1.0 and 2^-24; their sum is half way between two binary32 numbers (R107). -/
def halfway : Machine.Group := { gr with threads := gr.threads.set! 0 { thread with v := [(1, 0x3F800000), (2, 0x33800000)] } }

end W

theorem test_add_wraps : gives (.add 0 ⟨false, false, 2, 1, 1⟩) wraps (fun g => v1 g == 1) = true := by decide +kernel
theorem test_sub_order : gives (.sub 0 ⟨false, false, 2, 1, 1⟩) wraps (fun g => v1 g == 0xFFFFFFFD) = true := by decide +kernel
theorem test_fadd_half_to_even : gives (.fadd ⟨false, false, 2, 1, 1⟩) halfway (fun g => v1 g == 0x3F800000) = true := by decide +kernel
theorem test_pc_advances : gives (.add 0 ⟨false, false, 2, 1, 1⟩) wraps (fun g => g.threads[(0 : Fin 32)].pc == 12) = true := by decide +kernel
theorem test_uniform_sum : gives (.add 0 ⟨false, false, 98, 97, 127⟩) gr (fun g => g.rdW 31 == 65536) = true := by decide +kernel
theorem test_shift_by_width : gives (.shl ⟨false, false, 99, 98, 127⟩) gr (fun g => g.rdW 31 == 65535) = true := by decide +kernel
end Sys2Proof.Tests
end

section
/-! PROOFS. The Drify commands on kernels, tasks and groups: what the endpoint answers to a command that a context takes, what each
command comes to, and the obligation assembled from them. -/

namespace Sys2Proof.Machine

open Sys2Proof.Claim

/-! ### A command that reaches its context -/

/-- The endpoint carries out what a command comes to: its state, with its status and body as the answer (R423, R427). -/
def sent (h : Hdr) (op : Nat) (f : Reply) : State := reply f.s h op f.status f.body

@[simp] theorem sent_ok (s : State) (h : Hdr) (op : Nat) (body : List DWord) : sent h op (ok s body) = reply s h op 0 body := rfl
@[simp] theorem sent_refuse (s : State) (h : Hdr) (op status : Nat) : sent h op (refuse s status) = reply s h op status [] := rfl

theorem sent_ite (h : Hdr) (op : Nat) (p : Prop) [Decidable p] (a b : Reply) :
    sent h op (if p then a else b) = if p then sent h op a else sent h op b := apply_ite _ _ _ _

/-- What arrives in any mode but UUD, arrives with every code. -/
theorem arrives_of_arrives_zero {s : State} {h : Hdr} (ha : arrives s h 0 = true) (op : Nat) : arrives s h op = true := by
  unfold arrives at ha ⊢
  simp only [Bool.or_eq_true, Bool.and_eq_true, decide_eq_true_eq] at ha ⊢
  obtain hfw | ⟨hup, hmode | hop⟩ := ha
  · exact .inl hfw
  · exact .inr ⟨hup, .inl hmode⟩
  · omega

/-- A command that its context takes is carried out (R423, R426). -/
theorem command_of_takes {s : State} {h : Hdr} {c : Context} {takes : CtxState → Bool} (ht : Takes s h c takes) (op : Nat)
    (f : Context → Reply) : command s h op takes f = .next (sent h op (f c)) := by
  obtain ⟨⟨harr, hassoc⟩, hget, howner, hst⟩ := ht
  have hknown : (!fromFirmware s h && !s.fw.assocs.contains h.assoc) = false := by
    obtain hfw | hin := hassoc
    · rw [hfw]; rfl
    · rw [hin]; exact Bool.and_false _
  have hcomes : (if c.assoc ≠ h.assoc then refuse s 5 else if !takes c.st then refuse s 2 else f c) = f c := by
    rw [if_neg (not_not.2 howner), hst]; rfl
  simp only [command, associated, hget, hcomes, arrives_of_arrives_zero harr op, hknown]
  rfl

/-! ### The object that a command names -/

theorem filter_of_own {α : Type} {m : Map α} {ctxOf : α → Nat} {h : Hdr} {id : Nat} {x : α} (hx : Own m ctxOf h id x) :
    (mget m id).filter (fun y => decide (ctxOf y = h.ctx.toNat)) = some x :=
  Option.filter_eq_some_iff.2 ⟨hx.1, decide_eq_true hx.2⟩

theorem filter_of_not_own {α : Type} {m : Map α} {ctxOf : α → Nat} {h : Hdr} {id : Nat} (hm : ∀ x, ¬ Own m ctxOf h id x) :
    (mget m id).filter (fun y => decide (ctxOf y = h.ctx.toNat)) = none :=
  Option.filter_eq_none_iff.2 fun x hx hctx => hm x ⟨hx, of_decide_eq_true hctx⟩

theorem withKernel_of_own {s : State} {h : Hdr} {kid : Nat} {k : Kernel} (hk : Own s.kernels Kernel.ctx h kid k) (f : Kernel → Reply) :
    withKernel s h.ctx.toNat kid f = f k := by
  rw [withKernel, filter_of_own hk]

theorem withKernel_of_not_own {s : State} {h : Hdr} {kid : Nat} (hk : ∀ k, ¬ Own s.kernels Kernel.ctx h kid k) (f : Kernel → Reply) :
    withKernel s h.ctx.toNat kid f = refuse s 3 := by
  rw [withKernel, filter_of_not_own hk]

theorem withQueue_of_own {s : State} {h : Hdr} {qid : Nat} {q : Queue} (hq : Own s.queues Queue.ctx h qid q) (f : Queue → Reply) :
    withQueue s h.ctx.toNat qid f = f q := by
  rw [withQueue, filter_of_own hq]

section
variable {s : State} {h : Hdr} {c : Context}

/-! ### LOADK -/

/-- The kernel of a placed image stands under its id, LOADED, in the context and at the base of overlay ids it was placed for (R305). -/
theorem loadImageAs_kernel {ctx kid base : Nat} {b : List Byte} {x : State × Kernel} (hx : loadImageAs s ctx c kid base b = some x) :
    mget x.1.kernels kid = some x.2 ∧ x.2.st = .loaded ∧ x.2.ctx = ctx ∧ x.2.base = base := by
  simp only [loadImageAs, Option.bind_eq_some_iff, Option.map_eq_some_iff] at hx
  obtain ⟨code, -, data, -, rfl⟩ := hx
  exact ⟨mget_mput_self _ _ _, rfl, rfl, rfl⟩

theorem exec_loadk_unreadable (ht : Takes s h c isOpen) {addr : BitVec 64} {size : Nat} (hb : devBytes s h.ctx.toNat addr size = none) :
    exec (.loadk h addr size) s = .next (reply s h 0x10 3 []) := by
  change execLoadk h addr size s = _
  simp only [execLoadk, command_of_takes ht, hb, sent_refuse]

theorem exec_loadk_failedCheck (ht : Takes s h c isOpen) {addr : BitVec 64} {size n : Nat} {b : List Byte}
    (hb : devBytes s h.ctx.toNat addr size = some b) (hn : failedCheck c b = some n) :
    exec (.loadk h addr size) s = .next (reply { s with answers := s.answers ++ [.check h n] } h 0x10 3 []) := by
  change execLoadk h addr size s = _
  simp only [execLoadk, command_of_takes ht, hb, hn, sent_refuse]

/-- LOADK of an image that passes its checks, with ids that are free: the ids and the place of its data, or status 3 for want of room. -/
theorem exec_loadk_checked (ht : Takes s h c isOpen) {addr : BitVec 64} {size kid base : Nat} {b : List Byte}
    (hb : devBytes s h.ctx.toNat addr size = some b) (hn : failedCheck c b = none)
    (hkid : freePick s (2 ^ 94) ((List.range 65536).filter fun k => (mget s.kernels k).isNone) = some kid)
    (hbase : freePick s (2 ^ 95) (freeBases s h.ctx.toNat (imgField b 0x14 2)) = some base) :
    exec (.loadk h addr size) s = .next (sent h 0x10 ((loadImageAs s h.ctx.toNat c kid base b).elim (refuse s 3)
      fun x => ok x.1 [u64 (kid + base * 2 ^ 16), x.2.data])) := by
  change execLoadk h addr size s = _
  simp only [execLoadk, command_of_takes ht, hb, hn, hkid, hbase]
  cases loadImageAs s h.ctx.toNat c kid base b <;> rfl

/-! ### READYK, UNLOADK and STARTCG -/

theorem exec_readyk (ht : Takes s h c isOpen) (kid : Nat) :
    exec (.readyk h kid) s = .next (sent h 0x11 (withKernel s h.ctx.toNat kid fun k =>
      if k.st = .loaded then ok (setKernel s kid { k with st := .ready }) [] else refuse s 2)) := command_of_takes ht _ _

theorem exec_unloadk (ht : Takes s h c isOpen) (kid : Nat) :
    exec (.unloadk h kid) s = .next (sent h 0x12 (withKernel s h.ctx.toNat kid fun k =>
      if k.st = .drained ∨ k.unload = true then refuse s 2 else ok (unloadKernel s kid k) [])) := command_of_takes ht _ _

/-- STARTCG of a kernel that is not DRAINED: a malformed record answers 4, a start that R19 does not place 3. -/
theorem exec_startcg_of_own (ht : Takes s h c isOpen) {kid : Nat} {k : Kernel} (hk : Own s.kernels Kernel.ctx h kid k)
    (hst : k.st ≠ .drained) (core : Nat) (r : TaskRec) :
    exec (.startcg h core kid r) s = .next (sent h 0x16 (if r.zero ≠ 0 then refuse s 4
      else (startControl s h.ctx.toNat core kid r).elim (refuse s 3) fun x => ok x.1 [handleOf x.2])) := by
  change execStartcg h core kid r s = _
  rw [execStartcg, command_of_takes ht, withKernel_of_own hk, if_neg hst]
  cases startControl s h.ctx.toNat core kid r <;> rfl

/-! ### LAUNCHK and ENQ -/

/-- A task with a legal record and entry goes in, or finds the queue without room (R296, R427). -/
theorem enqueueFor_of_own {qid teams : Nat} {q : Queue} {r : TaskRec} {one : Bool} (hq : Own s.queues Queue.ctx h qid q)
    (hentry : entryOk s h.ctx.toNat r = true) (hrec : recordOk r = true) (hteams : 0 < teams) (hone : one = true → teams = 1) :
    enqueueFor s h.ctx.toNat qid teams one r =
      (insertTask s qid { r with depth := 0 } teams).elim (ok s [0]) fun s' => ok s' [1] := by
  have hlegal : ¬ (teams = 0 ∨ (one = true ∧ teams ≠ 1) ∨ recordOk r = false) := by
    rintro (hzero | ⟨h1, hmany⟩ | hbad)
    · omega
    · exact hmany (hone h1)
    · rw [hrec] at hbad; cases hbad
  simp only [enqueueFor, withQueue_of_own hq, hentry, if_neg hlegal]
  cases insertTask s qid { r with depth := 0 } teams <;> rfl

theorem exec_launchk (ht : Takes s h c isOpen) (qid teams : Nat) (r : TaskRec) :
    exec (.launchk h qid teams r) s = .next (sent h 0x13 (enqueueFor s h.ctx.toNat qid teams false r)) := command_of_takes ht _ _

theorem exec_drifyEnq (ht : Takes s h c isOpen) (qid teams : Nat) (r : TaskRec) :
    exec (.drifyEnq h qid teams r) s = .next (sent h 0x1F (enqueueFor s h.ctx.toNat qid teams true r)) := command_of_takes ht _ _

/-! ### KILLT and RESUMEG -/

theorem exec_killt (ht : Takes s h c isOpen) {x : BitVec 64} (hx : handleOk x = true) (grid : Bool) :
    exec (.killt h x grid) s = .next (sent h 0x14 (killFor s h.ctx.toNat c x grid)) := by
  change execKillt h x grid s = _
  rw [execKillt, command_of_takes ht, if_pos hx]

theorem killFor_of_unnamed {ctx : Nat} {x : DWord} (hg : groupNamed s ctx c x = none) (grid : Bool) : killFor s ctx c x grid = refuse s 3 := by
  simp only [killFor, hg]

/-- A group without a team is killed alone (R310). -/
theorem killFor_of_teamless {ctx gid : Nat} {x : DWord} {g : Group} (hg : groupNamed s ctx c x = some (some gid, g))
    (hteam : teamOfHandle s c g = none) (grid : Bool) : killFor s ctx c x grid = ok (killFalls s gid) [] := by
  simp only [killFor, hg, hteam]

/-- The team of the handle's group is killed, or its whole grid with the tasks that wait (R310). -/
theorem killFor_of_team {ctx t gr : Nat} {x : DWord} {gid : Option Nat} {g : Group} (hg : groupNamed s ctx c x = some (gid, g))
    (hteam : teamOfHandle s c g = some (t, gr)) (grid : Bool) : killFor s ctx c x grid =
      ok (if grid then killTeams (removeTasks s fun _ _ y => decide (y.grid = gr)) ctx (gridTeams s c gr) else killTeams s ctx [t]) [] := by
  simp only [killFor, hg, hteam]
  cases grid <;> rfl

/-- RESUMEG of a handle of the command's context answers what RESUME writes (R355, R427). -/
theorem exec_resumeg_of_context (ht : Takes s h c isOpen) {x : BitVec 64} (hx : handleOk x = true) (hctx : slice x 48 8 = h.ctx.toNat)
    (kill : Bool) :
    exec (.resumeg h x kill) s = .next (sent h 0x15 ((resumeBy s x kill).elim (ok s [1]) fun s' => ok s' [0])) := by
  change execResumeg h x kill s = _
  have hgood : ¬ handleOk x = false := by rw [hx]; decide
  rw [execResumeg, command_of_takes ht, if_neg hgood, if_neg (not_not.2 hctx)]
  cases resumeBy s x kill <;> rfl

end

/-! ### The obligation -/

/-- Settles O26: each command is carried out for the context that takes it, on the kernel, queue or group that it names. -/
theorem kernelCommandsComplete : Obligations.KernelCommandsComplete := by
  intro h c s ht
  refine ⟨fun addr size => ⟨exec_loadk_unreadable ht, fun b hb => ⟨fun n => exec_loadk_failedCheck ht hb, ?loadk⟩⟩,
    fun kid hk => ⟨?readykNone, ?unloadkNone⟩, fun kid k hk => ⟨?readyk, ?unloadk, fun core r hst => ?startcg⟩,
    fun qid teams q r hq hentry hrec => ⟨fun hteams => ?launchk, ?enq⟩,
    fun x hx => ⟨fun grid hg => ?killNone, fun gid g hg hteam grid => ?killAlone, fun gid g t gr hg hteam => ?killTeam,
      fun kill hctx => ?resumeg⟩⟩
  case loadk =>
    intro hn kid base hkid hbase
    have hexec := exec_loadk_checked ht hb hn hkid hbase
    exact ⟨fun hx => by rw [hexec, hx]; rfl, fun x hx => ⟨by rw [hexec, hx]; rfl, loadImageAs_kernel hx⟩⟩
  case readykNone => rw [exec_readyk ht, withKernel_of_not_own hk, sent_refuse]
  case unloadkNone => rw [exec_unloadk ht, withKernel_of_not_own hk, sent_refuse]
  case readyk => rw [exec_readyk ht, withKernel_of_own hk, sent_ite, sent_ok, sent_refuse]
  case unloadk => rw [exec_unloadk ht, withKernel_of_own hk, sent_ite, sent_ok, sent_refuse]
  case startcg =>
    rw [exec_startcg_of_own ht hk hst]
    refine ⟨fun hz => ?_, fun x hz hx => ?_, fun hz hx => ?_⟩
    · rw [if_pos hz, sent_refuse]
    · rw [if_neg (not_not.2 hz), hx]; rfl
    · rw [if_neg (not_not.2 hz), hx]; rfl
  case launchk =>
    rw [exec_launchk ht, enqueueFor_of_own hq hentry hrec hteams (fun hone => by cases hone)]
    cases insertTask s qid { r with depth := 0 } teams <;> rfl
  case enq =>
    rw [exec_drifyEnq ht, enqueueFor_of_own hq hentry hrec Nat.one_pos (fun _ => rfl)]
    cases insertTask s qid { r with depth := 0 } 1 <;> rfl
  case killNone => rw [exec_killt ht hx, killFor_of_unnamed hg, sent_refuse]
  case killAlone => rw [exec_killt ht hx, killFor_of_teamless hg hteam, sent_ok]
  case killTeam =>
    simp only [exec_killt ht hx, killFor_of_team hg hteam, sent_ok]
    exact ⟨rfl, rfl⟩
  case resumeg =>
    rw [exec_resumeg_of_context ht hx hctx]
    cases resumeBy s x kill <;> rfl

end Sys2Proof.Machine
end

section
/-! PROOFS. A step: the move it takes, what each kind of move comes to, and the obligation on what a step runs. -/

namespace Sys2Proof.Machine

open Sys2Proof.Claim

/-! ### The move taken -/

/-- The next move is the head of the agenda, or the free choice where there is none. -/
theorem takeTurn_of_moves {s s' : State} {t : Turn} (h : Moves s t s') : takeTurn (passTime s) = (t, s') := by
  unfold takeTurn
  obtain ⟨l, hag, rfl⟩ | ⟨hag, rfl, rfl⟩ := h <;> rw [hag]

/-- A step executes what its move fetches. -/
theorem step_of_moves {s s' : State} {t : Turn} (h : Moves s t s') : step s = runFetched (fetchTurn s' t) := by
  unfold step
  rw [takeTurn_of_moves h]

/-! ### An issue -/

/-- The bytes at the leading thread's PC give the instruction that runs, for every thread that stands with it (R50, R52, R64, R313). -/
theorem fetchCode_run {s : State} {gid : Nat} {g : Group} {l : Fin 32} {r : Residency} {w n : Nat} {i : Instr}
    (hcode : copyFor (coreOf s g.core) g.ctx g.threads[l] = some r) (hword : Fetches g l r w n) (hi : instrOf w n = some i) :
    fetchCode s gid g (withLead s gid g l) g.threads[l] = .run i (issuing s gid g l n w) := by
  unfold Fetches at hword
  simp only [fetchCode, hcode, hword, hi]
  rfl

/-- A started group that may issue fetches for the thread that leads. -/
theorem fetchIssue_run {s s₁ : State} {gid : Nat} {m : BitVec 32} {g : Group} {l : Fin 32} {r : Residency} {w n : Nat} {i : Instr}
    (h : Leads s s₁ gid m g l r) (hword : Fetches g l r w n) (hi : instrOf w n = some i) :
    fetchIssue s gid m = .run i (issuing s₁ gid g l n w) := by
  obtain ⟨⟨g₀, hget, hst, hloaded, hmay⟩, hasked, hgroup, hlead, hcode⟩ := h
  have hreload : ¬ (!teamLoaded s g₀ && ctxIssues s g₀.ctx) = true := by rw [hloaded]; exact Bool.false_ne_true
  unfold fetchIssue
  rw [hget]
  dsimp only
  rw [if_neg hst, if_neg hreload, if_pos hmay, ← hasked, hgroup]
  dsimp only
  rw [fetchAt, hlead]
  exact fetchCode_run hcode hword hi

/-! ### Commands and events -/

theorem arrive_run {s : State} {i : Instr} (hmove : isMove i = true) (hb : behind s.pendingCmds i = false) : arrive s i = .run i s := by
  simp only [arrive, hmove, hb]
  rfl

theorem arrive_behind {s : State} {i : Instr} (hmove : isMove i = true) (hb : behind s.pendingCmds i = true) :
    arrive s i = .idle { s with pendingCmds := s.pendingCmds ++ [i] } := by
  simp only [arrive, hmove, hb]
  rfl

theorem takeCommand_run {s : State} {n : Nat} {i : Instr} (hget : s.pendingCmds[n]? = some i)
    (hb : behind (s.pendingCmds.take n) i = false) (hw : stillWaits s i = false) :
    takeCommand s n = .run i { s with pendingCmds := s.pendingCmds.eraseIdx n } := by
  simp only [takeCommand, hget, hb, hw]
  rfl

/-! ### The obligation -/

/-- Settles O45: the move that is taken, then what it fetches. -/
theorem stepRunsDecoded : Obligations.StepRunsDecoded := by
  intro s s' i
  refine ⟨fun gid m s₁ g l r w n hmv hlead hword hi => ?issue, fun hmv hmove hb => ?event, fun hmv hmove hb => ?behind,
    fun n hmv hget hb hw => ?command⟩
  case issue => rw [step_of_moves hmv, fetchTurn, fetchIssue_run hlead hword hi, runFetched]
  case event => rw [step_of_moves hmv, fetchTurn, arrive_run hmove hb, runFetched]
  case behind => rw [step_of_moves hmv, fetchTurn, arrive_behind hmove hb, runFetched]
  case command => rw [step_of_moves hmv, fetchTurn, takeCommand_run hget hb hw, runFetched]

end Sys2Proof.Machine
end

section
/-! PROOFS. The queues: what the endpoint answers to a command on a queue, when a dispatch may be, promotion and refill, and the
obligation assembled from them. -/

namespace Sys2Proof.Machine

open Sys2Proof.Claim

/-! ### Commands on a queue -/

/-- A command that reaches the endpoint, for a context of its association in a state that takes it, is carried out (R423, R426). -/
theorem command_of_reaches {s : State} {h : Hdr} {c : Context} {op : Nat} {takes : CtxState → Bool} (hr : Reaches s h op)
    (hget : mget s.contexts h.ctx.toNat = some c) (howner : c.assoc = h.assoc) (hst : takes c.st = true) (f : Context → Reply) :
    command s h op takes f = .next (sent h op (f c)) := by
  obtain ⟨harr, hassoc⟩ := hr
  have hknown : (!fromFirmware s h && !s.fw.assocs.contains h.assoc) = false := by
    rw [← Bool.not_or, Bool.not_eq_false', Bool.or_eq_true]; exact hassoc
  have hcomes : (if c.assoc ≠ h.assoc then refuse s 5 else if !takes c.st then refuse s 2 else f c) = f c := by
    rw [if_neg (not_not.2 howner), hst]; rfl
  simp only [command, associated, hget, hcomes, harr, hknown]
  rfl

theorem withQueue_of_not_own {s : State} {h : Hdr} {qid : Nat} (hq : ∀ q, ¬ Own s.queues Queue.ctx h qid q) (f : Queue → Reply) :
    withQueue s h.ctx.toNat qid f = refuse s 3 := by
  rw [withQueue, filter_of_not_own hq]

section
variable {s : State} {h : Hdr} {c : Context} {qid : Nat} {q : Queue}

/-- CREATEQ under a free id, with cores of its context and an overflow area of whole entries (R286, R287, R289). -/
theorem exec_createq_of_free (ht : Takes s h c isOpen) {ovf ovfsz : BitVec 64} {mask : BitVec 576} (hqid : qid < 4096)
    (hfree : ∀ q, mget s.queues qid = some q → q.st = .destroyed) (hmask : mask &&& ~~~c.mask = 0) (hsz : ovfsz.toNat % 131072 = 0) :
    exec (.createq h qid ovf ovfsz mask) s = .next (reply (withNewQueue s h qid mask ovf ovfsz) h 0x18 0 []) := by
  have hlegal : ¬ (4096 ≤ qid ∨ (mget s.queues qid).any (fun q => decide (q.st ≠ .destroyed)) = true ∨ mask &&& ~~~c.mask ≠ 0 ∨
      ovfsz.toNat % 131072 ≠ 0) := by
    rintro (hbig | htaken | hcores | hodd)
    · omega
    · obtain ⟨q, hget, hst⟩ := (Option.any_eq_true _ _).1 htaken
      exact of_decide_eq_true hst (hfree q hget)
    · exact hcores hmask
    · exact hodd hsz
  change execCreateq h qid ovf ovfsz mask s = _
  rw [execCreateq, command_of_takes ht, if_neg hlegal]
  rfl

theorem exec_start : exec (.start h qid) s = queueEvent s h 0x19 qid (fun st => decide (st = .created ∨ st = .paused)) fun q =>
    setQueue s qid { q with st := .active } := rfl

theorem exec_pause : exec (.pause h qid) s = queueEvent s h 0x1A qid (fun st => decide (st = .active)) fun q =>
    setQueue s qid { q with st := .paused } := rfl

theorem exec_drain : exec (.drain h qid) s = queueEvent s h 0x1B qid (fun st => decide (st = .created ∨ st = .active ∨ st = .paused))
    fun q => settleQueues (setQueue s qid { q with st := .draining }) := rfl

theorem exec_discard : exec (.discard h qid) s = queueEvent s h 0x1C qid (fun st => decide (st ≠ .destroyed)) fun _ => discardQueue s qid := rfl

/-- An event of Table 11.2 on a queue of the context: carried out from a state that takes it, else status 2. -/
theorem queueEvent_of_own (ht : Takes s h c isOpen) (hq : Own s.queues Queue.ctx h qid q) (takes : QState → Prop)
    [DecidablePred takes] (op : Nat) (f : Queue → State) : queueEvent s h op qid (fun st => decide (takes st)) f =
      .next (if takes q.st then reply (f q) h op 0 [] else reply s h op 2 []) := by
  simp only [queueEvent, command_of_takes ht, withQueue_of_own hq, sent_ite, sent_ok, sent_refuse, decide_eq_true_eq]

theorem queueEvent_of_not_own (ht : Takes s h c isOpen) (hq : ∀ q, ¬ Own s.queues Queue.ctx h qid q) (takes : QState → Bool) (op : Nat)
    (f : Queue → State) : queueEvent s h op qid takes f = .next (reply s h op 3 []) := by
  rw [queueEvent, command_of_takes ht, withQueue_of_not_own hq, sent_refuse]

/-- DISCARD of a queue that is there removes its tasks (R286). -/
theorem discardQueue_of_get (hget : mget s.queues qid = some q) : discardQueue s qid =
    removeTasks (setQueue s qid { q with st := .draining, discarding := true }) fun i _ _ => decide (i = qid) := by
  simp only [discardQueue, hget]

/-- SETMASK of a queue that is not DESTROYED takes cores of its context's mask only (R287). -/
theorem exec_setmask_of_own (ht : Takes s h c isOpen) (hq : Own s.queues Queue.ctx h qid q) (mask : BitVec 576) :
    exec (.setmask h qid mask) s = .next (if q.st = .destroyed then reply s h 0x1D 2 []
      else if mask &&& ~~~c.mask = 0 then reply (setQueue s qid { q with mask := mask }) h 0x1D 0 [] else reply s h 0x1D 3 []) := by
  change execSetmask h qid mask s = _
  rw [execSetmask, command_of_takes ht, withQueue_of_own hq, ite_not]
  simp only [sent_ite, sent_ok, sent_refuse]

theorem exec_setmask_of_not_own (ht : Takes s h c isOpen) (hq : ∀ q, ¬ Own s.queues Queue.ctx h qid q) (mask : BitVec 576) :
    exec (.setmask h qid mask) s = .next (reply s h 0x1D 3 []) := by
  change execSetmask h qid mask s = _
  rw [execSetmask, command_of_takes ht, withQueue_of_not_own hq, sent_refuse]

/-- QUERYQ reaches the endpoint over UUD too (R423). -/
theorem exec_queryq_of_own (hr : Reaches s h 0x1E) (hget : mget s.contexts h.ctx.toNat = some c) (howner : c.assoc = h.assoc)
    (hst : isOpen c.st = true) (hq : Own s.queues Queue.ctx h qid q) {seg slot : Nat} (hseg : seg < 1024) (hslot : slot < 256) :
    exec (.queryq h qid seg slot) s = .next (reply s h 0x1E 0 (queueAnswer s q seg slot)) := by
  have hrange : ¬ (1024 ≤ seg ∨ 256 ≤ slot) := by omega
  change execQueryq h qid seg slot s = _
  rw [execQueryq, command_of_reaches hr hget howner hst, withQueue_of_own hq, if_neg hrange]
  rfl

theorem exec_queryq_of_not_own (hr : Reaches s h 0x1E) (hget : mget s.contexts h.ctx.toNat = some c) (howner : c.assoc = h.assoc)
    (hst : isOpen c.st = true) (hq : ∀ q, ¬ Own s.queues Queue.ctx h qid q) (seg slot : Nat) :
    exec (.queryq h qid seg slot) s = .next (reply s h 0x1E 3 []) := by
  change execQueryq h qid seg slot s = _
  rw [execQueryq, command_of_reaches hr hget howner hst, withQueue_of_not_own hq, sent_refuse]

end

/-- The clauses on the commands of a queue. -/
theorem queueCommandsComplete : Claim.QueueCommandsComplete := by
  intro h c s qid
  refine ⟨fun hr hget howner hst => ⟨fun q hq seg slot hseg hslot => exec_queryq_of_own hr hget howner hst hq hseg hslot,
    fun hq seg slot => exec_queryq_of_not_own hr hget howner hst hq seg slot⟩,
    fun ht => ⟨fun ovf ovfsz mask => exec_createq_of_free ht, fun q hq => ⟨?start, ?pause, ?drain, ?discard, exec_setmask_of_own ht hq⟩,
      fun hq mask => ⟨?startNone, ?pauseNone, ?drainNone, ?discardNone, exec_setmask_of_not_own ht hq mask⟩⟩⟩
  case start => rw [exec_start, queueEvent_of_own ht hq fun st => st = .created ∨ st = .paused]
  case pause => rw [exec_pause, queueEvent_of_own ht hq fun st => st = .active]
  case drain => rw [exec_drain, queueEvent_of_own ht hq fun st => st = .created ∨ st = .active ∨ st = .paused]
  case discard => rw [exec_discard, queueEvent_of_own ht hq fun st => st ≠ .destroyed, ite_not, discardQueue_of_get hq.1]
  case startNone => rw [exec_start, queueEvent_of_not_own ht hq]
  case pauseNone => rw [exec_pause, queueEvent_of_not_own ht hq]
  case drainNone => rw [exec_drain, queueEvent_of_not_own ht hq]
  case discardNone => rw [exec_discard, queueEvent_of_not_own ht hq]

/-! ### Dispatch -/

theorem Task.due_eq_false {t : Task} {disp : Nat} : t.due disp = false ↔ disp < t.age0 + 65536 := by
  rw [Task.due, decide_eq_false_iff_not, not_le]

theorem Segment.refillDue_eq_false {x : Segment} : x.refillDue = false ↔ x.spill = [] ∨ x.free = none := by
  rw [Segment.refillDue, Bool.and_eq_false_iff, Bool.not_eq_false', List.isEmpty_iff, Option.isSome_eq_false_iff, Option.isNone_iff_eq_none]

/-- The conditions of a dispatch, once its queue, its task and the task's kernel are there. -/
def dispatchOk (s : State) (q : Queue) (seg slot core : Nat) (place : Placing) (t : Task) (kid : Nat) (k : Kernel) : Bool :=
  dispatching s q && coreMay s q seg core t && roomFor s core q.ctx kid k (ceilDiv k.scratch 256 * 256) k.acc &&
    placingOk s core (teamShape k t.record) place && !(q.seg seg).refillDue && !((q.seg seg).slots.any fun p => p.2.due (q.seg seg).disp) &&
    !((q.seg seg).spill.any fun p => p.2.due (q.seg seg).disp) &&
    !((q.seg seg).slots.any fun p => decide (p.1 ≠ slot) && before p.2 t && coreMay s q seg core p.2 && taskFits s q core p.2)

section
variable {s : State} {qid seg slot core kid : Nat} {place : Placing} {q : Queue} {t : Task} {k : Kernel}

theorem exec_dispatch : exec (.dispatch qid seg slot core place) s = .next (dispatchTeam s qid seg slot core place) := rfl

/-- DISPATCH of a task that is there places a team where its conditions hold, and else changes nothing (R291, R292). -/
theorem dispatchTeam_of_task (hq : mget s.queues qid = some q) (ht : mget (q.seg seg).slots slot = some t)
    (hk : taskKernel s q t = some (kid, k)) : dispatchTeam s qid seg slot core place = if dispatchOk s q seg slot core place t kid k then
      settleQueues (placeTeam (setQueue s qid (q.setSeg seg ((q.seg seg).dispatched slot t))) q.ctx kid k core qid q.born t place) else s := by
  simp only [dispatchTeam, hq, ht, hk]
  rfl

/-- No task that comes first, of those that the core may take, fits it. -/
theorem noneBefore_iff : ((q.seg seg).slots.any fun p => decide (p.1 ≠ slot) && before p.2 t && coreMay s q seg core p.2 &&
      taskFits s q core p.2) = false ↔
    ∀ p ∈ (q.seg seg).slots, p.1 ≠ slot → before p.2 t = true → coreMay s q seg core p.2 = true → taskFits s q core p.2 = false := by
  simp only [List.any_eq_false, Bool.and_eq_true, decide_eq_true_eq, Bool.not_eq_true, not_and, and_imp]

theorem dispatchOk_iff : dispatchOk s q seg slot core place t kid k = true ↔
    dispatching s q = true ∧ coreMay s q seg core t = true ∧ roomFor s core q.ctx kid k (ceilDiv k.scratch 256 * 256) k.acc = true ∧
    placingOk s core (teamShape k t.record) place = true ∧ ((q.seg seg).spill = [] ∨ (q.seg seg).free = none) ∧
    (∀ p ∈ (q.seg seg).slots, (q.seg seg).disp < p.2.age0 + 65536) ∧ (∀ p ∈ (q.seg seg).spill, (q.seg seg).disp < p.2.age0 + 65536) ∧
    ∀ p ∈ (q.seg seg).slots, p.1 ≠ slot → before p.2 t = true → coreMay s q seg core p.2 = true → taskFits s q core p.2 = false := by
  rw [← noneBefore_iff]
  simp only [dispatchOk, Bool.and_eq_true, Bool.not_eq_true', Segment.refillDue_eq_false, List.any_eq_false, Bool.not_eq_true,
    Task.due_eq_false, and_assoc]

theorem dispatchOk_of_mayDispatch (h : MayDispatch s qid seg slot core place q t kid k) : dispatchOk s q seg slot core place t kid k = true :=
  dispatchOk_iff.2 ⟨h.runs, h.may, h.room, h.placing, h.refilled, h.aged, h.agedSpill, h.first⟩

theorem mayDispatch_of_dispatchOk (hq : mget s.queues qid = some q) (ht : mget (q.seg seg).slots slot = some t)
    (hk : taskKernel s q t = some (kid, k)) (hok : dispatchOk s q seg slot core place t kid k = true) :
    MayDispatch s qid seg slot core place q t kid k := by
  obtain ⟨hruns, hmay, hroom, hplacing, hrefilled, haged, hagedSpill, hfirst⟩ := dispatchOk_iff.1 hok
  exact ⟨hq, ht, hk, hruns, hmay, hroom, hplacing, haged, hagedSpill, hrefilled, hfirst⟩

theorem dispatchTeam_of_mayDispatch (h : MayDispatch s qid seg slot core place q t kid k) : dispatchTeam s qid seg slot core place =
    settleQueues (placeTeam (setQueue s qid (q.setSeg seg ((q.seg seg).dispatched slot t))) q.ctx kid k core qid q.born t place) := by
  rw [dispatchTeam_of_task h.queue h.task h.kernel, if_pos (dispatchOk_of_mayDispatch h)]

/-- A dispatch that may not be changes nothing. -/
theorem dispatchTeam_of_not_mayDispatch (hnot : ∀ q t kid k, ¬ MayDispatch s qid seg slot core place q t kid k) :
    dispatchTeam s qid seg slot core place = s := by
  cases hq : mget s.queues qid with
  | none => simp only [dispatchTeam, hq]
  | some q =>
    cases ht : mget (q.seg seg).slots slot with
    | none => simp only [dispatchTeam, hq, ht]
    | some t =>
      cases hk : taskKernel s q t with
      | none => simp only [dispatchTeam, hq, ht, hk]
      | some x =>
        rw [dispatchTeam_of_task hq ht hk, if_neg fun hok => hnot q t x.1 x.2 (mayDispatch_of_dispatchOk hq ht hk hok)]

/-! ### Promotion and refill -/

/-- A task to which a promotion is due goes one level up (R293). -/
theorem Task.promote_of_due {disp : Nat} (hdue : t.age0 + 65536 ≤ disp) :
    t.promote disp = { t with eprio := min (t.eprio + 1) 7, age0 := t.age0 + 65536 } := if_pos (decide_eq_true hdue)

theorem taskPromotion_of_slot (hq : mget s.queues qid = some q) (hslot : slot < 256) (ht : mget (q.seg seg).slots slot = some t) :
    taskPromotion s qid seg slot = setQueue s qid (q.setSeg seg { q.seg seg with
      slots := mput (q.seg seg).slots slot (t.promote (q.seg seg).disp) }) := by
  simp only [taskPromotion, hq, if_pos hslot, ht]

theorem taskPromotion_of_spill {pos n : Nat} (hq : mget s.queues qid = some q) (hn : 256 ≤ n)
    (ht : (q.seg seg).spill[n - 256]? = some (pos, t)) : taskPromotion s qid seg n = writeSpill (setQueue s qid (q.setSeg seg { q.seg seg with
      spill := (q.seg seg).spill.set (n - 256) (pos, t.promote (q.seg seg).disp) })) q seg pos (t.promote (q.seg seg).disp) := by
  simp only [taskPromotion, hq, if_neg (not_lt.2 hn), ht]

/-- A spilled entry and a free slot: the entry that spilled first moves (R289). -/
theorem overflowRefill_of_free {i pos : Nat} {l : List (Nat × Task)} (hq : mget s.queues qid = some q)
    (hspill : (q.seg seg).spill = (pos, t) :: l) (hfree : (q.seg seg).free = some i) :
    overflowRefill s qid seg = setQueue s qid (q.setSeg seg { q.seg seg with
      slots := mput (q.seg seg).slots i (readSpill s q seg pos t), spill := l }) := by
  have hdue : (q.seg seg).refillDue = true := by rw [Segment.refillDue, hspill, hfree]; rfl
  simp only [overflowRefill, hq, if_pos hdue, refillSegment, hspill, hfree]

end

/-- The clauses on dispatch, promotion and refill. -/
theorem dispatchEventsComplete : Claim.DispatchEventsComplete := by
  refine ⟨fun s qid seg slot core place q t kid k hmay => ?dispatch, fun s qid seg slot core place hnot => ?none,
    fun s qid seg slot q t hq hslot ht hdue => ?promote, fun s qid seg n pos q t hq hn ht hdue => ?promoteSpill,
    fun s qid seg i pos q t l hq hspill hfree => ?refill⟩
  case dispatch => rw [exec_dispatch, dispatchTeam_of_mayDispatch hmay, Segment.dispatched]
  case none => rw [exec_dispatch, dispatchTeam_of_not_mayDispatch hnot]
  case promote =>
    change execTaskPromotion qid seg slot s = _
    rw [execTaskPromotion, taskPromotion_of_slot hq hslot ht, Task.promote_of_due hdue]
  case promoteSpill =>
    change execTaskPromotion qid seg n s = _
    rw [execTaskPromotion, taskPromotion_of_spill hq hn ht, Task.promote_of_due hdue]
  case refill =>
    change execOverflowRefill qid seg s = _
    rw [execOverflowRefill, overflowRefill_of_free hq hspill hfree]

/-! ### The obligation -/

/-- Settles O34: the commands on a queue, and the events of dispatch, promotion and refill. -/
theorem queuesComplete : Obligations.QueuesComplete := ⟨queueCommandsComplete, dispatchEventsComplete⟩

end Sys2Proof.Machine
end

section
/-! PROOFS. Vector operations that raise no flag, whatever their lanes give, and a commit of any number of rows: what the lane
operations and the special registers share. -/

namespace Sys2Proof.Machine

open Sys2Proof.Claim

@[simp] theorem Group.trapFlags_zero (g : Group) : g.trapFlags 0 = 0 := BitVec.zero_and

/-- Two rows written, the second over the first where both have one name. -/
theorem mget_update_two (t : Thread) (frees : List Nat) (n n' : Nat) (x x' : Word) (m : Nat) :
    mget (t.update frees [(n, x), (n', x')]).v m =
      if m = n' then some x' else if m = n then some x else if m ∈ frees then none else mget t.v m := by
  have hwrite : (t.update frees [(n, x), (n', x')]).v = mput (t.update frees [(n, x)]).v n' x' := rfl
  rw [hwrite, mget_mput, mget_update_one]
  simp only [@eq_comm _ n' m]

section
variable {s : State} {g : Group} {reads : List (BitVec 7 × Bool)} {dests : List (BitVec 7)} {res : Fin 32 → LaneRes} {now : Nat} {l : Fin 32}

/-- A lane of the issue after a vector instruction: its rows freed and written, standing at the next instruction. -/
theorem advance_vecCommit_on (hl : l ∈ cohort s) : ((g.vecCommit now (cohort s) reads dests res).advance s.cur).threads[l] =
    { g.threads[l].update (g.freesOf reads) ((dests.filterMap g.vname).zip (res l).vals) with pc := s.cur.next, wait := none } := by
  obtain ⟨lr, sp, wf, br, h⟩ := vecCommit_eq g now (cohort s) reads dests res
  have hm := mem_cohort.1 hl
  have hmask : (maskOf (cohort s)).getLsbD l = true := by rw [cohort, getLsbD_maskOf_lanesOf]; exact hm
  rw [Group.advance, Group.onLanes_on _ _ _ _ hm, h]
  dsimp only
  rw [Group.onLanes_on _ _ _ _ hmask]

theorem advance_vecCommit_off (hl : l ∉ cohort s) :
    ((g.vecCommit now (cohort s) reads dests res).advance s.cur).threads[l] = g.threads[l] := by
  obtain ⟨lr, sp, wf, br, h⟩ := vecCommit_eq g now (cohort s) reads dests res
  have hm : s.cur.mask.getLsbD l = false := by rw [mem_cohort, Bool.not_eq_true] at hl; exact hl
  have hmask : (maskOf (cohort s)).getLsbD l = false := by rw [cohort, getLsbD_maskOf_lanesOf]; exact hm
  rw [Group.advance, Group.onLanes_off _ _ _ _ hm, h]
  dsimp only
  rw [Group.onLanes_off _ _ _ _ hmask]

/-- A commit leaves everything but threads, flags and the bookkeeping of rows. -/
theorem advance_vecCommit_frame : ∃ lr sp wf br, (g.vecCommit now (cohort s) reads dests res).advance s.cur = { g with
    threads := ((g.vecCommit now (cohort s) reads dests res).advance s.cur).threads
    gstat := g.gstat ||| Flags.toGstat ((cohort s).foldl (fun a i => a ||| (res i).flags) 0) |||
      gUndef ((cohort s).any fun i => (g.readAll i (reads.map (·.1))).2)
    lastRead := lr, spilled := sp, wantFill := wf, badRegs := br } := by
  obtain ⟨lr, sp, wf, br, h⟩ := vecCommit_eq g now (cohort s) reads dests res
  refine ⟨lr, sp, wf, br, ?_⟩
  rw [h]
  rfl

theorem vnames_one {d : BitVec 7} (hd : isUni d = false) : [d].filterMap g.vname = [rotName g.rwin d.toNat] := by
  simp [vname_vec hd]

theorem vnames_two {d d' : BitVec 7} (hd : isUni d = false) (hd' : isUni d' = false) :
    [d, d'].filterMap g.vname = [rotName g.rwin d.toNat, rotName g.rwin d'.toNat] := by
  simp [vname_vec hd, vname_vec hd']

/-- Whether a lane reads a row that was never written, as the operands' reader gives it. -/
theorem any_readAll_eq_anyUndef : ((cohort s).any fun i => (g.readAll i (reads.map (·.1))).2) = anyUndef s g reads := by
  simp only [Group.readAll, List.any_map, anyUndef]
  rfl

/-- An instruction that reads no row reads none that was never written. -/
@[simp] theorem anyUndef_nil : anyUndef s g [] = false := List.any_eq_false.2 fun _ _ => Bool.false_ne_true

/-- Two rows committed with no flag. -/
theorem twoRows_of_commit {d d' : BitVec 7} (hd : isUni d = false) (hd' : isUni d' = false) {v v' : Word}
    (hres : ∀ l, res l = { vals := [v, v'], flags := 0 }) :
    TwoRows s (done s (g.vecCommit now (cohort s) reads [d, d'] res)) g (g.freesOf reads) (rotName g.rwin d.toNat) (rotName g.rwin d'.toNat)
      v v' (anyUndef s g reads) := by
  obtain ⟨lr, sp, wf, br, hframe⟩ := advance_vecCommit_frame (s := s) (g := g) (reads := reads) (dests := [d, d']) (res := res) (now := now)
  simp only [hres, foldl_or_zero, any_readAll_eq_anyUndef] at hframe
  refine ⟨_, rfl, fun l hl => ?_, fun l hl => advance_vecCommit_off hl, ?_, ?_⟩
  · rw [advance_vecCommit_on hl, vnames_two hd hd', hres]
    exact ⟨rfl, mget_update_two _ _ _ _ _ _⟩
  · rw [hframe]
  · rw [hframe]

/-- A vector operation that raises no flag, with its registers free and room for its rows, commits (R8, R44, R48). -/
theorem vecOn_of_noFlags {f : Fin 32 → List Word → LaneRes} (hf : VecFree s g (cohort s) (reads.map (·.1)) dests)
    (hr : VecRoom g (cohort s) (g.freesOf reads) (dests.filterMap g.vname)) (hfl : ∀ i vs, (f i vs).flags = 0) :
    vecOn s g (cohort s) reads dests f =
      .ok (g.vecCommit s.tick (cohort s) reads dests fun i => f i (g.readAll i (reads.map (·.1))).1) :=
  vecOn_ok hf hr fun l _ => by rw [hfl, Group.trapFlags_zero]

/-- The one row that such an operation writes. -/
theorem vecDone_of_noFlags {d : BitVec 7} (hd : isUni d = false) {val : Fin 32 → Word} (hres : ∀ l, res l = .val (val l)) :
    VecDone s (done s (g.vecCommit s.tick (cohort s) reads [d] res)) g (g.freesOf reads) (rotName g.rwin d.toNat) val 0
      (anyUndef s g reads) := by
  have h := vecDone_of_commit (s := s) (g := g) (reads := reads) hd res val fun l => by rw [hres]; rfl
  simp only [hres, LaneRes.val, foldl_or_zero, any_readAll_eq_anyUndef] at h ⊢
  exact h

/-- An operation that reads no row and writes one. -/
theorem vecOn_writeOnly {d : BitVec 7} (hd : isUni d = false) (hf : VecFree s g (cohort s) [] [d])
    (hr : VecRoom g (cohort s) [] [rotName g.rwin d.toNat]) (val : Fin 32 → Word) :
    ∃ g', vecOn s g (cohort s) [] [d] (fun l _ => .val (val l)) = .ok g' ∧ VecDone s (done s g') g [] (rotName g.rwin d.toNat) val 0 false := by
  refine ⟨_, vecOn_of_noFlags (reads := []) hf (by rw [vnames_one hd]; exact hr) fun _ _ => rfl, ?_⟩
  have hdone := vecDone_of_noFlags (s := s) (g := g) (reads := []) hd (val := val) fun _ => rfl
  rwa [anyUndef_nil] at hdone

end

end Sys2Proof.Machine
end

section
/-! PROOFS. The lane operations: the issue takes in every live thread of the group, and LSHF, LRED, LSCAN and VOTE over it. -/

namespace Sys2Proof.Machine

open Sys2Proof.Claim

section
variable {s : State} {g : Group}

/-! ### The whole group issues -/

theorem whole_issues (hi : Issues s g) : Issues (whole s g) g := hi

/-- Once every live thread has reached the instruction, the whole group issues (R56). -/
theorem converge_of_converged (hi : Issues s g) (hc : converged g s.cur = true) : converge s = .ok (whole s g) := by
  simp only [converge, bind, Except.bind, issuer_ok hi, hc]
  rfl

/-- A lane operation commits the rows that it gives to each lane of the group. -/
theorem laneStep_ok (hi : Issues s g) (hc : converged g s.cur = true) {o : A3} {dests : List (BitVec 7)}
    (hf : VecFree (whole s g) g (cohort (whole s g)) [o.a, o.b] dests)
    (hr : VecRoom g (cohort (whole s g)) (g.freesOf (marks2 o.a o.b o.la o.lb)) (dests.filterMap g.vname)) (idv : Group → Word)
    (f : List Word → Fin 32 → Word → List Word) : finish (laneStep s o dests idv f) =
      .next (done (whole s g) (g.vecCommit s.tick (cohort (whole s g)) (marks2 o.a o.b o.la o.lb) dests fun l =>
        { vals := f (laneVals g o.a (idv g)) l (g.rdLane l o.b).1, flags := 0 })) := by
  have hcommit := vecOn_of_noFlags (s := whole s g) (reads := marks2 o.a o.b o.la o.lb) hf hr
    (f := fun i l => { vals := f (laneVals g o.a (idv g)) i (arg l 1), flags := 0 }) fun _ _ => rfl
  simp only [laneStep, bind, Except.bind, converge_of_converged hi hc, issuer_ok (whole_issues hi)]
  rw [show [(o.a, o.la), (o.b, o.lb)] = marks2 o.a o.b o.la o.lb from rfl, hcommit]
  rfl

/-- A lane operation with one row for each lane. -/
theorem laneStep_oneRow (hi : Issues s g) (hc : converged g s.cur = true) {o : A3} (hd : isUni o.d = false)
    (hf : VecFree (whole s g) g (cohort (whole s g)) [o.a, o.b] [o.d])
    (hr : VecRoom g (cohort (whole s g)) (g.freesOf (marks2 o.a o.b o.la o.lb)) [rotName g.rwin o.d.toNat]) (idv : Group → Word)
    {f : List Word → Fin 32 → Word → List Word} {val : Fin 32 → Word}
    (hval : ∀ l, f (laneVals g o.a (idv g)) l (g.rdLane l o.b).1 = [val l]) :
    ∃ t, finish (laneStep s o [o.d] idv f) = .next t ∧ VecDone (whole s g) t g (g.freesOf (marks2 o.a o.b o.la o.lb))
      (rotName g.rwin o.d.toNat) val 0 (anyUndef (whole s g) g (marks2 o.a o.b o.la o.lb)) := by
  refine ⟨_, laneStep_ok hi hc hf (by rw [vnames_one hd]; exact hr) idv f, ?_⟩
  exact vecDone_of_noFlags (s := whole s g) hd fun l => by rw [hval]; rfl

/-- A lane operation with the same two rows for every lane. -/
theorem laneStep_twoRows (hi : Issues s g) (hc : converged g s.cur = true) {o : A3} {d' : BitVec 7} (hd : isUni o.d = false)
    (hd' : isUni d' = false) (hf : VecFree (whole s g) g (cohort (whole s g)) [o.a, o.b] [o.d, d'])
    (hr : VecRoom g (cohort (whole s g)) (g.freesOf (marks2 o.a o.b o.la o.lb)) [rotName g.rwin o.d.toNat, rotName g.rwin d'.toNat])
    (idv : Group → Word) {f : List Word → Fin 32 → Word → List Word} {v v' : Word}
    (hval : ∀ l, f (laneVals g o.a (idv g)) l (g.rdLane l o.b).1 = [v, v']) :
    ∃ t, finish (laneStep s o [o.d, d'] idv f) = .next t ∧ TwoRows (whole s g) t g (g.freesOf (marks2 o.a o.b o.la o.lb))
      (rotName g.rwin o.d.toNat) (rotName g.rwin d'.toNat) v v' (anyUndef (whole s g) g (marks2 o.a o.b o.la o.lb)) := by
  refine ⟨_, laneStep_ok hi hc hf (by rw [vnames_two hd hd']; exact hr) idv f, ?_⟩
  exact twoRows_of_commit (s := whole s g) hd hd' fun l => by rw [hval]

/-! ### The instructions -/

theorem exec_lshf (f : BitVec 2) (o : A3) (s : State) : exec (.lshf f o) s =
    finish (laneStep s o [o.d] (fun g => if f = 3 then laneIdv g o.b else 0) fun vs i b => [arg vs (lshfSrc f i b)]) := rfl

theorem exec_lscan (f : BitVec 2) (o : A3) (s : State) :
    exec (.lscan f o) s = finish (laneStep s o [o.d] (laneIdv · o.b) fun vs i _ => [lscanV f vs i]) := rfl

theorem exec_lred_oneRow {f : BitVec 2} (hf : f ≠ 3) (o : A3) (s : State) :
    exec (.lred f o) s = finish (laneStep s o [o.d] (laneIdv · o.b) fun vs _ _ => lredV f vs) := by
  change execLred f o s = _
  rw [execLred, if_neg hf]

theorem exec_lred_twoRows (o : A3) (s : State) :
    exec (.lred 3 o) s = finish (laneStep s o [o.d, o.d + 1] (laneIdv · o.b) fun vs _ _ => lredV 3 vs) := rfl

/-- Every form of LRED but f = 3 gives one result (R179). -/
theorem lredV_oneRow {f : BitVec 2} (hf : f ≠ 3) (vs : List Word) : lredV f vs = [arg (lredV f vs) 0] := by
  have hcases : f = 0 ∨ f = 1 ∨ f = 2 ∨ f = 3 := by revert f; decide
  obtain rfl | rfl | rfl | rfl := hcases
  · rfl
  · rfl
  · rfl
  · exact absurd rfl hf

theorem lredV_twoRows (vs : List Word) : lredV 3 vs = [arg (lredV 3 vs) 0, arg (lredV 3 vs) 1] := rfl

/-- The clauses on LSHF, LRED and LSCAN. -/
theorem laneArithmeticCompletes : Claim.LaneArithmeticCompletes := by
  intro f o s g hi hc hd
  refine ⟨fun hf hr => ⟨?lshf, ?lscan, fun hf3 => ?lred⟩, fun hd' hf hr => ?lredTwo⟩
  case lshf => rw [exec_lshf]; exact laneStep_oneRow hi hc hd hf hr _ fun l => rfl
  case lscan => rw [exec_lscan]; exact laneStep_oneRow hi hc hd hf hr _ fun l => rfl
  case lred => rw [exec_lred_oneRow hf3]; exact laneStep_oneRow hi hc hd hf hr _ fun l => lredV_oneRow hf3 _
  case lredTwo => rw [exec_lred_twoRows]; exact laneStep_twoRows hi hc hd hd' hf hr _ fun l => lredV_twoRows _

/-! ### VOTE -/

theorem exec_vote (f : BitVec 2) (k : BitVec 3) (d : BitVec 7) (s : State) : exec (.vote f k d) s = finish (voteStep s f k d) := rfl

/-- VOTE of a group that has arrived, where it writes a q register, or a predicate of every lane (R181, Table 6.25). -/
theorem exec_vote_noRow (hi : Issues s g) (hc : converged g s.cur = true) (k : BitVec 3) (d : BitVec 7) :
    (exec (.vote 0 k d) s = .next (done (whole s g) { g with q := g.q.set! (d.toNat % 8) (ballotOf (voteVals g k.toNat false)) })) ∧
    (exec (.vote 1 k d) s = .next (done (whole s g) (g.onLanes g.liveMask fun _ t =>
      { t with k := setBit8 t.k (d.toNat % 8) ((voteVals g k.toNat false).any id) }))) ∧
    exec (.vote 2 k d) s = .next (done (whole s g) (g.onLanes g.liveMask fun _ t =>
      { t with k := setBit8 t.k (d.toNat % 8) ((voteVals g k.toNat true).all id) })) := by
  refine ⟨?_, ?_, ?_⟩ <;>
    (simp only [exec_vote, voteStep, bind, Except.bind, converge_of_converged hi hc, issuer_ok (whole_issues hi)]; rfl)

/-- VOTE of the count, in a row of every lane. -/
theorem exec_vote_count (hi : Issues s g) (hc : converged g s.cur = true) (k : BitVec 3) {d : BitVec 7} (hd : isUni d = false)
    (hf : VecFree (whole s g) g (cohort (whole s g)) [] [d]) (hr : VecRoom g (cohort (whole s g)) [] [rotName g.rwin d.toNat]) :
    ∃ t, exec (.vote 3 k d) s = .next t ∧ VecDone (whole s g) t g [] (rotName g.rwin d.toNat)
      (fun _ => BitVec.ofNat 32 ((voteVals g k.toNat false).filter id).length) 0 false := by
  obtain ⟨g', hcommit, hdone⟩ := vecOn_writeOnly hd hf hr fun _ => BitVec.ofNat 32 ((voteVals g k.toNat false).filter id).length
  refine ⟨_, ?_, hdone⟩
  simp only [exec_vote, voteStep, bind, Except.bind, converge_of_converged hi hc, issuer_ok (whole_issues hi), hcommit]
  rfl

end

/-- The clauses on VOTE. -/
theorem voteCompletes : Claim.VoteCompletes := by
  intro k d s g hi hc
  obtain ⟨hballot, hany, hall⟩ := exec_vote_noRow hi hc k d
  exact ⟨hballot, hany, hall, exec_vote_count hi hc k⟩

/-! ### The obligation -/

/-- Settles O5: the lane operations with rows, and VOTE. -/
theorem laneOperationsComplete : Obligations.LaneOperationsComplete := ⟨laneArithmeticCompletes, voteCompletes⟩

end Sys2Proof.Machine
end

section
/-! PROOFS. Special registers: access to them, the values that they take, SRD and SWR. -/

namespace Sys2Proof.Machine

open Sys2Proof.Claim

section
variable {s : State} {g : Group} {sel : BitVec 7}

/-! ### Access -/

theorem selAllowed_ok (hp : 0x40 ≤ sel.toNat → g.privileged = true) : selAllowed s g sel = .ok () := by
  refine if_neg fun h => ?_
  rw [Bool.and_eq_true, privSel, decide_eq_true_eq] at h
  obtain ⟨hsel, hnot⟩ := h
  rw [hp hsel] at hnot
  exact Bool.false_ne_true hnot

/-- Without an operation of the group in the sequencer nothing holds an access of GSTAT (R189). -/
theorem gstatWait_ok (hfree : GstatFree s g sel) : gstatWait s g sel = .ok () := by
  refine if_neg fun ⟨hsel, hbusy⟩ => ?_
  obtain ⟨o, ho, hown⟩ := List.any_eq_true.1 hbusy
  rw [Bool.and_true, decide_eq_true_eq] at hown
  exact hfree hsel o ho hown

/-! ### SRD -/

theorem exec_srd (d sel : BitVec 7) (s : State) : exec (.srd d sel) s = finish (srdStep s d sel) := rfl

/-- SRD of a uniform register takes the value of the lowest live lane (R188). -/
theorem srdStep_uniform (hi : Issues s g) (hp : 0x40 ≤ sel.toNat → g.privileged = true) (hfree : GstatFree s g sel) {d : BitVec 7}
    (hd : isUni d = true) (hu : UniFree s g [] [uniIdx d]) : srdStep s d sel = .ok (done s (g.wrW (uniIdx d) (srdUni s g sel))) := by
  simp only [srdStep, bind, Except.bind, issuer_ok hi, selAllowed_ok hp, if_pos hd, useW_ok hu, gstatWait_ok hfree]
  rfl

/-- SRD of a row takes the low word of each lane's value (R188). -/
theorem srdStep_vector (hi : Issues s g) (hp : 0x40 ≤ sel.toNat → g.privileged = true) (hfree : GstatFree s g sel) {d : BitVec 7}
    (hd : isUni d = false) (hf : VecFree s g (cohort s) [] [d]) {g' : Group}
    (hrow : vecOn s g (cohort s) [] [d] (fun l _ => .val ((srdVal s g sel l).truncate 32)) = .ok g') :
    srdStep s d sel = .ok (done s g') := by
  have hvec : ¬ isUni d = true := by rw [hd]; exact Bool.false_ne_true
  simp only [srdStep, bind, Except.bind, issuer_ok hi, selAllowed_ok hp, if_neg hvec, operandsReady_ok hf, gstatWait_ok hfree, hrow]

/-! ### The values that registers take -/

theorem need_bind {b : Bool} (h : b = true) (f : Unit → R State) : (need s b >>= f) = f () := by
  rw [show need s b = .ok () from if_pos h]
  rfl

/-- A value whose reserved bits are 0 is taken whole (R188, R4). -/
theorem only32_bind {v : DWord} {mask : Word} (h : FitsMask v mask) (f : Word → R State) :
    (only32 s v mask >>= f) = f (v.truncate 32) := by
  obtain ⟨hlt, hmask⟩ := h
  have hneed : need s (decide (v.toNat < 2 ^ 32) && ((v.truncate 32 : Word) &&& ~~~mask) == 0) = .ok () :=
    if_pos (by rw [decide_eq_true hlt, hmask]; rfl)
  simp only [only32, bind, Except.bind, hneed]

/-- CSLR and DDTR may be written in context 0 (R435). -/
theorem context0Only_bind (h : g.ctx = 0) (f : Unit → R State) : (context0Only s g >>= f) = f () := by
  rw [show context0Only s g = .ok () from if_pos h]
  rfl

theorem toNat_truncate32 {v : DWord} (h : v.toNat < 2 ^ 32) : (v.truncate 32 : Word).toNat = v.toNat := by
  rw [BitVec.truncate_eq_setWidth, BitVec.toNat_setWidth, Nat.mod_eq_of_lt h]

/-- A value of 32 bits comes back from its low word. -/
theorem zeroExtend_truncate32 {v : DWord} (h : v.toNat < 2 ^ 32) : (v.truncate 32 : Word).zeroExtend 64 = v :=
  BitVec.eq_of_toNat_eq (by rw [BitVec.toNat_setWidth, toNat_truncate32 h, Nat.mod_eq_of_lt v.isLt])

/-- Every value of 32 bits fits a register without reserved bits. -/
theorem fitsMask_all {v : DWord} (h : v.toNat < 2 ^ 32) : FitsMask v 0xFFFFFFFF#32 := ⟨h, BitVec.and_zero⟩

/-- A value of a byte fits a register of a byte. -/
theorem fitsMask_byte {v : DWord} (h : v.toNat < 2 ^ 8) : FitsMask v 0xFF#32 := by
  have hlt : v.toNat < 2 ^ 32 := by omega
  have hlow : (v.truncate 32 : Word) &&& 0xFF#32 = v.truncate 32 := BitVec.eq_of_toNat_eq (by
    rw [BitVec.toNat_and, toNat_truncate32 hlt]
    exact (Nat.and_two_pow_sub_one_eq_mod _ 8).trans (Nat.mod_eq_of_lt h))
  refine ⟨hlt, ?_⟩
  rw [← hlow, BitVec.and_assoc]
  exact BitVec.and_zero

/-! ### SWR -/

theorem exec_swr (sel : BitVec 7) (r : BitVec 5) (s : State) : exec (.swr sel r) s = finish (swrStep s sel r) := rfl

/-- SWR of a register that the group may access comes to the write (R188, R189). -/
theorem exec_swr_of_free (hi : Issues s g) (hp : 0x40 ≤ sel.toNat → g.privileged = true) (hfree : GstatFree s g sel) {r : BitVec 5}
    (hu : UniFree s g [r.toNat] []) : exec (.swr sel r) s = finish (swrTo s g sel (g.rdW r.toNat)) := by
  simp only [exec_swr, swrStep, bind, Except.bind, issuer_ok hi, selAllowed_ok hp, useW_ok hu, gstatWait_ok hfree]

section
variable {v : DWord}

theorem swrTo_gstat (h : v &&& ~~~0xF703FF#64 = 0) :
    swrTo s g 0x10 v = .ok (done s { g with gstat := (g.gstat &&& 0xF00000#64) ||| (v &&& 0x703FF#64) }) :=
  need_bind (beq_iff_eq.2 h) _

theorem swrTo_fpen (h : FitsMask v 0x3F#32) : swrTo s g 0x11 v = .ok (done s { g with fpen := v.truncate 32 }) := only32_bind h _

theorem swrTo_rwin (h : FitsMask v 0x7F#32) (hspan : v.toNat / 32 % 4 ≠ 3) (hcount : v.toNat % 32 < rwinSpan (v.truncate 32)) :
    swrTo s g 0x12 v = .ok (done s { g with rwin := v.truncate 32 }) := by
  have hok : rwinOk (v.truncate 32) = true := by
    rw [rwinOk, toNat_truncate32 h.1, Bool.and_eq_true, bne_iff_ne, decide_eq_true_eq]; exact ⟨hspan, hcount⟩
  exact (only32_bind h _).trans (need_bind hok _)

theorem swrTo_xfer (h : FitsMask v 0x1F#32) :
    swrTo s g 0x13 v = .ok (done s (g.onLanes s.cur.mask fun _ t => { t with xfer := v.truncate 32 })) := only32_bind h _

theorem swrTo_ntvec (h : FitsMask v 0xFFFFFFFE#32) : swrTo s g 0x16 v = .ok (done s { g with ntvec := v }) := by
  rw [show swrTo s g 0x16 v = .ok (done s { g with ntvec := (v.truncate 32 : Word).zeroExtend 64 }) from only32_bind h _,
    zeroExtend_truncate32 h.1]

theorem swrTo_hcause (h : v &&& 0xFFFFE000#64 = 0) : swrTo s g 0x40 v = .ok (done s { g with hcause := v }) :=
  need_bind (beq_iff_eq.2 h) _

theorem swrTo_hpc (h : v.toNat < 2 ^ 32) : swrTo s g 0x41 v = .ok (done s { g with hpc := v }) := by
  rw [show swrTo s g 0x41 v = .ok (done s { g with hpc := (v.truncate 32 : Word).zeroExtend 64 }) from
    only32_bind (fitsMask_all h) _, zeroExtend_truncate32 h]

theorem swrTo_haddr : swrTo s g 0x42 v = .ok (done s { g with haddr := v }) := rfl

theorem swrTo_cslr (hctx : g.ctx = 0) (h : FitsMask v 0xFF3F#32) : swrTo s g 0x48 v =
    .ok (done (setCluster s (clusOf g.core) { clusterOf s (clusOf g.core) with cslr := v.truncate 32 }) g) :=
  (context0Only_bind hctx _).trans (only32_bind h _)

theorem swrTo_ddtr (hctx : g.ctx = 0) (hlow : 10 ≤ v.toNat) (hhigh : v.toNat ≤ 100) : swrTo s g 0x49 v =
    .ok (done (setCluster s (clusOf g.core) { clusterOf s (clusOf g.core) with ddtr := v.truncate 32 }) g) := by
  have hrange : 10 ≤ (v.truncate 32 : Word).toNat ∧ (v.truncate 32 : Word).toNat ≤ 100 := by
    rw [toNat_truncate32 (by omega)]; exact ⟨hlow, hhigh⟩
  exact (context0Only_bind hctx _).trans ((only32_bind (fitsMask_byte (by omega)) _).trans (need_bind (decide_eq_true hrange) _))

end
end

/-! ### The obligation -/

/-- Settles O10: what an SRD takes, and what an SWR of each register leaves. -/
theorem specialRegistersComplete : Obligations.SpecialRegistersComplete := by
  intro sel s g hi hp hfree
  refine ⟨fun d hd hu => ?uniform, fun d hd hf hr => ?vector, fun r hu => ?write⟩
  case uniform =>
    exact ⟨_, by rw [exec_srd, srdStep_uniform hi hp hfree hd hu, finish], uniDone_of_wrW _ _ _ _ (uniIdx_lt d)⟩
  case vector =>
    obtain ⟨g', hrow, hdone⟩ := vecOn_writeOnly hd hf hr fun l => (srdVal s g sel l).truncate 32
    exact ⟨_, by rw [exec_srd, srdStep_vector hi hp hfree hd hf hrow, finish], hdone⟩
  case write =>
    rw [exec_swr_of_free hi hp hfree hu]
    refine ⟨?_, ?_, ?_, ?_, ?_, ?_, ?_, ?_, ?_, ?_⟩ <;> rintro rfl
    · intro h; rw [swrTo_gstat h, finish]
    · intro h; rw [swrTo_fpen h, finish]
    · intro h hspan hcount; rw [swrTo_rwin h hspan hcount, finish]
    · intro h; rw [swrTo_xfer h, finish]
    · intro h; rw [swrTo_ntvec h, finish]
    · intro h; rw [swrTo_hcause h, finish]
    · intro h; rw [swrTo_hpc h, finish]
    · rw [swrTo_haddr, finish]
    · intro hctx h; rw [swrTo_cslr hctx h, finish]
    · intro hctx hlow hhigh; rw [swrTo_ddtr hctx hlow hhigh, finish]

end Sys2Proof.Machine
end

section
/-! PROOFS. The fields of instruction words: what a field of a number is, what the encoder's frames (Tables 3.2 and 3.4) hold in their
fields, and the frame that the fields of a word make up. -/

namespace Sys2Proof

/-! ### Fields of a number -/

section
variable {w lo n : Nat}

@[simp] theorem toNat_bits (w lo n : Nat) : (bits w lo n).toNat = fieldN w lo n := BitVec.toNat_ofNat _ _

theorem bits_eq_iff {x : BitVec n} : bits w lo n = x ↔ fieldN w lo n = x.toNat := by rw [← BitVec.toNat_inj, toNat_bits]

theorem bits_eq_ofNat (w lo n : Nat) : bits w lo n = BitVec.ofNat n (fieldN w lo n) :=
  bits_eq_iff.2 (by rw [BitVec.toNat_ofNat, fieldN, Nat.mod_mod])

@[simp] theorem toNat_fF (w : Nat) : (fF w).toNat = fieldN w 30 2 := toNat_bits _ _ _
@[simp] theorem toNat_eReg (w : Nat) : (eReg w).toNat = fieldN w 21 5 := toNat_bits _ _ _

@[simp] theorem b2n_beq_one (b : Bool) : (b2n b == 1) = b := by cases b <;> rfl

theorem b2n_inj {b c : Bool} : b2n b = b2n c ↔ b = c := by cases b <;> cases c <;> decide

theorem bitAt_eq (w i : Nat) : bitAt w i = (fieldN w i 1 == 1) := rfl

@[simp] theorem b2n_bitAt (w i : Nat) : b2n (bitAt w i) = fieldN w i 1 := by
  have hbit : w / 2 ^ i % 2 = 0 ∨ w / 2 ^ i % 2 = 1 := by omega
  obtain h | h := hbit <;> simp [b2n, bitAt, fieldN, h]

theorem bitAt_eq_iff {i : Nat} {b : Bool} : bitAt w i = b ↔ fieldN w i 1 = b2n b := by rw [← b2n_inj, b2n_bitAt]
@[simp] theorem bitAt_eq_false {i : Nat} : bitAt w i = false ↔ fieldN w i 1 = 0 := bitAt_eq_iff

@[simp] theorem dZero_iff : dZero w = true ↔ fieldN w 7 7 = 0 := beq_iff_eq
@[simp] theorem aZero_iff : aZero w = true ↔ fieldN w 14 7 = 0 := beq_iff_eq
@[simp] theorem eZero_iff : eZero w = true ↔ fieldN w 21 5 = 0 := beq_iff_eq

theorem fieldN_lt (w lo n : Nat) : fieldN w lo n < 2 ^ n := Nat.mod_lt _ (Nat.two_pow_pos n)

/-- A value that fits its field is what the field holds. -/
theorem fieldN_of_lt {v : Nat} (h : v < 2 ^ n) : fieldN v 0 n = v := by rw [fieldN, pow_zero, Nat.div_one, Nat.mod_eq_of_lt h]

theorem fieldN_eq_zero {v k : Nat} (h : v < 2 ^ k) (hk : k ≤ lo) : fieldN v lo n = 0 := by
  rw [fieldN, Nat.div_eq_of_lt (lt_of_lt_of_le h (Nat.pow_le_pow_right Nat.two_pos hk)), Nat.zero_mod]

/-- A field above the low `k` bits. -/
theorem fieldN_above {v k : Nat} (hv : v < 2 ^ k) (hk : k ≤ lo) (r n : Nat) : fieldN (v + 2 ^ k * r) lo n = fieldN r (lo - k) n := by
  obtain ⟨j, rfl⟩ := Nat.exists_eq_add_of_le hk
  rw [fieldN, fieldN, pow_add, ← Nat.div_div_eq_div_mul, Nat.add_mul_div_left _ _ (Nat.two_pow_pos k), Nat.div_eq_of_lt hv, Nat.zero_add,
    Nat.add_sub_cancel_left]

/-- A field within the low `k` bits. -/
theorem fieldN_within {k : Nat} (hk : lo + n ≤ k) (v r : Nat) : fieldN (v + 2 ^ k * r) lo n = fieldN v lo n := by
  obtain ⟨j, rfl⟩ := Nat.exists_eq_add_of_le hk
  have hsplit : v + 2 ^ (lo + n + j) * r = v + 2 ^ lo * (2 ^ n * (2 ^ j * r)) := by ring
  rw [fieldN, fieldN, hsplit, Nat.add_mul_div_left _ _ (Nat.two_pow_pos lo), Nat.add_mul_mod_self_left]

/-- What stands above a place is the field there and what stands above the field. -/
theorem div_eq_fieldN_add (w lo n : Nat) : w / 2 ^ lo = fieldN w lo n + 2 ^ n * (w / 2 ^ (lo + n)) := by
  rw [fieldN, pow_add, ← Nat.div_div_eq_div_mul, Nat.mod_add_div]

/-- Two fields side by side are one field. -/
theorem fieldN_append (w lo n k : Nat) : fieldN w lo (n + k) = fieldN w lo n + 2 ^ n * fieldN w (lo + n) k := by
  simp only [fieldN, pow_add, Nat.mod_mul, Nat.div_div_eq_div_mul]

/-- A field whose upper bits are 0 is the field of its lower bits. -/
theorem fieldN_of_upper_zero (w lo n k : Nat) (h : fieldN w (lo + n) k = 0) : fieldN w lo (n + k) = fieldN w lo n := by
  rw [fieldN_append, h, Nat.mul_zero, Nat.add_zero]

/-- The low bits of a field. -/
theorem fieldN_mod (w lo n k : Nat) : fieldN w lo (n + k) % 2 ^ n = fieldN w lo n := by
  rw [fieldN_append, Nat.add_mul_mod_self_left, Nat.mod_eq_of_lt (fieldN_lt w lo n)]

theorem fieldN_eq_three (h0 : fieldN w lo 2 ≠ 0) (h1 : fieldN w lo 2 ≠ 1) (h2 : fieldN w lo 2 ≠ 2) : fieldN w lo 2 = 3 := by
  have hlt := fieldN_lt w lo 2
  omega

end

/-! ### Values that fit a field -/

/-- A value of at most `n` bits. -/
def FitsIn (v n : Nat) : Prop := v < 2 ^ n

section
variable {k n : Nat} (x : BitVec k) (r : BitVec 5) (d : Option (BitVec 5)) (b : Bool)

theorem fitsIn_of_le {v : Nat} (hv : FitsIn v k) (h : k ≤ n) : FitsIn v n := lt_of_lt_of_le hv (Nat.pow_le_pow_right Nat.two_pos h)

theorem fitsIn_one_b2n : FitsIn (b2n b) 1 := Nat.lt_succ_of_le (b2n_le b)

@[simp] theorem fitsIn_zero (n : Nat) : FitsIn 0 n := Nat.two_pow_pos n
@[simp] theorem fitsIn_one (h : 1 ≤ n) : FitsIn 1 n := fitsIn_of_le (k := 1) Nat.one_lt_two h
@[simp] theorem fitsIn_two (h : 2 ≤ n) : FitsIn 2 n := fitsIn_of_le (k := 2) (by decide : 2 < 4) h
@[simp] theorem fitsIn_toNat (h : k ≤ n) : FitsIn x.toNat n := fitsIn_of_le x.isLt h
@[simp] theorem fitsIn_u7 : FitsIn (u7 r) 7 := u7_lt r
@[simp] theorem fitsIn_ou7 : FitsIn (ou7 d) 7 := ou7_lt d
@[simp] theorem fitsIn_b2n (h : 1 ≤ n) : FitsIn (b2n b) n := fitsIn_of_le (fitsIn_one_b2n b) h

@[simp] theorem fieldN_zero (lo n : Nat) : fieldN 0 lo n = 0 := by rw [fieldN, Nat.zero_div, Nat.zero_mod]
@[simp] theorem fieldN_toNat : fieldN x.toNat 0 k = x.toNat := fieldN_of_lt x.isLt
@[simp] theorem fieldN_toNat_above {lo : Nat} (h : k ≤ lo) : fieldN x.toNat lo n = 0 := fieldN_eq_zero x.isLt h
@[simp] theorem fieldN_u7 : fieldN (u7 r) 0 7 = u7 r := fieldN_of_lt (u7_lt r)
@[simp] theorem fieldN_ou7 : fieldN (ou7 d) 0 7 = ou7 d := fieldN_of_lt (ou7_lt d)
@[simp] theorem fieldN_b2n (h : 1 ≤ n) : fieldN (b2n b) 0 n = b2n b := fieldN_of_lt (fitsIn_b2n b h)
@[simp] theorem fieldN_b2n_above {lo : Nat} (h : 1 ≤ lo) : fieldN (b2n b) lo n = 0 := fieldN_eq_zero (fitsIn_one_b2n b) h

end

/-! ### Uniform registers in a field -/

/-- The uniform register that a field of value `v` names. -/
def uniOf (v : Nat) : Option (BitVec 5) := if 96 ≤ v then some (BitVec.ofNat 5 (v - 96)) else none

/-- The register that a field of value `v` names where 0 stands for none. -/
def optUniOf (v : Nat) : Option (Option (BitVec 5)) := if v = 0 then some none else (uniOf v).map some

theorem uniField_eq (w lo : Nat) : uniField w lo = uniOf (fieldN w lo 7) := rfl
theorem optUniField_eq (w lo : Nat) : optUniField w lo = optUniOf (fieldN w lo 7) := rfl

@[simp] theorem uniOf_u7 (r : BitVec 5) : uniOf (u7 r) = some r := by simp [uniOf, u7]
@[simp] theorem optUniOf_ou7 (d : Option (BitVec 5)) : optUniOf (ou7 d) = some d := by cases d <;> simp [optUniOf, ou7, uniOf, u7]

theorem uniField_eq_some {w lo : Nat} {r : BitVec 5} (h : uniField w lo = some r) : fieldN w lo 7 = u7 r := by
  have hlt := fieldN_lt w lo 7
  unfold uniField at h
  split at h
  · cases h; rw [u7, BitVec.toNat_ofNat]; omega
  · cases h

theorem optUniField_eq_some {w lo : Nat} {d : Option (BitVec 5)} (h : optUniField w lo = some d) : fieldN w lo 7 = ou7 d := by
  unfold optUniField at h
  split at h
  case isTrue hz => cases h; exact hz
  case isFalse =>
    obtain ⟨r, hr, rfl⟩ := Option.map_eq_some_iff.1 h
    exact uniField_eq_some hr

/-! ### The fields of the frames -/

section
variable {M : Nat} (hM : M < 64)
include hM

section
variable (f : Nat) (o : A3)

@[simp] theorem rdA3_encA : rdA3 (encA M f o) = o := by
  obtain ⟨lb, la, b, a, d⟩ := o
  have hla := b2n_le la
  have hlb := b2n_le lb
  simp only [rdA3, A3.mk.injEq, bitAt_eq_iff, bits_eq_iff, encA, fieldN]
  refine ⟨?_, ?_, ?_, ?_, ?_⟩ <;> omega

@[simp] theorem major_encA : fieldN (encA M f o) 1 6 = M := by rw [encA, fieldN]; omega

@[simp] theorem f_encA (hf : f < 4) : fieldN (encA M f o) 30 2 = f := by
  have hla := b2n_le o.la
  have hlb := b2n_le o.lb
  rw [encA, fieldN]; omega

end

section
variable {f b : Nat} (hb : b < 128) (o : A2)

@[simp] theorem major_encAb : fieldN (encAb M f b o) 1 6 = M := by rw [encAb, fieldN]; omega

include hb

@[simp] theorem rdA2_encAb : rdA2 (encAb M f b o) = o := by
  obtain ⟨la, a, d⟩ := o
  have hla := b2n_le la
  simp only [rdA2, A2.mk.injEq, bitAt_eq_iff, bits_eq_iff, encAb, fieldN]
  refine ⟨?_, ?_, ?_⟩ <;> omega

omit hb in
@[simp] theorem b_encAb {lo n : Nat} (hlo : 21 ≤ lo) (hn : lo + n ≤ 28) : fieldN (encAb M f b o) lo n = fieldN b (lo - 21) n := by
  have hsplit : encAb M f b o = (o.a.toNat * 2 ^ 14 + o.d.toNat * 2 ^ 7 + M * 2 + 1) + 2 ^ 21 * (b + 2 ^ 7 * (f * 4 + b2n o.la)) := by
    rw [encAb]; ring
  rw [hsplit, fieldN_above (by omega) hlo, fieldN_within (by omega)]

@[simp] theorem lb_encAb : fieldN (encAb M f b o) 29 1 = 0 := by
  have hla := b2n_le o.la
  rw [encAb, fieldN]; omega

@[simp] theorem f_encAb (hf : f < 4) : fieldN (encAb M f b o) 30 2 = f := by
  have hla := b2n_le o.la
  rw [encAb, fieldN]; omega

end

@[simp] theorem rdCmp_encCmp (o : CmpOps) : rdCmp (encCmp M o) = o := by
  obtain ⟨f, cond, k, lb, la, b, a⟩ := o
  have hla := b2n_le la
  have hlb := b2n_le lb
  simp only [rdCmp, CmpOps.mk.injEq, bitAt_eq_iff, bits_eq_iff, encCmp, encA, fieldN, BitVec.toNat_ofNat]
  refine ⟨?_, ?_, ?_, ?_, ?_, ?_, ?_⟩ <;> omega

@[simp] theorem major_encCmp (o : CmpOps) : fieldN (encCmp M o) 1 6 = M := major_encA hM _ _

@[simp] theorem rdI2_encI (imm : Nat) (o : A2) : rdI2 (encI M imm o) = o := by
  obtain ⟨la, a, d⟩ := o
  have hla := b2n_le la
  simp only [rdI2, A2.mk.injEq, bitAt_eq_iff, bits_eq_iff, encI, fieldN]
  refine ⟨?_, ?_, ?_⟩ <;> omega

@[simp] theorem major_encI (imm : Nat) (o : A2) : fieldN (encI M imm o) 1 6 = M := by rw [encI, fieldN]; omega

@[simp] theorem imm_encI (imm : Nat) (o : A2) {lo : Nat} (hlo : 22 ≤ lo) (n : Nat) :
    fieldN (encI M imm o) lo n = fieldN imm (lo - 22) n := by
  have hla := b2n_le o.la
  have hsplit : encI M imm o = (b2n o.la * 2 ^ 21 + o.a.toNat * 2 ^ 14 + o.d.toNat * 2 ^ 7 + M * 2 + 1) + 2 ^ 22 * imm := by rw [encI]; ring
  rw [hsplit, fieldN_above (by omega) hlo]

@[simp] theorem major_encWB (imm c : Nat) : fieldN (encWB M imm c) 1 6 = M := by rw [encWB, fieldN]; omega

@[simp] theorem c_encWB (imm c : Nat) {lo n : Nat} (hlo : 7 ≤ lo) (hn : lo + n ≤ 14) :
    fieldN (encWB M imm c) lo n = fieldN c (lo - 7) n := by
  have hsplit : encWB M imm c = (M * 2 + 1) + 2 ^ 7 * (c + 2 ^ 7 * imm) := by rw [encWB]; ring
  rw [hsplit, fieldN_above (by omega) hlo, fieldN_within (by omega)]

@[simp] theorem imm_encWB (imm : Nat) {c : Nat} (hc : c < 128) {lo : Nat} (hlo : 14 ≤ lo) (n : Nat) :
    fieldN (encWB M imm c) lo n = fieldN imm (lo - 14) n := by
  have hsplit : encWB M imm c = (M * 2 + 1 + c * 2 ^ 7) + 2 ^ 14 * imm := by rw [encWB]; ring
  rw [hsplit, fieldN_above (by omega) hlo]

@[simp] theorem rdMem_encM (o : MemOps) : rdMem (encM M o) = o := by
  obtain ⟨hint, lx, sz, x, base, d⟩ := o
  have hlx := b2n_le lx
  simp only [rdMem, MemOps.mk.injEq, bitAt_eq_iff, bits_eq_iff, encM, fieldN]
  refine ⟨?_, ?_, ?_, ?_, ?_, ?_⟩ <;> omega

@[simp] theorem major_encM (o : MemOps) : fieldN (encM M o) 1 6 = M := by rw [encM, fieldN]; omega

/-! ### The fields of the O form -/

section
variable {m e a d lo n : Nat}

omit hM in
theorem encO_eq (M m e a d : Nat) : encO M m e a d = (M * 2 + 1) + 2 ^ 7 * (d + 2 ^ 7 * (a + 2 ^ 7 * (e + 2 ^ 5 * m))) := by rw [encO]; ring

@[simp] theorem major_encO : fieldN (encO M m e a d) 1 6 = M := by
  rw [encO_eq, fieldN_within (by decide), fieldN]; omega

@[simp] theorem d_encO (hlo : 7 ≤ lo) (hn : lo + n ≤ 14) : fieldN (encO M m e a d) lo n = fieldN d (lo - 7) n := by
  rw [encO_eq, fieldN_above (by omega) hlo, fieldN_within (by omega)]

@[simp] theorem a_encO (hd : FitsIn d 7) (hlo : 14 ≤ lo) (hn : lo + n ≤ 21) : fieldN (encO M m e a d) lo n = fieldN a (lo - 14) n := by
  rw [encO_eq, fieldN_above (by omega) (by omega), fieldN_above hd (by omega), fieldN_within (by omega), Nat.sub_sub]

@[simp] theorem e_encO (ha : FitsIn a 7) (hd : FitsIn d 7) (hlo : 21 ≤ lo) (hn : lo + n ≤ 26) :
    fieldN (encO M m e a d) lo n = fieldN e (lo - 21) n := by
  rw [encO_eq, fieldN_above (by omega) (by omega), fieldN_above hd (by omega), fieldN_above ha (by omega), fieldN_within (by omega),
    Nat.sub_sub, Nat.sub_sub]

@[simp] theorem minor_encO_above (he : FitsIn e 5) (ha : FitsIn a 7) (hd : FitsIn d 7) (hlo : 26 ≤ lo) (n : Nat) :
    fieldN (encO M m e a d) lo n = fieldN m (lo - 26) n := by
  rw [encO_eq, fieldN_above (by omega) (by omega), fieldN_above hd (by omega), fieldN_above ha (by omega), fieldN_above he (by omega),
    Nat.sub_sub, Nat.sub_sub, Nat.sub_sub]

theorem minor_encO (he : FitsIn e 5) (ha : FitsIn a 7) (hd : FitsIn d 7) (hm : m < 64) : fieldN (encO M m e a d) 26 6 = m :=
  (minor_encO_above hM he ha hd le_rfl 6).trans (fieldN_of_lt hm)

theorem fits_encO_of_fitsIn (hm : m < 64) (he : FitsIn e 5) (ha : FitsIn a 7) (hd : FitsIn d 7) : Fits 32 (encO M m e a d) :=
  fits_encO hM hm he ha hd

end
end

/-! ### The fields of the H form -/

section
variable {op : Nat} (b d : BitVec 5)

theorem encH_mod_four : encH op b d % 4 = 0 := by rw [encH]; omega
theorem b_encH (hop : op < 16) : bits (encH op b d) 11 5 = b := by rw [bits_eq_iff, encH, fieldN]; omega
theorem d_encH (hop : op < 16) : bits (encH op b d) 6 5 = d := by rw [bits_eq_iff, encH, fieldN]; omega
theorem op_encH (hop : op < 16) : fieldN (encH op b d) 2 4 = op := by rw [encH, fieldN]; omega

end

/-! ### Words from their fields -/

/-- A 32-bit word with bit 0 set, as R64 has the length. -/
structure IsWord (w : Nat) : Prop where
  lt : w < 2 ^ 32
  odd : w % 2 = 1

section
variable {w M f : Nat} (hw : IsWord w) (hM : fieldN w 1 6 = M)
include hw hM

theorem encA_of_fields (hf : fieldN w 30 2 = f) : encA M f (rdA3 w) = w := by
  obtain ⟨hlt, hodd⟩ := hw
  have h1 := div_eq_fieldN_add w 1 6
  have h7 := div_eq_fieldN_add w 7 7
  have h14 := div_eq_fieldN_add w 14 7
  have h21 := div_eq_fieldN_add w 21 7
  have h28 := div_eq_fieldN_add w 28 1
  have h29 := div_eq_fieldN_add w 29 1
  have h30 := div_eq_fieldN_add w 30 2
  simp only [encA, rdA3, toNat_bits, b2n_bitAt, ← hM, ← hf]
  omega

theorem encCmp_of_fields : encCmp M (rdCmp w) = w := by
  have hd : (rdCmp w).cond.toNat * 8 + (rdCmp w).k.toNat = fieldN w 7 7 := by
    have hsplit : fieldN w 7 7 = fieldN w 7 3 + 8 * fieldN w 10 4 := fieldN_append w 7 3 4
    simp only [rdCmp, toNat_bits]; omega
  have hword := encA_of_fields hw hM rfl
  rw [encCmp, hd, ← bits_eq_ofNat]
  simp only [rdCmp, toNat_bits]
  exact hword

theorem encAb_of_fields {b : Nat} (hf : fieldN w 30 2 = f) (hb : fieldN w 21 7 = b) (hlb : fieldN w 29 1 = 0) :
    encAb M f b (rdA2 w) = w := by
  have hword := encA_of_fields hw hM hf
  simp only [encA, rdA3, toNat_bits, b2n_bitAt, hlb, hb, Nat.zero_mul, Nat.add_zero] at hword
  simp only [encAb, rdA2, toNat_bits, b2n_bitAt]
  exact hword

theorem encI_of_fields {imm : Nat} (himm : fieldN w 22 10 = imm) : encI M imm (rdI2 w) = w := by
  obtain ⟨hlt, hodd⟩ := hw
  have h1 := div_eq_fieldN_add w 1 6
  have h7 := div_eq_fieldN_add w 7 7
  have h14 := div_eq_fieldN_add w 14 7
  have h21 := div_eq_fieldN_add w 21 1
  have h22 := div_eq_fieldN_add w 22 10
  simp only [encI, rdI2, toNat_bits, b2n_bitAt, ← hM, ← himm]
  omega

theorem encWB_of_fields {imm c : Nat} (himm : fieldN w 14 18 = imm) (hc : fieldN w 7 7 = c) : encWB M imm c = w := by
  obtain ⟨hlt, hodd⟩ := hw
  have h1 := div_eq_fieldN_add w 1 6
  have h7 := div_eq_fieldN_add w 7 7
  have h14 := div_eq_fieldN_add w 14 18
  rw [encWB, ← hM, ← himm, ← hc]
  omega

theorem encM_of_fields : encM M (rdMem w) = w := by
  obtain ⟨hlt, hodd⟩ := hw
  have h1 := div_eq_fieldN_add w 1 6
  have h7 := div_eq_fieldN_add w 7 7
  have h14 := div_eq_fieldN_add w 14 5
  have h19 := div_eq_fieldN_add w 19 7
  have h26 := div_eq_fieldN_add w 26 3
  have h29 := div_eq_fieldN_add w 29 1
  have h30 := div_eq_fieldN_add w 30 2
  simp only [encM, rdMem, toNat_bits, b2n_bitAt, ← hM]
  omega

theorem encO_of_fields {m e a d : Nat} (hm : fieldN w 26 6 = m) (he : fieldN w 21 5 = e) (ha : fieldN w 14 7 = a)
    (hd : fieldN w 7 7 = d) : encO M m e a d = w := by
  obtain ⟨hlt, hodd⟩ := hw
  have h1 := div_eq_fieldN_add w 1 6
  have h7 := div_eq_fieldN_add w 7 7
  have h14 := div_eq_fieldN_add w 14 7
  have h21 := div_eq_fieldN_add w 21 5
  have h26 := div_eq_fieldN_add w 26 6
  rw [encO, ← hM, ← hm, ← he, ← ha, ← hd]
  omega

end

theorem encH_of_fields {h op : Nat} (hlt : h < 2 ^ 16) (hform : h % 4 = 0) (hop : fieldN h 2 4 = op) :
    encH op (bits h 11 5) (bits h 6 5) = h := by
  have h2 := div_eq_fieldN_add h 2 4
  have h6 := div_eq_fieldN_add h 6 5
  have h11 := div_eq_fieldN_add h 11 5
  rw [encH, toNat_bits, toNat_bits, ← hop]
  omega

/-! ### The reader of a major opcode -/

section
variable {w : Nat}

theorem rdWord_maux (h : fieldN w 1 6 = 0x2D) : rdWord w = rdMaux w := by simp [rdWord, rdHigh, h]
theorem rdWord_tdesc (h : fieldN w 1 6 = 0x2E) : rdWord w = rdTdesc w := by simp [rdWord, rdHigh, h]
theorem rdWord_draw (h : fieldN w 1 6 = 0x2F) : rdWord w = rdDraw w := by simp [rdWord, rdHigh, h]
theorem rdWord_order (h : fieldN w 1 6 = 0x37) : rdWord w = rdOrder w := by simp [rdWord, rdHigh, h]
theorem rdWord_engine (h : fieldN w 1 6 = 0x38) : rdWord w = rdEngine w := by simp [rdWord, rdHigh, h]
theorem rdWord_barrier (h : fieldN w 1 6 = 0x3C) : rdWord w = rdBarrier w := by simp [rdWord, rdHigh, h]
theorem rdWord_task (h : fieldN w 1 6 = 0x3D) : rdWord w = rdTask w := by simp [rdWord, rdHigh, h]
theorem rdWord_flow (h : fieldN w 1 6 = 0x3E) : rdWord w = rdFlow w := by simp [rdWord, rdHigh, h]
theorem rdWord_sys (h : fieldN w 1 6 = 0x3F) : rdWord w = rdSys w := by simp [rdWord, rdHigh, h]

end

section
variable (m e a d : Nat)

theorem rdWord_encO_maux : rdWord (encO 0x2D m e a d) = rdMaux (encO 0x2D m e a d) := rdWord_maux (major_encO (by decide))
theorem rdWord_encO_tdesc : rdWord (encO 0x2E m e a d) = rdTdesc (encO 0x2E m e a d) := rdWord_tdesc (major_encO (by decide))
theorem rdWord_encO_draw : rdWord (encO 0x2F m e a d) = rdDraw (encO 0x2F m e a d) := rdWord_draw (major_encO (by decide))
theorem rdWord_encO_order : rdWord (encO 0x37 m e a d) = rdOrder (encO 0x37 m e a d) := rdWord_order (major_encO (by decide))
theorem rdWord_encO_engine : rdWord (encO 0x38 m e a d) = rdEngine (encO 0x38 m e a d) := rdWord_engine (major_encO (by decide))
theorem rdWord_encO_barrier : rdWord (encO 0x3C m e a d) = rdBarrier (encO 0x3C m e a d) := rdWord_barrier (major_encO (by decide))
theorem rdWord_encO_task : rdWord (encO 0x3D m e a d) = rdTask (encO 0x3D m e a d) := rdWord_task (major_encO (by decide))
theorem rdWord_encO_flow : rdWord (encO 0x3E m e a d) = rdFlow (encO 0x3E m e a d) := rdWord_flow (major_encO (by decide))
theorem rdWord_encO_sys : rdWord (encO 0x3F m e a d) = rdSys (encO 0x3F m e a d) := rdWord_sys (major_encO (by decide))

end

@[simp] theorem only_true (i : Instr) : only true i = some i := rfl
@[simp] theorem only_false (i : Instr) : only false i = none := rfl

end Sys2Proof
end

section
/-! PROOFS. The words of instructions read back: every encoding is a halfword or a word of R64, and reads as its instruction. -/

namespace Sys2Proof

open Sys2Proof.Claim

/-- The term that `n` bits read as, before the checks of WellFormed. -/
def readBits (n w : Nat) : Option Instr := if n = 16 then rdHalf w else rdWord w

theorem readBits_word (w : Nat) : readBits 32 w = rdWord w := if_neg (by decide)
theorem readBits_half (h : Nat) : readBits 16 h = rdHalf h := if_pos rfl

theorem pair_eq {n x m y : Nat} (h : some (n, x) = some (m, y)) : n = m ∧ x = y := by simpa using h

/-- The word of MLOOP (R215) reads as MLOOP. -/
theorem read_mloop (m z : Bool) (cnt : BitVec 5) (tB tA : BitVec 4) (acc : BitVec 6) {w : Nat}
    (hword : b2n m * 2 ^ 29 + b2n z * 2 ^ 28 + cnt.toNat * 2 ^ 22 + tB.toNat * 2 ^ 18 + tA.toNat * 2 ^ 14 + acc.toNat * 2 ^ 7
      + 0x2C * 2 + 1 = w) : rdWord w = some (.mloop m z cnt tB tA acc) := by
  have hbm := b2n_le m
  have hbz := b2n_le z
  have hM : fieldN w 1 6 = 0x2C := by rw [fieldN]; omega
  have hacc : bits w 7 6 = acc := by rw [bits_eq_iff, fieldN]; omega
  have h13 : bitAt w 13 = false := by rw [bitAt_eq_false, fieldN]; omega
  have htA : bits w 14 4 = tA := by rw [bits_eq_iff, fieldN]; omega
  have htB : bits w 18 4 = tB := by rw [bits_eq_iff, fieldN]; omega
  have hcnt : bits w 22 5 = cnt := by rw [bits_eq_iff, fieldN]; omega
  have h27 : bitAt w 27 = false := by rw [bitAt_eq_false, fieldN]; omega
  have hz : bitAt w 28 = z := by rw [bitAt_eq_iff, fieldN]; omega
  have hm : bitAt w 29 = m := by rw [bitAt_eq_iff, fieldN]; omega
  have h30 : fieldN w 30 2 = 0 := by rw [fieldN]; omega
  simp [rdWord, rdHigh, hM, hacc, h13, htA, htB, hcnt, h27, hz, hm, h30]

/-- The word of VOTE (R181) reads as VOTE. -/
theorem read_vote (f : BitVec 2) (k : BitVec 3) (d : BitVec 7) {w : Nat}
    (hword : f.toNat * 2 ^ 30 + k.toNat * 2 ^ 14 + d.toNat * 2 ^ 7 + 0x1F * 2 + 1 = w) : rdWord w = some (.vote f k d) := by
  have hM : fieldN w 1 6 = 0x1F := by rw [fieldN]; omega
  have hd : bits w 7 7 = d := by rw [bits_eq_iff, fieldN]; omega
  have hk : bits w 14 3 = k := by rw [bits_eq_iff, fieldN]; omega
  have h17 : fieldN w 17 4 = 0 := by rw [fieldN]; omega
  have h21 : fieldN w 21 7 = 0 := by rw [fieldN]; omega
  have h28 : fieldN w 28 2 = 0 := by rw [fieldN]; omega
  have hf : fF w = f := by rw [fF, bits_eq_iff, fieldN]; omega
  simp [rdWord, rdFlowLane, hM, hd, hk, h17, h21, h28, hf]

/-- The two parts of the immediate of LOGICI and SHIFTI (Table 3.6). -/
theorem imm_encI_parts {M f v s : Nat} (hM : M < 64) (hv : v < 256) (hs : s = f * 256 + v) (hf : f < 4) (o : A2) :
    fieldN (encI M s o) 30 2 = f ∧ ∀ lo n, 22 ≤ lo → lo + n ≤ 30 → fieldN (encI M s o) lo n = fieldN v (lo - 22) n := by
  obtain rfl : s = v + 2 ^ 8 * f := by omega
  refine ⟨?_, fun lo n hlo hn => ?_⟩
  · rw [imm_encI hM _ _ (by decide), fieldN_above hv (by decide), fieldN_of_lt hf]
  · rw [imm_encI hM _ _ hlo, fieldN_within (by omega)]

theorem read_logici {f s : Nat} (imm : BitVec 8) (hs : s = f * 256 + imm.toNat) (hf : f < 4) (o : A2) :
    rdWord (encI 0x0D s o) = rdLogici (encI 0x0D s o) ∧ fieldN (encI 0x0D s o) 30 2 = f ∧ bits (encI 0x0D s o) 22 8 = imm := by
  obtain ⟨hsel, hlow⟩ := imm_encI_parts (by decide : 0x0D < 64) imm.isLt hs hf o
  exact ⟨by simp [rdWord, rdInt], hsel, by simp [bits_eq_iff, hlow]⟩

theorem read_shifti {f s : Nat} (n : BitVec 5) (hs : s = f * 256 + n.toNat) (hf : f < 4) (o : A2) :
    rdWord (encI 0x0E s o) = rdShifti (encI 0x0E s o) ∧ fieldN (encI 0x0E s o) 30 2 = f ∧ fieldN (encI 0x0E s o) 27 3 = 0 ∧
      bits (encI 0x0E s o) 22 5 = n := by
  obtain ⟨hsel, hlow⟩ := imm_encI_parts (by decide : 0x0E < 64) (by omega) hs hf o
  exact ⟨by simp [rdWord, rdInt], hsel, by simp [hlow], by simp [bits_eq_iff, hlow]⟩

/-- The minors 0 to 11 of ORDER hold a scope in their low bits (Table 3.7). -/
theorem read_phase {m c : Nat} (sc : BitVec 2) (hm : m = 4 * c + sc.toNat) (hc : c < 3) :
    rdWord (encO 0x37 m 0 0 0) = some (if m < 4 then .phaseP sc else if m < 8 then .phaseR sc else .phase sc) := by
  have hmin : fieldN (encO 0x37 m 0 0 0) 26 6 = m := minor_encO (by decide) (by simp) (by simp) (by simp) (by omega)
  have hs : bits (encO 0x37 m 0 0 0) 26 2 = sc := by
    rw [bits_eq_iff, minor_encO_above (by decide) (by simp) (by simp) (by simp) (by decide), fieldN]; omega
  have h12 : m < 12 := by omega
  rw [rdWord_encO_order]
  simp only [rdOrder, hmin, hs, h12]
  split <;> [skip; split] <;> simp [dZero, aZero, eZero]

/-- The word of an access with an operation in its minor, whose register fields are whole (Table 3.4, O form). -/
theorem regs_encO {M m : Nat} (hM : M < 64) (e : BitVec 5) (x d : BitVec 7) :
    eReg (encO M m e.toNat x.toNat d.toNat) = e ∧ bits (encO M m e.toNat x.toNat d.toNat) 14 7 = x ∧
      bits (encO M m e.toNat x.toNat d.toNat) 7 7 = d := by
  refine ⟨bits_eq_iff.2 ?_, bits_eq_iff.2 ?_, bits_eq_iff.2 ?_⟩
  · rw [e_encO hM (by simp) (by simp) le_rfl le_rfl]; exact fieldN_toNat e
  · rw [a_encO hM (by simp) le_rfl le_rfl]; exact fieldN_toNat x
  · rw [d_encO hM le_rfl le_rfl]; exact fieldN_toNat d

theorem minor_regs_encO {M : Nat} (hM : M < 64) (m : Nat) (e : BitVec 5) (x d : BitVec 7) {lo : Nat} (hlo : 26 ≤ lo) (n : Nat) :
    fieldN (encO M m e.toNat x.toNat d.toNat) lo n = fieldN m (lo - 26) n :=
  minor_encO_above hM (by simp) (by simp) (by simp) hlo n

/-- The word of LDV.M and STV.M, which bit 31 tells apart (Table 3.5), reads as its instruction. -/
theorem read_rows {m : Nat} (st : Bool) (op : BitVec 4) (e : BitVec 5) (x d : BitVec 7) (hm : m = b2n st * 32 + op.toNat) :
    rdWord (encO 0x36 m e.toNat x.toNat d.toNat) = some (if st then .stvM op e x d else .ldvM op e x d) := by
  have hst := b2n_le st
  obtain ⟨he, hx, hd⟩ := regs_encO (by decide : 0x36 < 64) (m := m) e x d
  have hminor := fun lo => minor_regs_encO (by decide : 0x36 < 64) m e x d (lo := lo)
  have hop : bits (encO 0x36 m e.toNat x.toNat d.toNat) 26 4 = op := by rw [bits_eq_iff, hminor _ (by decide), fieldN]; omega
  have h30 : bitAt (encO 0x36 m e.toNat x.toNat d.toNat) 30 = false := by rw [bitAt_eq_false, hminor _ (by decide), fieldN]; omega
  have h31 : bitAt (encO 0x36 m e.toNat x.toNat d.toNat) 31 = st := by rw [bitAt_eq_iff, hminor _ (by decide), fieldN]; omega
  simp [rdWord, rdHigh, he, hx, hd, hop, h30, h31]

/-- An encoding is a halfword or a word of R64, and reads as its instruction. -/
theorem read_of_encode {i : Instr} {n w : Nat} (h : encode i = some (n, w)) : Fits n w ∧ readBits n w = some (sameWord i) := by
  cases i with
  | add f o | sub f o | mul f o | min f o | max f o | sel f o | lea f o | idot4 f o | idot4s f o | idot8 f o | idot8s f o | lshf f o
  | lred f o | lscan f o | fdot f o | pack f o | unpack f o | fscale f o =>
    obtain ⟨rfl, rfl⟩ := pair_eq h
    refine ⟨fits_encA (by decide) (by omega), ?_⟩
    simp (disch := omega) [readBits_word, rdWord, rdInt, rdFlowLane, rdFloat, sameWord, fF, bits_eq_ofNat]
  | mad o | land o | lor o | lxor o | landn o | shl o | shr o | sar o | rot o | bfeN o | bfeS o | bfi o | fadd o | fsub o | fmul o
  | ffma o | ffms o | fnma o | fmin o | fmax o =>
    obtain ⟨rfl, rfl⟩ := pair_eq h
    refine ⟨fits_encA (by decide) (by decide), ?_⟩
    simp [readBits_word, rdWord, rdInt, rdFloat, sameWord]
  | popc o | clz o | brev o | ffs o =>
    obtain ⟨rfl, rfl⟩ := pair_eq h
    refine ⟨fits_encAb (by decide) (by decide) (by decide), ?_⟩
    simp [readBits_word, rdWord, rdInt, sameWord, bitAt_eq]
  | cvti f o | frnd f o | fspec f o | cvtf f c o =>
    obtain ⟨rfl, rfl⟩ := pair_eq h
    refine ⟨fits_encAb (by decide) (by omega) (by omega), ?_⟩
    simp (disch := omega) [readBits_word, rdWord, rdInt, rdFloat, sameWord, fF, bits_eq_ofNat, bitAt_eq]
  | cmp o | fcmp o =>
    obtain ⟨rfl, rfl⟩ := pair_eq h
    refine ⟨fits_encCmp (by decide), ?_⟩
    simp [readBits_word, rdWord, rdInt, rdFloat, sameWord]
  | addi imm o | andi imm o | shli imm o =>
    obtain ⟨rfl, rfl⟩ := pair_eq h
    refine ⟨fits_encI (by decide) (by omega), ?_⟩
    simp [readBits_word, rdWord, rdInt, rdLogici, rdShifti, sameWord, bits_eq_ofNat]
  | ori imm o =>
    obtain ⟨rfl, rfl⟩ := pair_eq h
    obtain ⟨hread, hf, himm⟩ := read_logici (f := 1) imm rfl (by decide) o
    exact ⟨fits_encI (by decide) (by omega), by rw [readBits_word, hread]; simp [rdLogici, hf, himm, sameWord]⟩
  | xori imm o =>
    obtain ⟨rfl, rfl⟩ := pair_eq h
    obtain ⟨hread, hf, himm⟩ := read_logici (f := 2) imm rfl (by decide) o
    exact ⟨fits_encI (by decide) (by omega), by rw [readBits_word, hread]; simp [rdLogici, hf, himm, sameWord]⟩
  | andni imm o =>
    obtain ⟨rfl, rfl⟩ := pair_eq h
    obtain ⟨hread, hf, himm⟩ := read_logici (f := 3) imm rfl (by decide) o
    exact ⟨fits_encI (by decide) (by omega), by rw [readBits_word, hread]; simp [rdLogici, hf, himm, sameWord]⟩
  | shri n o =>
    obtain ⟨rfl, rfl⟩ := pair_eq h
    obtain ⟨hread, hf, hz, hn⟩ := read_shifti (f := 1) n rfl (by decide) o
    exact ⟨fits_encI (by decide) (by omega), by rw [readBits_word, hread]; simp [rdShifti, hf, hz, hn, sameWord]⟩
  | sari n o =>
    obtain ⟨rfl, rfl⟩ := pair_eq h
    obtain ⟨hread, hf, hz, hn⟩ := read_shifti (f := 2) n rfl (by decide) o
    exact ⟨fits_encI (by decide) (by omega), by rw [readBits_word, hread]; simp [rdShifti, hf, hz, hn, sameWord]⟩
  | roti n o =>
    obtain ⟨rfl, rfl⟩ := pair_eq h
    obtain ⟨hread, hf, hz, hn⟩ := read_shifti (f := 3) n rfl (by decide) o
    exact ⟨fits_encI (by decide) (by omega), by rw [readBits_word, hread]; simp [rdShifti, hf, hz, hn, sameWord]⟩
  | movw imm d | movh imm d | movx imm d | br imm | call imm | brloop imm d =>
    obtain ⟨rfl, rfl⟩ := pair_eq h
    refine ⟨fits_encWB (by decide) (by omega) (by omega), ?_⟩
    simp (disch := omega) [readBits_word, rdWord, rdInt, rdFlowLane, sameWord, dZero, bits_eq_ofNat]
  | brc off sense k =>
    obtain ⟨rfl, rfl⟩ := pair_eq h
    have hsense := b2n_le sense
    have hs : bitAt (encWB 0x19 off.toNat (b2n sense * 8 + k.toNat)) 10 = sense := by
      rw [bitAt_eq_iff, c_encWB (by decide) _ _ (by decide) (by decide), fieldN]; omega
    have hk : bits (encWB 0x19 off.toNat (b2n sense * 8 + k.toNat)) 7 3 = k := by
      rw [bits_eq_iff, c_encWB (by decide) _ _ (by decide) (by decide), fieldN]; omega
    have hz : fieldN (encWB 0x19 off.toNat (b2n sense * 8 + k.toNat)) 11 3 = 0 := by
      rw [c_encWB (by decide) _ _ (by decide) (by decide), fieldN]; omega
    have hoff : bits (encWB 0x19 off.toNat (b2n sense * 8 + k.toNat)) 14 18 = off := by
      rw [bits_eq_iff, imm_encWB (by decide) _ (by omega) le_rfl]; exact fieldN_toNat off
    exact ⟨fits_encWB (by decide) (by omega) (by omega), by simp [readBits_word, rdWord, rdFlowLane, sameWord, hs, hk, hz, hoff]⟩
  | ld o | st o | lds o | sts o =>
    obtain ⟨rfl, rfl⟩ := pair_eq h
    refine ⟨fits_encM (by decide), ?_⟩
    simp [readBits_word, rdWord, rdHigh, sameWord]
  | mzero acc | mload acc t | mstore t acc | mread d acc e | mwrite acc e d | tset t f r | tget r t f | tclr t
  | drawcfg r | draw r acc e | deliver r t | drawseed r | waitm d e r | smap o g l | sunmap o | sflush o | prefetch b e x | fenceS
  | tcopy t g b | tstore t g b | tstoreA t g b | tmcast t r b | gather t g b | own t b | engineSub r b | subend r | slotdone r x
  | kvmove k p b
  | barSync b n | barArrive b n | barWait b | tbarInit r a | tbarExpect r a | tbarArrive d a | tbarWait d r a | tbarAck r a
  | joinArm d r a | joinArrive r c j | joinWait j | joinRead r c j | joinCancel j | killoff | killon
  | enq k q r | spawn k r | launch k q r | gpset g n r | gpget r g n | greplay k g
  | ovload r i | ovcall t n | ovjump t n | ret | ovpin t | ovunpin t | ovdrop t | ovquery r t
  | exit | trap c | rth | nret | yield | nop
  | srd d r | swr c r | reclaimTake r c l | reclaimGive r c l | resume b r h | tlbinv a r | pgquery r a d | pwrreq d r
  | ctxopQuery r c | ctxopSwout r c | ctxopSwin r c | halt =>
    obtain ⟨rfl, rfl⟩ := pair_eq h
    -- The major and the minor of the O form pick a line of its reader; then the line's fields read back.
    simp only [readBits_word, fits_encO_of_fitsIn, rdWord_encO_maux, rdWord_encO_tdesc, rdWord_encO_draw, rdWord_encO_order,
      rdWord_encO_engine, rdWord_encO_barrier, rdWord_encO_task, rdWord_encO_flow, rdWord_encO_sys, rdMaux, rdTdesc, rdDraw, rdOrder,
      rdEngine, rdBarrier, rdTask, rdFlow, rdSys, minor_encO, Nat.reduceLT, fitsIn_zero, fitsIn_one, fitsIn_two, fitsIn_toNat, fitsIn_u7,
      fitsIn_ou7, fitsIn_b2n, Nat.reduceLeDiff, le_refl, reduceIte, true_and]
    simp only [sameWord, uniField_eq, optUniField_eq, uniOf_u7, optUniOf_ou7, eZero, dZero, aZero, eReg, bits_eq_ofNat, bitAt_eq,
      d_encO, a_encO, e_encO, Nat.reduceLT, fitsIn_zero, fitsIn_one, fitsIn_two, fitsIn_toNat, fitsIn_u7, fitsIn_ou7, fitsIn_b2n,
      Nat.reduceAdd, Nat.reduceSub, Nat.reduceLeDiff, Nat.reducePow, le_refl,
      fieldN_zero, fieldN_of_lt, fieldN_toNat, fieldN_toNat_above, fieldN_u7,
      fieldN_ou7, fieldN_b2n, fieldN_b2n_above, b2n_beq_one, b2n_le, decide_true, Nat.reduceBEq, beq_self_eq_true, Bool.and_self,
      Bool.not_false, BitVec.ofNat_toNat, BitVec.setWidth_eq, only_true, Option.bind_some]
  | atom op sc e x d =>
    obtain ⟨rfl, rfl⟩ := pair_eq h
    obtain ⟨he, hx, hd⟩ := regs_encO (by decide : 0x34 < 64) (m := op.toNat * 4 + sc.toNat) e x d
    have hop : bits (encO 0x34 (op.toNat * 4 + sc.toNat) e.toNat x.toNat d.toNat) 28 4 = op := by
      rw [bits_eq_iff, minor_regs_encO (by decide) _ _ _ _ (by decide), fieldN]; omega
    have hsc : bits (encO 0x34 (op.toNat * 4 + sc.toNat) e.toNat x.toNat d.toNat) 26 2 = sc := by
      rw [bits_eq_iff, minor_regs_encO (by decide) _ _ _ _ (by decide), fieldN]; omega
    exact ⟨by apply fits_encO <;> omega, by simp [readBits_word, rdWord, rdHigh, sameWord, he, hx, hd, hop, hsc]⟩
  | atoms op e x d =>
    obtain ⟨rfl, rfl⟩ := pair_eq h
    obtain ⟨he, hx, hd⟩ := regs_encO (by decide : 0x35 < 64) (m := op.toNat) e x d
    have hop : bits (encO 0x35 op.toNat e.toNat x.toNat d.toNat) 26 4 = op := by
      rw [bits_eq_iff, minor_regs_encO (by decide) _ _ _ _ (by decide), fieldN]; omega
    have hz : fieldN (encO 0x35 op.toNat e.toNat x.toNat d.toNat) 30 2 = 0 := by
      rw [minor_regs_encO (by decide) _ _ _ _ (by decide), fieldN]; omega
    exact ⟨by apply fits_encO <;> omega, by simp [readBits_word, rdWord, rdHigh, sameWord, he, hx, hd, hop, hz]⟩
  | ldvM op e x d =>
    obtain ⟨rfl, rfl⟩ := pair_eq h
    exact ⟨by apply fits_encO <;> omega, by rw [readBits_word]; exact read_rows false op e x d (by simp [b2n])⟩
  | stvM op e x d =>
    obtain ⟨rfl, rfl⟩ := pair_eq h
    exact ⟨by apply fits_encO <;> omega, by rw [readBits_word]; exact read_rows true op e x d (by simp [b2n])⟩
  | mwait all acc =>
    obtain ⟨rfl, rfl⟩ := pair_eq h
    have hall := b2n_le all
    have hfit : FitsIn (b2n all * 64 + acc.toNat) 7 := by rw [FitsIn]; omega
    have hacc : fieldN (b2n all * 64 + acc.toNat) 0 6 = acc.toNat := by rw [fieldN]; omega
    have ha : fieldN (b2n all * 64 + acc.toNat) 6 1 = b2n all := by rw [fieldN]; omega
    refine ⟨by apply fits_encO <;> omega, ?_⟩
    simp [readBits_word, rdWord_encO_maux, rdMaux, fieldN_of_lt, hfit, hacc, ha, bits_eq_ofNat, bitAt_eq, sameWord, dZero, eZero]
  | mprojC acc tA tB menu | mprojS acc tA tB menu =>
    obtain ⟨rfl, rfl⟩ := pair_eq h
    have he : FitsIn (menu.toNat / 8 * 16 + tB.toNat) 5 := by rw [FitsIn]; omega
    have ha : FitsIn (menu.toNat % 8 * 16 + tA.toNat) 7 := by rw [FitsIn]; omega
    have htA : fieldN (menu.toNat % 8 * 16 + tA.toNat) 0 4 = tA.toNat := by rw [fieldN]; omega
    have htB : fieldN (menu.toNat / 8 * 16 + tB.toNat) 0 4 = tB.toNat := by rw [fieldN]; omega
    have hmenu : fieldN (menu.toNat % 8 * 16 + tA.toNat) 4 3 + 8 * fieldN (menu.toNat / 8 * 16 + tB.toNat) 4 1 = menu.toNat := by
      rw [fieldN, fieldN]; omega
    refine ⟨fits_encO_of_fitsIn (by decide) (by decide) he ha (by simp), ?_⟩
    simp [readBits_word, rdWord_encO_draw, rdDraw, fieldN_of_lt, he, ha, htA, htB, hmenu, bits_eq_ofNat, bitAt_eq, sameWord]
  | phaseP sc =>
    obtain ⟨rfl, rfl⟩ := pair_eq h
    have hsc : sc.toNat < 4 := sc.isLt
    exact ⟨by apply fits_encO <;> omega, by rw [readBits_word, read_phase (c := 0) sc (by omega) (by decide)]; simp [sameWord, hsc]⟩
  | phaseR sc =>
    obtain ⟨rfl, rfl⟩ := pair_eq h
    have hsc : sc.toNat < 4 := sc.isLt
    exact ⟨by apply fits_encO <;> omega, by rw [readBits_word, read_phase (c := 1) sc (by omega) (by decide)]; simp [sameWord]; omega⟩
  | phase sc =>
    obtain ⟨rfl, rfl⟩ := pair_eq h
    have hsc : sc.toNat < 4 := sc.isLt
    exact ⟨by apply fits_encO <;> omega, by rw [readBits_word, read_phase (c := 2) sc (by omega) (by decide)]; simp [sameWord]; omega⟩
  | mloop m z cnt tB tA acc =>
    obtain ⟨rfl, hword⟩ := pair_eq h
    have hm := b2n_le m
    have hz := b2n_le z
    exact ⟨.inr ⟨rfl, by omega, by omega⟩, (readBits_word w).trans (read_mloop m z cnt tB tA acc hword)⟩
  | vote f k d =>
    obtain ⟨rfl, hword⟩ := pair_eq h
    exact ⟨.inr ⟨rfl, by omega, by omega⟩, (readBits_word w).trans (read_vote f k d hword)⟩
  | dict idx =>
    obtain ⟨rfl, rfl⟩ := pair_eq h
    have hD : (idx.toNat * 4 + 2) % 4 = 2 := by omega
    have hz : fieldN (idx.toNat * 4 + 2) 12 4 = 0 := by rw [fieldN]; omega
    have hi : bits (idx.toNat * 4 + 2) 2 10 = idx := by rw [bits_eq_iff, fieldN]; omega
    exact ⟨.inl ⟨rfl, by omega, by omega⟩, by simp [readBits_half, rdHalf, hD, hz, hi, sameWord]⟩
  | movH b d | addH b d | subH b d | mulH b d | andH b d | orH b d | xorH b d | shlH b d | shrH b d | sarH b d | minH b d | maxH b d
  | faddH b d | fsubH b d | fmulH b d | fmaxH b d =>
    obtain ⟨rfl, rfl⟩ := pair_eq h
    exact ⟨fits_encH (by decide), by simp [readBits_half, rdHalf, sameWord, encH_mod_four, op_encH, b_encH, d_encH]⟩
  | _ => cases h

end Sys2Proof
end

section
/-! PROOFS. Words that read as an instruction are its encoding, major opcode by major opcode (Tables 3.5 to 3.7). -/

namespace Sys2Proof

/-- Every instruction that is read from `w` has the word `w`. -/
def HasWord (w : Nat) (x : Option Instr) : Prop := ∀ i, x = some i → encode i = some (32, w)

section
variable {w lo : Nat} {i : Instr}

theorem hasWord_none : HasWord w none := fun _ h => (Option.some_ne_none _ h.symm).elim

theorem hasWord_some {x : Nat} (hi : encode i = some (32, x)) (hx : x = w) : HasWord w (some i) := by
  rintro j hj
  obtain rfl := Option.some_inj.1 hj
  rw [hi, hx]

theorem hasWord_only {x : Nat} {c : Bool} (hi : encode i = some (32, x)) (hx : c = true → x = w) : HasWord w (only c i) := by
  cases c with
  | false => exact hasWord_none
  | true => exact hasWord_some hi (hx rfl)

theorem hasWord_uni {f : BitVec 5 → Option Instr} (h : ∀ r, fieldN w lo 7 = u7 r → HasWord w (f r)) :
    HasWord w ((uniField w lo).bind f) := by
  intro i hi
  obtain ⟨r, hr, hf⟩ := Option.bind_eq_some_iff.1 hi
  exact h r (uniField_eq_some hr) i hf

theorem hasWord_optUni {f : Option (BitVec 5) → Option Instr} (h : ∀ r, fieldN w lo 7 = ou7 r → HasWord w (f r)) :
    HasWord w ((optUniField w lo).bind f) := by
  intro i hi
  obtain ⟨r, hr, hf⟩ := Option.bind_eq_some_iff.1 hi
  exact h r (optUniField_eq_some hr) i hf

end

section
variable {w M m e a d : Nat} {i : Instr} (hw : IsWord w) (hi : encode i = some (32, encO M m e a d)) (hM : fieldN w 1 6 = M)
  (hm : fieldN w 26 6 = m)
include hw hi hM hm

theorem hasWord_onlyO {c : Bool} (h : c = true → fieldN w 21 5 = e ∧ fieldN w 14 7 = a ∧ fieldN w 7 7 = d) : HasWord w (only c i) :=
  hasWord_only hi fun hc => by
    obtain ⟨he, ha, hd⟩ := h hc
    exact encO_of_fields hw hM hm he ha hd

theorem hasWord_someO (he : fieldN w 21 5 = e) (ha : fieldN w 14 7 = a) (hd : fieldN w 7 7 = d) : HasWord w (some i) :=
  hasWord_some hi (encO_of_fields hw hM hm he ha hd)
end

section
variable {w : Nat} (hw : IsWord w)
include hw

theorem hasWord_rdMaux (hM : fieldN w 1 6 = 0x2D) : HasWord w (rdMaux w) := by
  have ha : fieldN w 20 1 = 0 → fieldN w 14 7 = fieldN w 14 6 := fieldN_of_upper_zero w 14 6 1
  have hd : fieldN w 11 3 = 0 → fieldN w 7 7 = fieldN w 7 4 := fieldN_of_upper_zero w 7 4 3
  simp only [rdMaux]
  split
  case h_1 | h_2 | h_3 | h_4 | h_5 => exact hasWord_onlyO hw rfl hM ‹_› fun hc => by simp_all
  case h_6 =>
    have hall := fieldN_append w 14 6 1
    exact hasWord_onlyO hw rfl hM ‹_› fun hc => by simp_all [Nat.add_comm, Nat.mul_comm]
  case h_7 => exact hasWord_none

theorem hasWord_rdTdesc (hM : fieldN w 1 6 = 0x2E) : HasWord w (rdTdesc w) := by
  have ha : fieldN w 18 3 = 0 → fieldN w 14 7 = fieldN w 14 4 := fieldN_of_upper_zero w 14 4 3
  have he : fieldN w 25 1 = 0 → fieldN w 21 5 = fieldN w 21 4 := fieldN_of_upper_zero w 21 4 1
  simp only [rdTdesc]
  split
  case h_1 | h_2 => exact hasWord_uni fun r hr => hasWord_onlyO hw rfl hM ‹_› fun hc => by simp_all
  case h_3 => exact hasWord_onlyO hw rfl hM ‹_› fun hc => by simp_all
  case h_4 => exact hasWord_none

theorem hasWord_rdDraw (hM : fieldN w 1 6 = 0x2F) : HasWord w (rdDraw w) := by
  have ha : fieldN w 20 1 = 0 → fieldN w 14 7 = fieldN w 14 6 := fieldN_of_upper_zero w 14 6 1
  have hd : fieldN w 13 1 = 0 → fieldN w 7 7 = fieldN w 7 6 := fieldN_of_upper_zero w 7 6 1
  have hmenu : (BitVec.ofNat 4 (fieldN w 18 3 + 8 * fieldN w 25 1)).toNat = fieldN w 18 3 + 8 * fieldN w 25 1 := by
    have h18 := fieldN_lt w 18 3
    have h25 := fieldN_lt w 25 1
    rw [BitVec.toNat_ofNat]; omega
  have he : fieldN w 21 5 = (fieldN w 18 3 + 8 * fieldN w 25 1) / 8 * 16 + fieldN w 21 4 := by
    have h18 := fieldN_lt w 18 3
    have h21 : fieldN w 21 5 = fieldN w 21 4 + 16 * fieldN w 25 1 := fieldN_append w 21 4 1
    omega
  have ha' : fieldN w 14 7 = (fieldN w 18 3 + 8 * fieldN w 25 1) % 8 * 16 + fieldN w 14 4 := by
    have h18 := fieldN_lt w 18 3
    have h14 : fieldN w 14 7 = fieldN w 14 4 + 16 * fieldN w 18 3 := fieldN_append w 14 4 3
    omega
  simp only [rdDraw]
  split
  case h_1 | h_2 =>
    refine hasWord_onlyO hw rfl hM ‹_› fun hc => ?_
    rw [toNat_bits, toNat_bits, toNat_bits, hmenu]
    exact ⟨he, ha', hd (by simpa using hc)⟩
  case h_3 | h_6 => exact hasWord_onlyO hw rfl hM ‹_› fun hc => by clear he ha'; simp_all
  case h_4 | h_5 => exact hasWord_uni fun r hr => hasWord_onlyO hw rfl hM ‹_› fun hc => by clear he ha'; simp_all
  case h_7 => exact hasWord_none

theorem hasWord_rdOrder (hM : fieldN w 1 6 = 0x37) : HasWord w (rdOrder w) := by
  have hd : fieldN w 8 6 = 0 → fieldN w 7 7 = fieldN w 7 1 := fieldN_of_upper_zero w 7 1 6
  have hscope : fieldN w 26 6 % 4 = fieldN w 26 2 := fieldN_mod w 26 2 4
  simp only [rdOrder]
  split
  case isTrue h =>
    exact hasWord_onlyO hw rfl hM (by rw [toNat_bits]; omega) fun hc => by simp_all
  split
  case isTrue h =>
    exact hasWord_onlyO hw rfl hM (by rw [toNat_bits]; omega) fun hc => by simp_all
  split
  case isTrue h =>
    exact hasWord_onlyO hw rfl hM (by rw [toNat_bits]; omega) fun hc => by simp_all
  split
  case h_1 =>
    exact hasWord_uni fun t ht => hasWord_optUni fun r hr => hasWord_someO hw rfl hM ‹_› (toNat_eReg w).symm ht hr
  case h_2 =>
    exact hasWord_uni fun t ht => hasWord_uni fun r hr => hasWord_someO hw rfl hM ‹_› (toNat_eReg w).symm ht hr
  case h_3 | h_4 | h_5 | h_6 => exact hasWord_onlyO hw rfl hM ‹_› fun hc => by simp_all
  case h_7 => exact hasWord_none

theorem hasWord_rdEngine (hM : fieldN w 1 6 = 0x38) : HasWord w (rdEngine w) := by
  have ha : fieldN w 18 3 = 0 → fieldN w 14 7 = fieldN w 14 4 := fieldN_of_upper_zero w 14 4 3
  simp only [rdEngine]
  split
  case h_1 | h_2 | h_3 | h_4 | h_5 | h_7 => exact hasWord_uni fun r hr => hasWord_onlyO hw rfl hM ‹_› fun hc => by simp_all
  case h_6 =>
    have hd : fieldN w 7 7 ≤ 1 → fieldN w 7 7 = fieldN w 7 1 := fun h => by
      have hlow : fieldN w 7 7 % 2 = fieldN w 7 1 := fieldN_mod w 7 1 6
      omega
    exact hasWord_onlyO hw rfl hM ‹_› fun hc => by simp_all
  case h_8 | h_9 => exact hasWord_onlyO hw rfl hM ‹_› fun hc => by simp_all
  case h_10 => exact hasWord_uni fun t ht => hasWord_uni fun r hr => hasWord_someO hw rfl hM ‹_› (toNat_eReg w).symm hr ht
  case h_11 => exact hasWord_none

theorem hasWord_rdBarrier (hM : fieldN w 1 6 = 0x3C) : HasWord w (rdBarrier w) := by
  have ha : fieldN w 16 5 = 0 → fieldN w 14 7 = fieldN w 14 2 := fieldN_of_upper_zero w 14 2 5
  have ha' : fieldN w 18 3 = 0 → fieldN w 14 7 = fieldN w 14 4 := fieldN_of_upper_zero w 14 4 3
  have hd : fieldN w 13 1 = 0 → fieldN w 7 7 = fieldN w 7 6 := fieldN_of_upper_zero w 7 6 1
  simp only [rdBarrier]
  split
  case h_1 | h_2 | h_3 | h_11 | h_13 | h_14 | h_15 => exact hasWord_onlyO hw rfl hM ‹_› fun hc => by simp_all
  case h_4 | h_5 | h_8 | h_12 => exact hasWord_uni fun r hr => hasWord_onlyO hw rfl hM ‹_› fun hc => by simp_all
  case h_6 => exact hasWord_optUni fun r hr => hasWord_onlyO hw rfl hM ‹_› fun hc => by simp_all
  case h_7 | h_9 =>
    exact hasWord_optUni fun r hr => hasWord_uni fun p hp => hasWord_someO hw rfl hM ‹_› (toNat_eReg w).symm hp hr
  case h_10 =>
    exact hasWord_uni fun r hr => hasWord_someO hw rfl hM ‹_› (toNat_eReg w).symm (toNat_bits _ _ _).symm hr
  case h_16 => exact hasWord_none

theorem hasWord_rdTask (hM : fieldN w 1 6 = 0x3D) : HasWord w (rdTask w) := by
  have hd : fieldN w 10 4 = 0 → fieldN w 7 7 = fieldN w 7 3 := fieldN_of_upper_zero w 7 3 4
  have hd' : fieldN w 11 3 = 0 → fieldN w 7 7 = fieldN w 7 4 := fieldN_of_upper_zero w 7 4 3
  have he : fieldN w 25 1 = 0 → fieldN w 21 5 = fieldN w 21 4 := fieldN_of_upper_zero w 21 4 1
  simp only [rdTask]
  split
  case h_1 | h_3 | h_4 | h_6 => exact hasWord_uni fun r hr => hasWord_onlyO hw rfl hM ‹_› fun hc => by simp_all
  case h_2 => exact hasWord_onlyO hw rfl hM ‹_› fun hc => by simp_all
  case h_5 => exact hasWord_uni fun g hg => hasWord_uni fun r hr => hasWord_onlyO hw rfl hM ‹_› fun hc => by simp_all
  case h_7 => exact hasWord_none

theorem hasWord_rdFlow (hM : fieldN w 1 6 = 0x3E) : HasWord w (rdFlow w) := by
  simp only [rdFlow]
  split
  case h_1 | h_8 => exact hasWord_uni fun r hr => hasWord_onlyO hw rfl hM ‹_› fun hc => by simp_all
  case h_15 => exact hasWord_none
  all_goals exact hasWord_onlyO hw rfl hM ‹_› fun hc => by simp_all

theorem hasWord_rdSys (hM : fieldN w 1 6 = 0x3F) : HasWord w (rdSys w) := by
  have he : fieldN w 22 4 = 0 → fieldN w 21 5 = fieldN w 21 1 := fieldN_of_upper_zero w 21 1 4
  simp only [rdSys]
  split
  case h_1 | h_2 | h_9 => exact hasWord_onlyO hw rfl hM ‹_› fun hc => by simp_all
  case h_3 => exact hasWord_uni fun d hd => hasWord_uni fun c hc => hasWord_someO hw rfl hM ‹_› (toNat_eReg w).symm hc hd
  case h_4 => exact hasWord_uni fun d hd => hasWord_uni fun h hh => hasWord_onlyO hw rfl hM ‹_› fun hc => by simp_all
  case h_5 => exact hasWord_uni fun r hr => hasWord_onlyO hw rfl hM ‹_› fun hc => by simp_all
  case h_6 => exact hasWord_uni fun d hd => hasWord_optUni fun c hc => hasWord_someO hw rfl hM ‹_› (toNat_eReg w).symm hc hd
  case h_7 => exact hasWord_uni fun t ht => hasWord_optUni fun d hd => hasWord_onlyO hw rfl hM ‹_› fun hc => by simp_all
  case h_8 =>
    refine hasWord_uni fun d hd => ?_
    split
    case h_1 | h_2 | h_3 => exact hasWord_someO hw rfl hM ‹_› (toNat_eReg w).symm ‹_› hd
    case h_4 => exact hasWord_none
  case h_10 => exact hasWord_none

theorem hasWord_someA {M f : Nat} {i : Instr} (hi : encode i = some (32, encA M f (rdA3 w))) (hM : fieldN w 1 6 = M)
    (hf : fieldN w 30 2 = f) : HasWord w (some i) := hasWord_some hi (encA_of_fields hw hM hf)

theorem hasWord_rdLogici (hM : fieldN w 1 6 = 0x0D) : HasWord w (rdLogici w) := by
  have himm : fieldN w 22 10 = fieldN w 30 2 * 256 + (bits w 22 8).toNat := by
    have hsplit : fieldN w 22 10 = fieldN w 22 8 + 256 * fieldN w 30 2 := fieldN_append w 22 8 2
    rw [toNat_bits]; omega
  simp only [rdLogici]
  split
  case h_1 | h_2 | h_3 => exact hasWord_some rfl (encI_of_fields hw hM (by omega))
  case h_4 h0 h1 h2 =>
    have h3 := fieldN_eq_three h0 h1 h2
    exact hasWord_some rfl (encI_of_fields hw hM (by omega))

theorem hasWord_rdShifti (hM : fieldN w 1 6 = 0x0E) : HasWord w (rdShifti w) := by
  have himm (hz : (fieldN w 27 3 == 0) = true) : fieldN w 22 10 = fieldN w 30 2 * 256 + (bits w 22 5).toNat := by
    have hsplit : fieldN w 22 10 = fieldN w 22 8 + 256 * fieldN w 30 2 := fieldN_append w 22 8 2
    have hlow : fieldN w 22 8 = fieldN w 22 5 := fieldN_of_upper_zero w 22 5 3 (beq_iff_eq.1 hz)
    rw [toNat_bits]; omega
  simp only [rdShifti]
  split
  case h_1 hf | h_2 hf | h_3 hf =>
    exact hasWord_only rfl fun hz => encI_of_fields hw hM (by have := himm hz; omega)
  case h_4 h0 h1 h2 =>
    have h3 := fieldN_eq_three h0 h1 h2
    exact hasWord_only rfl fun hz => encI_of_fields hw hM (by have := himm hz; omega)

theorem hasWord_rdInt : HasWord w (rdInt w) := by
  simp only [rdInt]
  split
  case h_1 | h_2 | h_3 | h_5 | h_6 | h_12 | h_19 | h_21 | h_22 | h_23 | h_24 => exact hasWord_someA hw rfl ‹_› (toNat_fF w).symm
  case h_4 => exact hasWord_only rfl fun hc => encA_of_fields hw ‹_› (beq_iff_eq.1 hc)
  case h_7 | h_8 =>
    split
    case h_1 | h_2 | h_3 => exact hasWord_someA hw rfl ‹_› ‹_›
    case h_4 h0 h1 h2 => exact hasWord_someA hw rfl ‹_› (fieldN_eq_three h0 h1 h2)
  case h_9 =>
    split
    case h_1 | h_2 | h_3 => exact hasWord_only rfl fun hc => encAb_of_fields hw ‹_› ‹_› (by simp_all) (by simp_all)
    case h_4 h0 h1 h2 =>
      exact hasWord_only rfl fun hc => encAb_of_fields hw ‹_› (fieldN_eq_three h0 h1 h2) (by simp_all) (by simp_all)
  case h_10 =>
    split
    case h_1 | h_2 | h_3 => exact hasWord_someA hw rfl ‹_› ‹_›
    case h_4 => exact hasWord_none
  case h_11 => exact hasWord_some rfl (encCmp_of_fields hw ‹_›)
  case h_13 => exact hasWord_some rfl (encI_of_fields hw ‹_› (toNat_bits _ _ _).symm)
  case h_14 hM => exact hasWord_rdLogici hw hM
  case h_15 hM => exact hasWord_rdShifti hw hM
  case h_16 | h_17 | h_18 => exact hasWord_some rfl (encWB_of_fields hw ‹_› (toNat_bits _ _ _).symm (toNat_bits _ _ _).symm)
  case h_20 => exact hasWord_only rfl fun hc => encAb_of_fields hw ‹_› (toNat_fF w).symm (by simp_all) (by simp_all)
  case h_25 => exact hasWord_none

theorem hasWord_rdFlowLane : HasWord w (rdFlowLane w) := by
  have hc : fieldN w 11 3 = 0 → fieldN w 7 7 = fieldN w 10 1 * 8 + fieldN w 7 3 := fun h => by
    have hsplit : fieldN w 7 7 = fieldN w 7 3 + 8 * fieldN w 10 4 := fieldN_append w 7 3 4
    have hlow : fieldN w 10 4 = fieldN w 10 1 := fieldN_of_upper_zero w 10 1 3 h
    omega
  have hc' : fieldN w 12 2 = 0 → fieldN w 7 7 = fieldN w 7 5 := fieldN_of_upper_zero w 7 5 2
  simp only [rdFlowLane]
  split
  case h_1 | h_2 | h_3 | h_4 =>
    exact hasWord_only rfl fun hc => encWB_of_fields hw ‹_› (toNat_bits _ _ _).symm (by simp_all)
  case h_5 | h_6 | h_7 => exact hasWord_someA hw rfl ‹_› (toNat_fF w).symm
  case h_8 hM =>
    have hk : fieldN w 17 4 = 0 → fieldN w 14 7 = fieldN w 14 3 := fieldN_of_upper_zero w 14 3 4
    have hmarks : fieldN w 28 2 = 0 → fieldN w 28 1 = 0 ∧ fieldN w 29 1 = 0 := fun h => by
      have hsplit : fieldN w 28 2 = fieldN w 28 1 + 2 * fieldN w 29 1 := fieldN_append w 28 1 1
      omega
    have hword := encA_of_fields hw hM rfl
    refine hasWord_only rfl fun hz => ?_
    simp_all [encA, rdA3]
  case h_9 => exact hasWord_none

theorem hasWord_rdFloat : HasWord w (rdFloat w) := by
  simp only [rdFloat]
  split
  case h_1 | h_4 =>
    split
    case h_1 | h_2 => exact hasWord_someA hw rfl ‹_› ‹_›
    case h_3 => exact hasWord_none
  case h_3 =>
    split
    case h_1 | h_2 | h_3 => exact hasWord_someA hw rfl ‹_› ‹_›
    case h_4 => exact hasWord_none
  case h_2 => exact hasWord_only rfl fun hc => encA_of_fields hw ‹_› (beq_iff_eq.1 hc)
  case h_5 => exact hasWord_some rfl (encCmp_of_fields hw ‹_›)
  case h_6 => exact hasWord_only rfl fun hc => encAb_of_fields hw ‹_› (toNat_fF w).symm (by simp_all) (by simp_all)
  case h_7 =>
    have hb : fieldN w 24 4 = 0 → fieldN w 21 7 = fieldN w 21 3 := fieldN_of_upper_zero w 21 3 4
    exact hasWord_only rfl fun hc => encAb_of_fields hw ‹_› (by simp_all) (by simp_all) (by simp_all)
  case h_8 => exact hasWord_only rfl fun hc => encAb_of_fields hw ‹_› (toNat_fF w).symm (toNat_bits _ _ _).symm (by simp_all)
  case h_9 | h_10 | h_11 | h_12 => exact hasWord_someA hw rfl ‹_› (toNat_fF w).symm
  case h_13 => exact hasWord_none

theorem hasWord_rdHigh : HasWord w (rdHigh w) := by
  simp only [rdHigh]
  split
  case h_1 hM =>
    obtain ⟨hlt, hodd⟩ := hw
    have h1 := div_eq_fieldN_add w 1 6
    have h7 := div_eq_fieldN_add w 7 6
    have h13 := div_eq_fieldN_add w 13 1
    have h14 := div_eq_fieldN_add w 14 4
    have h18 := div_eq_fieldN_add w 18 4
    have h22 := div_eq_fieldN_add w 22 5
    have h27 := div_eq_fieldN_add w 27 1
    have h28 := div_eq_fieldN_add w 28 1
    have h29 := div_eq_fieldN_add w 29 1
    have h30 := div_eq_fieldN_add w 30 2
    refine hasWord_only rfl fun hz => ?_
    simp only [Bool.and_eq_true, Bool.not_eq_true', beq_iff_eq, bitAt_eq_false] at hz
    simp only [toNat_bits, b2n_bitAt]
    omega
  case h_2 hM => exact hasWord_rdMaux hw hM
  case h_3 hM => exact hasWord_rdTdesc hw hM
  case h_4 hM => exact hasWord_rdDraw hw hM
  case h_5 | h_6 | h_7 | h_8 => exact hasWord_some rfl (encM_of_fields hw ‹_›)
  case h_9 hM =>
    have hm : fieldN w 26 6 = (bits w 28 4).toNat * 4 + (bits w 26 2).toNat := by
      have hsplit : fieldN w 26 6 = fieldN w 26 2 + 4 * fieldN w 28 4 := fieldN_append w 26 2 4
      rw [toNat_bits, toNat_bits]; omega
    exact hasWord_someO hw rfl hM hm (toNat_eReg w).symm (toNat_bits _ _ _).symm (toNat_bits _ _ _).symm
  case h_10 hM =>
    refine hasWord_only rfl fun hz => encO_of_fields hw hM ?_ (toNat_eReg w).symm (toNat_bits _ _ _).symm (toNat_bits _ _ _).symm
    exact (fieldN_of_upper_zero w 26 4 2 (beq_iff_eq.1 hz)).trans (toNat_bits _ _ _).symm
  case h_11 hM =>
    have hm (h30 : (!bitAt w 30) = true) : fieldN w 26 6 = b2n (bitAt w 31) * 32 + (bits w 26 4).toNat := by
      have hsplit : fieldN w 26 6 = fieldN w 26 4 + 16 * fieldN w 30 2 := fieldN_append w 26 4 2
      have hsplit' : fieldN w 30 2 = fieldN w 30 1 + 2 * fieldN w 31 1 := fieldN_append w 30 1 1
      rw [Bool.not_eq_true', bitAt_eq_false] at h30
      rw [toNat_bits, b2n_bitAt]; omega
    cases h31 : bitAt w 31 <;> rw [h31] at hm
    · refine hasWord_only rfl fun h30 => encO_of_fields hw hM ?_ (toNat_eReg w).symm (toNat_bits _ _ _).symm (toNat_bits _ _ _).symm
      exact (hm h30).trans (Nat.zero_add _)
    · exact hasWord_only rfl fun h30 => encO_of_fields hw hM (hm h30) (toNat_eReg w).symm (toNat_bits _ _ _).symm (toNat_bits _ _ _).symm
  case h_12 hM => exact hasWord_rdOrder hw hM
  case h_13 hM => exact hasWord_rdEngine hw hM
  case h_14 hM => exact hasWord_rdBarrier hw hM
  case h_15 hM => exact hasWord_rdTask hw hM
  case h_16 hM => exact hasWord_rdFlow hw hM
  case h_17 hM => exact hasWord_rdSys hw hM
  case h_18 hM => exact hasWord_none

theorem hasWord_rdWord : HasWord w (rdWord w) := by
  simp only [rdWord]
  split
  · exact hasWord_rdInt hw
  split
  · exact hasWord_rdFlowLane hw
  split
  · exact hasWord_rdFloat hw
  · exact hasWord_rdHigh hw
end

theorem checked_eq_some {x : Option Instr} {i : Instr} : checked x = some i ↔ x = some i ∧ i.wf = true := Option.filter_eq_some_iff

/-- A word that decodes is the encoding of a well-formed instruction. -/
theorem encode_of_decodeWord {w : Nat} {i : Instr} (hw : IsWord w) (h : decodeWord w = some i) :
    i.wf = true ∧ encode i = some (32, w) := by
  obtain ⟨hread, hwf⟩ := checked_eq_some.1 h
  exact ⟨hwf, hasWord_rdWord hw i hread⟩

/-! ### Halfwords -/

/-- The operation of a halfword that the 15 named ones are not. -/
theorem op_eq_fifteen {h : Nat} (hn : ∀ op < 15, fieldN h 2 4 ≠ op) : fieldN h 2 4 = 15 := by
  have hlt := fieldN_lt h 2 4
  have hge : ¬ fieldN h 2 4 < 15 := fun hl => hn _ hl rfl
  omega

/-- A halfword that reads as an instruction is its encoding. -/
theorem encode_of_rdHalf {h : Nat} (hlt : h < 2 ^ 16) (heven : h % 2 = 0) {i : Instr} (hi : rdHalf h = some i) :
    encode i = some (16, h) := by
  unfold rdHalf at hi
  split at hi
  case isTrue hform =>
    obtain ⟨hz, rfl⟩ : fieldN h 12 4 = 0 ∧ .dict (bits h 2 10) = i := by
      cases hc : fieldN h 12 4 == 0 <;> rw [hc] at hi
      · cases hi
      · exact ⟨beq_iff_eq.1 hc, Option.some_inj.1 hi⟩
    have h2 := div_eq_fieldN_add h 2 10
    have h12 := div_eq_fieldN_add h 12 4
    have hword : (bits h 2 10).toNat * 4 + 2 = h := by rw [toNat_bits]; omega
    exact congrArg (fun x => some (16, x)) hword
  case isFalse hform =>
    have hH : h % 4 = 0 := by omega
    have hfields {op : Nat} (hop : fieldN h 2 4 = op) : some (16, encH op (bits h 11 5) (bits h 6 5)) = some (16, h) := by
      rw [encH_of_fields hlt hH hop]
    simp only at hi
    split at hi <;> cases hi
    case h_16 => exact hfields (op_eq_fifteen (by intro op hop; interval_cases op <;> assumption))
    all_goals exact hfields ‹_›

/-- A halfword that decodes is the encoding of a well-formed instruction. -/
theorem encode_of_decodeHalf {h : Nat} {i : Instr} (hlt : h < 2 ^ 16) (heven : h % 2 = 0) (hd : decodeHalf h = some i) :
    i.wf = true ∧ encode i = some (16, h) := by
  obtain ⟨hread, hwf⟩ := checked_eq_some.1 hd
  exact ⟨hwf, encode_of_rdHalf hlt heven hread⟩

end Sys2Proof
end

section
/-! PROOFS. Decoding and encoding agree: the words of the decoder's tables, and O49. -/

namespace Sys2Proof

theorem decodeTableWord_word {w : Nat} (hw : IsWord w) : decodeTableWord 32 w = decodeWord w := by
  obtain ⟨hlt, hodd⟩ := hw
  have hbytes : w % 256 + 256 * (w / 256 % 256) + 65536 * (w / 256 / 256 % 256 + 256 * (w / 256 / 256 / 256 % 256)) = w := by omega
  have hlow : (w % 256 + 256 * (w / 256 % 256)) % 2 ≠ 0 := by omega
  rw [decodeTableWord, Nat.mod_eq_of_lt hlt]
  cases hd : decodeWord w <;>
    simp only [leBytes, decode, BitVec.toNat_ofNat, Nat.reducePow, if_neg hlow, hbytes, hd]

theorem decodeTableWord_half {h : Nat} (hlt : h < 2 ^ 16) (heven : h % 2 = 0) : decodeTableWord 16 h = decodeHalf h := by
  have hbytes : h % 256 + 256 * (h / 256 % 256) = h := by omega
  rw [decodeTableWord, Nat.mod_eq_of_lt hlt]
  cases hd : decodeHalf h <;>
    simp only [leBytes, decode, BitVec.toNat_ofNat, Nat.reducePow, hbytes, if_pos heven, hd]

/-- The decoder reads a halfword or word that fits its size as `readBits` does, and checks it. -/
theorem decodeTableWord_of_fits {n w : Nat} (h : Fits n w) : decodeTableWord n w = checked (readBits n w) := by
  obtain ⟨rfl, hlt, heven⟩ | ⟨rfl, hlt, hodd⟩ := h
  · rw [decodeTableWord_half hlt heven, readBits_half]; rfl
  · rw [decodeTableWord_word ⟨hlt, hodd⟩, readBits_word]; rfl

/-- RECLAIM.GIVE and RECLAIM.TAKE, which share their word, are well formed together. -/
theorem wf_sameWord (i : Instr) : (Claim.sameWord i).wf = i.wf := by cases i <;> rfl

theorem decodeTableWord_of_encode {i : Instr} {n w : Nat} (hwf : i.wf = true) (h : encode i = some (n, w)) :
    decodeTableWord n w = some (Claim.sameWord i) := by
  obtain ⟨hfits, hread⟩ := read_of_encode h
  rw [decodeTableWord_of_fits hfits, hread]
  exact checked_eq_some.2 ⟨rfl, (wf_sameWord i).trans hwf⟩

theorem Fits.size_lt {n w : Nat} (h : Fits n w) : (n = 16 ∨ n = 32) ∧ w < 2 ^ n := by
  obtain ⟨rfl, hlt, -⟩ | ⟨rfl, hlt, -⟩ := h
  · exact ⟨.inl rfl, hlt⟩
  · exact ⟨.inr rfl, hlt⟩

/-- Settles O49: each frame's fields read back what the encoder put there, and a word is the frame of the fields that are read from it. -/
theorem encodeDecodeAgree : Obligations.EncodeDecodeAgree := by
  unfold Obligations.EncodeDecodeAgree
  refine ⟨fun i n w hwf h => ?_, fun i w hlt hodd h => encode_of_decodeWord ⟨hlt, hodd⟩ h,
    fun i h hlt heven hd => encode_of_decodeHalf hlt heven hd⟩
  obtain ⟨hsize, hlt⟩ := (read_of_encode h).1.size_lt
  exact ⟨hsize, hlt, decodeTableWord_of_encode hwf h⟩

end Sys2Proof
end

section
/-! PROOFS. Words that are no instruction: words and halfwords outside the tables trap with cause 0x01 (R83), and words written out from
the spec decode to what they stand for. -/

namespace Sys2Proof

/-! ### Halfwords (R69, R70, R83) -/

/-- Every operation of the H form is named. -/
theorem isSome_rdHalf {h : Nat} (hform : h % 4 = 0) : (rdHalf h).isSome = true := by
  have hD : h % 4 ≠ 2 := by omega
  simp only [rdHalf, if_neg hD]
  split <;> rfl

/-- An H form keeps every check of WellFormed: it names vector registers only. -/
theorem wf_of_rdHalf {h : Nat} {i : Instr} (hform : h % 4 = 0) (hi : rdHalf h = some i) : i.wf = true := by
  have hD : h % 4 ≠ 2 := by omega
  simp only [rdHalf, if_neg hD] at hi
  split at hi <;> cases hi <;> rfl

theorem isSome_decodeHalf {h : Nat} (hform : h % 4 = 0) : (decodeHalf h).isSome = true := by
  obtain ⟨i, hi⟩ := Option.isSome_iff_exists.1 (isSome_rdHalf hform)
  exact Option.isSome_iff_exists.2 ⟨i, checked_eq_some.2 ⟨hi, wf_of_rdHalf hform hi⟩⟩

theorem checked_none : checked none = none := rfl

theorem decodeHalf_reserved {h : Nat} (hlt : h < 2 ^ 16) (hform : h % 4 = 2) (hz : h / 2 ^ 12 ≠ 0) : decodeHalf h = none := by
  have hfield : (fieldN h 12 4 == 0) = false := by
    rw [beq_eq_false_iff_ne, fieldN]; omega
  rw [decodeHalf, rdHalf, if_pos hform, hfield, only_false, checked_none]

namespace Machine
open Sys2Proof.Claim

/-! ### Cause 0x01 -/

theorem execIllegalInstruction_eq {s : State} {g : Group} (hg : Issues s g) (word : Word) :
    execIllegalInstruction word s = .next (trapWith s 1 (word.zeroExtend 64) s.cur.mask) := by
  unfold execIllegalInstruction
  rw [issuer_ok hg]
  rfl

/-- The fetch of a started group that may issue is the fetch of the thread that leads. -/
theorem fetchIssue_of_leads {s s₁ : State} {gid : Nat} {m : BitVec 32} {g : Group} {l : Fin 32} {r : Residency}
    (h : Leads s s₁ gid m g l r) : fetchIssue s gid m = fetchCode s₁ gid g (withLead s₁ gid g l) g.threads[l] := by
  obtain ⟨⟨g₀, hget, hst, hloaded, hmay⟩, hasked, hgroup, hlead, hcode⟩ := h
  have hreload : ¬ (!teamLoaded s g₀ && ctxIssues s g₀.ctx) = true := by rw [hloaded]; exact Bool.false_ne_true
  unfold fetchIssue
  rw [hget]
  dsimp only
  rw [if_neg hst, if_neg hreload, if_pos hmay, ← hasked, hgroup]
  dsimp only
  rw [fetchAt, hlead]

theorem fetchCode_illegal {s : State} {gid : Nat} {g : Group} {l : Fin 32} {r : Residency} {w n : Nat}
    (hcode : copyFor (coreOf s g.core) g.ctx g.threads[l] = some r) (hword : Fetches g l r w n) (hi : instrOf w n = none) :
    fetchCode s gid g (withLead s gid g l) g.threads[l] = .illegal (BitVec.ofNat 32 w) (issuing s gid g l n w) := by
  unfold Fetches at hword
  simp only [fetchCode, hcode, hword, hi]
  rfl

theorem issues_issuing (s : State) (gid : Nat) (g : Group) (l : Fin 32) (n w : Nat) :
    Issues (issuing s gid g l n w) (g.onLanes (withLead s gid g l) fun _ x => { x with copy := copyOf (coreOf s g.core) g.ctx x }) :=
  mget_mput_self _ _ _

theorem step_illegal {s s' s₁ : State} {gid : Nat} {m : BitVec 32} {g : Group} {l : Fin 32} {r : Residency} {w n : Nat}
    (hmove : Moves s (.issue gid m) s') (hlead : Leads s' s₁ gid m g l r) (hword : Fetches g l r w n) (hi : instrOf w n = none) :
    step s = .next (trapWith (issuing s₁ gid g l n w) 1 ((BitVec.ofNat 32 w).zeroExtend 64) (withLead s₁ gid g l)) := by
  have hfetch : fetchTurn s' (.issue gid m) = .illegal (BitVec.ofNat 32 w) (issuing s₁ gid g l n w) :=
    (fetchIssue_of_leads hlead).trans (fetchCode_illegal hlead.code hword hi)
  rw [step_of_moves hmove, hfetch]
  exact execIllegalInstruction_eq (issues_issuing s₁ gid g l n w) _

/-- DICT of an entry that is no 32-bit form (R72, R83). -/
theorem exec_dict_illegal {s : State} {g : Group} {idx : BitVec 10} (hg : Issues s g)
    (hbit : (dictEntry s g.kernel idx.toNat).getLsbD 0 = false) :
    exec (.dict idx) s = .next (trapWith s 1 (s.cur.word.zeroExtend 64) s.cur.mask) := by
  show execDict idx s = _
  simp only [execDict, show mget s.groups s.cur.group = some g from hg, hbit, Bool.not_false, if_true]
  exact execIllegalInstruction_eq hg _

end Machine

/-- Settles O46: the fetch of a word that is none runs the trap of R83, and the H form's 16 operations are all named. -/
theorem undefinedWordsTrap : Obligations.UndefinedWordsTrap := by
  unfold Obligations.UndefinedWordsTrap
  exact ⟨fun _ _ _ _ _ _ _ _ _ _ hmove hlead hword hi => Machine.step_illegal hmove hlead hword hi,
    fun _ _ hform => isSome_decodeHalf hform, fun _ hlt hform hz => decodeHalf_reserved hlt hform hz,
    fun _ _ _ hg hbit => Machine.exec_dict_illegal hg hbit⟩

/-- Settles O48: the words evaluate to their instructions. -/
theorem wordsDecode : Obligations.WordsDecode := by
  unfold Obligations.WordsDecode
  exact ⟨by decide, by decide, by decide, by decide, by decide, by decide⟩

end Sys2Proof
end

section
/-! PROOFS. Reserved encodings: what a word of the M form, of the A form and of the O form must keep to be an instruction (R67, R68, R73,
R77, R78, R83). -/

namespace Sys2Proof

section
variable {w : Nat}

theorem decodeWord_eq_none_iff : decodeWord w = none ↔ ∀ i, rdWord w = some i → i.wf = false := by
  simp [decodeWord, checked, Option.filter_eq_none_iff]

theorem decodeWord_of_not_read (h : rdWord w = none) : decodeWord w = none := by rw [decodeWord, h, checked_none]

theorem decodeWord_of_not_wf {i : Instr} (h : rdWord w = some i) (hwf : i.wf ≠ true) : decodeWord w = none := by
  refine decodeWord_eq_none_iff.2 fun j hj => ?_
  obtain rfl := Option.some_inj.1 (h.symm.trans hj)
  exact Bool.eq_false_iff.2 hwf

/-- Majors 0x39 to 0x3B hold nothing (Table 3.5). -/
theorem rdWord_reserved_major (hlo : 0x39 ≤ fieldN w 1 6) (hhi : fieldN w 1 6 ≤ 0x3B) : rdWord w = none := by
  interval_cases h : fieldN w 1 6 <;> simp [rdWord, rdHigh, h]

theorem rdFlow_reserved_minor (h : 14 ≤ fieldN w 26 6) : rdFlow w = none := by
  simp only [rdFlow]
  split
  case h_15 => rfl
  all_goals omega

theorem rdSys_reserved_minor (h : 9 ≤ fieldN w 26 6) : rdSys w = none := by
  simp only [rdSys]
  split
  case h_10 => rfl
  all_goals omega

/-! ### The A form -/

@[simp] theorem isUni_bits (lo : Nat) : isUni (bits w lo 7) = true ↔ 96 ≤ fieldN w lo 7 := by rw [isUni, decide_eq_true_eq, toNat_bits]

/-- An A form with a uniform destination has uniform sources (R67). -/
theorem uniform_of_wfBoth (h : (rdA3 w).wfBoth = true) (hd : 96 ≤ fieldN w 7 7) : 96 ≤ fieldN w 14 7 ∧ 96 ≤ fieldN w 21 7 := by
  have hcls : (!isUni (rdA3 w).d || (isUni (rdA3 w).a && isUni (rdA3 w).b)) = true := (Bool.and_eq_true_iff.1 h).2
  rw [show isUni (rdA3 w).d = true from (isUni_bits 7).2 hd, Bool.not_true, Bool.false_or, Bool.and_eq_true_iff] at hcls
  exact ⟨(isUni_bits 14).1 hcls.1, (isUni_bits 21).1 hcls.2⟩

/-- The majors without a uniform class have a vector destination (R67). -/
theorem vector_of_wfVec (h : (rdA3 w).wfVec = true) : fieldN w 7 7 < 96 := by
  have hd : (!isUni (rdA3 w).d) = true := (Bool.and_eq_true_iff.1 h).2
  rw [Bool.not_eq_true', Bool.eq_false_iff] at hd
  exact Nat.not_le.1 fun hle => hd ((isUni_bits 7).2 hle)

/-- ADD, SUB and MUL are the majors 0 to 2. -/
theorem decodeWord_arith_uniform (hM : fieldN w 1 6 ≤ 0x02) (hd : 96 ≤ fieldN w 7 7) (hs : fieldN w 14 7 < 96 ∨ fieldN w 21 7 < 96) :
    decodeWord w = none := by
  have hwf : (rdA3 w).wfBoth ≠ true := fun h => by
    have hu := uniform_of_wfBoth h hd
    omega
  have hbad {i : Instr} (hi : i.wf = ((fF w) != 3 && (rdA3 w).wfBoth)) : i.wf ≠ true := by
    rw [hi, Bool.eq_false_iff.2 hwf, Bool.and_false]; exact Bool.false_ne_true
  interval_cases h : fieldN w 1 6
  · exact decodeWord_of_not_wf (i := .add (fF w) (rdA3 w)) (by simp [rdWord, rdInt, h]) (hbad rfl)
  · exact decodeWord_of_not_wf (i := .sub (fF w) (rdA3 w)) (by simp [rdWord, rdInt, h]) (hbad rfl)
  · exact decodeWord_of_not_wf (i := .mul (fF w) (rdA3 w)) (by simp [rdWord, rdInt, h]) (hbad rfl)

/-- FADD and FSUB have no uniform class. -/
theorem decodeWord_fadd_uniform (hM : fieldN w 1 6 = 0x20) (hd : 96 ≤ fieldN w 7 7) : decodeWord w = none := by
  have hwf : (rdA3 w).wfVec ≠ true := fun h => absurd (vector_of_wfVec h) (Nat.not_lt.2 hd)
  have hread : rdWord w = rdFloat w := by simp [rdWord, hM]
  refine decodeWord_eq_none_iff.2 fun i hi => ?_
  rw [hread] at hi
  simp only [rdFloat, hM] at hi
  split at hi <;> cases hi
  · exact Bool.eq_false_iff.2 hwf
  · exact Bool.eq_false_iff.2 hwf

/-! ### The M form and ATOM -/

/-- What the fields of the M form of an instruction keep (R68, R77). -/
structure MemFields (w : Nat) : Prop where
  size : fieldN w 26 3 ≠ 7
  pair : fieldN w 7 7 < 96 → fieldN w 26 3 = 5 → fieldN w 7 7 % 2 = 0
  quad : fieldN w 7 7 < 96 → fieldN w 26 3 = 6 → fieldN w 7 7 % 4 = 0
  index : 96 ≤ fieldN w 7 7 → 96 ≤ fieldN w 19 7
  mark : 96 ≤ fieldN w 19 7 → bitAt w 29 = false

theorem memFields_of_wf (h : (rdMem w).wf = true) : MemFields w := by
  have hdst : isUni (rdMem w).d = true ↔ 96 ≤ fieldN w 7 7 := isUni_bits 7
  have hidx : isUni (rdMem w).x = true ↔ 96 ≤ fieldN w 19 7 := isUni_bits 19
  have hsz (n : BitVec 3) : (rdMem w).sz = n ↔ fieldN w 26 3 = n.toNat := bits_eq_iff
  have hd : (rdMem w).d.toNat = fieldN w 7 7 := toNat_bits _ _ _
  rw [MemOps.wf, Bool.and_eq_true, Bool.and_eq_true, bne_iff_ne, Ne, hsz] at h
  obtain ⟨⟨hsize, hmark⟩, hregs⟩ := h
  have hmk (hx : 96 ≤ fieldN w 19 7) : bitAt w 29 = false := by
    rw [markOk, hidx.2 hx, Bool.and_true, Bool.not_eq_true'] at hmark
    exact hmark
  split at hregs
  case isTrue hu =>
    rw [Bool.and_eq_true, hidx] at hregs
    rw [hdst] at hu
    exact ⟨hsize, by omega, by omega, fun _ => hregs.1, hmk⟩
  case isFalse hu =>
    simp only [Bool.and_eq_true, Bool.or_eq_true, bne_iff_ne, ne_eq, hsz, beq_iff_eq, hd] at hregs
    obtain ⟨hpair, hquad⟩ := hregs
    rw [hdst] at hu
    exact ⟨hsize, fun _ h5 => hpair.resolve_left (· h5), fun _ h6 => hquad.resolve_left (· h6), by omega, hmk⟩

/-- A word of the M form that decodes keeps the rules of R77 and R78. -/
theorem memFields_of_decodeWord {i : Instr} (hlo : 0x30 ≤ fieldN w 1 6) (hhi : fieldN w 1 6 ≤ 0x33) (h : decodeWord w = some i) :
    MemFields w ∧ (0x32 ≤ fieldN w 1 6 → fieldN w 30 2 = 0) := by
  obtain ⟨hread, hwf⟩ := checked_eq_some.1 h
  have hscratch (hs : ((rdMem w).wf && (rdMem w).hint == 0) = true) : MemFields w ∧ fieldN w 30 2 = 0 := by
    obtain ⟨hmem, hhint⟩ := Bool.and_eq_true_iff.1 hs
    exact ⟨memFields_of_wf hmem, bits_eq_iff.1 (beq_iff_eq.1 hhint)⟩
  interval_cases hM : fieldN w 1 6 <;> simp [rdWord, rdHigh, hM] at hread <;> subst hread
  · exact ⟨memFields_of_wf hwf, by omega⟩
  · exact ⟨memFields_of_wf hwf, by omega⟩
  · exact ⟨(hscratch hwf).1, fun _ => (hscratch hwf).2⟩
  · exact ⟨(hscratch hwf).1, fun _ => (hscratch hwf).2⟩

/-- ATOM has the operations 0 to 11 (R231). -/
theorem decodeWord_atom_reserved (hM : fieldN w 1 6 = 0x34) (hop : 12 ≤ fieldN w 28 4) : decodeWord w = none := by
  refine decodeWord_of_not_wf (i := .atom (bits w 28 4) (bits w 26 2) (eReg w) (bits w 14 7) (bits w 7 7))
    (by simp [rdWord, rdHigh, hM]) fun hwf => ?_
  have hle : decide ((bits w 28 4).toNat ≤ 11) = true := by
    simp only [Instr.wf, atomWf, Bool.and_eq_true] at hwf
    exact hwf.1.1.1
  rw [decide_eq_true_eq, toNat_bits] at hle
  omega

end

/-- Settles O50: nothing is read from the reserved majors and minors, and the checks of WellFormed refuse the rest. -/
theorem reservedEncodingsRefused : Obligations.ReservedEncodingsRefused := by
  unfold Obligations.ReservedEncodingsRefused
  intro w _ _
  refine ⟨fun hlo hhi => decodeWord_of_not_read (rdWord_reserved_major hlo hhi), fun hlo hhi => ?_, decodeWord_atom_reserved,
    decodeWord_arith_uniform, decodeWord_fadd_uniform,
    fun hM hm => decodeWord_of_not_read ((rdWord_flow hM).trans (rdFlow_reserved_minor hm)),
    fun hM hm => decodeWord_of_not_read ((rdWord_sys hM).trans (rdSys_reserved_minor hm))⟩
  have hfields {i : Instr} (h : decodeWord w = some i) := memFields_of_decodeWord hlo hhi h
  refine ⟨fun h7 => ?_, fun hd h5 hodd => ?_, fun hd h6 hmod => ?_, fun hd hx => ?_, fun hx hmark => ?_, fun hM hhint => ?_⟩ <;>
    refine Option.eq_none_iff_forall_ne_some.2 fun i hi => ?_ <;> obtain ⟨⟨hsize, hpair, hquad, hindex, hmk⟩, hnohint⟩ := hfields hi
  · exact hsize h7
  · exact absurd (hpair hd h5) (by omega)
  · exact hmod (hquad hd h6)
  · exact absurd (hindex hd) (by omega)
  · exact Bool.false_ne_true ((hmk hx).symm.trans hmark)
  · exact hhint (hnohint hM)

end Sys2Proof
end

section
/-! PROOFS. Instructions that compute: each runs as the step of its form, once for the group or lane by lane. -/

namespace Sys2Proof.Machine
open Sys2Proof.Claim

/-! ### Uniform forms (R67) -/

/-- What an instruction with a uniform destination runs. -/
def uniRun (r : UniForm) (s : State) : Out := finish (uniStep s r.reads r.d r.f)

theorem uniRun_done {r : UniForm} {s : State} {g : Group} (hi : Issues s g) (h : r.Ready s g) :
    ∃ t, uniRun r s = .next t ∧ UniDone s t g (uniIdx r.d) (r.f (r.reads.map fun x => g.rdW (uniIdx x))) := uniStep_done hi h

section
variable {s : State} {r : UniForm}

/-- A form that exists only where its destination is uniform. -/
theorem eq_of_uniForm {d : BitVec 7} {x : UniForm} (h : (if isUni d then some x else none) = some r) : isUni d = true ∧ x = r := by
  split at h
  case isTrue hd => exact ⟨hd, Option.some_inj.1 h⟩
  case isFalse => cases h

theorem alu3_uni {o : A3} {fv : Word → Word → Word} {fu : DWord → DWord → DWord} (h : uni2 o fu = some r) :
    finish (alu3 s o fv fu) = uniRun r s := by
  obtain ⟨hd, rfl⟩ := eq_of_uniForm h
  rw [alu3, if_pos hd]; rfl

theorem alu4_uni {o : A3} {fv : Word → Word → Word → Word} {fu : DWord → DWord → DWord → DWord}
    (h : uni3 o fu = some r) : finish (alu4 s o fv fu) = uniRun r s := by
  obtain ⟨hd, rfl⟩ := eq_of_uniForm h
  rw [alu4, if_pos hd]; rfl

theorem alu2_uni {o : A2} {fv : Word → Word} {fu : DWord → DWord} (h : uni1 o fu = some r) :
    finish (alu2 s o fv fu) = uniRun r s := by
  obtain ⟨hd, rfl⟩ := eq_of_uniForm h
  rw [alu2, if_pos hd]; rfl

theorem movStep_uni {d : BitVec 7} {readsD : Bool} {fv : Word → Word} {fu : DWord → DWord}
    (h : (if isUni d then some { reads := if readsD then [d] else [], d := d, f := fun l => fu (arg l 0) : UniForm } else none) = some r) :
    finish (movStep s d readsD fv fu) = uniRun r s := by
  obtain ⟨hd, rfl⟩ := eq_of_uniForm h
  rw [movStep, if_pos hd]; rfl

theorem execMovx_uni {imm : BitVec 18} {d : BitVec 7}
    (h : (if isUni d then some { reads := [d], d := d, f := fun l => movxV imm (arg l 0) : UniForm } else none) = some r) :
    execMovx imm d s = uniRun r s := by
  obtain ⟨hd, rfl⟩ := eq_of_uniForm h
  rw [execMovx, if_pos hd]; rfl

/-- Every integer instruction with a uniform destination runs as its form. -/
theorem exec_uniForm {i : Instr} (h : uniForm i = some r) : exec i s = uniRun r s := by
  cases i with
  | add f o | sub f o | mul f o | min f o | max f o | land o | lor o | lxor o | landn o | shl o | shr o | sar o | rot o | bfeN o | bfeS o
  | lea f o => exact alu3_uni h
  | mad o | bfi o => exact alu4_uni h
  | popc o | clz o | brev o | ffs o | cvti f o | addi imm o | andi imm o | ori imm o | xori imm o | andni imm o =>
    exact alu2_uni h
  | shli n o => exact alu2_uni ((congrArg (uni1 o) (funext fun x => shlV_imm64 x n)).trans h)
  | shri n o => exact alu2_uni ((congrArg (uni1 o) (funext fun x => shrV_imm64 x n)).trans h)
  | sari n o => exact alu2_uni ((congrArg (uni1 o) (funext fun x => sarV_imm64 x n)).trans h)
  | roti n o => exact alu2_uni ((congrArg (uni1 o) (funext fun x => rotV_imm64 x n)).trans h)
  | movw imm d | movh imm d => exact movStep_uni h
  | movx imm d => exact execMovx_uni h
  | _ => cases h

end

/-! ### Vector forms (R8) -/

/-- What an instruction with one vector destination runs. -/
def vecRun (r : VecForm) (s : State) : Out :=
  finish (vecStep s r.reads [r.d] fun l => { vals := [(r.f l).1], flags := (r.f l).2 })

theorem args_eq_readAll (r : VecForm) (g : Group) (l : Fin 32) : (g.readAll l (r.reads.map (·.1))).1 = r.args g l := by
  simp [Group.readAll, VecForm.args]

theorem vecRun_done {r : VecForm} {s : State} {g : Group} (hi : Issues s g) (hd : isUni r.d = false) (h : r.Ready s g) :
    ∃ t, vecRun r s = .next t ∧ r.Done s t g := by
  obtain ⟨hfree, hroom, htrap⟩ := h
  obtain ⟨t, ht, hdone⟩ := vecStep_done (f := fun l => { vals := [(r.f l).1], flags := (r.f l).2 }) hi hd hfree hroom
    (fun l hl => by rw [args_eq_readAll]; exact htrap l hl) (fun l => (r.f (r.args g l)).1) (fun l => by rw [args_eq_readAll])
  simp only [args_eq_readAll, any_readAll_eq_anyUndef] at hdone
  exact ⟨t, ht, hdone⟩

/-- The instruction runs as a form with a vector destination. -/
def RunsAs (out : Out) (r : VecForm) (s : State) : Prop := isUni r.d = false ∧ out = vecRun r s

section
variable {s : State} {g : Group} {r : VecForm}

/-- A form that exists only where its destination is a vector register. -/
theorem eq_of_vecForm {d : BitVec 7} {x : VecForm} (h : (if isUni d then none else some x) = some r) : isUni d = false ∧ x = r := by
  split at h
  case isTrue => cases h
  case isFalse hd => exact ⟨Bool.eq_false_iff.2 hd, Option.some_inj.1 h⟩

theorem alu3_vec {o : A3} {fv : Word → Word → Word} {fu : DWord → DWord → DWord}
    (h : two o (fun x y => (fv x y, 0)) = some r) : RunsAs (finish (alu3 s o fv fu)) r s := by
  obtain ⟨hd, rfl⟩ := eq_of_vecForm h
  exact ⟨hd, by rw [alu3, hd]; rfl⟩

theorem alu4_vec {o : A3} {fv : Word → Word → Word → Word} {fu : DWord → DWord → DWord → DWord}
    (h : three o (fun x y d => (fv x y d, 0)) = some r) : RunsAs (finish (alu4 s o fv fu)) r s := by
  obtain ⟨hd, rfl⟩ := eq_of_vecForm h
  exact ⟨hd, by rw [alu4, hd]; rfl⟩

theorem alu2_vec {o : A2} {fv : Word → Word} {fu : DWord → DWord} (h : one o (fun x => (fv x, 0)) = some r) :
    RunsAs (finish (alu2 s o fv fu)) r s := by
  obtain ⟨hd, rfl⟩ := eq_of_vecForm h
  exact ⟨hd, by rw [alu2, hd]; rfl⟩

theorem movStep_vec {d : BitVec 7} {readsD : Bool} {fv : Word → Word} {fu : DWord → DWord} (h : wide d readsD fv = some r) :
    RunsAs (finish (movStep s d readsD fv fu)) r s := by
  obtain ⟨hd, rfl⟩ := eq_of_vecForm h
  exact ⟨hd, by rw [movStep, hd]; rfl⟩

theorem alu4F_vec {o : A3} {F : Word → Word → Word → Nat × Flags}
    (h : three o (fun x y d => (u32 (F x y d).1, (F x y d).2)) = some r) : RunsAs (finish (alu4F s o F)) r s := by
  obtain ⟨hd, rfl⟩ := eq_of_vecForm h
  exact ⟨hd, rfl⟩

theorem isUni_zeroExtend (d : BitVec 5) : isUni (d.zeroExtend 7) = false := by
  rw [isUni, decide_eq_false_iff_not, BitVec.toNat_setWidth]; omega

/-- A 16-bit form is the form of its operands (R70). -/
theorem two_of_half {b d : BitVec 5} {f : Word → Word → Word × Flags} (h : half b d f = some r) : two (hOps b d) f = some r := by
  rw [two, hOps, isUni_zeroExtend]; exact h

theorem execMovH_vec {b d : BitVec 5} (h : intForm (.movH b d) = some r) : RunsAs (execMovH b d s) r s := by
  simp only [intForm] at h
  split at h
  case isTrue => cases h
  case isFalse hbd =>
    obtain rfl := Option.some_inj.1 h
    refine ⟨isUni_zeroExtend d, ?_⟩
    rw [execMovH, if_neg hbd, alu3, hOps, isUni_zeroExtend]; rfl

/-- Every integer instruction with a vector destination runs as its form. -/
theorem exec_intForm {i : Instr} (h : intForm i = some r) : RunsAs (exec i s) r s := by
  cases i with
  | add f o | sub f o | mul f o | min f o | max f o | land o | lor o | lxor o | landn o | shl o | shr o | sar o | rot o | bfeN o | bfeS o
  | lea f o => exact alu3_vec h
  | mad o | bfi o => exact alu4_vec h
  | popc o | clz o | brev o | ffs o | cvti f o | addi imm o | andi imm o | ori imm o | xori imm o | andni imm o =>
    exact alu2_vec h
  | shli n o => exact alu2_vec ((congrArg (one o) (funext fun x => congrArg (·, 0) (shlV_imm32 x n))).trans h)
  | shri n o => exact alu2_vec ((congrArg (one o) (funext fun x => congrArg (·, 0) (shrV_imm32 x n))).trans h)
  | sari n o => exact alu2_vec ((congrArg (one o) (funext fun x => congrArg (·, 0) (sarV_imm32 x n))).trans h)
  | roti n o => exact alu2_vec ((congrArg (one o) (funext fun x => congrArg (·, 0) (rotV_imm32 x n))).trans h)
  | movw imm d | movh imm d => exact movStep_vec h
  | idot4 f o | idot4s f o | idot8 f o | idot8s f o => exact alu4F_vec h
  | movH b d => exact execMovH_vec h
  | addH b d | subH b d | mulH b d | andH b d | orH b d | xorH b d | shlH b d | shrH b d | sarH b d | minH b d | maxH b d =>
    exact alu3_vec (two_of_half h)
  | _ => cases h

section
variable (hi : Issues s g)
include hi

theorem fpu3_vec {o : A3} {F : BitVec 2 → Bool → Word → Word → Nat × Flags}
    (h : two o (fun x y => (u32 (F g.frm g.ftz x y).1, (F g.frm g.ftz x y).2)) = some r) : RunsAs (finish (fpu3 s o F)) r s := by
  obtain ⟨hd, rfl⟩ := eq_of_vecForm h
  exact ⟨hd, by rw [fpu3, issuer_ok hi]; rfl⟩

theorem fpu4_vec {o : A3} {F : BitVec 2 → Bool → Word → Word → Word → Nat × Flags}
    (h : three o (fun x y d => (u32 (F g.frm g.ftz x y d).1, (F g.frm g.ftz x y d).2)) = some r) :
    RunsAs (finish (fpu4 s o F)) r s := by
  rw [fpu4, issuer_ok hi]
  exact alu4F_vec h

theorem fpu2_vec {o : A2} {F : Bool → Word → Nat × Flags} (h : one o (fun x => (u32 (F g.ftz x).1, (F g.ftz x).2)) = some r) :
    RunsAs (finish (fpu2 s o F)) r s := by
  obtain ⟨hd, rfl⟩ := eq_of_vecForm h
  exact ⟨hd, by rw [fpu2, issuer_ok hi]; rfl⟩

theorem execPack_vec {f : BitVec 2} {o : A3} (h : floatForm g.frm g.ftz (.pack f o) = some r) : RunsAs (execPack f o s) r s := by
  simp only [floatForm] at h
  rw [execPack]
  split at h
  case isTrue hf => rw [if_pos hf]; exact fpu3_vec hi h
  case isFalse hf => rw [if_neg hf]; exact fpu4_vec hi h

/-- Every floating-point and packed instruction runs as its form under the group's FRM and FTZ. -/
theorem exec_floatForm {i : Instr} (h : floatForm g.frm g.ftz i = some r) : RunsAs (exec i s) r s := by
  cases i with
  | fadd o | fsub o | fmul o | fmin o | fmax o | unpack f o | fscale f o => exact fpu3_vec hi h
  | ffma o | ffms o | fnma o | fdot f o => exact fpu4_vec hi h
  | frnd f o | fspec f o | cvtf f c o => exact fpu2_vec hi h
  | pack f o => exact execPack_vec hi h
  | faddH b d | fsubH b d | fmulH b d | fmaxH b d => exact fpu3_vec hi (two_of_half h)
  | _ => cases h

end
end

section
variable {s : State} {g : Group} (hg : Issues s g)
include hg

/-- A form of the integer, floating-point and packed instructions has its effect. -/
theorem exec_vecForm_done {x : Instr} {r : VecForm} (hform : intForm x = some r ∨ floatForm g.frm g.ftz x = some r) (hr : r.Ready s g) :
    ∃ t, exec x s = .next t ∧ r.Done s t g := by
  obtain ⟨hd, hrun⟩ : RunsAs (exec x s) r s := hform.elim exec_intForm (exec_floatForm hg)
  rw [hrun]
  exact vecRun_done hg hd hr

theorem exec_uniForm_done {x : Instr} {r : UniForm} (hform : uniForm x = some r) (hr : r.Ready s g) :
    ∃ t, exec x s = .next t ∧ UniDone s t g (uniIdx r.d) (r.f (r.reads.map fun y => g.rdW (uniIdx y))) := by
  rw [exec_uniForm hform]
  exact uniRun_done hg hr

end

end Sys2Proof.Machine

namespace Sys2Proof
open Sys2Proof.Machine Sys2Proof.Claim

/-- Settles O2: the instruction runs as the uniform step of its form, whose registers are free. -/
theorem integerUniformCompletes : Obligations.IntegerUniformCompletes := by
  unfold Obligations.IntegerUniformCompletes
  intro i r s g hform hi hready
  exact exec_uniForm_done hi hform hready

end Sys2Proof
end

section
/-! PROOFS. DICT, and the stops of words that are none and of fetches beyond an image (R65, R70 to R72, R83). -/

namespace Sys2Proof.Machine
open Sys2Proof.Claim

/-- An entry of the dictionary means what the instruction means: it is a 32-bit form (R71). -/
theorem execEntry_eq_exec {x : Instr} {w : Nat} (h : encode x = some (32, w)) (s : State) : execEntry x s = exec x s := by
  cases x <;> cases h <;> rfl

/-- An entry with bit 0 set that decodes is the word of its instruction. -/
theorem encode_of_dictEntry {w : Word} {x : Instr} (hbit : w.getLsbD 0 = true) (hx : decodeWord w.toNat = some x) :
    encode x = some (32, w.toNat) := by
  have hodd : w.toNat % 2 = 1 := by
    rw [BitVec.getLsbD, Nat.testBit_zero, decide_eq_true_eq] at hbit; exact hbit
  exact (encode_of_decodeWord ⟨w.isLt, hodd⟩ hx).2

section
variable {s : State} {g : Group} (hg : Issues s g)
include hg

/-- DICT runs its entry, with the entry as the word (R72). -/
theorem exec_dict {i : BitVec 10} {k : Kernel} {w : Word} {x : Instr} (hk : mget s.kernels g.kernel = some k)
    (hw : k.dict[i.toNat]? = some w) (hbit : w.getLsbD 0 = true) (hx : decodeWord w.toNat = some x) :
    exec (.dict i) s = exec x { s with cur := { s.cur with word := w } } := by
  have hentry : dictEntry s g.kernel i.toNat = w := by rw [dictEntry, hk, Option.bind_some, hw, Option.getD_some]
  show execDict i s = _
  simp only [execDict, show mget s.groups s.cur.group = some g from hg, hentry, hbit, Bool.not_true, Bool.false_eq_true, if_false, hx]
  exact execEntry_eq_exec (encode_of_dictEntry hbit hx) _

theorem exec_movH_self (b : BitVec 5) : exec (.movH b b) s = .next (done s g) := by
  show execMovH b b s = _
  rw [execMovH, if_pos rfl, issuer_ok hg]
  rfl

end

theorem dictExecutes : DictExecutes := by
  refine fun s g hg => ⟨fun i k w x hk hw hbit hx => ?_, exec_movH_self hg⟩
  have hg' : Issues { s with cur := { s.cur with word := w } } g := hg
  have hrun := exec_dict hg hk hw hbit hx
  refine ⟨hrun, fun r hform hr => ?_, fun r hform hr => ?_⟩ <;> rw [hrun]
  · exact exec_vecForm_done hg' hform hr
  · exact exec_uniForm_done hg' hform hr

theorem stopsTrap : StopsTrap := by
  refine fun s g hg => ⟨fun word => execIllegalInstruction_eq hg word, fun off => ?_⟩
  show execOverlayImageFault off s = _
  rw [execOverlayImageFault, issuer_ok hg]
  rfl

end Sys2Proof.Machine

namespace Sys2Proof

/-- Settles O43: DICT decodes its entry and runs it, and the two stops are the traps of their causes. -/
theorem dictAndStopsComplete : Obligations.DictAndStopsComplete := by
  unfold Obligations.DictAndStopsComplete
  exact ⟨Machine.dictExecutes, Machine.stopsTrap⟩

end Sys2Proof
end

section
/-! PROOFS. Branches inside an overlay (R76, R173 to R176). -/

namespace Sys2Proof.Machine
open Sys2Proof.Claim

section
variable {s : State} {g : Group} {off : BitVec 18}

/-- A target inside the image (R76). -/
def InImage (s : State) (g : Group) (off : BitVec 18) : Prop :=
  0 ≤ branchTarget s.cur off ∧ branchTarget s.cur off < imageSize s g.ctx s.cur.ov.toNat

theorem checkTarget_ok (ht : InImage s g off) (taken : BitVec 32) :
    checkTarget s g (branchTarget s.cur off) taken = .ok (BitVec.ofInt 32 (branchTarget s.cur off)) := if_pos ht

theorem checkDepth_ok (h : g.stack.length < 256) : checkDepth s g = .ok () := if_neg (Nat.not_le.2 h)

section
variable (hg : Issues s g) (ht : InImage s g off)
include hg ht

theorem exec_br : exec (.br off) s = .next (setGroup s s.cur.group (g.goTo s.cur.mask (BitVec.ofInt 32 (branchTarget s.cur off)))) := by
  show finish (brStep s off) = _
  simp only [brStep, issuer_ok hg, bind, Except.bind, checkTarget_ok ht, finish]

theorem exec_brc (sense : Bool) (k : BitVec 3) :
    exec (.brc off sense k) s = .next (if takenMask s g sense k = 0 then done s g
      else setGroup s s.cur.group ((g.advance s.cur).goTo (takenMask s g sense k) (BitVec.ofInt 32 (branchTarget s.cur off)))) := by
  show finish (brcStep s off sense k) = _
  simp only [brcStep, issuer_ok hg, bind, Except.bind, checkTarget_ok ht]
  split <;> rfl

theorem exec_call (hdepth : g.stack.length < 256) :
    exec (.call off) s =
      .next (setGroup s s.cur.group ((g.push s.cur).goTo s.cur.mask (BitVec.ofInt 32 (branchTarget s.cur off)))) := by
  show finish (callStep s off) = _
  simp only [callStep, issuer_ok hg, bind, Except.bind, checkDepth_ok hdepth, checkTarget_ok ht, finish]

end

section
variable {w : BitVec 5} (hg : Issues s g) (hfree : UniFree s g [w.toNat] [w.toNat])
include hg hfree

/-- BRLOOP counts down and goes on while its counter is not 0 (R175). -/
theorem exec_brloop_taken (ht : InImage s g off) (hcount : g.rdW w.toNat ≠ 1) :
    exec (.brloop off w) s = .next (setGroup s s.cur.group ({ g.wrW w.toNat (g.rdW w.toNat - 1) with rwin := rotated g.rwin }.goTo
      s.cur.mask (BitVec.ofInt 32 (branchTarget s.cur off)))) := by
  have hleft : g.rdW w.toNat - 1 ≠ 0 := fun h => hcount (sub_eq_zero.1 h)
  show finish (brloopStep s off w) = _
  simp only [brloopStep, issuer_ok hg, bind, Except.bind, useW_ok hfree, if_neg hleft, checkTarget_ok ht, finish]

theorem exec_brloop_last (hcount : g.rdW w.toNat = 1) :
    ∃ t, exec (.brloop off w) s = .next t ∧ UniDone s t g w.toNat 0 := by
  have hlast : g.rdW w.toNat - 1 = 0 := sub_eq_zero.2 hcount
  refine ⟨done s (g.wrW w.toNat 0), ?_, uniDone_of_wrW s g w.toNat 0 w.isLt⟩
  show finish (brloopStep s off w) = _
  simp only [brloopStep, issuer_ok hg, bind, Except.bind, useW_ok hfree, hlast, if_true, finish]

end
end

end Sys2Proof.Machine

namespace Sys2Proof
open Sys2Proof.Machine

/-- Settles O6: a target inside the image passes the check of R76, and each branch then goes where its row says. -/
theorem branchesComplete : Obligations.BranchesComplete := by
  unfold Obligations.BranchesComplete
  refine fun off s g hg => ⟨fun hlo hhi => ?_, fun w hfree hcount => exec_brloop_last hg hfree hcount⟩
  have ht : InImage s g off := ⟨hlo, hhi⟩
  exact ⟨exec_br hg ht, exec_brc hg ht, exec_call hg ht, fun w hfree hcount => exec_brloop_taken hg hfree ht hcount⟩

end Sys2Proof
end

section
/-! PROOFS. Privilege and features: a privileged instruction outside handler mode and control groups, RTH outside handler mode, and a gated
instruction without its feature trap before they do anything else (R82, R184, R272). -/

namespace Sys2Proof.Machine
open Sys2Proof.Claim

/-- The trap of an issue with the instruction's word in HADDR. -/
def wordTrap (s : State) (cause : Nat) : Out := .next (trapWith s cause (s.cur.word.zeroExtend 64) s.cur.mask)

section
variable {α : Type} {s : State} {g : Group}

theorem finish_denied : finish (denied s) = wordTrap s 12 := rfl
theorem finish_illegal : finish (illegal s) = wordTrap s 1 := rfl
theorem denied_bind (k : α → R State) : (denied s >>= k) = denied s := rfl
theorem illegal_bind (k : α → R State) : (illegal s >>= k) = illegal s := rfl

variable (hg : Issues s g)
include hg

theorem issuer_bind (k : Group → R α) : (issuer s >>= k) = k g := by rw [issuer_ok hg]; rfl

/-- A check of privilege that comes first. -/
theorem denied_of_unprivileged (hp : g.privileged = false) (k : Group → R α) :
    (issuer s >>= fun g => if !g.privileged then denied s else k g) = denied s := by
  rw [issuer_bind hg, hp]; rfl

/-- A check of a feature that comes first. -/
theorem illegal_of_featureless {b : Nat} (hb : feature s g b = false) (k : Group → Unit → R α) :
    (issuer s >>= fun g => need s (feature s g b) >>= k g) = illegal s := by
  rw [issuer_bind hg, need, hb]; rfl

theorem denied_of_privSel {sel : BitVec 7} (hsel : 0x40 ≤ sel.toNat) (hp : g.privileged = false) (k : Group → Unit → R α) :
    (issuer s >>= fun g => selAllowed s g sel >>= k g) = denied s := by
  rw [issuer_bind hg, selAllowed, privSel, decide_eq_true hsel, hp]; rfl

theorem ctxopArg_unprivileged (hp : g.privileged = false) (d r : BitVec 5) (query : Bool) : ctxopArg s d r query = denied s :=
  denied_of_unprivileged hg hp _

theorem joinReady_featureless (hb : feature s g 3 = false) (j : BitVec 5) (rs ws : List Nat) : joinReady s j rs ws = illegal s :=
  illegal_of_featureless hg hb _

/-- Every privileged instruction checks its privilege first. -/
theorem exec_unprivileged {i : Instr} (hi : privilegedOnly i = true) (hp : g.privileged = false) : exec i s = wordTrap s 12 := by
  cases i with
  | halt | resume kill d h | tlbinv a c | pwrreq d t | reclaimTake d c l | reclaimGive d c l =>
    exact congrArg finish (denied_of_unprivileged hg hp _)
  | srd d sel => exact congrArg finish (denied_of_privSel hg (of_decide_eq_true hi) hp _)
  | swr sel r => exact congrArg finish (denied_of_privSel hg (of_decide_eq_true hi) hp _)
  | ctxopQuery d r | ctxopSwout d r | ctxopSwin d r =>
    exact congrArg finish ((congrArg (· >>= _) (ctxopArg_unprivileged hg hp d r _)).trans (denied_bind _))
  | _ => cases hi

/-- Every gated instruction checks its feature first. -/
theorem exec_featureless {i : Instr} {b : Nat} (hi : featureBit i = some b) (hb : feature s g b = false) : exec i s = wordTrap s 1 := by
  cases i with
  | mprojC acc tA tB menu | mprojS acc tA tB menu | drawcfg r | draw d acc e | drawseed r | deliver m t | joinArm d p j | joinArrive r c j
  | killoff | killon | engineSub r t | subend r | slotdone r x | kvmove k p t | smap o r l | sunmap o | sflush o =>
    obtain rfl := Option.some_inj.1 hi
    exact congrArg finish (illegal_of_featureless hg hb _)
  | joinWait j | joinRead d sel j | joinCancel j =>
    obtain rfl := Option.some_inj.1 hi
    exact congrArg finish ((congrArg (· >>= _) (joinReady_featureless hg hb j _ _)).trans (illegal_bind _))
  | _ => cases hi

theorem exec_rth_outside (hh : g.handling = false) : exec .rth s = wordTrap s 12 := by
  show finish (rthStep s) = _
  rw [rthStep, issuer_bind hg, hh]; rfl

end

end Sys2Proof.Machine

namespace Sys2Proof
open Sys2Proof.Machine

/-- Settles O56: privilege and features are checked before anything else. -/
theorem privilegeAndFeatureTraps : Obligations.PrivilegeAndFeatureTraps := by
  unfold Obligations.PrivilegeAndFeatureTraps
  intro i s g hg
  refine ⟨exec_unprivileged hg, ?_, fun b => exec_featureless hg⟩
  rintro rfl
  exact exec_rth_outside hg

end Sys2Proof
end

section
/-! PROOFS. Misaligned global accesses: the one trap that an issue takes (R195), and the check of alignment that comes first (R227). -/

namespace Sys2Proof.Machine
open Sys2Proof.Claim

/-! ### The trap of an issue (R195) -/

/-- Where the lanes of `P` raise traps of one cause and the others none, the issue takes that of the lowest lane, for all of them. -/
theorem chooseTrap_of_filter {P : Fin 32 → Bool} {f : Fin 32 → Option TrapInfo} {T : Fin 32 → TrapInfo} {c : Nat}
    (hc : ∀ l, (T l).cause = c) {low : Fin 32} {rest : List (Fin 32)} :
    ∀ lanes : List (Fin 32), (∀ l ∈ lanes, f l = if P l then some (T l) else none) → lanes.filter P = low :: rest →
      chooseTrap (lanes.map fun i => (i, f i)) = some (T low, maskOf (low :: rest)) := by
  intro lanes
  induction lanes with
  | nil => intro _ h; cases h
  | cons a as ih =>
    intro hf hfilter
    have hf' := fun l hl => hf l (List.mem_cons_of_mem a hl)
    have ha := hf a List.mem_cons_self
    rw [List.map_cons]
    by_cases hP : P a = true
    · rw [List.filter_cons_of_pos hP] at hfilter
      obtain ⟨rfl, rfl⟩ := List.cons_eq_cons.1 hfilter
      rw [if_pos hP] at ha
      have hfst : (Prod.fst ∘ fun i => (i, f i)) = (id : Fin 32 → Fin 32) := rfl
      rw [ha, chooseTrap, List.filter_map, List.map_map, hfst, List.map_id]
      refine congrArg (fun m => some (T a, maskOf (a :: m))) (List.filter_congr fun l hl => ?_)
      rw [Function.comp_apply, hf' l hl]
      cases P l
      · rfl
      · exact decide_eq_true ((hc l).trans (hc a).symm)
    · rw [List.filter_cons_of_neg hP] at hfilter
      rw [if_neg hP] at ha
      rw [ha, chooseTrap]
      exact ih hf' hfilter

section
variable {s : State} {g : Group}

theorem freeBadBy_of_ne {lanes : List (Fin 32)} {names : List Nat} {c : Nat} (h : c ≠ 10) : freeBadBy s g lanes names c = s := if_neg h

theorem dropFillErr_of_ne {c : Nat} (h : c ≠ 10) : dropFillErr s g c = s := by
  unfold dropFillErr
  split
  · rfl
  · exact if_neg h

/-! ### The checks of a vector access -/

theorem memReady_eq (base : BitVec 5) (reads : List (BitVec 7 × Bool)) (dests : List (BitVec 7)) (chk : Fin 32 → Option TrapInfo) :
    memReady s g base reads dests chk = (useW s g [base.toNat] [] >>= fun _ => operandsReady s g (reads.map (·.1)) dests >>= fun _ =>
      raiseBy (fun c => dropFillErr (freeBadBy s g (cohort s) ((reads.map (·.1)).filterMap g.vname) c) g c) ((cohort s).map fun i =>
        (i, (badRead g i ((reads.map (·.1)).filterMap g.vname)).or
          ((overBudget s g g.threads[i] (g.freesOf reads) (dests.filterMap g.vname)).or (chk i))))) := by
  unfold memReady useW
  rw [List.append_nil]
  cases scoreboard s g [] [base.toNat] <;> rfl

/-- A vector access with its registers free traps where its own check does. -/
theorem memReady_trap {base : BitVec 5} {reads : List (BitVec 7 × Bool)} {dests : List (BitVec 7)} {chk : Fin 32 → Option TrapInfo}
    {t : TrapInfo} {m : BitVec 32} (hfree : MemFree s g base reads dests) (ht : t.cause ≠ 10)
    (hchoose : chooseTrap ((cohort s).map fun i => (i, chk i)) = some (t, m)) :
    memReady s g base reads dests chk = .error (.trap s t m) := by
  obtain ⟨hbase, hvec, hroom⟩ := hfree
  have hlanes : ((cohort s).map fun i => (i, (badRead g i ((reads.map (·.1)).filterMap g.vname)).or
      ((overBudget s g g.threads[i] (g.freesOf reads) (dests.filterMap g.vname)).or (chk i)))) = (cohort s).map fun i => (i, chk i) :=
    List.map_congr_left fun l hl => by
      rw [badRead_none fun n hn => (hvec.2.2 n hn).2 l hl, overBudget_none hroom hl, Option.none_or, Option.none_or]
  rw [memReady_eq, useW_ok hbase, operandsReady_ok hvec, hlanes]
  simp only [bind, Except.bind, raiseBy, hchoose, freeBadBy_of_ne ht, dropFillErr_of_ne ht]

/-! ### Alignment -/

/-- The trap of an access at an address that is no multiple of its size. -/
def alignTrap (a : DWord) : TrapInfo := { cause := 2, haddr := a, access := 0 }

/-- Alignment is checked before everything else of the address (Table 8.1). -/
theorem globalTrap_misaligned {lane : Nat} {a : DWord} {n : Nat} {nd : Need} (h : a.toNat % n ≠ 0) :
    globalTrap s g lane a n nd = some (alignTrap a) := by
  rw [globalTrap, misaligned, if_neg h, Option.some_or]; rfl

/-- The misaligned lanes of an access, which trap where every other lane passes its checks. -/
theorem chooseTrap_misaligned {o : MemOps} {nd : Need} {low : Fin 32} {rest : List (Fin 32)}
    (haligned : ∀ l ∈ cohort s, (laneAddr g o l).toNat % szBytes o.sz = 0 →
      globalTrap s g l.val (laneAddr g o l) (szBytes o.sz) nd = none)
    (hfilter : (cohort s).filter (fun l => decide ((laneAddr g o l).toNat % szBytes o.sz ≠ 0)) = low :: rest) :
    chooseTrap ((cohort s).map fun i => (i, globalTrap s g i.val (laneAddr g o i) (szBytes o.sz) nd)) =
      some (alignTrap (laneAddr g o low), maskOf (low :: rest)) := by
  refine chooseTrap_of_filter (T := fun l => alignTrap (laneAddr g o l)) (fun _ => rfl) _ (fun l hl => ?_) hfilter
  by_cases h : (laneAddr g o l).toNat % szBytes o.sz = 0
  · rw [haligned l hl h, if_neg (by simpa using h)]
  · rw [globalTrap_misaligned h, if_pos (by simpa using h)]

/-! ### LD and ST -/

section
variable {o : MemOps} (hg : Issues s g)
include hg

section
variable (hd : isUni o.d = true) (hfree : UniFree s g [o.base.toNat, uniIdx o.x, uniIdx o.d] [])
  (ha : (uniAddr g o).toNat % szBytes o.sz ≠ 0)
include hd hfree ha

theorem exec_ld_uni_misaligned : exec (.ld o) s = .next (trapWith s 2 (uniAddr g o) s.cur.mask) := by
  have hfree' : UniFree s g [o.base.toNat, uniIdx o.x] [uniIdx o.d] := by
    obtain ⟨hbusy, hbad⟩ := hfree
    exact ⟨hbusy, fun i hi => hbad i (by simp only [List.mem_cons] at hi ⊢; tauto)⟩
  show finish (ldStep s o) = _
  rw [ldStep, issuer_bind hg, if_pos hd, useW_ok hfree']
  show finish (match globalTrap s g 0 (uniAddr g o) (szBytes o.sz) .read with | some t => _ | none => _) = _
  rw [globalTrap_misaligned ha]; rfl

theorem exec_st_uni_misaligned : exec (.st o) s = .next (trapWith s 2 (uniAddr g o) s.cur.mask) := by
  show finish (stStep s o) = _
  rw [stStep, issuer_bind hg, if_pos hd, useW_ok hfree]
  show finish (match globalTrap s g 0 (uniAddr g o) (szBytes o.sz) .write with | some t => _ | none => _) = _
  rw [globalTrap_misaligned ha]; rfl

end

section
variable {low : Fin 32} {rest : List (Fin 32)} (hd : isUni o.d = false)
  (hfilter : (cohort s).filter (fun l => decide ((laneAddr g o l).toNat % szBytes o.sz ≠ 0)) = low :: rest)
include hd hfilter

theorem exec_ld_misaligned (hfree : MemFree s g o.base [(o.x, o.lx)] (destRegs o.d (szRegs o.sz)))
    (haligned : ∀ l ∈ cohort s, (laneAddr g o l).toNat % szBytes o.sz = 0 →
      globalTrap s g l.val (laneAddr g o l) (szBytes o.sz) .read = none) :
    exec (.ld o) s = .next (trapWith s 2 (laneAddr g o low) (maskOf (low :: rest))) := by
  have htrap := memReady_trap hfree (by decide : (2 : Nat) ≠ 10) (chooseTrap_misaligned haligned hfilter)
  show finish (ldStep s o) = _
  rw [ldStep, issuer_bind hg, hd]
  exact congrArg (fun x => finish (x >>= _)) htrap

theorem exec_st_misaligned (hfree : MemFree s g o.base (storeReads o) [])
    (haligned : ∀ l ∈ cohort s, (laneAddr g o l).toNat % szBytes o.sz = 0 →
      globalTrap s g l.val (laneAddr g o l) (szBytes o.sz) .write = none) :
    exec (.st o) s = .next (trapWith s 2 (laneAddr g o low) (maskOf (low :: rest))) := by
  have htrap := memReady_trap hfree (by decide : (2 : Nat) ≠ 10) (chooseTrap_misaligned haligned hfilter)
  show finish (stStep s o) = _
  rw [stStep, issuer_bind hg, hd]
  exact congrArg (fun x => finish (x >>= _)) htrap

end
end
end

end Sys2Proof.Machine

namespace Sys2Proof
open Sys2Proof.Machine Sys2Proof.Claim

/-- Settles O58: alignment is the first check of an address, and the issue takes the trap of its lowest misaligned lane. -/
theorem misalignedTraps : Obligations.MisalignedTraps := by
  unfold Obligations.MisalignedTraps
  intro o s g i low rest hi hg
  obtain rfl | rfl := hi
  · rw [if_pos rfl, if_pos rfl, if_pos rfl]
    exact ⟨exec_ld_uni_misaligned hg, fun hd hfree haligned hfilter => exec_ld_misaligned hg hd hfilter hfree haligned⟩
  · have hne : Instr.st o ≠ Instr.ld o := fun h => by cases h
    rw [if_neg hne, if_neg hne, if_neg hne]
    exact ⟨exec_st_uni_misaligned hg, fun hd hfree haligned hfilter => exec_st_misaligned hg hd hfilter hfree haligned⟩

end Sys2Proof
end

section
/-! PROOFS. Floating-point and packed instructions: the effect of their form, and the trap of the flags that FPEN enables (R105, R195). -/

namespace Sys2Proof.Machine
open Sys2Proof.Claim

section
variable {s : State} {g : Group}

/-! ### The traps of a vector instruction -/

theorem orFlags_noUndef (f : Flags) : g.orFlags f false = { g with gstat := g.gstat ||| Flags.toGstat f } := by
  rw [Group.orFlags, gUndef, if_neg Bool.false_ne_true, BitVec.or_zero]

/-- What a trap of cause 0x07 leaves of the issue: its flags `fl` in GSTAT, and nothing written (R105). -/
def raisedFlags (s : State) (g : Group) (fl : Flags) : State := setGroup s s.cur.group { g with gstat := g.gstat ||| Flags.toGstat fl }

/-- What a lane checks once its registers are free and its rows fit (R228, R44). -/
theorem laneChecks_eq {lanes : List (Fin 32)} {reads : List (BitVec 7 × Bool)} {dests : List (BitVec 7)}
    (hfree : VecFree s g lanes (reads.map (·.1)) dests) (hroom : VecRoom g lanes (g.freesOf reads) (dests.filterMap g.vname))
    {l : Fin 32} (hl : l ∈ lanes) (own : Option TrapInfo) :
    (badRead g l ((reads.map (·.1)).filterMap g.vname)).or
      ((overBudget s g g.threads[l] (g.freesOf reads) (dests.filterMap g.vname)).or own) = own := by
  obtain ⟨-, -, hrows⟩ := hfree
  rw [badRead_none fun n hn => (hrows n hn).2 l hl, overBudget_none hroom hl, Option.none_or, Option.none_or]

/-- The trap of a lane whose flags are `f`. -/
def floatTrap (f : Flags) : TrapInfo := { cause := 7, haddr := f.zeroExtend 64, access := 0 }

theorem flagTrap_eq (f : Flags) : flagTrap g f = if g.trapFlags f != 0 then some (floatTrap f) else none := by
  rw [flagTrap, floatTrap]
  by_cases h : g.trapFlags f = 0
  · rw [if_pos h, h]; rfl
  · rw [if_neg h, if_pos (bne_iff_ne.2 h)]

/-- A vector operation whose registers are free and whose rows fit traps for the lanes that raise an enabled flag. -/
theorem vecOn_flagTrap {lanes : List (Fin 32)} {reads : List (BitVec 7 × Bool)} {dests : List (BitVec 7)}
    {f : Fin 32 → List Word → LaneRes} {fl : Fin 32 → Flags} {low : Fin 32} {rest : List (Fin 32)}
    (hfree : VecFree s g lanes (reads.map (·.1)) dests) (hroom : VecRoom g lanes (g.freesOf reads) (dests.filterMap g.vname))
    (hfl : ∀ l, (f l (g.readAll l (reads.map (·.1))).1).flags = fl l)
    (hraise : lanes.filter (fun l => g.trapFlags (fl l) != 0) = low :: rest) :
    vecOn s g lanes reads dests f =
      .error (.trap (raisedFlags s g (lanes.foldl (fun a l => a ||| fl l) 0)) (floatTrap (fl low)) (maskOf (low :: rest))) := by
  have hlanes : (lanes.map fun l => (l, (badRead g l ((reads.map (·.1)).filterMap g.vname)).or
      ((overBudget s g g.threads[l] (g.freesOf reads) (dests.filterMap g.vname)).or (flagTrap g (fl l))))) =
      lanes.map fun l => (l, flagTrap g (fl l)) := List.map_congr_left fun l hl => by rw [laneChecks_eq hfree hroom hl]
  have hchoose : chooseTrap (lanes.map fun l => (l, flagTrap g (fl l))) = some (floatTrap (fl low), maskOf (low :: rest)) :=
    chooseTrap_of_filter (T := fun l => floatTrap (fl l)) (fun _ => rfl) lanes (fun l _ => flagTrap_eq (fl l)) hraise
  have hcause : (floatTrap (fl low)).cause = 7 := rfl
  rw [vecOn, operandsReady_ok hfree]
  simp only [bind, Except.bind, hfl, hlanes, raiseBy, hchoose, hcause, if_true, orFlags_noUndef, raisedFlags]

/-- A form that raises an enabled flag in some lane takes the trap of R105. -/
theorem vecRun_flagTrap {r : VecForm} {low : Fin 32} {rest : List (Fin 32)} (hi : Issues s g) (hd : isUni r.d = false)
    (hfree : VecFree s g (cohort s) (r.reads.map (·.1)) [r.d])
    (hroom : VecRoom g (cohort s) (g.freesOf r.reads) [rotName g.rwin r.d.toNat])
    (hraise : (cohort s).filter (fun l => g.trapFlags (r.f (r.args g l)).2 != 0) = low :: rest) :
    vecRun r s = .next (trapWith (raisedFlags s g ((cohort s).foldl (fun a l => a ||| (r.f (r.args g l)).2) 0))
      7 ((r.f (r.args g low)).2.zeroExtend 64) (maskOf (low :: rest))) := by
  rw [vecRun, vecStep, issuer_bind hi, vecOn_flagTrap hfree (by rw [vnames_one hd]; exact hroom) (fun l => by rw [args_eq_readAll]) hraise]
  rfl

end

end Sys2Proof.Machine

namespace Sys2Proof
open Sys2Proof.Machine Sys2Proof.Claim

/-- Settles O3: the instruction runs as its form under FRM and FTZ, which has its effect while no flag that it raises is enabled. -/
theorem floatVectorCompletes : Obligations.FloatVectorCompletes := by
  unfold Obligations.FloatVectorCompletes
  intro i r s g hform hi hready
  exact exec_vecForm_done hi (.inr hform) hready

/-- Settles O57: the instruction runs as its form, and the trap of R195 is that of the lanes with an enabled flag. -/
theorem floatTraps : Obligations.FloatTraps := by
  unfold Obligations.FloatTraps
  intro i r s g low rest hform hi hfree hroom hraise
  obtain ⟨hd, hrun⟩ := exec_floatForm hi hform
  rw [hrun]
  exact vecRun_flagTrap hi hd hfree hroom hraise

end Sys2Proof
end

section
/-! PROOFS. Global stores and the issue of global loads: a vector access whose registers are free and whose lanes pass their checks, the
words of LDV.M and STV.M, and the obligation on stores (R227 to R229, R234, R235). -/

namespace Sys2Proof.Machine
open Sys2Proof.Claim

/-! ### Checks that pass -/

section
variable {s : State} {g : Group}

theorem ok_bind {α β : Type} (a : α) (k : α → R β) : ((.ok a : R α) >>= k) = k a := rfl

/-- A vector access with its registers free whose lanes pass their own check is ready. -/
theorem memReady_ok {base : BitVec 5} {reads : List (BitVec 7 × Bool)} {dests : List (BitVec 7)} {chk : Fin 32 → Option TrapInfo}
    (hfree : MemFree s g base reads dests) (hchk : ∀ l ∈ cohort s, chk l = none) : memReady s g base reads dests chk = .ok () := by
  obtain ⟨hbase, hvec, hroom⟩ := hfree
  rw [memReady_eq, useW_ok hbase, operandsReady_ok hvec, ok_bind, ok_bind]
  refine raiseBy_none _ _ fun p hp => ?_
  obtain ⟨l, hl, rfl⟩ := List.mem_map.1 hp
  show (badRead g l _).or ((overBudget s g _ _ _).or (chk l)) = none
  rw [badRead_none fun n hn => (hvec.2.2 n hn).2 l hl, overBudget_none hroom hl, hchk l hl]; rfl

/-- A vector access that is ready goes on. -/
theorem memReady_bind {base : BitVec 5} {reads : List (BitVec 7 × Bool)} {dests : List (BitVec 7)} {chk : Fin 32 → Option TrapInfo}
    (hfree : MemFree s g base reads dests) (hchk : ∀ l ∈ cohort s, chk l = none) (k : Unit → R State) :
    (memReady s g base reads dests chk >>= k) = k () := by
  rw [memReady_ok hfree hchk]; rfl

theorem useW_bind {reads writes : List Nat} (h : UniFree s g reads writes) (k : Unit → R State) : (useW s g reads writes >>= k) = k () := by
  rw [useW_ok h]; rfl

/-! ### LD and ST -/

variable {o : MemOps} (hg : Issues s g)
include hg

theorem exec_ld_uni (hd : isUni o.d = true) (hfree : UniFree s g [o.base.toNat, uniIdx o.x] [uniIdx o.d])
    (hchk : globalTrap s g 0 (uniAddr g o) (szBytes o.sz) .read = none) :
    exec (.ld o) s = .next (doneNow (startLoadOp s s.cur.group none [uniIdx o.d] o.sz (uniAddr g o) none)) := by
  show finish (ldStep s o) = _
  rw [ldStep, issuer_bind hg, if_pos hd, useW_bind hfree]
  show finish (match globalTrap s g 0 (uniAddr g o) (szBytes o.sz) .read with | some t => _ | none => _) = _
  rw [hchk]; rfl

theorem exec_ld_vec (hd : isUni o.d = false) (hfree : MemFree s g o.base [(o.x, o.lx)] (destRegs o.d (szRegs o.sz)))
    (hchk : ∀ l ∈ cohort s, globalTrap s g l.val (laneAddr g o l) (szBytes o.sz) .read = none) :
    exec (.ld o) s = .next (doneNow ((cohort s).foldl
      (fun s' l => startLoadOp s' s.cur.group (some l.val) ((destRegs o.d (szRegs o.sz)).filterMap g.vname) o.sz (laneAddr g o l) none)
      (setGroup s s.cur.group (g.vecCommit s.tick (cohort s) [(o.x, o.lx)] (destRegs o.d (szRegs o.sz))
        fun _ => { vals := (destRegs o.d (szRegs o.sz)).map fun _ => 0, flags := 0 })))) := by
  show finish (ldStep s o) = _
  rw [ldStep, issuer_bind hg, hd]
  exact congrArg finish (memReady_bind hfree hchk _)

theorem exec_st_uni (hd : isUni o.d = true) (hfree : UniFree s g [o.base.toNat, uniIdx o.x, uniIdx o.d] [])
    (hchk : globalTrap s g 0 (uniAddr g o) (szBytes o.sz) .write = none) :
    exec (.st o) s = .next (done s { g with pend := g.pend ++ uniPend s g o }) := by
  show finish (stStep s o) = _
  rw [stStep, issuer_bind hg, if_pos hd, useW_bind hfree]
  show finish (match globalTrap s g 0 (uniAddr g o) (szBytes o.sz) .write with | some t => _ | none => _) = _
  rw [hchk]; rfl

theorem exec_st_vec (hd : isUni o.d = false) (hfree : MemFree s g o.base (storeReads o) [])
    (hchk : ∀ l ∈ cohort s, globalTrap s g l.val (laneAddr g o l) (szBytes o.sz) .write = none) :
    exec (.st o) s = .next (done s { (readOnly s g (storeReads o)) with pend := g.pend ++ (cohort s).flatMap (lanePend s g o) }) := by
  show finish (stStep s o) = _
  rw [stStep, issuer_bind hg, hd]
  exact congrArg finish (memReady_bind hfree hchk _)

end

/-! ### Room for part of the rows (R44, R235) -/

/-- The keys of a map after a key is set: it is put before the first larger one, where it does not stand before that. -/
def keyPut : List Nat → Nat → List Nat
  | [], k => [k]
  | k' :: r, k => if k < k' then k :: k' :: r else if k' = k then k :: r else k' :: keyPut r k

theorem keys_mput {α : Type} (m : Map α) (k : Nat) (v : α) : (mput m k v).map (·.1) = keyPut (m.map (·.1)) k := by
  induction m with
  | nil => rfl
  | cons p r ih =>
    obtain ⟨k', v'⟩ := p
    simp only [mput, keyPut, List.map_cons]
    split
    · rfl
    · split
      · rfl
      · rw [List.map_cons, ih]

theorem keyPut_comm (l : List Nat) (a b : Nat) : keyPut (keyPut l a) b = keyPut (keyPut l b) a := by
  induction l with
  | nil => grind [keyPut]
  | cons k r ih => grind [keyPut]

theorem length_le_keyPut (l : List Nat) (k : Nat) : l.length ≤ (keyPut l k).length := by
  induction l with
  | nil => exact Nat.zero_le _
  | cons k' r ih =>
    unfold keyPut
    split
    · simp
    · split <;> simp_all

theorem foldl_keyPut_keyPut (ks : List Nat) : ∀ (l : List Nat) (k : Nat), ks.foldl keyPut (keyPut l k) = keyPut (ks.foldl keyPut l) k := by
  induction ks with
  | nil => intro l k; rfl
  | cons a r ih => intro l k; rw [List.foldl_cons, List.foldl_cons, keyPut_comm, ih]

theorem length_foldl_keyPut_suffix (pre ks : List Nat) : ∀ l : List Nat,
    (ks.foldl keyPut l).length ≤ ((pre ++ ks).foldl keyPut l).length := by
  induction pre with
  | nil => intro l; exact le_refl _
  | cons a r ih =>
    intro l
    rw [List.cons_append, List.foldl_cons, foldl_keyPut_keyPut]
    exact (ih l).trans (length_le_keyPut _ _)

/-- The keys of a thread's rows after an instruction depend on the names alone. -/
theorem keys_update (t : Thread) (frees : List Nat) (ws : List (Nat × Word)) :
    (t.update frees ws).v.map (·.1) = (ws.map (·.1)).foldl keyPut ((frees.foldl mdel t.v).map (·.1)) := by
  unfold Thread.update
  show (ws.foldl (fun m p => mput m p.1 p.2) (frees.foldl mdel t.v)).map (·.1) = _
  generalize frees.foldl mdel t.v = m
  induction ws generalizing m with
  | nil => rfl
  | cons p r ih => rw [List.foldl_cons, List.map_cons, List.foldl_cons, ih, keys_mput]

/-- Rows that fit as a whole fit in part. -/
theorem VecRoom.suffix {g : Group} {lanes : List (Fin 32)} {frees names names' : List Nat} (h : VecRoom g lanes frees names) {l : Fin 32}
    (hl : l ∈ lanes) (hs : names' <:+ names) : VecRoom g [l] frees names' := by
  intro l' hl'
  obtain rfl := List.mem_singleton.1 hl'
  obtain hheld | hfits := h l' hl
  · exact .inl fun k hk => hheld k (hs.mem hk)
  · refine .inr (le_trans ?_ hfits)
    have hlen : ∀ ns : List Nat, (g.threads[l'].update frees (ns.map fun n => (n, 0))).v.length =
        (ns.foldl keyPut ((frees.foldl mdel g.threads[l'].v).map (·.1))).length := fun ns => by
      rw [← List.length_map (·.1), keys_update, List.map_map]
      exact congrArg (fun ks : List Nat => (ks.foldl keyPut _).length) (List.map_id ns)
    obtain ⟨pre, rfl⟩ := hs
    rw [hlen, hlen]
    exact length_foldl_keyPut_suffix _ _ _

theorem vecRoom_nil {g : Group} (lanes : List (Fin 32)) (frees : List Nat) : VecRoom g lanes frees [] :=
  fun _ _ => .inl fun _ h => absurd h List.not_mem_nil

/-! ### LDV.M and STV.M (R234, R235) -/

/-- The alignment of each word address of an aligned transfer. -/
theorem misaligned_none {a : DWord} {n : Nat} (h : a.toNat % n = 0) : misaligned a n = none := if_pos h

/-- The lanes' part of the checks of a transfer (R227, R228, R44). -/
def laneStops (s : State) (g : Group) (load : Bool) (x : BitVec 7) (regs : List (BitVec 7)) (addr : Fin 32 → DWord) (i : Fin 32) :
    Option TrapInfo :=
  (badRead g i ((if load then [x] else x :: wordsLeft g regs i).filterMap g.vname)).or
    ((overBudget s g g.threads[i] [] (if load then (wordsLeft g regs i).filterMap g.vname else [])).or (misaligned (addr i) 4))

section
variable {s : State} {g : Group} {e : BitVec 5} {x : BitVec 7} {regs : List (BitVec 7)} {addr : Fin 32 → DWord}

theorem multiReady_ok {load : Bool} (hbase : UniFree s g [e.toNat] [])
    (hvec : VecFree s g (cohort s) (if load then [x] else x :: regs) (if load then regs else []))
    (hlanes : ∀ l ∈ cohort s, laneStops s g load x regs addr l = none) : multiReady s g load e x regs addr = .ok () := by
  have hscore : scoreboard s g [] [e.toNat] = .ok () := by
    have h := useW_ok hbase
    unfold useW at h
    cases hs : scoreboard s g [] [e.toNat] with
    | ok u => rfl
    | error st => rw [List.append_nil, hs] at h; cases h
  have hbad : readyU s g [e.toNat] = .ok () := by
    have h := useW_ok hbase
    rwa [useW, List.append_nil, hscore, ok_bind] at h
  rw [multiReady, hscore, hbad, operandsReady_ok hvec, ok_bind, ok_bind, ok_bind]
  refine raiseBy_none _ _ fun p hp => ?_
  obtain ⟨l, hl, rfl⟩ := List.mem_map.1 hp
  exact hlanes l hl

theorem wordsLeft_suffix (l : Fin 32) : (wordsLeft g regs l).filterMap g.vname <:+ regs.filterMap g.vname :=
  (List.drop_suffix _ _).filterMap g.vname

theorem multiReady_load (hfree : MemFree s g e [(x, false)] regs) (haddr : ∀ l ∈ cohort s, (addr l).toNat % 4 = 0) :
    multiReady s g true e x regs addr = .ok () := by
  obtain ⟨hbase, hvec, hroom⟩ := hfree
  refine multiReady_ok hbase hvec fun l hl => ?_
  obtain ⟨-, -, hread⟩ := hvec
  have hroom' : VecRoom g [l] [] ((wordsLeft g regs l).filterMap g.vname) := VecRoom.suffix hroom hl (wordsLeft_suffix l)
  have hbad : badRead g l ([x].filterMap g.vname) = none := badRead_none fun n hn => (hread n hn).2 l hl
  simp only [laneStops, if_true]
  rw [hbad, overBudget_none hroom' (List.mem_singleton_self l), misaligned_none (haddr l hl)]; rfl

theorem multiReady_store (hfree : MemFree s g e ((x, false) :: regs.map fun r => (r, false)) [])
    (haddr : ∀ l ∈ cohort s, (addr l).toNat % 4 = 0) : multiReady s g false e x regs addr = .ok () := by
  obtain ⟨hbase, hvec, -⟩ := hfree
  have hregs : ((x, false) :: regs.map fun r => (r, false)).map (·.1) = x :: regs := by
    rw [List.map_cons, List.map_map]; exact congrArg _ (List.map_id regs)
  rw [hregs] at hvec
  refine multiReady_ok hbase hvec fun l hl => ?_
  obtain ⟨-, -, hread⟩ := hvec
  have hsub : ∀ n ∈ (x :: wordsLeft g regs l).filterMap g.vname, n ∈ (x :: regs).filterMap g.vname := fun n hn =>
    (((List.drop_sublist _ regs).cons_cons x).filterMap g.vname).mem hn
  simp only [laneStops, Bool.false_eq_true, if_false]
  rw [badRead_none fun n hn => (hread n (hsub n hn)).2 l hl, overBudget_none (vecRoom_nil [l] []) (List.mem_singleton_self l), misaligned_none (haddr l hl)]; rfl

/-! ### A transfer without a stop -/

/-- The words of a transfer that does not stand in a wait yet: the lanes in ascending order, from their XFER on. -/
def transferRun (s : State) (g : Group) (load : Bool) (n : BitVec 4) (e : BitVec 5) (x d : BitVec 7) : State × List LaneEnd :=
  transferAll s.cur.group s.fresh load d (fun l => addrOf g e (g.rdLane l x).1 2) (fun l => g.threads[l].xfer.toNat) (n.toNat + 1) (cohort s)
    { setGroup s s.cur.group ((g.orFlags 0 ((cohort s).any fun l => (g.rdLane l x).2)).touchNames s.tick
        ((if load then [x] else x :: destRegs d (n.toNat + 1)).filterMap g.vname)
        (if load then (destRegs d (n.toNat + 1)).filterMap g.vname else [])) with fresh := s.fresh + 1 }

/-- A transfer whose lanes neither stop nor wait ends with XFER 0 (R235). -/
theorem multiStep_done {load : Bool} {n : BitVec 4} {d : BitVec 7} {g' : Group} (hi : Issues s g) (htag : transferTag s g = none)
    (hready : multiReady s g load e x (destRegs d (n.toNat + 1)) (fun l => addrOf g e (g.rdLane l x).1 2) = .ok ())
    (hg' : mget (transferRun s g load n e x d).1.groups s.cur.group = some g')
    (hends : ∀ p ∈ (transferRun s g load n e x d).2, p.stop = none ∧ p.waits = false) :
    finish (multiStep s load n e x d) =
      .next (done (transferRun s g load n e x d).1 ((forgetBases g' s.fresh).onLanes s.cur.mask fun _ t => { t with xfer := 0 })) := by
  have hwaits : (transferRun s g load n e x d).2.any (·.waits) = false :=
    List.any_eq_false.2 fun p hp => by rw [(hends p hp).2]; exact Bool.false_ne_true
  have hstops : chooseTrap ((transferRun s g load n e x d).2.map fun p => (p.lane, p.stop)) = none :=
    chooseTrap_none _ fun q hq => by
      obtain ⟨p, hp, rfl⟩ := List.mem_map.1 hq
      exact (hends p hp).1
  have haddr : transferAddr g none e x = fun l => addrOf g e (g.rdLane l x).1 2 := rfl
  unfold transferRun at *
  simp only [multiStep, issuer_bind hi, htag, haddr, Option.isNone_none, if_true, hready, ok_bind, Option.getD_none, hg', hwaits,
    Bool.false_eq_true, if_false, hstops, Group.putBases_nil]
  rfl

theorem exec_ldvM {n : BitVec 4} {d : BitVec 7} {g' : Group} (hi : Issues s g) (hfree : MemFree s g e [(x, false)] (destRegs d (n.toNat + 1)))
    (haddr : ∀ l ∈ cohort s, (addrOf g e (g.rdLane l x).1 2).toNat % 4 = 0) (htag : transferTag s g = none)
    (hg' : mget (transferRun s g true n e x d).1.groups s.cur.group = some g')
    (hends : ∀ p ∈ (transferRun s g true n e x d).2, p.stop = none ∧ p.waits = false) :
    exec (.ldvM n e x d) s =
      .next (done (transferRun s g true n e x d).1 ((forgetBases g' s.fresh).onLanes s.cur.mask fun _ t => { t with xfer := 0 })) :=
  multiStep_done hi htag (multiReady_load hfree haddr) hg' hends

theorem exec_stvM {n : BitVec 4} {d : BitVec 7} {g' : Group} (hi : Issues s g)
    (hfree : MemFree s g e ((x, false) :: (destRegs d (n.toNat + 1)).map fun r => (r, false)) [])
    (haddr : ∀ l ∈ cohort s, (addrOf g e (g.rdLane l x).1 2).toNat % 4 = 0) (htag : transferTag s g = none)
    (hg' : mget (transferRun s g false n e x d).1.groups s.cur.group = some g')
    (hends : ∀ p ∈ (transferRun s g false n e x d).2, p.stop = none ∧ p.waits = false) :
    exec (.stvM n e x d) s =
      .next (done (transferRun s g false n e x d).1 ((forgetBases g' s.fresh).onLanes s.cur.mask fun _ t => { t with xfer := 0 })) :=
  multiStep_done hi htag (multiReady_store hfree haddr) hg' hends

end

/-- A global load starts one load a lane, with its rows taken; LDV.M transfers its words. -/
theorem globalLoadsIssue : GlobalLoadsIssue :=
  ⟨fun _ _ _ => exec_ld_uni, fun _ _ _ => exec_ld_vec, fun _ _ _ _ _ _ _ hi hfree haddr htag => exec_ldvM hi hfree haddr htag⟩

end Sys2Proof.Machine

namespace Sys2Proof
open Sys2Proof.Machine Sys2Proof.Claim

/-- Settles O12: the checks pass, and the units are appended at once, word by word for STV.M. -/
theorem globalStoresComplete : Obligations.GlobalStoresComplete :=
  ⟨fun _ _ _ => exec_st_uni, fun _ _ _ => exec_st_vec, fun _ _ _ _ _ _ _ hi hfree haddr htag => exec_stvM hi hfree haddr htag⟩

end Sys2Proof
end

section
/-! PROOFS. The value of a global load (R143): the moments at which a unit may be read, what a group reads at one of them, and a byte whose
newest write is forced. -/

namespace Sys2Proof.Machine
open Sys2Proof.Claim

/-! ### Lists -/

/-- The first element of a weaker test is the first of a stronger one that it passes. -/
theorem find?_eq_some_of_imp {α : Type} {p q : α → Bool} {l : List α} {a : α} (himp : ∀ x, q x = true → p x = true)
    (hp : l.find? p = some a) (hq : q a = true) : l.find? q = some a := by
  induction l with
  | nil => cases hp
  | cons x r ih =>
    rw [List.find?_cons] at hp ⊢
    cases hpx : p x with
    | true =>
      rw [hpx] at hp
      obtain rfl := Option.some_inj.1 hp
      rw [hq]
    | false =>
      rw [hpx] at hp
      have hqx : q x = false := by
        cases h : q x with
        | false => rfl
        | true => rw [himp x h] at hpx; cases hpx
      rw [hqx]
      exact ih hp

theorem foldl_max_le {α : Type} {f : α → Nat} {b : Nat} (l : List α) : ∀ a : Nat, a ≤ b → (∀ x ∈ l, f x ≤ b) →
    l.foldl (fun m x => Nat.max m (f x)) a ≤ b := by
  induction l with
  | nil => intro a ha _; exact ha
  | cons x r ih =>
    intro a ha h
    exact ih _ (Nat.max_le.2 ⟨ha, h x List.mem_cons_self⟩) fun y hy => h y (List.mem_cons_of_mem x hy)

theorem le_foldl_max_init {α : Type} {f : α → Nat} (l : List α) : ∀ a : Nat, a ≤ l.foldl (fun m x => Nat.max m (f x)) a := by
  induction l with
  | nil => intro a; exact le_refl a
  | cons x r ih => intro a; exact (Nat.le_max_left _ _).trans (ih _)

theorem le_foldl_max {α : Type} {f : α → Nat} {x : α} (l : List α) : ∀ a : Nat, x ∈ l → f x ≤ l.foldl (fun m x => Nat.max m (f x)) a := by
  induction l with
  | nil => intro a hx; cases hx
  | cons y r ih =>
    intro a hx
    obtain rfl | hx := List.mem_cons.1 hx
    · exact (Nat.le_max_right _ _).trans (le_foldl_max_init r _)
    · exact ih _ hx

theorem pick_mem {α : Type} {tick n : Nat} {l : List α} (hl : l ≠ []) : ∃ a ∈ l, pick tick n l = some a := by
  match l with
  | [] => exact absurd rfl hl
  | [a] => exact ⟨a, List.mem_cons_self, rfl⟩
  | a :: b :: r =>
    have hlt : Config.choice tick n % (a :: b :: r).length < (a :: b :: r).length := Nat.mod_lt _ (Nat.succ_pos _)
    exact ⟨_, List.getElem_mem hlt, List.getElem?_eq_getElem hlt⟩

/-! ### What a group has seen -/

theorem mgetD_mput {α : Type} (m : Map α) (k j : Nat) (v d : α) : mgetD (mput m k v) j d = if k = j then v else mgetD m j d := by
  unfold mgetD
  rw [mget_mput]
  split <;> rfl

/-- One write read is seen: the moment of its byte rises to its own. -/
theorem mgetD_seenStep (m : Map Nat) (p : Nat × Nat) (pa : Nat) :
    mgetD (if mgetD m p.1 0 < p.2 then mput m p.1 p.2 else m) pa 0 = if p.1 = pa then Nat.max (mgetD m pa 0) p.2 else mgetD m pa 0 := by
  by_cases hlt : mgetD m p.1 0 < p.2
  · rw [if_pos hlt, mgetD_mput]
    by_cases hpa : p.1 = pa
    · subst hpa; rw [if_pos rfl, if_pos rfl]; exact (max_eq_right hlt.le).symm
    · rw [if_neg hpa, if_neg hpa]
  · rw [if_neg hlt]
    by_cases hpa : p.1 = pa
    · subst hpa; rw [if_pos rfl]; exact (max_eq_left (Nat.le_of_not_lt hlt)).symm
    · rw [if_neg hpa]

theorem mgetD_seenAdd_le {pa b : Nat} (l : List (Nat × Nat)) : ∀ m : Map Nat, mgetD m pa 0 ≤ b → (∀ p ∈ l, p.1 = pa → p.2 ≤ b) →
    mgetD (seenAdd m l) pa 0 ≤ b := by
  induction l with
  | nil => intro m hm _; exact hm
  | cons p r ih =>
    intro m hm h
    refine ih _ ?_ fun q hq => h q (List.mem_cons_of_mem p hq)
    rw [mgetD_seenStep]
    split
    · next hpa => exact Nat.max_le.2 ⟨hm, h p List.mem_cons_self hpa⟩
    · exact hm

theorem le_mgetD_seenAdd_self {pa : Nat} (l : List (Nat × Nat)) : ∀ m : Map Nat, mgetD m pa 0 ≤ mgetD (seenAdd m l) pa 0 := by
  induction l with
  | nil => intro m; exact le_refl _
  | cons p r ih =>
    intro m
    refine le_trans ?_ (ih _)
    rw [mgetD_seenStep]
    split
    · exact Nat.le_max_left _ _
    · exact le_refl _

theorem le_mgetD_seenAdd {p : Nat × Nat} (l : List (Nat × Nat)) : ∀ m : Map Nat, p ∈ l → p.2 ≤ mgetD (seenAdd m l) p.1 0 := by
  induction l with
  | nil => intro m hp; cases hp
  | cons q r ih =>
    intro m hp
    obtain rfl | hp := List.mem_cons.1 hp
    · refine le_trans ?_ (le_mgetD_seenAdd_self r _)
      rw [mgetD_seenStep, if_pos rfl]
      exact Nat.le_max_right _ _
    · exact ih _ hp

/-! ### Moments of a read -/

section
variable {s : State} {r : Reader} {pas : List Nat} {pa c : Nat}

/-- The moment of the write that a read at a cut finds, 0 where it finds none. -/
def newestId (s : State) (r : Reader) (c pa : Nat) : Nat := ((newestAt s r c pa).map (·.id)).getD 0

theorem seen_le_floorOf : mgetD r.seen pa 0 ≤ floorOf s r pa := Nat.le_max_left _ _

/-- The test of a forced write: it was visible by the reader's refresh point (R143). -/
def forced (r : Reader) (e : Pub) : Bool :=
  match visAt r e with
  | some m => decide (m ≤ r.rho[between e.who r.who])
  | none => false

theorem floorOf_eq : floorOf s r pa = Nat.max (mgetD r.seen pa 0) (((visEvents s r pa).filter (forced r)).foldl (fun m e => Nat.max m e.id) 0) := rfl

theorem id_le_floorOf {e : Pub} (he : e ∈ visEvents s r pa) (hf : forced r e = true) : e.id ≤ floorOf s r pa := by
  rw [floorOf_eq]
  exact (le_foldl_max _ 0 (List.mem_filter.2 ⟨he, hf⟩)).trans (Nat.le_max_right _ _)

theorem floorOf_le {b : Nat} (hseen : mgetD r.seen pa 0 ≤ b) (hid : ∀ e ∈ visEvents s r pa, e.id ≤ b) : floorOf s r pa ≤ b := by
  rw [floorOf_eq]
  exact Nat.max_le.2 ⟨hseen, foldl_max_le _ 0 (Nat.zero_le b) fun e he => hid e (List.mem_of_mem_filter he)⟩

theorem mem_visEvents {e : Pub} : e ∈ visEvents s r pa ↔
    e ∈ s.events ∧ writesByte e pa = true ∧ ((visAt r e).isSome = true ∨ mgetD r.seen pa 0 = e.id) := by
  rw [visEvents, List.mem_filter, Bool.and_eq_true, Bool.or_eq_true, decide_eq_true_eq]

theorem mem_cuts : c ∈ cuts s r pas ↔ (c = 0 ∨ ∃ pa ∈ pas, ∃ e ∈ visEvents s r pa, e.id = c) ∧
    ∀ pa ∈ pas, floorOf s r pa ≤ newestId s r c pa := by
  simp only [cuts, List.mem_filter, List.mem_eraseDups, List.mem_cons, List.mem_flatMap, List.mem_map, List.all_eq_true,
    decide_eq_true_eq, newestId]

/-! ### A byte whose newest write is forced -/

variable {e : Pub}

theorem mustRead_visible (h : MustRead s r pa e) : e ∈ visEvents s r pa ∧ forced r e = true := by
  obtain ⟨hfirst, -, -, m, hvis, hrho⟩ := h
  refine ⟨mem_visEvents.2 ⟨List.mem_of_find?_eq_some hfirst, ?_, .inl (by rw [hvis]; rfl)⟩, ?_⟩
  · exact List.find?_some (p := fun e => writesByte e pa) hfirst
  · rw [forced, hvis]; exact decide_eq_true hrho

theorem mustRead_id_le (h : MustRead s r pa e) {e' : Pub} (he' : e' ∈ visEvents s r pa) : e' = e ∨ e'.id < e.id := by
  obtain ⟨-, hnewest, -⟩ := h
  obtain ⟨hmem, hwrites, -⟩ := mem_visEvents.1 he'
  exact hnewest e' hmem hwrites

theorem mustRead_floorOf_le (h : MustRead s r pa e) : floorOf s r pa ≤ e.id := by
  refine floorOf_le h.2.2.1 fun e' he' => ?_
  obtain rfl | hlt := mustRead_id_le h he'
  · exact le_refl _
  · exact hlt.le

/-- At every moment that a read may take, the byte's newest write is the one found. -/
theorem mustRead_newestAt (h : MustRead s r pa e) (hpa : pa ∈ pas) (hc : c ∈ cuts s r pas) : newestAt s r c pa = some e := by
  obtain ⟨hvis, hf⟩ := mustRead_visible h
  have hfloor : e.id ≤ newestId s r c pa := (id_le_floorOf hvis hf).trans ((mem_cuts.1 hc).2 pa hpa)
  rw [newestId] at hfloor
  cases hn : newestAt s r c pa with
  | none =>
    rw [hn] at hfloor
    have hnone : ¬ decide (e.id ≤ c) = true := List.find?_eq_none.1 hn e hvis
    exact absurd (decide_eq_true ((Nat.le_zero.1 hfloor).le.trans (Nat.zero_le c))) hnone
  | some x =>
    rw [hn] at hfloor
    obtain rfl | hlt := mustRead_id_le h (List.mem_of_find?_eq_some hn)
    · rfl
    · exact absurd hfloor (Nat.not_le.2 hlt)

theorem mustRead_newestAt_of_le (h : MustRead s r pa e) (hc : e.id ≤ c) : newestAt s r c pa = some e := by
  obtain ⟨hvis, -⟩ := mustRead_visible h
  obtain ⟨-, hwrites, hseen⟩ := mem_visEvents.1 hvis
  rw [newestAt, visEvents, List.find?_filter]
  refine find?_eq_some_of_imp (fun x hx => ?_) h.1 ?_
  · simp only [decide_eq_true_eq, Bool.and_eq_true] at hx
    exact hx.1.1
  · simpa [hwrites, hc] using hseen

/-- A unit all of whose newest writes are forced has a moment at which it may be read: that of the newest of them. -/
theorem cuts_ne_nil_of_mustRead {e : Nat → Pub} (h : ∀ pa ∈ pas, MustRead s r pa (e pa)) : cuts s r pas ≠ [] := by
  have hex : ∃ c, c ∈ cuts s r pas := by
    cases hpas : pas with
    | nil => exact ⟨0, mem_cuts.2 ⟨.inl rfl, fun pa hpa => absurd hpa List.not_mem_nil⟩⟩
    | cons pa₀ rest =>
      rw [← hpas]
      obtain ⟨x, hx, hmax⟩ := Finset.exists_max_image pas.toFinset (fun pa => (e pa).id) ⟨pa₀, by rw [hpas]; simp⟩
      rw [List.mem_toFinset] at hx
      refine ⟨(e x).id, mem_cuts.2 ⟨.inr ⟨x, hx, e x, (mustRead_visible (h x hx)).1, rfl⟩, fun pa hpa => ?_⟩⟩
      rw [newestId, mustRead_newestAt_of_le (h pa hpa) (hmax pa (List.mem_toFinset.2 hpa))]
      exact mustRead_floorOf_le (h pa hpa)
  obtain ⟨c, hc⟩ := hex
  exact List.ne_nil_of_mem hc

end

/-! ### Reads of a group -/

section
variable {s : State} {gid : Nat} {g : Group} {salt : Nat} {t : Trans} {n : Nat}

theorem physBytes_length (t : Trans) (n : Nat) : (physBytes t n).length = n := by
  unfold physBytes
  split <;> rw [List.length_map, List.length_range]

/-- The moment that a read of a unit takes. -/
def readCut (s : State) (r : Reader) (salt : Nat) (pas : List Nat) : Nat :=
  (pick s.tick (2 ^ 80 + salt * 2 ^ 64 + pas.headD 0) (cuts s r pas)).getD s.fresh

theorem readCut_mem {r : Reader} {pas : List Nat} (h : cuts s r pas ≠ []) : readCut s r salt pas ∈ cuts s r pas := by
  obtain ⟨c, hc, hpick⟩ := pick_mem (tick := s.tick) (n := 2 ^ 80 + salt * 2 ^ 64 + pas.headD 0) h
  rw [readCut, hpick]; exact hc

theorem readUnit_eq (s : State) (r : Reader) (salt : Nat) (pas : List Nat) : readUnit s r salt pas =
    pas.map fun pa => (byteUnder s r pa (newestAt s r (readCut s r salt pas) pa), newestId s r (readCut s r salt pas) pa) := rfl

theorem zip_map_self {α β : Type} (f : α → β) (l : List α) : l.zip (l.map f) = l.map fun a => (a, f a) := by
  induction l with
  | nil => rfl
  | cons a r ih => rw [List.map_cons, List.zip_cons_cons, ih, List.map_cons]

theorem find?_map_self {β : Type} {f : Nat → β} {a : Nat} (l : List Nat) (ha : a ∈ l) :
    (l.map fun x => (x, f x)).find? (·.1 == a) = some (a, f a) := by
  induction l with
  | nil => cases ha
  | cons x r ih =>
    rw [List.map_cons, List.find?_cons]
    by_cases hx : x = a
    · subst hx; rw [beq_self_eq_true]
    · rw [beq_eq_false_iff_ne.2 hx]
      exact ih ((List.mem_cons.1 ha).resolve_left fun h => hx h.symm)

theorem zip_snd (t : Trans) (n : Nat) : ((List.range n).zip (physBytes t n)).map (·.2) = physBytes t n :=
  List.map_snd_zip (by rw [physBytes_length, List.length_range])

theorem fst_of_mem_zip {p : Nat × Option Nat} (hp : p ∈ (List.range n).zip (physBytes t n)) : p.1 < n :=
  List.mem_range.1 (List.of_mem_zip hp).1

/-- What a group reads of a unit that it has no pending byte of: each byte as the write left it that the read's moment finds, 0 where a
trimmed page stores none. -/
theorem readGroup_of_noPend (hp : ∀ i, i < n → pendByte g t i = none) :
    readGroup s gid g true salt t n =
      let r := g.reader s gid t.key
      let unit := (physBytes t n).filterMap id
      ((physBytes t n).map fun p => p.elim 0 fun pa => byteUnder s r pa (newestAt s r (readCut s r salt unit) pa),
        seenAdd g.seen (unit.map fun pa => (pa, newestId s r (readCut s r salt unit) pa))) := by
  have hlive : (((List.range n).zip (physBytes t n)).filter fun p => !(true && (pendByte g t p.1).isSome)) =
      (List.range n).zip (physBytes t n) :=
    List.filter_eq_self.2 fun p hpz => by rw [hp p.1 (fst_of_mem_zip hpz)]; rfl
  have hunit : ((List.range n).zip (physBytes t n)).filterMap (·.2) = (physBytes t n).filterMap id := by
    rw [← zip_snd t n, List.filterMap_map, zip_snd]; rfl
  unfold readGroup
  simp only [hlive, hunit, readUnit_eq, zip_map_self, List.map_map]
  refine Prod.ext ?_ rfl
  show ((List.range n).zip (physBytes t n)).map _ = _
  rw [← zip_snd t n, List.map_map]
  rw [zip_snd]
  refine List.map_congr_left fun p hpz => ?_
  obtain ⟨i, x⟩ := p
  simp only [if_true, hp i (fst_of_mem_zip hpz), Function.comp_apply]
  cases x with
  | none => rfl
  | some pa =>
    have hmem : pa ∈ (physBytes t n).filterMap id := List.mem_filterMap.2 ⟨some pa, (List.of_mem_zip hpz).2, rfl⟩
    simp only [find?_map_self _ hmem]; rfl

/-- What a group reads of a unit whose bytes its pending stores hold: their newest, and no write of memory. -/
theorem readGroup_of_pend {bs : List Byte} (hlen : bs.length = n) (hp : ∀ i, i < n → pendByte g t i = bs[i]?) :
    readGroup s gid g true salt t n = (bs, g.seen) := by
  have hlive : (((List.range n).zip (physBytes t n)).filter fun p => !(true && (pendByte g t p.1).isSome)) = [] := by
    refine List.filter_eq_nil_iff.2 fun p hpz => ?_
    have hlt : p.1 < bs.length := hlen ▸ fst_of_mem_zip hpz
    rw [hp p.1 (fst_of_mem_zip hpz), List.getElem?_eq_getElem hlt]
    exact Bool.false_ne_true
  unfold readGroup
  simp only [hlive]
  refine Prod.ext ?_ rfl
  show ((List.range n).zip (physBytes t n)).map _ = bs
  refine List.ext_getElem (by rw [List.length_map, List.length_zip, physBytes_length, List.length_range, Nat.min_self, hlen]) fun i h1 h2 => ?_
  rw [List.getElem_map, List.getElem_zip, List.getElem_range]
  simp only [if_true, hp i (hlen ▸ h2), List.getElem?_eq_getElem h2]

/-- Every byte of a unit whose read has a moment is that of a visible write not older than the floor, or the initial one, which the
group has then seen (R143 steps 2 and 3). -/
theorem readGroup_values (hp : ∀ i, i < n → pendByte g t i = none)
    (hcuts : cuts s (g.reader s gid t.key) ((physBytes t n).filterMap id) ≠ []) :
    ∃ w : Nat → Option Pub, ∀ i pa : Nat, (physBytes t n)[i]? = some (some pa) →
      (∀ e, w pa = some e → e ∈ visEvents s (g.reader s gid t.key) pa) ∧
      floorOf s (g.reader s gid t.key) pa ≤ ((w pa).map (·.id)).getD 0 ∧
      (readGroup s gid g true salt t n).1[i]? = some (byteUnder s (g.reader s gid t.key) pa (w pa)) ∧
      mgetD (readGroup s gid g true salt t n).2 pa 0 = ((w pa).map (·.id)).getD 0 := by
  have hc := readCut_mem (salt := salt) hcuts
  obtain ⟨-, hfloor⟩ := mem_cuts.1 hc
  refine ⟨fun pa => newestAt s (g.reader s gid t.key) (readCut s (g.reader s gid t.key) salt ((physBytes t n).filterMap id)) pa,
    fun i pa hi => ?_⟩
  have hmem : pa ∈ (physBytes t n).filterMap id := List.mem_filterMap.2 ⟨some pa, List.mem_of_getElem? hi, rfl⟩
  rw [readGroup_of_noPend hp]
  refine ⟨fun e he => List.mem_of_find?_eq_some he, hfloor pa hmem, ?_, le_antisymm ?_ ?_⟩
  · show ((physBytes t n).map _)[i]? = _
    rw [List.getElem?_map, hi]; rfl
  · refine mgetD_seenAdd_le _ _ (seen_le_floorOf.trans (hfloor pa hmem)) fun p hpm hpa => ?_
    obtain ⟨x, -, rfl⟩ := List.mem_map.1 hpm
    obtain rfl : x = pa := hpa
    exact le_refl _
  · exact le_mgetD_seenAdd (p := (pa, newestId s (g.reader s gid t.key) _ pa)) _ _ (List.mem_map_of_mem hmem)

/-! ### The whole of a load -/

/-- What a load reads: a load of 16 bytes is two reads of 8, the second after the group has seen the first (R134). -/
def readHalves (s : State) (gid : Nat) (g : Group) (salt : Nat) (t : Trans) (n : Nat) : List Byte × Map Nat :=
  let r := readGroup s gid g true salt t (if n = 16 then 8 else n)
  let r2 := if n = 16 then readGroup s gid { g with seen := r.2 } true salt { t with pa := t.pa + 8 } 8 else ([], r.2)
  (r.1 ++ r2.1, r2.2)

/-- A load with the bytes it has read. -/
def loadWith (s : State) (lane : Option Nat) (names : List Nat) (sz : BitVec 3) (a : DWord) (held : Option Nat) (bs : List Byte) (bad : Bool) : Load :=
  { id := s.fresh, lane := lane, names := names, sz := sz, val := some (BitVec.ofNat 128 (leNat bs)), bad := bad, addr := a, held := held }

/-- A load that asks no peer has its value at issue. -/
theorem startLoadOp_near {lane : Option Nat} {names : List Nat} {sz : BitVec 3} {a : DWord} {held : Option Nat}
    (hg : mget s.groups gid = some g) (ht : t = transOf s g (lane.getD 0) a .read)
    (hnear : ¬ (t.kind = .remote ∧ !((List.range (szBytes sz)).all fun i => (pendByte g t i).isSome))) :
    startLoadOp s gid lane names sz a held =
      let r := readHalves s gid g (lane.getD 0) t (szBytes sz)
      let ld := loadWith s lane names sz a held r.1 (metError s g t (szBytes sz))
      { setGroup s gid { g with loads := g.loads ++ [ld], seen := r.2 } with fresh := s.fresh + 1 } := by
  subst ht
  unfold startLoadOp
  rw [hg]
  exact if_neg hnear

theorem pendByte_shift (k i : Nat) : pendByte g { t with pa := t.pa + k } i = pendByte g t (k + i) := by
  simp only [pendByte, Nat.add_assoc]

theorem readHalves_of_pend {bs : List Byte} (hlen : bs.length = n) (hp : ∀ i, i < n → pendByte g t i = bs[i]?) :
    readHalves s gid g salt t n = (bs, g.seen) := by
  by_cases hn : n = 16
  · subst hn
    have hlow : readGroup s gid g true salt t 8 = (bs.take 8, g.seen) :=
      readGroup_of_pend (by rw [List.length_take, hlen]; rfl) fun i hi => by rw [hp i (by omega), List.getElem?_take_of_lt hi]
    have hhigh : readGroup s gid g true salt { t with pa := t.pa + 8 } 8 = (bs.drop 8, g.seen) :=
      readGroup_of_pend (by rw [List.length_drop, hlen]) fun i hi => by rw [pendByte_shift, hp (8 + i) (by omega), List.getElem?_drop]
    simp only [readHalves, if_true, hlow, hhigh, List.take_append_drop]
  · simp only [readHalves, if_neg hn, readGroup_of_pend hlen hp, List.append_nil]

/-- A load all of whose bytes are pending meets no error of memory. -/
theorem metError_of_pend {bs : List Byte} (hlen : bs.length = n) (hp : ∀ i, i < n → pendByte g t i = bs[i]?) : metError s g t n = false := by
  have hany : (((List.range n).zip (physBytes t n)).any fun p => (pendByte g t p.1).isNone && p.2.any (badByte s)) = false := by
    refine List.any_eq_false.2 fun p hpz => ?_
    have hlt : p.1 < bs.length := hlen ▸ fst_of_mem_zip hpz
    rw [hp p.1 (fst_of_mem_zip hpz), List.getElem?_eq_getElem hlt]
    exact Bool.false_ne_true
  rw [metError, hany, Bool.and_false]

/-- A load all of whose bytes the group's pending stores hold (R143 step 1). -/
theorem startLoadOp_of_pend {lane : Option Nat} {names : List Nat} {sz : BitVec 3} {a : DWord} {held : Option Nat} {bs : List Byte}
    (hg : mget s.groups gid = some g) (hlen : bs.length = szBytes sz)
    (hp : ∀ i, i < szBytes sz → pendByte g (transOf s g (lane.getD 0) a .read) i = bs[i]?) :
    startLoadOp s gid lane names sz a held =
      { setGroup s gid { g with loads := g.loads ++ [loadWith s lane names sz a held bs false] } with fresh := s.fresh + 1 } := by
  have hown : ((List.range (szBytes sz)).all fun i => (pendByte g (transOf s g (lane.getD 0) a .read) i).isSome) = true := by
    refine List.all_eq_true.2 fun i hi => ?_
    have hlt := List.mem_range.1 hi
    rw [hp i hlt, List.getElem?_eq_getElem (hlen ▸ hlt)]; rfl
  rw [startLoadOp_near hg rfl (by rw [hown]; rintro ⟨-, h⟩; cases h)]
  simp only [readHalves_of_pend hlen hp, metError_of_pend hlen hp]

/-! ### A load whose newest writes are forced -/

/-- The bytes of a unit under a choice of the write of each. -/
def bytesUnder (s : State) (r : Reader) (e : Nat → Pub) (ps : List (Option Nat)) : List Byte :=
  ps.map fun p => p.elim 0 fun pa => byteUnder s r pa (some (e pa))

/-- A read of forced writes gives their bytes and sees nothing newer. -/
theorem readGroup_of_mustRead {e : Nat → Pub} (hp : ∀ i, i < n → pendByte g t i = none)
    (hmust : ∀ pa, some pa ∈ physBytes t n → MustRead s (g.reader s gid t.key) pa (e pa)) :
    (readGroup s gid g true salt t n).1 = bytesUnder s (g.reader s gid t.key) e (physBytes t n) ∧
    ∀ pa b, mgetD g.seen pa 0 ≤ b → (some pa ∈ physBytes t n → (e pa).id ≤ b) → mgetD (readGroup s gid g true salt t n).2 pa 0 ≤ b := by
  have hmem : ∀ pa, pa ∈ (physBytes t n).filterMap id → some pa ∈ physBytes t n := fun pa h => by
    obtain ⟨x, hx, hid⟩ := List.mem_filterMap.1 h
    rwa [← show x = some pa from hid]
  have hcut := readCut_mem (salt := salt) (cuts_ne_nil_of_mustRead fun pa h => hmust pa (hmem pa h))
  have hnewest := fun pa h => mustRead_newestAt (hmust pa (hmem pa h)) h hcut
  rw [readGroup_of_noPend hp]
  constructor
  · refine List.map_congr_left fun p hpm => ?_
    cases p with
    | none => rfl
    | some pa => exact congrArg (byteUnder s _ pa) (hnewest pa (List.mem_filterMap.2 ⟨some pa, hpm, rfl⟩))
  · intro pa b hseen hb
    refine mgetD_seenAdd_le _ _ hseen fun p hpm hpa => ?_
    obtain ⟨x, hx, rfl⟩ := List.mem_map.1 hpm
    obtain rfl : x = pa := hpa
    show newestId _ _ _ _ ≤ b
    rw [newestId, hnewest x hx]
    exact hb (hmem x hx)

theorem physBytes_split : physBytes t 16 = physBytes t 8 ++ physBytes { t with pa := t.pa + 8 } 8 := by
  have hrange : List.range 16 = List.range 8 ++ (List.range 8).map (8 + ·) := rfl
  unfold physBytes
  cases t.kind <;> simp only [hrange, List.map_append, List.map_map, Function.comp_def, Nat.add_assoc]

theorem readHalves_of_mustRead {e : Nat → Pub} (hp : ∀ i, i < n → pendByte g t i = none)
    (hmust : ∀ pa, some pa ∈ physBytes t n → MustRead s (g.reader s gid t.key) pa (e pa)) :
    (readHalves s gid g salt t n).1 = bytesUnder s (g.reader s gid t.key) e (physBytes t n) := by
  by_cases hn : n = 16
  · subst hn
    rw [physBytes_split] at hmust ⊢
    have hmustLow := fun pa h => hmust pa (List.mem_append_left _ h)
    obtain ⟨hlow, hseen⟩ := readGroup_of_mustRead (salt := salt) (fun i hi => hp i (by omega)) hmustLow
    have hmustHigh : ∀ pa, some pa ∈ physBytes { t with pa := t.pa + 8 } 8 →
        MustRead s (({ g with seen := (readGroup s gid g true salt t 8).2 } : Group).reader s gid t.key) pa (e pa) := fun pa h => by
      obtain ⟨hfirst, hnewest, hle, hvis⟩ := hmust pa (List.mem_append_right _ h)
      exact ⟨hfirst, hnewest, hseen pa _ hle fun _ => le_refl _, hvis⟩
    obtain ⟨hhigh, -⟩ := readGroup_of_mustRead (salt := salt) (t := { t with pa := t.pa + 8 })
      (g := { g with seen := (readGroup s gid g true salt t 8).2 })
      (fun i hi => (pendByte_shift 8 i).trans (hp (8 + i) (by omega))) hmustHigh
    simp only [readHalves, if_true, hlow, hhigh, bytesUnder, List.map_append]
    rfl
  · simp only [readHalves, if_neg hn, List.append_nil, (readGroup_of_mustRead hp hmust).1]

end

/-- The value of a global load, from its pending bytes, from the writes its group may see, and from a newest write that is forced. -/
theorem loadValues : LoadValues := by
  refine ⟨fun s gid g lane names sz a held bs hg hlen hp => startLoadOp_of_pend hg hlen hp,
    fun s gid g salt t n hp hcuts => readGroup_values hp hcuts, ?_⟩
  intro s gid g lane names sz a held t e hg ht hkind hp hmust
  rw [startLoadOp_near hg ht fun h => hkind h.1]
  refine ⟨_, _, mget_mput_self _ _ _, rfl, rfl, ?_⟩
  refine congrArg (fun bs => some (BitVec.ofNat 128 (leNat bs))) ((readHalves_of_mustRead hp hmust).trans ?_)
  exact List.map_congr_left fun p _ => by cases p <;> rfl

end Sys2Proof.Machine

namespace Sys2Proof
open Sys2Proof.Machine

/-- Settles O11: the checks pass and the loads start, each with the value that R143 gives. -/
theorem globalLoadsComplete : Obligations.GlobalLoadsComplete := ⟨globalLoadsIssue, loadValues⟩

end Sys2Proof
end

section
/-! PROOFS. Scratch loads and stores: what holds a scratch access, and what a write leaves of the scratchpad (R123 to R127, R153, R157,
R230). -/

namespace Sys2Proof.Machine
open Sys2Proof.Claim

/-! ### Accesses that nothing holds -/

section
variable {s : State} {g : Group} {tid : Nat} {t : Team}

theorem issuerTeam_bind {α : Type} (ht : TeamOf s g tid t) (k : Nat × Team → R α) : (issuerTeam s g >>= k) = k (tid, t) := by
  obtain ⟨hteam, hget⟩ := ht
  rw [issuerTeam, hteam]
  simp only [hget]
  rfl

theorem scratchHold_ok {store : Bool} {offs : List (Nat × Nat)} (h : ScratchFree s tid t store offs) :
    scratchHold s tid t s.cur.group (lineWait t store) offs = .ok () := by
  obtain ⟨hoffs, hseq⟩ := h
  have hlines : ∀ l ∈ offs.flatMap (fun p => linesOf p.1 p.2), (t.line l).spilled = false ∧ (t.line l).absent = false ∧
      (store = true → (t.line l).engine = false) := fun l hl => by
    obtain ⟨p, hp, hlp⟩ := List.mem_flatMap.1 hl
    exact (hoffs p hp).1 l hlp
  have hspill : anySpilled t (offs.flatMap fun p => linesOf p.1 p.2) = false :=
    List.any_eq_false.2 fun l hl => by rw [(hlines l hl).1]; exact Bool.false_ne_true
  have habsent : ((offs.flatMap fun p => linesOf p.1 p.2).any fun l => (t.line l).absent) = false :=
    List.any_eq_false.2 fun l hl => by rw [(hlines l hl).2.1]; exact Bool.false_ne_true
  have hwait : lineWait t store (offs.flatMap fun p => linesOf p.1 p.2) = none := by
    cases store with
    | false => rw [lineWait, if_neg Bool.false_ne_true, habsent]; rfl
    | true =>
      have hboth : ((offs.flatMap fun p => linesOf p.1 p.2).any fun l => (t.line l).engine || (t.line l).absent) = false :=
        List.any_eq_false.2 fun l hl => by rw [(hlines l hl).2.1, (hlines l hl).2.2 rfl]; exact Bool.false_ne_true
      rw [lineWait, if_pos rfl, hboth]; rfl
  have hfill : (offs.any fun p => needsFill t p.1) = false :=
    List.any_eq_false.2 fun p hp => by rw [(hoffs p hp).2]; exact Bool.false_ne_true
  simp only [scratchHold, hspill, hseq, hwait, hfill]
  rfl

theorem scratchHold_bind {α : Type} {store : Bool} {offs : List (Nat × Nat)} (h : ScratchFree s tid t store offs) (k : Unit → R α) :
    (scratchHold s tid t s.cur.group (lineWait t store) offs >>= k) = k () := by rw [scratchHold_ok h]; rfl

theorem badLine_none {a : DWord} (h : a.toNat / 256 ∉ t.badLines) : badLine t a = none := by
  rw [badLine, if_neg]
  rwa [List.contains_iff_mem]

/-! ### LDS (R230) -/

variable {o : MemOps} (hi : Issues s g) (ht : TeamOf s g tid t)
include hi ht

theorem exec_lds_uni (hd : isUni o.d = true) (hfree : UniFree s g [o.base.toNat, uniIdx o.x] [uniIdx o.d])
    (hchk : scratchTrap s g t 0 (uniAddr g o) (szBytes o.sz) false = none)
    (hscratch : ScratchFree s tid t false [((uniAddr g o).toNat, szBytes o.sz)]) (hbad : (uniAddr g o).toNat / 256 ∉ t.badLines) :
    exec (.lds o) s = .next (done (setTeam s tid (t.touch s.tick (linesOf (uniAddr g o).toNat (szBytes o.sz))))
      (g.wrW (uniIdx o.d) (loadUni o.sz (leNat (t.read (uniAddr g o).toNat (szBytes o.sz)))))) := by
  show finish (ldsStep s o) = _
  unfold uniAddr at *
  simp only [ldsStep, issuer_bind hi, issuerTeam_bind ht, hd, if_true, useW_bind hfree, hchk, scratchHold_bind hscratch, badLine_none hbad]
  rfl

theorem exec_lds_vec (hd : isUni o.d = false) (hfree : MemFree s g o.base [(o.x, o.lx)] (destRegs o.d (szRegs o.sz)))
    (hchk : ∀ l ∈ cohort s, scratchTrap s g t l.val (laneAddr g o l) (szBytes o.sz) false = none ∧ (laneAddr g o l).toNat / 256 ∉ t.badLines)
    (hscratch : ScratchFree s tid t false ((cohort s).map fun l => ((laneAddr g o l).toNat, szBytes o.sz))) :
    exec (.lds o) s = .next (done
      (setTeam s tid (t.touch s.tick ((cohort s).flatMap fun l => linesOf (laneAddr g o l).toNat (szBytes o.sz))))
      (g.vecCommit s.tick (cohort s) [(o.x, o.lx)] (destRegs o.d (szRegs o.sz)) fun l =>
        { vals := loadWords o.sz (leNat (t.read (laneAddr g o l).toNat (szBytes o.sz))), flags := 0 })) := by
  have hready : memReady s g o.base [(o.x, o.lx)] (destRegs o.d (szRegs o.sz)) (fun l =>
      (scratchTrap s g t l.val (laneAddr g o l) (szBytes o.sz) false).or (badLine t (laneAddr g o l))) = .ok () :=
    memReady_ok hfree fun l hl => by rw [(hchk l hl).1, badLine_none (hchk l hl).2]; rfl
  show finish (ldsStep s o) = _
  unfold laneAddr at *
  simp only [ldsStep, issuer_bind hi, issuerTeam_bind ht, hd, Bool.false_eq_true, if_false, hready, ok_bind, scratchHold_bind hscratch]
  rfl

/-! ### STS (R230, R127) -/

theorem exec_sts_uni (hd : isUni o.d = true) (hfree : UniFree s g [o.base.toNat, uniIdx o.x, uniIdx o.d] [])
    (hchk : scratchTrap s g t 0 (uniAddr g o) (szBytes o.sz) true = none)
    (hscratch : ScratchFree s tid t true [((uniAddr g o).toNat, szBytes o.sz)]) :
    exec (.sts o) s = .next (done (setTeam s tid (putScratch s s.cur.group g 0 t (uniAddr g o).toNat
      (leList (g.rdW (uniIdx o.d)).toNat (szBytes o.sz)))) g) := by
  show finish (stsStep s o) = _
  unfold uniAddr at *
  simp only [stsStep, issuer_bind hi, issuerTeam_bind ht, hd, if_true, useW_bind hfree, hchk, scratchHold_bind hscratch]
  rfl

theorem exec_sts_vec (hd : isUni o.d = false) (hfree : MemFree s g o.base (storeReads o) [])
    (hchk : ∀ l ∈ cohort s, scratchTrap s g t l.val (laneAddr g o l) (szBytes o.sz) true = none)
    (hscratch : ScratchFree s tid t true ((cohort s).map fun l => ((laneAddr g o l).toNat, szBytes o.sz))) :
    exec (.sts o) s = .next (done (setTeam s tid ((cohort s).foldl (fun t l => putScratch s s.cur.group g l.val t (laneAddr g o l).toNat
      (laneData g l (destRegs o.d (szRegs o.sz)) (szBytes o.sz))) t)) (readOnly s g (storeReads o))) := by
  have hready := memReady_ok hfree hchk
  show finish (stsStep s o) = _
  unfold laneAddr storeReads at *
  simp only [stsStep, issuer_bind hi, issuerTeam_bind ht, hd, Bool.false_eq_true, if_false, hready, ok_bind, scratchHold_bind hscratch]
  rfl

end

/-! ### What a write leaves of the scratchpad (R125) -/

section
variable {t : Team} {now off : Nat} {bs : List Byte}

theorem line_setLine (t : Team) (l l' : Nat) (x : Line) : (t.setLine l x).line l' = if l = l' then x else t.line l' := by
  unfold Team.setLine Team.line
  exact mgetD_mputD _ _ _ _ _

@[simp] theorem line_touch (t : Team) (now : Nat) (ls : List Nat) (l : Nat) : (t.touch now ls).line l = t.line l := rfl
@[simp] theorem scratch_touch (t : Team) (now : Nat) (ls : List Nat) : (t.touch now ls).scratch = t.scratch := rfl
@[simp] theorem scratch_setLine (t : Team) (l : Nat) (x : Line) : (t.setLine l x).scratch = t.scratch := rfl

/-- Lines whose written bits are set. -/
def markWritten (t : Team) (ls : List Nat) : Team := ls.foldl (fun t l => t.setLine l { t.line l with written := true }) t

theorem write_eq (t : Team) (now off : Nat) (bs : List Byte) :
    t.write now off bs = (markWritten { t with scratch := wrBytes t.scratch off bs } (linesOf off bs.length)).touch now (linesOf off bs.length) := rfl

@[simp] theorem scratch_markWritten (ls : List Nat) : ∀ t : Team, (markWritten t ls).scratch = t.scratch := by
  induction ls with
  | nil => intro t; rfl
  | cons l r ih => intro t; exact ih _

theorem line_markWritten (l : Nat) (ls : List Nat) : ∀ t : Team,
    (markWritten t ls).line l = if l ∈ ls then { t.line l with written := true } else t.line l := by
  induction ls with
  | nil => intro t; rfl
  | cons k r ih =>
    intro t
    rw [markWritten, List.foldl_cons]
    refine (ih _).trans ?_
    rw [line_setLine]
    by_cases hk : k = l
    · subst hk
      simp
    · have hk' : ¬ l = k := fun h => hk h.symm
      simp [hk, hk']

@[simp] theorem scratch_write (t : Team) (now off : Nat) (bs : List Byte) : (t.write now off bs).scratch = wrBytes t.scratch off bs := by
  rw [write_eq, scratch_touch, scratch_markWritten]

theorem line_write (t : Team) (now off : Nat) (bs : List Byte) (l : Nat) :
    (t.write now off bs).line l = if l ∈ linesOf off bs.length then { t.line l with written := true } else t.line l := by
  rw [write_eq, line_touch, line_markWritten]; rfl

/-- Every byte of a range lies in a line of the range. -/
theorem mem_linesOf {off n i : Nat} (hi : i < n) : (off + i) / 256 ∈ linesOf off n := by
  rw [linesOf, if_neg (by omega), List.mem_map]
  refine ⟨(off + i) / 256 - off / 256, List.mem_range.2 ?_, ?_⟩
  · have h1 : (off + i) / 256 ≤ (off + n - 1) / 256 := Nat.div_le_div_right (by omega)
    omega
  · have h2 : off / 256 ≤ (off + i) / 256 := Nat.div_le_div_right (by omega)
    omega

/-- The bytes of a range of which every line is written. -/
theorem read_eq_of_written {n : Nat} (h : ∀ l ∈ linesOf off n, (t.line l).written = true) : t.read off n = rdBytes t.scratch off n := by
  have hread : t.read off n = (List.range n).map fun i => rdByte t.scratch (off + i) :=
    List.map_congr_left fun i hi => if_pos (h _ (mem_linesOf (List.mem_range.1 hi)))
  rw [hread]
  clear hread h
  induction n generalizing off with
  | zero => rfl
  | succ n ih =>
    rw [List.range_succ_eq_map, List.map_cons, List.map_map, rdBytes, ← ih]
    exact congrArg₂ _ rfl (List.map_congr_left fun i _ => congrArg (rdByte t.scratch) (by rw [Nat.succ_eq_add_one]; omega))

/-- Bytes stored read back. -/
theorem read_write_self (t : Team) (now off : Nat) (bs : List Byte) : (t.write now off bs).read off bs.length = bs := by
  rw [read_eq_of_written fun l hl => by rw [line_write, if_pos hl], scratch_write, rdBytes_wrBytes_self]

/-! ### Stores in a stash window -/

@[simp] theorem line_markDirty (t : Team) (gid : Nat) (tr : Nat → Option Trans) (off n l : Nat) : (t.markDirty gid tr off n).line l = t.line l := rfl
@[simp] theorem scratch_markDirty (t : Team) (gid : Nat) (tr : Nat → Option Trans) (off n : Nat) : (t.markDirty gid tr off n).scratch = t.scratch := rfl
@[simp] theorem read_markDirty (t : Team) (gid : Nat) (tr : Nat → Option Trans) (off n off' n' : Nat) :
    (t.markDirty gid tr off n).read off' n' = t.read off' n' := rfl

theorem leList_length (v : Nat) (k : Nat) : (leList v k).length = k := by
  induction k generalizing v with
  | zero => rfl
  | succ k ih => rw [leList, List.length_cons, ih]

/-- What a thread's store leaves: its bytes read back, every other byte and line is as it was. -/
theorem putScratch_spec (s : State) (gid : Nat) (g : Group) (lane : Nat) (t : Team) (off : Nat) (bs : List Byte) :
    (putScratch s gid g lane t off bs).read off bs.length = bs ∧
    (∀ a, a < off ∨ off + bs.length ≤ a → rdByte (putScratch s gid g lane t off bs).scratch a = rdByte t.scratch a) ∧
    ∀ l, l ∉ linesOf off bs.length → (putScratch s gid g lane t off bs).line l = t.line l := by
  refine ⟨?_, fun a ha => ?_, fun l hl => ?_⟩
  · rw [putScratch, read_markDirty, read_write_self]
  · rw [putScratch, scratch_markDirty, scratch_write, rdByte_wrBytes_of_out _ _ _ _ ha]
  · rw [putScratch, line_markDirty, line_write, if_neg hl]

end

end Sys2Proof.Machine

namespace Sys2Proof
open Sys2Proof.Machine Sys2Proof.Claim

/-- Settles O13: nothing holds the access, and each lane reads its bytes. -/
theorem scratchLoadsComplete : Obligations.ScratchLoadsComplete := by
  unfold Obligations.ScratchLoadsComplete
  intro o s g tid t hi ht
  exact ⟨exec_lds_uni hi ht, exec_lds_vec hi ht⟩

/-- Settles O14: nothing holds the access, and each lane writes its bytes. -/
theorem scratchStoresComplete : Obligations.ScratchStoresComplete := by
  unfold Obligations.ScratchStoresComplete
  intro o s g tid t hi ht
  refine ⟨fun hd hfree hchk hscratch => ⟨_, exec_sts_uni hi ht hd hfree hchk hscratch, ?_⟩, exec_sts_vec hi ht⟩
  have hspec := putScratch_spec s s.cur.group g 0 t (uniAddr g o).toNat (leList (g.rdW (uniIdx o.d)).toNat (szBytes o.sz))
  rw [leList_length] at hspec
  exact hspec

end Sys2Proof
end

section
/-! PROOFS. The ORDER minors: Publish and refresh, PREFETCH, FENCE.S, and WAITM from its issue to the move that ends it (R136 to R146,
R236, R237, R241). -/

namespace Sys2Proof.Machine
open Sys2Proof.Claim

section
variable {s : State} {g : Group} (hi : Issues s g)
include hi

theorem doneNow_eq : doneNow s = done s g := by
  unfold doneNow
  rw [show mget s.groups s.cur.group = some g from hi]

/-! ### PHASE, PREFETCH, FENCE.S -/

theorem phaseStep_ok (hstash : stashLeft s g.core s.cur.group = false) (sc : Scope) (ref : Option Scope) :
    finish (phaseStep s sc ref) = .next (startPublish (done s g) s.cur.group sc ref false) := by
  rw [phaseStep, issuer_bind hi, stallIf, hstash, doneNow_eq hi]; rfl

theorem exec_phaseR (sc : BitVec 2) : exec (.phaseR sc) s = .next (doneNow (refreshGroup s s.cur.group (orderScope sc))) := by
  show finish (issuer s >>= fun _ => _) = _
  rw [issuer_bind hi]; rfl

theorem exec_prefetch_uni {l2 : Bool} {e : BitVec 5} {x : BitVec 7} (hx : isUni x = true) (hfree : UniFree s g [e.toNat, uniIdx x] []) :
    exec (.prefetch l2 e x) s = .next (done s g) := by
  show finish (prefetchStep s e x) = _
  simp only [prefetchStep, issuer_bind hi, hx, if_true, useW_bind hfree]
  rfl

theorem exec_prefetch_vec {l2 : Bool} {e : BitVec 5} {x : BitVec 7} (hx : isUni x = false) (hbase : UniFree s g [e.toNat] [])
    (hfree : VecFree s g (cohort s) [x] []) : exec (.prefetch l2 e x) s = .next (done s (readOnly s g [(x, false)])) := by
  have hvec := vecOn_of_noFlags (reads := [(x, false)]) (dests := []) (f := fun _ _ => { vals := [], flags := 0 }) hfree
    (vecRoom_nil _ _) fun _ _ => rfl
  show finish (prefetchStep s e x) = _
  simp only [prefetchStep, issuer_bind hi, hx, Bool.false_eq_true, if_false, useW_bind hbase, hvec, ok_bind]
  rfl

theorem exec_fenceS (hloads : g.loads = []) (heng : ∀ o ∈ (coreOf s g.core).eng, o.group = some s.cur.group → o.accepted = true)
    (hseq : ∀ o ∈ (coreOf s g.core).seq, o.group = s.cur.group → o.kind.accesses ≤ o.done) : exec .fenceS s = .next (done s g) := by
  have hwaiting : ((coreOf s g.core).eng.any fun o => decide (o.group = some s.cur.group) && !o.accepted) = false :=
    List.any_eq_false.2 fun o ho h => by
      rw [Bool.and_eq_true, decide_eq_true_eq] at h
      rw [heng o ho h.1] at h
      exact Bool.false_ne_true h.2
  have hleft : seqLeft s g.core s.cur.group = false :=
    List.any_eq_false.2 fun o ho h => by
      rw [Bool.and_eq_true, decide_eq_true_eq, decide_eq_true_eq] at h
      exact absurd h.2 (Nat.not_lt.2 (hseq o ho h.1))
  show finish (fenceStep s) = _
  rw [fenceStep, issuer_bind hi]
  simp only [hloads, hwaiting, hleft]
  rfl

/-! ### WAITM -/

variable {d : Option (BitVec 5)} {e t : BitVec 5} (hfree : UniFree s g [e.toNat, t.toNat] (d.map (·.toNat)).toList)
  (hchk : globalTrap s g 0 (g.rdW e.toNat) 1 .read = none)
include hfree hchk

theorem exec_waitm_now (ht : g.rdW t.toNat = 0) : exec (.waitm d e t) s = .next (waitmReturn s d 6) := by
  show finish (waitmStep s d e t) = _
  simp only [waitmStep, issuer_bind hi, useW_bind hfree, hchk, ht, if_true]
  rfl

theorem exec_waitm_wait (ht : g.rdW t.toNat ≠ 0) : exec (.waitm d e t) s = .next (holdCohort { s with fresh := s.fresh + 1 } (.monitor
    { sector := (watchSector (transOf s g 0 (g.rdW e.toNat) .read)).getD (2 ^ 60), began := s.fresh,
      deadline := (clusterOf s (clusOf g.core)).cycle + (g.rdW t.toNat).toNat, dest := d, next := s.cur.next, code := none })) := by
  show finish (waitmStep s d e t) = _
  simp only [waitmStep, issuer_bind hi, useW_bind hfree, hchk, ht, if_false]
  rfl

end

/-! ### The end of a WAITM -/

/-- The WAITM that a live thread stands in. -/
def standing (t : Thread) : Option Monitor :=
  match t.wait with
  | some (.monitor m) => if t.live then some m else none
  | _ => none

theorem monitors_eq (g : Group) : g.monitors = (g.threads.toList.filterMap standing).eraseDups := rfl

theorem standing_eq_some {t : Thread} {m : Monitor} : standing t = some m ↔ t.live = true ∧ t.wait = some (.monitor m) := by
  unfold standing
  split
  · next m' hw => rw [hw]; cases t.live <;> simp
  · next hw => exact ⟨(nomatch ·), fun h => absurd h.2 (hw m)⟩

theorem mem_monitors {g : Group} {m : Monitor} : m ∈ g.monitors ↔ ∃ t ∈ g.threads.toList, standing t = some m := by
  rw [monitors_eq, List.mem_eraseDups, List.mem_filterMap]

/-- A change of every thread of a group. -/
theorem onLanes_all (g : Group) (f : Thread → Thread) : (g.onLanes (-1) fun _ t => f t).threads = g.threads.map f := by
  refine Vector.ext fun i hi => ?_
  have hall : (-1 : BitVec 32).getLsbD i = true := by
    rw [show (-1 : BitVec 32) = BitVec.allOnes 32 from rfl, BitVec.getLsbD_allOnes, decide_eq_true hi]
  rw [show (g.onLanes (-1) fun _ t => f t).threads[i] = _ from Group.onLanes_on g (-1) (fun _ t => f t) ⟨i, hi⟩ hall, Vector.getElem_map]
  rfl

/-- A thread with its WAITMs changed. -/
def onMonitor (f : Monitor → Monitor) (t : Thread) : Thread :=
  { t with wait := t.wait.map (Wait.onMonitor f), savedWait := t.savedWait.map (Wait.onMonitor f) }

theorem standing_onMonitor {f : Monitor → Monitor} {t : Thread} (h : ∀ m, standing t = some m → f m = m) :
    standing (onMonitor f t) = standing t := by
  cases hs : standing t with
  | some m =>
    obtain ⟨hl, hw⟩ := standing_eq_some.1 hs
    refine standing_eq_some.2 ⟨hl, ?_⟩
    show t.wait.map (Wait.onMonitor f) = _
    rw [hw, Option.map_some, Wait.onMonitor, h m hs]
  | none =>
    refine Option.eq_none_iff_forall_ne_some.2 fun m hm => ?_
    obtain ⟨hl, hw⟩ := standing_eq_some.1 hm
    obtain ⟨w, hwait, hm'⟩ := Option.map_eq_some_iff.1 (show t.wait.map (Wait.onMonitor f) = some (.monitor m) from hw)
    cases w with
    | monitor m' => rw [show standing t = some m' from standing_eq_some.2 ⟨hl, hwait⟩] at hs; cases hs
    | _ => cases hm'

/-- A change that keeps the WAITMs which threads stand in keeps the list of them. -/
theorem monitors_onMonitors {g : Group} {f : Monitor → Monitor} (h : ∀ m ∈ g.monitors, f m = m) : (g.onMonitors f).monitors = g.monitors := by
  have hthreads : (g.onMonitors f).threads = g.threads.map (onMonitor f) := onLanes_all g (onMonitor f)
  rw [monitors_eq, monitors_eq, hthreads, Vector.toList_map, List.filterMap_map]
  exact congrArg List.eraseDups (List.filterMap_congr fun t ht => standing_onMonitor fun m hm => h m (mem_monitors.2 ⟨t, ht, hm⟩))

/-- A WAITM that has its code keeps it (R143: the first cause). -/
theorem wake_of_code {s : State} {gid code code' : Nat} {g : Group} {m : Monitor} (h : m.code = some code') : m.wake s gid g code = m := by
  rw [Monitor.wake, h]
  obtain ⟨_, _, _, _, _, c⟩ := m
  obtain rfl : c = some code' := h
  rfl

theorem refreshGroup_groups {s : State} {gid : Nat} {g : Group} (hg : mget s.groups gid = some g) (sc : Scope) :
    (refreshGroup s gid sc).groups = mput s.groups gid (g.refresh sc s.fresh) := by
  unfold refreshGroup
  rw [hg]
  dsimp only
  split
  · rfl
  · split <;> rfl

/-- A thread that stands in a WAITM that ends goes on at the instruction after it. -/
def leaveMonitor (m : Monitor) (t : Thread) : Thread :=
  if t.live && decide (t.wait = some (.monitor m)) then { t with pc := m.next, wait := none } else t

/-- The group of a WAITM that ends: refreshed at every scope, with the code written. -/
def monitorEnded (s : State) (g : Group) (m : Monitor) (code : Nat) : Group :=
  (optW (g.refresh .sys s.fresh) m.dest (u64 code)).onLanes (-1) fun _ t => leaveMonitor m t

theorem endMonitor_groups {s : State} {gid : Nat} {g : Group} (hg : mget s.groups gid = some g) (m : Monitor) (code : Nat) :
    mget (endMonitor s gid m code).groups gid = some (monitorEnded s g m code) := by
  have hget : mget (refreshGroup s gid .sys).groups gid = some (g.refresh .sys s.fresh) := by
    rw [refreshGroup_groups hg, mget_mput_self]
  unfold endMonitor monitorEnded optW
  simp only [hget, setGroup_groups, mget_mput_self]
  cases m.dest <;> rfl

theorem optW_threads (g : Group) (d : Option (BitVec 5)) (v : DWord) : (optW g d v).threads = g.threads := by cases d <;> rfl

theorem monitorEnded_rdW {s : State} {g : Group} {m : Monitor} {code : Nat} {r : BitVec 5} (hr : m.dest = some r) :
    (monitorEnded s g m code).rdW r.toNat = u64 code := by
  have hw : (optW (g.refresh .sys s.fresh) m.dest (u64 code)).rdW r.toNat = u64 code := by
    rw [hr]
    exact (rdW_wrW _ _ _ _ r.isLt r.isLt).trans (if_pos rfl)
  rw [monitorEnded, Group.rdW, Group.onLanes_w, ← Group.rdW, hw]

theorem monitorEnded_thread {s : State} {g : Group} {m : Monitor} {code : Nat} (l : Fin 32) :
    (monitorEnded s g m code).threads[l] = leaveMonitor m g.threads[l] := by
  have hthreads : (monitorEnded s g m code).threads = g.threads.map (leaveMonitor m) := by
    rw [monitorEnded, onLanes_all, optW_threads]; rfl
  rw [hthreads]
  exact Vector.getElem_map _ _

theorem ctxIssues_setGroup (s : State) (k ctx : Nat) (x : Group) : ctxIssues (setGroup s k x) ctx = ctxIssues s ctx := rfl
theorem teamLoaded_setGroup (s : State) (k : Nat) (x g : Group) : teamLoaded (setGroup s k x) g = teamLoaded s g := rfl

section
variable {s : State} {gid code : Nat} {g : Group} {m : Monitor} (hg : mget s.groups gid = some g) (hm : g.monitors = [m])
  (hcode : m.code = some code)

/-- What a reached timeout does to the WAITMs of a group. -/
def timedOut (s : State) (gid : Nat) (g : Group) (m : Monitor) : Monitor :=
  if decide (m.deadline ≤ (clusterOf s (clusOf g.core)).cycle) && !switching s g.ctx then m.wake s gid g 6 else m

theorem timedOut_of_code (hcode : m.code = some code) : timedOut s gid g m = m := by
  unfold timedOut
  split
  · exact wake_of_code hcode
  · rfl

include hg in
theorem waitmTimeout_eq : waitmTimeout s gid = setGroup s gid (g.onMonitors (timedOut s gid g)) := by
  unfold waitmTimeout wakeIf
  rw [hg]; rfl

include hg hcode

include hm in
/-- The one WAITM of a group, with its code, ends as the next move begins. -/
theorem settleMonitors_of_code (hst : g.st = .active ∨ g.st = .handler) (hctx : ctxIssues s g.ctx = true) (hteam : teamLoaded s g = true) :
    settleMonitors s gid = endMonitor (waitmTimeout s gid) gid m code := by
  have hmon : (g.onMonitors (timedOut s gid g)).monitors = [m] := by
    rw [monitors_onMonitors, hm]
    intro m' hm'
    rw [hm, List.mem_singleton] at hm'
    subst hm'
    exact timedOut_of_code hcode
  have hst' : (g.onMonitors (timedOut s gid g)).st = .active ∨ (g.onMonitors (timedOut s gid g)).st = .handler := by
    rwa [Group.onMonitors, Group.onLanes_st]
  have hctx' : ctxIssues (setGroup s gid (g.onMonitors (timedOut s gid g))) (g.onMonitors (timedOut s gid g)).ctx = true := by
    rw [ctxIssues_setGroup, Group.onMonitors, Group.onLanes_ctx]; exact hctx
  have hteam' : teamLoaded (setGroup s gid (g.onMonitors (timedOut s gid g))) (g.onMonitors (timedOut s gid g)) = true := by
    have hsame : (g.onMonitors (timedOut s gid g)).team = g.team := by rw [Group.onMonitors, Group.onLanes_team]
    rw [teamLoaded_setGroup, teamLoaded, hsame, ← teamLoaded]; exact hteam
  unfold settleMonitors
  rw [waitmTimeout_eq hg]
  generalize g.onMonitors (timedOut s gid g) = g₁ at *
  simp only [setGroup_groups, mget_mput_self]
  rw [if_pos ⟨hst', hctx', hteam'⟩, hmon, List.foldl_cons, List.foldl_nil, hcode]

/-- What it leaves: the code in its register, and its threads at the instruction after it, out of the wait. -/
theorem endMonitor_spec : ∃ g', mget (endMonitor (waitmTimeout s gid) gid m code).groups gid = some g' ∧
    (∀ r, m.dest = some r → g'.rdW r.toNat = u64 code) ∧
    ∀ l : Fin 32, g.threads[l].live = true → g.threads[l].wait = some (.monitor m) → g'.threads[l].wait = none ∧ g'.threads[l].pc = m.next := by
  refine ⟨_, endMonitor_groups (by rw [waitmTimeout_eq hg]; exact mget_mput_self _ _ _) m code, fun r hr => monitorEnded_rdW hr,
    fun l hlive hwait => ?_⟩
  have hthread : (g.onMonitors (timedOut s gid g)).threads[l] = onMonitor (timedOut s gid g) g.threads[l] := by
    rw [show (g.onMonitors (timedOut s gid g)).threads = g.threads.map (onMonitor (timedOut s gid g)) from onLanes_all g _]
    exact Vector.getElem_map _ _
  have hkept : (onMonitor (timedOut s gid g) g.threads[l]).wait = some (.monitor m) := by
    rw [onMonitor, hwait, Option.map_some, Wait.onMonitor, timedOut_of_code hcode]
  have hleaves : ((onMonitor (timedOut s gid g) g.threads[l]).live &&
      decide ((onMonitor (timedOut s gid g) g.threads[l]).wait = some (.monitor m))) = true := by
    rw [hkept, show (onMonitor (timedOut s gid g) g.threads[l]).live = true from hlive]; exact decide_eq_true rfl
  rw [monitorEnded_thread, hthread, show leaveMonitor m _ = _ from if_pos hleaves]
  exact ⟨rfl, rfl⟩

end

end Sys2Proof.Machine

namespace Sys2Proof
open Sys2Proof.Machine Sys2Proof.Claim

/-- Settles O16: each minor runs once its registers are free, and a WAITM with its code ends as the next move begins. -/
theorem orderingCompletes : Obligations.OrderingCompletes := by
  unfold Obligations.OrderingCompletes
  refine ⟨fun sc s g hi => ⟨fun hstash => ⟨phaseStep_ok hi hstash _ _, phaseStep_ok hi hstash _ _⟩, exec_phaseR hi sc⟩,
    fun l2 e x s g hi => ⟨exec_prefetch_uni hi, exec_prefetch_vec hi⟩, fun s g hi => exec_fenceS hi,
    fun d e t s g hi => exec_waitm_now hi, fun d e t s g hi => exec_waitm_wait hi, ?_⟩
  intro s gid code g m hg hst hctx hteam hm hcode
  exact ⟨settleMonitors_of_code hg hm hcode hst hctx hteam, endMonitor_spec hg hcode⟩

end Sys2Proof
end

section
/-! PROOFS. Stash windows: SMAP, SFLUSH and SUNMAP (R238 to R240). -/

namespace Sys2Proof.Machine
open Sys2Proof.Claim

theorem stallIf_bind {s : State} {b : Bool} (h : b = false) (k : Unit → R State) : (stallIf s b >>= k) = k () := by rw [h]; rfl

/-! ### What the lines of a window hold once they are cleared -/

theorem line_clearLine (t : Team) (l l' : Nat) : (t.clearLine l).line l' = if l = l' then { t.line l with written := false } else t.line l' := by
  rw [Team.clearLine, line_setLine]; rfl

theorem written_clearLines (l : Nat) (ls : List Nat) : ∀ t : Team,
    ((ls.foldl Team.clearLine t).line l).written = if l ∈ ls then false else (t.line l).written := by
  induction ls with
  | nil => exact fun t => rfl
  | cons x xs ih =>
    intro t
    rw [List.foldl_cons, ih, line_clearLine]
    by_cases hx : x = l
    · simp [hx]
    · simp [hx, Ne.symm hx]

theorem windows_clearLines (ls : List Nat) (t : Team) : (ls.foldl Team.clearLine t).windows = t.windows := by
  induction ls generalizing t with
  | nil => rfl
  | cons x xs ih => exact ih _

/-- The team of a window that has ended (R240): its lines cleared and touched, its stash state forgotten, and the window gone. -/
def unmapped (now : Nat) (t : Team) (w : Window) : Team :=
  { (w.lines.foldl Team.clearLine (t.dropWindow w)).touch now w.lines with
    windows := ((w.lines.foldl Team.clearLine (t.dropWindow w)).touch now w.lines).windows.filter fun x => decide (x.off ≠ w.off) }

theorem windows_unmapped (now : Nat) (t : Team) (w : Window) :
    (unmapped now t w).windows = t.windows.filter fun x => decide (x.off ≠ w.off) :=
  congrArg (List.filter _) (windows_clearLines w.lines (t.dropWindow w))

theorem written_unmapped (now : Nat) (t : Team) {w : Window} {l : Nat} (hl : l ∈ w.lines) : ((unmapped now t w).line l).written = false :=
  (written_clearLines l w.lines (t.dropWindow w)).trans (if_pos hl)

/-- The dirty bytes of a window that its publish left become pending stores (R129, R420). -/
def keptDirty (t : Team) (gid : Nat) (w : Window) : List Pend :=
  ((dirtyOf t gid).filter fun p => decide (w.off ≤ p.2.1 ∧ p.2.1 < w.off + w.len)).map fun p => dirtyUnit t p.1 p.2.1 p.2.2

/-! ### The instructions -/

section
variable {s : State} {g : Group} {tid : Nat} {t : Team} (hi : Issues s g) (ht : TeamOf s g tid t) (hf : feature s g 6 = true)
  {o : BitVec 5} {w : Window}
include hi ht hf

theorem exec_smap {a l : BitVec 5} (hfree : UniFree s g [o.toNat, a.toNat, l.toNat] [])
    (hw : w = { off := (g.rdW o.toNat).toNat, va := (g.rdW a.toNat).toNat, len := (g.rdW l.toNat).toNat })
    (halign : w.off % 256 = 0 ∧ w.va % 256 = 0 ∧ w.len % 256 = 0 ∧ 256 ≤ w.len) (hrange : t.inRange w.off w.len = true)
    (hcount : t.windows.length < 8)
    (hapart : ∀ x ∈ t.windows, overlaps w.off w.len x.off x.len = false ∧ overlaps w.va w.len x.va x.len = false)
    (hlines : ∀ x ∈ w.lines, isViewed t x = false ∧ inRing t x = false) (htrim : trimmedIn s g w.va w.len = none)
    (hscratch : ScratchFree s tid t true [(w.off, w.len)]) :
    exec (.smap o a l) s = .next (done (setTeam s tid
      { (w.lines.foldl Team.clearLine t).touch s.tick w.lines with windows := t.windows ++ [w] }) g) := by
  rw [← windows_clearLines w.lines t]
  have hgood : ¬(w.off % 256 ≠ 0 ∨ w.va % 256 ≠ 0 ∨ w.len % 256 ≠ 0 ∨ w.len < 256) := by omega
  have hroom : (decide (t.windows.length < 8) && !(t.windows.any fun x => overlaps w.off w.len x.off x.len || overlaps w.va w.len x.va x.len) &&
      !(w.lines.any fun x => isViewed t x || inRing t x)) = true := by
    have hwin : (t.windows.any fun x => overlaps w.off w.len x.off x.len || overlaps w.va w.len x.va x.len) = false :=
      List.any_eq_false.2 fun x hx => by rw [(hapart x hx).1, (hapart x hx).2]; exact Bool.false_ne_true
    have hline : (w.lines.any fun x => isViewed t x || inRing t x) = false :=
      List.any_eq_false.2 fun x hx => by rw [(hlines x hx).1, (hlines x hx).2]; exact Bool.false_ne_true
    rw [hwin, hline, decide_eq_true hcount]; rfl
  subst hw
  show finish (smapStep s o a l) = _
  simp only [smapStep, issuer_bind hi, need_bind hf, issuerTeam_bind ht, useW_bind hfree, if_neg hgood, hrange, Bool.not_true,
    Bool.false_eq_true, if_false, need_bind hroom, htrim, scratchHold_bind hscratch]
  exact congrArg Host.Outcome.next (doneNow_eq (show Issues (setTeam s tid _) g from hi))

variable {t' : Team} (hfree : UniFree s g [o.toNat] []) (hfind : (t.windows.find? fun w => decide (u64 w.off = g.rdW o.toNat)) = some w)
  (hseq : seqPending s t.core s.cur.group tid w.lines = false) (hgone : (flushWindow s s.cur.group g tid t w).2 = false)
  (ht' : mget (flushWindow s s.cur.group g tid t w).1.teams tid = some t')
include hfree hfind hseq hgone ht'

theorem exec_sflush : exec (.sflush o) s = .next (doneNow (setTeam (flushWindow s s.cur.group g tid t w).1 tid
    { t' with stashFull := t'.stashFull.filter fun x => sectorDirty t' x || !decide (w.off ≤ x * 32 ∧ x * 32 < w.off + w.len) })) := by
  show finish (sflushStep s o) = _
  simp only [sflushStep, issuer_bind hi, need_bind hf, issuerTeam_bind ht, useW_bind hfree, hfind, stallIf_bind hseq, hgone,
    Bool.false_eq_true, if_false, ht']
  rfl


theorem exec_sunmap {g' : Group} (hmine : ∀ p ∈ t.stashDirty, w.off ≤ p.1 → p.1 < w.off + w.len → p.2.gid = s.cur.group)
    (hg' : mget (flushWindow s s.cur.group g tid t w).1.groups s.cur.group = some g') :
    exec (.sunmap o) s = .next (done (setTeam (flushWindow s s.cur.group g tid t w).1 tid (unmapped s.tick t' w))
      { g' with pend := g'.pend ++ keptDirty t' s.cur.group w }) := by
  have hothers : (!(t.stashDirty.any fun p => decide (w.off ≤ p.1 ∧ p.1 < w.off + w.len) && decide (p.2.gid ≠ s.cur.group))) = true := by
    rw [Bool.not_eq_true']
    refine List.any_eq_false.2 fun p hp h => ?_
    rw [Bool.and_eq_true, decide_eq_true_eq, decide_eq_true_eq] at h
    exact h.2 (hmine p hp h.1.1 h.1.2)
  show finish (sunmapStep s o) = _
  simp only [sunmapStep, issuer_bind hi, need_bind hf, issuerTeam_bind ht, useW_bind hfree, hfind, need_bind hothers, stallIf_bind hseq, hgone,
    Bool.false_eq_true, if_false, ht', hg']
  rfl

end

end Sys2Proof.Machine

namespace Sys2Proof
open Sys2Proof.Machine Sys2Proof.Claim

/-- Settles O17: each instruction runs once nothing holds it, and SUNMAP leaves the window's lines cleared. -/
theorem stashCompletes : Obligations.StashCompletes := by
  unfold Obligations.StashCompletes
  intro s g tid t hi ht hf
  refine ⟨fun o a l w hfree hw hoff hva hlen hmin hrange hcount hapart hlines htrim hscratch => ?_,
    fun o w t' hfree hfind hseq hgone ht' => ⟨exec_sflush hi ht hf hfree hfind hseq hgone ht', fun g' hmine hg' => ?_⟩⟩
  · exact ⟨_, exec_smap hi ht hf hfree hw ⟨hoff, hva, hlen, hmin⟩ hrange hcount hapart hlines htrim hscratch, rfl⟩
  · exact ⟨_, _, exec_sunmap hi ht hf hfree hfind hseq hgone ht' hmine hg', windows_unmapped _ _ _, fun x hx => written_unmapped _ _ hx,
      rfl, List.prefix_append _ _⟩

end Sys2Proof
end

section
/-! PROOFS. The copy-engine instructions at their issue (R243 to R251, R255). -/

namespace Sys2Proof.Machine
open Sys2Proof.Claim

section
variable {s : State} {g : Group} {tid : Nat} {t : Team}

theorem tileRange_bind {d : Desc} (hd : TileAt t d) (k : Unit → R State) : (tileRange s t d >>= k) = k () := by
  rw [tileRange, hd.2]; rfl

theorem barCheck_bind {bar : Nat} (h : t.inRange bar 16 = true) (k : Unit → R State) : (barCheck s t bar >>= k) = k () := by
  rw [barCheck, if_pos h]; rfl

theorem queueOp_ok {o : EngOp} (hload : engineLoad s g.core < 32) : finish (queueOp s g o) = .next (engined s g o) := by
  rw [queueOp, if_neg (Nat.not_le.2 hload)]; rfl

variable (hi : Issues s g) (ht : TeamOf s g tid t)
include hi ht

/-! ### OWN -/

theorem exec_own {n : BitVec 4} {engine : Bool} (hd : TileAt t (tileOf t n))
    (hseq : seqPending s t.core s.cur.group tid (tileOf t n).lines = false)
    (huse : engine = true ∨ linesInUse s g.core tid (tileOf t n).lines = false) :
    exec (.own n engine) s = .next (done (setTeam s tid ((tileOf t n).lines.foldl
      (fun t l => t.setLine l { t.line l with engine := engine }) (t.touch s.tick (tileOf t n).lines))) g) := by
  have hfree : (!engine && linesInUse s g.core tid (tileOf t n).lines) = false := by
    rcases huse with h | h <;> rw [h]
    · rfl
    · exact Bool.and_false _
  show finish (ownStep s n engine) = _
  simp only [ownStep, issuer_bind hi, issuerTeam_bind ht, need_bind hd.1, tileRange_bind hd, hseq, hfree, Bool.false_eq_true, if_false]
  rfl

/-! ### Operations on tiles -/

section
variable {n : BitVec 4} {a b : BitVec 5} (hfree : UniFree s g [a.toNat, b.toNat] []) (hload : engineLoad s g.core < 32)
  (hlay : (tileOf t n).layOk = true)
include hfree hload hlay

theorem transferStep_ok {kind : EngKind} (hd : TileIn t (tileOf t n) (g.rdW b.toNat).toNat) (ha : (g.rdW a.toNat).toNat % 32 = 0)
    (hver : (kind != .tstoreA || layVer (tileOf t n).layout) = true) :
    finish (transferStep s kind n a b) = .next (engined s g
      (newOp s tid kind (tileOf t n) (g.rdW a.toNat) (g.rdW b.toNat).toNat [] (tileOf t n).lines)) := by
  obtain ⟨htile, hbar, hrange⟩ := hd
  have hneed : (tileLegal t (tileOf t n) && (tileOf t n).layOk && (kind != .tstoreA || layVer (tileOf t n).layout)) = true := by
    rw [htile.1, hlay, hver]; rfl
  simp only [transferStep, issuer_bind hi, issuerTeam_bind ht, useW_bind hfree, need_bind hneed, ha, hbar, ne_eq, not_true_eq_false, if_false,
    tileRange_bind htile, barCheck_bind hrange, queueOp_ok hload]

theorem exec_tmcast (hd : TileIn t (tileOf t n) (g.rdW b.toNat).toNat) (hcount : (g.rdW a.toNat).toNat < 16) :
    exec (.tmcast n a b) s = .next (engined s g { newOp s tid .tmcast (tileOf t n) 0 (g.rdW b.toNat).toNat [] (tileOf t n).lines with
      receivers := (List.range ((g.rdW a.toNat).toNat + 1)).map fun i => (t.index.toNat + i + 1) % t.nteam.toNat }) := by
  obtain ⟨htile, hbar, hrange⟩ := hd
  have hneed : (tileLegal t (tileOf t n) && (tileOf t n).layOk && decide ((g.rdW a.toNat).toNat < 16)) = true := by
    rw [htile.1, hlay, decide_eq_true hcount]; rfl
  show finish (tmcastStep s n a b) = _
  simp only [tmcastStep, issuer_bind hi, issuerTeam_bind ht, useW_bind hfree, need_bind hneed, hbar, ne_eq, not_true_eq_false, if_false,
    tileRange_bind htile, barCheck_bind hrange, queueOp_ok hload]

theorem exec_gather {l : List Nat} {t' : Team} (harr : layArr (tileOf t n).layout = 0)
    (hres : slice (g.rdW b.toNat) 24 8 = 0 ∧ slice (g.rdW b.toNat) 56 8 = 0) (ha : (g.rdW a.toNat).toNat % 32 = 0)
    (hoff : slice (g.rdW b.toNat) 32 24 % 4 = 0) (hd : TileIn t (tileOf t n) (slice (g.rdW b.toNat) 0 24))
    (hlist : readList s g tid t (slice (g.rdW b.toNat) 32 24) (tileOf t n).rows.toNat 4 = .ok (l, t')) :
    exec (.gather n a b) s = .next (engined (setTeam s tid t') g
      (newOp s tid .gather (tileOf t n) (g.rdW a.toNat) (slice (g.rdW b.toNat) 0 24) l (tileOf t n).lines)) := by
  obtain ⟨htile, hbar, hrange⟩ := hd
  have hneed : (tileLegal t (tileOf t n) && (tileOf t n).layOk && decide (layArr (tileOf t n).layout = 0) &&
      decide (slice (g.rdW b.toNat) 24 8 = 0) && decide (slice (g.rdW b.toNat) 56 8 = 0)) = true := by
    rw [htile.1, hlay, harr, hres.1, hres.2]; rfl
  show finish (gatherStep s n a b) = _
  simp only [gatherStep, issuer_bind hi, issuerTeam_bind ht, useW_bind hfree, need_bind hneed, ha, hbar, hoff, ne_eq, not_true_eq_false,
    if_false, tileRange_bind htile, barCheck_bind hrange, hlist, ok_bind,
    queueOp_ok (show engineLoad (setTeam s tid t') g.core < 32 from hload)]

end

/-! ### KVMOVE -/

theorem exec_kvmove {k p b : BitVec 5} {l : List Nat} {t' : Team} (hf : feature s g 5 = true)
    (hfree : UniFree s g [k.toNat, p.toNat, b.toNat] []) (hload : engineLoad s g.core < 32) (hres : slice (g.rdW p.toNat) 60 4 = 0)
    (hbase : (g.rdW k.toNat).toNat % 256 = 0) (hoff : slice (g.rdW p.toNat) 40 20 % 8 = 0) (hbar : (g.rdW b.toNat).toNat % 16 = 0)
    (hrange : t.inRange (g.rdW b.toNat).toNat 16 = true)
    (hlist : readList s g tid t (slice (g.rdW p.toNat) 40 20) (2 * slice (g.rdW p.toNat) 16 16) 4 = .ok (l, t'))
    (hz : slice (g.rdW p.toNat) 32 8 ≠ 0) (hfirst : slice (g.rdW p.toNat) 0 16 ≤ slice (g.rdW p.toNat) 16 16) (hmove : moveOk none l = true) :
    exec (.kvmove k p b) s = .next (engined (setTeam s tid t') g
      { newOp s tid .kvmove default (g.rdW k.toNat) (g.rdW b.toNat).toNat (l.drop (2 * slice (g.rdW p.toNat) 0 16)) [] with
        ring := slice (g.rdW p.toNat) 0 16, slot := slice (g.rdW p.toNat) 32 8 }) := by
  have hneed : (decide (slice (g.rdW p.toNat) 60 4 = 0) && slice (g.rdW p.toNat) 32 8 != 0 &&
      decide (slice (g.rdW p.toNat) 0 16 ≤ slice (g.rdW p.toNat) 16 16)) = true := by
    rw [hres, bne_iff_ne.2 hz, decide_eq_true hfirst]; rfl
  show finish (kvmoveStep s k p b) = _
  simp only [kvmoveStep, issuer_bind hi, issuerTeam_bind ht, need_bind hf, useW_bind hfree, need_bind hneed, hbase, hoff, hbar, ne_eq,
    not_true_eq_false, if_false, barCheck_bind hrange, hlist, ok_bind, need_bind hmove,
    queueOp_ok (show engineLoad (setTeam s tid t') g.core < 32 from hload)]

end

end Sys2Proof.Machine

namespace Sys2Proof
open Sys2Proof.Machine Sys2Proof.Claim

/-- Settles O18: each instruction queues its operation once its checks pass; OWN flips the owner. -/
theorem engineIssueCompletes : Obligations.EngineIssueCompletes := by
  unfold Obligations.EngineIssueCompletes
  intro s g tid t n a b hi ht
  refine ⟨fun engine => exec_own hi ht, fun hfree hload => ⟨fun hd hlay => ⟨fun ha => ⟨?_, ?_, fun hver => ?_⟩, fun hcount => ?_⟩, ?_⟩, ?_⟩
  · exact transferStep_ok hi ht hfree hload hlay hd ha rfl
  · exact transferStep_ok hi ht hfree hload hlay hd ha rfl
  · exact transferStep_ok hi ht hfree hload hlay hd ha hver
  · exact exec_tmcast hi ht hfree hload hlay hd hcount
  · intro l t' hlay harr hres₁ hres₂ ha hoff hd hlist
    exact exec_gather hi ht hfree hload hlay harr ⟨hres₁, hres₂⟩ ha hoff hd hlist
  · intro k p l t' hf hfree hload hres hbase hoff hbar hrange hlist hz hfirst hmove
    exact exec_kvmove hi ht hf hfree hload hres hbase hoff hbar hrange hlist hz hfirst hmove

end Sys2Proof
end

section
/-! PROOFS. Rings and joins: SUB, SUBEND and SLOTDONE (R252 to R254, R389 to R394), the JOIN minors, KILLOFF and KILLON (R367 to R378). -/

namespace Sys2Proof.Machine
open Sys2Proof.Claim

/-! ### One register field that may be read -/

section
variable {s : State} {g : Group}

theorem scoreboard_ok {vs us : List Nat} (hv : ∀ n ∈ vs, g.busyV n = false) (hu : ∀ i ∈ us, busyW s g i = false) :
    scoreboard s g vs us = .ok () := by
  have hvs : vs.any g.busyV = false := List.any_eq_false.2 fun n hn => by rw [hv n hn]; exact Bool.false_ne_true
  have hus : us.any (busyW s g) = false := List.any_eq_false.2 fun i hi => by rw [hu i hi]; exact Bool.false_ne_true
  rw [scoreboard, hvs, hus]; rfl

theorem readyU_ok {us : List Nat} (hu : ∀ i ∈ us, g.badW i = none) : readyU s g us = .ok () := by
  rw [readyU, List.find?_eq_none.2 fun i hi => by rw [hu i hi]; exact Bool.false_ne_true]

theorem filled_ok {vs : List Nat} (hv : ∀ n ∈ vs, g.spilled.contains n = false) : filled s g vs = .ok () := by
  rw [filled, List.filter_eq_nil_iff.2 fun n hn => by rw [hv n hn]; exact Bool.false_ne_true]

theorem readOk_bind {vs : List Nat} {lanes : List (Fin 32)} {st : Nat → State} (hv : ∀ n ∈ vs, ∀ l ∈ lanes, g.badV l n = none)
    (k : Unit → R State) : (raiseBy st (lanes.map fun l => (l, badRead g l vs)) >>= k) = k () := by
  rw [raiseBy_none]
  · rfl
  · intro p hp
    obtain ⟨l, hl, rfl⟩ := List.mem_map.1 hp
    exact badRead_none fun n hn => hv n hn l hl

theorem filterMap_vname (g : Group) (c : BitVec 7) : [c].filterMap g.vname = (g.vname c).toList := by
  cases h : g.vname c <;> simp [h]

theorem filter_isUni (c : BitVec 7) : ([c].filter isUni).map uniIdx = if isUni c then [uniIdx c] else [] := by
  cases h : isUni c <;> simp [h]

/-- What VecFree says of the one field that an instruction reads: of its row, and of its uniform register. -/
theorem vecFree_one {lanes : List (Fin 32)} {c : BitVec 7} (h : VecFree s g lanes [c] []) :
    (∀ n ∈ (g.vname c).toList, g.busyV n = false ∧ g.spilled.contains n = false ∧ ∀ l ∈ lanes, g.badV l n = none) ∧
    ∀ i ∈ (if isUni c then [uniIdx c] else []), busyW s g i = false ∧ g.badW i = none := by
  obtain ⟨hbusy, huni, hrows⟩ := h
  rw [List.append_nil, filterMap_vname] at hbusy
  rw [filter_isUni] at huni
  rw [filterMap_vname] at hrows
  exact ⟨fun n hn => ⟨hbusy n hn, hrows n hn⟩, huni⟩

/-- Reading a field leaves the uniform registers. -/
theorem rdW_touched (g : Group) (u : Bool) (now : Nat) (rd wr : List Nat) (i : Nat) :
    ((g.orFlags 0 u).touchNames now rd wr).rdW i = g.rdW i := by
  obtain ⟨lr, sp, wf, h⟩ := touchNames_eq (g.orFlags 0 u) now rd wr
  rw [h]; rfl

/-! ### SUB, SUBEND, SLOTDONE -/

theorem subAt_bind {t : Team} {a : DWord} {u : Sub} (h : (t.subs.find? fun u => decide (u64 u.ring = a)) = some u) (k : Sub → R State) :
    (subAt s t a >>= k) = k u := by
  rw [subAt, h]; rfl

theorem slotArg_uni {x : BitVec 7} (hx : isUni x = true) (hfree : UniFree s g [uniIdx x] []) :
    slotArg s g x = .ok (g, (g.rdW (uniIdx x)).toNat) := by
  rw [slotArg, if_pos hx, useW_ok hfree]; rfl

theorem slotArg_vec {x : BitVec 7} {l : Fin 32} (hx : isUni x = false) (hl : lowestLane (s.cur.mask &&& g.liveMask) = some l)
    (hfree : VecFree s g [l] [x] []) :
    slotArg s g x = .ok ((g.orFlags 0 (g.rdLane l x).2).touchNames s.tick (g.vname x).toList [], (g.rdLane l x).1.toNat) := by
  obtain ⟨hrows, -⟩ := vecFree_one hfree
  rw [slotArg, hx, hl]
  simp only [Bool.false_eq_true, if_false, Option.getD_some, scoreboard_ok (fun n hn => (hrows n hn).1) (fun i hi => absurd hi List.not_mem_nil),
    filled_ok (fun n hn => (hrows n hn).2.1), raiseBy_none _ [(l, badRead g l (g.vname x).toList)] (fun p hp => by
      rw [List.mem_singleton.1 hp]; exact badRead_none fun n hn => (hrows n hn).2.2 l (List.mem_singleton.2 rfl))]
  rfl

section
variable {tid : Nat} {t : Team} {r : BitVec 5} {u : Sub} (hi : Issues s g) (ht : TeamOf s g tid t) (hf : feature s g 4 = true)
include hi ht hf

theorem exec_engineSub {st : BitVec 5} {b : UnitRead} {tr : Trans} (hfree : UniFree s g [r.toNat, st.toNat] [])
    (hring : (g.rdW r.toNat).toNat % 128 = 0) (hst : (g.rdW st.toNat).toNat % 64 = 0)
    (hu : ringCheck s tid t (g.rdW r.toNat).toNat = .ok u)
    (hread : ({ by' := .issue s.cur.group, ctx := g.ctx, who := agentOf g.core, moment := s.fresh, hbmDie := none } : EngAcc).read s
      ((List.range 64).map fun i => .byte (wrapVa ((g.rdW st.toNat).toNat + i))) = .ok b) (hgood : b.bad = false)
    (hstream : streamOk b.bytes (feature s g 1) = true) (himage : (streamOf b.bytes).image ≤ u.slotsz)
    (htr : translate (dropFetched s (.issue s.cur.group)) g.ctx (agentOf g.core) 0 (streamOf b.bytes).origin .read = .ok tr)
    (hroom : mgetD s.skidders (skidderOf tr g.core) 0 < 64) :
    exec (.engineSub r st) s = .next (done { setTeam (dropFetched s (.issue s.cur.group)) tid (({ t with
        subs := t.subs ++ [{ u with sd := streamOf b.bytes, skid := skidderOf tr g.core }] } : Team).write s.tick
          ((g.rdW r.toNat).toNat + 0x40) (leList 0 64)) with
      skidders := mput s.skidders (skidderOf tr g.core) (mgetD s.skidders (skidderOf tr g.core) 0 + 1), fresh := s.fresh + 1 } g) := by
  have hneed : (streamOk b.bytes (feature (dropFetched s (.issue s.cur.group)) g 1) && decide ((streamOf b.bytes).image ≤ u.slotsz)) = true := by
    rw [show feature (dropFetched s (.issue s.cur.group)) g 1 = feature s g 1 from rfl, hstream, decide_eq_true himage]; rfl
  have hroom' : ¬64 ≤ mgetD (dropFetched s (.issue s.cur.group)).skidders (skidderOf tr g.core) 0 := Nat.not_le.2 hroom
  show finish (engineSubStep s r st) = _
  simp only [engineSubStep, issuer_bind hi, need_bind hf, issuerTeam_bind ht, useW_bind hfree, hring, hst, ne_eq, not_true_eq_false, if_false, hu,
    ok_bind, hread, hgood, Bool.false_eq_true]
  simp only [EngAcc.used, need_bind hneed, htr]
  exact congrArg finish (if_neg hroom')

theorem exec_subend (hfree : UniFree s g [r.toNat] []) (hu : (t.subs.find? fun u => decide (u64 u.ring = g.rdW r.toNat)) = some u) :
    exec (.subend r) s = .next (done (settleSubs (setTeam s tid (t.setSub { u with ended := true })) tid) g) := by
  show finish (subendStep s r) = _
  simp only [subendStep, issuer_bind hi, need_bind hf, issuerTeam_bind ht, useW_bind hfree, subAt_bind hu]
  rfl

theorem exec_slotdone {x : BitVec 7} {g' : Group} {i : Nat} (hfree : UniFree s g [r.toNat] []) (harg : slotArg s g x = .ok (g', i))
    (hkept : g'.rdW r.toNat = g.rdW r.toNat)
    (hu : (t.subs.find? fun u => decide (u64 u.ring = g.rdW r.toNat)) = some u) (hlt : i < u.nslot) (hslot : SlotAt s tid t u i) :
    exec (.slotdone r x) s = .next (done (setTeam s tid (handed s t u i)) g') := by
  obtain ⟨hfull, hspill, hseq⟩ := hslot
  have hfree' : (anySpilled t [u.wordAt i / 256] || seqPending s t.core s.cur.group tid [u.wordAt i / 256]) = false := by
    rw [hseq, anySpilled, List.any_cons, hspill]; rfl
  show finish (slotdoneStep s r x) = _
  simp only [slotdoneStep, issuer_bind hi, need_bind hf, issuerTeam_bind ht, useW_bind hfree, harg, ok_bind, hkept, subAt_bind hu,
    need_bind (decide_eq_true hlt), stallIf_bind hfree', need_bind (decide_eq_true hfull)]
  rfl

end
end

/-! ### The JOIN minors -/

theorem done_cur (s : State) (g : Group) : (done s g).cur = s.cur := rfl

/-- The issuing group with the contribution's field read. -/
def arriving (s : State) (g : Group) (c : BitVec 7) : Group :=
  (g.orFlags 0 ((cohort s).any fun l => (g.rdLane l c).2)).touchNames s.tick (g.vname c).toList []

theorem arriving_eq (s : State) (g : Group) (c : BitVec 7) : (arriving s g c).join = g.join ∧ (arriving s g c).joinArrived = g.joinArrived ∧
    (arriving s g c).detached = g.detached ∧ (arriving s g c).core = g.core := by
  obtain ⟨lr, sp, wf, h⟩ := touchNames_eq (g.orFlags 0 ((cohort s).any fun l => (g.rdLane l c).2)) s.tick (g.vname c).toList []
  rw [arriving, h]
  exact ⟨rfl, rfl, rfl, rfl⟩

/-- An arrival that is not counted (R373). -/
def Uncounted (g : Group) (jo : Join) : Prop :=
  jo.armed = false ∨ joinEpoch g.join ≠ jo.epoch ∨ g.joinArrived = true ∨ g.detached = true ∨ jo.m = jo.need

/-- A counted arrival after its Publish: it waits at a MIGRATING page, else the join counts it. -/
def joinPublished (s : State) (r : State × List Nat × Bool) (index : Nat) (tr : Trans) (i : BitVec 5) (c : BitVec 7) : R State :=
  if r.2.2 then .error (.hold r.1 (.page none))
  else
    match mget r.1.groups s.cur.group with
    | none => .error (.fault .noIssuer)
    | some g => .ok (joinCount r.1 g index tr i c)

/-- A count at the home slice, in a state whose issue is the given one. -/
theorem joinCount_of_cur {s s₀ : State} {g : Group} (hcur : s.cur = s₀.cur) (index : Nat) (tr : Trans) (i : BitVec 5) (c : BitVec 7) :
    joinCount s g index tr i c =
      let jo := readJoin s tr
      let j' := { jo with m := jo.m + 1, wa := (jo.wa + g.weight.toNat) % 2 ^ 32, acc := accAfter jo g (cohort s₀) c }
      let s₁ := seeBytes (done s { g with joinArrived := true }) (some s₀.cur.group) (paRange tr.pa 64)
      let s₂ := logEntry (writeJoin s₁ (agentOf g.core) (some s₀.cur.group) tr countFields j') g jo (g.rdW i.toNat)
      if j'.m = j'.need then releaseJoin s₂ (agentOf g.core) (some s₀.cur.group) g.ctx index tr j' else s₂ := by
  unfold cohort
  rw [← hcur]; rfl

section
variable {s : State} {g : Group} (hi : Issues s g) (hf : feature s g 3 = true)
include hi hf

theorem koffStep_ok (on : Bool) : finish (koffStep s on) =
    .next (done s { g with gstat := if on then g.gstat ||| 0x100000#64 else g.gstat &&& ~~~0x100000#64 }) := by
  rw [koffStep, issuer_bind hi, need_bind hf]; rfl

variable {j : BitVec 5} {index : Nat} {tr : Trans} (hj : joinFind s g.ctx g.core (g.rdW j.toNat) = .ok (index, tr))
include hj

omit hi hf in
theorem joinAt_ok : joinAt s g (g.rdW j.toNat) = .ok (index, tr) := by rw [joinAt, hj]

theorem joinReady_ok {reads writes : List Nat} (hfree : UniFree s g (j.toNat :: reads) writes) :
    joinReady s j reads writes = .ok (g, index, tr) := by
  rw [joinReady, issuer_ok hi, ok_bind, need, if_pos hf, ok_bind, useW_ok hfree, ok_bind, joinAt_ok hj]; rfl

theorem exec_joinArm {d : Option (BitVec 5)} {p : BitVec 5} (hfree : UniFree s g [j.toNat, p.toNat] (d.map (·.toNat)).toList)
    (hp : armOk (g.rdW p.toNat) = true) : exec (.joinArm d p j) s = .next (armJoin
      (done s (optW g d (u64 (armHandle (readJoin s tr) index (g.rdW p.toNat))))) (agentOf g.core) (some s.cur.group) tr (g.rdW p.toNat)) := by
  show finish (joinArmStep s d p j) = _
  simp only [joinArmStep, issuer_bind hi, need_bind hf, useW_bind hfree, need_bind hp, joinAt_ok hj, ok_bind]
  cases d <;> rfl

theorem exec_joinRead {d : BitVec 5} {sel : BitVec 2} (hfree : UniFree s g [j.toNat] [d.toNat]) : exec (.joinRead d sel j) s = .next
    (seeBytes (done s (g.wrW d.toNat (joinWord (readJoin s tr) sel))) (some s.cur.group) (fieldBytes tr (joinFields sel))) := by
  show finish (joinReadStep s d sel j) = _
  rw [joinReadStep, joinReady_ok hi hf hj hfree]; rfl

theorem exec_joinCancel (hfree : UniFree s g [j.toNat] []) : exec (.joinCancel j) s = .next (if (readJoin s tr).armed then
    settleJoin (writeJoin (seesState (done s g) tr) (agentOf g.core) (some s.cur.group) tr stateField
      { readJoin s tr with state := 3, result := 0 }) g.ctx index (readJoin s tr).epoch (readJoin s tr).detach
    else seesState (done s g) tr) := by
  show finish (joinCancelStep s j) = _
  have hcur : (seeBytes (done s g) (some s.cur.group) (fieldBytes tr stateField)).cur = s.cur := by
    rw [seeBytes_cur, done_cur]
  rw [joinCancelStep, joinReady_ok hi hf hj hfree, ok_bind]
  simp only [hcur, seesState, done_cur]
  rfl

/-- A wait on a join that is armed no more goes on: at once, or once the release waves have passed its group. -/
theorem exec_joinWait (hfree : UniFree s g [j.toNat] []) (hjoin : (readJoin s tr).armed = false)
    (hwait : Fresh s g ∨ (∃ i, issueWait s g = some (.join i)) ∧ inWave s s.cur.group g.core = false) :
    exec (.joinWait j) s = .next (doneNow (refreshGroup (seesState s tr) s.cur.group .dev)) := by
  show finish (joinWaitStep s j) = _
  rw [joinWaitStep, joinReady_ok hi hf hj hfree, ok_bind]
  obtain hfresh | ⟨⟨i, hjw⟩, hwave⟩ := hwait
  · simp only [show issueWait s g = none from hfresh, hjoin]; rfl
  · simp only [hjw, hwave, hjoin]; rfl

/-- An arrival whose registers are free: it only reads the object, or its Publish is made and the join counts it. -/
theorem joinArriveStep_eq {i : BitVec 5} {c : BitVec 7} (hfree : UniFree s g [j.toNat, i.toNat] []) (hc : VecFree s g (cohort s) [c] [])
    (hindex : joinIndex g.join = index) : joinArriveStep s i c j =
      if !(readJoin s tr).armed || decide (joinEpoch g.join ≠ (readJoin s tr).epoch) || g.joinArrived || g.detached ||
          decide ((readJoin s tr).m = (readJoin s tr).need) then
        .ok (seeBytes (done s (arriving s g c)) (some s.cur.group) (fieldBytes tr countedBy))
      else stallIf s (stashLeft s g.core s.cur.group) >>= fun _ =>
        joinPublished s (publishGroup (setGroup s s.cur.group (arriving s g c)) s.cur.group .dev) index tr i c := by
  obtain ⟨hrows, huni⟩ := vecFree_one hc
  have hboth : ∀ k ∈ [j.toNat, i.toNat] ++ (if isUni c then [uniIdx c] else []), busyW s g k = false ∧ g.badW k = none := by
    intro k hk
    obtain hk | hk := List.mem_append.1 hk
    · exact ⟨hfree.1 k (List.mem_append_left _ hk), hfree.2 k hk⟩
    · exact huni k hk
  obtain ⟨hjoin, harr, hdet, hcore⟩ := arriving_eq s g c
  have harriving : (g.orFlags 0 ((cohort s).any fun l => (g.rdLane l c).2)).touchNames s.tick (g.vname c).toList [] = arriving s g c := rfl
  simp only [joinArriveStep, issuer_bind hi, need_bind hf, scoreboard_ok (fun n hn => (hrows n hn).1) (fun k hk => (hboth k hk).1), ok_bind,
    filled_ok (fun n hn => (hrows n hn).2.1), readyU_ok (fun k hk => (hboth k hk).2), readOk_bind (fun n hn => (hrows n hn).2.2), joinAt_ok hj,
    need_bind (decide_eq_true hindex), harriving, hjoin, harr, hdet, hcore]
  rfl

/-- An arrival that is not counted reads the object and goes on. -/
theorem exec_joinArrive_uncounted {i : BitVec 5} {c : BitVec 7} (hfree : UniFree s g [j.toNat, i.toNat] [])
    (hc : VecFree s g (cohort s) [c] []) (hindex : joinIndex g.join = index) (h : Uncounted g (readJoin s tr)) :
    exec (.joinArrive i c j) s = .next (seeBytes (done s (arriving s g c)) (some s.cur.group) (fieldBytes tr countedBy)) := by
  show finish (joinArriveStep s i c j) = _
  rw [joinArriveStep_eq hi hf hj hfree hc hindex, if_pos]
  · rfl
  · obtain h | h | h | h | h := h <;> simp [h]

/-- An arrival that is counted: its Publish, the count, and the release with the last one needed. -/
theorem exec_joinArrive_counted {i : BitVec 5} {c : BitVec 7} {g' : Group} (hfree : UniFree s g [j.toNat, i.toNat] [])
    (hc : VecFree s g (cohort s) [c] []) (hindex : joinIndex g.join = index)
    (h : (readJoin s tr).armed = true ∧ joinEpoch g.join = (readJoin s tr).epoch ∧ g.joinArrived = false ∧ g.detached = false ∧
      (readJoin s tr).m ≠ (readJoin s tr).need) (hstash : stashLeft s g.core s.cur.group = false)
    (hgone : (publishGroup (setGroup s s.cur.group (arriving s g c)) s.cur.group .dev).2.2 = false)
    (hg' : mget (publishGroup (setGroup s s.cur.group (arriving s g c)) s.cur.group .dev).1.groups s.cur.group = some g') :
    exec (.joinArrive i c j) s =
      .next (joinCount (publishGroup (setGroup s s.cur.group (arriving s g c)) s.cur.group .dev).1 g' index tr i c) := by
  obtain ⟨harmed, hepoch, harr, hdet, hneed⟩ := h
  show finish (joinArriveStep s i c j) = _
  rw [joinArriveStep_eq hi hf hj hfree hc hindex, if_neg (by simp [harmed, hepoch, harr, hdet, hneed]), stallIf_bind hstash]
  rw [joinPublished, hgone, if_neg Bool.false_ne_true, hg']
  rfl

end

end Sys2Proof.Machine

namespace Sys2Proof
open Sys2Proof.Machine Sys2Proof.Claim

/-- Settles O19: each instruction runs once nothing holds it. -/
theorem ringInstructionsComplete : Obligations.RingInstructionsComplete := by
  unfold Obligations.RingInstructionsComplete
  intro s g tid t r hi ht hf
  refine ⟨?_, ?_, ?_, ?_⟩
  · intro st u b tr hfree hring hst hu hread hgood hstream himage htr hroom
    exact exec_engineSub hi ht hf hfree hring hst hu hread hgood hstream himage htr hroom
  · exact fun u hfree hu => exec_subend hi ht hf hfree hu
  · intro x u hx hfree hfreex hu hlt hslot
    exact exec_slotdone hi ht hf hfree (slotArg_uni hx hfreex) rfl hu hlt hslot
  · intro x u l hx hfree hl hfreex hu hlt hslot
    exact exec_slotdone hi ht hf hfree (slotArg_vec hx hl hfreex) (rdW_touched _ _ _ _ _ _) hu hlt hslot

/-- Settles O22: each minor runs once its object is found; the arrival splits into the one that is counted and the one that is not. -/
theorem joinsComplete : Obligations.JoinsComplete := by
  unfold Obligations.JoinsComplete
  intro s g hi hf
  refine ⟨koffStep_ok hi hf true, koffStep_ok hi hf false, fun j index tr hj => ⟨fun d p hfree hp => exec_joinArm hi hf hj hfree hp,
    fun d sel hfree => ⟨_, exec_joinRead hi hf hj hfree, uniDone_of_wrW _ _ _ _ d.isLt⟩,
    fun hfree => ⟨exec_joinWait hi hf hj hfree, exec_joinCancel hi hf hj hfree⟩, fun i c hfree hc hindex => ⟨fun h => ?_, ?_⟩⟩⟩
  · exact exec_joinArrive_uncounted hi hf hj hfree hc hindex h
  · intro g' harmed hepoch harr hdet hneed hstash hgone hg' hcur
    refine Eq.trans (exec_joinArrive_counted hi hf hj hfree hc hindex ⟨harmed, hepoch, harr, hdet, hneed⟩ hstash hgone hg') ?_
    exact congrArg Host.Outcome.next (joinCount_of_cur hcur index tr i c)

end Sys2Proof
end

section
/-! PROOFS. The ends of kernels, teams and groups, and of a Publish (R138, R161, R236, R306, R310, R311, R377, R378). -/

namespace Sys2Proof.Machine
open Sys2Proof.Claim

/-! ### Kernels -/

theorem exec_kernelRelease {s : State} {kid : Nat} {k : Kernel} (core : Nat) (hk : mget s.kernels kid = some k) :
    exec (.kernelRelease kid core) s = .next (if k.st ≠ .drained then s
      else if holdsKernel (setCore s core (released s kid core k)) kid k then setCore s core (released s kid core k)
      else { setCore s core (released s kid core k) with kernels := mdel s.kernels kid }) := by
  show Host.Outcome.next (kernelRelease s kid core) = _
  rw [kernelRelease, hk]; rfl

/-! ### Teams -/

/-- Table 12.4 holds the team no longer, and no switch has stopped its context. -/
def retirable (s : State) (tid : Nat) (t : Team) : Bool :=
  t.ended && !teamBusy s tid t && t.subs.isEmpty && t.cr.toList.all (· == .empty) && !switching s t.ctx

/-- What TEAM_RETIRE leaves of the state once nothing of the team is dirty. -/
def teamGone (s : State) (tid : Nat) (t : Team) : State :=
  settleContext (settleKernel { lastDirty s tid with
    teams := mdel (lastDirty s tid).teams tid
    groups := (lastDirty s tid).groups.filter fun p => decide (p.2.team ≠ some tid) } t.kernel) t.ctx

theorem exec_teamRetire {s : State} {tid : Nat} {t : Team} (ht : mget s.teams tid = some t) :
    exec (.teamRetire tid) s = .next (if retirable s tid t then
      if (mget (lastDirty s tid).teams tid).any fun t => !t.stashDirty.isEmpty then lastDirty s tid else teamGone s tid t
      else s) := by
  show Host.Outcome.next (teamRetire s tid) = _
  rw [teamRetire, ht]; rfl

theorem teamBusy_iff {s : State} {tid : Nat} {t : Team} : teamBusy s tid t = true ↔
    (∃ o ∈ (coreOf s t.core).seq, o.team = tid) ∨ ∃ o ∈ (coreOf s t.core).eng, o.team = tid := by
  simp only [teamBusy, Bool.or_eq_true, List.any_eq_true, decide_eq_true_eq]

theorem commits_iff {t : Team} : t.cr.toList.all (· == .empty) = true ↔ ∀ i : Fin 32, t.cr[i] = .empty := by
  simp only [List.all_eq_true, beq_iff_eq, Vector.mem_toList_iff]
  refine ⟨fun h i => h _ (Vector.getElem_mem i.isLt), fun h x hx => ?_⟩
  obtain ⟨i, hi, rfl⟩ := Vector.getElem_of_mem hx
  exact h ⟨i, hi⟩

theorem retirable_of_retires {s : State} {tid : Nat} {t : Team} (h : Retires s tid t) : retirable s tid t = true := by
  have hbusy : teamBusy s tid t = false := by
    rw [← Bool.not_eq_true, teamBusy_iff]
    rintro (⟨o, ho, hteam⟩ | ⟨o, ho, hteam⟩)
    · exact h.seq o ho hteam
    · exact h.eng o ho hteam
  rw [retirable, h.ended, hbusy, h.subs, commits_iff.2 h.commits, h.context]; rfl

theorem retirable_iff {s : State} {tid : Nat} {t : Team} : retirable s tid t = true ↔
    t.ended = true ∧ teamBusy s tid t = false ∧ t.subs = [] ∧ (∀ i : Fin 32, t.cr[i] = .empty) ∧ switching s t.ctx = false := by
  rw [← commits_iff, retirable]
  simp only [Bool.and_eq_true, Bool.not_eq_true', List.isEmpty_iff, and_assoc]

theorem teamRetire_held {s : State} {tid : Nat} (h : ∀ t, mget s.teams tid = some t → t.ended = false ∨ t.subs ≠ [] ∨
    (∃ i : Fin 32, t.cr[i] ≠ .empty) ∨ (∃ o ∈ (coreOf s t.core).seq, o.team = tid) ∨ (∃ o ∈ (coreOf s t.core).eng, o.team = tid)) :
    exec (.teamRetire tid) s = .next s := by
  cases ht : mget s.teams tid with
  | none =>
    show Host.Outcome.next (teamRetire s tid) = _
    rw [teamRetire, ht]
  | some t =>
    rw [exec_teamRetire ht, if_neg]
    intro hret
    obtain ⟨hended, hbusy, hsubs, hcr, -⟩ := retirable_iff.1 hret
    rw [← Bool.not_eq_true, teamBusy_iff] at hbusy
    obtain hwhy | hwhy | ⟨i, hwhy⟩ | hwhy := h t ht
    · rw [hended] at hwhy; cases hwhy
    · exact hwhy hsubs
    · exact hwhy (hcr i)
    · exact hbusy hwhy

theorem retirementEventsComplete : RetirementEventsComplete := by
  refine ⟨fun s kid core k hk hst => ?_, fun s kid core k hk hst => ?_, fun s tid t hr => ⟨fun t' ht' hdirty => ?_, fun hclean => ?_⟩,
    fun s tid h => teamRetire_held h⟩
  · exact (exec_kernelRelease core hk).trans (congrArg Host.Outcome.next (if_neg (not_not.2 hst)))
  · exact (exec_kernelRelease core hk).trans (congrArg Host.Outcome.next (if_pos hst))
  · rw [exec_teamRetire hr.team, if_pos (retirable_of_retires hr), ht', if_pos]
    simpa using hdirty
  · rw [exec_teamRetire hr.team, if_pos (retirable_of_retires hr), if_neg]
    · rfl
    · cases h : mget (lastDirty s tid).teams tid with
      | none => exact Bool.false_ne_true
      | some t' => rw [Option.any_some, hclean t' h]; exact Bool.false_ne_true

/-! ### Groups -/

section
variable {s : State} {gid : Nat} {g : Group} (hg : mget s.groups gid = some g)

theorem betweenInstrs_of_between (h : Between g) : g.betweenInstrs = true := by
  obtain ⟨hpub, hrec, hpeer⟩ := h
  have hstop : g.publishing.all (·.stopped) = true := by
    cases hp : g.publishing with
    | none => rfl
    | some p => exact hpub p hp
  rw [Group.betweenInstrs, hstop, hrec, hpeer]; rfl

include hg

theorem exec_groupKill : exec (.groupKill gid) s =
    .next (if g.killDue.isSome && g.betweenInstrs && (!g.koff || g.isWaiting s gid) then killGroup s gid else s) := by
  show Host.Outcome.next (groupKill s gid) = _
  rw [groupKill, hg]

theorem exec_killDeadline : exec (.killDeadline gid) s = .next (if g.killLate s && g.betweenInstrs then killGroup s gid else s) := by
  show Host.Outcome.next (killDeadline s gid) = _
  rw [killDeadline, hg]

/-! ### The end of a Publish -/

variable {p : Publishing} (hp : g.publishing = some p)
include hp

theorem publishComplete_done (hstop : p.stopped = false) (hrem : p.remote = []) : exec (.publishComplete gid) s =
    .next (if p.last then exitGroup s gid else match p.refresh with
      | none => setGroup s gid { g with publishing := none }
      | some sc => refreshGroup (setGroup s gid { g with publishing := none }) gid sc) := by
  show Host.Outcome.next (publishComplete s gid) = _
  simp only [publishComplete, hg, hp, hstop, hrem] <;> rfl

theorem publishComplete_waits (hstop : p.stopped = false) (hrem : p.remote ≠ []) : exec (.publishComplete gid) s = .next s := by
  have hsome : (!p.remote.isEmpty) = true := by simpa using hrem
  show Host.Outcome.next (publishComplete s gid) = _
  simp only [publishComplete, hg, hp, hstop, hsome]
  rfl

theorem publishComplete_switching (hstop : p.stopped = true) (hsw : switching s g.ctx = true) :
    exec (.publishComplete gid) s = .next s := by
  show Host.Outcome.next (publishComplete s gid) = _
  simp only [publishComplete, hg, hp, hstop, hsw]
  rfl

theorem publishComplete_again {g' : Group} (hstop : p.stopped = true) (hsw : switching s g.ctx = false)
    (hg' : mget (publishGroup s gid p.scope).1.groups gid = some g') : exec (.publishComplete gid) s =
    .next (setGroup (publishGroup s gid p.scope).1 gid { g' with
      publishing := some { p with remote := p.remote ++ (publishGroup s gid p.scope).2.1, stopped := (publishGroup s gid p.scope).2.2 } }) := by
  show Host.Outcome.next (publishComplete s gid) = _
  simp only [publishComplete, hg, hp, hstop, hsw, hg']
  rfl

end

theorem killAndPublishEventsComplete : KillAndPublishEventsComplete := by
  intro s gid g hg
  refine ⟨fun hdue hbetween hkoff => ?_, fun hdue => ⟨?_, ?_⟩, fun since hdue hbetween hlate => ?_, fun since hdue hearly => ?_,
    fun p hp hstop => ⟨publishComplete_waits hg hp hstop, publishComplete_done hg hp hstop⟩, fun p hp => publishComplete_switching hg hp,
    fun p g' hp => publishComplete_again hg hp⟩
  · rw [exec_groupKill hg, if_pos]
    rw [betweenInstrs_of_between hbetween, Option.isSome_iff_ne_none.2 hdue]
    obtain h | h := hkoff <;> simp [h]
  · rw [exec_groupKill hg, hdue]; rfl
  · rw [exec_killDeadline hg, Group.killLate, hdue]; rfl
  · rw [exec_killDeadline hg, Group.killLate, hdue, betweenInstrs_of_between hbetween, if_pos]
    rw [Option.any_some, decide_eq_true hlate]; rfl
  · rw [exec_killDeadline hg, Group.killLate, hdue, if_neg]
    rw [Option.any_some, decide_eq_false (Nat.not_le.2 hearly)]; exact Bool.false_ne_true

end Sys2Proof.Machine

namespace Sys2Proof
open Sys2Proof.Machine Sys2Proof.Claim

/-- Settles O39: the retirements, then the kills and the end of a Publish. -/
theorem endsComplete : Obligations.EndsComplete := by
  unfold Obligations.EndsComplete
  exact ⟨retirementEventsComplete, killAndPublishEventsComplete⟩

end Sys2Proof
end

section
/-! PROOFS. The answers of memory, the stash, WAITM and the matrix sequencer, and what a refresh forces (R143, R145, R215 to R217, R228,
R229, R237 to R240). -/

namespace Sys2Proof.Machine
open Sys2Proof.Claim

/-! ### LOAD_RETURN -/

section
variable {s : State} {gid n : Nat} {g : Group} {l : Load} (hg : mget s.groups gid = some g) (hl : LoadHere g n l)
include hg hl

theorem loadReturn_relocking (hclk : clocksStopped s g.core = true) : exec (.loadReturn gid n) s = .next s := by
  show Host.Outcome.next (loadReturn s gid n) = _
  rw [loadReturn, hg]
  simp only [hl.1, hclk, if_true]

theorem loadReturn_bad (hclk : clocksStopped s g.core = false) (hbad : l.bad = true) :
    exec (.loadReturn gid n) s = .next (setGroup s gid ((unloaded g n).markBad l)) := by
  show Host.Outcome.next (loadReturn s gid n) = _
  rw [loadReturn, hg]
  simp only [hl.1, hclk, hbad, Bool.false_eq_true, if_false]
  cases l.val <;> rfl

theorem loadReturn_val {v : BitVec 128} (hclk : clocksStopped s g.core = false) (hbad : l.bad = false) (hv : l.val = some v) :
    exec (.loadReturn gid n) s = .next (match l.lane with
      | none => setGroup s gid ((unloaded g n).wrW (l.names.headD 0) (loadUni l.sz v.toNat))
      | some i => setGroup s gid ((unloaded g n).onLanes (BitVec.twoPow 32 i) fun _ t => t.update [] (l.names.zip (loadWords l.sz v.toNat)))) := by
  show Host.Outcome.next (loadReturn s gid n) = _
  rw [loadReturn, hg]
  simp only [hl.1, hclk, hbad, hv, Bool.false_eq_true, if_false, Option.getD_some] <;> rfl

end

/-! ### STASH_FILL_DONE -/

/-- A write of scratch changes the bytes, the written bits and the touched lines. -/
theorem write_keeps (t : Team) (now off : Nat) (bs : List Byte) : (t.write now off bs).stashDirty = t.stashDirty ∧
    (t.write now off bs).stashFills = t.stashFills := by
  have hlines : ∀ (ls : List Nat) (t : Team), (markWritten t ls).stashDirty = t.stashDirty ∧ (markWritten t ls).stashFills = t.stashFills := by
    intro ls
    induction ls with
    | nil => exact fun t => ⟨rfl, rfl⟩
    | cons x xs ih => exact fun t => ih _
  rw [write_eq]
  exact hlines _ _

/-- One byte of a fill (R128): it comes in where no dirty byte stands. -/
def fillByte (now sec : Nat) (t : Team) (p : Nat × Byte) : Team :=
  if (mget t.stashDirty (sec * 32 + p.1)).isSome then t else t.write now (sec * 32 + p.1) [p.2]

theorem fillByte_keeps (now sec : Nat) (t : Team) (p : Nat × Byte) : (fillByte now sec t p).stashDirty = t.stashDirty ∧
    (fillByte now sec t p).stashFills = t.stashFills := by
  unfold fillByte
  split
  · exact ⟨rfl, rfl⟩
  · exact write_keeps _ _ _ _

theorem rdByte_fillByte (now sec : Nat) (t : Team) (p : Nat × Byte) (a : Nat) : rdByte (fillByte now sec t p).scratch a =
    if mget t.stashDirty (sec * 32 + p.1) = none ∧ sec * 32 + p.1 = a then p.2 else rdByte t.scratch a := by
  unfold fillByte
  cases h : mget t.stashDirty (sec * 32 + p.1) with
  | some d => simp
  | none =>
    rw [if_neg (by simp), scratch_write]
    show rdByte (wrByte t.scratch (sec * 32 + p.1) p.2) a = _
    rw [rdByte_wrByte]; simp

theorem fillBytes_keeps (now sec : Nat) (ps : List (Nat × Byte)) : ∀ t : Team, (ps.foldl (fillByte now sec) t).stashDirty = t.stashDirty ∧
    (ps.foldl (fillByte now sec) t).stashFills = t.stashFills := by
  induction ps with
  | nil => exact fun t => ⟨rfl, rfl⟩
  | cons p ps ih =>
    intro t
    obtain ⟨hdirty, hfills⟩ := ih (fillByte now sec t p)
    obtain ⟨hdirty', hfills'⟩ := fillByte_keeps now sec t p
    exact ⟨hdirty.trans hdirty', hfills.trans hfills'⟩

/-- A byte that the fill does not bring in is as it was. -/
theorem rdByte_fillBytes_of_out {now sec a : Nat} (ps : List (Nat × Byte)) : ∀ t : Team,
    (∀ p ∈ ps, mget t.stashDirty (sec * 32 + p.1) = none → a ≠ sec * 32 + p.1) →
    rdByte (ps.foldl (fillByte now sec) t).scratch a = rdByte t.scratch a := by
  induction ps with
  | nil => exact fun t _ => rfl
  | cons p ps ih =>
    intro t h
    rw [List.foldl_cons, ih, rdByte_fillByte, if_neg]
    · exact fun hp => h p List.mem_cons_self hp.1 hp.2.symm
    · intro q hq
      rw [(fillByte_keeps now sec t p).1]
      exact h q (List.mem_cons_of_mem _ hq)

/-- A byte that the fill brings in, no other one being for its place. -/
theorem rdByte_fillBytes_of_mem {now sec : Nat} {q : Nat × Byte} (ps : List (Nat × Byte)) : ∀ t : Team, (ps.map (·.1)).Nodup → q ∈ ps →
    mget t.stashDirty (sec * 32 + q.1) = none → rdByte (ps.foldl (fillByte now sec) t).scratch (sec * 32 + q.1) = q.2 := by
  induction ps with
  | nil => exact fun t _ h => absurd h List.not_mem_nil
  | cons p ps ih =>
    intro t hnodup hq hclean
    rw [List.map_cons, List.nodup_cons] at hnodup
    obtain rfl | hq := List.mem_cons.1 hq
    · rw [List.foldl_cons, rdByte_fillBytes_of_out, rdByte_fillByte, if_pos ⟨hclean, rfl⟩]
      intro p hp _ heq
      exact hnodup.1 (List.mem_map.2 ⟨p, hp, by omega⟩)
    · rw [List.foldl_cons]
      exact ih _ hnodup.2 hq (by rw [(fillByte_keeps now sec t p).1]; exact hclean)

theorem mem_sector {bs : List Byte} {i : Nat} {b : Byte} (hi : i < 32) (hb : bs[i]? = some b) : (i, b) ∈ (List.range 32).zip bs := by
  refine List.mem_iff_getElem?.2 ⟨i, ?_⟩
  rw [List.getElem?_zip_eq_some]
  exact ⟨List.getElem?_range hi, hb⟩

theorem nodup_sector (bs : List Byte) : (((List.range 32).zip bs).map (·.1)).Nodup := by
  rw [List.zip_eq_zip_take_min, List.map_fst_zip (by simp)]
  exact List.nodup_range.sublist (List.take_sublist _ _)

/-- The team whose sector a fill has brought in. -/
def filledTeam (now sec : Nat) (t : Team) (bs : List Byte) : Team :=
  { ((List.range 32).zip bs).foldl (fillByte now sec) { t with stashFills := t.stashFills.filter fun p => decide (p.1 ≠ sec) } with
    stashFull := sec :: (((List.range 32).zip bs).foldl (fillByte now sec)
      { t with stashFills := t.stashFills.filter fun p => decide (p.1 ≠ sec) }).stashFull }

theorem filledTeam_spec (now sec : Nat) (t : Team) (bs : List Byte) : sec ∈ (filledTeam now sec t bs).stashFull ∧
    (∀ p ∈ (filledTeam now sec t bs).stashFills, p.1 ≠ sec) ∧
    (∀ i b, i < 32 → mget t.stashDirty (sec * 32 + i) = none → bs[i]? = some b →
      rdByte (filledTeam now sec t bs).scratch (sec * 32 + i) = b) ∧
    (∀ a, (∀ i, i < 32 → mget t.stashDirty (sec * 32 + i) = none → a ≠ sec * 32 + i) →
      rdByte (filledTeam now sec t bs).scratch a = rdByte t.scratch a) := by
  refine ⟨List.mem_cons_self, fun p hp => ?_, fun i b hi hclean hb => ?_, fun a ha => ?_⟩
  · have hkept : (filledTeam now sec t bs).stashFills = t.stashFills.filter fun p => decide (p.1 ≠ sec) :=
      (fillBytes_keeps now sec ((List.range 32).zip bs) { t with stashFills := t.stashFills.filter fun p => decide (p.1 ≠ sec) }).2
    rw [hkept] at hp
    exact of_decide_eq_true (List.mem_filter.1 hp).2
  · exact rdByte_fillBytes_of_mem _ _ (nodup_sector bs) (mem_sector hi hb) hclean
  · refine rdByte_fillBytes_of_out _ _ fun p hp hclean => ha p.1 ?_ hclean
    exact List.mem_range.1 (List.of_mem_zip hp).1

section
variable {s : State} {tid sec gid : Nat} {t : Team} {g : Group} {tr : Trans} (hf : FillAt s tid sec gid t g tr)
include hf

theorem stashFill_relocking (hclk : clocksStopped s t.core = true) : exec (.stashFillDone tid sec) s = .next s := by
  show Host.Outcome.next (stashFillDone s tid sec) = _
  rw [stashFillDone, hf.team]
  simp only [hf.fill, hclk, if_true]

theorem stashFill_done (hclk : clocksStopped s t.core = false) : exec (.stashFillDone tid sec) s = .next (match fillRead s gid g tr with
    | none => setTeam s tid { t with stashFills := t.stashFills.filter fun p => decide (p.1 ≠ sec), stashErrs := t.stashErrs ++ [(sec, gid)] }
    | some r => setTeam (setGroup s gid { g with seen := r.2 }) tid (filledTeam s.tick sec t r.1)) := by
  obtain ⟨w, hw⟩ := Option.ne_none_iff_exists'.1 hf.window
  show Host.Outcome.next (stashFillDone s tid sec) = _
  rw [stashFillDone, hf.team]
  simp only [hf.fill, hclk, Bool.false_eq_true, if_false, hf.group, hw, hf.trans, if_neg hf.near]
  cases fillRead s gid g tr <;> rfl

end

theorem memoryEventsComplete : MemoryEventsComplete := by
  refine ⟨fun s gid n g l hg hl => ⟨loadReturn_relocking hg hl, fun hclk => ⟨loadReturn_bad hg hl hclk,
      fun v hbad hv => ⟨fun hlane => ?_, fun i hlane => ?_⟩⟩⟩,
    fun s tid sec gid t g tr hf => ⟨stashFill_relocking hf, fun hclk => ⟨fun hbad => ?_, fun bs seen hread => ?_⟩⟩,
    fun s gid code g hg => ⟨?_, congrArg Host.Outcome.next (waitmTimeout_eq hg)⟩⟩
  · rw [loadReturn_val hg hl hclk hbad hv, hlane]
  · rw [loadReturn_val hg hl hclk hbad hv, hlane]
  · rw [stashFill_done hf hclk, hbad]
  · exact ⟨_, by rw [stashFill_done hf hclk, hread], filledTeam_spec s.tick sec t bs⟩
  · show Host.Outcome.next (waitmWake s gid code) = _
    rw [waitmWake, wakeIf, hg]

/-! ### The matrix sequencer -/

theorem coreOf_setCore (s : State) (k : Nat) (x : Core) : coreOf (setCore s k x) k = x := by
  unfold coreOf
  rw [setCore_cores, mgetD_mput, if_pos rfl]

theorem seqHead_putHead (s : State) (core : Nat) (o : SeqOp) : seqHead (putHead s core o) core = some o := by
  rw [seqHead, putHead, coreOf_setCore]; rfl

/-- Every kind of operation but MZERO, which has no access, counts the access made. -/
theorem access_done {s : State} {t : Team} {o : SeqOp} {a : Access} (ha : o.kind.access o.done = some a) :
    (o.access s t a).2.kind = o.kind ∧ (o.access s t a).2.done = o.done + 1 := by
  have hstep : ∀ (t : Team) (o : SeqOp) (acc : Nat) (da db : Desc) (z : Bool) (rm cm : BitVec 32),
      (stepLoop s t o acc da db z rm cm).2.kind = o.kind ∧ (stepLoop s t o acc da db z rm cm).2.done = o.done := by
    intro t o acc da db z rm cm
    unfold stepLoop
    split <;> exact ⟨rfl, rfl⟩
  unfold SeqOp.access
  cases hk : o.kind with
  | mzero acc => rw [hk] at ha; cases ha
  | mloop acc da db n z rm cm => exact ⟨(hstep _ _ _ _ _ _ _ _).1.trans hk, (hstep _ _ _ _ _ _ _ _).2⟩
  | mproj k acc da db n cfg => exact ⟨(hstep _ _ _ _ _ _ _ _).1.trans hk, (hstep _ _ _ _ _ _ _ _).2⟩
  | mload acc d => exact ⟨hk, rfl⟩
  | mstore acc d frm => exact ⟨rfl, rfl⟩
  | draw d a span table mask key => exact ⟨hk, rfl⟩

section
variable {s : State} {core : Nat} {o : SeqOp} {rest : List SeqOp} {t : Team} (hhead : (coreOf s core).seq = o :: rest)
  (ht : mget s.teams o.team = some t)

include hhead in
theorem seqHead_of_seq : seqHead s core = some o := by rw [seqHead, hhead]; rfl

include hhead in
theorem sequencerComplete_eq : sequencerComplete s core = seqFinish (sequencerRun core (o.kind.accesses - o.done) s) core := by
  rw [sequencerComplete, seqHead_of_seq hhead]; rfl

theorem sequencerRun_of_stuck {s : State} {core : Nat} (h : sequencerAccess s core = s) : ∀ n, sequencerRun core n s = s
  | 0 => rfl
  | n + 1 => by rw [sequencerRun, h, sequencerRun_of_stuck h n]

include hhead ht

theorem sequencerAccess_held {a : Access} (ha : o.kind.access o.done = some a) (hheld : accessReady s o.team t a = false) :
    sequencerAccess s core = s := by
  rw [sequencerAccess, seqHead_of_seq hhead]
  simp only [ht, ha, hheld]
  rfl

theorem sequencerAccess_relocking (hclk : clocksStopped s core = true) : sequencerAccess s core = s := by
  rw [sequencerAccess, seqHead_of_seq hhead]
  simp only [ht]
  cases o.kind.access o.done with
  | none => rfl
  | some a => simp only [hclk, Bool.not_true, Bool.and_false]; rfl

theorem sequencerAccess_ready {a : Access} (ha : o.kind.access o.done = some a) (hready : accessReady s o.team t a = true)
    (hclk : clocksStopped s core = false) :
    sequencerAccess s core = putHead (setTeam s o.team (o.access s t a).1) core (o.access s t a).2 := by
  rw [sequencerAccess, seqHead_of_seq hhead]
  simp only [ht, ha, hready, hclk]
  rfl

theorem seqFinish_eq : seqFinish s core = if o.kind.accesses ≤ o.done ∧ clocksStopped s core = false then
    setCore (finishSeq s o t) core { coreOf (finishSeq s o t) core with seq := (coreOf (finishSeq s o t) core).seq.tail } else s := by
  rw [seqFinish, seqHead_of_seq hhead]
  simp only [ht]

/-- Where the next access cannot be made, the move makes none. -/
theorem sequencerComplete_stuck (hstuck : sequencerAccess s core = s) (hopen : ¬(o.kind.accesses ≤ o.done ∧ clocksStopped s core = false)) :
    exec (.sequencerComplete core) s = .next s := by
  show Host.Outcome.next (sequencerComplete s core) = _
  rw [sequencerComplete_eq hhead, sequencerRun_of_stuck hstuck, seqFinish_eq hhead ht, if_neg hopen]

/-- A ready access made first leaves the rest of the move. -/
theorem sequencerComplete_ready {a : Access} (ha : o.kind.access o.done = some a) (hready : accessReady s o.team t a = true)
    (hleft : o.done < o.kind.accesses) (hclk : clocksStopped s core = false) : exec (.sequencerComplete core) s =
    exec (.sequencerComplete core) (putHead (setTeam s o.team (o.access s t a).1) core (o.access s t a).2) := by
  obtain ⟨hkind, hdone⟩ := access_done (s := s) (t := t) ha
  have hcount : o.kind.accesses - o.done = (o.kind.accesses - (o.done + 1)) + 1 := by omega
  show Host.Outcome.next (sequencerComplete s core) = Host.Outcome.next (sequencerComplete _ core)
  rw [sequencerComplete_eq hhead, hcount, sequencerRun, sequencerAccess_ready hhead ht ha hready hclk, sequencerComplete, seqHead_putHead,
    Option.elim_some, hkind, hdone]

theorem sequencerComplete_done (hdone : o.kind.accesses ≤ o.done) (hclk : clocksStopped s core = false) :
    exec (.sequencerComplete core) s = .next (setCore (finishSeq s o t) core
      { coreOf (finishSeq s o t) core with seq := (coreOf (finishSeq s o t) core).seq.tail }) := by
  show Host.Outcome.next (sequencerComplete s core) = _
  rw [sequencerComplete_eq hhead, Nat.sub_eq_zero_of_le hdone, sequencerRun, seqFinish_eq hhead ht, if_pos ⟨hdone, hclk⟩]

end

theorem acct_setAcct (t : Team) (a a' : Nat) (x : AccTile) : (t.setAcct a x).acct a' = if a = a' then x else t.acct a' := by
  unfold Team.setAcct Team.acct
  exact mgetD_mputD _ _ _ _ _

theorem sequencerCompletes : SequencerCompletes := by
  intro s core o rest t hhead ht
  refine ⟨fun a ha hheld hleft => ?_, fun a ha hready hleft hclk => ?_, fun hclk => ?_, fun hdone hclk => sequencerComplete_done hhead ht hdone hclk,
    fun acc hk hclk => ?_⟩
  · have hstuck := sequencerAccess_held hhead ht ha hheld
    exact ⟨sequencerComplete_stuck hhead ht hstuck fun h => Nat.not_le.2 hleft h.1, congrArg Fetched.idle hstuck⟩
  · exact ⟨sequencerComplete_ready hhead ht ha hready hleft hclk, congrArg Fetched.idle (sequencerAccess_ready hhead ht ha hready hclk)⟩
  · have hstuck := sequencerAccess_relocking hhead ht hclk
    exact ⟨sequencerComplete_stuck hhead ht hstuck fun h => Bool.false_ne_true (h.2.symm.trans hclk), congrArg Fetched.idle hstuck⟩
  · have hdone : o.kind.accesses ≤ o.done := by rw [hk]; exact Nat.zero_le _
    have hfin : finishSeq s o t = setTeam s o.team (t.setAcct acc AccTile.zero) := by rw [finishSeq, hk]
    refine ⟨t.setAcct acc AccTile.zero, _, sequencerComplete_done hhead ht hdone hclk, ?_, ?_, fun a ha => ?_⟩
    · rw [setCore_teams, hfin]
      exact mget_mput_self _ _ _
    · rw [acct_setAcct, if_pos rfl]
    · rw [acct_setAcct, if_neg (Ne.symm ha)]

/-! ### What a refresh forces (R143, R145) -/

theorem refreshForces : RefreshForces := by
  intro s gid g sc hg
  refine ⟨g.refresh sc s.fresh, by rw [refreshGroup_groups hg, mget_mput_self], rfl, fun key e m hvis hm hscope => ⟨hvis, ?_⟩⟩
  refine hm.trans (le_of_eq ?_)
  show s.fresh = (Vector.ofFn fun i => if i ≤ sc.idx then s.fresh else g.rho[i])[between e.who (agentOf g.core)]
  rw [Fin.getElem_fin, Vector.getElem_ofFn]
  exact (if_pos hscope).symm

end Sys2Proof.Machine

namespace Sys2Proof
open Sys2Proof.Machine Sys2Proof.Claim

/-- Settles O40: memory and the stash, the sequencer by the case of its next access, and the refresh. -/
theorem memoryAndSequencerEventsComplete : Obligations.MemoryAndSequencerEventsComplete := by
  unfold Obligations.MemoryAndSequencerEventsComplete
  exact ⟨memoryEventsComplete, sequencerCompletes, refreshForces⟩

end Sys2Proof
end

section
/-! PROOFS. Acceptance of engine operations, delivery of multicast copies, acknowledgements and the retry of stalled operations (R243,
R246, R249, R365, R382, R405). -/

namespace Sys2Proof.Machine
open Sys2Proof.Claim

/-! ### Acceptance -/

theorem linesReady_iff {s : State} {core : Nat} {t : Team} {o : EngOp} :
    (!linesReady s core t o || clocksStopped s core) = false ↔ AcceptFree s t core o := by
  unfold linesReady AcceptFree SlotFree
  simp only [Bool.or_eq_false_iff, Bool.not_eq_false', Bool.and_eq_true, Bool.not_eq_true', and_assoc]

section
variable {s : State} {core id : Nat} {o : EngOp} {t : Team} (hop : OpAt s core id o t)
include hop

/-- An operation not yet accepted: what ENGINE_ACCEPT makes of it. -/
theorem exec_engineAccept (hab : o.abandoned = false) (hacc : o.accepted = false) (heng : o.kind.ofEngine = true) :
    exec (.engineAccept core id) s = .next (if !linesReady s core t o || clocksStopped s core then s
      else
        let s' := putOp (fresher (setTeam s o.team (acceptLines t s.tick o.kind.inbound o.lines).1)) core
          { o with accepted := true, moment := s.fresh, flipped := o.lines.filter fun l => !(t.line l).engine }
        if o.kind = .tmcast then updTbar s' o.team o.bar fun b => { b with acks := b.acks + BitVec.ofNat 16 o.receivers.length } else s') := by
  show Host.Outcome.next (engineAccept s core id) = _
  rw [engineAccept, hop.1]
  simp only [hop.2, hab, hacc, heng, Bool.false_eq_true, if_false, Bool.not_true, Bool.false_or]
  rfl

end

theorem engineAcceptCompletes : EngineAcceptCompletes := by
  intro s core id o t hop hab hacc heng
  refine ⟨fun hfree hkind => ?_, fun hfree hkind => ?_, fun hheld => ?_⟩
  · rw [exec_engineAccept hop hab hacc heng, if_neg (Bool.eq_false_iff.1 (linesReady_iff.2 hfree)), if_neg hkind]
  · rw [exec_engineAccept hop hab hacc heng, if_neg (Bool.eq_false_iff.1 (linesReady_iff.2 hfree)), if_pos hkind, hkind]
    rfl
  · rw [exec_engineAccept hop hab hacc heng, if_pos]
    rw [← Bool.not_eq_false]
    exact fun h => hheld (linesReady_iff.1 h)

/-! ### Delivery -/

section
variable {s : State} {core id i : Nat} {rest : List Nat} {o : EngOp} {t : Team} (hop : OpAt s core id o t)

/-- The team that a delivery reaches, if one does. -/
def receiverOf (s : State) (core i : Nat) (t : Team) : Option (Nat × Team) :=
  s.teams.find? fun p => decide (p.2.grid = t.grid) && decide (p.2.index.toNat = i) && canReceive s (dieOf core) p.2

/-- The receiver's copy begins. -/
def delivered (s : State) (core rid : Nat) (o : EngOp) (rest : List Nat) (rt : Team) : State :=
  pushOp (setTeam (fresher (putOp s core { o with receivers := rest })) rid { (acceptLines rt s.tick true o.lines).1 with
    unacked := rt.unacked ++ [(o.team, o.bar)] }) rt.core (started (receiving s core rid o) (o.lines.filter fun l => !(rt.line l).engine))

include hop

/-- The next receiver of a multicast that has read its tile: skipped, held, or begun. -/
theorem exec_tmcastDelivery (hkind : o.kind = .tmcast) (hacc : o.accepted = true) (hall : opTotal t o ≤ o.done)
    (hclk : clocksStopped s core = false) (hrec : o.receivers = i :: rest) : exec (.tmcastDelivery core id) s =
    .next (match receiverOf s core i t with
      | none => updTbar (putOp s core { o with receivers := rest }) o.team o.bar fun b => { b with acks := b.acks - 1, err := true }.complete
      | some (rid, rt) => if !linesFree s rt.core (receiving s core rid o) || opSpilled rt (receiving s core rid o) || clocksStopped s rt.core
          then s else delivered s core rid o rest rt) := by
  show Host.Outcome.next (tmcastDelivery s core id) = _
  rw [tmcastDelivery, hop.1]
  simp only [hop.2, hrec, if_pos (show o.kind = .tmcast ∧ o.accepted = true ∧ opTotal t o ≤ o.done ∧ clocksStopped s core = false from
    ⟨hkind, hacc, hall, hclk⟩)] <;> rfl

/-! ### Retry -/

theorem exec_faultRetry {at' : Nat} (hst : o.stalled = some at') : exec (.faultRetry core id) s = .next (match nextTry s core o t with
    | .stall f va => if va = at' then s else stall s core o f va
    | .go _ => putOp s core { o with stalled := none }) := by
  show Host.Outcome.next (faultRetry s core id) = _
  rw [faultRetry, hop.1]
  simp only [hop.2, hst, Option.isSome_some, if_true]
  cases nextTry s core o t with
  | go s' => rfl
  | stall f va =>
    show Host.Outcome.next (if o.stalled = some va then s else stall s core o f va) = _
    rw [hst]
    simp only [Option.some.injEq, eq_comm]

end

/-! ### Acknowledgement -/

theorem exec_ackReceive {s : State} {n : Nat} {a : Ack} (ha : s.acks[n]? = some a) : exec (.ackReceive n) s =
    .next (if (mget s.teams a.team).any fun t => anySpilled t [a.off / 256] || clocksStopped s t.core then s
      else updTbar { s with acks := s.acks.eraseIdx n } a.team a.off fun b => { b with acks := b.acks - 1 }.complete) := by
  show Host.Outcome.next _ = _
  rw [ha]

theorem anySpilled_one (t : Team) (l : Nat) : anySpilled t [l] = (t.line l).spilled := Bool.or_false _

theorem deliveryOfCopiesCompletes : DeliveryOfCopiesCompletes := by
  refine ⟨fun s core id i rest o t hop hkind hacc hall hclk hrec => ⟨fun hnone => ?_, fun rid rt hsome hstop => ?_, fun rid rt hsome hfree hrun => ?_⟩,
    fun s n a ha => ⟨fun hrun => ?_, fun t ht hheld => ?_⟩, fun s core id o t at' hop hst => ⟨fun s' hgo => ?_, fun f va hstall => ?_⟩⟩
  · rw [exec_tmcastDelivery hop hkind hacc hall hclk hrec, show receiverOf s core i t = none from hnone]
  · rw [exec_tmcastDelivery hop hkind hacc hall hclk hrec, show receiverOf s core i t = some (rid, rt) from hsome]
    dsimp only
    rw [hstop, Bool.or_true, if_pos rfl]
  · rw [exec_tmcastDelivery hop hkind hacc hall hclk hrec, show receiverOf s core i t = some (rid, rt) from hsome]
    dsimp only
    rw [hfree.1, hfree.2, hrun, if_neg (by decide)]
    rfl
  · rw [exec_ackReceive ha, if_neg]
    cases ht : mget s.teams a.team with
    | none => exact Bool.false_ne_true
    | some t =>
      rw [Option.any_some, anySpilled_one, (hrun t ht).1, (hrun t ht).2]
      exact Bool.false_ne_true
  · rw [exec_ackReceive ha, ht, Option.any_some, anySpilled_one, if_pos]
    exact Bool.or_eq_true_iff.2 hheld
  · rw [exec_faultRetry hop hst, hgo]
  · rw [exec_faultRetry hop hst, hstall]

end Sys2Proof.Machine

namespace Sys2Proof
open Sys2Proof.Machine Sys2Proof.Claim

/-- Settles O41: an acceptance splits on the lines being free, a delivery on the receiver that it reaches. -/
theorem engineAcceptAndDeliveryComplete : Obligations.EngineAcceptAndDeliveryComplete := by
  unfold Obligations.EngineAcceptAndDeliveryComplete
  exact ⟨engineAcceptCompletes, deliveryOfCopiesCompletes⟩

end Sys2Proof
end

section
/-! PROOFS. What a Publish writes: the cells of a pending store, the bytes that a write under another key spoils, and the run over the
pending stores of a group (R136, R138, R275). -/

namespace Sys2Proof.Machine
open Sys2Proof.Claim

/-! ### The cells of a store -/

/-- Bytes from an address upward, as cells. -/
def cellsFrom (a : Nat) : List Byte → List Host.Cell
  | [] => []
  | b :: r => (a, b) :: cellsFrom (a + 1) r

theorem mem_cellsFrom {c : Host.Cell} (bs : List Byte) : ∀ a : Nat, c ∈ cellsFrom a bs → ∃ k < bs.length, c.1 = a + k := by
  induction bs with
  | nil => exact fun a h => absurd h List.not_mem_nil
  | cons b r ih =>
    intro a h
    obtain rfl | h := List.mem_cons.1 h
    · exact ⟨0, Nat.zero_lt_succ _, rfl⟩
    · obtain ⟨k, hk, hc⟩ := ih (a + 1) h
      exact ⟨k + 1, Nat.succ_lt_succ hk, by omega⟩

theorem mget_cellsFrom_isSome (bs : List Byte) : ∀ a k : Nat, k < bs.length → (mget (cellsFrom a bs) (a + k)).isSome = true := by
  induction bs with
  | nil => exact fun a k h => absurd h (Nat.not_lt_zero _)
  | cons b r ih =>
    intro a k h
    rw [cellsFrom, mget]
    cases k with
    | zero => rw [if_pos (Nat.add_zero a).symm]; rfl
    | succ k =>
      rw [if_neg (by omega), show a + (k + 1) = a + 1 + k by omega]
      exact ih (a + 1) k (Nat.lt_of_succ_lt_succ h)

theorem foldl_cellsFrom (bs : List Byte) : ∀ (m : List Host.Cell) (a : Nat),
    (cellsFrom a bs).foldl (fun m c => wrByte m c.1 c.2) m = wrBytes m a bs := by
  induction bs with
  | nil => exact fun m a => rfl
  | cons b r ih => exact fun m a => ih _ _

theorem physBytes_succ {t : Trans} (h : t.kind = .hbm ∨ t.kind = .lpddr) (n : Nat) :
    physBytes t (n + 1) = some t.pa :: physBytes { t with pa := t.pa + 1 } n := by
  have hnear : ∀ (t : Trans) n, (t.kind = .hbm ∨ t.kind = .lpddr) → physBytes t n = (List.range n).map fun i => some (t.pa + i) := by
    intro t n h
    obtain h | h := h <;> rw [physBytes, h]
  rw [hnear t _ h, hnear { t with pa := t.pa + 1 } n h, List.range_succ_eq_map, List.map_cons, List.map_map]
  refine congrArg _ (List.map_congr_left fun i _ => congrArg some ?_)
  show t.pa + (i + 1) = t.pa + 1 + i
  omega

/-- A store to local memory writes its bytes from its translation upward. -/
theorem unitCells_local (bs : List Byte) : ∀ {t : Trans}, (t.kind = .hbm ∨ t.kind = .lpddr) → unitCells t bs = cellsFrom t.pa bs := by
  induction bs with
  | nil => intro t _; unfold unitCells; rw [List.zip_nil_right]; rfl
  | cons b r ih =>
    intro t h
    have hrest := ih (t := { t with pa := t.pa + 1 }) h
    unfold unitCells at hrest ⊢
    rw [List.length_cons, physBytes_succ h, List.zip_cons_cons, List.filterMap_cons]
    exact congrArg _ hrest

/-! ### Memory after a publish event -/

theorem rdByte_foldl_of_out {a : Nat} (cells : List Host.Cell) : ∀ m : List Host.Cell, (∀ c ∈ cells, c.1 ≠ a) →
    rdByte (cells.foldl (fun m c => wrByte m c.1 c.2) m) a = rdByte m a := by
  induction cells with
  | nil => exact fun m _ => rfl
  | cons c cells ih =>
    intro m h
    rw [List.foldl_cons, ih _ fun d hd => h d (List.mem_cons_of_mem _ hd), rdByte_wrByte, if_neg (h c List.mem_cons_self)]

/-- A spoiled byte lies in a data unit that the write touches and another key wrote last, and the write does not hold it (R275). -/
theorem mem_spoiled {s : State} {key : Nat} {cells : List Host.Cell} {c : Host.Cell} (h : c ∈ spoiled s key cells) :
    mget cells c.1 = none ∧ ∃ d ∈ cells, d.1 / 32 = c.1 / 32 ∧ (unitKey s (d.1 / 32)).any (· != key) = true := by
  unfold spoiled at h
  obtain ⟨u, hu, hc⟩ := List.mem_flatMap.1 h
  obtain ⟨hunit, hkey⟩ := List.mem_filter.1 hu
  obtain ⟨d, hd, rfl⟩ := List.mem_map.1 (List.mem_eraseDups.1 hunit)
  obtain ⟨a, ha, hsome⟩ := List.mem_filterMap.1 hc
  obtain ⟨i, hi, rfl⟩ := List.mem_map.1 ha
  split at hsome
  · cases hsome
  · next hnone =>
    obtain rfl := Option.some.inj hsome
    have hi' := List.mem_range.1 hi
    exact ⟨Option.not_isSome_iff_eq_none.1 hnone, d, hd, by omega, hkey⟩

section
variable {s : State} {who : Agent} {grp : Option Nat} {atomic : Option Scope} {sc : Scope} {key pa : Nat} {bs : List Byte}

theorem publish_mem : (publish s who grp atomic sc key (cellsFrom pa bs)).mem =
    (spoiled s key (cellsFrom pa bs)).foldl (fun m c => wrByte m c.1 c.2) (wrBytes s.mem pa bs) := by
  rw [← foldl_cellsFrom, ← List.foldl_append]; rfl

/-- The bytes written are in memory: none of them is spoiled. -/
theorem rdByte_publish_of_in {k : Nat} (hk : k < bs.length) :
    rdByte (publish s who grp atomic sc key (cellsFrom pa bs)).mem (pa + k) = bs[k] := by
  rw [publish_mem, rdByte_foldl_of_out, rdByte_wrBytes_of_in]
  intro c hc heq
  have hheld := mget_cellsFrom_isSome bs pa k hk
  rw [← heq, (mem_spoiled hc).1] at hheld
  cases hheld

/-- A byte in no data unit that the write touches reads as before. -/
theorem rdByte_publish_of_unit {a : Nat} (ha : ∀ k < bs.length, (pa + k) / 32 ≠ a / 32) :
    rdByte (publish s who grp atomic sc key (cellsFrom pa bs)).mem a = rdByte s.mem a := by
  rw [publish_mem, rdByte_foldl_of_out, rdByte_wrBytes_of_out]
  · by_contra hin
    exact ha (a - pa) (by omega) (by rw [show pa + (a - pa) = a by omega])
  · intro c hc heq
    obtain ⟨d, hd, hunit, -⟩ := (mem_spoiled hc).2
    obtain ⟨k, hk, hdk⟩ := mem_cellsFrom bs pa hd
    exact ha k hk (by rw [← hdk, hunit, heq])

/-- The data units that a store touches were last written under its own key, or never. -/
def OwnUnits (s : State) (key pa n : Nat) : Prop := ∀ k < n, (unitKey s ((pa + k) / 32)).all (· == key) = true

theorem spoiled_of_ownUnits (h : OwnUnits s key pa bs.length) : spoiled s key (cellsFrom pa bs) = [] := by
  refine List.eq_nil_iff_forall_not_mem.2 fun c hc => ?_
  obtain ⟨d, hd, -, hother⟩ := (mem_spoiled hc).2
  obtain ⟨k, hk, hdk⟩ := mem_cellsFrom bs pa hd
  have hown := h k hk
  rw [← hdk] at hown
  cases hkey : unitKey s (d.1 / 32) with
  | none => rw [hkey] at hother; cases hother
  | some x =>
    rw [hkey, Option.any_some, bne_iff_ne] at hother
    rw [hkey, Option.all_some, beq_iff_eq] at hown
    exact hother hown

/-- A write under the key of its units changes the bytes written alone. -/
theorem rdByte_publish_of_out {a : Nat} (h : OwnUnits s key pa bs.length) (ha : a < pa ∨ pa + bs.length ≤ a) :
    rdByte (publish s who grp atomic sc key (cellsFrom pa bs)).mem a = rdByte s.mem a := by
  rw [publish_mem, spoiled_of_ownUnits h, List.foldl_nil, rdByte_wrBytes_of_out _ _ _ _ ha]

/-- A write under a key leaves every unit that was this key's with it. -/
theorem ownUnits_publish {pa' n : Nat} (cells : List Host.Cell) (h : OwnUnits s key pa' n) :
    OwnUnits (publish s who grp atomic sc key cells) key pa' n := by
  intro k hk
  unfold unitKey publish
  rw [List.find?_cons]
  split
  · exact beq_self_eq_true key
  · exact h k hk

end

/-! ### The run over the pending stores -/

/-- The state after the publish event of a store to local memory. -/
def publishOne (gid : Nat) (g : Group) (sc : Scope) (s : State) (e : Pend) : State :=
  publish s (agentOf g.core) (some gid) none sc (keySerial s e.tr.key) (cellsFrom e.tr.pa e.bytes)

/-- The state after the publish events of stores to local memory, in order. -/
def publishAll (gid : Nat) (g : Group) (sc : Scope) (l : List Pend) (s : State) : State := l.foldl (publishOne gid g sc) s

theorem publishUnit_local {s : State} {gid : Nat} {g : Group} {sc : Scope} {e : Pend} (he : LocalPend e) : publishUnit s gid g sc e =
    .published (publishOne gid g sc s e) ((cellsFrom e.tr.pa e.bytes).map fun c => (c.1, s.fresh)) := by
  obtain ⟨hstale, hkind⟩ := he
  have hnear : e.tr.kind ≠ .remote := by obtain h | h := hkind <;> rw [h] <;> decide
  have hstored : storedBytes e.tr e.bytes = e.bytes := by obtain h | h := hkind <;> rw [storedBytes, h]
  rw [publishUnit, hstale]
  simp only [Bool.false_and, Bool.false_eq_true, if_false, if_neg hnear, hstored, unitCells_local _ hkind]
  rfl

/-- A run over stores to local memory publishes each: nothing is kept, sent or stopped. -/
theorem publishList_local {gid : Nat} {g : Group} {sc : Scope} (l : List Pend) : ∀ r : PubRun, (∀ e ∈ l, LocalPend e) →
    ∃ seen, publishList gid g sc l r = { r with s := publishAll gid g sc l r.s, seen := seen } := by
  induction l with
  | nil => exact fun r _ => ⟨r.seen, rfl⟩
  | cons e l ih =>
    intro r h
    rw [publishList, publishUnit_local (h e List.mem_cons_self)]
    exact ih _ fun x hx => h x (List.mem_cons_of_mem _ hx)

theorem publishAll_groups (gid : Nat) (g : Group) (sc : Scope) (l : List Pend) : ∀ s : State, (publishAll gid g sc l s).groups = s.groups := by
  induction l with
  | nil => exact fun s => rfl
  | cons e l ih => exact fun s => ih _

/-- A byte in no data unit of the stores reads as before. -/
theorem rdByte_publishAll_of_unit {gid : Nat} {g : Group} {sc : Scope} {a : Nat} (l : List Pend) : ∀ s : State,
    (∀ e ∈ l, ∀ k < e.bytes.length, (e.tr.pa + k) / 32 ≠ a / 32) → rdByte (publishAll gid g sc l s).mem a = rdByte s.mem a := by
  induction l with
  | nil => exact fun s _ => rfl
  | cons e l ih =>
    intro s h
    exact (ih _ fun x hx => h x (List.mem_cons_of_mem _ hx)).trans (rdByte_publish_of_unit (h e List.mem_cons_self))

/-- One key is that of every store of a list, and no other key wrote last in a data unit of theirs (R275). -/
def ListKey (s : State) (key : Nat) (l : List Pend) : Prop :=
  ∀ e ∈ l, keySerial s e.tr.key = key ∧ OwnUnits s key e.tr.pa e.bytes.length

theorem listKey_publishOne {s : State} {gid : Nat} {g : Group} {sc : Scope} {key : Nat} {e : Pend} {l : List Pend}
    (he : keySerial s e.tr.key = key) (h : ListKey s key l) : ListKey (publishOne gid g sc s e) key l := by
  rw [publishOne, he]
  exact fun x hx => ⟨(h x hx).1, ownUnits_publish _ (h x hx).2⟩

theorem listKey_publishAll {gid : Nat} {g : Group} {sc : Scope} {key : Nat} {l' : List Pend} (l : List Pend) : ∀ s : State,
    ListKey s key l → ListKey s key l' → ListKey (publishAll gid g sc l s) key l' := by
  induction l with
  | nil => exact fun s _ h => h
  | cons e l ih =>
    intro s h h'
    have he := (h e List.mem_cons_self).1
    exact ih _ (listKey_publishOne he fun x hx => h x (List.mem_cons_of_mem _ hx)) (listKey_publishOne he h')

/-- Under one key, a byte outside every store reads as before. -/
theorem rdByte_publishAll_of_out {gid : Nat} {g : Group} {sc : Scope} {key a : Nat} (l : List Pend) : ∀ s : State, ListKey s key l →
    (∀ e ∈ l, OutsideOf e a) → rdByte (publishAll gid g sc l s).mem a = rdByte s.mem a := by
  induction l with
  | nil => exact fun s _ _ => rfl
  | cons e l ih =>
    intro s hkey h
    obtain ⟨hown, hunits⟩ := hkey e List.mem_cons_self
    have hfirst : rdByte (publishOne gid g sc s e).mem a = rdByte s.mem a := by
      rw [publishOne, hown]
      exact rdByte_publish_of_out hunits (h e List.mem_cons_self)
    exact (ih _ (listKey_publishOne hown fun x hx => hkey x (List.mem_cons_of_mem _ hx)) fun x hx => h x (List.mem_cons_of_mem _ hx)).trans
      hfirst

/-- Under one key, the newest store to a byte is what memory holds. -/
theorem rdByte_publishAll_newest {s : State} {gid : Nat} {g : Group} {sc : Scope} {key k : Nat} {older newer : List Pend} {e : Pend}
    (hkey : ListKey s key (older ++ e :: newer)) (hk : k < e.bytes.length) (hnewer : ∀ e' ∈ newer, OutsideOf e' (e.tr.pa + k)) :
    rdByte (publishAll gid g sc (older ++ e :: newer) s).mem (e.tr.pa + k) = e.bytes[k] := by
  have hrest : ListKey (publishAll gid g sc older s) key (e :: newer) :=
    listKey_publishAll older s (fun x hx => hkey x (List.mem_append_left _ hx)) fun x hx => hkey x (List.mem_append_right _ hx)
  have hafter : ListKey (publishOne gid g sc (publishAll gid g sc older s) e) key newer :=
    listKey_publishOne (hrest e List.mem_cons_self).1 fun x hx => hrest x (List.mem_cons_of_mem _ hx)
  rw [publishAll, List.foldl_append, List.foldl_cons]
  exact (rdByte_publishAll_of_out newer _ hafter hnewer).trans (rdByte_publish_of_in hk)

/-! ### Publish(g, s) -/

/-- The run over the dirty stash bytes that a Publish begins with (R129). -/
def dirtyRun (s : State) (gid : Nat) (g : Group) (sc : Scope) : PubRun :=
  match g.team.bind fun t => (mget s.teams t).map fun x => (t, x) with
  | none => { s := s, kept := [], sent := [], seen := [], stopped := false }
  | some (tid, team) => publishDirty s gid g tid team sc (dirtyOf team gid)

/-- A state that differs in its teams alone. -/
def SameButTeams (s s' : State) : Prop := s' = { s with teams := s'.teams }

/-- Where the group has no dirty byte, that run leaves all but the team's record. -/
theorem dirtyRun_clean {s : State} {gid : Nat} {g : Group} {sc : Scope} (h : NoDirty s gid g) :
    ∃ s', dirtyRun s gid g sc = { s := s', kept := [], sent := [], seen := [], stopped := false } ∧ SameButTeams s s' := by
  unfold dirtyRun
  cases hteam : g.team with
  | none => exact ⟨s, rfl, rfl⟩
  | some tid =>
    cases hget : mget s.teams tid with
    | none => simp only [Option.bind_some, hget, Option.map_none]; exact ⟨s, rfl, rfl⟩
    | some t =>
      have hnone : dirtyOf t gid = [] := by
        rw [dirtyOf, List.filter_eq_nil_iff.2 fun p hp hmine => h tid t hteam hget p hp (of_decide_eq_true hmine)]; rfl
      simp only [Option.bind_some, hget, Option.map_some, publishDirty, hnone, List.map_nil, publishList]
      exact ⟨_, rfl, rfl⟩

theorem publishGroup_eq {s : State} {gid : Nat} {g : Group} (hg : mget s.groups gid = some g) (sc : Scope) : publishGroup s gid sc =
    let r : PubRun := if (dirtyRun s gid g sc).stopped then { dirtyRun s gid g sc with kept := g.pend }
      else publishList gid g sc g.pend { dirtyRun s gid g sc with kept := [] }
    let s' := setGroup r.s gid { g with pend := r.kept, seen := seenAdd g.seen r.seen }
    (if r.stopped then s' else widen s' gid sc, r.sent, r.stopped) := by
  unfold publishGroup
  rw [hg]; rfl

/-- A Publish of stores to local memory, without dirty bytes: their events in order, and then the widening. -/
theorem publishGroup_local {s : State} {gid : Nat} {g : Group} {sc : Scope} (hg : mget s.groups gid = some g)
    (hlocal : ∀ e ∈ g.pend, LocalPend e) (hclean : NoDirty s gid g) : ∃ s' seen, SameButTeams s s' ∧ publishGroup s gid sc =
      (widen (setGroup (publishAll gid g sc g.pend s') gid { g with pend := [], seen := seen }) gid sc, [], false) := by
  obtain ⟨s', hrun, hsame⟩ := dirtyRun_clean (sc := sc) hclean
  obtain ⟨seen, hlist⟩ := publishList_local (gid := gid) (g := g) (sc := sc) g.pend
    { s := s', kept := [], sent := [], seen := [], stopped := false } hlocal
  refine ⟨s', seenAdd g.seen seen, hsame, ?_⟩
  rw [publishGroup_eq hg, hrun]
  simp only [Bool.false_eq_true, if_false, hlist]

end Sys2Proof.Machine

namespace Sys2Proof
open Sys2Proof.Machine Sys2Proof.Claim

/-- Settles O60: by induction over the pending stores, which all publish; under one key no event spoils a byte. -/
theorem publishStores : Obligations.PublishStores := by
  unfold Obligations.PublishStores
  intro s gid g sc hg hlocal hclean
  obtain ⟨s', seen, hsame, hpub⟩ := publishGroup_local (sc := sc) hg hlocal hclean
  have hmem : (publishGroup s gid sc).1.mem = (publishAll gid g sc g.pend s').mem := by rw [hpub]; rfl
  have hstart : s'.mem = s.mem := by rw [hsame]
  refine ⟨by rw [hpub], by rw [hpub], ⟨{ g with pend := [], seen := seen }, ?_, rfl, rfl, rfl⟩, ?_, ?_, fun key hkey => ?_⟩
  · rw [hpub]
    exact mget_mput_self _ _ _
  · intro e he k hk
    rw [hmem, he]
    exact rdByte_publish_of_in hk
  · intro a ha
    rw [hmem, rdByte_publishAll_of_unit _ _ ha, hstart]
  · have hlist : ListKey s' key g.pend := by
      rw [hsame]
      exact fun e he => hkey e he
    refine ⟨fun a ha => ?_, fun older e newer hpend k hk hnewer => ?_⟩
    · rw [hmem, rdByte_publishAll_of_out _ _ hlist ha, hstart]
    · rw [hmem, hpend]
      rw [hpend] at hlist
      exact rdByte_publishAll_newest hlist hk hnewer

end Sys2Proof
end

section
/-! PROOFS. Taking a synchronous trap outside handler mode (R194, R307, R349, R350): the fields of HCAUSE and HPC, the places that are
saved, and the two ends of it. -/

namespace Sys2Proof.Machine

open Sys2Proof.Claim

/-! ### HCAUSE and HPC -/

/-- HCAUSE holds the cause, the lowest lane of the trap and its lane mask (Table 6.33). -/
theorem slice_hcauseOf {cause : Nat} {mask : BitVec 32} {low : Fin 32} (hcause : cause < 256) (hlow : lowestLane mask = some low) :
    slice (hcauseOf cause mask) 0 8 = cause ∧ slice (hcauseOf cause mask) 8 5 = low.val ∧
      slice (hcauseOf cause mask) 32 32 = mask.toNat := by
  have hl := low.isLt
  have hm := mask.isLt
  simp only [slice, hcauseOf, hlow, Option.map_some, Option.getD_some, u64, BitVec.toNat_ofNat]
  omega

/-- HPC holds the overlay and the offset of the issue (Table 6.29). -/
theorem slice_hpcOf (i : Issue) : slice (hpcOf i) 16 16 = i.ov.toNat ∧ slice (hpcOf i) 0 16 = i.pc.toNat % 2 ^ 16 := by
  have ho := i.ov.isLt
  simp only [slice, hpcOf, u64, BitVec.toNat_ofNat]
  omega

/-! ### The places of the live threads -/

/-- A lane is in the live mask where its thread lives. -/
theorem getLsbD_liveMask (g : Group) (l : Fin 32) : g.liveMask.getLsbD l = g.threads[l].live := by
  rw [Group.liveMask, getLsbD_maskOf]
  simp [allLanes]

/-- A thread with its place kept for the return from the handler (R350 step 2). -/
def Thread.placeKept (t : Thread) : Thread := { t with savedPc := t.pc, savedOv := t.ov, savedWait := t.wait }

theorem savePlaces_thread (g : Group) (l : Fin 32) :
    g.savePlaces.threads[l] = if g.threads[l].live then g.threads[l].placeKept else g.threads[l] := by
  rw [Group.savePlaces, Group.onLanes_get, getLsbD_liveMask]
  rfl

/-! ### The two ends of a trap -/

/-- The group with its trap recorded: HCAUSE, HPC, HADDR, and the places of its live threads (R350 steps 1 and 2). -/
def trapRecorded (g : Group) (t : TrapInfo) (mask : BitVec 32) (i : Issue) : Group :=
  ({ g with hcause := hcauseOf t.cause mask, hpc := hpcOf i, haddr := t.haddr } : Group).savePlaces

/-- The group in handler mode, its w28 to w31 kept apart (R350). -/
def trapHandling (g : Group) (t : TrapInfo) (mask : BitVec 32) (i : Issue) : Group :=
  { trapRecorded g t mask i with st := .handler, hiddenW := Vector.ofFn fun n => (trapRecorded g t mask i).w[28 + n.val] }

/-- The group in its handler overlay `ov`, whose first entry is at `e0` (R350). -/
def trapEntered (g : Group) (t : TrapInfo) (mask : BitVec 32) (i : Issue) (ov e0 : Nat) : Group :=
  (trapHandling g t mask i).onLanes (trapHandling g t mask i).liveMask fun _ th =>
    { th with pc := BitVec.ofNat 32 e0, ov := BitVec.ofNat 16 ov, copy := none, wait := none }

/-- The group parked with its trap recorded. -/
def trapParked (g : Group) (t : TrapInfo) (mask : BitVec 32) (i : Issue) : Group := { trapRecorded g t mask i with st := .parked false }

/-- The group that has taken its trap outside handler mode: parked for a page fault or without a handler, else in its handler. -/
def trapTaken (s : State) (g : Group) (t : TrapInfo) (mask : BitVec 32) (i : Issue) : Group :=
  match (if t.cause = 3 then none else handlerOf s g.kernel) with
  | none => trapParked g t mask i
  | some (ov, e0) => trapEntered g t mask i ov e0

section
variable {s : State} {gid : Nat} {g : Group} {t : TrapInfo} {mask : BitVec 32} {i : Issue}

theorem savePlaces_eq_trapRecorded : ({ g with hcause := hcauseOf t.cause mask, hpc := hpcOf i, haddr := t.haddr } : Group).savePlaces =
    trapRecorded g t mask i := rfl

@[simp] theorem trapRecorded_kernel : (trapRecorded g t mask i).kernel = g.kernel := Group.savePlaces_kernel _
@[simp] theorem trapRecorded_ctx : (trapRecorded g t mask i).ctx = g.ctx := Group.savePlaces_ctx _

theorem handleOf_trapRecorded : handleOf (trapRecorded g t mask i) = handleOf g := by simp [handleOf, trapRecorded]

theorem parkRecord_trapRecorded (hcause hpc : DWord) : parkRecord (trapRecorded g t mask i) t hcause hpc = parkRecord g t hcause hpc := by
  rw [parkRecord, parkRecord, handleOf_trapRecorded]

theorem trapTaken_entered {ov e0 : Nat} (hcause : t.cause ≠ 3) (hover : handlerOf s g.kernel = some (ov, e0)) :
    trapTaken s g t mask i = trapEntered g t mask i ov e0 := by
  simp only [trapTaken, if_neg hcause, hover]

theorem trapTaken_parked (hend : t.cause = 3 ∨ handlerOf s g.kernel = none) :
    trapTaken s g t mask i = trapParked g t mask i := by
  have hnone : (if t.cause = 3 then none else handlerOf s g.kernel) = none := ite_eq_left_iff.2 fun h => hend.resolve_left h
  simp only [trapTaken, hnone]

/-- Taking a trap outside handler mode: the handler's overlay is entered, or the record of the park is posted (R349, R350). -/
theorem takeTrap_of_active (hg : mget s.groups gid = some g) (hh : g.handling = false) : takeTrap s gid t mask i =
    if t.cause = 3 ∨ handlerOf s g.kernel = none
    then postRecord (setGroup s gid (trapTaken s g t mask i)) g.ctx (parkRecord g t (hcauseOf t.cause mask) (hpcOf i))
    else enterOverlays (setGroup s gid (trapTaken s g t mask i)) gid := by
  by_cases hend : t.cause = 3 ∨ handlerOf s g.kernel = none
  · have hnone : (if t.cause = 3 then none else handlerOf s g.kernel) = none := ite_eq_left_iff.2 fun h => hend.resolve_left h
    rw [if_pos hend, trapTaken_parked hend]
    simp only [takeTrap, hg, hh, Bool.false_eq_true, if_false, savePlaces_eq_trapRecorded, trapRecorded_kernel, hnone,
      trapRecorded_ctx, parkRecord_trapRecorded, trapParked]
  · obtain ⟨hcause, hsome⟩ := not_or.1 hend
    obtain ⟨⟨ov, e0⟩, hover⟩ := Option.ne_none_iff_exists'.1 hsome
    rw [if_neg hend, trapTaken_entered hcause hover]
    simp only [takeTrap, hg, hh, Bool.false_eq_true, if_false, savePlaces_eq_trapRecorded, trapRecorded_kernel, if_neg hcause, hover,
      trapEntered, trapHandling]

/-! ### What the group then holds -/

/-- HCAUSE, HPC and HADDR are those of the trap; uniform registers and flags are as they were. -/
theorem trapTaken_fields : (trapTaken s g t mask i).hcause = hcauseOf t.cause mask ∧ (trapTaken s g t mask i).hpc = hpcOf i ∧
    (trapTaken s g t mask i).haddr = t.haddr ∧ (trapTaken s g t mask i).w = g.w ∧ (trapTaken s g t mask i).gstat = g.gstat := by
  unfold trapTaken
  split <;> simp [trapEntered, trapHandling, trapParked, trapRecorded]

theorem trapHandling_threads : (trapHandling g t mask i).threads = (trapRecorded g t mask i).threads := rfl
theorem trapParked_threads : (trapParked g t mask i).threads = (trapRecorded g t mask i).threads := rfl

/-- Each live thread keeps its place (R350 step 2); a thread that does not live is as it was. -/
theorem trapRecorded_thread (l : Fin 32) :
    (trapRecorded g t mask i).threads[l] = if g.threads[l].live then g.threads[l].placeKept else g.threads[l] := savePlaces_thread _ l

theorem trapEntered_thread (ov e0 : Nat) (l : Fin 32) : (trapEntered g t mask i ov e0).threads[l] =
    if g.threads[l].live then enteredHandler g.threads[l] ov e0 else g.threads[l] := by
  rw [trapEntered, Group.onLanes_get, getLsbD_liveMask, trapHandling_threads, trapRecorded_thread]
  by_cases hlive : g.threads[l].live = true
  · rw [if_pos hlive, if_pos hlive]
    exact if_pos hlive
  · rw [if_neg hlive, if_neg hlive]
    exact (if_neg hlive).symm

/-- Rows and predicates of every thread are as they were, and a thread that does not live is untouched. -/
theorem trapTaken_rows (l : Fin 32) : (trapTaken s g t mask i).threads[l].v = g.threads[l].v ∧
    (trapTaken s g t mask i).threads[l].k = g.threads[l].k ∧
    (g.threads[l].live = false → (trapTaken s g t mask i).threads[l] = g.threads[l]) := by
  have hthread : (trapTaken s g t mask i).threads[l] = (if g.threads[l].live then g.threads[l].placeKept else g.threads[l]) ∨
      ∃ ov e0, (trapTaken s g t mask i).threads[l] = if g.threads[l].live then enteredHandler g.threads[l] ov e0 else g.threads[l] := by
    unfold trapTaken
    split
    · rw [trapParked_threads]
      exact .inl (trapRecorded_thread l)
    · exact .inr ⟨_, _, trapEntered_thread _ _ l⟩
  obtain h | ⟨ov, e0, h⟩ := hthread <;> rw [h] <;> split
  · next hlive => exact ⟨rfl, rfl, fun hdead => absurd (hdead.symm.trans hlive) Bool.false_ne_true⟩
  · exact ⟨rfl, rfl, fun _ => rfl⟩
  · next hlive => exact ⟨rfl, rfl, fun hdead => absurd (hdead.symm.trans hlive) Bool.false_ne_true⟩
  · exact ⟨rfl, rfl, fun _ => rfl⟩

/-- w28 to w31 are kept apart (R350). -/
theorem trapEntered_hidden (ov e0 : Nat) (n : Fin 4) : (trapEntered g t mask i ov e0).hiddenW[n] = g.rdW (28 + n.val) := by
  have hn : 28 + n.val < 32 := by omega
  simp [trapEntered, trapHandling, trapRecorded, Group.rdW, Nat.mod_eq_of_lt hn, hn]

end

/-! ### The obligation -/

/-- Settles O54: the trap is recorded with the live threads' places, and the group then enters its handler or parks. -/
theorem trapEntry : Obligations.TrapEntry := by
  intro s gid g t mask i low hg hh hlow hcause
  obtain ⟨hc, hl, hm⟩ := slice_hcauseOf hcause hlow
  obtain ⟨hov, hpc⟩ := slice_hpcOf i
  obtain ⟨ehc, ehpc, eha, ew, egs⟩ := trapTaken_fields (s := s) (g := g) (t := t) (mask := mask) (i := i)
  rw [← ehc] at hc hl hm
  rw [← ehpc] at hov hpc
  refine ⟨trapTaken s g t mask i, hc, hl, hm, hov, hpc, eha, ew, egs, trapTaken_rows, fun ov e0 h3 hover => ?handler, fun hend => ?parked⟩
  case handler =>
    have hgo : ¬ (t.cause = 3 ∨ handlerOf s g.kernel = none) := by rw [hover]; exact not_or.2 ⟨h3, Option.some_ne_none _⟩
    refine ⟨(takeTrap_of_active hg hh).trans (if_neg hgo), ?_, fun n => ?_, fun l hlive => ?_⟩ <;> rw [trapTaken_entered h3 hover]
    · rfl
    · exact trapEntered_hidden ov e0 n
    · rw [trapEntered_thread, if_pos hlive]
  case parked =>
    refine ⟨⟨_, (takeTrap_of_active hg hh).trans (if_pos hend), ?record⟩, ?_, fun l hlive => ?_⟩
    case record =>
      rw [ehc, ehpc, parkRecord]
      split
      · next h => exact ⟨rfl, h.symm, rfl, rfl, rfl⟩
      · exact ⟨rfl, rfl, rfl, rfl, rfl⟩
    · rw [trapTaken_parked hend, trapParked]
    · rw [trapTaken_parked hend, trapParked_threads, trapRecorded_thread, if_pos hlive]
      rfl

end Sys2Proof.Machine
end

section
/-! PROOFS. The flow instructions: EXIT, TRAP, RTH, NRET, YIELD, NOP, and RET to an overlay that is there (R182 to R187, R332). -/

namespace Sys2Proof.Machine

open Sys2Proof.Claim

/-- A key whose complete copy a core holds is there at once: nothing is loaded (R324). -/
theorem needOverlay_of_codeOf {s : State} {core ctx ov : Nat} {r : Residency} (h : codeOf (coreOf s core) ctx ov = some r) (gid : Nat) :
    needOverlay s core ctx ov gid = (s, true) := by
  obtain ⟨hfound, hres⟩ := Option.filter_eq_some_iff.1 h
  simp only [needOverlay, hfound, hres]

section
variable {s : State} {g : Group} (hi : Issues s g)
include hi

theorem exec_nop : exec .nop s = .next (done s g) := by
  change finish (issuer s >>= _) = _
  rw [issuer_bind hi, finish]

theorem exec_yield : exec .yield s = .next (done s g) := by
  change finish (issuer s >>= _) = _
  rw [issuer_bind hi, finish]

/-- EXIT in handler mode kills the group (R182). -/
theorem exec_exit_handling (hh : g.handling = true) : exec .exit s = .next (killGroup s s.cur.group) := by
  change finish (issuer s >>= _) = _
  rw [issuer_bind hi, if_pos hh, finish]

/-- EXIT outside handler mode: the threads of the issue are gone, and the last one publishes at .sys (R182). -/
theorem exec_exit (hh : g.handling = false) :
    let g' := (g.onLanes s.cur.mask fun _ t => { t with live := false, inNotice := false, wait := none }).leftNotice
    exec .exit s = .next (if g'.liveMask = 0 then startPublish (setGroup s s.cur.group g') s.cur.group .sys none true
      else setGroup s s.cur.group g') := by
  have hnot : ¬ g.handling = true := by rw [hh]; exact Bool.false_ne_true
  change finish (issuer s >>= _) = _
  rw [issuer_bind hi, if_neg hnot, finish]

theorem exec_rth (hh : g.handling = true) : exec .rth s =
    .next (enterOverlays (setGroup s s.cur.group { g.leaveHandler with st := .active }) s.cur.group) := by
  change finish (issuer s >>= _) = _
  rw [issuer_bind hi, if_pos hh, finish]

theorem exec_nret (hn : g.ncause ≠ 0) : exec .nret s =
    .next (enterOverlays (setGroup s s.cur.group (g.onLanes s.cur.mask fun _ t => t.fromNotice).leftNotice) s.cur.group) := by
  change finish (issuer s >>= _) = _
  rw [issuer_bind hi, need_bind (bne_iff_ne.2 hn), finish]

/-- RET through the top entry of the return stack to an overlay with a complete copy (R332). -/
theorem exec_ret_resident {e : RetEntry} {l : List RetEntry} {r : Residency} (hst : g.stack = e :: l)
    (hcode : codeOf (coreOf s g.core) g.ctx e.ov.toNat = some r) :
    exec .ret s = .next (enterOv s s.cur.group (g.popFor s.cur.mask) s.cur.mask r e.off.toNat false) := by
  change finish (issuer s >>= _) = _
  rw [issuer_bind hi]
  simp only [hst, needOverlay_of_codeOf hcode, hcode]
  rfl

end

/-- TRAP raises cause 0x08 with its code in HADDR (R183). -/
theorem exec_trap (code : BitVec 7) (s : State) : exec (.trap code) s =
    .next (takeTrap s s.cur.group { cause := 8, haddr := code.zeroExtend 64, access := 0 } s.cur.mask s.cur) := rfl

/-- Settles O7: each instruction runs for the group that issues it. -/
theorem flowCompletes : Obligations.FlowCompletes := by
  intro s g hi
  exact ⟨exec_nop hi, exec_yield hi, exec_exit_handling hi, exec_exit hi, exec_rth hi, exec_nret hi, fun code => exec_trap code s,
    fun _ _ _ => exec_ret_resident hi⟩

end Sys2Proof.Machine
end

section
/-! PROOFS. CMP, FCMP and SEL (R171, R172, R203): a compare sets one predicate in each lane of the issue, and SEL commits the source that the
lane's predicate names. -/

namespace Sys2Proof.Machine

open Sys2Proof.Claim

/-- One predicate set, every other as it was. -/
theorem getLsbD_setBit8 (k : BitVec 8) {i j : Nat} (b : Bool) (hj : j < 8) : (setBit8 k i b).getLsbD j = if j = i then b else k.getLsbD j := by
  unfold setBit8
  by_cases h : j = i
  · subst h
    cases b <;> simp [hj]
  · cases b <;> simp [hj, h]

section
variable {s : State} {g : Group} {reads : List (BitVec 7 × Bool)} {dests : List (BitVec 7)} {res : Fin 32 → LaneRes} {now : Nat} {l : Fin 32}

/-- The thread of a lane of the issue after a commit. -/
theorem vecCommit_on (hl : l ∈ cohort s) : (g.vecCommit now (cohort s) reads dests res).threads[l] =
    g.threads[l].update (g.freesOf reads) ((dests.filterMap g.vname).zip (res l).vals) := by
  obtain ⟨lr, sp, wf, br, h⟩ := vecCommit_eq g now (cohort s) reads dests res
  have hmask : (maskOf (cohort s)).getLsbD l = true := by rw [cohort, getLsbD_maskOf_lanesOf]; exact mem_cohort.1 hl
  rw [h]
  dsimp only
  rw [Group.onLanes_on _ _ _ _ hmask]

theorem vecCommit_off (hl : l ∉ cohort s) : (g.vecCommit now (cohort s) reads dests res).threads[l] = g.threads[l] := by
  obtain ⟨lr, sp, wf, br, h⟩ := vecCommit_eq g now (cohort s) reads dests res
  have hmask : (maskOf (cohort s)).getLsbD l = false := by
    rw [cohort, getLsbD_maskOf_lanesOf, ← Bool.not_eq_true, ← mem_cohort]; exact hl
  rw [h]
  dsimp only
  rw [Group.onLanes_off _ _ _ _ hmask]

end

section
variable {s : State} {g : Group} {o : CmpOps} {f : Word → Word → Bool × Flags}

/-- What a compare gives a lane: the condition on its sources, and the flags raised. -/
def cmpRes (g : Group) (o : CmpOps) (f : Word → Word → Bool × Flags) (l : Fin 32) : Bool × Flags := f (g.rdLane l o.a).1 (g.rdLane l o.b).1

/-- The group after a compare: the marked rows freed, the flags raised, the predicate of each lane of the issue mixed with its condition. -/
def cmpCommit (s : State) (g : Group) (o : CmpOps) (f : Word → Word → Bool × Flags) : Group :=
  (g.vecCommit s.tick (cohort s) (marks2 o.a o.b o.la o.lb) [] fun l => { vals := [], flags := (cmpRes g o f l).2 }).onLanes s.cur.mask
    fun l t => { t with k := setBit8 t.k o.k.toNat (predMix o.f (t.k.getLsbD o.k.toNat) (cmpRes g o f l).1) }

theorem cmpStep_ok (hi : Issues s g) (hr : CmpReady s g o fun x y => (f x y).2) : cmpStep s o f = .ok (done s (cmpCommit s g o f)) := by
  obtain ⟨hfree, hflags⟩ := hr
  have hcommit := vecOn_ok (reads := marks2 o.a o.b o.la o.lb) (dests := []) (f := fun l _ => { vals := [], flags := (cmpRes g o f l).2 })
    hfree (vecRoom_nil _ _) hflags
  change (issuer s >>= _) = _
  rw [issuer_bind hi]
  change (vecOn s g (cohort s) (marks2 o.a o.b o.la o.lb) [] (fun l _ => { vals := [], flags := (cmpRes g o f l).2 }) >>= _) = _
  rw [hcommit]
  rfl

/-- The thread of a lane of the issue after a compare. -/
theorem advance_cmpCommit_on {l : Fin 32} (hl : l ∈ cohort s) : ((cmpCommit s g o f).advance s.cur).threads[l] =
    { g.threads[l].update (g.freesOf (marks2 o.a o.b o.la o.lb)) [] with
      k := setBit8 g.threads[l].k o.k.toNat (predMix o.f (g.threads[l].k.getLsbD o.k.toNat) (cmpRes g o f l).1)
      pc := s.cur.next, wait := none } := by
  have hm := mem_cohort.1 hl
  rw [Group.advance, Group.onLanes_on _ _ _ _ hm, cmpCommit, Group.onLanes_on _ _ _ _ hm, vecCommit_on hl]
  rfl

theorem advance_cmpCommit_off {l : Fin 32} (hl : l ∉ cohort s) : ((cmpCommit s g o f).advance s.cur).threads[l] = g.threads[l] := by
  have hm : s.cur.mask.getLsbD l = false := by rw [← Bool.not_eq_true, ← mem_cohort]; exact hl
  rw [Group.advance, Group.onLanes_off _ _ _ _ hm, cmpCommit, Group.onLanes_off _ _ _ _ hm, vecCommit_off hl]

theorem predDone_cmpCommit : PredDone s (done s (cmpCommit s g o f)) g (g.freesOf (marks2 o.a o.b o.la o.lb)) o.k.toNat
    (fun l => predMix o.f (g.threads[l].k.getLsbD o.k.toNat) (cmpRes g o f l).1)
    ((cohort s).foldl (fun a l => a ||| (cmpRes g o f l).2) 0) (anyUndef s g (marks2 o.a o.b o.la o.lb)) := by
  obtain ⟨lr, sp, wf, br, hframe⟩ := vecCommit_eq g s.tick (cohort s) (marks2 o.a o.b o.la o.lb) []
    fun l => { vals := [], flags := (cmpRes g o f l).2 }
  rw [any_readAll_eq_anyUndef] at hframe
  have hrest : (cmpCommit s g o f).advance s.cur = { g with
      threads := ((cmpCommit s g o f).advance s.cur).threads
      gstat := g.gstat ||| Flags.toGstat ((cohort s).foldl (fun a l => a ||| (cmpRes g o f l).2) 0) |||
        gUndef (anyUndef s g (marks2 o.a o.b o.la o.lb))
      lastRead := lr, spilled := sp, wantFill := wf, badRegs := br } := by
    rw [cmpCommit, hframe]
    unfold Group.advance Group.onLanes
    rfl
  refine ⟨_, rfl, fun l hl => ?_, fun l hl => advance_cmpCommit_off hl, ?_, ?_⟩
  · rw [advance_cmpCommit_on hl]
    exact ⟨rfl, mget_foldl_mdel _ _, fun j hj => getLsbD_setBit8 _ _ hj⟩
  · rw [hrest]
  · rw [hrest]

theorem exec_cmp (o : CmpOps) (s : State) : exec (.cmp o) s = finish (cmpStep s o fun x y => (cmpCond o.cond x y, 0)) := rfl

theorem exec_fcmp (hi : Issues s g) (o : CmpOps) :
    exec (.fcmp o) s = finish (cmpStep s o fun x y => fcmpV o.cond (fp g.ftz x) (fp g.ftz y)) := by
  change finish (issuer s >>= _) = _
  rw [issuer_bind hi]

/-- SEL commits, in each lane of the issue, the source that the lane's predicate selects (R172). -/
theorem exec_sel (hi : Issues s g) {p : BitVec 2} {o : A3} (hd : isUni o.d = false) (hf : VecFree s g (cohort s) [o.a, o.b] [o.d])
    (hr : VecRoom g (cohort s) (g.freesOf (marks2 o.a o.b o.la o.lb)) [rotName g.rwin o.d.toNat]) :
    exec (.sel p o) s = .next (done s (g.vecCommit s.tick (cohort s) (marks2 o.a o.b o.la o.lb) [o.d] fun l =>
      .val (if g.threads[l].k.getLsbD p.toNat then (g.rdLane l o.a).1 else (g.rdLane l o.b).1))) := by
  have hcommit := vecOn_of_noFlags (reads := marks2 o.a o.b o.la o.lb) hf (by rw [vnames_one hd]; exact hr)
    (f := fun l vs => .val (if g.threads[l].k.getLsbD p.toNat then arg vs 0 else arg vs 1)) fun _ _ => rfl
  change finish (issuer s >>= _) = _
  rw [issuer_bind hi]
  change finish (vecOn s g (cohort s) (marks2 o.a o.b o.la o.lb) [o.d] _ >>= _) = _
  rw [hcommit]
  rfl

end

/-- Settles O4: both compares commit one predicate, CMP without flags, and SEL commits one row. -/
theorem compareSelectComplete : Obligations.CompareSelectComplete := by
  refine ⟨fun o s g hi hr => ?cmp, fun o s g hi hr => ?fcmp, fun p o s g hi hd hf hr => ?sel⟩
  case cmp =>
    have hdone := predDone_cmpCommit (s := s) (g := g) (o := o) (f := fun x y => (cmpCond o.cond x y, 0))
    simp only [cmpRes, foldl_or_zero] at hdone
    exact ⟨_, by rw [exec_cmp, cmpStep_ok hi hr, finish], hdone⟩
  case fcmp => exact ⟨_, by rw [exec_fcmp hi, cmpStep_ok hi hr, finish], predDone_cmpCommit⟩
  case sel => exact ⟨_, exec_sel hi hd hf hr, vecDone_of_noFlags hd fun _ => rfl⟩

end Sys2Proof.Machine
end

section
/-! PROOFS. System instructions: RESUME, TLBINV, PGQUERY, PWRREQ, CTXOP and HALT (R193, R283, R284, R355, R411, R412, R428 to R431). -/

namespace Sys2Proof.Machine

open Sys2Proof.Claim

section
variable {s : State} {g : Group}

/-! ### Checks that pass -/

/-- Where privileged instructions run, the check of R82 passes. -/
theorem privileged_ite (hp : g.privileged = true) (a b : R State) : (if !g.privileged then a else b) = b := by rw [hp]; rfl

/-- The group may name the context: its own, or any from context 0. -/
theorem denied_ite_of_named {n : Nat} (h : g.ctx = 0 ∨ n = g.ctx) (a b : R State) : (if g.ctx ≠ 0 ∧ n ≠ g.ctx then a else b) = b :=
  if_neg fun ⟨hctx, hn⟩ => h.elim hctx hn

/-! ### PGQUERY -/

theorem pageWord_eq (ctx : Nat) (who : Agent) (va : DWord) (full : Bool) : pageWord s ctx who va full =
    if 2 ^ 57 ≤ va.toNat then 3 else pageAnswer (walkNow s ctx who va.toNat) full := by
  have hmig (e : DWord) : (leafMig e = true) = (slice e 7 1 = 1) := by
    rw [leafMig, slice, BitVec.getLsbD, Nat.testBit_eq_decide_div_mod_eq, decide_eq_true_eq]
    rfl
  unfold pageWord pageAnswer
  split
  · rfl
  · cases walkNow s ctx who va.toNat <;> simp only [hmig]

theorem exec_pgquery (hi : Issues s g) {d a : BitVec 5} {c : Option (BitVec 5)} {w : DWord}
    (hfree : UniFree s g (a.toNat :: (c.map (·.toNat)).toList) [d.toNat])
    (hw : w = c.elim (u64 g.ctx) fun r => g.rdW r.toNat) (hlt : w.toNat < 256) (hctx : g.ctx = 0 ∨ w.toNat = g.ctx) :
    exec (.pgquery d a c) s = .next (done s (g.wrW d.toNat (if 2 ^ 57 ≤ (g.rdW a.toNat).toNat then 3
      else pageAnswer (walkNow s w.toNat (agentOf g.core) (g.rdW a.toNat).toNat) g.privileged))) := by
  rw [← pageWord_eq]
  change finish (issuer s >>= _) = _
  rw [issuer_bind hi, useW_bind hfree]
  have hpass : (need s (decide (w.toNat < 256)) >>= fun _ => if g.ctx ≠ 0 ∧ w.toNat ≠ g.ctx then denied s
      else .ok (done s (g.wrW d.toNat (pageWord s w.toNat (agentOf g.core) (g.rdW a.toNat) g.privileged)))) =
      .ok (done s (g.wrW d.toNat (pageWord s w.toNat (agentOf g.core) (g.rdW a.toNat) g.privileged))) := by
    rw [need_bind (decide_eq_true hlt), denied_ite_of_named hctx]
  cases c with
  | none => subst hw; exact congrArg finish hpass
  | some r => subst hw; exact congrArg finish hpass

/-! ### Operating points, and the group at a HALT -/

theorem pointOk_iff (p : OpPoint) : pointOk p = true ↔ LegalPoint p := by
  simp only [pointOk, LegalPoint, Bool.and_eq_true, decide_eq_true_eq]
  omega

/-- The group as a HALT leaves it but for its parking (R193). -/
def atHalt (s : State) (g : Group) : Group :=
  if g.handling then g.leaveHandler
  else ({ g with hcause := hcauseOf 8 s.cur.mask, hpc := hpcOf { s.cur with pc := s.cur.next }, haddr := 0 } : Group).savePlaces

theorem halted_eq : halted s g = { atHalt s g with st := .parked false } := by
  unfold halted atHalt
  split <;> rfl

theorem handleOf_atHalt : handleOf (atHalt s g) = handleOf g := by
  unfold atHalt
  split <;> simp [handleOf, Group.leaveHandler, Group.returnPlaces]

section
variable (hp : g.privileged = true)
include hp

/-! ### RESUME -/

theorem exec_resume (hi : Issues s g) {d h : BitVec 5} (hfree : UniFree s g [h.toNat] [d.toNat]) (hhigh : slice (g.rdW h.toNat) 56 8 = 0)
    (hlow : slice (g.rdW h.toNat) 17 15 = 0) (hctx : g.ctx = 0 ∨ slice (g.rdW h.toNat) 48 8 = g.ctx) (kill : Bool) {s' : State} {g' : Group}
    (hs : (resumeBy s (g.rdW h.toNat) kill).getD s = s') (hg : mget s'.groups s.cur.group = some g') :
    exec (.resume kill d h) s =
      .next (done s' (g'.wrW d.toNat (if (resumeBy s (g.rdW h.toNat) kill).isSome then 0 else 1))) := by
  change finish (issuer s >>= _) = _
  rw [issuer_bind hi, privileged_ite hp, useW_bind hfree]
  rw [need_bind (by rw [hhigh, hlow]; rfl), denied_ite_of_named hctx]
  simp only [hs, hg]
  rfl

/-! ### TLBINV -/

theorem exec_tlbinv (hi : Issues s g) {a c : BitVec 5} {i : Inval} (hfree : UniFree s g [a.toNat, c.toNat] [])
    (hlt : (g.rdW c.toNat).toNat < 768) (hctx : g.ctx = 0 ∨ (slice (g.rdW c.toNat) 8 2 ≠ 2 ∧ slice (g.rdW c.toNat) 0 8 = g.ctx))
    (hinval : i = { moment := 0, ctx := if slice (g.rdW c.toNat) 8 2 = 2 then none else some (slice (g.rdW c.toNat) 0 8),
                    va := if slice (g.rdW c.toNat) 8 2 = 0 then some (g.rdW a.toNat).toNat else none })
    (hwait : invalWaits s i = false) : exec (.tlbinv a c) s = .next (doneNow (invalidate s i)) := by
  have hrange : slice (g.rdW c.toNat) 8 2 ≠ 3 := by unfold slice; omega
  have hok : (decide ((g.rdW c.toNat).toNat < 2 ^ 10) && slice (g.rdW c.toNat) 8 2 != 3) = true := by
    rw [Bool.and_eq_true, decide_eq_true_eq, bne_iff_ne]; exact ⟨by omega, hrange⟩
  have hnamed : ¬ (g.ctx ≠ 0 ∧ (slice (g.rdW c.toNat) 8 2 = 2 ∨ slice (g.rdW c.toNat) 0 8 ≠ g.ctx)) := by
    rintro ⟨hne, hall | hother⟩
    · exact (hctx.resolve_left hne).1 hall
    · exact hother (hctx.resolve_left hne).2
  have hgo : ¬ invalWaits s i = true := by rw [hwait]; exact Bool.false_ne_true
  change finish (issuer s >>= _) = _
  rw [issuer_bind hi, privileged_ite hp, useW_bind hfree, need_bind hok, if_neg hnamed]
  subst hinval
  exact congrArg finish (if_neg hgo)

/-! ### PWRREQ -/

/-- PWRREQ with a well-formed operand: a legal target is posted (R429, R431). -/
theorem exec_pwrreq (hi : Issues s g) (h0 : g.ctx = 0) {d : Option (BitVec 5)} {t : BitVec 5}
    (hfree : UniFree s g [t.toNat] (d.map (·.toNat)).toList) (hok : PwrreqOk (g.rdW t.toNat)) : exec (.pwrreq d t) s =
      (let r := if pointOk (pointIn (g.rdW t.toNat)) then postTarget s (slice (g.rdW t.toNat) 0 8) (pointIn (g.rdW t.toNat)) else (s, 2)
       .next (done r.1 (optW g d (u64 r.2)))) := by
  obtain ⟨hcl, hratio, hlow, hvmin, hvmax, hmid, hfmin, hfmax, hstep, hhigh⟩ := hok
  have hneed : (decide (slice (g.rdW t.toNat) 44 20 = 0 ∧ slice (g.rdW t.toNat) 26 6 = 0 ∧ slice (g.rdW t.toNat) 10 6 = 0 ∧
      slice (g.rdW t.toNat) 0 8 ≤ 143) && decide ((pointIn (g.rdW t.toNat)).ratio ≠ 3) &&
      decide (600 ≤ (pointIn (g.rdW t.toNat)).vmv ∧ (pointIn (g.rdW t.toNat)).vmv ≤ 800) &&
      decide (400 ≤ (pointIn (g.rdW t.toNat)).lfreq ∧ (pointIn (g.rdW t.toNat)).lfreq ≤ 1000 ∧
        (pointIn (g.rdW t.toNat)).lfreq % 25 = 0)) = true := by
    simp only [Bool.and_eq_true, decide_eq_true_eq]
    exact ⟨⟨⟨⟨hhigh, hmid, hlow, hcl⟩, hratio⟩, hvmin, hvmax⟩, hfmin, hfmax, hstep⟩
  change finish (issuer s >>= _) = _
  rw [issuer_bind hi, privileged_ite hp, context0Only_bind h0, useW_bind hfree]
  refine (congrArg finish (need_bind hneed _)).trans ?_
  cases d <;> rfl

/-! ### CTXOP -/

/-- The operand of a CTXOP that the group may name: QUERY its own context, or any from context 0; a switch only from context 0, and not of
context 0 (R283, R284). -/
theorem ctxopArg_ok (hi : Issues s g) {d r : BitVec 5} (hfree : UniFree s g [r.toNat] [d.toNat]) (hlt : (g.rdW r.toNat).toNat < 256)
    {query : Bool} (hctx : g.ctx = 0 ∨ (query = true ∧ (g.rdW r.toNat).toNat = g.ctx)) (hother : query = true ∨ (g.rdW r.toNat).toNat ≠ 0) :
    ctxopArg s d r query = .ok (g, (g.rdW r.toNat).toNat) := by
  have hnamed : ¬ (g.ctx ≠ 0 ∧ ((g.rdW r.toNat).toNat ≠ g.ctx ∨ query = false)) := by
    rintro ⟨hne, h⟩
    obtain ⟨hquery, hown⟩ := hctx.resolve_left hne
    exact h.elim (absurd hown) fun hq => Bool.false_ne_true (hq.symm.trans hquery)
  have hnz : (query || decide ((g.rdW r.toNat).toNat ≠ 0)) = true := by rw [Bool.or_eq_true, decide_eq_true_eq]; exact hother
  have hnot : ¬ (!g.privileged) = true := by rw [hp]; exact Bool.false_ne_true
  change (issuer s >>= _) = _
  rw [issuer_bind hi, if_neg hnot]
  simp only [bind, Except.bind, useW_ok hfree, need, decide_eq_true hlt, if_true, if_neg hnamed, hnz]

theorem exec_ctxopQuery (hi : Issues s g) {d r : BitVec 5} (hfree : UniFree s g [r.toNat] [d.toNat]) (hlt : (g.rdW r.toNat).toNat < 256)
    (hctx : g.ctx = 0 ∨ (g.rdW r.toNat).toNat = g.ctx) :
    exec (.ctxopQuery d r) s = .next (done s (g.wrW d.toNat (stateWord s (g.rdW r.toNat).toNat))) := by
  change finish (ctxopArg s d r true >>= _) = _
  rw [ctxopArg_ok hp hi hfree hlt (hctx.imp_right fun h => ⟨rfl, h⟩) (.inl rfl)]
  rfl

/-- CTXOP.SWOUT and CTXOP.SWIN from context 0 start the switch of another context (R284). -/
theorem ctxopStep_ok (hi : Issues s g) {d r : BitVec 5} (hfree : UniFree s g [r.toNat] [d.toNat]) (hlt : (g.rdW r.toNat).toNat < 256)
    (h0 : g.ctx = 0) (hother : (g.rdW r.toNat).toNat ≠ 0) (f : State → Nat → State × Nat) :
    ctxopStep s f d r = .ok (done (f s (g.rdW r.toNat).toNat).1 (g.wrW d.toNat (u64 (f s (g.rdW r.toNat).toNat).2))) := by
  change (ctxopArg s d r false >>= _) = _
  rw [ctxopArg_ok hp hi hfree hlt (.inl h0) (.inr hother)]
  rfl

/-! ### HALT -/

theorem exec_halt (hi : Issues s g) : exec .halt s = .next (postRecord (setGroup s s.cur.group (halted s g)) g.ctx
    { source := 6, cause := slice (halted s g).hcause 0 8, access := 0,
      vaddr := if [2, 3, 4, 5, 10].contains (slice (halted s g).hcause 0 8) then (halted s g).haddr else 0, group := handleOf g,
      hcause := (halted s g).hcause, hpc := (halted s g).hpc, detail := (halted s g).haddr }) := by
  change finish (issuer s >>= _) = _
  rw [issuer_bind hi, privileged_ite hp, halted_eq]
  change Host.Outcome.next (postRecord (setGroup s s.cur.group { atHalt s g with st := .parked false }) g.ctx (haltRecord (atHalt s g))) = _
  rw [haltRecord, handleOf_atHalt]
  rfl

end
end

/-- Settles O24: each instruction passes its checks in the group that issues it. -/
theorem systemInstructionsComplete : Obligations.SystemInstructionsComplete := by
  intro s g hi
  refine ⟨fun d a c w hfree hw hlt hctx => ?pgquery, fun hp => ⟨fun kill d h hfree hhigh hlow hctx => ⟨fun hnone => ?stale, fun s' g' hs hg => ?resume⟩,
    fun a c i hfree hlt hctx hinval hwait => exec_tlbinv hp hi hfree hlt hctx hinval hwait,
    fun d t h0 hfree hok => ⟨fun hlegal => ?posted, fun hlegal => ?refused⟩,
    fun d r hfree hlt => ⟨fun hctx => ?query, fun h0 hother => ⟨?swout, ?swin⟩⟩, exec_halt hp hi⟩⟩
  case pgquery =>
    exact ⟨_, exec_pgquery hi hfree (by cases c <;> exact hw) hlt hctx, uniDone_of_wrW _ _ _ _ d.isLt⟩
  case stale =>
    rw [exec_resume hp hi hfree hhigh hlow hctx kill (s' := s) (by rw [hnone]; rfl) hi, hnone]
    rfl
  case resume =>
    rw [exec_resume hp hi hfree hhigh hlow hctx kill (s' := s') (by rw [hs]; rfl) hg, hs]
    rfl
  case posted =>
    rw [exec_pwrreq hp hi h0 hfree hok]
    simp only [(pointOk_iff _).2 hlegal, if_true, postTarget]
    split <;> rfl
  case refused =>
    rw [exec_pwrreq hp hi h0 hfree hok]
    simp only [if_neg (mt (pointOk_iff _).1 hlegal)]
    rfl
  case query => exact ⟨_, exec_ctxopQuery hp hi hfree hlt hctx, uniDone_of_wrW _ _ _ _ d.isLt⟩
  case swout => exact congrArg finish (ctxopStep_ok hp hi hfree hlt h0 hother startOut)
  case swin => exact congrArg finish (ctxopStep_ok hp hi hfree hlt h0 hother startIn)

end Sys2Proof.Machine
end

section
/-! PROOFS. Operations of peers on memory, and the ends of remote accesses (R417 to R422). -/

namespace Sys2Proof.Machine

open Sys2Proof.Claim

/-! ### Operations at the memory endpoint -/

section
variable {s : State} {p : PeerHdr}

theorem brings_of_arrives (h : PeerArrives s p) : brings s p = true := by
  obtain ⟨hlink, hst⟩ := h
  unfold brings Link.isUp Link.carries
  obtain h | h | ⟨h, hpdc⟩ := hst
  · simp [hlink, h]
  · simp [hlink, h]
  · simpa [hlink, h] using hpdc

theorem peerOp_of_context (h : PeerArrives s p) {ctx : Nat} (hctx : PeerOf s p ctx) (f : Nat → PeerResult) :
    peerOp s p f = .next (respond (f ctx).1 p (f ctx).2) := by
  rw [peerOp, if_pos (brings_of_arrives h), peerContext, show _ = some ctx from hctx]
  rfl

/-- An operation whose job id or memory key names no context changes nothing and answers an error (R417). -/
theorem peerOp_of_stranger (h : PeerArrives s p) (hctx : ∀ ctx, ¬ PeerOf s p ctx) (f : Nat → PeerResult) :
    peerOp s p f = .next (respond s p none) := by
  rw [peerOp, if_pos (brings_of_arrives h), peerContext, Option.eq_none_iff_forall_ne_some.2 hctx]
  rfl

theorem peerWriteAt_ok {ctx : Nat} {va : DWord} {data : List Byte} {ws : List (Nat × List Host.Cell)} (hend : va.toNat + data.length ≤ 2 ^ 57)
    (hws : peerWrites s ctx (unitGroups ((List.range data.length).zip data |>.map fun q => (va.toNat + q.1, q.2))) = some ws) :
    peerWriteAt s va data ctx = (ws.foldl (fun s w => publish s (dieAgent (cellsDie w.2)) none none .sys w.1 w.2) s, some []) := by
  rw [peerWriteAt]
  simp only [if_neg (Nat.not_lt.2 hend), hws]

theorem peerReadAt_ok {ctx len : Nat} {va : DWord} {rs : List (Nat × List Byte)} (hend : va.toNat + len ≤ 2 ^ 57)
    (hrs : peerUnits s ctx (((List.range len).map fun i => (va.toNat + i) / 8).eraseDups) = some rs) : peerReadAt s va len ctx =
      (s, some ((List.range len).map fun i => ((mget rs ((va.toNat + i) / 8)).bind fun b => b[(va.toNat + i) % 8]?).getD 0)) := by
  rw [peerReadAt]
  simp only [if_neg (Nat.not_lt.2 hend), hrs]

theorem peerAtomic_misaligned {va : DWord} (h : va.toNat % 8 ≠ 0) (f : Nat → Option Nat) (ctx : Nat) : peerAtomic s va f ctx = (s, none) :=
  if_pos h

/-- An atomic of a peer at its home slice (R418, R147). -/
theorem peerAtomic_ok {va : DWord} {ctx : Nat} {t : Trans} (hal : va.toNat % 8 = 0) (ht : peerTrans s ctx va .rmw = some t)
    (hgood : ∀ a ∈ paRange t.pa 8, badByte s a = false) (f : Nat → Option Nat) : peerAtomic s va f ctx =
      ((atomicAt s (dieAgent (homeDie t.pa)) none .sys (keySerial s t.key) 0 (paRange t.pa 8) f).1,
        some (leList (atomicAt s (dieAgent (homeDie t.pa)) none .sys (keySerial s t.key) 0 (paRange t.pa 8) f).2.1 8)) := by
  have hclean : (paRange t.pa 8).any (badByte s) = false := List.any_eq_false.2 fun a ha => by rw [hgood a ha]; exact Bool.false_ne_true
  rw [peerAtomic, if_neg (not_not.2 hal), ht]
  simp only [hclean, Bool.false_eq_true, if_false]

end

theorem peerOperationsComplete : PeerOperationsComplete := by
  intro s p harr data len v c n
  refine ⟨fun hno => ?stranger, fun ctx hctx => ⟨fun ws hend hws => ?write, fun rs hend hrs => ?read, fun hmis => ?misaligned,
    fun t hal ht hgood => ?atomic⟩⟩
  case stranger =>
    exact ⟨peerOp_of_stranger harr hno _, peerOp_of_stranger harr hno _, peerOp_of_stranger harr hno _, peerOp_of_stranger harr hno _⟩
  case write => exact (peerOp_of_context harr hctx _).trans (by rw [peerWriteAt_ok hend hws])
  case read => exact (peerOp_of_context harr hctx _).trans (by rw [peerReadAt_ok hend hrs])
  case misaligned =>
    exact ⟨(peerOp_of_context harr hctx _).trans (by rw [peerAtomic_misaligned hmis]),
      (peerOp_of_context harr hctx _).trans (by rw [peerAtomic_misaligned hmis])⟩
  case atomic =>
    exact ⟨(peerOp_of_context harr hctx _).trans (by rw [peerAtomic_ok hal ht hgood]),
      (peerOp_of_context harr hctx _).trans (by rw [peerAtomic_ok hal ht hgood])⟩

/-! ### Ends of remote accesses -/

/-- What an acknowledgement gives the access of each kind (R420). -/
def acknowledge (s : State) (id : Nat) (r : RemoteOp) (v : BitVec 128) : State :=
  match r.kind with
  | .load g l => settleLoad s g l fun x => { x with val := some (overlaid v r.cells) }
  | .entry g _ => settleEntry s g id
  | .atomic g tag lane => settleAtom s g tag lane fun x => { x with old := some (v.toNat % 2 ^ 64) }
  | .engine core op => settleWrite s core op id
  | .deliver tid row => settleDelivery s tid row r.va
  | .read by' unit => settleRead s by' unit (some (leList v.toNat 8))

section
variable {s : State} {id : Nat} {r : RemoteOp} (hr : InFlight s id r)
include hr

theorem exec_remoteAck (v : BitVec 128) : exec (.remoteAck id v) s =
    .next (if r.link.isNone || behindEntry s r then s else acknowledge (without s id) id r v) := by
  change Host.Outcome.next (remoteAck s id v) = _
  rw [remoteAck, show _ = some r from hr]
  rfl

theorem remoteAck_held (v : BitVec 128) (h : r.link = none ∨ behindEntry s r = true) : exec (.remoteAck id v) s = .next s := by
  rw [exec_remoteAck hr, if_pos (by rw [Bool.or_eq_true, Option.isNone_iff_eq_none]; exact h)]

theorem remoteAck_ends (v : BitVec 128) (hlink : r.link ≠ none) (hfirst : behindEntry s r = false) :
    exec (.remoteAck id v) s = .next (acknowledge (without s id) id r v) := by
  rw [exec_remoteAck hr, if_neg (by rw [Bool.or_eq_true, Option.isNone_iff_eq_none, hfirst]; exact fun h => h.elim hlink Bool.false_ne_true)]

theorem exec_linkTimeout {c : Context} (hc : mget s.contexts r.ctx = some c) : exec (.linkTimeout id) s =
    .next (if s.tstamp < r.since + 1000 * c.linkto then s else failRemote (without s id) r) := by
  change Host.Outcome.next (linkTimeout s id) = _
  rw [linkTimeout, show _ = some r from hr]
  simp only [hc]
  rfl

end

theorem remoteAccessesEnd : RemoteAccessesEnd := by
  intro s id r hr
  refine ⟨fun v => ⟨remoteAck_held hr v, fun hlink hfirst => ?ack⟩, fun c hc => ⟨fun hearly => ?waits, fun hlate => ?timeout⟩⟩
  case ack =>
    rw [remoteAck_ends hr v hlink hfirst]
    refine ⟨?_, ?_, ?_, ?_, ?_, ?_⟩ <;> intros <;> simp only [acknowledge, *]
  case waits => rw [exec_linkTimeout hr hc, if_pos hearly]
  case timeout =>
    rw [exec_linkTimeout hr hc, if_neg (Nat.not_lt.2 hlate)]
    refine ⟨?_, ?_, ?_, ?_, ?_, ?_⟩ <;> intros <;> simp only [failRemote, *]

/-- Settles O37: what an operation of a peer does once a link brings it, and the two ends of a remote access, kind by kind. -/
theorem peersComplete : Obligations.PeersComplete := ⟨peerOperationsComplete, remoteAccessesEnd⟩

end Sys2Proof.Machine
end

section
/-! PROOFS. The sectors of engine operations and the lines they complete (R155, R157, R245 to R250, R255, R381, R429). -/

namespace Sys2Proof.Machine

open Sys2Proof.Claim

/-! ### The access of an operation -/

/-- An operation that does not stall yet stalls with one record. -/
theorem takeTry_stall {s : State} {core va : Nat} {o : EngOp} {f : XFault} (hst : o.stalled = none) :
    takeTry s core o (.stall f va) = stall s core o f va := by
  rw [takeTry, hst, if_neg (by simp)]
  rfl

theorem canLand_of_lands {t : Team} {o : EngOp} (h : Lands t o) : canLand t o = true := by
  simp [canLand, h.accepted, h.stalled, h.stopped, h.store, h.drain, h.left]

section
variable {s : State} {core id : Nat} {o : EngOp} {t : Team}

theorem exec_sectorLand (hop : OpAt s core id o t) (hland : Lands t o) : exec (.sectorLand core id) s =
    .next (if clocksStopped s core then s else takeTry s core o (landTry s core o t)) := by
  change Host.Outcome.next (sectorLand s core id) = _
  rw [sectorLand, hop.1]
  simp only [hop.2, hland.abandoned, canLand_of_lands hland, Bool.false_eq_true, if_false, Bool.true_and, Bool.not_eq_true']
  cases clocksStopped s core <;> rfl

/-! ### One sector -/

/-- A sector read from scratch without an uncorrectable error. -/
theorem landScratch_good {total : Nat} (hgood : t.badLines.contains (nextSector o / 256) = false) : landScratch s core o t total =
    .go (landed s core { o with buf := wrBytes o.buf (nextSector o) (t.read (nextSector o) 32) } total) := by
  unfold nextSector at hgood
  simp only [landScratch, hgood, Bool.or_false, Bool.false_eq_true, if_false]
  rfl

theorem readVersion_unchecked {a : EngAcc} (hc : o.checks = false) : readVersion s o a = .ok (s, o) := by
  simp [readVersion, hc]

section
variable {total : Nat} (hc : o.checks = false)
include hc

theorem landRead_ok {r : UnitRead} (hr : (opAcc s core o).read s (o.srcs o.done) = .ok r) (hgood : r.bad = false) :
    landRead s core o total = .go (landed (engWrite ((opAcc s core o).used s) o (nextSector o) r.bytes) core o total) := by
  simp only [landRead, readVersion_unchecked hc, hr, hgood, hc, Bool.or_false, Bool.false_eq_true, if_false]
  rfl

theorem landRead_far {u : Nat} {tr : Trans} (hr : (opAcc s core o).read s (o.srcs o.done) = .error (.far u tr)) :
    landRead s core o total = .go ((opAcc s core o).ask s u tr) := by
  simp only [landRead, readVersion_unchecked hc, hr]

theorem landRead_fault {f : XFault} {va : Nat} (hr : (opAcc s core o).read s (o.srcs o.done) = .error (.fault f va)) :
    landRead s core o total = if f.cause = 3 then .stall f va
      else .go (putOp (setTbarErr s o.team o.bar) core { o with stopped := true, err := true }) := by
  simp only [landRead, readVersion_unchecked hc, hr]
  rfl

end

/-! ### Which read a kind of operation makes -/

theorem landTry_scratch (hk : o.kind = .tstore ∨ o.kind = .tstoreA ∨ o.kind = .tmcast) :
    landTry s core o t = landScratch s core o t (opTotal t o) := by
  obtain hk | hk | hk := hk <;> simp only [landTry, hk]

theorem landTry_memory (hstore : isStoreFill t o = false) (hk : o.kind = .tcopy ∨ o.kind = .gather ∨ o.kind = .fill) :
    landTry s core o t = landRead s core o (opTotal t o) := by
  obtain hk | hk | hk := hk <;> simp only [landTry, hk, hstore, Bool.false_eq_true, if_false]

/-! ### A line that its sectors complete -/

theorem lineLanded_of_all {line : Nat} (hmem : line ∈ o.lines) (hall : ∀ x ∈ o.sectors.drop o.done, x / 256 ≠ line) :
    lineLanded o line = true := by
  rw [lineLanded, Bool.and_eq_true, List.all_eq_true, List.contains_iff_mem]
  exact ⟨fun x hx => decide_eq_true (hall x hx), hmem⟩

theorem exec_lineComplete (hop : OpAt s core id o t) {line : Nat} (hacc : o.accepted = true) (hin : o.kind.inbound = true)
    (hst : o.stopped = false) (hab : o.abandoned = false) (hc : o.checks = false) (hl : lineLanded o line = true) :
    exec (.lineComplete core id line) s = .next (if clocksStopped s core ∨ stillWritten (otherOps s core o) line then s
      else setTeam s o.team (t.setLine line { t.line line with absent := false })) := by
  change Host.Outcome.next (lineComplete s core id line) = _
  rw [lineComplete, hop.1]
  simp only [hop.2, hacc, hin, hst, hab, hc, hl, Bool.not_false, Bool.and_true]
  cases clocksStopped s core <;> cases stillWritten (otherOps s core o) line <;> rfl

end

end Sys2Proof.Machine

namespace Sys2Proof
open Sys2Proof.Machine Sys2Proof.Claim

/-- Settles O29: a sector splits on what its kind of operation reads, and a read of memory on its answer. -/
theorem sectorEventsComplete : Obligations.SectorEventsComplete := by
  unfold Obligations.SectorEventsComplete
  intro s core id o t hop
  refine ⟨fun hland hclk => ?_, fun hland hclk => ?_, fun line hacc hin hst hab hc hmem hall =>
    exec_lineComplete hop hacc hin hst hab hc (lineLanded_of_all hmem hall)⟩
  · rw [exec_sectorLand hop hland, if_pos hclk]
  · have hexec : exec (.sectorLand core id) s = .next (takeTry s core o (landTry s core o t)) := by
      rw [exec_sectorLand hop hland, if_neg (Bool.eq_false_iff.1 hclk)]
    rw [hexec]
    refine ⟨fun hk => ?_, fun hk hgood => ?_, fun hk hc => ?_, fun hk => ?_⟩
    · simp only [landTry, hk]
      rfl
    · rw [landTry_scratch hk, landScratch_good hgood]
      rfl
    · rw [landTry_memory hland.store hk]
      refine ⟨fun r hr hgood => ?_, fun u tr hr => ?_, fun f va hr => ?_⟩
      · rw [landRead_ok hc hr hgood]
        rfl
      · rw [landRead_far hc hr]
        rfl
      · rw [landRead_fault hc hr]
        refine ⟨fun hf => ?_, fun hf => ?_⟩
        · rw [if_pos hf, takeTry_stall hland.stalled]
        · rw [if_neg hf]
          rfl
    · simp only [landTry, hk]

end Sys2Proof
end

section
/-! PROOFS. The completion of engine operations (R155, R159, R245 to R250, R255, R256, R429). -/

namespace Sys2Proof.Machine

open Sys2Proof.Claim

section
variable {s : State} {core id : Nat} {o : EngOp} {t : Team}

/-- What ENGINE_COMPLETE does with an operation whose sectors have all landed; a skidder's fills and drains have events of their own. -/
theorem exec_engineComplete (hop : OpAt s core id o t) (h : Completes t o) (hfill : o.kind ≠ .fill) (hdrain : o.kind ≠ .drain) :
    exec (.engineComplete core id) s = .next (if clocksStopped s core then s else takeTry s core o (completeTry s core o)) := by
  have hkind : (o.kind != .fill) = true ∧ (o.kind != .drain) = true := ⟨bne_iff_ne.2 hfill, bne_iff_ne.2 hdrain⟩
  change Host.Outcome.next (engineComplete s core id) = _
  rw [engineComplete, hop.1]
  simp only [hop.2, h.accepted, h.stalled, h.abandoned, hkind.1, hkind.2, h.all, decide_true, Option.isNone_none, Bool.false_eq_true,
    if_false, Bool.or_true, Bool.and_true, Bool.true_and, Bool.not_eq_true']
  cases clocksStopped s core <;> rfl

theorem exec_engineComplete_stopped (hop : OpAt s core id o t) (h : Completes t o) (hclk : clocksStopped s core = true) :
    exec (.engineComplete core id) s = .next s := by
  change Host.Outcome.next (engineComplete s core id) = _
  rw [engineComplete, hop.1]
  simp only [hop.2, h.abandoned, hclk, Bool.not_true, Bool.and_false, Bool.false_and, Bool.false_eq_true, if_false]

/-! ### What each kind of operation does at its end -/

/-- An operation that writes memory at its end, and not a copy into scratch. -/
def EngKind.stores (k : EngKind) : Prop := k = .tstore ∨ k = .tstoreA ∨ k = .kvmove

/-- An operation without a version to check just ends. -/
theorem endInbound_unchecked (hc : o.checks = false) : endInbound s core o = .go (endOp s core o) := by
  rw [endInbound, versionEnd, hc]
  rfl

theorem checks_of_kind (htcopy : o.kind ≠ .tcopy) (hfill : o.kind ≠ .fill) : o.checks = false := by
  simp [EngOp.checks, htcopy, hfill]

/-- Writes made before, an operation waits for its peers alone. -/
theorem completeTry_published (hk : o.kind.stores) (hpub : o.published = true) :
    completeTry s core o = .go (if o.remote = [] then endOp s core o else s) := by
  have hc : o.checks = false := by simp [EngOp.checks, hpub]
  have hstores : (o.kind == .tstore || o.kind == .tstoreA || o.kind == .kvmove) = true := by
    obtain hk | hk | hk := hk <;> rw [hk] <;> rfl
  simp only [completeTry, hpub, hc, hstores, Bool.not_false, Bool.and_self, if_true, List.isEmpty_iff]

section
variable (hpub : o.published = false)
include hpub

theorem completeTry_tstore (hk : o.kind = .tstore) : completeTry s core o = endStore s core o := by
  simp only [completeTry, hpub, hk, Bool.false_and, Bool.false_eq_true, if_false]

theorem completeTry_tstoreA (hk : o.kind = .tstoreA) : completeTry s core o = endStoreA s core o := by
  simp only [completeTry, hpub, hk, Bool.false_and, Bool.false_eq_true, if_false]

theorem completeTry_kvmove (hk : o.kind = .kvmove) : completeTry s core o = endMove s core o := by
  simp only [completeTry, hpub, hk, Bool.false_and, Bool.false_eq_true, if_false]

theorem completeTry_copy (hk : o.kind = .tcopy ∨ o.kind = .gather ∨ o.kind = .recv) (hc : o.checks = false) :
    completeTry s core o = .go (endOp s core o) := by
  rw [← endInbound_unchecked hc]
  obtain hk | hk | hk := hk <;> simp only [completeTry, hpub, hk, Bool.false_and, Bool.false_eq_true, if_false]

theorem completeTry_tmcast (hk : o.kind = .tmcast) (hrec : o.receivers = []) (hno : noReceivers s core o.id = true) :
    completeTry s core o = .go (endOp s core o) := by
  rw [← endInbound_unchecked (checks_of_kind (by simp [hk]) (by simp [hk]))]
  simp only [completeTry, hpub, hk, hrec, hno, List.isEmpty_nil, and_self, Bool.false_and, Bool.false_eq_true, if_false, if_true]

end

/-! ### TSTORE -/

section
variable {ws : List PreWrite}

/-- The state and the remote writes after TSTORE's events. -/
def storeMade (s : State) (core : Nat) (o : EngOp) (ws : List PreWrite) : State × List Nat :=
  makeWrites s (opAcc s core o) (.engine core o.id) ws []

theorem endStore_done (hw : (opAcc s core o).prepAll s (sectorGroups o.packed) = (ws, none)) : endStore s core o =
    let r := storeMade s core o ws
    let o' := { o with published := true, remote := r.2 }
    .go (if r.2 = [] then endOp (putOp r.1 core o') core o' else putOp r.1 core o') := by
  simp only [endStore, hw, List.isEmpty_iff]
  rfl

theorem endStore_fails {f : XFault} {va : Nat} (hw : (opAcc s core o).prepAll s (sectorGroups o.packed) = (ws, some (f, va))) :
    endStore s core o = if f.cause = 3 then .stall f va else
      let r := storeMade s core o ws
      let o' := { o with published := true, remote := r.2, err := true }
      let s' := putOp (setTbarErr r.1 o.team o.bar) core o'
      .go (if r.2 = [] then endOp s' core o' else s') := by
  simp only [endStore, hw, List.isEmpty_iff]
  rfl

end

/-! ### TSTORE.A and KVMOVE -/

/-- What TSTORE.A ends with, once its event has come to `r`. -/
def storedWhole (s : State) (core : Nat) (o : EngOp) : Except (XFault × Nat) (State × List Nat) → Try
  | .error (f, va) => if f.cause = 3 then .stall f va else .go (endOp (markErr s o) core { o with err := true })
  | .ok (s, ids) =>
    let o := { o with published := true, remote := ids }
    .go (if ids.isEmpty then endOp s core o else putOp s core o)

/-- `endStoreA` is unfolded as a function: of its applied form the kernel would run the whole store to compare the two sides. -/
theorem endStoreA_eq : endStoreA s core o = storedWhole s core o (storeWhole s core o) := by
  refine (congrFun (congrFun (congrFun (?unfold : endStoreA = ?body) s) core) o).trans ?cases
  case unfold =>
    delta endStoreA
    exact rfl
  case cases =>
    generalize storeWhole s core o = r
    obtain ⟨f, va⟩ | ⟨s', ids⟩ := r <;> rfl

theorem endStoreA_ok {r : State × List Nat} (hw : storeWhole s core o = .ok r) : endStoreA s core o =
    let o' := { o with published := true, remote := r.2 }
    .go (if r.2 = [] then endOp r.1 core o' else putOp r.1 core o') := by
  rw [endStoreA_eq, hw]
  simp only [storedWhole, List.isEmpty_iff]

theorem endStoreA_error {f : XFault} {va : Nat} (hw : storeWhole s core o = .error (f, va)) : endStoreA s core o =
    if f.cause = 3 then .stall f va else .go (endOp (setTbarErr s o.team o.bar) core { o with err := true }) := by
  rw [endStoreA_eq, hw]
  rfl
/-- What KVMOVE's writes come to. -/
def moved (s : State) (core : Nat) (o : EngOp) : State × List Nat × Option (Nat × XFault × Nat) :=
  moveWrites s core o (opAcc s core o) (List.range (o.done / (8 * o.slot))) []

/-- What KVMOVE ends with, once its writes have come to `r`. -/
def endMoved (core : Nat) (o : EngOp) (r : State × List Nat × Option (Nat × XFault × Nat)) : Try :=
  match r.2.2 with
  | some (m, f, va) => .go (stopMove r.1 core o m f va)
  | none =>
    let o := { o with published := true, remote := r.2.1 }
    .go (if r.2.1.isEmpty then endOp r.1 core o else putOp r.1 core o)

theorem endMove_eq : endMove s core o = endMoved core o (moved s core o) := by
  delta endMove endMoved moved
  rfl

theorem endMove_done {r : State} {ids : List Nat} (hw : moved s core o = (r, ids, none)) : endMove s core o =
    let o' := { o with published := true, remote := ids }
    .go (if ids = [] then endOp r core o' else putOp r core o') := by
  rw [endMove_eq, hw]
  simp only [endMoved, List.isEmpty_iff]

theorem endMove_fails {r : State} {ids : List Nat} {m va : Nat} {f : XFault} (hw : moved s core o = (r, ids, some (m, f, va))) :
    endMove s core o = .go (stopMove r core o m f va) := by
  rw [endMove_eq, hw]
  rfl

end

end Sys2Proof.Machine

namespace Sys2Proof
open Sys2Proof.Machine Sys2Proof.Claim

/-- Settles O30: a completion splits on the operation's kind, and a store on what its writes come to. -/
theorem engineCompletes : Obligations.EngineCompletes := by
  unfold Obligations.EngineCompletes
  intro s core id o t hop hall
  refine ⟨exec_engineComplete_stopped hop hall, fun hclk => ?_⟩
  have hexec (hfill : o.kind ≠ .fill) (hdrain : o.kind ≠ .drain) :
      exec (.engineComplete core id) s = .next (takeTry s core o (completeTry s core o)) := by
    rw [exec_engineComplete hop hall hfill hdrain, if_neg (Bool.eq_false_iff.1 hclk)]
  refine ⟨fun hk hc hpub => ?_, fun hk hpub hrec hno => ?_, fun hk hpub ws e hw => ?_, fun hk hpub => ?_, fun hk hpub r ids hw => ?_,
    fun hk hpub r ids m f va hw => ?_, fun hk hpub => ?_⟩
  · have hkinds : o.kind ≠ .fill ∧ o.kind ≠ .drain := by obtain hk | hk | hk := hk <;> simp [hk]
    rw [hexec hkinds.1 hkinds.2, completeTry_copy hpub hk hc]
    rfl
  · rw [hexec (by simp [hk]) (by simp [hk]), completeTry_tmcast hpub hk hrec hno]
    rfl
  · rw [hexec (by simp [hk]) (by simp [hk]), completeTry_tstore hpub hk]
    refine ⟨fun he => ?_, fun f va he hf => ?_, fun f va he hf => ?_⟩ <;> subst he
    · rw [endStore_done hw]
      rfl
    · rw [endStore_fails hw, if_pos hf, takeTry_stall hall.stalled]
    · rw [endStore_fails hw, if_neg hf]
      rfl
  · rw [hexec (by simp [hk]) (by simp [hk]), completeTry_tstoreA hpub hk]
    refine ⟨fun r hr => ?_, fun f va hr => ⟨fun hf => ?_, fun hf => ?_⟩⟩
    · rw [endStoreA_ok hr]
      rfl
    · rw [endStoreA_error hr, if_pos hf, takeTry_stall hall.stalled]
    · rw [endStoreA_error hr, if_neg hf]
      rfl
  · rw [hexec (by simp [hk]) (by simp [hk]), completeTry_kvmove hpub hk, endMove_done hw]
    rfl
  · rw [hexec (by simp [hk]) (by simp [hk]), completeTry_kvmove hpub hk, endMove_fails hw]
    rfl
  · have hkinds : o.kind ≠ .fill ∧ o.kind ≠ .drain := by obtain hk | hk | hk := hk <;> simp [hk]
    rw [hexec hkinds.1 hkinds.2, completeTry_published hk hpub]
    rfl

end Sys2Proof
end

section
/-! PROOFS. Ring slots and token deliveries (R267, R268, R279, R389 to R394, R405, R420, R429). -/

namespace Sys2Proof.Machine

open Sys2Proof.Claim

/-! ### Fills -/

section
variable {s : State} {tid ring : Nat} {t : Team} {u : Sub} (ht : mget s.teams tid = some t) (hu : subOf t ring = some u)
include ht hu

/-- The next tile's fill starts in a free slot whose word is the skidder's. -/
def fillStarted (s : State) (tid : Nat) (t : Team) (u : Sub) : State :=
  let o := slotOp s tid u .fill u.next
  let r := acceptLines t s.tick (u.sd.kind != 2) o.lines
  pushOp (setTeam (fresher s) tid (r.1.putWord s.tick { u with next := u.next + 1 }
    (u.next % u.nslot) (u32 (u.next % 2 ^ 16 * 2 ^ 16 + 1)))) t.core (started o r.2)

theorem exec_fillStart (hend : u.ended = false) (hleft : u.next < u.sd.count) (hfill : fillable t u (u.next % u.nslot) = true)
    (hsw : fillsStopped s t.ctx = false) (hfree : SlotFree s t t.core (slotOp s tid u .fill u.next)) : exec (.fillStart tid ring) s =
    .next (if clocksStopped s t.core then s
      else if slotWord t u (u.next % u.nslot) ≠ u.expected (u.next % u.nslot) then foreignEnd s tid t u (u.next % u.nslot)
      else fillStarted s tid t u) := by
  have hleft' : decide (u.sd.count ≤ u.next) = false := decide_eq_false (Nat.not_le.2 hleft)
  change Host.Outcome.next (fillStart s tid ring) = _
  rw [fillStart, ht]
  simp only [hu, hend, hleft', hfill, hsw, hfree.1, hfree.2, Bool.false_or, Bool.or_false, Bool.not_true, fillStarted, started, fresher]

end

section
variable {s : State} {core id : Nat} {o : EngOp} {t : Team}

/-- What FILL_DONE does with a fill that neither stalls nor is abandoned, once it is to end. -/
theorem exec_fillDone (hop : OpAt s core id o t) (hk : o.kind = .fill) (hst : o.stalled = none) (hab : o.abandoned = false)
    (hready : o.stopped = true ∨ isStoreFill t o = true ∨ opTotal t o ≤ o.done) : exec (.fillDone core id) s =
    .next (if clocksStopped s core then s else takeTry s core o (fillTry s core o t)) := by
  change Host.Outcome.next (fillDone s core id) = _
  rw [fillDone, hop.1]
  simp only [hop.2]
  rw [if_pos ⟨hk, .inr hst, .inr hready⟩, hab]
  rfl

theorem exec_fillDone_stopped (hop : OpAt s core id o t) (hab : o.abandoned = false) (hclk : clocksStopped s core = true) :
    exec (.fillDone core id) s = .next s := by
  change Host.Outcome.next (fillDone s core id) = _
  rw [fillDone, hop.1]
  simp only [hop.2, hab, hclk, Bool.false_eq_true, if_false, if_true, ite_self]

/-- The fill of a STORE stream reads nothing: only where its tile lies matters. -/
theorem fillTry_store (hstore : isStoreFill t o = true) : fillTry s core o t =
    .go (endFill (if tileOutside s core o then markErr s o else s) core o (opTotal t o)) := by
  simp only [fillTry, hstore, if_true]

/-- A fill that has stopped, or that checks no version, just ends. -/
theorem fillTry_finish (hstore : isStoreFill t o = false) (hdone : o.stopped = true ∨ o.checks = false) : fillTry s core o t =
    .go (endFill s core o (opTotal t o)) := by
  have hver : versionEnd s core o = .finish false := by
    rw [versionEnd, if_pos]
    obtain h | h := hdone <;> simp [h]
  simp only [fillTry, hstore, hver, Bool.false_eq_true, if_false]

end

/-! ### Drains -/

section
variable {s : State} {tid ring slot : Nat} {t : Team} {u : Sub}

/-- The drain of a DONE slot starts. -/
def drainStarted (s : State) (tid slot : Nat) (t : Team) (u : Sub) : State :=
  let o := slotOp s tid u .drain (u.tileIn slot)
  let r := acceptLines t s.tick false o.lines
  pushOp (setTeam (fresher s) tid (r.1.putWord s.tick u slot (wordTo (u.expected slot) 4))) t.core (started o r.2)

theorem exec_drainStart (ht : mget s.teams tid = some t) (hu : subOf t ring = some u) (hslot : slot < u.nslot)
    (hsw : streamsFreed s t.ctx = false) (hdr : drainable t u slot = true)
    (hfree : SlotFree s t t.core (slotOp s tid u .drain (u.tileIn slot))) : exec (.drainStart tid ring slot) s =
    .next (if clocksStopped s t.core then s
      else if slotWord t u slot ≠ u.expected slot then foreignEnd s tid t u slot
      else drainStarted s tid slot t u) := by
  have hslot' : decide (u.nslot ≤ slot) = false := decide_eq_false (Nat.not_le.2 hslot)
  change Host.Outcome.next (drainStart s tid ring slot) = _
  rw [drainStart, ht]
  simp only [hu, hslot', hsw, hdr, hfree.1, hfree.2, Bool.false_or, Bool.or_false, Bool.not_true, drainStarted, started, fresher]

end

section
variable {s : State} {core id : Nat} {o : EngOp} {t : Team} {u : Sub}

theorem exec_drainDone (hop : OpAt s core id o t) (hu : subOf t o.ring = some u) (hk : o.kind = .drain) (hst : o.stalled = none) :
    exec (.drainDone core id) s = .next (if clocksStopped s core then s else takeTry s core o (drainTry s core o t u)) := by
  change Host.Outcome.next (drainDone s core id) = _
  rw [drainDone, hop.1]
  simp only [hop.2, hu, hk, hst, and_self, if_true]

/-- The drain's operation with the image of its slot as read. -/
def imaged (s : State) (t : Team) (o : EngOp) : EngOp := { o with buf := (drainImage s t o).1 }

theorem drainImage_bad : (drainImage s t o).2 = true ↔ ∃ l ∈ o.lines, l ∈ t.badLines := by
  simp [drainImage, List.filter_eq_nil_iff]

/-- A fetch stream writes nothing back. -/
theorem drainTry_fetch (hk : u.sd.kind = 1) : drainTry s core o t u = .go (endDrain s core o) := if_pos hk

/-- An uncorrectable error, in the image or in the version word that the drain reads. -/
def drainBad (s : State) (core : Nat) (t : Team) (o : EngOp) : Bool :=
  (drainImage s t o).2 || (layVer o.desc.layout && versionBad s (opAcc s core (imaged s t o)) o.gaddr)

/-- What a drain of a tile with a version ends with, once its event has come to `r`. -/
def drainedWhole (s : State) (core : Nat) (o : EngOp) : Except (XFault × Nat) (State × List Nat) → Try
  | .error (f, va) => if f.cause = 3 then .stall f va else .go (endDrain (markErr s o) core o)
  | .ok (s, _) => .go (endDrain s core o)

/-- What a drain of a tile without a version ends with, once its writes are prepared. -/
def drainedPlain (s : State) (core : Nat) (o : EngOp) (w : List PreWrite × Option (XFault × Nat)) : Try :=
  match w.2 with
  | some (f, va) => if f.cause = 3 then .stall f va
    else .go (endDrain (markErr (makeWrites s (opAcc s core o) (.engine core o.id) w.1 []).1 o) core o)
  | none => .go (endDrain (makeWrites s (opAcc s core o) (.engine core o.id) w.1 []).1 core o)

theorem drainTry_bad (hk : u.sd.kind ≠ 1) (hbad : drainBad s core t o = true) :
    drainTry s core o t u = .go (endDrain (setTbarErr s o.team o.bar) core (imaged s t o)) := by
  unfold drainTry
  rw [if_neg hk]
  exact if_pos hbad

theorem drainTry_whole (hk : u.sd.kind ≠ 1) (hgood : drainBad s core t o = false) (hver : layVer o.desc.layout = true) :
    drainTry s core o t u = drainedWhole s core (imaged s t o) (storeWhole s core (imaged s t o)) := by
  unfold drainTry
  rw [if_neg hk]
  refine (if_neg (Bool.eq_false_iff.1 hgood)).trans ((if_pos hver).trans ?_)
  unfold imaged
  generalize storeWhole s core _ = r
  obtain ⟨f, va⟩ | ⟨s', ids⟩ := r <;> rfl

theorem drainTry_plain (hk : u.sd.kind ≠ 1) (hgood : drainBad s core t o = false) (hver : layVer o.desc.layout = false) :
    drainTry s core o t u = drainedPlain s core (imaged s t o)
      ((opAcc s core (imaged s t o)).prepAll s (sectorGroups (imaged s t o).packed)) := by
  unfold drainTry
  rw [if_neg hk]
  refine (if_neg (Bool.eq_false_iff.1 hgood)).trans ((if_neg (Bool.eq_false_iff.1 hver)).trans ?_)
  unfold imaged
  dsimp only
  generalize EngAcc.prepAll _ s _ = w
  obtain ⟨ws, _ | ⟨f, va⟩⟩ := w <;> rfl

/-- The end of a drain of a tile without a version, by what the preparation of its writes comes to. -/
theorem drainedPlain_ok {ws : List PreWrite} : drainedPlain s core o (ws, none) =
    .go (endDrain (makeWrites s (opAcc s core o) (.engine core o.id) ws []).1 core o) := rfl

theorem drainedPlain_stall {ws : List PreWrite} {f : XFault} {va : Nat} (hf : f.cause = 3) :
    drainedPlain s core o (ws, some (f, va)) = .stall f va := if_pos hf

theorem drainBad_iff : drainBad s core t o = true ↔
    (∃ l ∈ o.lines, l ∈ t.badLines) ∨ (layVer o.desc.layout = true ∧ versionBad s (opAcc s core (imaged s t o)) o.gaddr = true) := by
  rw [drainBad, Bool.or_eq_true, Bool.and_eq_true, drainImage_bad]

/-- Good lines make a good drain, unless a version word is bad. -/
theorem drainBad_false (hgood : ∀ l ∈ o.lines, l ∉ t.badLines)
    (hver : ¬ (layVer o.desc.layout = true ∧ versionBad s (opAcc s core (imaged s t o)) o.gaddr = true)) :
    drainBad s core t o = false := by
  rw [← Bool.not_eq_true, drainBad_iff]
  rintro (⟨l, hl, hbad⟩ | h)
  · exact hgood l hl hbad
  · exact hver h

end

theorem ringEventsComplete : RingEventsComplete := by
  refine ⟨fun s tid ring t u ht hu hend hleft hfill hsw hfree => ?_, fun s core id o t hop hk hst hab => ?_,
    fun s tid ring slot t u ht hu hslot hsw hst hfree hword => ?_,
    fun s tid ring slot t u ht hu hslot hsw hdr hfree hword hclk => ?_, fun s core id o t u hop hu hk hst => ?_⟩
  · rw [exec_fillStart ht hu hend hleft hfill hsw hfree]
    refine ⟨fun hclk => by rw [if_pos hclk], fun hclk => ?_⟩
    rw [if_neg (Bool.eq_false_iff.1 hclk)]
    exact ⟨fun hword => by rw [if_pos hword], fun hword => by rw [if_neg (not_not.2 hword), fillStarted]⟩
  · refine ⟨fun hclk => exec_fillDone_stopped hop hab hclk, fun hclk hstore => ?_, fun hclk hstore hdone => ?_⟩
    · rw [exec_fillDone hop hk hst hab (.inr (.inl hstore)), if_neg (Bool.eq_false_iff.1 hclk), fillTry_store hstore]
      rfl
    · rw [exec_fillDone hop hk hst hab (hdone.imp_right fun h => .inr h.2), if_neg (Bool.eq_false_iff.1 hclk),
        fillTry_finish hstore (hdone.imp_right And.left)]
      rfl
  · have hdr : drainable t u slot = true := by simp [drainable, hst]
    dsimp only
    rw [exec_drainStart ht hu hslot hsw hdr hfree, if_neg (not_not.2 hword), drainStarted]
  · rw [exec_drainStart ht hu hslot hsw hdr hfree, if_neg (Bool.eq_false_iff.1 hclk), if_pos hword]
  · rw [exec_drainDone hop hu hk hst]
    refine ⟨fun hclk => by rw [if_pos hclk], fun hclk => ?_⟩
    rw [if_neg (Bool.eq_false_iff.1 hclk)]
    refine ⟨fun hfetch => by rw [drainTry_fetch hfetch]; rfl, fun hstore o' ho' => ?_⟩
    obtain rfl : o' = imaged s t o := ho'
    refine ⟨fun hbad => ?_, fun hgood hver hword r hr => ?_, fun hgood hver ws e hw => ⟨fun he => ?_, fun f va he hf => ?_⟩⟩
    · rw [drainTry_bad hstore (drainBad_iff.2 hbad)]
      rfl
    · rw [drainTry_whole hstore (drainBad_false hgood fun h => Bool.false_ne_true (hword.symm.trans h.2)) hver, hr]
      rfl
    · rw [drainTry_plain hstore (drainBad_false hgood fun h => Bool.false_ne_true (hver.symm.trans h.1)) hver, hw, he, drainedPlain_ok]
      rfl
    · rw [drainTry_plain hstore (drainBad_false hgood fun h => Bool.false_ne_true (hver.symm.trans h.1)) hver, hw, he,
        drainedPlain_stall hf, takeTry_stall hst]

/-! ### Deliveries -/

section
variable {s : State} {tid row : Nat} {t : Team} {tok : Word} {table by' : DWord} {entry stalled : Option (Nat × Nat)}

/-- What the delivery unit makes of its next access of a slot. -/
def deliverTaken (s : State) (tid row : Nat) (t : Team) (tok : Word) (table by' : DWord) (entry stalled : Option (Nat × Nat)) : Deliver → State
  | .far s => s
  | .wait => dropFetched (putCommit s tid row (.pending tok table by' entry none)) (.delivery tid row)
  | .stall cause access va =>
    if stalled = some (cause, va) then dropFetched s (.delivery tid row)
    else postRecord (dropFetched (putCommit s tid row (.pending tok table by' entry (some (cause, va)))) (.delivery tid row)) t.ctx
      (deliveryRecord t.core row cause access (u64 va) by' 0)
  | .again => dropFetched (putCommit s tid row (.pending tok table by' none none)) (.delivery tid row)
  | .entry s ring tail => dropFetched (putCommit s tid row (.pending tok table by' (some (ring, tail)) none)) (.delivery tid row)
  | .tail s => putCommit s tid row (if unackedDelivery s tid row then .pending tok table by' entry none else .empty)

theorem deliverAt_pending (h : PendingAt s tid row t tok table by' entry stalled) : deliverAt s tid row stalled.isSome =
    if deliveryHeld s t.ctx entry then s
    else deliverTaken s tid row t tok table by' entry stalled (deliverTry s tid t row tok table entry stalled.isSome) := by
  obtain ⟨ht, hrow, hcr⟩ := h
  unfold deliverAt
  rw [ht]
  dsimp only
  rw [Nat.mod_eq_of_lt hrow, hcr]
  dsimp only
  rw [bne_self_eq_false, decide_eq_false (Nat.not_le.2 hrow), Bool.false_or, Bool.false_or]
  generalize deliverTry s tid t row tok table entry stalled.isSome = d
  cases d <;> rfl

/-- DELIVERY serves a slot that does not stall, DELIVERY_RETRY one that does. -/
theorem exec_delivery (stalled : Option (Nat × Nat)) :
    exec (if stalled.isSome then Instr.deliveryRetry tid row else Instr.delivery tid row) s = .next (deliverAt s tid row stalled.isSome) := by
  cases stalled <;> rfl

end

theorem deliveryEventsComplete : DeliveryEventsComplete := by
  rintro s tid row t tok table by' entry stalled h i rfl
  rw [exec_delivery, deliverAt_pending h]
  refine ⟨fun hheld => by rw [if_pos hheld], fun hheld => ?_⟩
  rw [if_neg (Bool.eq_false_iff.1 hheld)]
  refine ⟨fun s' ring n hd => ?_, fun s' hd => ?_, fun cause access va hd => ?_, fun hd => ?_, fun hd => ?_, fun s' hd => ?_⟩ <;>
    rw [hd] <;> rfl

end Sys2Proof.Machine

namespace Sys2Proof
open Sys2Proof.Machine Sys2Proof.Claim

/-- Settles O42: the events of a ring split on its slot word, a drain on what it reads, a delivery on its next access. -/
theorem ringAndDeliveryEventsComplete : Obligations.RingAndDeliveryEventsComplete := by
  unfold Obligations.RingAndDeliveryEventsComplete
  exact ⟨ringEventsComplete, deliveryEventsComplete⟩

end Sys2Proof
end

section
/-! PROOFS. Atomics: the steps of an ATOM on memory of the module, and ATOMS in the scratchpad (R147, R231 to R233). -/

namespace Sys2Proof.Machine

open Sys2Proof.Claim

/-! ### Pending stores that an ATOM publishes first (R147 step 1) -/

/-- A pending store to memory of the module whose translation still holds. -/
def NearPend (e : Pend) : Prop := e.stale = false ∧ e.tr.kind ≠ .remote

theorem publishUnit_near {s : State} {gid : Nat} {g : Group} {sc : Scope} {e : Pend} (he : NearPend e) : publishUnit s gid g sc e =
    let cells := unitCells e.tr (storedBytes e.tr e.bytes)
    .published (publish s (agentOf g.core) (some gid) none sc (keySerial s e.tr.key) cells) (cells.map fun c => (c.1, s.fresh)) := by
  obtain ⟨hstale, hnear⟩ := he
  rw [publishUnit, hstale]
  simp only [Bool.false_and, Bool.false_eq_true, if_false, if_neg hnear]

/-- A run over such stores keeps none, sends none, does not stop, and leaves the groups and the memory errors. -/
theorem publishList_near {gid : Nat} {g : Group} {sc : Scope} (l : List Pend) : ∀ r : PubRun, (∀ e ∈ l, NearPend e) →
    (publishList gid g sc l r).sent = r.sent ∧ (publishList gid g sc l r).stopped = r.stopped ∧
    (publishList gid g sc l r).s.groups = r.s.groups ∧ (publishList gid g sc l r).s.badSectors = r.s.badSectors := by
  induction l with
  | nil => exact fun r _ => ⟨rfl, rfl, rfl, rfl⟩
  | cons e l ih =>
    intro r h
    rw [publishList, publishUnit_near (h e List.mem_cons_self)]
    exact ih _ fun x hx => h x (List.mem_cons_of_mem _ hx)

/-- What an ATOM keeps while it goes on: its group is there, no pending store of it waits for a new walk, and the memory errors are as
they were. -/
def AtomGoes (gid : Nat) (bad : List Nat) (s : State) : Prop :=
  s.badSectors = bad ∧ ∃ g, mget s.groups gid = some g ∧ ∀ e ∈ g.pend, e.stale = false

section
variable {s : State} {gid : Nat} {bad : List Nat} {sc : Scope} {op : BitVec 4}

/-- A pending store in the sector of an address of the module is one to the module. -/
theorem nearPend_of_inSector {g : Group} {va : DWord} {t : Trans} {e : Pend} (hstale : e.stale = false) (hnear : t.kind ≠ .remote)
    (hin : inSector s g va t e = true) : NearPend e := by
  simp only [inSector, hstale, Bool.not_false, if_true, Bool.and_eq_true, decide_eq_true_eq] at hin
  exact ⟨hstale, hin.1 ▸ hnear⟩

/-- All pending stores of the sector are published: none goes to a peer and no page stops them. -/
theorem publishSector_near {va : DWord} {t : Trans} (h : AtomGoes gid bad s) (hnear : t.kind ≠ .remote) :
    AtomGoes gid bad (publishSector s gid va t sc).1 ∧ (publishSector s gid va t sc).2 = ([], false) := by
  obtain ⟨hbad, g, hg, hstale⟩ := h
  have hmine : ∀ e ∈ g.pend.filter (inSector s g va t), NearPend e := fun e he =>
    nearPend_of_inSector (hstale e (List.mem_filter.1 he).1) hnear (List.mem_filter.1 he).2
  obtain ⟨hsent, hstopped, -, hsectors⟩ := publishList_near (gid := gid) (g := g) (sc := if sc = .clus then .die else sc) _
    { s := s, kept := [], sent := [], seen := [], stopped := false } hmine
  rw [publishSector, hg]
  refine ⟨⟨hsectors.trans hbad, _, mget_mput_self _ _ _, fun e he => hstale e (List.mem_filter.1 he).1⟩, ?_⟩
  exact Prod.ext hsent hstopped

/-! ### One lane -/

theorem atomicAt_groups (who : Agent) (grp : Option Nat) (key salt : Nat) (pas : List Nat) (f : Nat → Option Nat) :
    (atomicAt s who grp sc key salt pas f).1.groups = s.groups ∧ (atomicAt s who grp sc key salt pas f).1.badSectors = s.badSectors := by
  unfold atomicAt
  dsimp only
  split <;> exact ⟨rfl, rfl⟩

/-- The step of a lane that has not been made, on memory of the module without an error. -/
structure StepReady (bad : List Nat) (op : BitVec 4) (st : AtomStep) : Prop where
  old : st.old = none
  good : st.bad = none
  unsent : st.sent = false
  before : st.before = []
  near : st.tr.kind ≠ .remote
  clean : ∀ a ∈ paRange st.tr.pa (atomBytes op), bad.contains (a / 32) = false

/-- A ready step is made. -/
theorem atomNext_ready {tag : Nat} {st : AtomStep} (h : AtomGoes gid bad s) (hst : StepReady bad op st) :
    AtomGoes gid bad (atomNext s gid tag op sc st).1 ∧ (atomNext s gid tag op sc st).2.1.old.isSome = true ∧
    (atomNext s gid tag op sc st).2.2 = none := by
  obtain ⟨hgoes, hp⟩ := publishSector_near (sc := sc) (va := st.va) h hst.near
  obtain ⟨hsectors, g, hg, hstale⟩ := hgoes
  have hclean : ((paRange st.tr.pa (atomBytes op)).any (badByte (publishSector s gid st.va st.tr sc).1)) = false :=
    List.any_eq_false.2 fun a ha => by rw [badByte, hsectors, hst.clean a ha]; exact Bool.false_ne_true
  obtain ⟨hgroups, hbads⟩ := atomicAt_groups (s := (publishSector s gid st.va st.tr sc).1) (sc := sc) (agentOf g.core) (some gid)
    (keySerial (publishSector s gid st.va st.tr sc).1 st.tr.key) st.lane (paRange st.tr.pa (atomBytes op)) fun m => atomOp op m st.x st.y
  have hmig : st.migrating = false := by rw [AtomStep.migrating, hst.good]; rfl
  have hremotes : (s.remotes.any fun r => st.before.contains r.id) = false := by simp [hst.before]
  simp only [atomNext, hst.old, hst.good, hmig, hst.unsent, hremotes, hp, hg, hclean, hst.near, hgroups, Option.isSome_none,
    Bool.false_eq_true, if_false, Bool.or_false, List.isEmpty_nil, Bool.not_true]
  refine ⟨⟨hbads.trans hsectors, _, mget_mput_self _ _ _, fun e he => hstale e he⟩, rfl, trivial⟩

/-! ### The lanes in order (R232) -/

/-- Ready steps are all made, one after the other. -/
theorem atomRun_ready {tag : Nat} (l : List AtomStep) : ∀ s : State, AtomGoes gid bad s → (∀ st ∈ l, StepReady bad op st) →
    AtomGoes gid bad (atomRun gid tag op sc l s).1 ∧ (∀ st ∈ (atomRun gid tag op sc l s).2.1, st.old.isSome = true) ∧
    (atomRun gid tag op sc l s).2.2 = none := by
  induction l with
  | nil => exact fun s h _ => ⟨h, fun st hst => absurd hst List.not_mem_nil, rfl⟩
  | cons st l ih =>
    intro s h hready
    obtain ⟨hgoes, hold, hnext⟩ := atomNext_ready (sc := sc) (tag := tag) h (hready st List.mem_cons_self)
    obtain ⟨hgoes', holds, hend⟩ := ih _ hgoes fun x hx => hready x (List.mem_cons_of_mem _ hx)
    simp only [atomRun, hnext]
    exact ⟨hgoes', List.forall_mem_cons.2 ⟨hold, holds⟩, hend⟩

/-- A lane that passes its check on memory of the module has a ready first step. -/
theorem atomFirst_ready {g : Group} {lane : Nat} {a : DWord} {v : Nat × Nat} (hchk : atomTrap s g op sc lane a = none)
    (hnear : (transOf s g lane a .rmw).kind ≠ .remote) : StepReady s.badSectors op (atomFirst s g lane a v) := by
  refine ⟨rfl, rfl, rfl, rfl, hnear, fun b (hb : b ∈ paRange (transOf s g lane a .rmw).pa (atomBytes op)) => ?_⟩
  have herr := (Option.or_eq_none_iff.1 hchk).2
  rw [if_neg hnear, ite_eq_right_iff] at herr
  rw [← Bool.not_eq_true]
  exact fun hbad => absurd (herr (List.any_eq_true.2 ⟨b, hb, hbad⟩)) (Option.some_ne_none _)

/-- An ATOM whose steps are all ready hands its old values over. -/
theorem atomGo_ready {uni : Bool} {tag : Nat} {l : List AtomStep} {commit : Group → (Nat → Nat) → Group}
    (hgoes : AtomGoes s.cur.group bad s) (hready : ∀ st ∈ l, StepReady bad op st) :
    let r := atomRun s.cur.group tag op sc l s
    ∃ g', mget r.1.groups s.cur.group = some g' ∧ (∀ st ∈ r.2.1, st.old.isSome = true) ∧ atomGo s uni tag op sc l commit =
      .ok (done (setGroup r.1 s.cur.group (g'.putAtom tag [])) (commit (g'.putAtom tag []) (stepOld r.2.1))) := by
  obtain ⟨⟨-, g', hg', -⟩, holds, hend⟩ := atomRun_ready (sc := sc) (tag := tag) l s hgoes hready
  refine ⟨g', hg', holds, ?_⟩
  simp only [atomGo, hg', hend]
  rfl

end

/-! ### ATOM -/

section
variable {s : State} {g : Group} {op : BitVec 4} {sc : BitVec 2} {e : BitVec 5} {x d : BitVec 7} (hi : Issues s g)
  (hnew : atomUnderWay s g op (atomScope sc) = none) (hstale : ∀ p ∈ g.pend, p.stale = false)

/-- The state in which an ATOM's steps begin: its number is taken. -/
def tagged (s : State) : State := { s with fresh := s.fresh + 1 }

section
include hi hstale

theorem atomGoes_tagged : AtomGoes (tagged s).cur.group s.badSectors (tagged s) := ⟨rfl, g, hi, hstale⟩

end

include hi hnew hstale

theorem exec_atom_uni (hd : isUni d = true) (hfree : UniFree s g (e.toNat :: (atomRegs op x d).map uniIdx) [uniIdx d]) {a : DWord}
    (ha : a = addrOf g e ((g.rdW (uniIdx x)).truncate 32) (atomShift op)) (hchk : atomTrap s g op (atomScope sc) 0 a = none)
    (hnear : (transOf s g 0 a .rmw).kind ≠ .remote) :
    let r := atomRun s.cur.group s.fresh op (atomScope sc) [atomFirst s g 0 a (atomVals g op x d 0)] (tagged s)
    ∃ g', mget r.1.groups s.cur.group = some g' ∧ (∀ st ∈ r.2.1, st.old.isSome = true) ∧
      exec (.atom op sc e x d) s = .next (done (setGroup r.1 s.cur.group (g'.putAtom s.fresh []))
        ((g'.putAtom s.fresh []).wrW (uniIdx d) (u64 (stepOld r.2.1 0)))) := by
  obtain ⟨g', hg', holds, hgo⟩ := atomGo_ready (s := tagged s) (op := op) (sc := atomScope sc) (uni := true) (tag := s.fresh)
    (l := [atomFirst s g 0 a (atomVals g op x d 0)]) (commit := fun g old => g.wrW (uniIdx d) (u64 (old 0)))
    (atomGoes_tagged hi hstale) fun st hst => by
      obtain rfl := List.mem_singleton.1 hst
      exact atomFirst_ready hchk hnear
  refine ⟨g', hg', holds, ?_⟩
  subst ha
  unfold atomShift tagged at *
  change finish (atomStep s op sc e x d) = _
  simp only [atomStep, issuer_bind hi, hd, if_true, hnew, useW_bind hfree, hchk]
  rw [hgo]
  rfl

theorem exec_atom_vec (hd : isUni d = false) (hfree : MemFree s g e (atomReads op x d) (atomDests op d))
    (hchk : ∀ l ∈ cohort s, atomTrap s g op (atomScope sc) l.val (atomAddr g op e x l) = none ∧
      (transOf s g l.val (atomAddr g op e x l) .rmw).kind ≠ .remote) :
    let r := atomRun s.cur.group s.fresh op (atomScope sc)
      ((cohort s).map fun l => atomFirst s g l.val (atomAddr g op e x l) (atomVals g op x d l)) (tagged s)
    ∃ g', mget r.1.groups s.cur.group = some g' ∧ (∀ st ∈ r.2.1, st.old.isSome = true) ∧
      exec (.atom op sc e x d) s = .next (done (setGroup r.1 s.cur.group (g'.putAtom s.fresh []))
        ((g'.putAtom s.fresh []).vecCommit s.tick (cohort s) (atomReads op x d) (atomDests op d)
          fun i => { vals := oldWords op (stepOld r.2.1 i.val), flags := 0 })) := by
  obtain ⟨g', hg', holds, hgo⟩ := atomGo_ready (s := tagged s) (op := op) (sc := atomScope sc) (uni := false) (tag := s.fresh)
    (l := (cohort s).map fun l => atomFirst s g l.val (atomAddr g op e x l) (atomVals g op x d l))
    (commit := fun g old => g.vecCommit s.tick (cohort s) (atomReads op x d) (atomDests op d)
      fun i => { vals := oldWords op (old i.val), flags := 0 }) (atomGoes_tagged hi hstale) fun st hst => by
      obtain ⟨l, hl, rfl⟩ := List.mem_map.1 hst
      exact atomFirst_ready (hchk l hl).1 (hchk l hl).2
  refine ⟨g', hg', holds, ?_⟩
  have hready := memReady_ok hfree fun l hl => (hchk l hl).1
  unfold atomAddr atomShift atomReads atomDests tagged at *
  change finish (atomStep s op sc e x d) = _
  simp only [atomStep, issuer_bind hi, hd, Bool.false_eq_true, if_false, hnew, hready, ok_bind]
  rw [hgo]
  rfl

end

/-! ### ATOMS -/

section
variable {s : State} {g : Group} {tid : Nat} {t : Team}

/-- A free range waits neither for presence nor for its owner. -/
theorem scratchHold_atomsWait {offs : List (Nat × Nat)} (h : ScratchFree s tid t true offs) :
    scratchHold s tid t s.cur.group (atomsWait t) offs = .ok () := by
  have hlines : ∀ l ∈ offs.flatMap (fun p => linesOf p.1 p.2), (t.line l).absent = false ∧ (t.line l).engine = false := fun l hl => by
    obtain ⟨p, hp, hlp⟩ := List.mem_flatMap.1 hl
    obtain ⟨-, habsent, hengine⟩ := (h.1 p hp).1 l hlp
    exact ⟨habsent, hengine rfl⟩
  have habsent : ((offs.flatMap fun p => linesOf p.1 p.2).any fun l => (t.line l).absent) = false :=
    List.any_eq_false.2 fun l hl => by rw [(hlines l hl).1]; exact Bool.false_ne_true
  have hengine : ((offs.flatMap fun p => linesOf p.1 p.2).any fun l => (t.line l).engine) = false :=
    List.any_eq_false.2 fun l hl => by rw [(hlines l hl).2]; exact Bool.false_ne_true
  have hboth : ((offs.flatMap fun p => linesOf p.1 p.2).any fun l => (t.line l).engine || (t.line l).absent) = false :=
    List.any_eq_false.2 fun l hl => by rw [(hlines l hl).1, (hlines l hl).2]; exact Bool.false_ne_true
  have hwait : atomsWait t (offs.flatMap fun p => linesOf p.1 p.2) = lineWait t true (offs.flatMap fun p => linesOf p.1 p.2) := by
    rw [atomsWait, lineWait, habsent, hengine, if_pos rfl, hboth]
    rfl
  rw [← scratchHold_ok h]
  simp only [scratchHold, hwait]

/-- An atomic in the scratchpad answers the old value, whether it writes or not. -/
theorem atomsLane_old (s : State) (gid : Nat) (g : Group) (op : BitVec 4) (lane off : Nat) (v : Nat × Nat) (t : Team) :
    (atomsLane s gid g op lane off v t).2 = leNat (t.read off (atomBytes op)) := by
  rw [atomsLane]
  cases atomOp op (leNat (t.read off (atomBytes op))) v.1 v.2 <;> rfl

variable {op : BitVec 4} {e : BitVec 5} {x d : BitVec 7} (hi : Issues s g) (ht : TeamOf s g tid t)
include hi ht

theorem exec_atoms_uni (hd : isUni d = true) (hfree : UniFree s g (e.toNat :: (atomRegs op x d).map uniIdx) [uniIdx d]) {a : DWord}
    (ha : a = addrOf g e ((g.rdW (uniIdx x)).truncate 32) (atomShift op)) (hchk : scratchTrap s g t 0 a (atomBytes op) true = none)
    (hscratch : ScratchFree s tid t true [(a.toNat, atomBytes op)]) (hbad : a.toNat / 256 ∉ t.badLines) :
    let r := atomsLane s s.cur.group g op 0 a.toNat (atomVals g op x d 0) t
    exec (.atoms op e x d) s = .next (done (setTeam s tid r.1) (g.wrW (uniIdx d) (u64 r.2))) := by
  have hhold := scratchHold_atomsWait hscratch
  have hgood := badLine_none hbad
  subst ha
  unfold atomShift at *
  change finish (atomsStep s op e x d) = _
  simp only [atomsStep, issuer_bind hi, issuerTeam_bind ht, hd, if_true, useW_bind hfree, hchk, hhold, ok_bind, hgood]
  rfl

theorem exec_atoms_vec (hd : isUni d = false) (hfree : MemFree s g e (atomReads op x d) (atomDests op d))
    (hchk : ∀ l ∈ cohort s, scratchTrap s g t l.val (atomAddr g op e x l) (atomBytes op) true = none ∧
      (atomAddr g op e x l).toNat / 256 ∉ t.badLines)
    (hscratch : ScratchFree s tid t true ((cohort s).map fun l => ((atomAddr g op e x l).toNat, atomBytes op))) :
    let r := atomsLanes s s.cur.group g op (fun l => (atomAddr g op e x l).toNat) (atomVals g op x d) (cohort s) t []
    exec (.atoms op e x d) s = .next (done (setTeam s tid r.1) (g.vecCommit s.tick (cohort s) (atomReads op x d) (atomDests op d)
      (oldIn op r.2))) := by
  have hready : memReady s g e (atomReads op x d) (atomDests op d) (fun l =>
      (scratchTrap s g t l.val (atomAddr g op e x l) (atomBytes op) true).or (badLine t (atomAddr g op e x l))) = .ok () :=
    memReady_ok hfree fun l hl => by rw [(hchk l hl).1, badLine_none (hchk l hl).2]; rfl
  have hhold := scratchHold_atomsWait hscratch
  unfold atomAddr atomShift atomReads atomDests at *
  change finish (atomsStep s op e x d) = _
  simp only [atomsStep, issuer_bind hi, issuerTeam_bind ht, hd, Bool.false_eq_true, if_false, hready, ok_bind, hhold]
  rfl

end

end Sys2Proof.Machine

namespace Sys2Proof
open Sys2Proof.Machine Sys2Proof.Claim

/-- Settles O15: each step of an ATOM publishes the stores of its sector and is made, by induction over the lanes; ATOMS meets nothing
that holds it. -/
theorem atomicsComplete : Obligations.AtomicsComplete := by
  unfold Obligations.AtomicsComplete
  refine ⟨fun op sc e x d s g hi hnew hstale => ⟨fun hd hfree hchk hnear => ?_, fun hd hfree hchk => ?_⟩,
    fun op e x d s g tid t hi ht => ⟨fun hd hfree hchk hscratch hbad => ⟨?_, ?_⟩, exec_atoms_vec hi ht⟩⟩
  · exact exec_atom_uni hi hnew hstale hd hfree rfl hchk hnear
  · exact exec_atom_vec hi hnew hstale hd hfree hchk
  · exact exec_atoms_uni hi ht hd hfree rfl hchk hscratch hbad
  · exact atomsLane_old ..

end Sys2Proof
end

section
/-! PROOFS. The matrix sequencer's instructions at their issue (R215 to R224, R260, R263). -/

namespace Sys2Proof.Machine
open Sys2Proof.Claim

section
variable {s : State} {g : Group} {tid : Nat} {t : Team}

/-! ### Checks that pass -/

theorem seqIssue_ok {tiles : List Nat} (h : SeqFree s g tid tiles) (k : SeqKind) : seqIssue s g tid k = .ok (queued s g tid k) :=
  if_neg (Nat.not_le.2 h.1)

theorem tilesIdle_bind {tiles : List Nat} (h : SeqFree s g tid tiles) (k : Unit → R State) :
    (stallIf s (tileWritten s g.core tid tiles) >>= k) = k () := stallIf_bind h.2 k

theorem loopLines_bind {da db : Desc} {n : Nat} (h : LinesIn t da db n) (k : Unit → R State) : (loopLines s t da db n >>= k) = k () := by
  rw [loopLines, h.1, h.2]; rfl

theorem transferRange_bind {d : Desc} {p : Nat} (h : t.inRange d.base.toNat (32 * p) = true) (k : Unit → R State) :
    (transferRange s t d p >>= k) = k () := by
  rw [transferRange, if_pos h]; rfl

theorem errCheck_bind {n : Nat} (h : (t.acct n).err = false) (k : Unit → R State) : (errCheck s t n >>= k) = k () := by
  rw [errCheck, h]; rfl

/-- MLOOP checks its tile only where it keeps what the tile holds: it adds to it, or leaves masked words (R220). -/
theorem loopErrCheck_bind {m z : Bool} {n : Nat} (h : (z = false ∨ m = true) → (t.acct n).err = false) (r : R State) :
    (if !z || m then errCheck s t n >>= fun _ => r else r) = r := by
  split
  · next hkeep => exact errCheck_bind (h (by simpa using hkeep)) _
  · rfl

theorem find?_err_eq_none {acc span : Nat} (h : ∀ n, n < span → (t.acct (acc + n)).err = false) :
    (((List.range span).map (acc + ·)).find? fun n => (t.acct n).err) = none := by
  refine List.find?_eq_none.2 fun n hn => ?_
  obtain ⟨k, hk, rfl⟩ := List.mem_map.1 hn
  rw [h k (List.mem_range.1 hk)]
  exact Bool.false_ne_true

variable (hi : Issues s g) (ht : TeamOf s g tid t)
include hi ht

/-! ### MLOOP, MZERO, MLOAD, MSTORE -/

theorem exec_mloop {m z : Bool} {cnt : BitVec 5} {tB tA : BitVec 4} {acc : BitVec 6} (hfree : UniFree s g [cnt.toNat] [])
    (hseq : SeqFree s g tid [acc.toNat]) (hcount : (g.rdW cnt.toNat).toNat ≤ 65535)
    (hcompat : compatible (t.tile tA).f (t.tile tB).f = true) (hlines : LinesIn t (t.tile tA) (t.tile tB) (g.rdW cnt.toNat).toNat)
    (herr : (z = false ∨ m = true) → (t.acct acc.toNat).err = false) :
    exec (.mloop m z cnt tB tA acc) s = .next (queued s g tid (.mloop acc.toNat (t.tile tA) (t.tile tB) (g.rdW cnt.toNat).toNat z
      (loopMask g m (t.tile tA)) (loopMask g m (t.tile tB)))) := by
  show finish (mloopStep s m z cnt tB tA acc) = _
  simp only [mloopStep, issuer_bind hi, issuerTeam_bind ht, useW_bind hfree, tilesIdle_bind hseq, need_bind (decide_eq_true hcount),
    need_bind hcompat, loopLines_bind hlines, seqIssue_ok hseq, loopErrCheck_bind herr]
  rfl

theorem exec_mzero {acc : BitVec 6} (hseq : SeqFree s g tid [acc.toNat]) :
    exec (.mzero acc) s = .next (queued s g tid (.mzero acc.toNat)) := by
  show finish (mzeroStep s acc) = _
  simp only [mzeroStep, issuer_bind hi, issuerTeam_bind ht, tilesIdle_bind hseq, seqIssue_ok hseq, finish]

theorem exec_mload {acc : BitVec 6} {d : BitVec 4} (hseq : SeqFree s g tid [acc.toNat]) (hfmt : (t.tile d).f = 15)
    (hrange : t.inRange (t.tile d).base.toNat 4096 = true) :
    exec (.mload acc d) s = .next (queued s g tid (.mload acc.toNat (t.tile d))) := by
  show finish (mloadStep s acc d) = _
  simp only [mloadStep, issuer_bind hi, issuerTeam_bind ht, tilesIdle_bind hseq, need_bind (decide_eq_true hfmt),
    transferRange_bind (p := 128) hrange, seqIssue_ok hseq, finish]

theorem exec_mstore {acc : BitVec 6} {d : BitVec 4} {row : Nat} (hseq : SeqFree s g tid [acc.toNat])
    (hrow : transferRow (t.tile d).f = some row) (hrange : t.inRange (t.tile d).base.toNat (32 * row) = true)
    (herr : (t.acct acc.toNat).err = false) :
    exec (.mstore d acc) s = .next (queued s g tid (.mstore acc.toNat (t.tile d) g.frm)) := by
  show finish (mstoreStep s d acc) = _
  simp only [mstoreStep, issuer_bind hi, issuerTeam_bind ht, tilesIdle_bind hseq, hrow, transferRange_bind hrange, errCheck_bind herr,
    seqIssue_ok hseq, finish]

/-! ### MPROJ.C, MPROJ.S, DRAW -/

theorem mprojStep_ok {acc : BitVec 6} {tA tB menu : BitVec 4} (hf : feature s g 2 = true) (hseq : SeqFree s g tid [acc.toNat])
    (hcompat : compatible (t.tile tA).f (t.tile tB).f = true) (hfloat : isFloatFmt (t.tile tA).f = true) (hrows : (t.tile tA).rows ≠ 0)
    (hlines : LinesIn t (t.tile tA) (t.tile tB) (2 ^ menu.toNat)) (sKind : Bool) :
    mprojStep s sKind acc tA tB menu =
      .ok (queued s g tid (.mproj sKind acc.toNat (t.tile tA) (t.tile tB) (2 ^ menu.toNat) g.dcfg)) := by
  have hneed : (compatible (t.tile tA).f (t.tile tB).f && isFloatFmt (t.tile tA).f && (t.tile tA).rows != 0) = true := by
    rw [hcompat, hfloat, bne_iff_ne.2 hrows]; rfl
  simp only [mprojStep, issuer_bind hi, need_bind hf, issuerTeam_bind ht, tilesIdle_bind hseq, need_bind hneed, loopLines_bind hlines,
    seqIssue_ok hseq]

theorem exec_draw {d e : BitVec 5} {acc : BitVec 6} {h : Stream} {span : Nat} (hf : feature s g 2 = true)
    (hfree : UniFree s g [e.toNat] [d.toNat]) (hspan : span = slice (g.rdW e.toNat) 24 4 + 1)
    (hseq : SeqFree s g tid ((List.range span).map (acc.toNat + ·))) (hzero : slice (g.rdW e.toNat) 28 4 = 0)
    (hcount : acc.toNat + span ≤ t.accCount) (hstream : spanHeader t ((List.range span).map (acc.toNat + ·)) = some h)
    (hkind : h.sKind = true ∨ span = 1) (halign : slice (g.rdW e.toNat) 0 24 % 256 = 0)
    (hrange : t.inRange (slice (g.rdW e.toNat) 0 24) 256 = true) (herr : ∀ n, n < span → (t.acct (acc.toNat + n)).err = false) :
    exec (.draw d acc e) s = .next (queued s g tid
      (.draw d acc.toNat span (slice (g.rdW e.toNat) 0 24) ((g.rdW e.toNat).extractLsb' 32 32) g.drawKey)) := by
  subst hspan
  have hfit : (decide (slice (g.rdW e.toNat) 28 4 = 0) && decide (acc.toNat + (slice (g.rdW e.toNat) 24 4 + 1) ≤ t.accCount)) = true := by
    rw [hzero, decide_eq_true hcount]; rfl
  have hone : (h.sKind || decide (slice (g.rdW e.toNat) 24 4 + 1 = 1)) = true := by
    rw [Bool.or_eq_true, decide_eq_true_eq]; exact hkind
  show finish (drawStep s d acc e) = _
  simp only [drawStep, issuer_bind hi, need_bind hf, issuerTeam_bind ht, useW_bind hfree, tilesIdle_bind hseq, need_bind hfit, hstream,
    need_bind hone, halign, hrange, find?_err_eq_none herr, seqIssue_ok hseq, ne_eq, not_true_eq_false, Bool.not_true, Bool.false_eq_true,
    if_false, finish]

end

end Sys2Proof.Machine

namespace Sys2Proof
open Sys2Proof.Machine Sys2Proof.Claim

/-- Settles O8: an operation whose checks pass is at the end of the sequencer's queue, with what it copied. -/
theorem matrixIssueCompletes : Obligations.MatrixIssueCompletes := by
  unfold Obligations.MatrixIssueCompletes
  refine ⟨?mloop, ?mzero, ?mload, ?mstore, ?mproj, ?draw⟩
  case mloop => intro m z cnt tB tA acc s g tid t hi ht; exact exec_mloop hi ht
  case mzero => intro acc s g tid t hi ht; exact exec_mzero hi ht
  case mload => intro acc d s g tid t hi ht; exact exec_mload hi ht
  case mstore => intro acc d row s g tid t hi ht; exact exec_mstore hi ht
  case mproj =>
    intro acc tA tB menu s g tid t hi ht hf hseq hcompat hfloat hrows hlines
    have hstep := mprojStep_ok hi ht hf hseq hcompat hfloat hrows hlines
    exact ⟨congrArg finish (hstep false), congrArg finish (hstep true)⟩
  case draw => intro d acc e h span s g tid t hi ht; exact exec_draw hi ht

end Sys2Proof
end

section
/-! PROOFS. Tile descriptors, the rows of accumulator tiles and the draw configuration (R214, R225, R226, R257 to R259, R266, R267). -/

namespace Sys2Proof.Machine
open Sys2Proof.Claim

/-! ### The row of an accumulator tile -/

theorem word_setWord (a : AccTile) {i i' j j' : Nat} (hj : j < 32) (hj' : j' < 32) (w : Word) :
    (a.setWord i' j' w).word i j = if i = i' ∧ j = j' then w else a.word i j := by
  rw [AccTile.word, AccTile.setWord, mgetD_mputD]
  exact if_congr (by omega) rfl rfl

/-- The words of a row that some lanes write, each at its own column (R225). -/
theorem word_foldl_setWord (val : Fin 32 → Word) {row i j : Nat} (hj : j < 32) (lanes : List (Fin 32)) : ∀ a : AccTile,
    (lanes.foldl (fun a l => a.setWord row l.val (val l)) a).word i j =
      if i = row ∧ ⟨j, hj⟩ ∈ lanes then val ⟨j, hj⟩ else a.word i j := by
  induction lanes with
  | nil => simp
  | cons l ls ih =>
    intro a
    rw [List.foldl_cons, ih, word_setWord a hj l.isLt]
    by_cases hl : (⟨j, hj⟩ : Fin 32) = l
    · subst hl; by_cases hrow : i = row <;> simp [hrow]
    · have hcol : j ≠ l.val := fun h => hl (Fin.ext h)
      simp [hl, hcol]

/-- MWRITE's row touches the record of the tile's error alone (R217). -/
theorem rowWritten_eq (a : AccTile) (row : Nat) (m : BitVec 32) :
    ∃ err off rows, a.rowWritten row m = { a with err := err, errOff := off, rowsDone := rows } := by
  unfold AccTile.rowWritten
  dsimp only
  split
  · split
    · exact ⟨_, _, _, rfl⟩
    · exact ⟨_, _, _, rfl⟩
  · exact ⟨_, _, _, rfl⟩

@[simp] theorem word_rowWritten (a : AccTile) (row : Nat) (m : BitVec 32) (i j : Nat) : (a.rowWritten row m).word i j = a.word i j := by
  obtain ⟨err, off, rows, h⟩ := rowWritten_eq a row m
  rw [h]; rfl

@[simp] theorem stream_rowWritten (a : AccTile) (row : Nat) (m : BitVec 32) : (a.rowWritten row m).stream = a.stream := by
  obtain ⟨err, off, rows, h⟩ := rowWritten_eq a row m
  rw [h]

/-! ### A uniform register among the fields that a vector instruction reads -/

theorem isUni_uniField (e : BitVec 5) : isUni (uniField e) = true := by revert e; decide

theorem vname_uni {g : Group} {f : BitVec 7} (h : isUni f = true) : g.vname f = none := if_pos h

/-- A uniform register is never a row that was not written (R46, R67). -/
theorem rdLane_uni (g : Group) (l : Fin 32) {f : BitVec 7} (h : isUni f = true) : (g.rdLane l f).2 = false := by
  rw [Group.rdLane, vname_uni h]

theorem anyUndef_uni (s : State) (g : Group) {f : BitVec 7} (h : isUni f = true) (mark : Bool) : anyUndef s g [(f, mark)] = false := by
  simp [anyUndef, rdLane_uni g _ h]

/-! ### Reading without a mark -/

section
variable {s : State} {g : Group}

@[simp] theorem update_nil (t : Thread) : t.update [] [] = t := rfl

theorem onLanes_same (g : Group) (m : BitVec 32) : (g.onLanes m fun _ t => t).threads = g.threads :=
  Vector.ext fun i hi => by simp [Group.onLanes]

/-- A commit that neither frees nor writes a row leaves the threads. -/
theorem readOnly_threads {reads : List (BitVec 7 × Bool)} (h : g.freesOf reads = []) : (readOnly s g reads).threads = g.threads := by
  obtain ⟨lr, sp, wf, br, hcommit⟩ := vecCommit_eq g s.tick (cohort s) reads [] fun _ => { vals := [], flags := 0 }
  simp only [readOnly, hcommit, h, List.filterMap_nil, List.zip_nil_left, update_nil, onLanes_same]

theorem readOnly_w (reads : List (BitVec 7 × Bool)) : (readOnly s g reads).w = g.w := by
  obtain ⟨lr, sp, wf, br, hcommit⟩ := vecCommit_eq g s.tick (cohort s) reads [] fun _ => { vals := [], flags := 0 }
  rw [readOnly, hcommit]

theorem vecOn_readOnly {reads : List (BitVec 7 × Bool)} (hf : VecFree s g (cohort s) (reads.map (·.1)) []) :
    vecOn s g (cohort s) reads [] (fun _ _ => { vals := [], flags := 0 }) = .ok (readOnly s g reads) :=
  vecOn_of_noFlags hf (vecRoom_nil _ _) fun _ _ => rfl

/-! ### What MWRITE and DELIVER leave -/

/-- The tile that MWRITE leaves: the lanes of the issue write their words of the row, and the stream record is no more (R225, R261). -/
def mwritten (s : State) (g : Group) (a : AccTile) (row : Nat) (d : BitVec 7) : AccTile :=
  let b := (cohort s).foldl (fun a l => a.setWord row l.val (g.rdLane l d).1) a
  { b with stream := none }.rowWritten row s.cur.mask

theorem stream_mwritten (s : State) (g : Group) (a : AccTile) (row : Nat) (d : BitVec 7) : (mwritten s g a row d).stream = none :=
  stream_rowWritten _ _ _

theorem word_mwritten {a : AccTile} {row i j : Nat} {d : BitVec 7} (hj : j < 32) : (mwritten s g a row d).word i j =
    if h : i = row ∧ j < 32 ∧ s.cur.mask.getLsbD j then (g.rdLane ⟨j, h.2.1⟩ d).1 else a.word i j := by
  have hword := word_foldl_setWord (fun l => (g.rdLane l d).1) (row := row) (i := i) hj (cohort s) a
  simp only [mem_cohort] at hword
  rw [mwritten, word_rowWritten]
  refine Eq.trans hword ?_
  by_cases h : i = row ∧ s.cur.mask.getLsbD j = true
  · rw [if_pos h, dif_pos ⟨h.1, hj, h.2⟩]
  · rw [if_neg h, dif_neg fun ⟨hrow, _, hmask⟩ => h ⟨hrow, hmask⟩]

/-- A commit register after a DELIVER: a HELD token that the mask names is PENDING, with the table and the group (R267). -/
def deliveredReg (g : Group) (mask table : DWord) (i : Fin 32) : Commit → Commit
  | .held tok => if mask.getLsbD i.val then .pending tok table (handleOf g) none none else .held tok
  | c => c

def deliveredRegs (g : Group) (t : Team) (mask table : DWord) : Vector Commit 32 :=
  Vector.ofFn fun i => deliveredReg g mask table i t.cr[i]

theorem get_deliveredRegs (g : Group) (t : Team) (mask table : DWord) (i : Fin 32) :
    (deliveredRegs g t mask table)[i] = deliveredReg g mask table i t.cr[i] := by
  rw [deliveredRegs, Fin.getElem_fin, Vector.getElem_ofFn]

/-! ### The group's operations in the sequencer -/

/-- No operation of the group in the sequencer is of a kind. -/
theorem seqHas_eq_false {p : SeqKind → Bool} (h : ∀ o ∈ (coreOf s g.core).seq, o.group = s.cur.group → p o.kind = false) :
    seqHas s s.cur.group g.core p = false := by
  refine List.any_eq_false.2 fun o ho hown => ?_
  rw [Bool.and_eq_true, decide_eq_true_eq] at hown
  obtain ⟨hgroup, hkind⟩ := hown
  rw [h o ho hgroup] at hkind
  exact Bool.false_ne_true hkind

variable {tid : Nat} {t : Team} (hi : Issues s g) (ht : TeamOf s g tid t)
include hi ht

/-! ### TSET, TGET, TCLR -/

theorem exec_tset {n fld : BitVec 4} {r : BitVec 5} (hfree : UniFree s g [r.toNat] [])
    (hok : fieldOk (feature s g 1) fld (g.rdW r.toNat) = true) :
    exec (.tset n fld r) s = .next (done (setTeam s tid (t.setTile n ((t.tile n).setField fld (g.rdW r.toNat)))) g) := by
  show finish (tsetStep s n fld r) = _
  simp only [tsetStep, issuer_bind hi, issuerTeam_bind ht, useW_bind hfree, need_bind hok, finish]

theorem exec_tget {d : BitVec 5} {n fld : BitVec 4} (hfree : UniFree s g [] [d.toNat]) :
    exec (.tget d n fld) s = .next (done s (g.wrW d.toNat ((t.tile n).field fld))) := by
  show finish (tgetStep s d n fld) = _
  simp only [tgetStep, issuer_bind hi, issuerTeam_bind ht, useW_bind hfree, finish]

theorem exec_tclr (n : BitVec 4) : exec (.tclr n) s = .next (done (setTeam s tid (t.setTile n Desc.zero)) g) := by
  show finish (tclrStep s n) = _
  simp only [tclrStep, issuer_bind hi, issuerTeam_bind ht, finish]

/-! ### MREAD, MWRITE, MWAIT -/

theorem exec_mread {d : BitVec 7} {acc : BitVec 6} {e : BitVec 5} (hd : isUni d = false) (hidle : tileNamed s g.core tid acc.toNat = false)
    (hf : VecFree s g (cohort s) [uniField e] [d]) (hr : VecRoom g (cohort s) [] [rotName g.rwin d.toNat])
    (herr : (t.acct acc.toNat).err = false) :
    ∃ s', exec (.mread d acc e) s = .next s' ∧ VecDone s s' g [] (rotName g.rwin d.toNat)
      (fun l => (t.acct acc.toNat).word (slice (g.rdW e.toNat) 0 5) l.val) 0 false := by
  have hcommit := vecOn_of_noFlags (reads := [(uniField e, false)]) (dests := [d])
    (f := fun l _ => .val ((t.acct acc.toNat).word (slice (g.rdW e.toNat) 0 5) l.val)) hf (by rw [vnames_one hd]; exact hr) fun _ _ => rfl
  have hdone := vecDone_of_noFlags (s := s) (g := g) (reads := [(uniField e, false)]) hd
    (val := fun l => (t.acct acc.toNat).word (slice (g.rdW e.toNat) 0 5) l.val) fun _ => rfl
  rw [anyUndef_uni s g (isUni_uniField e)] at hdone
  refine ⟨_, ?_, hdone⟩
  show finish (mreadStep s d acc e) = _
  simp only [mreadStep, issuer_bind hi, issuerTeam_bind ht, stallIf_bind hidle, operandsReady_ok hf, ok_bind, errCheck_bind herr, hcommit,
    finish]

theorem exec_mwrite {acc : BitVec 6} {e : BitVec 5} {d : BitVec 7} (hidle : tileNamed s g.core tid acc.toNat = false)
    (hf : VecFree s g (cohort s) [uniField e, d] []) : exec (.mwrite acc e d) s =
      .next (done (setTeam s tid (t.setAcct acc.toNat (mwritten s g (t.acct acc.toNat) (slice (g.rdW e.toNat) 0 5) d)))
        (readOnly s g [(uniField e, false), (d, false)])) := by
  show finish (mwriteStep s acc e d) = _
  simp only [mwriteStep, issuer_bind hi, issuerTeam_bind ht, stallIf_bind hidle,
    vecOn_readOnly (reads := [(uniField e, false), (d, false)]) hf, ok_bind, finish]
  rfl

theorem exec_mwait {all : Bool} {acc : BitVec 6}
    (hseq : ∀ o ∈ (coreOf s g.core).seq, o.group = s.cur.group → all = false ∧ acc.toNat ∉ o.kind.names) :
    exec (.mwait all acc) s = .next (done s g) := by
  have hnone : seqHas s s.cur.group g.core (fun k => all || k.names.contains acc.toNat) = false :=
    seqHas_eq_false fun o ho hgroup => by
      obtain ⟨hall, hname⟩ := hseq o ho hgroup
      rw [hall, Bool.false_or, Bool.eq_false_iff, ne_eq, List.contains_iff_mem]
      exact hname
  show finish (mwaitStep s all acc) = _
  simp only [mwaitStep, issuer_bind hi, issuerTeam_bind ht, hnone, Bool.false_eq_true, if_false, finish]

/-! ### DRAWCFG, DRAWSEED, DELIVER -/

section
variable (hfeat : feature s g 2 = true)
include hfeat

theorem exec_drawcfg {r : BitVec 5} (hfree : UniFree s g [r.toNat] []) (hok : dcfgOk (g.rdW r.toNat) = true) :
    exec (.drawcfg r) s = .next (done s { g with dcfg := g.rdW r.toNat }) := by
  show finish (drawcfgStep s r) = _
  simp only [drawcfgStep, issuer_bind hi, need_bind hfeat, issuerTeam_bind ht, useW_bind hfree, need_bind hok, finish]

theorem exec_drawseed {r : BitVec 5} (hfree : UniFree s g [r.toNat] [])
    (hseq : ∀ o ∈ (coreOf s g.core).seq, o.group = s.cur.group → o.kind.isDraw = false) :
    exec (.drawseed r) s = .next (done s { g with drawKey := g.rdW r.toNat, drawCtr := 0 }) := by
  show finish (drawseedStep s r) = _
  simp only [drawseedStep, issuer_bind hi, need_bind hfeat, issuerTeam_bind ht, seqHas_eq_false hseq, Bool.false_eq_true, if_false,
    useW_bind hfree, finish]

theorem exec_deliver {m tr : BitVec 5} (hfree : UniFree s g [m.toNat, tr.toNat] []) (halign : (g.rdW tr.toNat).toNat % 256 = 0) :
    exec (.deliver m tr) s = .next (done (setTeam s tid
      { t with cr := deliveredRegs g t (g.rdW m.toNat) (g.rdW tr.toNat), dtable := g.rdW tr.toNat, dtableBy := handleOf g }) g) := by
  show finish (deliverStep s m tr) = _
  simp only [deliverStep, issuer_bind hi, need_bind hfeat, issuerTeam_bind ht, useW_bind hfree, halign, ne_eq, not_true_eq_false, if_false]
  rfl

end

end

end Sys2Proof.Machine

namespace Sys2Proof
open Sys2Proof.Machine Sys2Proof.Claim

/-- Settles O9: each instruction leaves the descriptor, the row or the state of draws that it writes, once its checks pass. -/
theorem tileAndDrawStateComplete : Obligations.TileAndDrawStateComplete := by
  unfold Obligations.TileAndDrawStateComplete
  intro s g tid t hi ht
  refine ⟨fun n fld r => exec_tset hi ht, fun d n fld hfree => ?tget, exec_tclr hi ht, fun d acc e => exec_mread hi ht,
    fun acc e d hidle hf => ?mwrite, fun all acc => exec_mwait hi ht,
    fun hfeat => ⟨fun r => exec_drawcfg hi ht hfeat, fun r => exec_drawseed hi ht hfeat, fun m tr hfree halign => ?deliver⟩⟩
  case tget => exact ⟨_, exec_tget hi ht hfree, uniDone_of_wrW _ _ _ _ d.isLt⟩
  case mwrite =>
    exact ⟨_, _, exec_mwrite hi ht hidle hf, stream_mwritten .., fun i j _ hj => word_mwritten hj, readOnly_threads rfl, readOnly_w _⟩
  case deliver => exact ⟨_, exec_deliver hi ht hfeat hfree halign, rfl, fun i => get_deliveredRegs g t _ _ i⟩

end Sys2Proof
end

section
/-! PROOFS. The commands on a context and on its pages, and the start of a switch (R270 to R275, R278, R284, R396 to R403, R411, R417, R419,
R424 to R427). -/

namespace Sys2Proof.Machine
open Sys2Proof.Claim

/-! ### A command that names no context yet -/

/-- A command that comes on an association of the module, or from the firmware on its own context, is carried out (R423). -/
theorem associated_of_arrives {s : State} {h : Hdr} (ha : Arrives s h) (op : Nat) (f : Reply) :
    associated s h op f = .next (sent h op f) := by
  obtain ⟨harr, hassoc⟩ := ha
  have hknown : (!fromFirmware s h && !s.fw.assocs.contains h.assoc) = false := by
    obtain hfw | hin := hassoc
    · rw [hfw]; rfl
    · rw [hin]; exact Bool.and_false _
  simp only [associated, arrives_of_arrives_zero harr op, hknown]
  rfl

/-! ### OPEN -/

/-- Quotas are as R273 and R274 have them. -/
theorem quotasOk_iff {s : State} {ctx slotQ ctlQ savesz : Nat} {mask : BitVec 576} :
    quotasOk s ctx mask slotQ ctlQ savesz = true ↔ QuotasFit s ctx mask slotQ ctlQ savesz := by
  simp only [quotasOk, QuotasFit, Bool.and_eq_true, decide_eq_true_eq, and_assoc]

theorem openOk_eq_true {s : State} {ctx : Nat} {b : OpenBody} (hok : OpenOk s ctx b) : openOk s ctx b = true := by
  obtain ⟨-, -, hslot, hjob, hquota, hareas, hwin, hlo, hhi⟩ := hok
  have hslot' : (b.keyslot == 0 && decide (ctx ≠ 0)) = false := by
    obtain h | h := hslot
    · rw [beq_false_of_ne h, Bool.false_and]
    · rw [decide_eq_false (not_not.2 h), Bool.and_false]
  have hjob' : (s.contexts.any fun p => p.2.job == b.job) = false :=
    List.any_eq_false.2 fun p hp heq => hjob p hp (eq_of_beq heq)
  simp only [openOk, hareas, hslot', hjob', quotasOk_iff.2 hquota, hwin, hlo, hhi, and_self, decide_true, Bool.not_false, Bool.and_self]

/-- OPEN of a free id with a legal body. -/
theorem openFor_of_ok {s : State} {h : Hdr} {b : OpenBody} (hfree : mget s.contexts h.ctx.toNat = none) (hok : OpenOk s h.ctx.toNat b) :
    openFor s h b = ok (setContext (if b.keyop = 1 then programKey s b.keyslot.toNat else s) h.ctx.toNat (openedContext s h b))
      [Config.featOffer0.zeroExtend 64, 0, Config.memKey s.tick] := by
  have hbody : ¬ (1 < b.keyop.toNat ∨ (b.keyop = 0 ∧ b.wkey ≠ 0)) := by
    obtain ⟨hop, hkey, -⟩ := hok
    rintro (hbig | ⟨hzero, hne⟩)
    · omega
    · exact hne (hkey hzero)
  simp only [openFor, hfree, Option.isSome_none, Bool.false_eq_true, if_false, if_neg hbody, openOk_eq_true hok, Bool.not_true]
  rfl

theorem openFor_of_taken {s : State} {h : Hdr} {b : OpenBody} (htaken : (mget s.contexts h.ctx.toNat).isSome = true) :
    openFor s h b = refuse s 2 := by
  simp only [openFor, htaken, if_true]

theorem exec_openCtx {s : State} {h : Hdr} (ha : Arrives s h) (b : OpenBody) :
    exec (.openCtx h b) s = .next (sent h 0x01 (openFor s h b)) := associated_of_arrives ha _ _

/-! ### FEATANS, SETQUOTA, CLOSE -/

section
variable {s : State} {h : Hdr} {c : Context}

theorem featOk_iff {f0 f1 f2 f3 : Word} :
    featOk f0 f1 f2 f3 = true ↔ f0.getLsbD 0 = true ∧ f0 &&& ~~~Config.featOffer0 = 0 ∧ f1 = 0 ∧ f2 = 0 ∧ f3 = 0 := by
  simp only [featOk, Bool.and_eq_true, beq_iff_eq, and_assoc]

theorem exec_featans (ht : Takes s h c (fun st => decide (st = .opening))) (f0 f1 f2 f3 : Word) :
    exec (.featans h f0 f1 f2 f3) s = .next (sent h 0x02 (if featOk f0 f1 f2 f3
      then ok (setContext s h.ctx.toNat { c with st := .opened, feat := #v[f0, f1, f2, f3] }) []
      else refuse { s with contexts := mdel s.contexts h.ctx.toNat } 3)) := command_of_takes ht _ _

/-- What SETQUOTA checks before it sets a context's figures (R273, R274, R281, R408). -/
def quotaTaken (s : State) (ctx : Nat) (c : Context) (b : QuotaBody) : Bool :=
  quotasOk s ctx b.mask b.slotQuota b.ctlQuota b.savesz.toNat &&
    areasOk s ctx b.save.toNat b.savesz.toNat c.ptroot c.faultq c.rpt c.rptn &&
    !(saveUsed s ctx c && decide (b.save.toNat ≠ c.save ∨ b.savesz.toNat ≠ c.savesz))

theorem quotaTaken_iff {ctx : Nat} {b : QuotaBody} : quotaTaken s ctx c b = true ↔
    QuotasFit s ctx b.mask b.slotQuota b.ctlQuota b.savesz.toNat ∧ AreaApart s ctx c b ∧ ¬ MovesSave s ctx c b := by
  simp only [quotaTaken, AreaApart, MovesSave, Bool.and_eq_true, Bool.not_eq_true', quotasOk_iff, and_assoc, ← Bool.not_eq_true,
    decide_eq_true_eq]

theorem exec_setquota (ht : Takes s h c isOpen) (b : QuotaBody) :
    exec (.setquota h b) s = .next (sent h 0x03 (if quotaTaken s h.ctx.toNat c b
      then ok (setContext s h.ctx.toNat (withQuota c b)) [] else refuse s 3)) := command_of_takes ht _ _

theorem exec_close (ht : Takes s h c (fun st => decide (st ≠ .closing))) :
    exec (.close h) s = .next (sent h 0x04 (ok (if c.switch = .none
      then closeSteps (setContext s h.ctx.toNat { c with st := .closing }) h.ctx.toNat
      else setContext s h.ctx.toNat { c with st := .closing }) [])) := command_of_takes ht _ _

/-! ### SWOUT and SWIN -/

theorem switchCommand_of_takes (ht : Takes s h c isOpen) (hctx : h.ctx ≠ 0) (op : Nat) (f : State → Nat → State × Nat) :
    switchCommand s h op f = .next (sent h op (ok (f s h.ctx.toNat).1 [u64 (f s h.ctx.toNat).2])) := by
  rw [switchCommand, if_neg hctx, command_of_takes ht]

/-! ### MAPPG -/

theorem exec_mappg_waits (ht : Takes s h c isOpen) {va entry : BitVec 64} {level : Nat} {zero : Bool}
    (hwaits : mapWaits s h.ctx.toNat va level = true) :
    exec (.mappg h va entry level zero) s = .next { s with pendingCmds := s.pendingCmds ++ [.mappg h va entry level zero] } := by
  obtain ⟨⟨harr, -⟩, -⟩ := ht
  change execMappg h va entry level zero s = _
  rw [execMappg, arrives_of_arrives_zero harr, hwaits, Bool.and_self, if_pos rfl]

theorem exec_mappg_goes (ht : Takes s h c isOpen) {va entry : BitVec 64} {level : Nat} {zero : Bool}
    (hgoes : mapWaits s h.ctx.toNat va level = false) :
    exec (.mappg h va entry level zero) s = .next (sent h 0x08 (mapPage s h.ctx.toNat c va entry level zero)) := by
  change execMappg h va entry level zero s = _
  rw [execMappg, hgoes, Bool.and_false, if_neg Bool.false_ne_true, command_of_takes ht]

theorem mapPage_of_badLevel {ctx level : Nat} {va entry : DWord} {zero : Bool} (hlevel : 5 < level) :
    mapPage s ctx c va entry level zero = refuse s 4 := if_pos hlevel

theorem mapPage_of_badAddress {ctx level : Nat} {va entry : DWord} {zero : Bool} (hlevel : level ≤ 5) (hva : 2 ^ 57 ≤ va.toNat) :
    mapPage s ctx c va entry level zero = refuse s 3 := by
  rw [mapPage, if_neg (by omega), if_pos (.inl hva)]

section
variable {ctx level : Nat} {va entry : DWord} {zero : Bool} (hlevel : level ≤ 5) (hva : va.toNat < 2 ^ 57)
  (hroot : inMemory c.ptroot = true ∧ c.ptroot % 4096 = 0)
include hlevel hva hroot

theorem mapPage_of_noTable (htable : tableAt (rdEntry s (dieAgent 0) s.fresh) va.toNat level 5 c.ptroot = none) :
    mapPage s ctx c va entry level zero = refuse s 3 := by
  rw [mapPage, if_neg (Nat.not_lt.2 hlevel), if_neg (not_or.2 ⟨Nat.not_le.2 hva, not_not.2 hroot⟩)]
  simp only [htable]

theorem mapPage_of_table {base : Nat} (htable : tableAt (rdEntry s (dieAgent 0) s.fresh) va.toNat level 5 c.ptroot = some base) :
    mapPage s ctx c va entry level zero =
      let rd := rdEntry s (dieAgent 0) s.fresh
      let pa := base + 8 * vaIndex va.toNat level
      if mapRefused s ctx rd (rd pa) (entryWritten entry) level zero then refuse s 3
      else ok (invalidate (writeEntry s (keySerial s c.keyslot) pa level (entryWritten entry) zero)
        { moment := 0, ctx := some ctx, va := if isPointer (rd pa) level then none else some va.toNat }) [] := by
  rw [mapPage, if_neg (Nat.not_lt.2 hlevel), if_neg (not_or.2 ⟨Nat.not_le.2 hva, not_not.2 hroot⟩)]
  simp only [htable]

end

/-! ### RMTSET -/

/-- RMTSET of an entry whose place is in memory of the module. -/
theorem exec_rmtset (ht : Takes s h c isOpen) {index : BitVec 32} {entry : BitVec 512}
    (hmem : inMemory (c.rpt + 64 * index.toNat) = true) :
    exec (.rmtset h index entry) s = .next (sent h 0x09 (if c.rptn ≤ index.toNat then refuse s 3
      else ok (devWrite s (keySerial s c.keyslot) (c.rpt + 64 * index.toNat) (leList (rptWritten entry).toNat 64)) [])) := by
  change execRmtset h index entry s = _
  simp only [execRmtset, command_of_takes ht, hmem, Bool.true_eq_false, or_false]

end

/-! ### The start of a switch (R284) -/

section
variable {s : State} {ctx : Nat} {c : Context}

theorem startOut_of_closed (hc : mget s.contexts ctx = none) : startOut s ctx = (s, 2) := by simp only [startOut, hc]
theorem startIn_of_closed (hc : mget s.contexts ctx = none) : startIn s ctx = (s, 2) := by simp only [startIn, hc]

variable (hc : mget s.contexts ctx = some c)
include hc

theorem startOut_of_switching (hw : c.switch ≠ .none) : startOut s ctx = (s, 1) := by simp only [startOut, hc, if_pos hw]
theorem startIn_of_switching (hw : c.switch ≠ .none) : startIn s ctx = (s, 1) := by simp only [startIn, hc, if_pos hw]

theorem startOut_of_none (hw : c.switch = .none) : startOut s ctx =
    if c.st ≠ .opened ∧ c.st ≠ .running then (s, 2) else (setContext s ctx { c with switch := .out 1 }, 0) := by
  simp only [startOut, hc, if_neg (not_not.2 hw)]

theorem startIn_of_none (hw : c.switch = .none) : startIn s ctx =
    if c.st ≠ .switchedOut then (s, 2)
    else (setContext s ctx (if c.saved = [] then { c with st := .opened } else { c with switch := .restoring }), 0) := by
  simp only [startIn, hc, if_neg (not_not.2 hw)]
  cases c.saved <;> rfl

end

end Sys2Proof.Machine

namespace Sys2Proof
open Sys2Proof.Machine Sys2Proof.Claim

/-! ### The obligation -/

theorem contextCommandsComplete : ContextCommandsComplete := by
  refine ⟨fun h b s ha hfree hok => ?openFree, fun h b s ha htaken => ?openTaken, fun h f0 f1 f2 f3 c s ht => ?featans,
    fun h b c s ht => ⟨fun hquota harea hsave => ?quotaSet, fun hbad => ?quotaRefused⟩, fun h c s ht => exec_close ht,
    fun h c s ht hctx => ⟨switchCommand_of_takes ht hctx _ _, switchCommand_of_takes ht hctx _ _⟩⟩
  case openFree => rw [exec_openCtx ha, openFor_of_ok hfree hok, sent_ok]
  case openTaken => rw [exec_openCtx ha, openFor_of_taken htaken, sent_refuse]
  case featans => simp only [exec_featans ht, featOk_iff, sent_ite, sent_ok, sent_refuse]
  case quotaSet => rw [exec_setquota ht, if_pos (quotaTaken_iff.2 ⟨hquota, harea, hsave⟩), sent_ok]
  case quotaRefused =>
    have hnot : ¬ quotaTaken s h.ctx.toNat c b = true := fun htaken => by
      obtain ⟨hquota, harea, hsave⟩ := quotaTaken_iff.1 htaken
      exact hbad.elim (· hquota) fun hbad => hbad.elim (· harea) hsave
    rw [exec_setquota ht, if_neg hnot, sent_refuse]

theorem switchesStart : SwitchesStart := by
  intro s ctx
  refine ⟨fun hc => ⟨startOut_of_closed hc, startIn_of_closed hc⟩, fun c hc =>
    ⟨fun hw => ⟨startOut_of_switching hc hw, startIn_of_switching hc hw⟩, fun hw => ⟨?out, ?outRefused, ?in', ?inRefused⟩⟩⟩
  case out =>
    intro hst
    rw [startOut_of_none hc hw, if_neg fun hno => hst.elim hno.1 hno.2]
  case outRefused =>
    intro hopened hrunning
    rw [startOut_of_none hc hw, if_pos ⟨hopened, hrunning⟩]
  case in' =>
    intro hst
    rw [startIn_of_none hc hw, if_neg (not_not.2 hst)]
  case inRefused =>
    intro hst
    rw [startIn_of_none hc hw, if_pos hst]

theorem pageCommandsComplete : PageCommandsComplete := by
  intro h c s ht
  refine ⟨fun va entry level zero => ⟨exec_mappg_waits ht, fun hgoes => ?goes⟩, fun index entry hmem => ?rmtset⟩
  case goes =>
    rw [exec_mappg_goes ht hgoes]
    refine ⟨fun hlevel => ?level, fun hlevel hva => ?address, fun hlevel hva hmem hroot => ?legal⟩
    case level => rw [mapPage_of_badLevel hlevel, sent_refuse]
    case address => rw [mapPage_of_badAddress hlevel hva, sent_refuse]
    case legal =>
      refine ⟨fun htable => ?noTable, fun base htable => ?table⟩
      case noTable => rw [mapPage_of_noTable hlevel hva ⟨hmem, hroot⟩ htable, sent_refuse]
      case table => rw [mapPage_of_table hlevel hva ⟨hmem, hroot⟩ htable]; simp only [sent_ite, sent_ok, sent_refuse]
  case rmtset => rw [exec_rmtset ht hmem, sent_ite, sent_ok, sent_refuse]

/-- Settles O33: each command is carried out for the context that takes it, with what its checks give. -/
theorem contextAndPageCommandsComplete : Obligations.ContextAndPageCommandsComplete :=
  ⟨contextCommandsComplete, switchesStart, pageCommandsComplete⟩

end Sys2Proof
end

section
/-! PROOFS. Reset, the steps of boot, the keystone and the TSS associations (R277, R428, R429, R451 to R453, R456). -/

namespace Sys2Proof.Machine
open Sys2Proof.Claim

/-! ### Clusters at the reset point -/

/-- A cluster that is set to the reset point has it as its latest target (R428, R429). -/
theorem Cluster.latest_toReset (c : Cluster) : c.toReset.mailbox.getD c.toReset.target = ⟨675, 850, 1⟩ := by
  unfold Cluster.toReset
  split
  · next h => rw [Option.isNone_iff_eq_none.1 h.1]; exact h.2
  · rfl

/-- A map whose values are changed holds at each key the changed value. -/
theorem mget_map {α β : Type} (f : α → β) (m : Map α) (k : Nat) : mget (m.map fun p => (p.1, f p.2)) k = (mget m k).map f := by
  induction m with
  | nil => rfl
  | cons p m ih =>
    show (if p.1 = k then some (f p.2) else mget (m.map fun p => (p.1, f p.2)) k) = (if p.1 = k then some p.2 else mget m k).map f
    rw [ih, apply_ite (Option.map f)]
    rfl

theorem mget_resetPoints {s : State} {n : Nat} {c : Cluster} (hc : mget s.clusters n = some c) :
    mget (resetPoints s).clusters n = some c.toReset := (mget_map _ _ _).trans (congrArg _ hc)

theorem allSettled_iff {s : State} : s.clusters.all (·.2.settled) = true ↔ AllSettled s := by
  simp only [List.all_eq_true, Cluster.settled, Bool.and_eq_true, Option.isNone_iff_eq_none, AllSettled]

/-! ### Links in training -/

theorem linkOf_setLink (s : State) (l k : Nat) (x : Link) : linkOf (setLink s l x) k = if l = k then x else linkOf s k :=
  mgetD_mputD _ _ _ _ _

/-- A link begins its training (R413, R456). -/
def train (s : State) (l : Nat) : State := setLink s l { linkOf s l with st := .training, attempts := 0 }

/-- Links that are enabled one after another all train, and so do those that did before. -/
theorem linkOf_foldl_train {k : Nat} (ls : List Nat) : ∀ s : State, k ∈ ls ∨ (linkOf s k).st = .training →
    (linkOf (ls.foldl train s) k).st = .training := by
  induction ls with
  | nil => exact fun s h => h.resolve_left List.not_mem_nil
  | cons l ls ih =>
    intro s h
    refine ih _ ?_
    rw [train, linkOf_setLink]
    split
    · exact .inr rfl
    · next hne => exact h.imp_left fun hk => (List.mem_cons.1 hk).resolve_left fun heq => hne heq.symm

/-- What enabling links leaves alone: the contexts and the firmware. -/
theorem foldl_train_frame (ls : List Nat) : ∀ s : State,
    (ls.foldl train s).contexts = s.contexts ∧ (ls.foldl train s).fw = s.fw := by
  induction ls with
  | nil => exact fun s => ⟨rfl, rfl⟩
  | cons l ls ih => exact fun s => ih _

/-- Step 6 opens context 0 and sets every link to train (R456). -/
theorem bootOpen_opens (s : State) : (mget (bootOpen s).contexts 0).map (·.st) = some .opened ∧
    (∀ l, l < 8 → (linkOf (bootOpen s) l).st = .training) ∧ (bootOpen s).fw = s.fw := by
  have hframe := foldl_train_frame (List.range 8) (setContext s 0 (contextZero s.fw.failed))
  refine ⟨?_, fun l hl => linkOf_foldl_train _ _ (.inl (List.mem_range.2 hl)), hframe.2⟩
  show (mget ((List.range 8).foldl train _).contexts 0).map (·.st) = _
  rw [hframe.1, setContext_contexts, mget_mput_self]
  rfl

/-! ### The steps of boot -/

section
variable {s : State} {ok : Bool}

theorem bootStep_of_stopped (h : s.fw.stopped = true) : bootStep s ok = s := if_pos h

variable (hrun : s.fw.stopped = false)
include hrun

/-- A check that fails stops the boot where it stands (R451, Table 25.2). -/
theorem bootStep_of_failed (hstep : s.fw.step = 0 ∨ s.fw.step = 2) :
    bootStep s false = { s with fw := { s.fw with stopped := true } } := by
  obtain h | h := hstep <;> simp only [bootStep, hrun, h, Bool.false_eq_true, if_false]

/-- Each step that may go on leaves the boot running, one step on (Table 25.2). -/
theorem bootStep_advances (hstep : s.fw.step < 6) (hok : s.fw.step = 0 ∨ s.fw.step = 2 → ok = true) (hsettled : s.fw.step = 4 → AllSettled s) :
    (bootStep s ok).fw.stopped = false ∧ (bootStep s ok).fw.step = s.fw.step + 1 := by
  obtain h | h | h | h | h | h : s.fw.step = 0 ∨ s.fw.step = 1 ∨ s.fw.step = 2 ∨ s.fw.step = 3 ∨ s.fw.step = 4 ∨ s.fw.step = 5 := by omega
  · obtain rfl := hok (.inl h)
    simp [bootStep, hrun, h, Firmware.at']
  · simp [bootStep, hrun, h, Firmware.at']
  · obtain rfl := hok (.inr h)
    simp [bootStep, hrun, h, Firmware.at']
  · simp [bootStep, hrun, h, Firmware.at', resetPoints]
  · simp [bootStep, hrun, h, Firmware.at', allSettled_iff.2 (hsettled h), programKey]
  · simp [bootStep, hrun, h, Firmware.at', (bootOpen_opens _).2.2]

theorem bootStep_four (hstep : s.fw.step = 3) : ∃ f, bootStep s ok = resetPoints { s with fw := f } := by
  simp only [bootStep, hrun, hstep, Bool.false_eq_true, if_false]
  exact ⟨_, rfl⟩

theorem bootStep_waits (hstep : s.fw.step = 4) (hnot : ¬ AllSettled s) : bootStep s ok = s := by
  simp only [bootStep, hrun, hstep, Bool.false_eq_true, if_false, if_neg (mt allSettled_iff.1 hnot)]

theorem bootStep_six (hstep : s.fw.step = 5) : ∃ f, bootStep s ok = bootOpen { s with fw := f } := by
  simp only [bootStep, hrun, hstep, Bool.false_eq_true, if_false]
  exact ⟨_, rfl⟩

end

/-! ### Associations -/

/-- A report whose key pair is free completes an association that is not there yet (R452, R453). -/
theorem exec_tssAssociation {s : State} {assoc report : Nat} (hup : anyLinkUp s = true) (hlive : report ∈ s.fw.liveReports)
    (hzero : assoc ≠ 0) (hnew : assoc ∉ s.fw.assocs) :
    exec (.tssAssociation assoc report) s = .next { s with fw := { s.fw with
      liveReports := s.fw.liveReports.filter (fun x => decide (x ≠ report)), assocs := s.fw.assocs ++ [assoc] } } := by
  have hfree : s.fw.assocs.contains assoc = false := by
    rw [Bool.eq_false_iff, ne_eq, List.contains_iff_mem]
    exact hnew
  change execTssAssociation assoc report s = _
  rw [execTssAssociation, hup, List.contains_iff_mem.2 hlive, decide_eq_true hzero, hfree]
  rfl

end Sys2Proof.Machine

namespace Sys2Proof
open Sys2Proof.Machine Sys2Proof.Claim

/-- Settles O27: the state after reset field by field, and the steps of boot one by one. -/
theorem firmwareEventsComplete : Obligations.FirmwareEventsComplete := by
  unfold Obligations.FirmwareEventsComplete
  intro s
  refine ⟨⟨moduleReset s, ?reset⟩, fun ok hstop => congrArg _ (bootStep_of_stopped hstop), fun ok hrun => ⟨bootStep s ok, rfl,
    fun hstep hok => ?failed, bootStep_advances hrun, fun hstep n c hc => ?point, fun hstep => bootStep_waits hrun hstep,
    fun hstep => ?opens⟩, rfl, fun assoc report => exec_tssAssociation⟩
  case reset => exact ⟨rfl, rfl, rfl, rfl, rfl, rfl, rfl, rfl, rfl, rfl, rfl, rfl, rfl, rfl, rfl, rfl, rfl, rfl, rfl, rfl, rfl⟩
  case failed =>
    rw [hok, bootStep_of_failed hrun hstep]
    exact ⟨rfl, rfl⟩
  case point =>
    obtain ⟨f, hf⟩ := bootStep_four (ok := ok) hrun hstep
    rw [hf]
    exact ⟨_, mget_resetPoints hc, c.latest_toReset⟩
  case opens =>
    obtain ⟨f, hf⟩ := bootStep_six (ok := ok) hrun hstep
    rw [hf]
    exact ⟨(bootOpen_opens _).1, (bootOpen_opens _).2.1⟩

end Sys2Proof
end

section
/-! PROOFS. The context switch, the end of a close and held fault records (R278 to R282, R401, R404): what each event leaves, and the saved team
by which the clause on CLOSE_DONE fails. -/

namespace Sys2Proof.Machine
open Sys2Proof.Claim

/-! ### The steps of a switch-out -/

section
variable {s : State} {ctx n : Nat} {c : Context}

/-- A step that is done gives way to the next, with what R279 has happen in between. -/
theorem exec_switchOutStep_of_done (hc : Switching s ctx c (.out n)) (hdone : outStepDone s ctx n = true) :
    exec (.switchOutStep ctx) s = .next (if n = 1 then setContext (wakeSeen s ctx) ctx { c with switch := .out 2 }
      else if n = 2 then killPending (setContext s ctx { c with switch := .out 3 }) ctx
      else setContext s ctx { c with switch := .out (n + 1) }) := by
  obtain ⟨hget, hswitch⟩ := hc
  change Host.Outcome.next (switchOutStep s ctx) = _
  simp only [switchOutStep, hget, hswitch, hdone, if_true]
  by_cases h1 : n = 1
  · subst h1; rfl
  · by_cases h2 : n = 2
    · subst h2; rfl
    · simp only [if_neg h1, if_neg h2]

theorem exec_switchOutStep_of_not_done (hc : Switching s ctx c (.out n)) (hdone : outStepDone s ctx n = false) :
    exec (.switchOutStep ctx) s = .next s := by
  obtain ⟨hget, hswitch⟩ := hc
  change Host.Outcome.next (switchOutStep s ctx) = _
  simp only [switchOutStep, hget, hswitch, hdone, Bool.false_eq_true, if_false]

end

/-! ### Teams leave for the save area -/

theorem mem_mdel {α : Type} {m : Map α} {k : Nat} {p : Nat × α} : p ∈ mdel m k ↔ p ∈ m ∧ p.1 ≠ k := by
  induction m with
  | nil => exact ⟨fun h => absurd h List.not_mem_nil, fun h => absurd h.1 List.not_mem_nil⟩
  | cons q m ih =>
    rw [mdel]
    split
    · next hq =>
      rw [ih, List.mem_cons]
      exact ⟨fun h => ⟨.inr h.1, h.2⟩, fun h => ⟨h.1.resolve_left fun heq => h.2 (heq ▸ hq), h.2⟩⟩
    · next hq =>
      rw [List.mem_cons, List.mem_cons, ih]
      constructor
      · rintro (rfl | ⟨hp, hne⟩)
        · exact ⟨.inl rfl, hq⟩
        · exact ⟨.inr hp, hne⟩
      · rintro ⟨rfl | hp, hne⟩
        · exact .inl rfl
        · exact .inr ⟨hp, hne⟩

/-- The stream contexts of a team are free again (R253). -/
def freeStreams (s : State) (subs : List Sub) : State :=
  subs.foldl (fun s u => { s with skidders := mputD s.skidders u.skid (mgetD s.skidders u.skid 0 - 1) 0 }) s

theorem freeStreams_eq (subs : List Sub) : ∀ s : State, ∃ k, freeStreams s subs = { s with skidders := k } := by
  induction subs with
  | nil => exact fun s => ⟨s.skidders, rfl⟩
  | cons u subs ih => exact fun s => ih _

/-- What one saved team takes from the state, and what it takes along: everything but teams, groups, stream contexts and release waves
stays. -/
theorem saveTeam_eq (s : State) (tid : Nat) (t : Team) : ∃ skidders clusters, saveTeam s tid t =
    ({ s with skidders := skidders, clusters := clusters, teams := mdel s.teams tid,
              groups := s.groups.filter fun p => decide (p.2.team ≠ some tid) },
      { uid := tid, team := t, groups := teamGroups s tid }) := by
  obtain ⟨k, hk⟩ := freeStreams_eq t.subs s
  rw [freeStreams] at hk
  simp only [saveTeam, hk]
  exact ⟨_, _, rfl⟩

/-- What saving a list of teams leaves in `t` and takes along in `saved` (R279 step 6). -/
structure Saves (s t : State) (l : List (Nat × Team)) (saved : List SavedTeam) : Prop where
  kept : saved.map (fun x => (x.uid, x.team)) = l
  teams : ∀ p, p ∈ t.teams → p ∈ s.teams ∧ ∀ q ∈ l, p.1 ≠ q.1
  groups : ∀ p, p ∈ t.groups → p ∈ s.groups ∧ ∀ q ∈ l, p.2.team ≠ some q.1
  taken : ∀ p ∈ s.groups, ∀ q ∈ l, p.2.team = some q.1 → ∃ x ∈ saved, x.uid = q.1 ∧ p ∈ x.groups
  mem : t.mem = s.mem

theorem saveTeams_saves (l : List (Nat × Team)) : ∀ s : State, Saves s (saveTeams l s).1 l (saveTeams l s).2 := by
  induction l with
  | nil => exact fun s => ⟨rfl, fun p hp => ⟨hp, fun q hq => absurd hq List.not_mem_nil⟩, fun p hp => ⟨hp, fun q hq => absurd hq List.not_mem_nil⟩,
      fun p _ q hq => absurd hq List.not_mem_nil, rfl⟩
  | cons r l ih =>
    intro s
    obtain ⟨skidders, clusters, hsave⟩ := saveTeam_eq s r.1 r.2
    have hrest := ih (saveTeam s r.1 r.2).1
    have hgroups : ∀ p, p ∈ (saveTeam s r.1 r.2).1.groups ↔ p ∈ s.groups ∧ p.2.team ≠ some r.1 := by
      rw [hsave]
      simp only [List.mem_filter, decide_eq_true_eq, implies_true]
    refine ⟨?kept, fun p hp => ?teams, fun p hp => ?groups, fun p hp q hq hteam => ?taken, ?mem⟩
    case kept =>
      show ((saveTeam s r.1 r.2).2 :: (saveTeams l (saveTeam s r.1 r.2).1).2).map _ = _
      rw [List.map_cons, hrest.kept, hsave]
    case teams =>
      obtain ⟨hp, hl⟩ := hrest.teams p hp
      rw [hsave] at hp
      obtain ⟨hp, hne⟩ := mem_mdel.1 hp
      exact ⟨hp, List.forall_mem_cons.2 ⟨hne, hl⟩⟩
    case groups =>
      obtain ⟨hp, hl⟩ := hrest.groups p hp
      obtain ⟨hp, hne⟩ := (hgroups p).1 hp
      exact ⟨hp, List.forall_mem_cons.2 ⟨hne, hl⟩⟩
    case taken =>
      by_cases hfirst : p.2.team = some r.1
      · refine ⟨(saveTeam s r.1 r.2).2, List.mem_cons_self, ?_, ?_⟩
        · rw [hsave]
          exact Option.some.inj (hfirst.symm.trans hteam)
        · rw [hsave]
          exact List.mem_filter.2 ⟨hp, decide_eq_true hfirst⟩
      · have hq : q ∈ l := (List.mem_cons.1 hq).resolve_left fun heq => hfirst (heq ▸ hteam)
        obtain ⟨x, hx, huid, hmem⟩ := hrest.taken p ((hgroups p).2 ⟨hp, hfirst⟩) q hq hteam
        exact ⟨x, List.mem_cons_of_mem _ hx, huid, hmem⟩
    case mem => exact hrest.mem.trans (by rw [hsave])

/-! ### The save area -/

/-- A byte in no data unit that a publish event writes reads as before. -/
theorem rdByte_publish_of_units {s : State} {who : Agent} {grp : Option Nat} {atomic : Option Scope} {sc : Scope} {key a : Nat}
    {data : List Host.Cell} (h : ∀ d ∈ data, d.1 / 32 ≠ a / 32) : rdByte (publish s who grp atomic sc key data).mem a = rdByte s.mem a := by
  show rdByte ((data ++ spoiled s key data).foldl (fun m c => wrByte m c.1 c.2) s.mem) a = _
  refine rdByte_foldl_of_out _ _ fun c hc heq => ?_
  obtain hc | hc := List.mem_append.1 hc
  · exact h c hc (by rw [heq])
  · obtain ⟨d, hd, hunit, -⟩ := (mem_spoiled hc).2
    exact h d hd (by rw [hunit, heq])

/-- A byte of the save area that the microcode writes lies within it (R281). -/
theorem mem_areaBytes {c : Context} {saved : List SavedTeam} {a : Nat} (ha : a ∈ areaBytes c saved) : ∃ k < c.savesz, a = c.save + k := by
  obtain ⟨i, hi, rfl⟩ := List.mem_map.1 (List.mem_filter.1 ha).1
  exact ⟨i, Nat.lt_of_lt_of_le (List.mem_range.1 hi) (Nat.min_le_left _ _), rfl⟩

/-- Writing the save area is a write of memory alone. -/
theorem writeArea_frame (s : State) (c : Context) (saved : List SavedTeam) :
    (writeArea s c saved).teams = s.teams ∧ (writeArea s c saved).groups = s.groups := by
  unfold writeArea
  split <;> exact ⟨rfl, rfl⟩

/-- Memory outside the data units of the save area reads as before. -/
theorem rdByte_writeArea {s : State} {c : Context} {saved : List SavedTeam} {a : Nat} (ha : ∀ k < c.savesz, (c.save + k) / 32 ≠ a / 32) :
    rdByte (writeArea s c saved).mem a = rdByte s.mem a := by
  unfold writeArea
  split
  · rfl
  · refine rdByte_publish_of_units fun d hd => ?_
    obtain ⟨x, hx, rfl⟩ := List.mem_map.1 hd
    obtain ⟨k, hk, rfl⟩ := mem_areaBytes hx
    exact ha k hk

/-! ### The end of a switch-out -/

section
variable {s : State} {ctx : Nat} {c : Context}

/-- The context once its teams are saved (Table 10.2). -/
def switchedOut (c : Context) (saved : List SavedTeam) : Context := { c with switch := .none, saved := saved, st := .switchedOut }

theorem exec_switchOutDone (hc : Switching s ctx c (.out 6)) (hst : c.st ≠ .closing) :
    exec (.switchOutDone ctx) s = .next (setContext (writeArea (saveTeams (teamsOfCtx s ctx) s).1 c (saveTeams (teamsOfCtx s ctx) s).2) ctx
      (switchedOut c (saveTeams (teamsOfCtx s ctx) s).2)) := by
  obtain ⟨hget, hswitch⟩ := hc
  change Host.Outcome.next (switchOutDone s ctx) = _
  simp only [switchOutDone, hget, hswitch, if_true, if_neg hst, afterSwitch, setContext_contexts, mget_mput_self, reduceCtorEq, if_false]
  rfl

/-- After its step 6 every team of the context stands in its saved teams with its groups, and none is left on a core (R279). -/
theorem Saves.allSaved {t t' : State} {l : List SavedTeam} {c' : Context} (h : Saves s t (teamsOfCtx s ctx) l) (hteams : t'.teams = t.teams)
    (hgroups : t'.groups = t.groups) (hsaved : c'.saved = l) : AllSaved s t' ctx c' := by
  have hof : ∀ q, q ∈ teamsOfCtx s ctx ↔ q ∈ s.teams ∧ q.2.ctx = ctx := fun q => by
    simp only [teamsOfCtx, List.mem_filter, decide_eq_true_eq]
  refine ⟨fun p => ?kept, fun p hp hmine => ?noTeam, fun p hp q hq hmine => ?groups, fun p hp q hq hmine => ?noGroup⟩
  case kept => rw [hsaved, h.kept, hof]
  case noTeam =>
    obtain ⟨hp, hne⟩ := h.teams p (hteams ▸ hp)
    exact hne p ((hof p).2 ⟨hp, hmine⟩) rfl
  case groups =>
    rw [hsaved]
    exact h.taken p hp q ((hof q).2 ⟨hq, hmine⟩)
  case noGroup => exact (h.groups p (hgroups ▸ hp)).2 q ((hof q).2 ⟨hq, hmine⟩)

/-- SWITCH_OUT_DONE leaves the context SWITCHED-OUT with its teams saved, and memory outside its save area as it was. -/
theorem exec_switchOutDone_saves (hc : Switching s ctx c (.out 6)) (hst : c.st ≠ .closing) :
    ∃ t c', exec (.switchOutDone ctx) s = .next t ∧ mget t.contexts ctx = some c' ∧ c'.st = .switchedOut ∧ c'.switch = .none ∧
      AllSaved s t ctx c' ∧ ∀ a, (∀ k < c.savesz, (c.save + k) / 32 ≠ a / 32) → rdByte t.mem a = rdByte s.mem a := by
  have hsaves := saveTeams_saves (teamsOfCtx s ctx) s
  obtain ⟨hteams, hgroups⟩ := writeArea_frame (saveTeams (teamsOfCtx s ctx) s).1 c (saveTeams (teamsOfCtx s ctx) s).2
  refine ⟨_, _, exec_switchOutDone hc hst, mget_mput_self _ _ _, rfl, rfl, hsaves.allSaved hteams hgroups rfl, fun a ha => ?_⟩
  rw [setContext_mem, rdByte_writeArea ha, hsaves.mem]

end

/-! ### Restore -/

theorem restoredContext_eq (c : Context) (rest : List SavedTeam) : restoredContext c rest =
    if rest.isEmpty then { { c with saved := rest } with switch := .none, st := if c.st = .closing then .closing else .running }
    else { c with saved := rest } := by
  cases rest <;> rfl

/-- The first saved team of a restoring context is placed on a core that may take it (R280). -/
theorem exec_restorePlace {s s₁ : State} {ctx core : Nat} {place : Placing} {c : Context} {x : SavedTeam} {rest : List SavedTeam} {k : Kernel}
    {subs : List Sub} (h : Restores s ctx core place c x rest k s₁ subs) :
    let s₂ := restoreGroups core x.team ((savedOrder x).zip place)
      (setTeam (loadDict s₁ core x.team.kernel) x.uid (restoredTeam core x.team subs))
    let s₃ := endTeam (recheckBars (startReload (setContext s₂ ctx (restoredContext c rest)) x.uid) x.uid) x.uid
    exec (.restorePlace ctx core place) s = .next (if rest = [] then afterSwitch s₃ ctx else s₃) := by
  obtain ⟨⟨hget, hswitch⟩, hsaved, hkernel, hstreams, ⟨hcore, hmask⟩, hroom, hfits, hplace⟩ := h
  change Host.Outcome.next (restorePlace s ctx core place) = _
  simp only [restorePlace, hget, hswitch, hsaved, hkernel, hstreams, hcore, decide_true, hmask, hroom, hfits, hplace, Bool.and_self, if_true,
    restoredContext_eq, List.isEmpty_iff]
  rfl

/-! ### Held fault records -/

theorem exec_faultQueueRetry {s : State} {ctx : Nat} {c : Context} (hc : mget s.contexts ctx = some c) :
    exec (.faultQueueRetry ctx) s =
      .next (c.heldRecs.foldl (fun s r => postRecord s ctx r) (setContext s ctx { c with heldRecs := [] })) := by
  change Host.Outcome.next (faultQueueRetry s ctx) = _
  simp only [faultQueueRetry, hc]

/-! ### The end of a close -/

section
variable {s : State} {ctx : Nat} {c : Context}

/-- No object of a map is of a context. -/
theorem any_ctx_false {α : Type} {m : Map α} {ctxOf : α → Nat} (h : ∀ p ∈ m, ctxOf p.2 ≠ ctx) :
    (m.any fun p => decide (ctxOf p.2 = ctx)) = false :=
  List.any_eq_false.2 fun p hp hq => h p hp (of_decide_eq_true hq)

theorem closeReady_of_closed (h : Closed s ctx c) : closeReady s ctx c = true := by
  obtain ⟨-, hst, hswitch, hsaved, hqueues, hgraphs, hteams, hgroups, hkernels⟩ := h
  have hqueue : (s.queues.any fun p => decide (p.2.ctx = ctx) && decide (p.2.st ≠ .destroyed)) = false :=
    List.any_eq_false.2 fun p hp hq => by
      simp only [Bool.and_eq_true, decide_eq_true_eq] at hq
      exact hq.2 (hqueues p hp hq.1)
  simp only [closeReady, hst, hswitch, hsaved, hqueue, any_ctx_false hgraphs, any_ctx_false hteams, any_ctx_false hgroups, any_ctx_false hkernels,
    decide_true, Bool.not_false, List.isEmpty_nil, Bool.and_self]

/-- The state without the queues of a context. -/
def withoutQueues (s : State) (ctx : Nat) : State := { s with queues := s.queues.filter fun p => decide (p.2.ctx ≠ ctx) }

/-- The invalidation of every translation of a context (R401). -/
def wholeContext (ctx : Nat) : Inval := { moment := 0, ctx := some ctx, va := none }

/-- A context's close before its key slot is looked at: its queues and translations are gone, its id is CLOSED (R278, R401). -/
def closedUp (s : State) (ctx : Nat) : State := dropContext (invalidate (withoutQueues s ctx) (wholeContext ctx)) ctx

/-- A key slot that no context uses is retired (R278). -/
def retireKey (s : State) (slot : Nat) : State :=
  if s.contexts.any fun p => decide (p.2.keyslot = slot) then s else { s with fw := { s.fw with keySlots := mdel s.fw.keySlots slot } }

theorem exec_closeDone (h : Closed s ctx c) : exec (.closeDone ctx) s = .next (retireKey (closedUp s ctx) c.keyslot) := by
  change Host.Outcome.next (closeDone s ctx) = _
  simp only [closeDone, h.there, closeReady_of_closed h, if_true]
  rfl

theorem retireKey_frame (s : State) (slot : Nat) : (retireKey s slot).contexts = s.contexts ∧ (retireKey s slot).mem = s.mem := by
  unfold retireKey
  split <;> exact ⟨rfl, rfl⟩

theorem retireKey_retires {slot : Nat} (h : ∀ p ∈ s.contexts, p.2.keyslot ≠ slot) : mget (retireKey s slot).fw.keySlots slot = none := by
  have hnone : ¬ (s.contexts.any fun p => decide (p.2.keyslot = slot)) = true := fun hany => by
    obtain ⟨p, hp, heq⟩ := List.any_eq_true.1 hany
    exact h p hp (of_decide_eq_true heq)
  rw [retireKey, if_neg hnone]
  exact (mget_mdel _ _ _).trans (if_pos rfl)

/-- A context in whose saved teams the translations of the closing context are dropped (R403). -/
def markedFor (s : State) (ctx : Nat) (c : Context) : Context :=
  { c with saved := c.saved.map (staleSaved (withoutQueues s ctx) (wholeContext ctx)) }

/-- Dropping a context's translations goes over the saved teams of every context. -/
theorem closedUp_contexts (s : State) (ctx : Nat) :
    (closedUp s ctx).contexts = mdel (s.contexts.map fun p => (p.1, markedFor s ctx p.2)) ctx := rfl

theorem mget_closedUp (s : State) (ctx i : Nat) :
    mget (closedUp s ctx).contexts i = if ctx = i then none else (mget s.contexts i).map (markedFor s ctx) := by
  rw [closedUp_contexts, mget_mdel, mget_map]

/-- What is left of the contexts after a close has the key slots that it had. -/
theorem keyslot_closedUp {slot : Nat} (h : ∀ p ∈ s.contexts, p.1 ≠ ctx → p.2.keyslot ≠ slot) :
    ∀ p ∈ (closedUp s ctx).contexts, p.2.keyslot ≠ slot := by
  intro p hp
  rw [closedUp_contexts] at hp
  obtain ⟨hp, hne⟩ := mem_mdel.1 hp
  obtain ⟨q, hq, rfl⟩ := List.mem_map.1 hp
  exact h q hq hne

/-- An access of another context is not one that the invalidation of a context drops. -/
theorem invalHits_wholeContext {j : Nat} (hj : j ≠ ctx) (who : Agent) (va : Nat) : invalHits s (wholeContext ctx) j who va = false := by
  have hother : (some ctx == some j) = false := beq_false_of_ne fun heq => hj (Option.some.inj heq).symm
  simp only [invalHits, wholeContext, hother, Option.isNone_some, Bool.or_self, Bool.false_and]

theorem staleTeam_of_other {x : Team} (hx : x.ctx ≠ ctx) : staleTeam s (wholeContext ctx) x = x := by
  simp only [staleTeam, invalHits_wholeContext hx, Bool.false_eq_true, if_false, List.map_id']

theorem staleGroup_of_other {x : Group} (hx : x.ctx ≠ ctx) : staleGroup s (wholeContext ctx) x = x := by
  simp only [staleGroup, invalHits_wholeContext hx, Bool.false_eq_true, if_false, List.map_id']

/-- A saved team and its groups are of another context than `ctx`. -/
def SavedTeam.Apart (ctx : Nat) (x : SavedTeam) : Prop := x.team.ctx ≠ ctx ∧ ∀ q ∈ x.groups, q.2.ctx ≠ ctx

/-- No team saved with another context is of context `ctx`. -/
def SavedApart (s : State) (ctx : Nat) : Prop := ∀ i d, mget s.contexts i = some d → i ≠ ctx → ∀ x ∈ d.saved, x.Apart ctx

theorem staleSaved_of_apart {x : SavedTeam} (hx : x.Apart ctx) : staleSaved s (wholeContext ctx) x = x := by
  have hgroups : x.groups.map (fun p => (p.1, staleGroup s (wholeContext ctx) p.2)) = x.groups :=
    (List.map_congr_left fun q hq => congrArg (Prod.mk q.1) (staleGroup_of_other (hx.2 q hq))).trans (List.map_id _)
  rw [staleSaved, staleTeam_of_other hx.1, hgroups]

theorem markedFor_of_apart {c : Context} (hc : ∀ x ∈ c.saved, x.Apart ctx) : markedFor s ctx c = c := by
  have hsaved : c.saved.map (staleSaved (withoutQueues s ctx) (wholeContext ctx)) = c.saved :=
    (List.map_congr_left fun x hx => staleSaved_of_apart (hc x hx)).trans (List.map_id _)
  rw [markedFor, hsaved]

/-- CLOSE_DONE ends a context of which nothing is left, and leaves memory and the other contexts, their saved teams being their own (R278). -/
theorem exec_closeDone_closes (h : Closed s ctx c) (hapart : SavedApart s ctx) :
    ∃ t, exec (.closeDone ctx) s = .next t ∧ mget t.contexts ctx = none ∧ t.mem = s.mem ∧
      (∀ i, i ≠ ctx → mget t.contexts i = mget s.contexts i) ∧
      ((∀ p ∈ s.contexts, p.1 ≠ ctx → p.2.keyslot ≠ c.keyslot) → mget t.fw.keySlots c.keyslot = none) := by
  obtain ⟨hcontexts, hmem⟩ := retireKey_frame (closedUp s ctx) c.keyslot
  refine ⟨_, exec_closeDone h, ?gone, hmem, fun i hi => ?others, fun hkeys => retireKey_retires (keyslot_closedUp hkeys)⟩
  case gone => rw [hcontexts, mget_closedUp, if_pos rfl]
  case others =>
    rw [hcontexts, mget_closedUp, if_neg hi.symm]
    cases hget : mget s.contexts i with
    | none => rfl
    | some d => rw [Option.map_some, markedFor_of_apart (hapart i d hget hi)]

end

/-! ### A state in which the clause on CLOSE_DONE fails -/

/-- A kernel with nothing in it. -/
def bareKernel : Kernel :=
  { ctx := 2, st := .running, unload := false, base := 0, overlays := [], dict := [], data := 0, groups := 1, roles := [], workset := 0,
    handler := none, scratch := 0, acc := 0 }

/-- A saved team of a context, with one dirty stash byte whose translation still holds. -/
def dirtySaved (owner : Nat) : SavedTeam :=
  { uid := 3, groups := []
    team := { newTeam owner 0 0 0 0 0 0 1 1 bareKernel with
      stashDirty := [(0, { gid := 7, tr := { pa := 0, key := 0, kind := .hbm, peer := none }, stale := false })] } }

def closingContext : Context := { contextZero [] with st := .closing }

/-- Context 1 is closing, with nothing left of it, beside context 2, with which a team of context `owner` is saved. -/
def besideClosing (owner : Nat) : State :=
  { State.reset with contexts := [(1, closingContext), (2, { contextZero [] with st := .switchedOut, saved := [dirtySaved owner] })] }

theorem closed_besideClosing (owner : Nat) : Closed (besideClosing owner) 1 closingContext :=
  ⟨rfl, rfl, rfl, rfl, fun _ hp => absurd hp List.not_mem_nil, fun _ hp => absurd hp List.not_mem_nil,
    fun _ hp => absurd hp List.not_mem_nil, fun _ hp => absurd hp List.not_mem_nil, fun _ hp => absurd hp List.not_mem_nil⟩

/-- Where the saved team is of the context that it is saved with, the clause holds. -/
theorem savedApart_besideClosing : SavedApart (besideClosing 2) 1 := by
  intro i d hget hi x hx
  by_cases h2 : 2 = i
  · subst h2
    obtain rfl := Option.some.inj hget
    obtain rfl := List.mem_singleton.1 hx
    exact ⟨by decide, fun q hq => absurd hq List.not_mem_nil⟩
  · have hnone : mget (besideClosing 2).contexts i = none := by
      simp only [besideClosing, mget, if_neg hi.symm, if_neg h2]
    rw [hnone] at hget
    cases hget

/-- Whether the translations of dirty stash bytes saved with a context are dropped, team by team. -/
def savedStale (c : Option Context) : Option (List (List Bool)) := c.map fun c => c.saved.map fun x => x.team.stashDirty.map (·.2.stale)

/-- The close of context 1 changes context 2, with which a team of context 1 is saved. -/
theorem savedStale_besideClosing : savedStale (mget (besideClosing 1).contexts 2) = some [[false]] ∧
    savedStale (mget (retireKey (closedUp (besideClosing 1) 1) closingContext.keyslot).contexts 2) = some [[true]] := ⟨rfl, rfl⟩

end Sys2Proof.Machine

namespace Sys2Proof
open Sys2Proof.Machine Sys2Proof.Claim

/-- Refutes O31: CLOSE_DONE drops the translations of the closing context in the saved teams of every context, and nothing in the statement has
a team of the closing context saved with no other. Where it is so, that clause holds (`exec_closeDone_closes`); the clauses on the switch and on
held records hold of every state. -/
theorem not_switchEventsComplete : ¬ Obligations.SwitchEventsComplete := by
  rintro ⟨-, -, -, hclose, -⟩
  have hclosed := closed_besideClosing 1
  obtain ⟨t, hexec, -, -, hothers, -⟩ := hclose _ _ _ hclosed
  obtain rfl := Host.Outcome.next.inj ((exec_closeDone hclosed).symm.trans hexec)
  obtain ⟨hbefore, hafter⟩ := savedStale_besideClosing
  rw [hothers 2 (by decide), hbefore] at hafter
  exact absurd hafter (by decide)

end Sys2Proof
end

section
/-! PROOFS. The task instructions (R294 to R297, R301, R302): an enqueue whose record and queue pass their checks, and the instructions on a
graph that is there. -/

namespace Sys2Proof.Machine
open Sys2Proof.Claim

/-! ### The record of an enqueue -/

section
variable {s : State} {g : Group} {tid : Nat} {t : Team}

/-- A read of stash bytes whose sector needs no fill meets no trap (R128). -/
theorem stashTrap_read_of_filled {off : Nat} (h : needsFill t off = false) (lane : Nat) : stashTrap s g t lane off false = none := by
  cases hw : windowAt t off with
  | none => simp only [stashTrap, hw]
  | some w => simp only [stashTrap, hw, h]; rfl

/-- The record of an enqueue is read at once where nothing holds its place (R296). -/
theorem enqRecord_ok {off : Nat} {rec : TaskRec} (hrec : RecordAt s g tid t off rec) : enqRecord s g tid t off = .ok rec := by
  obtain ⟨-, -, hfree, hgood, rfl, -, hentry⟩ := hrec
  have htrap : ((recordUnits off).findSome? fun o => stashTrap s g t 0 o false) = none := List.findSome?_eq_none_iff.2 fun o ho =>
    stashTrap_read_of_filled (hfree.1 (o, 16) (List.mem_map.2 ⟨o, ho, rfl⟩)).2 0
  have hlines : (linesOf off 80).find? t.badLines.contains = none := List.find?_eq_none.2 fun l hl => by
    rw [List.contains_iff_mem]; exact hgood l hl
  simp only [enqRecord, htrap, ok_bind, scratchHold_atomsWait hfree, hlines, hentry]
  rfl

/-! ### The queue of an enqueue -/

theorem qidOf_of_lt {h : DWord} (hlt : h.toNat < 4096) : qidOf h = h.toNat := if_pos hlt

/-- Cause 0x04 is raised by no queue of the group's own context. -/
theorem foreignQueue_of_own {qid : Nat} (h : OwnQueue s g qid) : ((mget s.queues qid).all fun q => decide (q.ctx ≠ g.ctx)) = false := by
  obtain ⟨q, hget, hctx⟩ := h
  rw [hget, Option.all_some, hctx]
  exact decide_eq_false (not_not.2 rfl)

theorem ownQueue_of_teamQueue (h : TeamQueue s g t) : OwnQueue s g t.qid := by
  obtain ⟨q, hget, hctx, -⟩ := h
  exact ⟨q, hget, hctx⟩

/-- SPAWN has lost no queue that its team was dispatched from (R285). -/
theorem lostQueue_of_teamQueue (h : TeamQueue s g t) : ((mget s.queues t.qid).all fun q => decide (q.born ≠ t.qborn)) = false := by
  obtain ⟨q, hget, -, hborn⟩ := h
  rw [hget, Option.all_some, hborn]
  exact decide_eq_false (not_not.2 rfl)

theorem lostQueue_of_gone (h : ∀ q, mget s.queues t.qid = some q → q.born ≠ t.qborn) :
    ((mget s.queues t.qid).all fun q => decide (q.born ≠ t.qborn)) = true :=
  (Option.all_eq_true _ _).2 fun q hq => decide_eq_true (h q hq)

/-! ### What an enqueue does -/

/-- The record with what an enqueue writes over it (Table 11.6). -/
def EnqArgs.written (a : EnqArgs) (rec : TaskRec) : TaskRec := { rec with depth := a.depth, join := a.join.getD rec.join }

variable {k : BitVec 3} {rec : TaskRec} {a : EnqArgs}

/-- SPAWN at depth 31 reports no room, before its record is read (R296). -/
theorem enqueue_full (halign : a.off % 16 = 0) (hrange : t.inRange a.off 80 = true) (hown : OwnQueue s g a.qid) (hfull : a.full = true) :
    enqueue s k g tid t a = .ok (done s (g.setPred s.cur.mask k false)) := by
  simp only [enqueue, halign, hrange, foreignQueue_of_own hown, hfull, ne_eq, not_true_eq_false, if_false, Bool.not_true, Bool.and_false,
    Bool.false_eq_true, if_true]

variable {g' : Group} (hrec : RecordAt s g tid t a.off rec) (hstash : stashLeft s g.core s.cur.group = false)
  (hpage : (published s tid t a.off).2.2 = false) (hg' : mget (published s tid t a.off).1.groups s.cur.group = some g')
  (hfull : a.full = false) (hteams : a.teams ≠ 0)
include hrec hstash hpage hg' hfull hteams

/-- An enqueue that passes its checks publishes at .dev, then tries its slot write, where its queue is still the one it was (R296). -/
theorem enqueue_published (hqueue : (!a.lost && (mget s.queues a.qid).all fun q => decide (q.ctx ≠ g.ctx)) = false) :
    enqueue s k g tid t a = .ok (if a.lost then done (published s tid t a.off).1 (g'.setPred s.cur.mask k false)
      else enqueued s k g' (published s tid t a.off).1 a.qid (a.written rec) a.teams) := by
  have hread := enqRecord_ok hrec
  obtain ⟨halign, hrange, -, -, -, hok, -⟩ := hrec
  have hneed : (decide (a.teams ≠ 0) && recordOk rec) = true := by rw [decide_eq_true hteams, hok]; rfl
  unfold published at *
  simp only [enqueue, halign, hrange, hqueue, hfull, ne_eq, not_true_eq_false, if_false, Bool.not_true, Bool.false_eq_true, hread, ok_bind,
    need_bind hneed, stallIf_bind hstash, hpage, hg']
  cases a.lost with
  | true => rfl
  | false =>
    simp only [Bool.false_eq_true, if_false, enqueued, EnqArgs.written]
    cases insertTask _ a.qid _ a.teams <;> rfl

theorem enqueue_inserts (hlost : a.lost = false) (hown : OwnQueue s g a.qid) : enqueue s k g tid t a =
    .ok (enqueued s k g' (published s tid t a.off).1 a.qid (a.written rec) a.teams) := by
  rw [enqueue_published hrec hstash hpage hg' hfull hteams (by rw [foreignQueue_of_own hown, Bool.and_false]), hlost]
  rfl

theorem enqueue_lost (hlost : a.lost = true) : enqueue s k g tid t a =
    .ok (done (published s tid t a.off).1 (g'.setPred s.cur.mask k false)) := by
  rw [enqueue_published hrec hstash hpage hg' hfull hteams (by rw [hlost]; rfl), hlost]
  rfl

end

/-! ### ENQ, LAUNCH and SPAWN -/

/-- The operands of an ENQ, or of a LAUNCH of that many teams (Table 11.6). -/
def enqArgs (g : Group) (q r : BitVec 5) (teams : Nat) : EnqArgs :=
  { off := slice (g.rdW r.toNat) 0 24, qid := (g.rdW q.toNat).toNat, teams := teams, depth := 0, join := none, full := false, lost := false }

theorem written_enqArgs (g : Group) (q r : BitVec 5) (teams : Nat) (rec : TaskRec) :
    (enqArgs g q r teams).written rec = { rec with depth := 0 } := rfl

/-- The operands of a SPAWN (Table 11.6). -/
def spawnArgs (s : State) (g : Group) (t : Team) (r : BitVec 5) : EnqArgs :=
  { off := slice (g.rdW r.toNat) 0 24, qid := t.qid, teams := 1, depth := BitVec.ofNat 8 (g.depth + 1)
    join := if g.join = 0 then none else some g.join, full := decide (31 ≤ g.depth)
    lost := (mget s.queues t.qid).all fun q => decide (q.born ≠ t.qborn) }

theorem written_spawnArgs (s : State) (g : Group) (t : Team) (r : BitVec 5) (rec : TaskRec) : (spawnArgs s g t r).written rec =
    { rec with depth := BitVec.ofNat 8 (g.depth + 1), join := if g.join = 0 then rec.join else g.join } := by
  by_cases hjoin : g.join = 0
  · simp only [EnqArgs.written, spawnArgs, if_pos hjoin]; rfl
  · simp only [EnqArgs.written, spawnArgs, if_neg hjoin]; rfl

section
variable {s : State} {g g' : Group} {tid : Nat} {t : Team} {k : BitVec 3} {q r : BitVec 5} {rec : TaskRec} (hi : Issues s g)
  (ht : TeamOf s g tid t) (hrec : RecordAt s g tid t (slice (g.rdW r.toNat) 0 24) rec) (hstash : stashLeft s g.core s.cur.group = false)
  (hpage : (published s tid t (slice (g.rdW r.toNat) 0 24)).2.2 = false)
  (hg' : mget (published s tid t (slice (g.rdW r.toNat) 0 24)).1.groups s.cur.group = some g')

section
variable (hfree : UniFree s g [r.toNat] []) (hzero : slice (g.rdW r.toNat) 24 40 = 0)
include hi ht hfree hzero

theorem exec_spawn : exec (.spawn k r) s = finish (enqueue s k g tid t (spawnArgs s g t r)) := by
  change finish (spawnStep s k r) = _
  simp only [spawnStep, issuer_bind hi, issuerTeam_bind ht, useW_bind hfree, need_bind (decide_eq_true hzero)]
  rfl

include hrec

theorem exec_spawn_full (hqueue : TeamQueue s g t) (hdepth : 31 ≤ g.depth) :
    exec (.spawn k r) s = .next (done s (g.setPred s.cur.mask k false)) := by
  obtain ⟨halign, hrange, -⟩ := hrec
  rw [exec_spawn hi ht hfree hzero, enqueue_full halign hrange (ownQueue_of_teamQueue hqueue) (decide_eq_true hdepth)]
  rfl

include hstash hpage hg'

theorem exec_spawn_inserts (hqueue : TeamQueue s g t) (hdepth : g.depth < 31) :
    exec (.spawn k r) s = .next (enqueued s k g' (published s tid t (slice (g.rdW r.toNat) 0 24)).1 t.qid
      { rec with depth := BitVec.ofNat 8 (g.depth + 1), join := if g.join = 0 then rec.join else g.join } 1) := by
  rw [exec_spawn hi ht hfree hzero, enqueue_inserts (a := spawnArgs s g t r) hrec hstash hpage hg' (decide_eq_false (Nat.not_le.2 hdepth))
    Nat.one_ne_zero (lostQueue_of_teamQueue hqueue) (ownQueue_of_teamQueue hqueue), written_spawnArgs]
  rfl

theorem exec_spawn_lost (hgone : ∀ q, mget s.queues t.qid = some q → q.born ≠ t.qborn) (hdepth : g.depth < 31) :
    exec (.spawn k r) s = .next (done (published s tid t (slice (g.rdW r.toNat) 0 24)).1 (g'.setPred s.cur.mask k false)) := by
  rw [exec_spawn hi ht hfree hzero, enqueue_lost (a := spawnArgs s g t r) hrec hstash hpage hg' (decide_eq_false (Nat.not_le.2 hdepth))
    Nat.one_ne_zero (lostQueue_of_gone hgone)]
  rfl

end

variable (hown : OwnQueue s g (g.rdW q.toNat).toNat)
include hrec hstash hpage hg' hown

theorem enqueue_enqArgs {teams : Nat} (hteams : teams ≠ 0) : enqueue s k g tid t (enqArgs g q r teams) =
    .ok (enqueued s k g' (published s tid t (slice (g.rdW r.toNat) 0 24)).1 (g.rdW q.toNat).toNat { rec with depth := 0 } teams) := by
  rw [enqueue_inserts (a := enqArgs g q r teams) hrec hstash hpage hg' rfl hteams rfl hown, written_enqArgs]
  rfl

variable (hfree : UniFree s g [q.toNat, r.toNat] []) (hlt : (g.rdW q.toNat).toNat < 4096)
include hi ht hfree hlt

theorem exec_enq (hzero : slice (g.rdW r.toNat) 24 40 = 0) : exec (.enq k q r) s =
    .next (enqueued s k g' (published s tid t (slice (g.rdW r.toNat) 0 24)).1 (g.rdW q.toNat).toNat { rec with depth := 0 } 1) := by
  change finish (enqStep s false k q r) = _
  simp only [enqStep, issuer_bind hi, issuerTeam_bind ht, useW_bind hfree, Bool.false_eq_true, if_false, need_bind (decide_eq_true hzero),
    qidOf_of_lt hlt]
  exact congrArg finish (enqueue_enqArgs hrec hstash hpage hg' hown Nat.one_ne_zero)

theorem exec_launch (hzero : slice (g.rdW r.toNat) 24 8 = 0) (hteams : slice (g.rdW r.toNat) 32 32 ≠ 0) : exec (.launch k q r) s =
    .next (enqueued s k g' (published s tid t (slice (g.rdW r.toNat) 0 24)).1 (g.rdW q.toNat).toNat { rec with depth := 0 }
      (slice (g.rdW r.toNat) 32 32)) := by
  change finish (enqStep s true k q r) = _
  simp only [enqStep, issuer_bind hi, issuerTeam_bind ht, useW_bind hfree, if_true, need_bind (decide_eq_true hzero), qidOf_of_lt hlt]
  exact congrArg finish (enqueue_enqArgs hrec hstash hpage hg' hown hteams)

end

/-! ### GPSET, GPGET and GREPLAY -/

section
variable {s : State} {g : Group} {w : BitVec 5} {x : Graph}

theorem graphAt_bind {h : DWord} (hx : mget s.graphs h.toNat = some x) (hctx : x.ctx = g.ctx) (f : Nat × Graph → R State) :
    (graphAt s g h >>= f) = f (h.toNat, x) := by
  have hown : (mget s.graphs h.toNat).filter (fun x => decide (x.ctx = g.ctx)) = some x :=
    Option.filter_eq_some_iff.2 ⟨hx, decide_eq_true hctx⟩
  rw [graphAt, hown]
  rfl

variable (hi : Issues s g) (hx : mget s.graphs (g.rdW w.toNat).toNat = some x) (hctx : x.ctx = g.ctx)
include hi hx hctx

theorem exec_gpset {r : BitVec 5} (n : BitVec 4) (hfree : UniFree s g [w.toNat, r.toNat] []) : exec (.gpset w n r) s =
    .next (done (setGraph s (g.rdW w.toNat).toNat { x with gp := x.gp.set (gpIdx n) (g.rdW r.toNat) }) g) := by
  change finish (gpsetStep s w n r) = _
  simp only [gpsetStep, issuer_bind hi, useW_bind hfree, graphAt_bind hx hctx]
  rfl

theorem exec_gpget {d : BitVec 5} (n : BitVec 4) (hfree : UniFree s g [w.toNat] [d.toNat]) :
    exec (.gpget d w n) s = .next (done s (g.wrW d.toNat x.gp[gpIdx n])) := by
  change finish (gpgetStep s d w n) = _
  simp only [gpgetStep, issuer_bind hi, useW_bind hfree, graphAt_bind hx hctx]
  rfl

theorem exec_greplay {g' : Group} (k : BitVec 3) (hfree : UniFree s g [w.toNat] []) (hstash : stashLeft s g.core s.cur.group = false)
    (hpage : (publishGroup s s.cur.group .dev).2.2 = false) (hg' : mget (publishGroup s s.cur.group .dev).1.groups s.cur.group = some g') :
    exec (.greplay k w) s = .next (done (if x.replaying then (publishGroup s s.cur.group .dev).1
      else setGraph (publishGroup s s.cur.group .dev).1 (g.rdW w.toNat).toNat x.start) (g'.setPred s.cur.mask k (!x.replaying))) := by
  change finish (greplayStep s k w) = _
  simp only [greplayStep, issuer_bind hi, useW_bind hfree, graphAt_bind hx hctx, stallIf_bind hstash, hpage, Bool.false_eq_true, if_false, hg']
  rfl

end

end Sys2Proof.Machine

namespace Sys2Proof
open Sys2Proof.Machine Sys2Proof.Claim

/-- Settles O23: an enqueue that passes its checks publishes and tries its slot write, and a graph that is there answers. -/
theorem taskInstructionsComplete : Obligations.TaskInstructionsComplete := by
  unfold Obligations.TaskInstructionsComplete
  refine fun s g hi => ⟨fun tid t k r rec g' ht hrec hstash hpage hg' => ⟨fun q hfree hown hlt => ⟨?enq, ?launch⟩,
    fun hfree hzero => ⟨?spawn, ?full, ?lost⟩⟩, fun w x hx hctx => ⟨fun n r => ?gpset, fun d n hfree => ?gpget, fun k g' => ?greplay⟩⟩
  case enq => exact exec_enq hi ht hrec hstash hpage hg' hown hfree hlt
  case launch => exact exec_launch hi ht hrec hstash hpage hg' hown hfree hlt
  case spawn => exact exec_spawn_inserts hi ht hrec hstash hpage hg' hfree hzero
  case full => exact exec_spawn_full hi ht hrec hfree hzero
  case lost => exact exec_spawn_lost hi ht hrec hstash hpage hg' hfree hzero
  case gpset => exact exec_gpset hi hx hctx n
  case gpget => exact ⟨_, exec_gpget hi hx hctx n hfree, uniDone_of_wrW s g d.toNat _ d.isLt⟩
  case greplay => exact exec_greplay hi hx hctx k

end Sys2Proof
end

section
/-! PROOFS. The graph commands and the commands that an interpreter runs (R298 to R300). -/

namespace Sys2Proof.Machine
open Sys2Proof.Claim

/-! ### RECORDG, FREEG and REPLAY -/

section
variable {s : State} {h : Hdr} {c : Context} {gid : Nat}

/-- What RECORDG makes is an IDLE graph of the commands that it read (R298). -/
theorem recordGraph_idle {s' : State} {ctx count n : Nat} {addr : DWord} {cmds : List (List Byte)}
    (hrec : recordGraph s ctx gid count n addr cmds = some s') :
    ∃ x, mget s'.graphs gid = some x ∧ x.replaying = false ∧ x.count = count ∧ x.cmds = cmds := by
  simp only [recordGraph] at hrec
  split at hrec
  next => cases hrec
  next =>
    split at hrec
    next => cases hrec
    next =>
      obtain ⟨-, hmade⟩ := Option.ite_none_right_eq_some.1 hrec
      obtain rfl := Option.some.inj hmade
      exact ⟨_, mget_mput_self _ _ _, rfl, rfl, rfl⟩

theorem exec_recordg (ht : Takes s h c isOpen) {s' : State} {count core : Nat} {addr : BitVec 64} {b : List Byte} (hgid : gid < 1024)
    (hfree : mget s.graphs gid = none) (hpos : 0 < count) (hmax : count ≤ 4096)
    (hb : devBytes s h.ctx.toNat addr (128 * count) = some b)
    (hrec : recordGraph s h.ctx.toNat gid count core addr (chunks128 count b) = some s') :
    exec (.recordg h gid count core addr) s = .next (reply s' h 0x20 0 []) := by
  have hlegal : ¬ (1024 ≤ gid ∨ (mget s.graphs gid).isSome = true ∨ count = 0 ∨ 4096 < count) := by
    simp only [hfree, Option.isSome_none, Bool.false_eq_true, false_or]
    omega
  change execRecordg h gid count core addr s = _
  rw [execRecordg, command_of_takes ht, if_neg hlegal, hb, Option.bind_some, hrec]
  rfl

variable {x : Graph}

theorem withGraph_of_own (hx : Own s.graphs Graph.ctx h gid x) (f : Graph → Reply) : withGraph s h.ctx.toNat gid f = f x := by
  rw [withGraph, filter_of_own hx]

theorem exec_freeg (ht : Takes s h c isOpen) (hx : Own s.graphs Graph.ctx h gid x) :
    exec (.freeg h gid) s = .next (reply (freeGraph s gid x) h 0x21 0 []) := by
  change execFreeg h gid s = _
  rw [execFreeg, command_of_takes ht, withGraph_of_own hx, sent_ok]

theorem exec_replay (ht : Takes s h c isOpen) (hx : Own s.graphs Graph.ctx h gid x) (mask : BitVec 16) (gp : Vector (BitVec 64) 16) :
    exec (.replay h gid mask gp) s = .next (if x.replaying then reply s h 0x22 1 []
      else reply (setGraph s gid (suppliedGp x mask gp).start) h 0x22 0 []) := by
  change execReplay h gid mask gp s = _
  rw [execReplay, command_of_takes ht, withGraph_of_own hx, sent_ite, sent_ok, sent_refuse]

end

theorem graphCommandsComplete : Claim.GraphCommandsComplete := fun _ _ _ _ ht =>
  ⟨fun _ _ _ _ _ hgid hfree hpos hmax hb hrec => ⟨exec_recordg ht hgid hfree hpos hmax hb hrec, recordGraph_idle hrec⟩,
    fun _ hx => ⟨exec_freeg ht hx, exec_replay ht hx⟩⟩

/-! ### The commands an interpreter runs -/

section
variable {s : State} {gid kind : Nat} {x : Graph} {g : Group} {c : List Byte}

theorem graphCmd_of_atCommand (h : AtCommand s gid kind x g c) : graphCmd s gid kind = some (x, g, c) := by
  obtain ⟨hx, hg, hc, hkind⟩ := h
  simp only [graphCmd, hx, hg, hc, if_pos hkind]

/-- END, and a kind that is none, stop the replay (R299, R300 step 7). -/
theorem exec_graphEnd (h : AtCommand s gid kind x g c) (hkind : kind = 0 ∨ 4 < kind) :
    exec (.graphEnd gid) s = .next (setGraph s gid (x.stop (decide (4 < kind)))) := by
  obtain ⟨hx, hg, hc, rfl⟩ := h
  change Host.Outcome.next (graphEnd s gid) = _
  simp only [graphEnd, hx, hg, hc]
  obtain hend | hnone := hkind
  · rw [if_pos hend, hend]; rfl
  · rw [if_neg (Nat.ne_of_gt (Nat.zero_lt_of_lt hnone)), if_pos hnone, decide_eq_true hnone]

/-- The checks of a TASK fail (R300 step 3). -/
def taskFails (s : State) (x : Graph) (c : List Byte) : Bool :=
  (mget s.queues (cmdField c 2 2)).all (fun q => decide (q.ctx ≠ x.ctx)) || !entryOk s x.ctx (recordOf ((c.drop 16).take 80)) ||
    decide (cmdField c 4 4 = 0) || !recordOk (recordOf ((c.drop 16).take 80))

/-- What a TASK that passes its checks leaves: the interpreter stays at it while there is no room (R300 step 3). -/
def taskTried (s : State) (gid : Nat) (x : Graph) (c : List Byte) : State :=
  match insertTask (interpreterPublish s x).1 (cmdField c 2 2) (patched x c) (cmdField c 4 4) with
  | none => (interpreterPublish s x).1
  | some s' => setGraph s' gid x.next

/-- TASK checks, publishes at .dev, and tries its slot write (R300 step 3). -/
theorem exec_graphTask (h : AtCommand s gid 1 x g c) : exec (.graphTask gid) s = .next (if taskFails s x c then setGraph s gid (x.stop true)
    else if (interpreterPublish s x).2.2 then (interpreterPublish s x).1 else taskTried s gid x c) := by
  change Host.Outcome.next (graphTask s gid) = _
  simp only [graphTask, graphCmd_of_atCommand h]
  rfl

theorem exec_graphTask_fails (h : AtCommand s gid 1 x g c) (hbad : cmdField c 4 4 = 0 ∨ recordOk (recordOf ((c.drop 16).take 80)) = false ∨
      entryOk s x.ctx (recordOf ((c.drop 16).take 80)) = false) :
    exec (.graphTask gid) s = .next (setGraph s gid (x.stop true)) := by
  have hfails : taskFails s x c = true := by
    rw [taskFails]
    obtain hteams | hrec | hentry := hbad
    · rw [decide_eq_true hteams, Bool.or_true, Bool.true_or]
    · rw [hrec, Bool.not_false, Bool.or_true]
    · rw [hentry, Bool.not_false, Bool.or_true, Bool.true_or, Bool.true_or]
  rw [exec_graphTask h, if_pos hfails]

theorem exec_graphTask_inserts (h : AtCommand s gid 1 x g c) {q : Queue} (hq : mget s.queues (cmdField c 2 2) = some q) (hctx : q.ctx = x.ctx)
    (hentry : entryOk s x.ctx (recordOf ((c.drop 16).take 80)) = true) (hrec : recordOk (recordOf ((c.drop 16).take 80)) = true)
    (hteams : cmdField c 4 4 ≠ 0) (hpage : (interpreterPublish s x).2.2 = false) :
    exec (.graphTask gid) s = .next (taskTried s gid x c) := by
  have hpasses : taskFails s x c = false := by
    rw [taskFails, hq, Option.all_some, decide_eq_false (not_not.2 hctx), hentry, decide_eq_false hteams, hrec]
    rfl
  rw [exec_graphTask h, hpasses, hpage]
  rfl

/-- ARM with a legal operand arms its join; one that is ARMED already ends the replay with ERROR (R300 step 4). -/
theorem exec_graphArm (h : AtCommand s gid 2 x g c) (hf : ctxFeature s x.ctx 3 = true) (hok : armOk (u64 (cmdField c 24 8)) = true) {i : Nat}
    {t : Trans} (hj : joinFind s x.ctx g.core (u64 (cmdField c 16 8)) = .ok (i, t)) :
    let p := u64 (cmdField c 24 8)
    let handle := armHandle (readJoin s t) i p
    let s' := armJoin s (agentOf g.core) (some x.cg) t p
    exec (.graphArm gid) s = .next (if handle = 0 then setGraph s' gid (x.stop true)
      else setGraph s' gid { x.next with armed := (i, BitVec.ofNat 8 (handle / 2 ^ 24)) :: x.armed }) := by
  change Host.Outcome.next (graphArm s gid) = _
  simp only [graphArm, graphCmd_of_atCommand h, hf, hok, hj, Bool.not_true, Bool.or_self, Bool.false_eq_true, if_false]

/-- WAIT stays at an armed join, else refreshes at .dev and goes on, or ends the replay where the join was cancelled (R300 step 5). -/
theorem exec_graphWait (h : AtCommand s gid 3 x g c) {i : Nat} {t : Trans}
    (hj : joinFind s x.ctx g.core (u64 (cmdField c 16 8)) = .ok (i, t)) :
    exec (.graphWait gid) s = .next (if (readJoin s t).armed then s
      else setGraph (refreshGroup (seeBytes s (some x.cg) (fieldBytes t stateField)) x.cg .dev) gid
        (if (readJoin s t).state = 3 then x.stop true else x.next)) := by
  change Host.Outcome.next (graphWait s gid) = _
  simp only [graphWait, graphCmd_of_atCommand h, hj]

/-- WRITE stores its 8 bytes and publishes them at .dev (R300 step 6). -/
theorem exec_graphWrite (h : AtCommand s gid 4 x g c) {t : Trans} :
    let a := u64 (cmdField c 16 8)
    let v := if 128 ≤ cmdField c 1 1 then x.latched[cmdField c 1 1 % 16]! else u64 (cmdField c 24 8)
    a.toNat % 8 = 0 → translate s x.ctx (agentOf g.core) 0 a .write = .ok t →
    let p := publishGroup (setGroup s x.cg { g with pend := g.pend ++ storeUnits t a (leList v.toNat 8) }) x.cg .dev
    p.2.2 = false → exec (.graphWrite gid) s = .next (setGraph p.1 gid x.next) := by
  intro a v halign htr p hpage
  change Host.Outcome.next (graphWrite s gid) = _
  simp only [graphWrite, graphCmd_of_atCommand h]
  rw [if_neg (not_not.2 halign), htr]
  exact congrArg Host.Outcome.next (if_neg (by rw [hpage]; exact Bool.false_ne_true))

end

theorem graphEventsComplete : Claim.GraphEventsComplete := by
  refine fun s gid x g c kind hat => ⟨fun hend => ?stop, fun hnone => ?none, fun htask => ?task, fun harm => ?arm, fun hwait => ?wait,
    fun hwrite => ?write⟩
  case stop => rw [exec_graphEnd hat (.inl hend), hend]; rfl
  case none => rw [exec_graphEnd hat (.inr hnone), decide_eq_true hnone]
  case task => subst htask; exact ⟨fun q => exec_graphTask_inserts hat, exec_graphTask_fails hat⟩
  case arm => subst harm; exact fun hf hok i t hj => exec_graphArm hat hf hok hj
  case wait => subst hwait; exact fun i t hj => exec_graphWait hat hj
  case write => subst hwrite; exact fun halign t htr => exec_graphWrite hat halign htr

end Sys2Proof.Machine

namespace Sys2Proof
open Sys2Proof.Machine

/-- Settles O35: a graph command that its context takes is carried out, and an interpreter that stands at a command runs it. -/
theorem graphsComplete : Obligations.GraphsComplete := ⟨graphCommandsComplete, graphEventsComplete⟩

end Sys2Proof
end

section
/-! PROOFS. The overlay instructions and the events of overlay loads, evictions and the transit region (R315, R323, R324, R329 to R335): what
each instruction comes to once its operands pass, and what each event does with the residency that it names. -/

namespace Sys2Proof.Machine

open Sys2Proof.Claim

/-! ### Operands that pass -/

section
variable {s : State} {g : Group}

/-- Registers that are free to be read and written are free to be read. -/
theorem uniFree_reads {reads writes : List Nat} (h : UniFree s g reads writes) : UniFree s g reads [] := by
  obtain ⟨hidle, hgood⟩ := h
  exact ⟨fun i hmem => hidle i (List.mem_append_left _ (by simpa using hmem)), hgood⟩

/-- A token whose overlay id a kernel of the context binds passes the check of R329. -/
theorem boundOv_bind {tok : DWord} {o : Nat × Kernel × Overlay} (h : overlayOf s g.ctx (slice tok 0 16) = some o) (k : Overlay → R State) :
    (boundOv s g tok >>= k) = k o.2.2 := by
  rw [boundOv, h]; rfl

/-- The depth of the return stack is checked by OVCALL alone (R331). -/
theorem checkDepth_of_call {call : Bool} (h : call = true → g.stack.length < 256) (k : Unit → R State) :
    (if call then checkDepth s g >>= k else k ()) = k () := by
  cases call with
  | true => rw [if_pos rfl, checkDepth_ok (h rfl)]; rfl
  | false => rfl

end

theorem codeOf_of_lookupRes {c : Core} {ctx ov : Nat} {r : Residency} (h : lookupRes c ctx ov = some r) (hres : r.st = .resident) :
    codeOf c ctx ov = some r := by
  rw [codeOf, h, Option.filter_some, if_pos (decide_eq_true hres)]

/-! ### OVLOAD -/

section
variable {s : State} {g : Group} {d : BitVec 5} {idx : BitVec 7} {k : Kernel} {o : Overlay}
variable (hi : Issues s g) (hfree : UniFree s g [] [d.toNat]) (hk : mget s.kernels g.kernel = some k)
  (ho : k.overlays[idx.toNat]? = some o)
include hi hfree hk ho

/-- OVLOAD of an overlay that has a residency writes its token (R330). -/
theorem exec_ovload_found {r : Residency} (hr : lookupRes (coreOf s g.core) g.ctx (k.base + idx.toNat) = some r) :
    exec (.ovload d idx) s = .next (done s (g.wrW d.toNat (tokenOf r))) := by
  change finish (issuer s >>= _) = _
  rw [issuer_bind hi, useW_bind hfree]
  simp only [hk, ho, hr, finish]

/-- OVLOAD of an ABSENT overlay that finds room starts its load (R330). -/
theorem exec_ovload_starts {s' : State} {r : Residency} (hnone : lookupRes (coreOf s g.core) g.ctx (k.base + idx.toNat) = none)
    (htransit : findRes (coreOf s g.core) g.ctx (k.base + idx.toNat) true = none)
    (halloc : allocate s g.core g.ctx (k.base + idx.toNat) o.slots (handleOf g) = some s')
    (hnew : findRes (coreOf s' g.core) g.ctx (k.base + idx.toNat) false = some r) :
    exec (.ovload d idx) s = .next (done s' (g.wrW d.toNat (tokenOf r))) := by
  change finish (issuer s >>= _) = _
  rw [issuer_bind hi, useW_bind hfree]
  simp only [hk, ho, hnone, htransit, Option.isSome_none, Bool.false_eq_true, if_false, halloc, hnew, finish]

/-- OVLOAD of an overlay without a residency, where a transit copy is EVICTING or there is no room, writes the token with V = 0 (R330). -/
theorem exec_ovload_noRoom (hnone : lookupRes (coreOf s g.core) g.ctx (k.base + idx.toNat) = none)
    (hroom : (findRes (coreOf s g.core) g.ctx (k.base + idx.toNat) true).isSome = true ∨
      allocate s g.core g.ctx (k.base + idx.toNat) o.slots (handleOf g) = none) :
    exec (.ovload d idx) s = .next (done s (g.wrW d.toNat (nullToken (k.base + idx.toNat)))) := by
  have hfails : (if (findRes (coreOf s g.core) g.ctx (k.base + idx.toNat) true).isSome then none
      else allocate s g.core g.ctx (k.base + idx.toNat) o.slots (handleOf g)) = none := by
    obtain htransit | halloc := hroom
    · exact if_pos htransit
    · rw [halloc, ite_self]
  change finish (issuer s >>= _) = _
  rw [issuer_bind hi, useW_bind hfree]
  simp only [hk, ho, hnone, hfails, finish]

end

/-! ### OVCALL, OVJUMP, RET -/

/-- OVCALL or OVJUMP at a copy: it is entered where it is complete, and waited for where it is not (R331). -/
def enterCopy (s : State) (g : Group) (call : Bool) (id entry : Nat) (r : Residency) : R State :=
  if r.st = .resident then
    .ok (enterOv s s.cur.group (if call then g.push s.cur else g) s.cur.mask r (entryWord r.code entry) false)
  else .error (.hold s (.overlay (BitVec.ofNat 16 id) (.enter call entry s.cur.next none s.tick)))

section
variable {s : State} {g : Group} {call : Bool} {id entry : Nat} {r : Residency}

theorem finish_enterCopy_resident (h : r.st = .resident) : finish (enterCopy s g call id entry r) =
    .next (enterOv s s.cur.group (if call then g.push s.cur else g) s.cur.mask r (entryWord r.code entry) false) := by
  rw [enterCopy, if_pos h, finish]

theorem finish_enterCopy_waits (h : r.st ≠ .resident) : finish (enterCopy s g call id entry r) =
    .next (holdCohort s (.overlay (BitVec.ofNat 16 id) (.enter call entry s.cur.next none s.tick))) := by
  rw [enterCopy, if_neg h, finish]

end

/-- OVCALL or OVJUMP once its operands pass: at the residency of a current token, else at the one that is found or started for the overlay, with
the token written; where none could be made, that overlay is waited for (R331, R324). -/
def enterByToken (s : State) (g : Group) (call : Bool) (t : BitVec 5) (entry : Nat) : R State :=
  let id := slice (g.rdW t.toNat) 0 16
  match currentRes (coreOf s g.core) g.ctx (g.rdW t.toNat) with
  | some r => enterCopy s g call id entry r
  | none =>
    let s' := (needOverlay s g.core g.ctx id s.cur.group).1
    match lookupRes (coreOf s' g.core) g.ctx id with
    | none => .error (.hold s' (.overlay (BitVec.ofNat 16 id) (.enter call entry s.cur.next (some t) s.tick)))
    | some r => enterCopy (setGroup s' s.cur.group (g.wrW t.toNat (tokenOf r))) (g.wrW t.toNat (tokenOf r)) call id entry r

/-- What holds of the shared meaning of OVCALL and OVJUMP holds of each, of OVCALL below the full depth (R331). -/
theorem ovcall_and_ovjump {s : State} {g : Group} {t : BitVec 5} {entry : BitVec 7} (out : Bool → State)
    (h : ∀ call, (call = true → g.stack.length < 256) → finish (oventerStep s call t entry) = .next (out call)) :
    (g.stack.length < 256 → exec (.ovcall t entry) s = .next (out true)) ∧ exec (.ovjump t entry) s = .next (out false) :=
  ⟨fun hdepth => h true fun _ => hdepth, h false nofun⟩

section
variable {s : State} {g : Group} {t : BitVec 5}

/-- The checks of R329 and R331 pass: the token's overlay is bound, the entry is one of its table, and OVCALL finds room on the stack. -/
theorem oventerStep_ok (hi : Issues s g) (hfree : UniFree s g [t.toNat] [t.toNat]) {o : Nat × Kernel × Overlay}
    (ho : overlayOf s g.ctx (slice (g.rdW t.toNat) 0 16) = some o) {entry : BitVec 7} (hentry : entry.toNat < o.2.2.entries) {call : Bool}
    (hdepth : call = true → g.stack.length < 256) : oventerStep s call t entry = enterByToken s g call t entry.toNat := by
  rw [oventerStep, issuer_bind hi, useW_bind hfree, boundOv_bind ho]
  refine (checkDepth_of_call hdepth _).trans ?_
  dsimp only
  rw [if_neg (Nat.not_le.2 hentry)]
  rfl

theorem enterByToken_current {call : Bool} {entry : Nat} {r : Residency}
    (hcur : currentRes (coreOf s g.core) g.ctx (g.rdW t.toNat) = some r) :
    enterByToken s g call t entry = enterCopy s g call (slice (g.rdW t.toNat) 0 16) entry r := by
  simp only [enterByToken, hcur]

section
variable {s' : State} {there call : Bool} {entry : Nat} (hstale : currentRes (coreOf s g.core) g.ctx (g.rdW t.toNat) = none)
  (hneed : needOverlay s g.core g.ctx (slice (g.rdW t.toNat) 0 16) s.cur.group = (s', there))
include hstale hneed

theorem enterByToken_stale {r : Residency} (hr : lookupRes (coreOf s' g.core) g.ctx (slice (g.rdW t.toNat) 0 16) = some r) :
    enterByToken s g call t entry = enterCopy (setGroup s' s.cur.group (g.wrW t.toNat (tokenOf r))) (g.wrW t.toNat (tokenOf r)) call
      (slice (g.rdW t.toNat) 0 16) entry r := by
  simp only [enterByToken, hstale, hneed, hr]

theorem enterByToken_absent (hr : lookupRes (coreOf s' g.core) g.ctx (slice (g.rdW t.toNat) 0 16) = none) :
    enterByToken s g call t entry = .error (.hold s' (.overlay (BitVec.ofNat 16 (slice (g.rdW t.toNat) 0 16))
      (.enter call entry s.cur.next (some t) s.tick))) := by
  simp only [enterByToken, hstale, hneed, hr]

end
end

/-- RET to an overlay of which no copy is complete waits for it (R332). -/
theorem exec_ret_waits {s s' : State} {g : Group} (hi : Issues s g) {e : RetEntry} {l : List RetEntry} (hst : g.stack = e :: l) {there : Bool}
    (hneed : needOverlay s g.core g.ctx e.ov.toNat s.cur.group = (s', there))
    (hcode : codeOf (coreOf s' g.core) g.ctx e.ov.toNat = none) :
    exec .ret s = .next (holdCohort s' (.overlay e.ov (.ret e.off g.stack.length))) := by
  change finish (issuer s >>= _) = _
  rw [issuer_bind hi]
  simp only [hst, hneed, hcode, finish]

/-! ### OVPIN, OVUNPIN, OVDROP, OVQUERY -/

/-- A pin is set once (R318). -/
theorem pin_eq (t : Team) (ov : Nat) : t.pin ov = { t with pins := if ov ∈ t.pins then t.pins else t.pins ++ [ov] } := by
  simp only [Team.pin, List.contains_iff_mem]

section
variable {s : State} {g : Group} {t : BitVec 5} {o : Nat × Kernel × Overlay}
variable (hi : Issues s g) (ho : overlayOf s g.ctx (slice (g.rdW t.toNat) 0 16) = some o)
include hi ho

/-- OVPIN of an overlay whose normal copy is complete sets the pin and writes the token (R333). -/
theorem exec_ovpin_resident (hfree : UniFree s g [t.toNat] [t.toNat]) {tid : Nat} {tm : Team} {r : Residency}
    (ht : issuerTeam s g = .ok (tid, tm))
    (hroom : slice (g.rdW t.toNat) 0 16 ∈ pinsOf s tid tm ∨ (pinsOf s tid tm).length < 16)
    (hr : findRes (coreOf s g.core) g.ctx (slice (g.rdW t.toNat) 0 16) false = some r) (hres : r.st = .resident) :
    exec (.ovpin t) s = .next (done (setTeam s tid (tm.pin (slice (g.rdW t.toNat) 0 16))) (g.wrW t.toNat (tokenOf r))) := by
  have hfits : ((pinsOf s tid tm).contains (slice (g.rdW t.toNat) 0 16) || decide ((pinsOf s tid tm).length < 16)) = true := by
    simpa using hroom
  have hlive : r.live = true := by rw [Residency.live, hres]; rfl
  change finish (issuer s >>= _) = _
  rw [issuer_bind hi, ht, ok_bind]
  dsimp only
  rw [useW_bind hfree, boundOv_bind ho, need_bind hfits, hr, Option.filter_some, if_pos hlive]
  simp only [hres, if_true, finish]

theorem exec_ovunpin (hfree : UniFree s g [t.toNat] []) {tid : Nat} {tm : Team} (ht : issuerTeam s g = .ok (tid, tm)) :
    exec (.ovunpin t) s =
      .next (done (setTeam s tid { tm with pins := tm.pins.filter fun x => decide (x ≠ slice (g.rdW t.toNat) 0 16) }) g) := by
  change finish (issuer s >>= _) = _
  rw [issuer_bind hi, ht, ok_bind]
  dsimp only
  rw [useW_bind hfree, boundOv_bind ho, finish]

theorem exec_ovdrop (hfree : UniFree s g [t.toNat] []) :
    exec (.ovdrop t) s = .next (done (setCore s g.core (dropOv s g.core g.ctx (slice (g.rdW t.toNat) 0 16))) g) := by
  change finish (issuer s >>= _) = _
  rw [issuer_bind hi, useW_bind hfree, boundOv_bind ho, finish]

theorem exec_ovquery {d : BitVec 5} (hfree : UniFree s g [t.toNat] [d.toNat]) :
    exec (.ovquery d t) s = .next (done s (g.wrW d.toNat (ovWord s g.core g.ctx (g.rdW t.toNat)))) := by
  change finish (issuer s >>= _) = _
  rw [issuer_bind hi, useW_bind hfree, boundOv_bind ho, finish]

end

theorem overlayInstructionsComplete : OverlayInstructionsComplete := by
  refine ⟨?load, ?current, ?stale, ?ret, ?rest⟩
  case load =>
    intro d idx s g k o hi hfree hk ho
    exact ⟨fun r hr => ⟨_, exec_ovload_found hi hfree hk ho hr, uniDone_of_wrW _ _ _ _ d.isLt⟩,
      fun s' r hnone htransit halloc hnew => exec_ovload_starts hi hfree hk ho hnone htransit halloc hnew,
      fun hnone hroom => ⟨_, exec_ovload_noRoom hi hfree hk ho hnone hroom, uniDone_of_wrW _ _ _ _ d.isLt⟩⟩
  case current =>
    intro t entry s g o r hi hfree ho hentry hcur
    refine ⟨fun hres => ?_, fun hres w hw => ?_⟩
    · exact ovcall_and_ovjump _ fun call hdepth => by
        rw [oventerStep_ok hi hfree ho hentry hdepth, enterByToken_current hcur, finish_enterCopy_resident hres]
    · exact ovcall_and_ovjump (fun call => holdCohort s (w call)) fun call hdepth => by
        rw [oventerStep_ok hi hfree ho hentry hdepth, enterByToken_current hcur, finish_enterCopy_waits hres, hw]
  case stale =>
    intro t entry s g o hi hfree ho hentry hstale
    refine ⟨fun r g' hr hres hg' => ?_, fun s' r w hneed hr hres hw => ?_, fun s' w hneed hr hw => ?_⟩
    · subst hg'
      have hneed := needOverlay_of_codeOf (codeOf_of_lookupRes hr hres) s.cur.group
      exact ovcall_and_ovjump _ fun call hdepth => by
        rw [oventerStep_ok hi hfree ho hentry hdepth, enterByToken_stale hstale hneed hr, finish_enterCopy_resident hres]
    · exact ovcall_and_ovjump (fun call => holdCohort _ (w call)) fun call hdepth => by
        rw [oventerStep_ok hi hfree ho hentry hdepth, enterByToken_stale hstale hneed hr, finish_enterCopy_waits hres, hw]
        rfl
    · exact ovcall_and_ovjump (fun call => holdCohort s' (w call)) fun call hdepth => by
        rw [oventerStep_ok hi hfree ho hentry hdepth, enterByToken_absent hstale hneed hr, finish, hw]
  case ret => exact fun s s' g e l hi hst hneed hcode => exec_ret_waits hi hst hneed hcode
  case rest =>
    intro t s g o hi hfree ho
    have hread := uniFree_reads hfree
    refine ⟨fun tid tm r ht hroom hr hres => ?_, fun tid tm ht => exec_ovunpin hi ho hread ht, exec_ovdrop hi ho hread,
      fun d hfree' => ⟨_, exec_ovquery hi ho hfree', uniDone_of_wrW _ _ _ _ d.isLt⟩⟩
    rw [exec_ovpin_resident hi ho hfree ht hroom hr hres, pin_eq]

/-! ### Loads -/

section
variable {s : State} {core ctx ov : Nat} {transit : Bool} {r : Residency}

theorem loadingRes_of_resAt (h : ResAt s core ctx ov transit .loading r) : loadingRes s core ctx ov transit = some r := by
  obtain ⟨hfind, hst⟩ := h
  rw [loadingRes, hfind, Option.filter_some, if_pos (decide_eq_true hst)]

/-- A load stands stalled at an address for which its record has been posted (R323, R405). -/
theorem stallLoad_stalled (core : Nat) (f : XFault) {va : Nat} (h : r.stalled = some va) : stallLoad s core r f va = s := if_pos h

/-- An EVICTING residency is gone (Table 13.2). -/
theorem exec_overlayEvicted (h : ResAt s core ctx ov transit .evicting r) :
    exec (.overlayEvicted core ctx ov transit) s = .next (removeRes s core r) := by
  obtain ⟨hfind, hst⟩ := h
  change Host.Outcome.next (evicted s core ctx ov transit) = _
  simp only [evicted, hfind, hst, if_true]

section
variable (h : ResAt s core ctx ov transit .loading r)
include h

/-- A load that has read its image makes the residency RESIDENT, and the waits for it end in the same step (R315). -/
theorem exec_overlayLoadDone_image {code : List Byte} (himage : loadImage s core r = .ok code) :
    exec (.overlayLoadDone core ctx ov transit) s =
      .next (dropFetched (((groupsOn (madeResident s core r code) core).map (·.1)).foldl settleOverlays (madeResident s core r code))
        (.overlay core ctx ov transit)) := by
  change Host.Outcome.next (loadDone s core ctx ov transit) = _
  simp only [loadDone, loadingRes_of_resAt h, himage]
  rfl

/-- A load that meets a remote page asks the peer (R323, R420). -/
theorem exec_overlayLoadDone_far {u : Nat} {t : Trans} (himage : loadImage s core r = .error (.far u t)) :
    exec (.overlayLoadDone core ctx ov transit) s = .next (askPeer s ctx (.overlay core ctx ov transit) u t) := by
  change Host.Outcome.next (loadDone s core ctx ov transit) = _
  simp only [loadDone, loadingRes_of_resAt h, himage]

section
variable {f : XFault} {va : Nat} (himage : loadImage s core r = .error (.fault f va))
include himage

/-- A load that meets a page not present stalls (R323). -/
theorem exec_overlayLoadDone_stalls (hf : f.cause = 3) :
    exec (.overlayLoadDone core ctx ov transit) s = .next (stallLoad s core r f va) := by
  change Host.Outcome.next (loadDone s core ctx ov transit) = _
  simp only [loadDone, loadingRes_of_resAt h, himage, if_pos hf]

theorem exec_overlayLoadFail_stalls (hf : f.cause = 3) :
    exec (.overlayLoadFail core ctx ov transit) s = .next (stallLoad s core r f va) := by
  change Host.Outcome.next (loadFail s core ctx ov transit) = _
  simp only [loadFail, loadingRes_of_resAt h, himage, if_pos hf]

/-- A load that fails is gone, and the groups that wait on its copy trap (R323). -/
theorem exec_overlayLoadFail_traps (hf : f.cause ≠ 3) :
    let s' := dropReload (dropFetched (removeRes s core r) (.overlay core ctx ov transit)) core ctx ov
    exec (.overlayLoadFail core ctx ov transit) s = .next ((groupsOn s' core).foldl (fun x p =>
      if p.2.ctx = ctx ∧ p.2.awaitsCopy (coreOf s core) r ≠ 0 ∧ switching x ctx = false then
        trapWaiter x p.1 p.2 (p.2.awaitsCopy (coreOf s core) r) { cause := f.cause, haddr := failAddr s r f va, access := f.access } else x) s') := by
  intro s'
  change Host.Outcome.next (loadFail s core ctx ov transit) = _
  simp only [loadFail, loadingRes_of_resAt h, himage, if_neg hf]
  rfl

end
end

/-- The transit occupant leaves while a queued waiter still waits and no group holds it (R324). -/
theorem exec_transitSwap (hocc : (coreOf s core).res.find? (·.transit) = some r) (hst : r.st = .resident)
    (hwaits : ∃ q ∈ (coreOf s core).transitQ, stillQueued s core q = true)
    (hfree : ∀ p ∈ groupsOn s core, holdsTransit s p.1 p.2 (coreOf s core) r = false) :
    exec (.transitSwap core) s = .next (setCore s core (updRes (coreOf s core) { r with st := .evicting })) := by
  have hheld : ¬ (groupsOn s core).any (fun p => holdsTransit s p.1 p.2 (coreOf s core) r) = true :=
    List.any_eq_true.not.2 fun ⟨p, hp, hholds⟩ => Bool.false_ne_true ((hfree p hp).symm.trans hholds)
  change Host.Outcome.next (transitSwap s core) = _
  simp only [transitSwap, hocc]
  rw [if_pos ⟨hst, List.any_eq_true.2 hwaits, hheld⟩]

end

theorem overlayEventsComplete : OverlayEventsComplete := by
  intro s core ctx ov transit r
  refine ⟨fun h => ⟨?image, ?far, ?stall, ?fail⟩, exec_overlayEvicted, exec_transitSwap⟩
  case image => exact fun code himage => exec_overlayLoadDone_image h himage
  case far => exact fun u t himage => exec_overlayLoadDone_far h himage
  case stall =>
    exact fun f va himage hf => ⟨exec_overlayLoadDone_stalls h himage hf, exec_overlayLoadFail_stalls h himage hf, stallLoad_stalled core f⟩
  case fail => exact fun f va himage hf => exec_overlayLoadFail_traps h himage hf

end Sys2Proof.Machine

namespace Sys2Proof
open Sys2Proof.Machine

/-- Settles O44: the overlay instructions by what their operands find on the core, and the overlay events by the residency that they name. -/
theorem overlaysComplete : Obligations.OverlaysComplete := ⟨overlayInstructionsComplete, overlayEventsComplete⟩

end Sys2Proof
end

section
/-! PROOFS. Commands that take no effect but their status: no link, no association, a context that is not the association's or takes none
(R415, R423, R426). -/

namespace Sys2Proof.Machine
open Sys2Proof.Claim

section
variable {s : State} {h : Hdr} {op : Nat}

/-! ### Whether a command arrives -/

/-- With no link up, or over UUD with a code that UUD does not carry, only the span firmware's own commands arrive (R415, R423). -/
theorem arrives_eq_false (hfw : fromFirmware s h = false) (hmode : op ≠ 0x30)
    (hout : anyLinkUp s = false ∨ (h.mode = .uud ∧ op ≠ 0x1E)) : arrives s h op = false := by
  rw [arrives, hfw, Bool.false_or]
  obtain hdown | ⟨huud, hquery⟩ := hout
  · rw [hdown, Bool.false_and]
  · rw [huud, decide_eq_false (not_not.2 rfl), decide_eq_false (not_or.2 ⟨hquery, hmode⟩), Bool.false_or, Bool.and_false]

theorem associated_of_silent (harr : arrives s h op = false) (f : Reply) : associated s h op f = .next s := by
  simp only [associated, harr, Bool.not_false, if_true]

theorem associated_of_stranger (harr : arrives s h op = true) (hfw : fromFirmware s h = false) (hno : s.fw.assocs.contains h.assoc = false)
    (f : Reply) : associated s h op f = .next (reply s h op 5 []) := by
  simp only [associated, harr, hfw, hno, Bool.not_true, Bool.not_false, Bool.and_self, Bool.false_eq_true, if_false, if_true]

/-- A command on an association of the module, or from the firmware on its own context, is carried out (R423). -/
theorem associated_of_reaches (hr : Reaches s h op) (f : Reply) : associated s h op f = .next (sent h op f) := by
  obtain ⟨harr, hassoc⟩ := hr
  have hknown : (!fromFirmware s h && !s.fw.assocs.contains h.assoc) = false := by
    rw [← Bool.not_or, Bool.not_eq_false', Bool.or_eq_true]; exact hassoc
  simp only [associated, harr, hknown]
  rfl

/-! ### The context that a command names -/

variable {takes : CtxState → Bool} (f : Context → Reply)

theorem command_of_noContext (hr : Reaches s h op) (hnone : mget s.contexts h.ctx.toNat = none) :
    command s h op takes f = .next (reply s h op 2 []) := by
  simp only [command, associated_of_reaches hr, hnone, sent_refuse]

variable {c : Context} (hc : mget s.contexts h.ctx.toNat = some c)
include hc

theorem command_of_foreign (hr : Reaches s h op) (hne : c.assoc ≠ h.assoc) : command s h op takes f = .next (reply s h op 5 []) := by
  simp only [command, associated_of_reaches hr, hc, if_pos hne, sent_refuse]

theorem command_of_untaken (hr : Reaches s h op) (heq : c.assoc = h.assoc) (hst : takes c.st = false) :
    command s h op takes f = .next (reply s h op 2 []) := by
  simp only [command, associated_of_reaches hr, hc, if_neg (not_not.2 heq), hst, Bool.not_false, if_true, sent_refuse]

end

/-! ### The commands on an open context -/

/-- Each command of Table 18.6 on the objects of a context is for a context that is open (R426), whatever it then comes to. -/
theorem exec_of_cmdOf {i : Instr} {h : Hdr} {op : Nat} (hcmd : cmdOf i = some (h, op)) (s : State) :
    op ≠ 0x30 ∧ ∃ f, exec i s = command s h op isOpen f := by
  unfold cmdOf at hcmd
  split at hcmd <;> cases hcmd <;> exact ⟨by decide, _, rfl⟩

theorem isOpen_eq_false {st : CtxState} (h : st = .opening ∨ st = .closing) : isOpen st = false := by
  obtain rfl | rfl := h <;> rfl

/-- Settles O25: every command of an open context goes through the checks of the link, the association and the context. -/
theorem commandsRefused : Obligations.CommandsRefused := by
  intro i h op s hcmd
  obtain ⟨hport, f, hexec⟩ := exec_of_cmdOf hcmd s
  rw [hexec]
  refine ⟨fun hfw hout => associated_of_silent (arrives_eq_false hfw hport hout) _,
    fun harr hfw hno => associated_of_stranger harr hfw hno _,
    fun hr => ⟨command_of_noContext f hr, fun c hc => ⟨command_of_foreign f hc hr, fun heq hst => ?_⟩⟩⟩
  exact command_of_untaken f hc hr heq (isOpen_eq_false hst)

end Sys2Proof.Machine
end

section
/-! PROOFS. The port commands, ATTEST and malformed commands, and the link events (R413 to R416, R424, R426, R452, R453). -/

namespace Sys2Proof.Machine
open Sys2Proof.Claim

/-! ### Port commands -/

section
variable {s : State} {h : Hdr} {op : Nat}

theorem reaches_of_arrives (ha : Arrives s h) (op : Nat) : Reaches s h op := ⟨arrives_of_arrives_zero ha.1 op, ha.2⟩

/-- A port command names context id 0 (R426). -/
theorem portCommand_of_context (hr : Reaches s h op) (hctx : h.ctx ≠ 0) (l : Nat) (f : Link → Reply) :
    portCommand s h op l f = .next (reply s h op 5 []) := by
  rw [portCommand, associated_of_reaches hr, if_pos hctx, sent_refuse]

theorem portCommand_of_link (hr : Reaches s h op) (hctx : h.ctx = 0) {l : Nat} (hl : l < 8) (f : Link → Reply) :
    portCommand s h op l f = .next (sent h op (f (linkOf s l))) := by
  rw [portCommand, associated_of_reaches hr, if_neg (not_not.2 hctx), if_neg (Nat.not_le.2 hl)]

theorem exec_portquery (l : Nat) : exec (.portquery h l) s = portCommand s h 0x30 l fun x =>
    ok s [u64 (x.st.code + x.lanes * 2 ^ 8 + x.errors * 2 ^ 32)] := rfl

theorem exec_portup (l : Nat) : exec (.portup h l) s = portCommand s h 0x31 l fun x =>
    if x.st = .down then ok (setLink s l { x with st := .training, attempts := 0 }) [] else refuse s 2 := rfl

theorem exec_portdrain (l : Nat) : exec (.portdrain h l) s = portCommand s h 0x32 l fun x =>
    if x.isUp then ok (setLink s l { x with st := .draining }) [] else refuse s 2 := rfl

theorem exec_setport (l : Nat) (a : BitVec 32) (b : BitVec 128) : exec (.setport h l a b) s = portCommand s h 0x33 l fun x =>
    ok (setLink s l { x with ipv4 := a, ipv6 := b }) [] := rfl

theorem Link.isUp_iff {x : Link} : x.isUp = true ↔ x.st = .up ∨ x.st = .degraded := by rw [Link.isUp, decide_eq_true_eq]

/-! ### ATTEST and malformed commands -/

theorem attestArrives_eq_false (h' : anyLinkUp s = false ∨ h.mode = .uud) : attestArrives s h = false := by
  obtain hdown | huud := h'
  · rw [attestArrives, hdown, Bool.false_and]
  · rw [attestArrives, huud, decide_eq_false (not_not.2 rfl), Bool.and_false]

theorem attestArrives_eq_true (hup : anyLinkUp s = true) (hmode : h.mode ≠ .uud) : attestArrives s h = true := by
  rw [attestArrives, hup, decide_eq_true hmode, Bool.and_self]

/-- What an ATTEST that arrives comes to (R452, R453). -/
theorem exec_attest (harr : attestArrives s h = true) (nonce : BitVec 384) : exec (.attest h nonce) s =
    .next (if h.ctx ≠ 0 then reply s h 0x38 4 [] else if s.fw.canSign = false then reply s h 0x38 1 [] else
      { s with fw := { s.fw with reports := s.fw.reports + 1, liveReports := s.fw.liveReports ++ [s.fw.reports + 1] }
               answers := s.answers ++ [.report h (reportBytes s (s.fw.reports + 1) nonce ++ Config.certChain)] }) := by
  change Host.Outcome.next (attest s h nonce) = _
  rw [attest, harr]
  simp only [Bool.not_true, Bool.false_eq_true, if_false, Bool.not_eq_true']

theorem exec_attest_silent (harr : attestArrives s h = false) (nonce : BitVec 384) : exec (.attest h nonce) s = .next s := by
  change Host.Outcome.next (attest s h nonce) = _
  rw [attest, harr]
  rfl

theorem exec_badCommand_attest : exec (.badCommand h 0x38) s = .next (if attestArrives s h then reply s h 0x38 4 [] else s) := rfl

/-- A malformed command answers 4, unless it names a context of another association (R423, R424). -/
theorem exec_badCommand {op : BitVec 16} (hr : Reaches s h op.toNat) (hop : op ≠ 0x38)
    (hown : h.ctx = 0 ∨ ∀ c, mget s.contexts h.ctx.toNat = some c → c.assoc = h.assoc) :
    exec (.badCommand h op) s = .next (reply s h op.toNat 4 []) := by
  have hnot : ((mget s.contexts h.ctx.toNat).any (fun c => decide (c.assoc ≠ h.assoc)) && decide (h.ctx ≠ 0)) = false := by
    obtain hzero | hall := hown
    · rw [decide_eq_false (not_not.2 hzero), Bool.and_false]
    · rw [(Option.any_eq_false _ _).2 fun c hc => decide_eq_false (not_not.2 (hall c hc)), Bool.false_and]
  change execBadCommand h op s = _
  rw [execBadCommand, if_neg hop, associated_of_reaches hr, hnot]
  rfl

end

theorem portCommandsComplete : PortCommandsComplete := by
  intro h s
  refine ⟨fun hr l => ?_, fun ha l => ?_, fun hout nonce => ?_, fun hup hmode nonce => ?_, fun op hr hop hown => exec_badCommand hr hop hown⟩
  · rw [exec_portquery]
    exact ⟨fun hctx => portCommand_of_context hr hctx l _, fun hctx hl => portCommand_of_link hr hctx hl _⟩
  · have hr := reaches_of_arrives ha
    rw [exec_portup, exec_portdrain]
    refine ⟨fun hctx a b => ?_, fun hctx hl x hx => ?_⟩
    · rw [exec_setport]
      exact ⟨portCommand_of_context (hr _) hctx l _, portCommand_of_context (hr _) hctx l _, portCommand_of_context (hr _) hctx l _⟩
    · subst hx
      rw [portCommand_of_link (hr _) hctx hl, portCommand_of_link (hr _) hctx hl, sent_ite, sent_ite, if_congr Link.isUp_iff rfl rfl]
      exact ⟨rfl, rfl, fun a b => (exec_setport l a b).trans (portCommand_of_link (hr _) hctx hl _)⟩
  · have harr := attestArrives_eq_false hout
    exact ⟨exec_attest_silent harr nonce, by rw [exec_badCommand_attest, harr]; rfl⟩
  · have harr := attestArrives_eq_true hup hmode
    refine ⟨fun hctx => ?_, fun hctx hsign => ?_, fun hctx hsign => ?_, by rw [exec_badCommand_attest, harr, if_pos rfl]⟩
    · rw [exec_attest harr, if_pos hctx]
    · rw [exec_attest harr, if_neg (not_not.2 hctx), if_pos hsign]
    · rw [exec_attest harr, if_neg (not_not.2 hctx), hsign]
      rfl

/-! ### Link events -/

section
variable {s : State} {l : Nat} (hl : l < 8)
include hl

/-- An event of a link of the module moves it where its state takes the event, and changes nothing otherwise (Table 18.2). -/
theorem linkEvent_of_link {takes : LinkState → Bool} {p : Prop} [Decidable p] (hp : takes (linkOf s l).st = true ↔ p) (f : Link → Link) :
    linkEvent s l takes f = .next (if p then Claim.moved s l (f (linkOf s l)) else s) :=
  congrArg Host.Outcome.next (if_congr ((and_iff_right hl).trans hp) rfl rfl)

/-- TRAINED, with 4 to 8 good lanes. -/
theorem exec_trained (n : Nat) : exec (.trained l n) s = .next (if (linkOf s l).st = .training ∧ 4 ≤ n ∧ n ≤ 8
    then Claim.moved s l { linkOf s l with st := if n = 8 then .up else .degraded, lanes := n, attempts := 0 } else s) := by
  change execTrained l n s = _
  rw [execTrained, linkEvent_of_link hl (by rw [Bool.and_eq_true, decide_eq_true_eq, decide_eq_true_eq])]

/-- TRAIN_FAIL, the third of which takes the link down. -/
theorem exec_trainFail : exec (.trainFail l) s = .next (if (linkOf s l).st = .training then Claim.moved s l (if 2 ≤ (linkOf s l).attempts
    then gone (linkOf s l) else { linkOf s l with attempts := (linkOf s l).attempts + 1 }) else s) := by
  change execTrainFail l s = _
  rw [execTrainFail, linkEvent_of_link hl decide_eq_true_iff]
  rfl

theorem exec_laneLoss (n : Nat) : exec (.laneLoss l n) s = .next (if (linkOf s l).st = .up ∧ 4 ≤ n ∧ n ≤ 7
    then Claim.moved s l { linkOf s l with st := .degraded, lanes := n } else s) := by
  change execLaneLoss l n s = _
  rw [execLaneLoss, linkEvent_of_link hl (by rw [Bool.and_eq_true, decide_eq_true_eq, decide_eq_true_eq])]

theorem exec_laneRegain : exec (.laneRegain l) s = .next (if (linkOf s l).st = .degraded
    then Claim.moved s l { linkOf s l with st := .up, lanes := 8 } else s) := by
  change execLaneRegain l s = _
  rw [execLaneRegain, linkEvent_of_link hl decide_eq_true_iff]

/-- DRAINED, once the link carries no access of the module. -/
theorem exec_drained : exec (.drained l) s = .next (if (linkOf s l).st = .draining ∧ (∀ r ∈ s.remotes, r.link ≠ some l)
    then Claim.moved s l (gone (linkOf s l)) else s) := by
  have hnone : (!s.remotes.any fun r => decide (r.link = some l)) = true ↔ ∀ r ∈ s.remotes, r.link ≠ some l := by
    simp only [Bool.not_eq_true', List.any_eq_false, decide_eq_true_eq, ne_eq]
  change execDrained l s = _
  rw [execDrained, linkEvent_of_link hl (by rw [Bool.and_eq_true, decide_eq_true_eq, hnone])]
  rfl

theorem exec_signalLoss : exec (.signalLoss l) s = .next (if (linkOf s l).st = .down then s else Claim.moved s l (gone (linkOf s l))) := by
  change execSignalLoss l s = _
  rw [execSignalLoss, linkEvent_of_link hl decide_eq_true_iff, ite_not]
  rfl

theorem exec_unsupportedOptionPacket : exec (.unsupportedOptionPacket l) s =
    .next (if (linkOf s l).st = .up ∨ (linkOf s l).st = .degraded ∨ (linkOf s l).st = .draining
      then Claim.moved s l { linkOf s l with errors := ((linkOf s l).errors + 1) % 2 ^ 32 } else s) := by
  change execUnsupportedOptionPacket l s = _
  rw [execUnsupportedOptionPacket, linkEvent_of_link hl decide_eq_true_iff]

end

theorem linkEventsComplete : LinkEventsComplete := by
  intro s l hl x hx
  subst hx
  exact ⟨exec_trained hl, exec_trainFail hl, exec_laneLoss hl, exec_laneRegain hl, exec_drained hl, exec_signalLoss hl,
    exec_unsupportedOptionPacket hl⟩

/-- Settles O36: a port command of context 0 acts on its link, and each event moves a link from the states that take it. -/
theorem linksComplete : Obligations.LinksComplete := ⟨portCommandsComplete, linkEventsComplete⟩

end Sys2Proof.Machine
end

section
/-! PROOFS. The module after reset (R413, R428, R435 to R437, R451). -/

namespace Sys2Proof.Machine

/-- After reset no link and no cluster is listed: each is as its own initial value has it. -/
theorem linkOf_reset (l : Nat) : linkOf State.reset l = Link.initial := rfl
theorem clusterOf_reset (c : Nat) : clusterOf State.reset c = Cluster.initial := rfl

theorem scratchOk_reset : ScratchOk State.reset := ⟨fun _ hp => absurd hp List.not_mem_nil, fun _ hc => absurd hc List.not_mem_nil⟩

/-- Settles O53: links and clusters are the initial ones, and nothing else is there. -/
theorem resetState : Obligations.ResetState := by
  refine ⟨fun l _ => ?links, fun c _ => ?clusters, rfl, fun _ => rfl, fun _ => rfl, rfl, scratchOk_reset⟩
  case links => rw [linkOf_reset]; rfl
  case clusters => rw [clusterOf_reset]; exact ⟨rfl, rfl, rfl, rfl, rfl⟩

end Sys2Proof.Machine
end

section
/-! PROOFS. A trap in handler mode, and the return to HANDLER (R352, R355, R404). -/

namespace Sys2Proof.Machine
open Sys2Proof.Claim

/-- A trap in handler mode parks the group as it stands, with the record of the inner trap (R352). -/
theorem takeTrap_of_handling {s : State} {gid : Nat} {g : Group} (hg : mget s.groups gid = some g) (hh : g.handling = true)
    (t : TrapInfo) (mask : BitVec 32) (i : Issue) : takeTrap s gid t mask i =
      postRecord (setGroup s gid { g with st := .parked true }) g.ctx (parkRecord g t (hcauseOf t.cause mask) (hpcOf i)) := by
  simp only [takeTrap, hg, hh, if_true]

theorem parkRecord_page {t : TrapInfo} (ht : t.cause = 3) (g : Group) (hcause hpc : DWord) : parkRecord g t hcause hpc =
    { source := 0, cause := t.cause, access := t.access, vaddr := t.haddr, group := handleOf g, hcause := hcause, hpc := hpc, detail := 0 } := by
  rw [parkRecord, if_pos ht, ht]

theorem parkRecord_other {t : TrapInfo} (ht : t.cause ≠ 3) (g : Group) (hcause hpc : DWord) : parkRecord g t hcause hpc =
    { source := 6, cause := t.cause, access := 0, vaddr := if addrCause t.cause then t.haddr else 0, group := handleOf g,
      hcause := hcause, hpc := hpc, detail := t.haddr } := if_neg ht

/-- Settles O55: the park keeps the group but for its state, the record is that of the inner trap, and RESUME takes the state back. -/
theorem trapInHandlerParks : Obligations.TrapInHandlerParks := by
  intro s gid g t mask i hg hh
  refine ⟨⟨_, takeTrap_of_handling hg hh t mask i, ?_⟩, fun s' g' _ => rfl⟩
  by_cases ht : t.cause = 3
  · rw [parkRecord_page ht]
    exact ⟨rfl, rfl, rfl, rfl, fun _ => ⟨rfl, rfl⟩, fun hne => absurd ht hne⟩
  · rw [parkRecord_other ht]
    exact ⟨rfl, rfl, rfl, rfl, fun heq => absurd heq ht, fun _ => ⟨rfl, rfl⟩⟩

end Sys2Proof.Machine
end

section
/-! PROOFS. Operating points, the droop response and the release waves of a cluster (R379, R428 to R436). -/

namespace Sys2Proof.Machine
open Sys2Proof.Claim

section
variable {s : State} {n : Nat}

/-! ### The span firmware -/

section
variable (hstep : 3 ≤ s.fw.step) (hn : n < 144)
include hstep hn

theorem exec_capChange (cap : Nat) :
    exec (.capChange n cap) s = .next (setCluster s n { clusterOf s n with cap := some cap, capMoved := true }) :=
  congrArg Host.Outcome.next (if_neg (by omega))

theorem exec_spanFirmwareClusterSetting (v : ClusterSetting) :
    exec (.spanFirmwareClusterSetting n v) s = .next (spanSetting s n v) :=
  congrArg Host.Outcome.next (if_neg (by omega))

end

theorem spanSetting_target {p : OpPoint} (hp : LegalPoint p) :
    spanSetting s n (.target p) = setCluster s n { clusterOf s n with mailbox := some p } := if_pos ((pointOk_iff p).2 hp)

theorem spanSetting_cslr {v : Word} (hv : v &&& ~~~0xFF3F#32 = 0) :
    spanSetting s n (.cslr v) = setCluster s n { clusterOf s n with cslr := v } := if_pos hv

theorem spanSetting_ddtr {v : Word} (hlow : 10 ≤ v.toNat) (hhigh : v.toNat ≤ 100) :
    spanSetting s n (.ddtr v) = setCluster s n { clusterOf s n with ddtr := v } := if_pos ⟨hlow, hhigh⟩

/-! ### Changes -/

theorem rampNs_rise {a b : Nat} (h : a ≤ b) : rampNs a b = 100 * (b - a) := by rw [rampNs, Nat.sub_eq_zero_of_le h, Nat.zero_add]
theorem rampNs_fall {a b : Nat} (h : b ≤ a) : rampNs a b = 100 * (a - b) := by rw [rampNs, Nat.sub_eq_zero_of_le h, Nat.add_zero]

/-- A change begins where none is in progress and a target or a cap has come, unless its goal is the point in force (R429 step 1). -/
theorem exec_opChangeStart (hfree : (clusterOf s n).change = none)
    (hnew : (clusterOf s n).mailbox ≠ none ∨ (clusterOf s n).capMoved = true) {target : OpPoint}
    (ht : target = (clusterOf s n).mailbox.getD (clusterOf s n).target) (hgoal : effective target (clusterOf s n).cap ≠ (clusterOf s n).point) :
    exec (.opChangeStart n) s =
      .next (setCluster s n (changing (clusterOf s n) target (effective target (clusterOf s n).cap) s.tstamp)) := by
  have hgo : ¬ ((clusterOf s n).change.isSome = true ∨ (clusterOf s n).mailbox.isNone = true ∧ (clusterOf s n).capMoved = false) := by
    rintro (hbusy | ⟨hempty, hstill⟩)
    · rw [hfree] at hbusy; exact Bool.false_ne_true hbusy
    · obtain hmail | hcap := hnew
      · exact hmail (Option.isNone_iff_eq_none.1 hempty)
      · exact Bool.false_ne_true (hstill.symm.trans hcap)
  subst ht
  change Host.Outcome.next (opChangeStart s n) = _
  rw [opChangeStart]
  simp only [if_neg hgo, if_neg hgoal]
  rfl

section
variable {x : Change} (hx : (clusterOf s n).change = some x)
include hx

/-- The supply has risen once 100 ns for each mV are over, and the relock begins (R429 step 2). -/
theorem exec_supplyRampDone_up (hphase : x.phase = .rampUp) (hrise : (clusterOf s n).point.vmv ≤ x.goal.vmv)
    (htime : x.since + 100 * (x.goal.vmv - (clusterOf s n).point.vmv) ≤ s.tstamp) : exec (.supplyRampDone n) s =
      .next (setCluster s n { clusterOf s n with change := some { x with phase := .relock, since := s.tstamp } }) := by
  rw [← rampNs_rise hrise] at htime
  change Host.Outcome.next (supplyRampDone s n) = _
  rw [supplyRampDone]
  simp only [hx, if_neg (Nat.not_lt.2 htime), hphase]

/-- The supply has fallen once 100 ns for each mV are over, and the change ends (R429 step 4). -/
theorem exec_supplyRampDone_down (hphase : x.phase = .rampDown) (hfall : x.goal.vmv ≤ (clusterOf s n).point.vmv)
    (htime : x.since + 100 * ((clusterOf s n).point.vmv - x.goal.vmv) ≤ s.tstamp) : exec (.supplyRampDone n) s =
      .next (endChange s n x.goal x.capped) := by
  rw [← rampNs_fall hfall] at htime
  change Host.Outcome.next (supplyRampDone s n) = _
  rw [supplyRampDone]
  simp only [hx, if_neg (Nat.not_lt.2 htime), hphase]

/-- A relock is over after 1000 ns; the supply falls last (R429 steps 3 and 4). -/
theorem exec_relockDone (hphase : x.phase = .relock) (htime : x.since + 1000 ≤ s.tstamp) : exec (.relockDone n) s =
      .next (if x.goal.vmv < (clusterOf s n).point.vmv
        then setCluster s n { clusterOf s n with change := some { x with phase := .rampDown, since := s.tstamp } }
        else endChange s n x.goal x.capped) := by
  have hover : ¬ (x.phase ≠ .relock ∨ s.tstamp < x.since + 1000) := by rw [hphase]; simp only [ne_eq, not_true_eq_false, false_or]; omega
  change Host.Outcome.next (relockDone s n) = _
  rw [relockDone]
  simp only [hx, if_neg hover]

end
end

theorem operatingPointEventsComplete : OperatingPointEventsComplete := by
  intro s n c hc
  subst hc
  refine ⟨fun hstep hn => ⟨exec_capChange hstep hn, fun p hp => ?_, fun v hv => ?_, fun v hlow hhigh => ?_⟩,
    fun hfree hnew target goal ht hg hne => ?_, fun x hx => ⟨fun hphase htime hrise => exec_supplyRampDone_up hx hphase hrise htime,
      fun hphase htime hfall => exec_supplyRampDone_down hx hphase hfall htime, exec_relockDone hx⟩⟩
  · rw [exec_spanFirmwareClusterSetting hstep hn, spanSetting_target hp]
  · rw [exec_spanFirmwareClusterSetting hstep hn, spanSetting_cslr hv]
  · rw [exec_spanFirmwareClusterSetting hstep hn, spanSetting_ddtr hlow hhigh]
  · have hgoal : goal = effective target (clusterOf s n).cap := hg
    subst hgoal
    exact exec_opChangeStart hfree hnew ht hne

/-! ### The droop response -/

section
variable {c : Cluster} {t : Nat}

/-- An alarm of lane cycle `t` stretches the cycles up to `t + 6` (R436 step 1). -/
theorem Cluster.droopNow_stretch (h : c.droop = .stretch t) (hin : c.cycle < t + 7) : c.droopNow = .stretch t := by
  simp only [droopNow, h, if_pos hin]

/-- The window follows the stretch, from `t + 7` to `t + 70` (R436 step 2). -/
theorem Cluster.droopNow_window (h : c.droop = .stretch t) (hover : t + 7 ≤ c.cycle) (hin : c.cycle < t + 71) :
    c.droopNow = .window (t + 7) := by
  simp only [droopNow, h, if_neg (Nat.not_lt.2 hover), if_pos hin]

theorem Cluster.droopNow_ne_stretch (h : ∀ t, c.droop = .stretch t → t + 7 ≤ c.cycle) (t : Nat) : c.droopNow ≠ .stretch t := by
  unfold droopNow
  split
  · next u hu =>
    rw [if_neg (Nat.not_lt.2 (h u hu))]
    split <;> exact Droop.noConfusion
  · split <;> exact Droop.noConfusion
  · exact Droop.noConfusion

end

section
variable {s : State} {n : Nat}

/-- An alarm outside a stretch begins one (R436). -/
theorem exec_droopAlarm (hrun : (clusterOf s n).relocking = false)
    (hout : ∀ t, (clusterOf s n).droop = .stretch t → t + 7 ≤ (clusterOf s n).cycle) :
    exec (.droopAlarm n) s = .next (setCluster s n { clusterOf s n with droop := .stretch (clusterOf s n).cycle }) := by
  change Host.Outcome.next (droopAlarm s n) = _
  simp only [droopAlarm, hrun, Bool.false_eq_true, if_false]
  split
  · next t ht => exact absurd ht (Cluster.droopNow_ne_stretch hout t)
  · rfl

theorem exec_droopAlarm_relocking (hrun : (clusterOf s n).relocking = true) : exec (.droopAlarm n) s = .next s :=
  congrArg Host.Outcome.next (if_pos hrun)

/-- An alarm within a stretch does nothing more. -/
theorem exec_droopAlarm_stretched {t : Nat} (h : (clusterOf s n).droopNow = .stretch t) : exec (.droopAlarm n) s = .next s := by
  change Host.Outcome.next (droopAlarm s n) = _
  simp only [droopAlarm, h, ite_self]

theorem exec_droopStretchEnd {t : Nat} (h : (clusterOf s n).droop = .stretch t) : exec (.droopStretchEnd n) s =
    .next (if t + 7 ≤ (clusterOf s n).cycle then setCluster s n { clusterOf s n with droop := (clusterOf s n).droopNow } else s) := by
  change Host.Outcome.next (droopStretchEnd s n) = _
  simp only [droopStretchEnd, h]

theorem exec_droopWindowEnd {t : Nat} (h : (clusterOf s n).droop = .window t) : exec (.droopWindowEnd n) s =
    .next (if t + 64 ≤ (clusterOf s n).cycle then setCluster s n { clusterOf s n with droop := .idle } else s) := by
  change Host.Outcome.next (droopWindowEnd s n) = _
  simp only [droopWindowEnd, h]

/-! ### Release waves -/

theorem exec_releaseWave_relocking (hrun : (clusterOf s n).relocking = true) : exec (.releaseWave n) s = .next s := by
  change Host.Outcome.next (releaseWave s n) = _
  simp only [releaseWave, hrun, Bool.not_true, Bool.and_false, Bool.false_and, Bool.false_eq_true, if_false]

/-- A wave may leave: GAP lane cycles after the one before, and in a later one even where GAP is 0 (R379, R435). -/
theorem exec_releaseWave (hrun : (clusterOf s n).relocking = false) : exec (.releaseWave n) s =
    .next (if (clusterOf s n).waveQ ≠ [] ∧
        (∀ t, (clusterOf s n).lastWave = some t → t + max 1 (gapOf (clusterOf s n).cslr) ≤ (clusterOf s n).cycle)
      then setCluster s n { clusterOf s n with
        waveQ := (clusterOf s n).waveQ.drop (waveOf (clusterOf s n).cslr), lastWave := some (clusterOf s n).cycle } else s) := by
  change Host.Outcome.next (releaseWave s n) = _
  refine congrArg Host.Outcome.next (if_congr ?_ rfl rfl)
  rw [hrun, Bool.not_false, Bool.and_true, Bool.and_eq_true, Bool.not_eq_true', List.isEmpty_eq_false_iff, and_comm]
  refine and_congr_right fun _ => ?_
  cases (clusterOf s n).lastWave with
  | none => exact iff_of_true rfl fun t ht => nomatch ht
  | some t => rw [decide_eq_true_iff]; exact ⟨fun h u hu => Option.some.inj hu ▸ h, fun h => h t rfl⟩

end

theorem droopAndWaveEventsComplete : DroopAndWaveEventsComplete := by
  intro s n c hc
  subst hc
  refine ⟨exec_droopAlarm, fun t ht => ⟨fun hin => ?_, fun hover hin => ?_⟩, fun t ht => ⟨fun hover => ?_, fun hin => ?_⟩,
    fun hrun => ⟨exec_droopAlarm_relocking hrun, exec_releaseWave_relocking hrun⟩, exec_releaseWave⟩
  · exact ⟨exec_droopAlarm_stretched (Cluster.droopNow_stretch ht hin), by rw [exec_droopStretchEnd ht, if_neg (Nat.not_le.2 hin)]⟩
  · rw [exec_droopStretchEnd ht, if_pos hover, Cluster.droopNow_window ht hover hin]
  · rw [exec_droopWindowEnd ht, if_pos hover]
  · rw [exec_droopWindowEnd ht, if_neg (Nat.not_le.2 hin)]

/-- Settles O38: a change goes through its phases in their times, and droops and waves by the cluster's lane cycles. -/
theorem clusterEventsComplete : Obligations.ClusterEventsComplete := ⟨operatingPointEventsComplete, droopAndWaveEventsComplete⟩

end Sys2Proof.Machine
end

section
/-! PROOFS. Team barriers (R360 to R362). -/

namespace Sys2Proof.Machine
open Sys2Proof.Claim

section
variable {s : State} {g : Group} {tid : Nat} {t : Team} {b : BitVec 4}

/-! ### What an issue at a barrier comes to -/

/-- An issue whose arrival may be made now: it has not waited, or its wait for an earlier phase is over (R362). -/
def MayArrive (s : State) (g : Group) (t : Team) (b : BitVec 4) (n : BitVec 6) : Prop :=
  (Fresh s g ∧ n.toNat ≤ t.ngrp) ∨ ∃ (b' : BitVec 4) (ph : BitVec 16), issueWait s g = some (.bar b' ph false) ∧ barHeld s g t b ph = false

variable (hi : Issues s g) (ht : TeamOf s g tid t)
include hi ht

theorem barStep_arrives {n : BitVec 6} (hmay : MayArrive s g t b n) (sync : Bool) : barStep s sync b n = barArrive s g tid t sync b n := by
  rw [barStep, issuer_bind hi, issuerTeam_bind ht]
  obtain ⟨hfresh, hn⟩ | ⟨b', ph, hwait, hopen⟩ := hmay
  · rw [show issueWait s g = none from hfresh]
    exact need_bind (decide_eq_true hn) _
  · simp only [hwait, hopen, Bool.false_eq_true, if_false]

/-- The wait for the phase that the issue's own arrival is counted in is over (R361, R379). -/
theorem barStep_released {b' : BitVec 4} {ph : BitVec 16} (hwait : issueWait s g = some (.bar b' ph true))
    (hopen : barHeld s g t b ph = false) (sync : Bool) (n : BitVec 6) : barStep s sync b n = .ok (done s g) := by
  rw [barStep, issuer_bind hi, issuerTeam_bind ht]
  simp only [hwait, hopen, Bool.false_eq_true, if_false]

/-! ### BAR.WAIT -/

theorem exec_barWait_open (hfresh : Fresh s g) {ph : BitVec 16} (hlast : t.bars[barIdx b].last[g.gid % 32]! = some ph)
    (hne : ph ≠ barPhase t b) : exec (.barWait b) s = .next (done s g) := by
  change finish (barWaitStep s b) = _
  rw [barWaitStep, issuer_bind hi, issuerTeam_bind ht, show issueWait s g = none from hfresh]
  simp only [hlast]
  exact congrArg finish (if_neg hne)

theorem exec_barWait_released {b' : BitVec 4} {ph : BitVec 16} {counted : Bool} (hwait : issueWait s g = some (.bar b' ph counted))
    (hopen : barHeld s g t b ph = false) : exec (.barWait b) s = .next (done s g) := by
  change finish (barWaitStep s b) = _
  rw [barWaitStep, issuer_bind hi, issuerTeam_bind ht]
  simp only [hwait, hopen, Bool.false_eq_true, if_false]
  rfl

end

/-! ### The arrival -/

section
variable {s : State} {g : Group} {tid : Nat} {t : Team} {b : BitVec 4}

/-- A group that has arrived in the phase waits for the next one (R362). -/
theorem barArrive_again (hlast : t.bars[barIdx b].last[g.gid % 32]! = some (barPhase t b)) (sync : Bool) (n : BitVec 6) :
    finish (barArrive s g tid t sync b n) = .next (holdCohort s (.bar b (barPhase t b) false)) := by
  exact congrArg finish (if_pos hlast)

/-- Whether an arrival has opened its phase; a team that its end has taken away waits for nothing. -/
def phaseOpened (s' : State) (tid : Nat) (t : Team) (b : BitVec 4) : Bool :=
  match mget s'.teams tid with
  | some t' => barPhase t' b != barPhase t b
  | none => true

theorem phaseOpened_of_phase {s' : State} {t' : Team} (ht' : mget s'.teams tid = some t') (hne : barPhase t' b ≠ barPhase t b) :
    phaseOpened s' tid t b = true := by
  rw [phaseOpened, ht']
  exact bne_iff_ne.2 hne

variable {n : BitVec 6} (hlast : t.bars[barIdx b].last[g.gid % 32]! ≠ some (barPhase t b))
  (hn : t.bars[barIdx b].m = 0 ∨ t.bars[barIdx b].n = n.toNat)
include hlast hn

/-- A first arrival in the phase is counted in, and a BAR.SYNC waits unless it is the last (R361, R362). -/
theorem barArrive_first (sync : Bool) : barArrive s g tid t sync b n =
    if sync && !phaseOpened (checkBar (withArrival s tid t g b n) tid (barIdx b)) tid t b
    then .error (.hold (checkBar (withArrival s tid t g b n) tid (barIdx b)) (.bar b (barPhase t b) true))
    else .ok (doneNow (checkBar (withArrival s tid t g b n) tid (barIdx b))) := by
  have hcount : barArrive s g tid t sync b n = barCount s g tid t sync b n := if_neg hlast
  rw [hcount]
  exact need_bind (by simpa using hn) _

theorem exec_firstArrive (hstep : barStep s false b n = barArrive s g tid t false b n) :
    exec (.barArrive b n) s = .next (doneNow (checkBar (withArrival s tid t g b n) tid (barIdx b))) := by
  change finish (barStep s false b n) = _
  rw [hstep, barArrive_first hlast hn]
  rfl

/-- BAR.SYNC goes on when its own arrival opened the phase (R362). -/
theorem exec_lastSync (hstep : barStep s true b n = barArrive s g tid t true b n) {t' : Team}
    (ht' : mget (checkBar (withArrival s tid t g b n) tid (barIdx b)).teams tid = some t') (hopen : barPhase t' b ≠ barPhase t b) :
    exec (.barSync b n) s = .next (doneNow (checkBar (withArrival s tid t g b n) tid (barIdx b))) := by
  change finish (barStep s true b n) = _
  rw [hstep, barArrive_first hlast hn, phaseOpened_of_phase ht' hopen]
  rfl

end

/-- Settles O20: an issue that may arrive is counted in or waits for the next phase, and one whose wait is over goes on. -/
theorem teamBarriersComplete : Obligations.TeamBarriersComplete := by
  intro s g tid t b n hi ht
  refine ⟨fun hmay => ?_, fun b' ph hwait hopen => ?_, fun hfresh ⟨ph, hlast, hne⟩ => exec_barWait_open hi ht hfresh hlast hne,
    fun b' ph counted hwait hopen => exec_barWait_released hi ht hwait hopen⟩
  · have hstep := barStep_arrives hi ht hmay
    refine ⟨fun hlast => ⟨?_, ?_⟩, fun hlast hn => ⟨exec_firstArrive hlast hn (hstep false), fun t' => exec_lastSync hlast hn (hstep true)⟩⟩
    · exact (congrArg finish (hstep false)).trans (barArrive_again hlast false n)
    · exact (congrArg finish (hstep true)).trans (barArrive_again hlast true n)
  · exact congrArg finish (barStep_released hi ht hwait hopen true n)

end Sys2Proof.Machine
end

section
/-! PROOFS. Transaction barriers (R363 to R366). -/

namespace Sys2Proof.Machine
open Sys2Proof.Claim

section
variable {s : State} {g : Group} {tid : Nat} {t : Team} {a : BitVec 5} {off : Nat}

/-! ### The barrier that a register names -/

theorem tbarCheck_ok (hat : TbarAt s g tid t a off) : tbarCheck s tid t (g.rdW a.toNat) = .ok off := by
  obtain ⟨-, rfl, halign, hrange, hwindow, hspilled, hseq⟩ := hat
  have hhere : (anySpilled t [(g.rdW a.toNat).toNat / 256] || seqPending s t.core s.cur.group tid [(g.rdW a.toNat).toNat / 256]) = false := by
    rw [hseq, Bool.or_false, anySpilled, List.any_cons, List.any_nil, hspilled]
    rfl
  simp only [tbarCheck, if_neg (not_not.2 halign), hrange, hwindow, hhere, Bool.not_true, Option.isSome_none, Bool.false_eq_true, if_false]

variable (hi : Issues s g) (hat : TbarAt s g tid t a off)
include hi hat

/-- A minor with its registers free finds its barrier (R363). -/
theorem tbarReady_bind {reads writes : List Nat} (hfree : UniFree s g (a.toNat :: reads) writes) (k : Group × Nat × Team × Nat → R State) :
    (tbarReady s a reads writes >>= k) = k (g, tid, t, off) := by
  have hready : tbarReady s a reads writes = .ok (g, tid, t, off) := by
    rw [tbarReady, issuer_bind hi, issuerTeam_bind hat.1]
    simp only [bind, Except.bind, useW_ok hfree, tbarCheck_ok hat]
  rw [hready]
  rfl

/-! ### The minors -/

theorem exec_tbarInit {r : BitVec 5} (hfree : UniFree s g [a.toNat, r.toNat] []) (hlt : (g.rdW r.toNat).toNat < 2 ^ 20) :
    exec (.tbarInit r a) s = .next (doneNow (updTbar s tid off fun _ =>
      { phase := 0, arrivals := (g.rdW r.toNat).truncate 20, sectors := 0, acks := 0, reload := (g.rdW r.toNat).truncate 20, err := false })) := by
  change finish (tbarInitStep s r a) = _
  rw [tbarInitStep, tbarReady_bind hi hat hfree]
  exact congrArg finish (need_bind (decide_eq_true hlt) _)

theorem exec_tbarExpect {r : BitVec 5} (hfree : UniFree s g [a.toNat, r.toNat] []) (hlt : (g.rdW r.toNat).toNat < 2 ^ 32) :
    exec (.tbarExpect r a) s = .next (doneNow (updTbar s tid off fun b =>
      { b with sectors := b.sectors + (g.rdW r.toNat).truncate 32 })) := by
  change finish (tbarExpectStep s r a) = _
  rw [tbarExpectStep, tbarReady_bind hi hat hfree]
  exact congrArg finish (need_bind (decide_eq_true hlt) _)

theorem exec_tbarArrive {d : Option (BitVec 5)} (hfree : UniFree s g [a.toNat] (d.map (·.toNat)).toList) (hsome : (t.tbar off).arrivals ≠ 0) :
    exec (.tbarArrive d a) s = .next (updTbar (done s (optW g d ((t.tbar off).phase.zeroExtend 64))) tid off fun b =>
      { b with arrivals := b.arrivals - 1 }.complete) := by
  change finish (tbarArriveStep s d a) = _
  rw [tbarArriveStep, tbarReady_bind hi hat hfree]
  refine (congrArg finish (need_bind (bne_iff_ne.2 hsome) _)).trans ?_
  cases d <;> rfl

/-- An acknowledgement goes to the team of the grid that the register names (R365). -/
theorem exec_tbarAck {r : BitVec 5} (hfree : UniFree s g [a.toNat, r.toNat] []) (hlt : (g.rdW r.toNat).toNat < t.nteam.toNat) :
    exec (.tbarAck r a) s = .next (match s.teams.find? fun p => decide (p.2.grid = t.grid) && decide (p.2.index = g.rdW r.toNat) with
      | none => done s g
      | some q => done { setTeam s tid { t with unacked := dropFirst (q.1, off) t.unacked } with
          acks := s.acks ++ [{ team := q.1, off := off }] } g) := by
  change finish (tbarAckStep s r a) = _
  rw [tbarAckStep, tbarReady_bind hi hat hfree]
  refine (congrArg finish (need_bind (decide_eq_true hlt) _)).trans ?_
  cases s.teams.find? fun p => decide (p.2.grid = t.grid) && decide (p.2.index = g.rdW r.toNat) <;> rfl

/-- WAIT goes on once the phase that it names is over and, after a wait, its wave has left (R366, R379). -/
theorem exec_tbarWait {d : Option (BitVec 5)} {p : BitVec 5} (hfree : UniFree s g [a.toNat, p.toNat] (d.map (·.toNat)).toList)
    (hover : (t.tbar off).phase ≠ (g.rdW p.toNat).truncate 4)
    (hgo : Fresh s g ∨ (∃ o ph, issueWait s g = some (.tbar o ph)) ∧ inWave s s.cur.group g.core = false) :
    exec (.tbarWait d p a) s = .next (done (setTeam s tid (t.touch s.tick [off / 256]))
      (optW g d (u64 ((if (t.tbar off).err then 1 else 0) + 16 * (t.tbar off).phase.toNat)))) := by
  have hresult (s' : State) : tbarResult s' g d (t.tbar off) =
      done s' (optW g d (u64 ((if (t.tbar off).err then 1 else 0) + 16 * (t.tbar off).phase.toNat))) := by cases d <;> rfl
  have hopen : ((t.tbar off).phase == (g.rdW p.toNat).truncate 4) = false := beq_false_of_ne hover
  change finish (tbarWaitStep s d p a) = _
  rw [tbarWaitStep, tbarReady_bind hi hat hfree, ← hresult]
  obtain hfresh | ⟨⟨o, ph, hwait⟩, hwave⟩ := hgo
  · simp only [show issueWait s g = none from hfresh, if_neg hover]
    rfl
  · simp only [hwait, hwave, hopen, Bool.or_self, Bool.false_eq_true, if_false]
    rfl

end

/-- Settles O21: each minor runs once the barrier that its register names is found. -/
theorem transactionBarriersComplete : Obligations.TransactionBarriersComplete := by
  intro s g tid t a off hi hat
  refine ⟨fun r hfree => ⟨exec_tbarInit hi hat hfree, exec_tbarExpect hi hat hfree, fun hlt => ⟨fun q hq => ?_, fun hq => ?_⟩⟩,
    fun d => exec_tbarArrive hi hat, fun d p => exec_tbarWait hi hat⟩
  · rw [exec_tbarAck hi hat hfree hlt, hq]
  · rw [exec_tbarAck hi hat hfree hlt, hq]

end Sys2Proof.Machine
end

section
/-! PROOFS. The delivery of notices (R356 to R358, R403). -/

namespace Sys2Proof.Machine
open Sys2Proof.Claim

/-! ### The notice of the lowest code -/

/-- The lower of two notices, the first where they have one code. -/
def lowerNotice (b : Option (Nat × DWord)) (p : Nat × DWord) : Option (Nat × DWord) :=
  match b with
  | none => some p
  | some q => if p.1 < q.1 then some p else some q

theorem lowestNotice_eq_foldl (m : Map DWord) : lowestNotice m = m.foldl lowerNotice none := rfl

/-- A notice that none is below stays the lowest. -/
theorem foldl_lowerNotice_least (m : Map DWord) {q : Nat × DWord} (hq : ∀ p ∈ m, q.1 ≤ p.1) : m.foldl lowerNotice (some q) = some q := by
  induction m with
  | nil => rfl
  | cons p m ih =>
    rw [List.foldl_cons, show lowerNotice (some q) p = some q from if_neg (Nat.not_lt.2 (hq p List.mem_cons_self))]
    exact ih fun p' hp' => hq p' (List.mem_cons_of_mem _ hp')

/-- The first notice of the least code is found, whatever of a higher code came before. -/
theorem foldl_lowerNotice_first {code : Nat} {vec : DWord} (m : Map DWord) : ∀ b : Option (Nat × DWord), (∀ q, b = some q → code < q.1) →
    mget m code = some vec → (∀ p ∈ m, code ≤ p.1) → m.foldl lowerNotice b = some (code, vec) := by
  induction m with
  | nil => exact fun _ _ hget => nomatch hget
  | cons p m ih =>
    obtain ⟨k, v⟩ := p
    intro b hb hget hleast
    rw [List.foldl_cons]
    have hrest : ∀ p ∈ m, code ≤ p.1 := fun p' hp' => hleast p' (List.mem_cons_of_mem _ hp')
    by_cases hk : k = code
    · subst hk
      have hv : v = vec := by rw [mget, if_pos rfl] at hget; exact Option.some.inj hget
      have hstep : lowerNotice b (k, v) = some (k, v) := by
        cases b with
        | none => rfl
        | some q => exact if_pos (hb q rfl)
      rw [hstep, hv]
      exact foldl_lowerNotice_least m hrest
    · have hlt : code < k := Nat.lt_of_le_of_ne (hleast (k, v) List.mem_cons_self) (Ne.symm hk)
      have habove : ∀ q, lowerNotice b (k, v) = some q → code < q.1 := by
        intro q hq
        cases b with
        | none => cases hq; exact hlt
        | some q' =>
          rw [lowerNotice] at hq
          split at hq <;> cases hq
          · exact hlt
          · exact hb q rfl
      rw [mget, if_neg hk] at hget
      exact ih _ habove hget hrest

theorem lowestNotice_of_least {g : Group} {code : Nat} {vec : DWord} (h : LowestNotice g code vec) :
    lowestNotice g.notices = some (code, vec) := by
  rw [lowestNotice_eq_foldl]
  exact foldl_lowerNotice_first _ none (fun _ hq => nomatch hq) h.1 h.2

/-! ### When a notice is delivered -/

theorem betweenInstrs_iff {g : Group} : g.betweenInstrs = true ↔ Between g := by
  simp only [Group.betweenInstrs, Between, Bool.and_eq_true, Bool.not_eq_true', Option.isNone_iff_eq_none, Option.all_eq_true, and_assoc]

theorem noticeReady_iff {s : State} {g : Group} : noticeReady s g = true ↔ g.notices ≠ [] ∧ Deliverable s g := by
  simp only [noticeReady, Bool.and_eq_true, Bool.not_eq_true', List.isEmpty_eq_false_iff, beq_iff_eq, decide_eq_true_eq, betweenInstrs_iff,
    Option.isNone_iff_eq_none, bne_iff_ne, and_assoc, ne_eq]
  refine and_congr_right fun _ => ⟨fun ⟨hfree, hactive, hkoff, hquiet, hfold, hlive, hwaitm, hctx, hloaded, hclocks⟩ => ?_, fun h => ?_⟩
  · exact ⟨hfree, hactive, hkoff, hquiet, hfold, hlive, hwaitm, hctx, hloaded, hclocks⟩
  · exact ⟨h.free, h.active, h.koff, h.quiet, h.fold, h.live, h.waitm, h.ctx, h.loaded, h.clocks⟩

/-- The causes that come to the WAITMs of a group leave its Publish and its notices. -/
@[simp] theorem Group.wakeMonitors_publishing (g : Group) (s : State) (gid code : Nat) : (g.wakeMonitors s gid code).publishing = g.publishing := by
  rw [Group.wakeMonitors, Group.onMonitors, Group.onLanes_publishing]

@[simp] theorem Group.wakeMonitors_notices (g : Group) (s : State) (gid code : Nat) : (g.wakeMonitors s gid code).notices = g.notices := by
  rw [Group.wakeMonitors, Group.onMonitors, Group.onLanes_notices]

theorem deliver_eq_notified (s : State) (gid : Nat) (g : Group) (code : Nat) (vec : DWord) :
    g.deliver s gid code vec = notified s gid g code vec := by
  simp only [Group.deliver, notified, Group.wakeMonitors_publishing, Group.wakeMonitors_notices, Thread.toNotice]

section
variable {s : State} {gid : Nat} {g : Group} (hg : mget s.groups gid = some g)
include hg

theorem exec_noticeDelivery {code : Nat} {vec : DWord} (hlow : LowestNotice g code vec) (hd : Deliverable s g) :
    exec (.noticeDelivery gid) s = .next (enterOverlays (setGroup s gid (notified s gid g code vec)) gid) := by
  have hsome : g.notices ≠ [] := by
    intro hnil
    have hget := hlow.1
    rw [hnil] at hget
    exact nomatch hget
  change Host.Outcome.next (noticeDelivery s gid) = _
  simp only [noticeDelivery, hg, lowestNotice_of_least hlow, if_pos (noticeReady_iff.2 ⟨hsome, hd⟩), deliver_eq_notified]

theorem exec_noticeDelivery_held (h : g.notices = [] ∨ ¬ Deliverable s g) : exec (.noticeDelivery gid) s = .next s := by
  have hnot : ¬ noticeReady s g = true := by
    rw [noticeReady_iff]
    rintro ⟨hsome, hd⟩
    exact h.elim hsome fun hno => hno hd
  change Host.Outcome.next (noticeDelivery s gid) = _
  simp only [noticeDelivery, hg, if_neg hnot]
  cases lowestNotice g.notices <;> rfl

end

/-- Settles O28: the lowest pending notice is found, and delivered where it can be. -/
theorem noticeDeliveryCompletes : Obligations.NoticeDeliveryCompletes :=
  fun _ _ _ hg => ⟨fun _ _ => exec_noticeDelivery hg, exec_noticeDelivery_held hg⟩

end Sys2Proof.Machine
end

section
/-! PROOFS. RECLAIM, and the events that fold, expand and fill (R338 to R347, R429). -/

namespace Sys2Proof.Machine
open Sys2Proof.Claim

/-! ### The operand words of a RECLAIM -/

/-- No lane is named where both words of the lane mask are 0 (R338). -/
theorem namedLanes_zero : namedLanes 0 0 = [] := by
  refine List.filter_eq_nil_iff.2 fun x _ => ?_
  split <;> simp

/-- The check of the operand words (R338). -/
theorem reclaimOperands_ok {w lo hi : DWord} (h : ReclaimOk w lo hi) :
    (decide (slice w 0 10 ≤ 575) && decide (slice w 11 5 = 0 ∧ slice w 28 4 = 0 ∧ slice w 40 8 = 0 ∧ slice w 56 8 = 0) &&
      decide (slice w 32 8 ≤ 192 ∧ slice w 16 12 ≤ 2048) &&
      (!w.getLsbD 10 || ((namedLanes lo hi).isEmpty && decide (slice w 16 12 = 0 ∧ slice w 32 8 = 0)))) = true := by
  obtain ⟨hcore, h11, h28, h40, h56, hunits, hrows, hgive⟩ := h
  have hnothing : (!w.getLsbD 10 || ((namedLanes lo hi).isEmpty && decide (slice w 16 12 = 0 ∧ slice w 32 8 = 0))) = true := by
    cases hbit : w.getLsbD 10 with
    | false => rfl
    | true =>
      obtain ⟨rfl, rfl, hn, hu⟩ := hgive hbit
      rw [namedLanes_zero, decide_eq_true ⟨hn, hu⟩]
      rfl
  rw [decide_eq_true hcore, decide_eq_true ⟨h11, h28, h40, h56⟩, decide_eq_true ⟨hunits, hrows⟩, hnothing]
  rfl

/-! ### RECLAIM -/

theorem giveCore_of_free {s : State} {core : Nat} (victim : Nat) (h : (coreOf s core).hold = none) : giveCore s core victim = (s, 1) := by
  simp only [giveCore, h]

theorem giveCore_of_hold {s : State} {core : Nat} (victim : Nat) {h : Hold} (hh : (coreOf s core).hold = some h) :
    giveCore s core victim = if h.victim = victim then (setCore s core { coreOf s core with hold := none }, 1) else (s, 2) := by
  simp only [giveCore, hh]

/-- A TAKE for another victim than the hold's is refused (R339). -/
theorem takeCore_of_other {s : State} {core victim : Nat} {h : Hold} (hh : (coreOf s core).hold = some h) (hne : h.victim ≠ victim)
    (n want : Nat) (named : List Nat) : takeCore s core victim n want named = none := by
  simp only [takeCore, hh, Option.any_some, decide_eq_true hne, Bool.true_or, if_true]

/-- What a TAKE comes to: 2 when it is refused, its result word at once or, with victims still to fold, once they have (R339). -/
def takeEnd (s : State) (g : Group) (d : BitVec 5) (core : Nat) : Option (State × DWord) → R State
  | none => .ok (done s (g.wrW d.toNat 2))
  | some (s', word) =>
    if foldsPending s' core then .error (.stall (setGroup s' s.cur.group { g with reclaiming := some { core := core, dest := d, result := word } }))
    else .ok (done s' (g.wrW d.toNat word))

section
variable {s : State} {g : Group} {d c l : BitVec 5} {i : Instr} (hinstr : i = .reclaimTake d c l ∨ i = .reclaimGive d c l)
  (hi : Issues s g) (hp : g.privileged = true) (h0 : g.ctx = 0) (heven : l.toNat % 2 = 0)
  (hfree : UniFree s g [c.toNat, l.toNat, l.toNat + 1] [d.toNat])

include hinstr in
/-- TAKE and GIVE are one word (R338). -/
theorem exec_reclaim : exec i s = finish (reclaimStep s d c l) := by
  obtain rfl | rfl := hinstr <;> rfl

include hi hp h0 heven hfree

/-- A RECLAIM whose folds are done answers the result that its TAKE fixed (R339). -/
theorem reclaimStep_resumes {r : Reclaiming} (hr : g.reclaiming = some r) (hdone : foldsPending s r.core = false) :
    reclaimStep s d c l = .ok (done s ({ g with reclaiming := none }.wrW d.toNat r.result)) := by
  rw [reclaimStep, issuer_bind hi, privileged_ite hp, context0Only_bind h0, need_bind (decide_eq_true heven), useW_bind hfree]
  simp only [hr, hdone, Bool.false_eq_true, if_false]

/-- A RECLAIM begins as a GIVE or as a TAKE (R338). -/
theorem reclaimStep_begins (hnone : g.reclaiming = none) (hok : ReclaimOk (g.rdW c.toNat) (g.rdW l.toNat) (g.rdW (l.toNat + 1)))
    (hone : coreClaimed s (slice (g.rdW c.toNat) 0 10) = false) : reclaimStep s d c l = if (g.rdW c.toNat).getLsbD 10
    then .ok (done (giveCore s (slice (g.rdW c.toNat) 0 10) (slice (g.rdW c.toNat) 48 8)).1
      (g.wrW d.toNat (giveCore s (slice (g.rdW c.toNat) 0 10) (slice (g.rdW c.toNat) 48 8)).2))
    else takeEnd s g d (slice (g.rdW c.toNat) 0 10) (takeCore s (slice (g.rdW c.toNat) 0 10) (slice (g.rdW c.toNat) 48 8)
      (slice (g.rdW c.toNat) 16 12) (4096 * slice (g.rdW c.toNat) 32 8) (namedLanes (g.rdW l.toNat) (g.rdW (l.toNat + 1)))) := by
  rw [reclaimStep, issuer_bind hi, privileged_ite hp, context0Only_bind h0, need_bind (decide_eq_true heven), useW_bind hfree]
  simp only [hnone]
  rw [need_bind (reclaimOperands_ok hok), hone, if_neg Bool.false_ne_true]
  rfl

end

theorem reclaimCompletes : ReclaimCompletes := by
  intro s g d c l i hinstr hi hp h0 heven hfree
  rw [exec_reclaim hinstr]
  refine ⟨fun r hr hdone => congrArg finish (reclaimStep_resumes hi hp h0 heven hfree hr hdone), fun hnone hok hone => ?_⟩
  refine ⟨fun hgive => ?give, fun htake => ?take⟩
  case give =>
    rw [reclaimStep_begins hi hp h0 heven hfree hnone hok hone, if_pos hgive]
    refine ⟨fun hh => ?_, fun h hh => ?_⟩
    · rw [giveCore_of_free _ hh]
      rfl
    · rw [giveCore_of_hold _ hh]
      split <;> rfl
  case take =>
    rw [reclaimStep_begins hi hp h0 heven hfree hnone hok hone, htake, if_neg Bool.false_ne_true]
    refine ⟨fun hr => ?_, fun s' w hr hdone => ?_, fun h hh hne => takeCore_of_other hh hne _ _ _⟩
    · rw [hr]
      rfl
    · rw [hr]
      exact congrArg finish (if_neg (by rw [hdone]; exact Bool.false_ne_true))

/-! ### GROUP_FOLD -/

@[simp] theorem Group.wakeMonitors_foldCount (g : Group) (s : State) (gid code : Nat) : (g.wakeMonitors s gid code).foldCount = g.foldCount := by
  rw [Group.wakeMonitors, Group.onMonitors, Group.onLanes_foldCount]

@[simp] theorem Group.spillTo_foldCount (keep : List Nat) (n : Nat) (g : Group) : (g.spillTo keep n).foldCount = g.foldCount := by
  obtain ⟨sp, h⟩ := spillTo_eq keep n g
  rw [h]

section
variable {s : State} {gid : Nat} {g : Group} (hg : mget s.groups gid = some g)
include hg

/-- A planned fold is taken (R340, R341, R343); what it counts are the folds that change the residency level (R345). -/
theorem applyFold_of_plan {p : FoldPlan} (hp : g.foldPlan = some p) : applyFold s gid = setGroup s gid (if p.changes
    then Group.noticeDue { folded s gid g p with foldCount := g.foldCount + 1 } 0x20 else folded s gid g p) := by
  simp only [applyFold, hg, hp, folded, Group.spillTo_foldCount, Group.wakeMonitors_foldCount]

theorem exec_groupFold (hbetween : Between g) : exec (.groupFold gid) s =
    .next (if g.st.ended = false ∧ clocksStopped s g.core = false then applyFold s gid else s) := by
  change execGroupFold gid s = _
  simp only [execGroupFold, hg, betweenInstrs_of_between hbetween, Bool.true_and, Bool.and_eq_true, Bool.not_eq_true']

/-! ### GROUP_EXPAND and REGISTER_FILL -/

/-- The oldest group that can expand does so (R346). -/
theorem exec_groupExpand (hcan : wouldExpand s gid g = true)
    (hfirst : ∀ p ∈ groupsOn s g.core, p.2.age < g.age → wouldExpand s p.1 p.2 = false) :
    exec (.groupExpand gid) s = .next (if clocksStopped s g.core then s else noticeChanged s (expandAt s gid g)) := by
  have holder : ((groupsOn s g.core).any fun p => decide (p.2.age < g.age) && wouldExpand s p.1 p.2) = false :=
    List.any_eq_false.2 fun p hp h => by
      rw [Bool.and_eq_true, decide_eq_true_eq] at h
      exact Bool.false_ne_true ((hfirst p hp h.1).symm.trans h.2)
  change Host.Outcome.next (groupExpand s gid) = _
  simp only [groupExpand, hg, holder, hcan, Bool.false_eq_true, Bool.true_eq_false, false_or]

theorem exec_registerFill (name : Nat) : exec (.registerFill gid name) s =
    .next (if name ∈ g.wantFill ∧ name ∈ g.spilled ∧ clocksStopped s g.core = false
      then setGroup s gid ({ g with spilled := g.spilled.filter fun n => decide (n ≠ name) }.spillTo g.wantFill 96) else s) := by
  change Host.Outcome.next (registerFill s gid name) = _
  simp only [registerFill, hg, Bool.and_eq_true, List.contains_iff_mem, Bool.not_eq_true', and_assoc]

end

/-! ### SCRATCH_FILL -/

/-- A line back in physical scratch, touched now (R342). -/
def lineBack (now line : Nat) (t : Team) : Team := (t.setLine line { t.line line with spilled := false }).touch now [line]

/-- The fill of a spilled line (R342): in scratch of the team that no line stands in, in place of the least recently touched line that may
spill, or in free scratch of the core. -/
def lineFilled (s : State) (tid line : Nat) (t : Team) : State :=
  if t.residentLines < t.physical / 256 then setTeam s tid (lineBack s.tick line t)
  else match (spillable s tid t).head? with
    | some l => setTeam s tid (lineBack s.tick line (t.setLine l { t.line l with spilled := true }))
    | none => if 256 ≤ freeScratch s t.core
      then noticeChanged s (setTeam s tid (lineBack s.tick line { t with physical := t.physical + 256 })) else s

theorem exec_scratchFill {s : State} {tid line : Nat} {t : Team} (ht : mget s.teams tid = some t) (hspilled : (t.line line).spilled = true) :
    exec (.scratchFill tid line) s = .next (if clocksStopped s t.core then s else lineFilled s tid line t) := by
  change Host.Outcome.next (scratchFill s tid line) = _
  simp only [scratchFill, ht, hspilled, Bool.not_true, Bool.false_or]
  rfl

theorem foldEventsComplete : FoldEventsComplete := by
  refine ⟨fun s gid g p hg hp hbetween => ⟨fun hstill => ?_, fun hlives hruns => ?_⟩, fun s gid g hg => exec_groupExpand hg,
    fun s gid name g hg => exec_registerFill hg name, fun s tid line t ht hspilled => ⟨fun hstop => ?_, fun hruns => ?_⟩⟩
  · have hnot : ¬ (g.st.ended = false ∧ clocksStopped s g.core = false) := by
      rintro ⟨hlives, hruns⟩
      rw [hlives, hruns] at hstill
      exact hstill.elim Bool.false_ne_true Bool.false_ne_true
    rw [exec_groupFold hg hbetween, if_neg hnot]
  · rw [exec_groupFold hg hbetween, if_pos ⟨hlives, hruns⟩, applyFold_of_plan hg hp]
  · rw [exec_scratchFill ht hspilled, if_pos hstop]
  · rw [exec_scratchFill ht hspilled, hruns]
    rfl

/-- Settles O32: RECLAIM splits into its end, a GIVE and a TAKE; each fold event does what the state of its group or line has it do. -/
theorem reclaimAndFoldsComplete : Obligations.ReclaimAndFoldsComplete := ⟨reclaimCompletes, foldEventsComplete⟩

end Sys2Proof.Machine
end
